-- ==== Sys2Proof/Word.lean ====
section
/-! DEFINITION. The words of the part (spec 00_scope.md section 7, 11_frame_and_record_formats.md): the bit vectors that
the manual treats as bits, and the vector of three lengths. Everything a test could correct stands in Machine/. -/

namespace Sys2Proof

/-- One byte as it is sent on the cell line. -/
abbrev Byte := BitVec 8

/-- A zone mask, bit z for zone z (11.4). -/
abbrev ZoneMask := BitVec 32

/-- A member mask, bit n for station n (11.4). -/
abbrev StationMask := BitVec 16

/-- A probe's identity code (R106), and a request's tag (R158). -/
abbrev Code := BitVec 16

/-- The 32-bit check used as a fingerprint (R170). -/
abbrev Print := BitVec 32

/-- Three lengths in units of 0.1 µm, in cell coordinates or axis by axis. -/
structure Vec3 where
  x : Int
  y : Int
  z : Int
deriving DecidableEq, Repr, Inhabited

end Sys2Proof
end

