-- ==== Sys2Proof/Config.lean ====
section
/-! DEFINITION. What is fixed for a part or for a start: the numbers the chapters name, the configuration image as the
Start-up Loader holds it (R170, R171, R179), and the free values the manual leaves open. -/

namespace Sys2Proof

namespace Config

/-- Most non-release frames in the CONTROL queue (R12). -/
abbrev controlPlaces : Nat := 7
/-- Entries of the REPORT queue (R15). -/
abbrev reportEntries : Nat := 16
/-- Most POINT frames held in the REPORT queue (R15). -/
abbrev pointPlaces : Nat := 12
/-- REPORT frames at which DRAIN is entered (R17). -/
abbrev drainOn : Nat := 12
/-- REPORT frames at which NORMAL is entered again (R17). -/
abbrev drainOff : Nat := 4
/-- Drain run count of the CONTROL escape (R17). -/
abbrev drainRun : Nat := 4
/-- Sender retry limit (R18). -/
abbrev retryLimit : Nat := 8
/-- Veto windows the receiver veto record holds (R19). -/
abbrev vetoWindows : Nat := 256
/-- Veto count of RX_FAULT (R19). -/
abbrev vetoLimit : Nat := 16
/-- Frames the catch-up list holds (R26). -/
abbrev catchUpPlaces : Nat := 128
/-- Form wait in ms (R27). -/
abbrev formWait : Nat := 500
/-- Thermal periods of the join retry (R28). -/
abbrev joinRetryPeriods : Nat := 2
/-- Thermal periods of the silence limit (R40). -/
abbrev silencePeriods : Nat := 4
/-- Thermal periods of a point's late timer (R147). -/
abbrev latePeriods : Nat := 3
/-- Segments of a channel's queue (R74). -/
abbrev segmentPlaces : Nat := 16
/-- Entries of the point list (R143). -/
abbrev pointEntries : Nat := 24
/-- Accepted samples a filter window holds (R93). -/
abbrev windowSamples : Nat := 8
/-- Samples in a row that make or end an excursion (R94). -/
abbrev runLimit : Nat := 4
/-- Sampling interval in ms (R92). -/
abbrev samplePeriod : Nat := 100
/-- Rack lock delay in ms (R110). -/
abbrev lockDelay : Nat := 200
/-- Coupling wait in ms (R122). -/
abbrev couplingWait : Nat := 500
/-- Unlock wait in ms (R124). -/
abbrev unlockWait : Nat := 1000
/-- Confirm wait in ms (R124). -/
abbrev confirmWait : Nat := 1000
/-- Events the event list holds (R166). -/
abbrev eventPlaces : Nat := 8
/-- OUT hold-off in ms (R173). -/
abbrev outHoldOff : Nat := 5000
/-- Span of the repeated-OUT record in ms (R174). -/
abbrev outSpan : Nat := 600000
/-- Guard code of a RESTART (R164). -/
abbrev restartGuard : Nat := 0x6C39
/-- Stale persistence count that turns a list STALE (R136). -/
abbrev staleRuns : Nat := 3
/-- Largest touch count, where it stays (R137). -/
abbrev touchTop : Nat := 65535
/-- Largest passed count, where it stays (R51). -/
abbrev passedTop : Nat := 255

/-- FREE VALUE (log 10): the line count that STATUS page 0 shows while the line count is unset. R163 lists the line count
and no rule says how an unset one is sent; nothing constrains the n-th such value. -/
opaque unsetLineCount : Nat → Nat

end Config

/-- The roles of the cell part (R21), in the order of R178. -/
inductive Role where
  | unused | mc410 | program
deriving DecidableEq, Repr, Inhabited

/-- The kinds of zone (R44), in the order of 11.5. -/
inductive ZoneKind where
  | openZone | rack | home
deriving DecidableEq, Repr, Inhabited

/-- The kinds of thermal input that are sampled (R91), numbered from 1 (R178). -/
inductive ThermKind where
  | scaleX | scaleY | scaleZ | head | part
deriving DecidableEq, Repr, Inhabited

/-- A box of the workspace, end points included (R45). -/
structure Box where
  lo : Vec3
  hi : Vec3
deriving DecidableEq, Repr, Inhabited

/-- The static fields of a zone (R44). -/
structure ZoneCfg where
  kind : ZoneKind
  owner : Nat
  box : Box
deriving DecidableEq, Repr, Inhabited

/-- The static fields of a port (R109): seat position and approach offset. -/
structure PortCfg where
  seat : Vec3
  approach : Vec3
deriving DecidableEq, Repr, Inhabited

/-- The static fields of a probe (R106). -/
structure ProbeCfg where
  inUse : Bool
  code : Code
  home : Nat
  clearance : Nat
deriving DecidableEq, Repr, Inhabited

/-- The cell part of the configuration image (11.5), the same in every station of a cell. -/
structure CellPart where
  /-- roles of stations 1 to 14 -/
  roles : List Role
  /-- reporting program station of stations 1 to 14 -/
  reporting : List Nat
  rackStation : Nat
  /-- thermal period in ms -/
  period : Nat
  starve : Nat
  plausible : Nat
  staleBand : Nat
  gradient : Nat
  touchLimit : Nat
  bareClearance : Nat
  partAlpha : Nat
  partRef : Vec3
  rackA : Int
  rackB : Int
  rackSpeed : Nat
  zones : List ZoneCfg
  ports : List PortCfg
  probes : List ProbeCfg
deriving DecidableEq, Repr, Inhabited

/-- One axis of the station part (11.5). -/
structure AxisCfg where
  sign : Int
  origin : Int
  alpha : Nat
  lower : Int
  upper : Int
  following : Int
  homeOffset : Int
  searchDir : Nat
  searchSpeed : Nat
  searchRange : Nat
deriving DecidableEq, Repr, Inhabited

/-- The station part of the configuration image (11.5). -/
structure StationPart where
  /-- the declared axes, in the order X, Y, Z, A, B -/
  axes : List AxisCfg
  /-- fault filter time in ms -/
  filter : Nat
  /-- kinds of inputs 1 to 8, `none` for NONE -/
  inputs : List (Option ThermKind)
  activeTip : Nat
  indexRate : Nat
deriving DecidableEq, Repr, Inhabited

/-- A configuration image as the Loader holds it after R170. -/
structure Image where
  cell : CellPart
  own : StationPart
deriving DecidableEq, Repr, Inhabited

namespace Config

/-- The image held before the first one is read (log 9): no roles, no ports, no axes. DESIGN CHOICE. -/
def blankImage : Image where
  cell := { roles := List.replicate 14 .unused, reporting := List.replicate 14 0, rackStation := 0, period := 250, starve := 4,
            plausible := 10000, staleBand := 1000, gradient := 0, touchLimit := 0, bareClearance := 0, partAlpha := 0,
            partRef := ⟨0, 0, 0⟩, rackA := 0, rackB := 0, rackSpeed := 1,
            zones := List.replicate 32 ⟨.openZone, 0, ⟨⟨1, 1, 1⟩, ⟨0, 0, 0⟩⟩⟩, ports := [],
            probes := List.replicate 24 ⟨false, 0, 1, 0⟩ }
  own := { axes := [], filter := 1, inputs := List.replicate 8 none, activeTip := 1, indexRate := 1 }

end Config

end Sys2Proof
end

