-- ==== Sys2Proof/Syntax.lean ====
section
/-! DEFINITION. The commands of the block: one constructor of `Instr` for each row of spec/opcode_table.json, with the data
its event brings with it, and before it the types those data are made of: the enumerations of R178, the records of the
shared tables that snapshot frames carry (11.4), frame bodies, headers and request bodies. -/

namespace Sys2Proof

/-! ### Enumerations, each in the order of R178 -/

inductive ResetCause where
  | powerOn | requested | self
deriving DecidableEq, Repr, Inhabited

/-- Base priority of a claim (R49). -/
inductive Prio where
  | routine | change | recovery
deriving DecidableEq, Repr, Inhabited

/-- Purpose of a port reservation (R112). -/
inductive Purpose where
  | deposit | pickup
deriving DecidableEq, Repr, Inhabited

/-- Purpose of a SNAP_BEGIN (R33, R36). -/
inductive SnapPurpose where
  | serve | refuse
deriving DecidableEq, Repr, Inhabited

inductive Presence where
  | absent | present | unreported
deriving DecidableEq, Repr, Inhabited

inductive Lock where
  | locked | unlocked
deriving DecidableEq, Repr, Inhabited

/-- Custody of a probe (R107). -/
inductive Custody where
  | port (p : Nat)
  | transfer (p : Nat)
  | station (k : Nat)
  | lost
deriving DecidableEq, Repr, Inhabited

/-- State of a thermal input (R94). -/
inductive ThermState where
  | valid | settling | opened | excursion
deriving DecidableEq, Repr, Inhabited

inductive ChanId where
  | arm | head
deriving DecidableEq, Repr, Inhabited

/-- The six station modes (10.4). -/
inductive Mode where
  | loading | joining | active | parked | out | shut
deriving DecidableEq, Repr, Inhabited

inductive RosterState where
  | unseen | joining | active | silent | refused
deriving DecidableEq, Repr, Inhabited

inductive Condition where
  | usable | suspect
deriving DecidableEq, Repr, Inhabited

/-- The five axes (00_scope.md, section 2). -/
inductive Axis where
  | x | y | z | a | b
deriving DecidableEq, Repr, Inhabited

/-- One value for each axis. -/
structure PerAxis (α : Type) where
  x : α
  y : α
  z : α
  a : α
  b : α
deriving DecidableEq, Repr, Inhabited

/-- The same value for every axis. -/
def PerAxis.all {α : Type} (v : α) : PerAxis α := ⟨v, v, v, v, v⟩

/-- The value of one axis. -/
def PerAxis.get {α : Type} (t : PerAxis α) : Axis → α
  | .x => t.x
  | .y => t.y
  | .z => t.z
  | .a => t.a
  | .b => t.b

/-- `t` with the value of one axis replaced. -/
def PerAxis.set {α : Type} (t : PerAxis α) (v : α) : Axis → PerAxis α
  | .x => { t with x := v }
  | .y => { t with y := v }
  | .z => { t with z := v }
  | .a => { t with a := v }
  | .b => { t with b := v }

/-- Encoder counts of the five axes (R68). -/
abbrev Counts := PerAxis Int

/-- Access class of a frame kind (00_scope.md, section 6), lowest first (R2). -/
inductive FrameClass where
  | control | thermal | report
deriving DecidableEq, Repr, Inhabited

/-! ### Records of the shared tables -/

/-- A tip entry (R130) and the tip record it travels in (R178). -/
structure Tip where
  tip : Nat
  a : Nat
  b : Int
  off : Vec3
  radius : Nat
  stale : Bool
deriving DecidableEq, Repr, Inhabited

/-- The fields of a roster entry of role MC410 (R21); `fpMatch` is the mark of R25. -/
structure RosterEntry where
  state : RosterState
  cause : Option ResetCause
  homed : Bool
  parked : Bool
  serving : Option (Nat × Nat)
  stamp : Nat
  fpMatch : Bool
deriving DecidableEq, Repr, Inhabited

/-- The cell record (R23). -/
structure CellRecord where
  formed : Bool
  fingerprint : Print
  members : StationMask
deriving DecidableEq, Repr, Inhabited

/-- State and holder of a zone (R44): by its form a zone is held by one station at most. -/
inductive ZoneHold where
  | free
  | held (k : Nat)
  | orphaned (k : Nat)
deriving DecidableEq, Repr, Inhabited

/-- The dynamic fields of a zone (R44). -/
structure ZoneEntry where
  hold : ZoneHold
  stamp : Nat
deriving DecidableEq, Repr, Inhabited

/-- A pending claim (R50). -/
structure Claim where
  claimant : Nat
  wanted : ZoneMask
  base : Prio
  urgent : Bool
  passed : Nat
  count : Nat
deriving DecidableEq, Repr, Inhabited

/-- State of a port (R109). -/
inductive PortState where
  | empty
  | occupied (x : Nat)
  | reserved (k : Nat) (purpose : Purpose) (x : Nat)
  | unknown
deriving DecidableEq, Repr, Inhabited

/-- The dynamic fields of a port (R109). -/
structure PortEntry where
  state : PortState
  presence : Presence
  lock : Lock
  ident : Option Code
  takeSeen : Bool
  stamp : Nat
deriving DecidableEq, Repr, Inhabited

/-- The dynamic fields of a probe record (R106). -/
structure ProbeRec where
  custody : Custody
  cond : Condition
  touches : Nat
  staleRun : Nat
  qualTemp : Option Int
  tips : List Tip
  stamp : Nat
deriving DecidableEq, Repr, Inhabited

/-- An entry of the thermal board (R98). -/
structure BoardEntry where
  station : Nat
  input : Nat
  kind : ThermKind
  value : Int
  state : ThermState
  excluded : Bool
  stamp : Nat
deriving DecidableEq, Repr, Inhabited

/-! ### Frames -/

/-- One entry of a THERMAL frame (R97). -/
structure ThermEntry where
  input : Nat
  kind : ThermKind
  value : Int
  state : ThermState
deriving DecidableEq, Repr, Inhabited

/-- The six flags of a point (R152). -/
structure PointFlags where
  scaleUncorrected : Bool
  partUncorrected : Bool
  partGradient : Bool
  tipStale : Bool
  thermalLate : Bool
  haltDuring : Bool
deriving DecidableEq, Repr, Inhabited

/-- Body of a POINT (R153). -/
structure PointBody where
  seq : Nat
  tag : Code
  probe : Nat
  tip : Nat
  a : Nat
  b : Int
  count : Nat
  pos : Vec3
  dir : Vec3
  radius : Nat
  scaleX : Option Int
  scaleY : Option Int
  scaleZ : Option Int
  part : Option Int
  flags : PointFlags
deriving DecidableEq, Repr, Inhabited

/-- Body of an ANSWER (R159): `reason` is 0 in an ACCEPT, `page` the bytes of a status page or none. -/
structure AnswerBody where
  tag : Code
  code : Nat
  accept : Bool
  reason : Nat
  acceptance : Nat
  page : List Byte
deriving DecidableEq, Repr, Inhabited

/-- Body of an EVENT in its wire fields (11.4). -/
structure EventBody where
  number : Nat
  kind : Nat
  channel : Nat
  cause : Nat
  tagged : Bool
  tag : Code
  probe : Nat
  cond : Nat
  touches : Nat
  qualified : Nat
  stales : Nat
deriving DecidableEq, Repr, Inhabited

/-- Contents of a SNAP_ENTRY, one constructor a table and part (11.4). -/
inductive SnapContent where
  | roster (k : Nat) (role : Role) (e : RosterEntry) (heard : Option Nat)
  | cell (c : CellRecord)
  | zone (z : Nat) (e : ZoneEntry)
  | claim (place : Nat) (c : Claim)
  | port (p : Nat) (e : PortEntry)
  | probe (x : Nat) (custody : Custody) (cond : Condition) (touches staleRun : Nat) (qualTemp : Option Int) (stamp : Nat)
  | tips (x part : Nat) (t1 t2 t3 : Option Tip)
  | board (e : BoardEntry)
  | latchFirst (k probe n stamp : Nat) (t1 t2 t3 : Option Tip)
  | latchSecond (k : Nat) (t4 t5 t6 : Option Tip)
deriving DecidableEq, Repr, Inhabited

/-- The fields of a TOUCH request (11.4): distances in 0.01 mm, probing speed in 0.1 mm/s, traverse speed in mm/s. -/
structure TouchArgs where
  target : Vec3
  dir : Vec3
  approach : Nat
  retract : Nat
  probing : Nat
  speed : Nat
deriving DecidableEq, Repr, Inhabited

/-- What a REQUEST asks for (R158), with its argument values as sent: the Request Unit judges them. -/
inductive ReqBody where
  | move (target : Vec3) (speed recovery : Nat)
  | touch (t : TouchArgs)
  | home (channel : Nat)
  | index (a : Nat) (b : Int)
  | halt (sel : Nat)
  | clear (sel : Nat)
  | change (probe : Nat)
  | qualify (probe i n : Nat) (tip : Tip)
  | park
  | unpark
  | status (page : Nat)
  | restart (guardCode : Nat)
  | unknown (code : Nat) (args : List Byte)
deriving DecidableEq, Repr, Inhabited

/-- A frame body, one constructor for each of the 24 kinds (11.2, 11.4). -/
inductive Body where
  | form (fp : Print) (mask : StationMask)
  | join (fp : Print) (cause : ResetCause) (jn : Nat)
  | silence (k count : Nat)
  | snapBegin (purpose : SnapPurpose) (jn : Nat) (fp : Print) (entries : Nat)
  | snapEntry (jn : Nat) (c : SnapContent)
  | snapEnd (jn count : Nat) (fp : Print)
  | zoneClaim (mask : ZoneMask) (base : Prio)
  | zoneRelease (mask : ZoneMask) (withdraw : Bool)
  | forceRelease (mask : ZoneMask)
  | portReserve (p : Nat) (purpose : Purpose) (x : Nat)
  | portState (p : Nat) (present : Bool) (lock : Lock) (code : Option Code)
  | portAbandon (p : Nat) (maybeInside : Bool)
  | probeDeposit (m p : Nat)
  | probeTake (t p : Nat) (code : Option Code)
  | mountReport (code : Option Code)
  | custodySet (x : Nat) (c : Custody)
  | qualPart (x i n : Nat) (tip : Tip)
  | qualCommit (x n : Nat) (temp : Int)
  | probeMark (x : Nat)
  | thermal (es : List ThermEntry)
  | point (p : PointBody)
  | request (tag : Code) (r : ReqBody)
  | answer (a : AnswerBody)
  | event (e : EventBody)
deriving DecidableEq, Repr, Inhabited

/-- The header of a frame (11.1): sender, destination and the five sender flags of R3. -/
structure Hdr where
  sender : Nat
  dest : Nat
  active : Bool
  parked : Bool
  homed : Bool
  rack : Bool
  joining : Bool
deriving DecidableEq, Repr, Inhabited

/-- A frame: header and body. -/
structure Frame where
  h : Hdr
  body : Body
deriving DecidableEq, Repr, Inhabited

/-- The units (and ports) whose CONTROL frames can wait to be taken (R11). -/
inductive CtlSource where
  | joining | silence | claim | mark | change | mount
  | rack (p : Nat)
deriving DecidableEq, Repr, Inhabited

/-- THE COMMANDS. One constructor a row of spec/opcode_table.json, in the table's order. Completed frames carry their header
and body; requests carry the number of the station that sent them, their tag and their fields; events at the pins carry the
levels, codes and encoder counts read at that moment. -/
inductive Instr where
  | resetAssert
  | resetRelease (straps : Nat)
  | imageReadComplete (bytes : List Byte)
  | quietMomentContend
  | accessPrefixEnd (others : List (FrameClass × Nat))
  | frameReceived (bytes : List Byte)
  | vetoWindowVetoed
  | frameMalformed
  | form (h : Hdr) (fp : Print) (mask : StationMask) (enc : Counts := .all 0)
  | join (h : Hdr) (fp : Print) (cause : ResetCause) (jn : Nat)
  | silence (h : Hdr) (k count : Nat)
  | snapBegin (h : Hdr) (purpose : SnapPurpose) (jn : Nat) (fp : Print) (entries : Nat)
  | snapEntry (h : Hdr) (jn : Nat) (c : SnapContent)
  | snapEnd (h : Hdr) (jn count : Nat) (fp : Print) (enc : Counts := .all 0)
  | zoneClaim (h : Hdr) (mask : ZoneMask) (base : Prio)
  | zoneRelease (h : Hdr) (mask : ZoneMask) (withdraw : Bool)
  | forceRelease (h : Hdr) (mask : ZoneMask)
  | portReserve (h : Hdr) (p : Nat) (purpose : Purpose) (x : Nat)
  | portState (h : Hdr) (p : Nat) (present : Bool) (lock : Lock) (code : Option Code)
  | portAbandon (h : Hdr) (p : Nat) (maybeInside : Bool)
  | probeDeposit (h : Hdr) (m p : Nat)
  | probeTake (h : Hdr) (t p : Nat) (code : Option Code)
  | mountReport (h : Hdr) (code : Option Code)
  | custodySet (h : Hdr) (x : Nat) (c : Custody)
  | qualPart (h : Hdr) (x i n : Nat) (tip : Tip)
  | qualCommit (h : Hdr) (x n : Nat) (temp : Int)
  | probeMark (h : Hdr) (x : Nat)
  | thermal (h : Hdr) (es : List ThermEntry)
  | point (h : Hdr) (p : PointBody)
  | request (h : Hdr) (tag : Code) (r : ReqBody)
  | answer (h : Hdr) (a : AnswerBody) (straps : Nat := 0)
  | event (h : Hdr) (e : EventBody)
  | move (src : Nat) (tag : Code) (target : Vec3) (speed recovery : Nat) (enc : Counts := .all 0)
  | touch (src : Nat) (tag : Code) (t : TouchArgs) (enc : Counts := .all 0)
  | home (src : Nat) (tag : Code) (channel : Nat) (enc : Counts := .all 0)
  | index (src : Nat) (tag : Code) (a : Nat) (b : Int) (enc : Counts := .all 0)
  | halt (src : Nat) (tag : Code) (sel : Nat) (enc : Counts := .all 0)
  | clear (src : Nat) (tag : Code) (sel : Nat) (enc : Counts := .all 0)
  | change (src : Nat) (tag : Code) (probe : Nat) (enc : Counts := .all 0)
  | qualify (src : Nat) (tag : Code) (probe i n : Nat) (tip : Tip)
  | park (src : Nat) (tag : Code) (enc : Counts := .all 0)
  | unpark (src : Nat) (tag : Code) (enc : Counts := .all 0)
  | status (src : Nat) (tag : Code) (page : Nat)
  | restart (src : Nat) (tag : Code) (guardCode : Nat)
  | unknownRequest (src : Nat) (tag : Code) (code : Nat) (args : List Byte)
  | controlFrameReoffer (src : CtlSource)
  | pointFrameOffer
  | eventFrameOffer
  | snapFrameOffer
  | creditReserve (enc : Counts := .all 0)
  | zonesHeldStart (c : ChanId)
  | triggerAssertion (enc : Counts)
  | approachEnd (enc : Counts)
  | touchMiss (enc : Counts)
  | segmentComplete (c : ChanId) (enc : Counts)
  | stopEnd (c : ChanId) (enc : Counts)
  | homeMarkFound (ax : Axis)
  | followingError (ax : Axis) (enc : Counts)
  | encoderQuadratureError (ax : Axis) (enc : Counts)
  | driveFaultCounted (ax : Axis) (enc : Counts)
  | driveFaultReleased (ax : Axis)
  | presenceChange (p : Nat) (present : Bool) (code : Option Code)
  | lockDelayExpiry (p : Nat)
  | couplingSensorChange (held : Bool) (code : Option Code)
  | couplingWaitExpiry
  | unlockWaitExpiry
  | confirmWaitExpiry
  | lateTimerExpiry (seq : Nat)
  | thermalSample (ohms : List Nat)
  | thermalPeriodExpiry
  | thermalAgeReached
  | formWaitExpiry
  | joinRetryExpiry
  | silenceLimitReached (k : Nat)
  | outHoldOffExpiry (straps : Nat := 0)
  | triggerRelease
  | driveFaultAssertion (ax : Axis)
deriving DecidableEq, Repr, Inhabited

end Sys2Proof
end

