-- ==== Sys2Proof/Machine/State.lean ====
section
/-! DEFINITION. The state of one MC410 as plain data: its nine units (00_scope.md, section 3), its pins and its timers, the
queue of waiting commands, and `State.reset`, the station held in reset (R168). -/

namespace Sys2Proof.Machine

/-! ### Line Port (chapter 1) -/

/-- A frame waiting in a queue: its header flags are written when it starts on the line (R3). -/
structure Outgoing where
  dest : Nat
  body : Body
deriving DecidableEq, Repr, Inhabited

/-- Stage of the frame in flight (R3). -/
inductive Stage where
  | contending | sending | inWindow
deriving DecidableEq, Repr, Inhabited

/-- The frame in flight (R3): `since` is the moment a THERMAL's age started, `wire` the bytes put on the line. -/
structure Flight where
  item : Outgoing
  stage : Stage
  since : Nat
  wire : List Byte
deriving DecidableEq, Repr, Inhabited

/-- The THERMAL slot (R14): the frame and the moment its age started. -/
structure Slot where
  item : Outgoing
  since : Nat
deriving DecidableEq, Repr, Inhabited

/-- Reason of a veto (R4, R5). -/
inductive VetoReason where
  | check | busy
deriving DecidableEq, Repr, Inhabited

/-- The veto window that is open at this station: the well-formed frame received if it is one, the veto raised here and
whether an answer entry was reserved here (R4, R5). -/
structure Window where
  frame : Option Frame
  veto : Option VetoReason
  reserved : Bool
deriving DecidableEq, Repr, Inhabited

/-- What a last-heard entry counts (R10): nothing, a line count, or a join offset. -/
inductive HeardCount where
  | none
  | abs (n : Nat)
  | off (n : Nat)
deriving DecidableEq, Repr, Inhabited

/-- A last-heard entry with the moment of last hearing (R10). -/
structure Heard where
  count : HeardCount
  moment : Nat
deriving DecidableEq, Repr, Inhabited

/-- A CONTROL frame offered and not taken, with the unit that offered it (R11). -/
structure Waiting where
  src : CtlSource
  item : Outgoing
deriving DecidableEq, Repr, Inhabited

structure LinePort where
  /-- CONTROL frames waiting, head first; a CONTROL frame in flight is in `flight` alone -/
  control : List Outgoing
  thermal : Option Slot
  /-- REPORT frames waiting, head first -/
  report : List Outgoing
  /-- REPORT entries reserved for answers -/
  reserved : Nat
  flight : Option Flight
  window : Option Window
  /-- arbiter mode: DRAIN when true -/
  drain : Bool
  runCount : Nat
  retry : Nat
  /-- receiver veto record, oldest window first; true where this station raised a CHECK veto -/
  vetoLog : List Bool
  lineCount : Option Nat
  joinOffset : Nat
  /-- last-heard entries of stations 1 to 14 -/
  heard : List Heard
  waiting : List Waiting
deriving DecidableEq, Repr, Inhabited

/-! ### Replica Unit (chapters 2, 3, 5, 6, 7) -/

/-- What a filled staging latch holds (R133): parts 1 to 6. -/
structure LatchData where
  probe : Nat
  n : Nat
  parts : List (Option Tip)
deriving DecidableEq, Repr, Inhabited

structure Latch where
  data : Option LatchData
  stamp : Nat
deriving DecidableEq, Repr, Inhabited

/-- The shared tables (R21 to R23, R44, R51, R98, R102, R103, R106, R109, R133). -/
structure Replica where
  roster : List RosterEntry
  cell : CellRecord
  /-- change stamp of the cell record (R23) -/
  cellStamp : Nat
  zones : List ZoneEntry
  claims : List Claim
  ports : List PortEntry
  probes : List ProbeRec
  board : List BoardEntry
  partTemp : Option Int
  gradient : Bool
  latches : List Latch
deriving DecidableEq, Repr, Inhabited

/-- An accepted snapshot service (R36). -/
structure Service where
  sender : Nat
  jn : Nat
  announced : Nat
  received : Nat
deriving DecidableEq, Repr, Inhabited

/-- The pending replica (R37), with the last-heard counts its roster entries carried. -/
structure PendingReplica where
  tables : Replica
  heard : List (Option Nat)
deriving DecidableEq, Repr, Inhabited

/-- A frame of the catch-up list (R26): its join offset and, for a SILENCE, the last-heard entry of the station it names as
that entry stood when the frame completed (log 11). -/
structure CatchItem where
  frame : Frame
  offset : Nat
  named : HeardCount
deriving DecidableEq, Repr, Inhabited

/-- The shadow (R34): the frozen replica and last-heard counts, the service it is kept for, the JOIN's line count, and the
place of the next snapshot frame to offer. -/
structure Shadow where
  tables : Replica
  heard : List (Option Nat)
  joiner : Nat
  jn : Nat
  joinCount : Nat
  next : Nat
deriving DecidableEq, Repr, Inhabited

structure ReplicaUnit where
  tables : Replica
  joinNumber : Nat
  cellExists : Bool
  /-- the JOIN offered last has completed -/
  joinDone : Bool
  /-- moment at which the most recent JOIN completed -/
  joinMoment : Option Nat
  snapBeginSeen : Bool
  service : Option Service
  pendingRep : Option PendingReplica
  catchUp : List CatchItem
  /-- due moments -/
  formWait : Option Nat
  joinRetry : Option Nat
  /-- the attempt was abandoned and a JOIN is owed when the join retry runs out (R39) -/
  abandoned : Bool
  shadow : Option Shadow
  /-- refusal notices not yet taken: joiner and join number (R33) -/
  notices : List (Nat × Nat)
  /-- count of the SILENCE offered last for stations 1 to 14 (R40) -/
  noticed : List (Option Nat)
deriving DecidableEq, Repr, Inhabited

/-! ### Motion Unit (chapters 3 and 4) -/

inductive ChanState where
  | disabled | idle | waitTurn | waitCredit | waitZone | running | stopping | halted | stalled
deriving DecidableEq, Repr, Inhabited

/-- Stall causes in the order of R165. -/
inductive StallCause where
  | driveFault | following | encoder | collision
deriving DecidableEq, Repr, Inhabited

/-- Causes of CHANNEL_HALTED in the order of R165. -/
inductive HaltCause where
  | requested | zoneDeadlock | zoneForbidden | limit | notHomed | probeUnusable
deriving DecidableEq, Repr, Inhabited

/-- Phases of a TOUCH (R77): a RETRACT knows whether a capture or a miss came before it. -/
inductive Phase where
  | approach | probing | retract (captured : Bool)
deriving DecidableEq, Repr, Inhabited

/-- Kind and target of a segment (R74). `armTraverse` is a TRAVERSE of the Change Sequencer, whose target is an arm
position (R123). -/
inductive SegKind where
  | traverse (target : Vec3)
  | armTraverse (target : Vec3)
  | touch (t : TouchArgs)
  | home
  | index (a b : Int)
deriving DecidableEq, Repr, Inhabited

/-- Who gave a segment (R74). -/
inductive Origin where
  | request (tag : Code)
  | sequencer (runOn : Bool)
deriving DecidableEq, Repr, Inhabited

/-- A queued segment (R74). -/
structure Segment where
  acc : Nat
  kind : SegKind
  origin : Origin
  recovery : Bool
  /-- traverse speed in mm/s, or the index rate -/
  speed : Nat
  phase : Phase
  zoneSet : Option ZoneMask
  /-- axis positions commanded, set at the limit step and at each phase of a TOUCH (R76, R77) -/
  axisTarget : Option Counts
  credit : Bool
  haltSeen : Bool
  /-- the stop under way is the Change Sequencer's own (R128) -/
  quietStop : Bool
  /-- reference marks found by a HOME (R69) -/
  marks : PerAxis Bool
  /-- probe and tip entry the touch check found (R145) -/
  checked : Option (Nat × Tip)
deriving DecidableEq, Repr, Inhabited

structure Chan where
  state : ChanState
  queue : List Segment
  stall : Option StallCause
deriving DecidableEq, Repr, Inhabited

/-- The outstanding claim (R67). -/
inductive Outstanding where
  | none | offered | taken | recorded
deriving DecidableEq, Repr, Inhabited

structure MotionUnit where
  enc : Counts
  homed : PerAxis Bool
  /-- counted drive faults -/
  fault : PerAxis Bool
  /-- moment at which the fault filter started -/
  filter : PerAxis (Option Nat)
  arm : Chan
  head : Chan
  nextAcc : Nat
  outstanding : Outstanding
  /-- acceptance number of the segment that the claim offered last was offered for (R49, R63; the model's bookkeeping, log 43) -/
  claimFor : Nat
deriving DecidableEq, Repr, Inhabited

/-! ### Touch Capture Unit (chapter 8) -/

/-- The correction result of a point (R149 to R152). -/
structure Correction where
  pos : Vec3
  scaleX : Option Int
  scaleY : Option Int
  scaleZ : Option Int
  part : Option Int
  flags : PointFlags
deriving DecidableEq, Repr, Inhabited

/-- What a captured point holds (R143). -/
structure PointData where
  seq : Nat
  tag : Code
  count : Nat
  counts : Counts
  probe : Nat
  tip : Nat
  a : Int
  b : Int
  copy : Tip
  dir : Vec3
  haltDuring : Bool
  /-- due moment of the late timer -/
  lateDue : Nat
deriving DecidableEq, Repr, Inhabited

/-- An entry of the point list (R143). -/
inductive PointEntry where
  | free
  | reserved
  | pending (d : PointData)
  | ready (d : PointData) (c : Correction)
  | queued (d : PointData) (c : Correction)
deriving DecidableEq, Repr, Inhabited

structure TouchUnit where
  points : List PointEntry
  nextSeq : Nat
  latch : Option Counts
deriving DecidableEq, Repr, Inhabited

/-! ### Thermal Unit (chapter 5) -/

/-- A thermal input (R93, R94). -/
structure ThermInput where
  window : List Int
  good : Nat
  outside : Nat
  inside : Nat
  state : ThermState
deriving DecidableEq, Repr, Inhabited

structure ThermalUnit where
  inputs : List ThermInput
  /-- due moments of the next sample and of the period timer -/
  sampleDue : Option Nat
  periodDue : Option Nat
deriving DecidableEq, Repr, Inhabited

/-! ### Change Sequencer (chapter 6) -/

/-- States of the Change Sequencer, in the order of R178. -/
inductive ChangeState where
  | idle | claiming | reserveDeposit | unlockDeposit | insert | confirmDeposit | reservePickup | unlockPickup | engage | confirmTake
deriving DecidableEq, Repr, Inhabited

/-- Causes of CHANGE_FAILED in the order of R165. -/
inductive ChangeCause where
  | halted | collision | stalled | rackTimeout | depositUnconfirmed | rackLost | coupling | wrongProbe | limit | zoneForbidden
  | zoneDeadlock | notHomed
deriving DecidableEq, Repr, Inhabited

/-- What the sequencer's arm is doing within a state (R124, R125). -/
inductive Leg where
  | none | toApproach | toSeat | coupling | retract | done
deriving DecidableEq, Repr, Inhabited

structure Changer where
  state : ChangeState
  tag : Code
  /-- the probe changed to and its port -/
  t : Nat
  pt : Nat
  /-- the mounted probe and its home port, if any -/
  deposit : Option (Nat × Nat)
  route : ZoneMask
  code : Option Code
  leg : Leg
  /-- the coupling has shown HELD in ENGAGE -/
  heldSeen : Bool
  /-- coupling output: HELD when true -/
  output : Bool
  /-- due moments -/
  couplingWait : Option Nat
  unlockWait : Option Nat
  confirmWait : Option Nat
  /-- a failure whose end waits for motion (R128) -/
  failing : Option ChangeCause
  /-- a HALT came after the coupling showed HELD: fail when the PROBE_TAKE is applied (R126) -/
  haltOwed : Bool
  lastFailure : Option ChangeCause
deriving DecidableEq, Repr, Inhabited

/-! ### Rack Port Unit (chapter 6) -/

/-- One port of the Rack Port Unit (R110); a pending report stands in `LinePort.waiting`. -/
structure RackPort where
  lock : Lock
  /-- due moment of the lock delay -/
  lockDue : Option Nat
deriving DecidableEq, Repr, Inhabited

/-! ### Request Unit (chapter 9) -/

/-- A request delivered and not yet taken (R158). -/
structure Delivered where
  src : Nat
  tag : Code
  body : ReqBody
deriving DecidableEq, Repr, Inhabited

/-- Reasons of PROBE_CONDITION, in the order of R139. -/
inductive CondReason where
  | committed | commitVoid | staleTemperature | staleTouches | markedSuspect
deriving DecidableEq, Repr, Inhabited

/-- Events in the order of R165. -/
inductive Event where
  | channelIdle (c : ChanId)
  | channelHalted (c : ChanId) (cause : HaltCause) (tag : Option Code)
  | channelStalled (c : ChanId) (cause : StallCause) (tag : Option Code)
  | touchMissed (tag : Code)
  | changeDone (tag : Code) (probe : Nat)
  | changeFailed (tag : Code) (cause : ChangeCause)
  | probeCondition (probe : Nat) (reason : CondReason) (cond : Condition) (touches qualified stales : Nat)
  | stationMode (mode : Mode) (parked : Bool)
deriving DecidableEq, Repr, Inhabited

structure RequestUnit where
  delivered : List Delivered
  /-- the event list, oldest first, with the events' numbers -/
  events : List (Nat × Event)
  overflow : Bool
  discards : Nat
  nextEvent : Nat
  restartPending : Bool
deriving DecidableEq, Repr, Inhabited

/-! ### Start-up Loader (chapter 10) -/

inductive ShutReason where
  | strap | image | role | range | mismatch | repeatedOut
deriving DecidableEq, Repr, Inhabited

inductive OutCause where
  | lineFault | rxFault | silenced
deriving DecidableEq, Repr, Inhabited

structure Loader where
  mode : Mode
  /-- held in reset: RESET asserted or supply low (R168) -/
  held : Bool
  cause : ResetCause
  number : Nat
  image : Image
  fingerprint : Print
  /-- repeated-OUT record, oldest moment first (R174) -/
  outRecord : List Nat
  /-- due moment of the OUT hold-off -/
  holdOff : Option Nat
  shutReason : Option ShutReason
  outCause : Option OutCause
deriving DecidableEq, Repr, Inhabited

/-- Levels and codes at the pins (10.8). -/
structure Pins where
  straps : Nat
  trigger : Bool
  driveFault : PerAxis Bool
  /-- coupling sensor: HELD when true -/
  sensor : Bool
  headIdent : Option Code
  presence : List Bool
  portIdent : List (Option Code)
deriving DecidableEq, Repr, Inhabited

/-- The station: everything the spec gives the machine. -/
structure Station where
  now : Nat
  pins : Pins
  loader : Loader
  line : LinePort
  replica : ReplicaUnit
  motion : MotionUnit
  touch : TouchUnit
  thermal : ThermalUnit
  change : Changer
  rack : List RackPort
  request : RequestUnit
  /-- the model's own: how many free values have been used (log 10) -/
  freeUsed : Nat
deriving DecidableEq, Repr, Inhabited

/-- The machine's state: the station, and the commands that wait, first in first out. -/
structure State where
  stn : Station
  pending : List Instr
deriving DecidableEq, Repr, Inhabited

/-- Faults. The spec gives no event that stops the part outside its modes, so none is raised by any command (log 3). -/
inductive Fault where
  /-- Raised by no command: OUT and SHUT are station modes and are next states. Safe. -/
  | unreachable
deriving DecidableEq, Repr

/-- Refusals. -/
inductive Refusal where
  /-- Raised by an arm of `exec` whose command has no meaning yet; no arm does so. Safe. -/
  | notModelled (mnemonic : String)
deriving DecidableEq, Repr

/-! ### Reset values -/

namespace Replica

/-- The empty replica (R21, R23, R44, R98, R106, R109, R133). -/
def blank : Replica where
  roster := List.replicate 14 ⟨.unseen, none, false, false, none, 0, false⟩
  cell := ⟨false, 0, 0⟩
  cellStamp := 0
  zones := List.replicate 32 ⟨.free, 0⟩
  claims := []
  ports := List.replicate 12 ⟨.empty, .unreported, .locked, none, false, 0⟩
  probes := List.replicate 24 ⟨.lost, .usable, 0, 0, none, [], 0⟩
  board := []
  partTemp := none
  gradient := false
  latches := List.replicate 14 ⟨none, 0⟩

end Replica

/-- Line Port after power-on or a restart (R20). -/
def LinePort.reset : LinePort where
  control := []
  thermal := none
  report := []
  reserved := 0
  flight := none
  window := none
  drain := false
  runCount := 0
  retry := 0
  vetoLog := []
  lineCount := none
  joinOffset := 0
  heard := List.replicate 14 ⟨.none, 0⟩
  waiting := []

/-- Replica Unit after power-on or a restart (R43). -/
def ReplicaUnit.reset : ReplicaUnit where
  tables := Replica.blank
  joinNumber := 0
  cellExists := false
  joinDone := false
  joinMoment := none
  snapBeginSeen := false
  service := none
  pendingRep := none
  catchUp := []
  formWait := none
  joinRetry := none
  abandoned := false
  shadow := none
  notices := []
  noticed := List.replicate 14 none

/-- A DISABLED channel (R73). -/
def Chan.disabled : Chan := ⟨.disabled, [], none⟩

/-- Motion Unit after power-on (R90). -/
def MotionUnit.reset : MotionUnit where
  enc := .all 0
  homed := .all false
  fault := .all false
  filter := .all none
  arm := .disabled
  head := .disabled
  nextAcc := 1
  outstanding := .none
  claimFor := 0

/-- Touch Capture Unit after power-on or a restart (R157). -/
def TouchUnit.reset : TouchUnit where
  points := List.replicate 24 .free
  nextSeq := 0
  latch := none

/-- Thermal Unit after power-on or a restart (R95). -/
def ThermalUnit.reset : ThermalUnit where
  inputs := List.replicate 8 ⟨[], 0, 0, 0, .settling⟩
  sampleDue := none
  periodDue := none

/-- An idle Change Sequencer with coupling output `out` and last failure `fail` (R122). -/
def Changer.idleWith (out : Bool) (fail : Option ChangeCause) : Changer where
  state := .idle
  tag := 0
  t := 0
  pt := 0
  deposit := none
  route := 0
  code := none
  leg := .none
  heldSeen := false
  output := out
  couplingWait := none
  unlockWait := none
  confirmWait := none
  failing := none
  haltOwed := false
  lastFailure := fail

/-- Rack ports after power-on or a restart (R110). -/
def rackReset : List RackPort := List.replicate 12 ⟨.locked, none⟩

/-- Request Unit after power-on, a restart, or on entering OUT or SHUT (R167). -/
def RequestUnit.reset : RequestUnit where
  delivered := []
  events := []
  overflow := false
  discards := 0
  nextEvent := 0
  restartPending := false

/-- Pin levels at the very start (log 9: DESIGN CHOICE, the outside sets them). -/
def Pins.reset : Pins where
  straps := 0
  trigger := false
  driveFault := .all false
  sensor := false
  headIdent := none
  presence := List.replicate 12 false
  portIdent := List.replicate 12 none

/-- The Loader while the station is held in reset (R168). -/
def Loader.reset : Loader where
  mode := .loading
  held := true
  cause := .powerOn
  number := 0
  image := Config.blankImage
  fingerprint := 0
  outRecord := []
  holdOff := none
  shutReason := none
  outCause := none

/-- The station held in reset (R168). -/
def Station.reset : Station where
  now := 0
  pins := Pins.reset
  loader := Loader.reset
  line := LinePort.reset
  replica := ReplicaUnit.reset
  motion := MotionUnit.reset
  touch := TouchUnit.reset
  thermal := ThermalUnit.reset
  change := Changer.idleWith false none
  rack := rackReset
  request := RequestUnit.reset
  freeUsed := 0

/-- The machine right after power is applied: held in reset, no command waiting. -/
def State.reset : State where
  stn := Station.reset
  pending := []

end Sys2Proof.Machine
end

