-- ==== Sys2Proof/Machine/Outcome.lean ====
section
/-! DEFINITION. How a command's effect on the station becomes an outcome of the machine. -/

namespace Sys2Proof.Machine

/-- The next state of a command: the station changed, the queue as it is. -/
def onStation (f : Station → Station) (s : State) : Host.Outcome State Fault Refusal := .next { s with stn := f s.stn }

end Sys2Proof.Machine
end

