-- ==== Sys2Proof/Machine/Bytes.lean ====
section
/-! DEFINITION. Multi-byte fields, most significant byte first, signed fields in two's complement (chapter 11), readers of
them over a list of bytes, and the 32-bit check of R176. -/

namespace Sys2Proof.Machine

/-! ### Writing -/

/-- A number in `k` bytes, most significant first. -/
def putNat : Nat → Nat → List Byte
  | 0, _ => []
  | k + 1, n => BitVec.ofNat 8 (n / 256 ^ k) :: putNat k n

/-- A signed number in `k` bytes. -/
def putInt (k : Nat) (v : Int) : List Byte := putNat k (v % (256 ^ k : Nat)).toNat

/-- A flag field, 0 or 1 (R178). -/
def putFlag (b : Bool) : List Byte := putNat 1 (if b then 1 else 0)

/-- A temperature, or the no-value mark 0x8000 (R178). -/
def putTemp (t : Option Int) : List Byte := putInt 2 (t.getD (-32768))

/-- A position. -/
def putVec (v : Vec3) : List Byte := putInt 4 v.x ++ (putInt 4 v.y ++ putInt 4 v.z)

/-- A code-present flag and the identity code, sent as 0 where none. -/
def putCode (c : Option Code) : List Byte := putFlag c.isSome ++ putNat 2 (c.getD 0).toNat

/-! ### Reading -/

/-- A reader takes bytes from the front of a list and may fail. -/
abbrev Rd := StateT (List Byte) Option

/-- One byte. -/
def getByte : Rd Byte := fun l => match l with
  | [] => none
  | b :: r => some (b, r)

/-- The number `acc` goes on to after `k` more bytes. -/
def getNatFrom : Nat → Nat → Rd Nat
  | 0, acc => pure acc
  | k + 1, acc => do
    let b ← getByte
    getNatFrom k (acc * 256 + b.toNat)

/-- A number of `k` bytes. -/
def getNat (k : Nat) : Rd Nat := getNatFrom k 0

/-- The value of a two's complement field of `k` bytes. -/
def signedOf (k n : Nat) : Int := if 2 * n < 256 ^ k then (n : Int) else (n : Int) - (256 ^ k : Nat)

/-- A signed number of `k` bytes. -/
def getInt (k : Nat) : Rd Int := do
  let n ← getNat k
  pure (signedOf k n)

/-- What a code stands for; no reading where it stands for nothing. -/
def getEnum {α : Type} (f : Nat → Option α) : Rd α := fun l => match getNat 1 l with
  | none => none
  | some (n, r) => match f n with
    | none => none
    | some v => some (v, r)

/-- A flag, 0 or 1. -/
def flagOf : Nat → Option Bool
  | 0 => some false
  | 1 => some true
  | _ => none

def getFlag : Rd Bool := getEnum flagOf

def getTemp : Rd (Option Int) := do
  let v ← getInt 2
  pure (if v = -32768 then none else some v)

def getVec : Rd Vec3 := do
  let x ← getInt 4
  let y ← getInt 4
  let z ← getInt 4
  pure ⟨x, y, z⟩

/-- A code field of 16 bits. -/
def getWord : Rd Code := do
  let n ← getNat 2
  pure (BitVec.ofNat 16 n)

def getCode : Rd (Option Code) := do
  let p ← getFlag
  let c ← getWord
  pure (if p then some c else none)

/-- `n` readings one after the other. -/
def getMany {α : Type} (r : Rd α) : Nat → Rd (List α)
  | 0 => pure []
  | n + 1 => do
    let v ← r
    let vs ← getMany r n
    pure (v :: vs)

/-- Every byte that is left. -/
def getRest : Rd (List Byte) := fun l => some (l, [])

/-- The value a reader gives that takes the bytes to the last one. -/
def readAll {α : Type} (r : Rd α) (l : List Byte) : Option α :=
  match r l with
  | some (v, []) => some v
  | _ => none

/-! ### The check (R176) -/

/-- One bit of the reflected check. -/
def checkBit (c : Nat) : Nat := if c % 2 = 1 then (c / 2) ^^^ 0x82F63B78 else c / 2

/-- One byte of the check, least significant bit first. -/
def checkByte (c : Nat) (b : Byte) : Nat :=
  checkBit (checkBit (checkBit (checkBit (checkBit (checkBit (checkBit (checkBit (c ^^^ b.toNat))))))))

/-- The 32-bit check of R176: polynomial 0x1EDC6F41 in reflected form, initial value all ones, final complement. -/
def check32 (l : List Byte) : Print := BitVec.ofNat 32 (l.foldl checkByte 0xFFFFFFFF ^^^ 0xFFFFFFFF)

/-- A check as it is sent, most significant byte first. -/
def putPrint (p : Print) : List Byte := putNat 4 p.toNat

def getPrint : Rd Print := do
  let n ← getNat 4
  pure (BitVec.ofNat 32 n)

end Sys2Proof.Machine
end

