-- ==== Sys2Proof/Machine/Numbers.lean ====
section
/-! DEFINITION. The arithmetic and list helpers the chapters share: tables numbered from 1, rounding half away from zero
(00_scope.md, section 7), clamping, zone masks, and searches by halving that stand for the roots and square roots of R47 and
R92 so that no rounding is hidden. -/

namespace Sys2Proof.Machine

/-! ### Tables whose entries are numbered from 1 -/

/-- Entry `n` (1 and up) of a table, `d` where there is none. -/
def at1 {α : Type} (l : List α) (d : α) : Nat → α
  | 0 => d
  | k + 1 => l.getD k d

/-- The table with entry `n` (1 and up) replaced. -/
def set1 {α : Type} (l : List α) (n : Nat) (v : α) : List α :=
  match n with
  | 0 => l
  | k + 1 => l.set k v

/-- The table with every entry rewritten, the entry's number (1 and up) at hand. -/
def map1 {α : Type} (f : Nat → α → α) (l : List α) : List α := l.mapIdx (fun i v => f (i + 1) v)

/-! ### Rounding -/

/-- `num / den` rounded to the nearest integer, halves away from zero. -/
def roundDiv (num : Int) (den : Nat) : Int :=
  if num < 0 then -(((2 * num.natAbs + den) / (2 * den) : Nat) : Int) else (((2 * num.natAbs + den) / (2 * den) : Nat) : Int)

/-- Sum of a list of integers. -/
def sumInt (l : List Int) : Int := l.foldl (· + ·) 0

/-- Mean of a list, rounded; 0 for the empty list. -/
def meanRound (l : List Int) : Int := if l.isEmpty then 0 else roundDiv (sumInt l) l.length

/-- Nearer end of the signed 32-bit range for a value outside it (R150). -/
def clamp32 (v : Int) : Int := max (-2147483648) (min 2147483647 v)

/-- Nearer end of the signed 16-bit range for a value outside it (R92). -/
def clamp16 (v : Int) : Int := max (-32768) (min 32767 v)

/-- The largest number below `2 ^ bits` (above `base`) at which a test holds that holds up to some number and fails after it;
`base` where it fails at once. -/
def greatest (ok : Nat → Bool) : Nat → Nat → Nat
  | 0, base => base
  | i + 1, base => greatest ok i (if ok (base + 2 ^ i) then base + 2 ^ i else base)

/-! ### Zone masks -/

/-- The mask of the zones that a test picks. -/
def maskOf (p : Nat → Bool) : ZoneMask :=
  (List.range 32).foldl (fun m z => if p z then m ||| (1#32 <<< z) else m) 0#32

/-- Zones of `m` that are not in `n`. -/
def maskLess (m n : ZoneMask) : ZoneMask := m &&& ~~~n

/-- Whether two masks share a zone. -/
def meets (m n : ZoneMask) : Bool := (m &&& n) != 0#32

/-! ### Directions (R47) -/

/-- Sum of the squares of the three components. -/
def Vec3.normSq (d : Vec3) : Nat := d.x.natAbs ^ 2 + d.y.natAbs ^ 2 + d.z.natAbs ^ 2

/-- `dist` times a component `c`, divided by the square root of `n`, rounded half away from zero: the largest `k` with
`2k - 1 ≤ 2 |dist·c| / √n`. -/
def alongComponent (dist : Nat) (c : Int) (n : Nat) : Int :=
  let k : Nat := if n = 0 then 0 else greatest (fun k => decide ((2 * k - 1) ^ 2 * n ≤ 4 * (dist * c.natAbs) ^ 2)) 20 0
  if c < 0 then -(k : Int) else (k : Int)

/-- The vector of length `dist` along `d`, component by component (R47). -/
def along (dist : Nat) (d : Vec3) : Vec3 :=
  ⟨alongComponent dist d.x (Vec3.normSq d), alongComponent dist d.y (Vec3.normSq d), alongComponent dist d.z (Vec3.normSq d)⟩

/-- Sum, difference, least and greatest of two vectors, component by component. -/
def Vec3.add (u v : Vec3) : Vec3 := ⟨u.x + v.x, u.y + v.y, u.z + v.z⟩
def Vec3.sub (u v : Vec3) : Vec3 := ⟨u.x - v.x, u.y - v.y, u.z - v.z⟩
def Vec3.min (u v : Vec3) : Vec3 := ⟨Min.min u.x v.x, Min.min u.y v.y, Min.min u.z v.z⟩
def Vec3.max (u v : Vec3) : Vec3 := ⟨Max.max u.x v.x, Max.max u.y v.y, Max.max u.z v.z⟩

/-! ### Platinum sensors (R92) -/

/-- Twice 10⁸ times the resistance in µΩ at a temperature of `h` half-millikelvin above 0 °C, exactly:
1000 Ω × (1 + 3.9083 × 10⁻³ t − 5.775 × 10⁻⁷ t²) with t = h / 2000 °C. -/
def scaledOhms (h : Int) : Int := 200000000000000000 + 390830000000 * h - 28875 * h ^ 2

/-- Whether a resistance in µΩ lies in the measuring range of the pin page, 921.6 Ω to 1232.4 Ω. -/
def inRange (ohms : Nat) : Bool := decide (921600000 ≤ ohms) && decide (ohms ≤ 1232400000)

/-- The deviation from 20 °C in mK that a resistance in µΩ stands for, rounded half away from zero and clamped (R92). The
root of the equation is found by comparing the resistance with the exact one at the half-way points. -/
def deviation (ohms : Nat) : Int :=
  if scaledOhms 40000 ≤ 200000000 * (ohms : Int) then
    clamp16 (greatest (fun n => decide (scaledOhms (2 * (20000 + (n : Int)) - 1) ≤ 200000000 * (ohms : Int))) 16 0 : Nat)
  else
    clamp16 (-((greatest (fun n => decide (200000000 * (ohms : Int) ≤ scaledOhms (2 * (20000 - (n : Int)) + 1))) 16 0 : Nat) : Int))

end Sys2Proof.Machine
end

