-- ==== Sys2Proof/Machine/Image.lean ====
section
/-! DEFINITION. The configuration image (11.5): its layout, the size, guard and check steps of R170 and R179, and the role and
range checks of R171. -/

namespace Sys2Proof.Machine

/-! ### Reading the parts -/

def roleOf : Nat → Option Role
  | 0 => some .unused
  | 1 => some .mc410
  | 2 => some .program
  | _ => none

def zoneKindOf : Nat → Option ZoneKind
  | 0 => some .openZone
  | 1 => some .rack
  | 2 => some .home
  | _ => none

/-- A thermal kind, numbered from 1 (R178). -/
def thermKindOf : Nat → Option ThermKind
  | 1 => some .scaleX
  | 2 => some .scaleY
  | 3 => some .scaleZ
  | 4 => some .head
  | 5 => some .part
  | _ => none

/-- The kind of an input, 0 for NONE. -/
def inputKindOf : Nat → Option (Option ThermKind)
  | 0 => some none
  | n => (thermKindOf n).map some

def getBox : Rd Box := do
  let lo ← getVec
  let hi ← getVec
  pure ⟨lo, hi⟩

def getZone : Rd ZoneCfg := do
  let kind ← getEnum zoneKindOf
  let owner ← getNat 1
  let box ← getBox
  pure ⟨kind, owner, box⟩

def getPort : Rd PortCfg := do
  let seat ← getVec
  let approach ← getVec
  pure ⟨seat, approach⟩

def getProbe : Rd ProbeCfg := do
  let inUse ← getFlag
  let code ← getWord
  let home ← getNat 1
  let clearance ← getNat 2
  pure ⟨inUse, code, home, clearance⟩

/-- The cell part (11.5). -/
def getCell : Rd CellPart := do
  let roles ← getMany (getEnum roleOf) 14
  let reporting ← getMany (getNat 1) 14
  let rackStation ← getNat 1
  let period ← getNat 2
  let starve ← getNat 1
  let plausible ← getNat 2
  let staleBand ← getNat 2
  let gradient ← getNat 2
  let touchLimit ← getNat 2
  let bareClearance ← getNat 2
  let partAlpha ← getNat 2
  let partRef ← getVec
  let rackA ← getNat 1
  let rackB ← getInt 1
  let rackSpeed ← getNat 2
  let zones ← getMany getZone 32
  let p ← getNat 1
  let ports ← getMany getPort p
  let probes ← getMany getProbe 24
  pure { roles, reporting, rackStation, period, starve, plausible, staleBand, gradient, touchLimit, bareClearance, partAlpha,
         partRef, rackA := rackA, rackB, rackSpeed, zones, ports, probes }

def getAxis : Rd AxisCfg := do
  let sign ← getInt 1
  let origin ← getInt 4
  let alpha ← getNat 2
  let lower ← getInt 4
  let upper ← getInt 4
  let following ← getInt 4
  let homeOffset ← getInt 4
  let searchDir ← getNat 1
  let searchSpeed ← getNat 2
  let searchRange ← getNat 4
  pure ⟨sign, origin, alpha, lower, upper, following, homeOffset, searchDir, searchSpeed, searchRange⟩

/-- The station part (11.5). -/
def getStationPart : Rd StationPart := do
  let a ← getNat 1
  let axes ← getMany getAxis a
  let filter ← getNat 1
  let inputs ← getMany (getEnum inputKindOf) 8
  let activeTip ← getNat 1
  let indexRate ← getNat 2
  pure ⟨axes, filter, inputs, activeTip, indexRate⟩

/-! ### The judgement of R170 and R179 -/

/-- The memory as the Loader reads it: where it holds no byte it returns all ones (R170). -/
def memory (bytes : List Byte) : List Byte := (bytes ++ List.replicate 1500 0xFF#8).take 1500

/-- The `k` bytes from `i` on, as a number. -/
def fieldAt (m : List Byte) (i k : Nat) : Nat := ((m.drop i).take k).foldl (fun n b => n * 256 + b.toNat) 0

/-- Length and cell part length of an image. -/
def imageLength (m : List Byte) : Nat := fieldAt m 2 2
def cellLength (m : List Byte) : Nat := fieldAt m 4 2

/-- The bytes of the cell part and of the station part. -/
def cellBytes (m : List Byte) : List Byte := (m.drop 6).take (cellLength m)
def stationBytes (m : List Byte) : List Byte := (m.drop (6 + cellLength m)).take (imageLength m - cellLength m - 12)

/-- Every step of R170 with the size checks of R179. -/
def imageGood (m : List Byte) : Bool :=
  let n := imageLength m
  let l := cellLength m
  let p := fieldAt m 898 1
  let a := fieldAt m (6 + l) 1
  fieldAt m 0 2 == 0x4D47 && decide (1086 ≤ n) && decide (n ≤ 1500) && fieldAt m (n - 2) 2 == 0x7A15 &&
    fieldAt m (n - 6) 4 == (check32 (m.take (n - 6))).toNat &&
    decide (1 ≤ p) && decide (p ≤ 12) && l == 1037 + 24 * p && decide (a ≤ 5) && n == 6 + l + 13 + 30 * a + 6

/-- The role byte that the cell part gives station `k` is that of an MC410 (R171). -/
def roleGood (m : List Byte) (k : Nat) : Bool := fieldAt m (6 + (k - 1)) 1 == 1

/-- The image that the bytes stand for; none where a byte stands for no value (R171, reason RANGE). -/
def readImage (m : List Byte) : Option Image := do
  let cell ← readAll getCell (cellBytes m)
  let own ← readAll getStationPart (stationBytes m)
  pure ⟨cell, own⟩

/-! ### The range checks of R171 -/

/-- Role of a station number, UNUSED outside 1 to 14. -/
def roleIn (c : CellPart) (k : Nat) : Role := at1 c.roles .unused k

/-- A box none of whose sides is turned round (R45). -/
def boxNonEmpty (b : Box) : Bool := decide (b.lo.x ≤ b.hi.x) && decide (b.lo.y ≤ b.hi.y) && decide (b.lo.z ≤ b.hi.z)

/-- The zone conditions of R44 other than HOME ownership. -/
def zonesGood (c : CellPart) : Bool :=
  (c.zones.filter (fun z => z.kind == .rack)).length == 1 &&
    c.zones.all (fun z => z.kind != .home || roleIn c z.owner == .mc410) &&
    c.zones.all (fun z => z.kind == .openZone || boxNonEmpty z.box)

/-- The probe conditions of R106. -/
def probesGood (c : CellPart) : Bool :=
  decide ((c.probes.filter (·.inUse)).map (·.code)).Nodup &&
    c.probes.all (fun x => decide (1 ≤ x.home) && decide (x.home ≤ c.ports.length))

/-- The cell rows of R171. -/
def cellGood (c : CellPart) : Bool :=
  decide ((c.roles.filter (· == .mc410)).length ≤ 10) && decide ((c.roles.filter (· == .program)).length ≤ 2) &&
    roleIn c c.rackStation == .mc410 &&
    (List.range 14).all (fun i => roleIn c (i + 1) != .mc410 || roleIn c (at1 c.reporting 0 (i + 1)) == .program) &&
    zonesGood c && decide (1 ≤ c.ports.length) && decide (c.ports.length ≤ 12) && probesGood c &&
    [250, 500, 1000, 2000].contains c.period && decide (1 ≤ c.starve) && decide (c.starve ≤ 15) &&
    decide (1 ≤ c.plausible) && decide (c.plausible ≤ 32767) && decide (1 ≤ c.staleBand) && decide (c.staleBand ≤ 32767) &&
    decide (c.gradient ≤ 32767)

/-- Bounds that the soft limits of axis number `i` (X is 0) must keep. -/
def limitsGood (i : Nat) (a : AxisCfg) : Bool :=
  decide (a.lower ≤ a.upper) &&
    match i with
    | 3 => decide (0 ≤ a.lower) && decide (a.upper ≤ 14)
    | 4 => decide (-24 ≤ a.lower) && decide (a.upper ≤ 24)
    | _ => true

/-- How many inputs have a kind. -/
def kindCount (o : StationPart) (k : ThermKind) : Nat := (o.inputs.filter (· == some k)).length

/-- The input kinds meet R91. -/
def inputsGood (o : StationPart) : Bool :=
  let n := o.axes.length
  decide (kindCount o .scaleX ≤ if 1 ≤ n then 1 else 0) && decide (kindCount o .scaleY ≤ if 2 ≤ n then 1 else 0) &&
    decide (kindCount o .scaleZ ≤ if 3 ≤ n then 1 else 0) && decide (kindCount o .head ≤ if 1 ≤ n then 1 else 0)

/-- The station rows of R171, for station `k`. -/
def stationGood (c : CellPart) (o : StationPart) (k : Nat) : Bool :=
  let n := o.axes.length
  decide (n ≤ 5) && n != 4 && o.axes.all (fun a => a.sign == 1 || a.sign == -1) &&
    (o.axes.mapIdx limitsGood).all id && o.axes.all (fun a => decide (0 < a.following)) &&
    [1, 2, 4, 8].contains o.filter && decide (1 ≤ o.activeTip) && decide (o.activeTip ≤ 5) && inputsGood o &&
    (c.zones.filter (fun z => z.kind == .home && z.owner == k)).length == (if n = 0 then 0 else 1)

/-- Every range check of R171. -/
def rangeGood (im : Image) (k : Nat) : Bool := cellGood im.cell && stationGood im.cell im.own k

/-- What the Loader finds in a memory for the strap number `k` (R170, R171). -/
inductive Judged where
  | shut (r : ShutReason) (fp : Option Print)
  | good (im : Image) (fp : Print)
deriving DecidableEq, Repr

/-- The Loader's judgement: R170 and R179, then the role check, then the range checks. -/
def judgeImage (bytes : List Byte) (k : Nat) : Judged :=
  let m := memory bytes
  if !imageGood m then .shut .image none
  else
    let fp := check32 (cellBytes m)
    if !roleGood m k then .shut .role (some fp)
    else match readImage m with
      | none => .shut .range (some fp)
      | some im => if rangeGood im k then .good im fp else .shut .range (some fp)

/-! ### Writing an image -/

def roleCode : Role → Nat
  | .unused => 0
  | .mc410 => 1
  | .program => 2

def zoneKindCode : ZoneKind → Nat
  | .openZone => 0
  | .rack => 1
  | .home => 2

def thermKindCode : ThermKind → Nat
  | .scaleX => 1
  | .scaleY => 2
  | .scaleZ => 3
  | .head => 4
  | .part => 5

/-- The code of an input's kind, 0 for NONE (R178). -/
def inputKindCode : Option ThermKind → Nat
  | none => 0
  | some k => thermKindCode k

def putBox (b : Box) : List Byte := putVec b.lo ++ putVec b.hi

def putZone (z : ZoneCfg) : List Byte := putNat 1 (zoneKindCode z.kind) ++ putNat 1 z.owner ++ putBox z.box

def putPort (p : PortCfg) : List Byte := putVec p.seat ++ putVec p.approach

def putProbe (x : ProbeCfg) : List Byte := putFlag x.inUse ++ putNat 2 x.code.toNat ++ putNat 1 x.home ++ putNat 2 x.clearance

/-- The bytes of a cell part. -/
def putCell (c : CellPart) : List Byte :=
  c.roles.flatMap (fun r => putNat 1 (roleCode r)) ++ c.reporting.flatMap (putNat 1) ++ putNat 1 c.rackStation ++
    putNat 2 c.period ++ putNat 1 c.starve ++ putNat 2 c.plausible ++ putNat 2 c.staleBand ++ putNat 2 c.gradient ++
    putNat 2 c.touchLimit ++ putNat 2 c.bareClearance ++ putNat 2 c.partAlpha ++ putVec c.partRef ++ putInt 1 c.rackA ++
    putInt 1 c.rackB ++ putNat 2 c.rackSpeed ++ c.zones.flatMap putZone ++ putNat 1 c.ports.length ++ c.ports.flatMap putPort ++
    c.probes.flatMap putProbe

def putAxis (a : AxisCfg) : List Byte :=
  putInt 1 a.sign ++ putInt 4 a.origin ++ putNat 2 a.alpha ++ putInt 4 a.lower ++ putInt 4 a.upper ++ putInt 4 a.following ++
    putInt 4 a.homeOffset ++ putNat 1 a.searchDir ++ putNat 2 a.searchSpeed ++ putNat 4 a.searchRange

/-- The bytes of a station part. -/
def putStationPart (o : StationPart) : List Byte :=
  putNat 1 o.axes.length ++ o.axes.flatMap putAxis ++ putNat 1 o.filter ++ o.inputs.flatMap (fun k => putNat 1 (inputKindCode k)) ++
    putNat 1 o.activeTip ++ putNat 2 o.indexRate

/-- The memory contents that stand for an image (11.5). -/
def putImage (im : Image) : List Byte :=
  let cell := putCell im.cell
  let own := putStationPart im.own
  let front := putNat 2 0x4D47 ++ putNat 2 (cell.length + own.length + 12) ++ putNat 2 cell.length ++ cell ++ own
  front ++ putPrint (check32 front) ++ putNat 2 0x7A15

end Sys2Proof.Machine
end

