-- ==== Sys2Proof/Machine/Format.lean ====
section
/-! DEFINITION. Frames on the wire: kinds, classes and codes (11.2, 11.3), body layouts (11.4), what makes a frame malformed
(R8, R177), and what a receiver makes of the bytes it hears (R4, R176). -/

namespace Sys2Proof.Machine

/-! ### Codes of the enumerations (R178) -/

def causeCode : ResetCause → Nat
  | .powerOn => 0
  | .requested => 1
  | .self => 2

def causeOf : Nat → Option ResetCause
  | 0 => some .powerOn
  | 1 => some .requested
  | 2 => some .self
  | _ => none

/-- A reset cause with 3 for none. -/
def maybeCauseCode : Option ResetCause → Nat
  | none => 3
  | some c => causeCode c

def maybeCauseOf (n : Nat) : Option (Option ResetCause) := if n = 3 then some none else (causeOf n).map some

def prioCode : Prio → Nat
  | .routine => 0
  | .change => 1
  | .recovery => 2

def prioOf : Nat → Option Prio
  | 0 => some .routine
  | 1 => some .change
  | 2 => some .recovery
  | _ => none

def purposeCode : Purpose → Nat
  | .deposit => 0
  | .pickup => 1

def purposeOf : Nat → Option Purpose
  | 0 => some .deposit
  | 1 => some .pickup
  | _ => none

def snapPurposeCode : SnapPurpose → Nat
  | .serve => 0
  | .refuse => 1

def snapPurposeOf : Nat → Option SnapPurpose
  | 0 => some .serve
  | 1 => some .refuse
  | _ => none

def presenceCode : Presence → Nat
  | .absent => 0
  | .present => 1
  | .unreported => 2

def presenceOf : Nat → Option Presence
  | 0 => some .absent
  | 1 => some .present
  | 2 => some .unreported
  | _ => none

def lockCode : Lock → Nat
  | .locked => 0
  | .unlocked => 1

def lockOf : Nat → Option Lock
  | 0 => some .locked
  | 1 => some .unlocked
  | _ => none

def thermStateCode : ThermState → Nat
  | .valid => 0
  | .settling => 1
  | .opened => 2
  | .excursion => 3

def thermStateOf : Nat → Option ThermState
  | 0 => some .valid
  | 1 => some .settling
  | 2 => some .opened
  | 3 => some .excursion
  | _ => none

def rosterStateCode : RosterState → Nat
  | .unseen => 0
  | .joining => 1
  | .active => 2
  | .silent => 3
  | .refused => 4

def rosterStateOf : Nat → Option RosterState
  | 0 => some .unseen
  | 1 => some .joining
  | 2 => some .active
  | 3 => some .silent
  | 4 => some .refused
  | _ => none

def conditionCode : Condition → Nat
  | .usable => 0
  | .suspect => 1

def conditionOf : Nat → Option Condition
  | 0 => some .usable
  | 1 => some .suspect
  | _ => none

/-- Custody kind and value. -/
def custodyCode : Custody → Nat
  | .port _ => 0
  | .transfer _ => 1
  | .station _ => 2
  | .lost => 3

def custodyValue : Custody → Nat
  | .port p => p
  | .transfer p => p
  | .station k => k
  | .lost => 0

/-- The custody that a kind and a value name, within the ranges of R177. -/
def custodyOf (kind value : Nat) : Option Custody :=
  match kind with
  | 0 => if 1 ≤ value ∧ value ≤ 12 then some (.port value) else none
  | 1 => if 1 ≤ value ∧ value ≤ 12 then some (.transfer value) else none
  | 2 => if 1 ≤ value ∧ value ≤ 14 then some (.station value) else none
  | 3 => if value = 0 then some .lost else none
  | _ => none

/-! ### Kinds and classes (11.2) -/

def Body.kind : Body → Nat
  | .form .. => 0x10
  | .join .. => 0x11
  | .silence .. => 0x14
  | .snapBegin .. => 0x15
  | .snapEntry .. => 0x16
  | .snapEnd .. => 0x17
  | .zoneClaim .. => 0x21
  | .zoneRelease .. => 0x22
  | .forceRelease .. => 0x23
  | .portReserve .. => 0x31
  | .portState .. => 0x32
  | .portAbandon .. => 0x33
  | .probeDeposit .. => 0x34
  | .probeTake .. => 0x35
  | .mountReport .. => 0x36
  | .custodySet .. => 0x37
  | .qualPart .. => 0x41
  | .qualCommit .. => 0x42
  | .probeMark .. => 0x43
  | .thermal .. => 0x51
  | .point .. => 0x61
  | .request .. => 0x71
  | .answer .. => 0x72
  | .event .. => 0x73

def Body.cls : Body → FrameClass
  | .thermal .. => .thermal
  | .snapBegin .. => .report
  | .snapEntry .. => .report
  | .snapEnd .. => .report
  | .point .. => .report
  | .answer .. => .report
  | .event .. => .report
  | _ => .control

/-- SNAP_BEGIN, SNAP_ENTRY or SNAP_END. -/
def Body.isSnapshot : Body → Bool
  | .snapBegin .. => true
  | .snapEntry .. => true
  | .snapEnd .. => true
  | _ => false

def Body.isRequest : Body → Bool
  | .request .. => true
  | _ => false

def Body.isPoint : Body → Bool
  | .point .. => true
  | _ => false

def Body.isRelease : Body → Bool
  | .zoneRelease .. => true
  | _ => false

def Body.isClaim : Body → Bool
  | .zoneClaim .. => true
  | _ => false

/-- The kinds every station applies: CONTROL class other than REQUEST, and THERMAL (R7). -/
def Body.isReplicated (b : Body) : Bool :=
  match Body.cls b with
  | .control => !Body.isRequest b
  | .thermal => true
  | .report => false

/-! ### Tip records (R178) -/

/-- The key word of a tip record. -/
def tipKey (t : Tip) : Nat := t.tip * 8192 + t.a * 512 + (t.b + 24).toNat * 8 + (if t.stale then 1 else 0)

def putTip (t : Tip) : List Byte := putNat 2 (tipKey t) ++ (putVec t.off ++ putNat 2 t.radius)

/-- A slot of tip records: an empty one has tip number 0. -/
def putSlot : Option Tip → List Byte
  | none => List.replicate 16 0#8
  | some t => putTip t

/-- A tip record as it stands: tip number 0 to 7, A 0 to 15, B -24 to 39. -/
def getTipRaw : Rd Tip := do
  let key ← getNat 2
  let off ← getVec
  let radius ← getNat 2
  pure ⟨key / 8192, key / 512 % 16, ((key / 8 % 64 : Nat) : Int) - 24, off, radius, key % 2 == 1⟩

/-- The A and B fields lie in their ranges (R178). -/
def orientationGood (t : Tip) : Bool := decide (t.a ≤ 14) && decide (-24 ≤ t.b) && decide (t.b ≤ 24)

/-- A tip entry that is there: tip number 1 to 5. -/
def tipGood (t : Tip) : Bool := decide (1 ≤ t.tip) && decide (t.tip ≤ 5) && orientationGood t

/-- A slot within the tip record fields. -/
def slotOf (t : Tip) : Option (Option Tip) :=
  if !orientationGood t then none else if t.tip = 0 then some none else if t.tip ≤ 5 then some (some t) else none

def getSlot : Rd (Option Tip) := fun l => match getTipRaw l with
  | none => none
  | some (t, r) => match slotOf t with
    | none => none
    | some o => some (o, r)

/-! ### Bodies (11.4): writing -/

def putTherm (e : ThermEntry) : List Byte :=
  putNat 1 e.input ++ (putNat 1 (thermKindCode e.kind) ++ (putInt 2 e.value ++ putNat 1 (thermStateCode e.state)))

def flagsNat (f : PointFlags) : Nat :=
  (if f.scaleUncorrected then 1 else 0) + (if f.partUncorrected then 2 else 0) + (if f.partGradient then 4 else 0) +
    (if f.tipStale then 8 else 0) + (if f.thermalLate then 16 else 0) + (if f.haltDuring then 32 else 0)

/-- The flags that a flag byte stands for; bits 7 and 6 are not read. -/
def flagsOf (n : Nat) : PointFlags :=
  ⟨n % 2 == 1, n / 2 % 2 == 1, n / 4 % 2 == 1, n / 8 % 2 == 1, n / 16 % 2 == 1, n / 32 % 2 == 1⟩

def putPoint (p : PointBody) : List Byte :=
  putNat 2 p.seq ++ (putNat 2 p.tag.toNat ++ (putNat 1 p.probe ++ (putNat 1 p.tip ++ (putNat 1 p.a ++ (putInt 1 p.b ++
    (putNat 6 p.count ++ (putVec p.pos ++ (putInt 2 p.dir.x ++ (putInt 2 p.dir.y ++ (putInt 2 p.dir.z ++ (putNat 2 p.radius ++
    (putTemp p.scaleX ++ (putTemp p.scaleY ++ (putTemp p.scaleZ ++ (putTemp p.part ++ putNat 1 (flagsNat p.flags))))))))))))))))

/-- Request codes, in the order of R158. -/
def ReqBody.code : ReqBody → Nat
  | .move .. => 1
  | .touch .. => 2
  | .home .. => 3
  | .index .. => 4
  | .halt .. => 5
  | .clear .. => 6
  | .change .. => 7
  | .qualify .. => 8
  | .park => 9
  | .unpark => 10
  | .status .. => 11
  | .restart .. => 12
  | .unknown c _ => c

/-- Arguments of a request (11.4). -/
def putArgs : ReqBody → List Byte
  | .move t speed recovery => putVec t ++ (putNat 2 speed ++ putNat 1 recovery)
  | .touch t =>
    putVec t.target ++ (putInt 2 t.dir.x ++ (putInt 2 t.dir.y ++ (putInt 2 t.dir.z ++ (putNat 2 t.approach ++
      (putNat 2 t.retract ++ (putNat 2 t.probing ++ putNat 2 t.speed))))))
  | .home c => putNat 1 c
  | .index a b => putNat 1 a ++ putInt 1 b
  | .halt sel => putNat 1 sel
  | .clear sel => putNat 1 sel
  | .change x => putNat 1 x
  | .qualify x i n t => putNat 1 x ++ (putNat 1 i ++ (putNat 1 n ++ putTip t))
  | .park => []
  | .unpark => []
  | .status p => putNat 1 p
  | .restart g => putNat 2 g
  | .unknown _ args => args

def putAnswer (a : AnswerBody) : List Byte :=
  putNat 2 a.tag.toNat ++ (putNat 1 a.code ++ (putNat 1 (if a.accept then 0 else 1) ++ (putNat 1 a.reason ++
    (putNat 4 a.acceptance ++ a.page))))

def putEvent (e : EventBody) : List Byte :=
  putNat 2 e.number ++ (putNat 1 e.kind ++ (putNat 1 e.channel ++ (putNat 1 e.cause ++ (putFlag e.tagged ++
    (putNat 2 e.tag.toNat ++ (putNat 1 e.probe ++ (putNat 1 e.cond ++ (putNat 2 e.touches ++ (putNat 1 e.qualified ++
    putNat 1 e.stales)))))))))

/-- State code, reserver, purpose and probe of a port. -/
def portFields : PortState → Nat × Nat × Nat × Nat
  | .empty => (0, 0, 0, 0)
  | .occupied x => (1, 0, 0, x)
  | .reserved k purpose x => (2, k, purposeCode purpose, x)
  | .unknown => (3, 0, 0, 0)

def holdFields : ZoneHold → Nat × Nat
  | .free => (0, 0)
  | .held k => (1, k)
  | .orphaned k => (2, k)

/-- Table code, index and part of a SNAP_ENTRY (11.4). -/
def SnapContent.key : SnapContent → Nat × Nat × Nat
  | .roster k .. => (1, k, 0)
  | .cell _ => (2, 0, 0)
  | .zone z _ => (3, z, 0)
  | .claim i _ => (4, i, 0)
  | .port p _ => (5, p, 0)
  | .probe x .. => (6, x, 1)
  | .tips x part .. => (7, x, part)
  | .board e => (8, e.station, e.input)
  | .latchFirst k .. => (9, k, 1)
  | .latchSecond k .. => (9, k, 2)

def putContent : SnapContent → List Byte
  | .roster _ role e heard =>
    putNat 1 (roleCode role) ++ (putNat 1 (rosterStateCode e.state) ++ (putNat 1 (maybeCauseCode e.cause) ++
      (putFlag e.homed ++ (putFlag e.parked ++ (putNat 1 (e.serving.getD (0, 0)).1 ++ (putNat 1 (e.serving.getD (0, 0)).2 ++
      (putNat 6 e.stamp ++ (putFlag heard.isSome ++ putNat 6 (heard.getD 0)))))))))
  | .cell c => putFlag c.formed ++ (putPrint c.fingerprint ++ putNat 2 c.members.toNat)
  | .zone _ e => putNat 1 (holdFields e.hold).1 ++ (putNat 1 (holdFields e.hold).2 ++ putNat 6 e.stamp)
  | .claim _ c =>
    putNat 1 c.claimant ++ (putNat 4 c.wanted.toNat ++ (putNat 1 (prioCode c.base) ++ (putFlag c.urgent ++
      (putNat 1 c.passed ++ putNat 6 c.count))))
  | .port _ e =>
    let f := portFields e.state
    putNat 1 f.1 ++ (putNat 1 f.2.1 ++ (putNat 1 f.2.2.1 ++ (putNat 1 f.2.2.2 ++ (putNat 1 (presenceCode e.presence) ++
      (putNat 1 (lockCode e.lock) ++ (putCode e.ident ++ (putFlag e.takeSeen ++ putNat 6 e.stamp)))))))
  | .probe _ custody cond touches staleRun qualTemp stamp =>
    putNat 1 (custodyCode custody) ++ (putNat 1 (custodyValue custody) ++ (putNat 1 (conditionCode cond) ++
      (putNat 2 touches ++ (putNat 1 staleRun ++ (putTemp qualTemp ++ putNat 6 stamp)))))
  | .tips _ _ t1 t2 t3 => putSlot t1 ++ (putSlot t2 ++ putSlot t3)
  | .board e =>
    putNat 1 (thermKindCode e.kind) ++ (putInt 2 e.value ++ (putNat 1 (thermStateCode e.state) ++ (putFlag e.excluded ++
      putNat 6 e.stamp)))
  | .latchFirst _ probe n stamp t1 t2 t3 =>
    putNat 1 probe ++ (putNat 1 n ++ (putNat 6 stamp ++ (putSlot t1 ++ (putSlot t2 ++ putSlot t3))))
  | .latchSecond _ t4 t5 t6 => putSlot t4 ++ (putSlot t5 ++ putSlot t6)

/-- The bytes of a body (11.4). -/
def putBody : Body → List Byte
  | .form fp mask => putPrint fp ++ putNat 2 mask.toNat
  | .join fp cause jn => putPrint fp ++ (putNat 1 (causeCode cause) ++ putNat 1 jn)
  | .silence k count => putNat 1 k ++ putNat 6 count
  | .snapBegin purpose jn fp entries => putNat 1 (snapPurposeCode purpose) ++ (putNat 1 jn ++ (putPrint fp ++ putNat 2 entries))
  | .snapEntry jn c =>
    let key := SnapContent.key c
    putNat 1 jn ++ (putNat 1 key.1 ++ (putNat 1 key.2.1 ++ (putNat 1 key.2.2 ++ putContent c)))
  | .snapEnd jn count fp => putNat 1 jn ++ (putNat 6 count ++ putPrint fp)
  | .zoneClaim mask base => putNat 4 mask.toNat ++ putNat 1 (prioCode base)
  | .zoneRelease mask withdraw => putNat 4 mask.toNat ++ putFlag withdraw
  | .forceRelease mask => putNat 4 mask.toNat
  | .portReserve p purpose x => putNat 1 p ++ (putNat 1 (purposeCode purpose) ++ putNat 1 x)
  | .portState p present lock code => putNat 1 p ++ (putFlag present ++ (putNat 1 (lockCode lock) ++ putCode code))
  | .portAbandon p inside => putNat 1 p ++ putFlag inside
  | .probeDeposit m p => putNat 1 m ++ putNat 1 p
  | .probeTake t p code => putNat 1 t ++ (putNat 1 p ++ putCode code)
  | .mountReport code => putCode code
  | .custodySet x c => putNat 1 x ++ (putNat 1 (custodyCode c) ++ putNat 1 (custodyValue c))
  | .qualPart x i n t => putNat 1 x ++ (putNat 1 i ++ (putNat 1 n ++ putTip t))
  | .qualCommit x n temp => putNat 1 x ++ (putNat 1 n ++ putInt 2 temp)
  | .probeMark x => putNat 1 x
  | .thermal es => es.flatMap putTherm
  | .point p => putPoint p
  | .request tag r => putNat 2 tag.toNat ++ (putNat 1 (ReqBody.code r) ++ putArgs r)
  | .answer a => putAnswer a
  | .event e => putEvent e

/-- The sender flags byte (11.1). -/
def hdrFlags (h : Hdr) : Nat :=
  (if h.active then 1 else 0) + (if h.parked then 2 else 0) + (if h.homed then 4 else 0) + (if h.rack then 8 else 0) +
    (if h.joining then 16 else 0)

/-- Header and body of a frame. -/
def putFront (f : Frame) : List Byte :=
  let body := putBody f.body
  putNat 1 (Body.kind f.body) ++ (putNat 1 (f.h.sender * 16 + f.h.dest) ++ (putNat 1 (hdrFlags f.h) ++
    (putNat 1 body.length ++ body)))

/-- The bytes of a frame (R176). -/
def putFrame (f : Frame) : List Byte := putFront f ++ putPrint (check32 (putFront f))

/-! ### Bodies: reading -/

def getCause : Rd ResetCause := getEnum causeOf
def getPrio : Rd Prio := getEnum prioOf
def getPurpose : Rd Purpose := getEnum purposeOf
def getLock : Rd Lock := getEnum lockOf

def getCustody : Rd Custody := fun l => match getNat 1 l with
  | none => none
  | some (kind, r) => getEnum (custodyOf kind) r

def getTherm : Rd ThermEntry := do
  let input ← getNat 1
  let kind ← getEnum thermKindOf
  let value ← getInt 2
  let state ← getEnum thermStateOf
  pure ⟨input, kind, value, state⟩

def getPointBody : Rd PointBody := do
  let seq ← getNat 2
  let tag ← getWord
  let probe ← getNat 1
  let tip ← getNat 1
  let a ← getNat 1
  let b ← getInt 1
  let count ← getNat 6
  let pos ← getVec
  let dx ← getInt 2
  let dy ← getInt 2
  let dz ← getInt 2
  let radius ← getNat 2
  let scaleX ← getTemp
  let scaleY ← getTemp
  let scaleZ ← getTemp
  let part ← getTemp
  let flags ← getNat 1
  pure ⟨seq, tag, probe, tip, a, b, count, pos, ⟨dx, dy, dz⟩, radius, scaleX, scaleY, scaleZ, part, flagsOf flags⟩

/-- The arguments of a request code; outside 1 to 12 any bytes. -/
def getArgs (code : Nat) : Rd ReqBody :=
  match code with
  | 1 => do
    let t ← getVec
    let speed ← getNat 2
    let recovery ← getNat 1
    pure (.move t speed recovery)
  | 2 => do
    let t ← getVec
    let dx ← getInt 2
    let dy ← getInt 2
    let dz ← getInt 2
    let approach ← getNat 2
    let retract ← getNat 2
    let probing ← getNat 2
    let speed ← getNat 2
    pure (.touch ⟨t, ⟨dx, dy, dz⟩, approach, retract, probing, speed⟩)
  | 3 => do
    let c ← getNat 1
    pure (.home c)
  | 4 => do
    let a ← getNat 1
    let b ← getInt 1
    pure (.index a b)
  | 5 => do
    let sel ← getNat 1
    pure (.halt sel)
  | 6 => do
    let sel ← getNat 1
    pure (.clear sel)
  | 7 => do
    let x ← getNat 1
    pure (.change x)
  | 8 => do
    let x ← getNat 1
    let i ← getNat 1
    let n ← getNat 1
    let t ← getTipRaw
    pure (.qualify x i n t)
  | 9 => pure .park
  | 10 => pure .unpark
  | 11 => do
    let p ← getNat 1
    pure (.status p)
  | 12 => do
    let g ← getNat 2
    pure (.restart g)
  | c => do
    let args ← getRest
    pure (.unknown c args)

/-- The verdict of an answer: true for ACCEPT. -/
def verdictOf : Nat → Option Bool
  | 0 => some true
  | 1 => some false
  | _ => none

def getAnswer : Rd AnswerBody := do
  let tag ← getWord
  let code ← getNat 1
  let accept ← getEnum verdictOf
  let reason ← getNat 1
  let acceptance ← getNat 4
  let page ← getRest
  pure ⟨tag, code, accept, reason, acceptance, page⟩

def getEvent : Rd EventBody := do
  let number ← getNat 2
  let kind ← getNat 1
  let channel ← getNat 1
  let cause ← getNat 1
  let tagged ← getFlag
  let tag ← getWord
  let probe ← getNat 1
  let cond ← getNat 1
  let touches ← getNat 2
  let qualified ← getNat 1
  let stales ← getNat 1
  pure ⟨number, kind, channel, cause, tagged, tag, probe, cond, touches, qualified, stales⟩

/-- The contents of a SNAP_ENTRY for its table, index and part. -/
def getContent (table index part : Nat) : Rd SnapContent :=
  match table, part with
  | 1, 0 => do
    let role ← getEnum roleOf
    let state ← getEnum rosterStateOf
    let cause ← getEnum maybeCauseOf
    let homed ← getFlag
    let parked ← getFlag
    let sk ← getNat 1
    let sj ← getNat 1
    let stamp ← getNat 6
    let present ← getFlag
    let heard ← getNat 6
    pure (.roster index role ⟨state, cause, homed, parked, if sk = 0 then none else some (sk, sj), stamp, false⟩
      (if present then some heard else none))
  | 2, 0 => if index ≠ 0 then fun _ => none else do
    let formed ← getFlag
    let fp ← getPrint
    let mask ← getNat 2
    pure (.cell ⟨formed, fp, BitVec.ofNat 16 mask⟩)
  | 3, 0 => do
    let state ← getNat 1
    let holder ← getNat 1
    let stamp ← getNat 6
    match state with
    | 0 => pure (.zone index ⟨.free, stamp⟩)
    | 1 => pure (.zone index ⟨.held holder, stamp⟩)
    | 2 => pure (.zone index ⟨.orphaned holder, stamp⟩)
    | _ => fun _ => none
  | 4, 0 => do
    let claimant ← getNat 1
    let wanted ← getNat 4
    let base ← getPrio
    let urgent ← getFlag
    let passed ← getNat 1
    let count ← getNat 6
    pure (.claim index ⟨claimant, BitVec.ofNat 32 wanted, base, urgent, passed, count⟩)
  | 5, 0 => do
    let state ← getNat 1
    let reserver ← getNat 1
    let purpose ← getPurpose
    let x ← getNat 1
    let presence ← getEnum presenceOf
    let lock ← getLock
    let ident ← getCode
    let takeSeen ← getFlag
    let stamp ← getNat 6
    match state with
    | 0 => pure (.port index ⟨.empty, presence, lock, ident, takeSeen, stamp⟩)
    | 1 => pure (.port index ⟨.occupied x, presence, lock, ident, takeSeen, stamp⟩)
    | 2 => pure (.port index ⟨.reserved reserver purpose x, presence, lock, ident, takeSeen, stamp⟩)
    | 3 => pure (.port index ⟨.unknown, presence, lock, ident, takeSeen, stamp⟩)
    | _ => fun _ => none
  | 6, 1 => do
    let custody ← getCustody
    let cond ← getEnum conditionOf
    let touches ← getNat 2
    let staleRun ← getNat 1
    let qualTemp ← getTemp
    let stamp ← getNat 6
    pure (.probe index custody cond touches staleRun qualTemp stamp)
  | 7, p => do
    let t1 ← getSlot
    let t2 ← getSlot
    let t3 ← getSlot
    pure (.tips index p t1 t2 t3)
  | 8, input => do
    let kind ← getEnum thermKindOf
    let value ← getInt 2
    let state ← getEnum thermStateOf
    let excluded ← getFlag
    let stamp ← getNat 6
    pure (.board ⟨index, input, kind, value, state, excluded, stamp⟩)
  | 9, 1 => do
    let probe ← getNat 1
    let n ← getNat 1
    let stamp ← getNat 6
    let t1 ← getSlot
    let t2 ← getSlot
    let t3 ← getSlot
    pure (.latchFirst index probe n stamp t1 t2 t3)
  | 9, 2 => do
    let t4 ← getSlot
    let t5 ← getSlot
    let t6 ← getSlot
    pure (.latchSecond index t4 t5 t6)
  | _, _ => fun _ => none

/-- The body that a kind code and the body's bytes stand for. -/
def getBody (kind len : Nat) : Rd Body :=
  match kind with
  | 0x10 => do
    let fp ← getPrint
    let mask ← getNat 2
    pure (.form fp (BitVec.ofNat 16 mask))
  | 0x11 => do
    let fp ← getPrint
    let cause ← getCause
    let jn ← getNat 1
    pure (.join fp cause jn)
  | 0x14 => do
    let k ← getNat 1
    let count ← getNat 6
    pure (.silence k count)
  | 0x15 => do
    let purpose ← getEnum snapPurposeOf
    let jn ← getNat 1
    let fp ← getPrint
    let entries ← getNat 2
    pure (.snapBegin purpose jn fp entries)
  | 0x16 => do
    let jn ← getNat 1
    let table ← getNat 1
    let index ← getNat 1
    let part ← getNat 1
    let c ← getContent table index part
    pure (.snapEntry jn c)
  | 0x17 => do
    let jn ← getNat 1
    let count ← getNat 6
    let fp ← getPrint
    pure (.snapEnd jn count fp)
  | 0x21 => do
    let mask ← getNat 4
    let base ← getPrio
    pure (.zoneClaim (BitVec.ofNat 32 mask) base)
  | 0x22 => do
    let mask ← getNat 4
    let withdraw ← getFlag
    pure (.zoneRelease (BitVec.ofNat 32 mask) withdraw)
  | 0x23 => do
    let mask ← getNat 4
    pure (.forceRelease (BitVec.ofNat 32 mask))
  | 0x31 => do
    let p ← getNat 1
    let purpose ← getPurpose
    let x ← getNat 1
    pure (.portReserve p purpose x)
  | 0x32 => do
    let p ← getNat 1
    let present ← getFlag
    let lock ← getLock
    let code ← getCode
    pure (.portState p present lock code)
  | 0x33 => do
    let p ← getNat 1
    let inside ← getFlag
    pure (.portAbandon p inside)
  | 0x34 => do
    let m ← getNat 1
    let p ← getNat 1
    pure (.probeDeposit m p)
  | 0x35 => do
    let t ← getNat 1
    let p ← getNat 1
    let code ← getCode
    pure (.probeTake t p code)
  | 0x36 => do
    let code ← getCode
    pure (.mountReport code)
  | 0x37 => do
    let x ← getNat 1
    let c ← getCustody
    pure (.custodySet x c)
  | 0x41 => do
    let x ← getNat 1
    let i ← getNat 1
    let n ← getNat 1
    let t ← getTipRaw
    pure (.qualPart x i n { t with stale := false })
  | 0x42 => do
    let x ← getNat 1
    let n ← getNat 1
    let temp ← getInt 2
    pure (.qualCommit x n temp)
  | 0x43 => do
    let x ← getNat 1
    pure (.probeMark x)
  | 0x51 => do
    let es ← getMany getTherm (len / 5)
    pure (.thermal es)
  | 0x61 => do
    let p ← getPointBody
    pure (.point p)
  | 0x71 => do
    let tag ← getWord
    let code ← getNat 1
    let r ← getArgs code
    pure (.request tag r)
  | 0x72 => do
    let a ← getAnswer
    pure (.answer a)
  | 0x73 => do
    let e ← getEvent
    pure (.event e)
  | _ => fun _ => none

/-! ### What is malformed (R8, R177) -/

/-- Whether a mask names only numbers of role MC410. -/
def maskGood (c : CellPart) (mask : StationMask) : Bool :=
  (List.range 16).all (fun k => !mask.getLsbD k || roleIn c k == .mc410)

def portNumber (p : Nat) : Bool := decide (1 ≤ p) && decide (p ≤ 12)
def probeNumber (x : Nat) : Bool := decide (1 ≤ x) && decide (x ≤ 24)
def stationNumber (k : Nat) : Bool := decide (1 ≤ k) && decide (k ≤ 14)
def partNumber (i : Nat) : Bool := decide (1 ≤ i) && decide (i ≤ 6)
def joinNumberGood (j : Nat) : Bool := decide (1 ≤ j) && decide (j ≤ 255)

/-- A slot holds nothing or a tip entry. -/
def slotGood : Option Tip → Bool
  | none => true
  | some t => tipGood t

def custodyGood : Custody → Bool
  | .port p => portNumber p
  | .transfer p => portNumber p
  | .station k => stationNumber k
  | .lost => true

/-- Index and part within the table (11.2). Places in the claim list are counted from the head; 0 to 10 is accepted (log 12). -/
def contentGood : SnapContent → Bool
  | .roster k .. => stationNumber k
  | .cell _ => true
  | .zone z _ => decide (z ≤ 31)
  | .claim i _ => decide (i ≤ 10)
  | .port p _ => portNumber p
  | .probe x custody .. => probeNumber x && custodyGood custody
  | .tips x part t1 t2 t3 => probeNumber x && (part == 2 || part == 3) && slotGood t1 && slotGood t2 && slotGood t3
  | .board e => stationNumber e.station && decide (1 ≤ e.input) && decide (e.input ≤ 8)
  | .latchFirst k _ _ _ t1 t2 t3 => stationNumber k && slotGood t1 && slotGood t2 && slotGood t3
  | .latchSecond k t4 t5 t6 => stationNumber k && slotGood t4 && slotGood t5 && slotGood t6

/-- The fields with a format range (11.2, R177). -/
def bodyGood (c : CellPart) : Body → Bool
  | .form _ mask => maskGood c mask
  | .join _ _ jn => joinNumberGood jn
  | .silence k _ => stationNumber k
  | .snapBegin _ jn _ _ => joinNumberGood jn
  | .snapEntry _ content => contentGood content
  | .snapEnd jn _ _ => joinNumberGood jn
  | .zoneClaim .. => true
  | .zoneRelease .. => true
  | .forceRelease .. => true
  | .portReserve p _ x => portNumber p && probeNumber x
  | .portState p .. => portNumber p
  | .portAbandon p _ => portNumber p
  | .probeDeposit m p => probeNumber m && portNumber p
  | .probeTake t p _ => probeNumber t && portNumber p
  | .mountReport _ => true
  | .custodySet x custody => probeNumber x && custodyGood custody
  | .qualPart x i n t => probeNumber x && partNumber i && partNumber n && tipGood t
  | .qualCommit x n _ => probeNumber x && partNumber n
  | .probeMark x => probeNumber x
  | .thermal es =>
    decide (es.length ≤ 8) && decide ((es.map (·.input)).Nodup) && es.all (fun e => decide (1 ≤ e.input) && decide (e.input ≤ 8))
  | .point p =>
    probeNumber p.probe && decide (1 ≤ p.tip) && decide (p.tip ≤ 5) && decide (p.a ≤ 14) && decide (-24 ≤ p.b) && decide (p.b ≤ 24)
  | .request _ r =>
    match r with
    | .unknown code args => (code == 0 || decide (13 ≤ code)) && decide (args.length ≤ 57)
    | _ => true
  | .answer a => [0, 24, 25].contains a.page.length
  | .event e => decide (1 ≤ e.kind) && decide (e.kind ≤ 8)

/-- Whether the role that the cell part gives the sender may send the kind (R8). -/
def mayKind (c : CellPart) (sender : Nat) (b : Body) : Bool :=
  match roleIn c sender with
  | .unused => false
  | .mc410 =>
    match b with
    | .request .. => false
    | .forceRelease .. => false
    | .custodySet .. => false
    | .portState .. => sender == c.rackStation
    | _ => true
  | .program =>
    match b with
    | .request .. => true
    | .forceRelease .. => true
    | .custodySet .. => true
    | _ => false

/-- The destinations a kind may carry (11.1). -/
def destGood (dest : Nat) (b : Body) : Bool :=
  decide (dest ≤ 14) && (if Body.isReplicated b then dest == 0 else Body.isRequest b || dest != 0)

/-- A frame that passes its check keeps the format; otherwise it is malformed (R8, R177). -/
def formatGood (c : CellPart) (f : Frame) : Bool :=
  stationNumber f.h.sender && destGood f.h.dest f.body && mayKind c f.h.sender f.body && bodyGood c f.body

/-! ### Reception (R4, R176) -/

/-- What a receiver makes of the bytes it hears. -/
inductive Reception where
  /-- the check is wrong, the frame is too short or the header cannot be read: a CHECK veto -/
  | bad
  | malformed
  | good (f : Frame)
deriving DecidableEq, Repr

/-- The header that the second and third byte stand for; bits 7 to 5 of the flags are not read (11.1). -/
def hdrOf (sd fl : Nat) : Hdr :=
  ⟨sd / 16, sd % 16, fl % 2 == 1, fl / 2 % 2 == 1, fl / 4 % 2 == 1, fl / 8 % 2 == 1, fl / 16 % 2 == 1⟩

/-- Reception of a frame: the check first, then the format. -/
def receive (c : CellPart) (bytes : List Byte) : Reception :=
  match bytes with
  | kind :: sd :: fl :: len :: rest =>
    let n := len.toNat
    if rest.length < n + 4 then .bad
    else if (rest.drop n).take 4 ≠ putPrint (check32 (kind :: sd :: fl :: len :: rest.take n)) then .bad
    else if 60 < n then .malformed
    else match readAll (getBody kind.toNat n) (rest.take n) with
      | none => .malformed
      | some body =>
        let f : Frame := ⟨hdrOf sd.toNat fl.toNat, body⟩
        if formatGood c f then .good f else .malformed
  | _ => .bad

/-! ### What the wire can carry -/

/-- A signed value that a field of `k` bytes carries unchanged. -/
def intFits (k : Nat) (v : Int) : Bool := decide (-(256 ^ k : Nat) ≤ 2 * v) && decide (2 * v < (256 ^ k : Nat))

def natFits (k n : Nat) : Bool := decide (n < 256 ^ k)

def vecFits (k : Nat) (v : Vec3) : Bool := intFits k v.x && intFits k v.y && intFits k v.z

/-- A temperature or none: the mark is never a value. -/
def tempFits : Option Int → Bool
  | none => true
  | some v => intFits 2 v && v != -32768

/-- A tip record that its sixteen bytes carry unchanged. -/
def tipFits (t : Tip) : Bool :=
  decide (t.tip ≤ 7) && decide (t.a ≤ 15) && decide (-24 ≤ t.b) && decide (t.b ≤ 39) && vecFits 4 t.off && natFits 2 t.radius

def slotFits : Option Tip → Bool
  | none => true
  | some t => tipFits t

def argsFit : ReqBody → Bool
  | .move t speed recovery => vecFits 4 t && natFits 2 speed && natFits 1 recovery
  | .touch t => vecFits 4 t.target && vecFits 2 t.dir && natFits 2 t.approach && natFits 2 t.retract && natFits 2 t.probing && natFits 2 t.speed
  | .home c => natFits 1 c
  | .index a b => natFits 1 a && intFits 1 b
  | .halt sel => natFits 1 sel
  | .clear sel => natFits 1 sel
  | .change x => natFits 1 x
  | .qualify x i n t => natFits 1 x && natFits 1 i && natFits 1 n && tipFits t
  | .park => true
  | .unpark => true
  | .status p => natFits 1 p
  | .restart g => natFits 2 g
  | .unknown code _ => natFits 1 code

/-- Fields of a port's state that its bytes carry. -/
def portFits : PortState → Bool
  | .empty => true
  | .occupied x => natFits 1 x
  | .reserved k _ x => natFits 1 k && natFits 1 x
  | .unknown => true

def contentFits : SnapContent → Bool
  | .roster _ _ e heard =>
    natFits 6 e.stamp && natFits 6 (heard.getD 0) && !e.fpMatch &&
      (match e.serving with
        | none => true
        | some (k, j) => k != 0 && natFits 1 k && natFits 1 j)
  | .cell _ => true
  | .zone _ e => natFits 6 e.stamp && natFits 1 (holdFields e.hold).2
  | .claim _ c => natFits 1 c.claimant && natFits 1 c.passed && natFits 6 c.count
  | .port _ e => natFits 6 e.stamp && portFits e.state
  | .probe _ _ _ touches staleRun qualTemp stamp => natFits 2 touches && natFits 1 staleRun && tempFits qualTemp && natFits 6 stamp
  | .tips _ _ t1 t2 t3 => slotFits t1 && slotFits t2 && slotFits t3
  | .board e => intFits 2 e.value && natFits 6 e.stamp
  | .latchFirst _ probe n stamp t1 t2 t3 =>
    natFits 1 probe && natFits 1 n && natFits 6 stamp && slotFits t1 && slotFits t2 && slotFits t3
  | .latchSecond _ t4 t5 t6 => slotFits t4 && slotFits t5 && slotFits t6

/-- Every number of a body fits the bytes that 11.4 gives it. -/
def bodyFits : Body → Bool
  | .form .. => true
  | .join .. => true
  | .silence _ count => natFits 6 count
  | .snapBegin _ _ _ entries => natFits 2 entries
  | .snapEntry jn c => natFits 1 jn && contentFits c
  | .snapEnd _ count _ => natFits 6 count
  | .qualPart _ _ _ t => tipFits t && !t.stale
  | .qualCommit _ _ temp => intFits 2 temp
  | .thermal es => es.all (fun e => intFits 2 e.value)
  | .point p =>
    natFits 2 p.seq && natFits 6 p.count && vecFits 4 p.pos && vecFits 2 p.dir && natFits 2 p.radius && tempFits p.scaleX &&
      tempFits p.scaleY && tempFits p.scaleZ && tempFits p.part
  | .request _ r => argsFit r
  | .answer a => natFits 1 a.code && natFits 1 a.reason && natFits 4 a.acceptance
  | .event e =>
    natFits 2 e.number && natFits 1 e.channel && natFits 1 e.cause && natFits 1 e.probe && natFits 1 e.cond &&
      natFits 2 e.touches && natFits 1 e.qualified && natFits 1 e.stales
  | _ => true

end Sys2Proof.Machine
end

