-- ==== Sys2Proof/Machine/Flags.lean ====
section
/-! DEFINITION. What is read off the state: the station's own number and image, its kind, whether it takes part in the line
(R1), the sender flags of R3, and the outputs that follow the mode (R72, R172). -/

namespace Sys2Proof.Machine

/-- The cell part and the station part of the image held. -/
def cellOf (s : Station) : CellPart := s.loader.image.cell
def ownOf (s : Station) : StationPart := s.loader.image.own

/-- The station's own number. -/
def me (s : Station) : Nat := s.loader.number

/-- The axes the station part declares, in the order X, Y, Z, A, B (R171). -/
def axesUpTo (n : Nat) : List Axis := [Axis.x, .y, .z, .a, .b].take n

def axesOf (s : Station) : List Axis := axesUpTo (ownOf s).axes.length

/-- Place of an axis in the station part. -/
def axisIndex : Axis → Nat
  | .x => 0
  | .y => 1
  | .z => 2
  | .a => 3
  | .b => 4

def declared (s : Station) (ax : Axis) : Bool := decide (axisIndex ax < (ownOf s).axes.length)

/-- The station part's values for an axis. -/
def axisCfg (o : StationPart) (ax : Axis) : AxisCfg := o.axes.getD (axisIndex ax) ⟨1, 0, 0, 0, 0, 0, 0, 0, 0, 0⟩

/-- The image names this station as the rack station (R171). -/
def isRack (s : Station) : Bool := me s == (cellOf s).rackStation

/-- An arm station: not the rack station, with one axis or more (R171). -/
def isArm (s : Station) : Bool := !isRack s && (ownOf s).axes.length != 0

/-- The station sends, vetoes and takes completed frames: JOINING, ACTIVE and PARKED (R1), and not held in reset (R168). -/
def listening (s : Station) : Bool :=
  !s.loader.held && match s.loader.mode with
    | .joining => true
    | .active => true
    | .parked => true
    | _ => false

/-- ACTIVE or PARKED mode, out of reset. -/
def serving (s : Station) : Bool :=
  !s.loader.held && match s.loader.mode with
    | .active => true
    | .parked => true
    | _ => false

/-- ACTIVE mode, out of reset. -/
def working (s : Station) : Bool := !s.loader.held && s.loader.mode == .active

def joiningMode (s : Station) : Bool := !s.loader.held && s.loader.mode == .joining

/-- Every axis of the station is homed, and so on a station with no axes (R3). -/
def allHomed (s : Station) : Bool := (axesOf s).all (fun ax => s.motion.homed.get ax)

/-- The header that the Line Port writes as a frame starts on the line (R3). -/
def hdrNow (s : Station) (dest : Nat) : Hdr where
  sender := me s
  dest := dest
  active := serving s
  parked := !s.loader.held && s.loader.mode == .parked
  homed := allHomed s
  rack := isRack s
  joining := joiningMode s

/-- DRIVE_ENABLE (R172). -/
def driveEnable (s : Station) : Bool := working s && (ownOf s).axes.length != 0

/-- STATION_OK (R172). -/
def stationOk (s : Station) : Bool := listening s

/-- Fixed part of a station's serving duty: the channel an axis belongs to (R73). -/
def chanOf : Axis → ChanId
  | .x => .arm
  | .y => .arm
  | .z => .arm
  | .a => .head
  | .b => .head

/-- The axes of a channel that the station declares. -/
def chanAxes (s : Station) (c : ChanId) : List Axis := (axesOf s).filter (fun ax => chanOf ax == c)

def chan (s : Station) : ChanId → Chan
  | .arm => s.motion.arm
  | .head => s.motion.head

def setChan (s : Station) (c : ChanId) (v : Chan) : Station :=
  match c with
  | .arm => { s with motion := { s.motion with arm := v } }
  | .head => { s with motion := { s.motion with head := v } }

/-- Line count as a number; 0 stands nowhere for an unset one but in stamps of a station whose count is not yet set. -/
def lineCountOf (s : Station) : Nat := s.line.lineCount.getD 0

end Sys2Proof.Machine
end

