-- ==== Sys2Proof/Machine/Ops.lean ====
section
/-! DEFINITION. The named operations of the Line Port over its queues (R11 to R17): offers, what frees and keeps entries, the
arbiter's pick, and what becomes of the frame in flight. -/

namespace Sys2Proof.Machine

/-! ### Occupancy -/

/-- The frame in flight if it is of a class. -/
def flightIn (lp : LinePort) (c : FrameClass) : Bool :=
  match lp.flight with
  | none => false
  | some f => Body.cls f.item.body == c

/-- Non-release frames in the CONTROL queue, one in flight counted (R12). -/
def controlHeld (lp : LinePort) : Nat :=
  (lp.control.filter (fun o => !Body.isRelease o.body)).length +
    match lp.flight with
    | none => 0
    | some f => if Body.cls f.item.body == .control && !Body.isRelease f.item.body then 1 else 0

/-- Frames held in the REPORT queue, one in flight counted (R15). -/
def reportHeld (lp : LinePort) : Nat := lp.report.length + if flightIn lp .report then 1 else 0

/-- POINT frames held in the REPORT queue, one in flight counted (R15). -/
def pointsHeld (lp : LinePort) : Nat :=
  (lp.report.filter (fun o => Body.isPoint o.body)).length +
    match lp.flight with
    | none => 0
    | some f => if Body.isPoint f.item.body then 1 else 0

/-- Free REPORT entries: they hold no frame and are not reserved (R5). -/
def reportFree (lp : LinePort) : Nat := Config.reportEntries - (reportHeld lp + lp.reserved)

/-- The arbiter's mode after the number of REPORT frames has changed (R17); entering DRAIN clears the run count. -/
def updateDrain (lp : LinePort) : LinePort :=
  if lp.drain then
    if reportHeld lp ≤ Config.drainOff then { lp with drain := false } else lp
  else
    if Config.drainOn ≤ reportHeld lp then { lp with drain := true, runCount := 0 } else lp

/-! ### Offers -/

/-- A non-release CONTROL frame is taken when fewer than seven are there (R12). -/
def takesControl (lp : LinePort) : Bool := decide (controlHeld lp < Config.controlPlaces)

/-- A non-release CONTROL frame taken at the tail. -/
def enqueueControl (lp : LinePort) (o : Outgoing) : LinePort := { lp with control := lp.control ++ [o] }

/-- The queue with the first release rewritten by `f` and, when `cut`, the claims behind it removed (R13). -/
def mergeRelease (f : Body → Body) (cut : Bool) : List Outgoing → List Outgoing
  | [] => []
  | o :: r =>
    if Body.isRelease o.body then
      { o with body := f o.body } :: (if cut then r.filter (fun q => !Body.isClaim q.body) else r)
    else o :: mergeRelease f cut r

/-- Two releases in one: zone sets united, withdraw flags ORed (R13). -/
def uniteRelease (mask : ZoneMask) (withdraw : Bool) : Body → Body
  | .zoneRelease m w => .zoneRelease (m ||| mask) (w || withdraw)
  | b => b

/-- A ZONE_RELEASE offered by the Motion Unit: always taken (R13). -/
def offerReleaseTo (lp : LinePort) (mask : ZoneMask) (withdraw : Bool) : LinePort :=
  if lp.control.any (fun o => Body.isRelease o.body) then
    { lp with control := mergeRelease (uniteRelease mask withdraw) withdraw lp.control }
  else { lp with control := lp.control ++ [⟨0, .zoneRelease mask withdraw⟩] }

/-- A ZONE_CLAIM of this station waits in the queue or is in flight. -/
def claimQueued (lp : LinePort) : Bool :=
  lp.control.any (fun o => Body.isClaim o.body) ||
    match lp.flight with
    | none => false
    | some f => Body.isClaim f.item.body

/-- A THERMAL offered: taken into an empty slot with a new age, or in place of the frame there with that frame's age (R14). -/
def offerThermalTo (lp : LinePort) (now : Nat) (b : Body) : LinePort :=
  match lp.thermal with
  | none => { lp with thermal := some ⟨⟨0, b⟩, now⟩ }
  | some s => { lp with thermal := some ⟨⟨0, b⟩, s.since⟩ }

/-- When a REPORT frame is taken (R15); an ANSWER goes through `answerInto`. -/
def takesReport (lp : LinePort) (b : Body) : Bool :=
  match b with
  | .point _ => decide (1 ≤ reportFree lp) && decide (pointsHeld lp < Config.pointPlaces)
  | .event _ => decide (1 ≤ reportFree lp)
  | _ => decide (2 ≤ reportFree lp)

/-- A REPORT frame taken at the tail (R15, R17). -/
def enqueueReport (lp : LinePort) (o : Outgoing) : LinePort := updateDrain { lp with report := lp.report ++ [o] }

/-- An ANSWER put into the entry reserved for it, at the tail (R5, R15). -/
def answerInto (lp : LinePort) (o : Outgoing) : LinePort :=
  updateDrain { lp with report := lp.report ++ [o], reserved := lp.reserved - 1 }

/-! ### The arbiter (R16, R17) -/

/-- The queue the arbiter takes its frame from, by mode and escapes: THERMAL escape, then DRAIN or NORMAL order. -/
def arbiterPick (lp : LinePort) (now period : Nat) : Option FrameClass :=
  let aged := match lp.thermal with
    | none => false
    | some s => decide (s.since + period ≤ now)
  let control := !lp.control.isEmpty
  let report := !lp.report.isEmpty
  if aged then some .thermal
  else if lp.drain then
    if control && decide (Config.drainRun ≤ lp.runCount) then some .control
    else if report then some .report
    else if control then some .control
    else if lp.thermal.isSome then some .thermal
    else none
  else if control then some .control
  else if lp.thermal.isSome then some .thermal
  else if report then some .report
  else none

/-- The head frame of a queue becomes the frame in flight, contending (R3). -/
def beginContending (lp : LinePort) (now : Nat) : FrameClass → LinePort
  | .control => match lp.control with
    | [] => lp
    | o :: r => { lp with control := r, flight := some ⟨o, .contending, now, []⟩ }
  | .thermal => match lp.thermal with
    | none => lp
    | some s => { lp with thermal := none, flight := some ⟨s.item, .contending, s.since, []⟩ }
  | .report => match lp.report with
    | [] => lp
    | o :: r => { lp with report := r, flight := some ⟨o, .contending, now, []⟩ }

/-! ### The frame in flight goes back or completes -/

/-- A release that comes back takes the head; a newer queued release merges into it there (R13). -/
def requeueRelease (lp : LinePort) (o : Outgoing) : LinePort :=
  match lp.control.find? (fun q => Body.isRelease q.body) with
  | none => { lp with control := o :: lp.control }
  | some newer =>
    match newer.body with
    | .zoneRelease mask withdraw =>
      let before := lp.control.takeWhile (fun q => !Body.isRelease q.body)
      let behind := (lp.control.dropWhile (fun q => !Body.isRelease q.body)).drop 1
      let kept := if withdraw then before.filter (fun q => !Body.isClaim q.body) else before
      { lp with control := { o with body := uniteRelease mask withdraw o.body } :: (kept ++ behind) }
    | _ => { lp with control := o :: lp.control }

/-- A THERMAL that comes back takes the empty slot with its age, or is dropped and leaves the older age (R14). -/
def requeueThermal (lp : LinePort) (f : Flight) : LinePort :=
  match lp.thermal with
  | none => { lp with thermal := some ⟨f.item, f.since⟩ }
  | some s => { lp with thermal := some ⟨s.item, min s.since f.since⟩ }

/-- The frame in flight goes back to the head of its queue (R3). -/
def requeue (lp : LinePort) : LinePort :=
  match lp.flight with
  | none => lp
  | some f =>
    let lp := { lp with flight := none }
    match Body.cls f.item.body with
    | .control => if Body.isRelease f.item.body then requeueRelease lp f.item else { lp with control := f.item :: lp.control }
    | .thermal => requeueThermal lp f
    | .report => { lp with report := f.item :: lp.report }

/-- The own frame that has completed is removed and its entry is free (R7); the counters of R17 and R18 move. -/
def removeCompleted (lp : LinePort) : LinePort :=
  match lp.flight with
  | none => lp
  | some f =>
    let lp := { lp with flight := none, retry := 0 }
    match Body.cls f.item.body with
    | .control => { lp with runCount := 0 }
    | .thermal => lp
    | .report => updateDrain (if lp.control.isEmpty then lp else { lp with runCount := lp.runCount + 1 })

/-! ### Windows -/

/-- A closed window joins the veto record, the oldest leaving once 256 are held (R19). -/
def recordWindow (lp : LinePort) (marked : Bool) : LinePort :=
  let log := lp.vetoLog ++ [marked]
  { lp with vetoLog := log.drop (log.length - Config.vetoWindows) }

/-- The veto count (R19). -/
def vetoCount (lp : LinePort) : Nat := (lp.vetoLog.filter id).length

/-! ### Frames that units keep (R11) -/

/-- Offers a non-release CONTROL frame for a unit: taken, or kept by the unit behind the frames it keeps already. -/
def offerControl (s : Station) (src : CtlSource) (dest : Nat) (b : Body) : Station :=
  if !(s.line.waiting.any (fun w => w.src == src)) && takesControl s.line then
    { s with line := enqueueControl s.line ⟨dest, b⟩ }
  else { s with line := { s.line with waiting := s.line.waiting ++ [⟨src, ⟨dest, b⟩⟩] } }

/-- The unit withdraws the frames it keeps that a test picks (R11). -/
def withdrawWaiting (s : Station) (p : Waiting → Bool) : Station :=
  { s with line := { s.line with waiting := s.line.waiting.filter (fun w => !p w) } }

/-- Whether a unit keeps a frame of a kind that a test picks. -/
def waitingAny (s : Station) (p : Waiting → Bool) : Bool := s.line.waiting.any p

end Sys2Proof.Machine
end

