-- ==== Sys2Proof/Machine/Zones.lean ====
section
/-! DEFINITION. The zone table and the claim list of a replica (chapter 3): claims, the grant scan with its walk, escalation and
deadlock check, releases, and what silence, refusal, rejoin and FORCE_RELEASE do to zones. -/

namespace Sys2Proof.Machine

/-! ### Zones -/

/-- Static fields of a zone, an unused OPEN zone outside the table. -/
def zoneCfg (c : CellPart) (z : Nat) : ZoneCfg := c.zones.getD z ⟨.openZone, 0, ⟨⟨1, 1, 1⟩, ⟨0, 0, 0⟩⟩⟩

def isHome (c : CellPart) (z : Nat) : Bool := (zoneCfg c z).kind == .home

def isRackZone (c : CellPart) (z : Nat) : Bool := (zoneCfg c z).kind == .rack

/-- Entry of a zone in the replica. -/
def zoneEntry (r : Replica) (z : Nat) : ZoneEntry := r.zones.getD z ⟨.free, 0⟩

/-- HOME zones of a station, and HOME zones of the other stations. -/
def homeMask (c : CellPart) (k : Nat) : ZoneMask := maskOf (fun z => isHome c z && (zoneCfg c z).owner == k)
def othersHomeMask (c : CellPart) (k : Nat) : ZoneMask := maskOf (fun z => isHome c z && (zoneCfg c z).owner != k)

/-- The zones HELD by a station. -/
def heldMask (r : Replica) (k : Nat) : ZoneMask := maskOf (fun z => (zoneEntry r z).hold == .held k)

/-- Zone entries with those that a test picks given a new hold and stamp. -/
def setHold (zs : List ZoneEntry) (p : Nat → ZoneEntry → Bool) (h : ZoneHold) (lc : Nat) : List ZoneEntry :=
  zs.mapIdx (fun z e => if p z e then ⟨h, lc⟩ else e)

/-- The zone table at formation: every HOME zone HELD by its owner, every other FREE, stamps 0 (R44). -/
def formedZones (c : CellPart) : List ZoneEntry :=
  (List.range 32).map (fun z => if isHome c z then ⟨.held (zoneCfg c z).owner, 0⟩ else ⟨.free, 0⟩)

/-! ### The claim list (R51) -/

/-- Rank of a base priority, RECOVERY first. -/
def prioRank : Prio → Nat
  | .recovery => 0
  | .change => 1
  | .routine => 2

/-- Claim `a` comes before claim `b` in the order of R51. -/
def claimBefore (a b : Claim) : Bool :=
  if a.urgent && b.urgent then decide (a.count < b.count)
  else if a.urgent then true
  else if b.urgent then false
  else if prioRank a.base == prioRank b.base then decide (a.count < b.count)
  else decide (prioRank a.base < prioRank b.base)

/-- A claim joins the list at the place the order gives it. -/
def insertClaim (c : Claim) : List Claim → List Claim
  | [] => [c]
  | d :: r => if claimBefore c d then c :: d :: r else d :: insertClaim c r

def orderClaims (l : List Claim) : List Claim := l.foldl (fun acc c => insertClaim c acc) []

/-- The pending claim of a station. -/
def claimOf (r : Replica) (k : Nat) : Option Claim := r.claims.find? (fun c => c.claimant == k)

def dropClaim (l : List Claim) (k : Nat) : List Claim := l.filter (fun c => c.claimant != k)

/-! ### The grant scan (R52 to R55) -/

/-- Every zone of a mask is FREE. -/
def allFree (zs : List ZoneEntry) (m : ZoneMask) : Bool :=
  (List.range 32).all (fun z => !m.getLsbD z || (zs.getD z ⟨.free, 0⟩).hold == .free)

/-- A claim may be granted behind the claims that stand ahead of it (R53). -/
def grantable (zs : List ZoneEntry) (ahead : List Claim) (c : Claim) : Bool :=
  allFree zs c.wanted && !ahead.any (fun a => a.urgent && meets a.wanted c.wanted)

/-- One more grant has passed a claim (R54, R51). -/
def passOnce (c : Claim) : Claim := { c with passed := min Config.passedTop (c.passed + 1) }

/-- A walk of the list from the head: `ahead` are the claims reached and not granted (R53, R54). -/
def walk (lc : Nat) : List Claim → List Claim → List ZoneEntry → List Claim × List ZoneEntry
  | ahead, [], zs => (ahead, zs)
  | ahead, c :: rest, zs =>
    if grantable zs ahead c then
      walk lc (ahead.map passOnce) rest (setHold zs (fun z _ => c.wanted.getLsbD z) (.held c.claimant) lc)
    else walk lc (ahead ++ [c]) rest zs

/-- Claims whose passed count has reached the starve limit become URGENT and move to their places (R55). -/
def escalate (starve : Nat) (l : List Claim) : List Claim :=
  orderClaims (l.map (fun c => if !c.urgent && decide (starve ≤ c.passed) then { c with urgent := true } else c))

/-! ### Deadlock (R61, R62) -/

/-- Claims that stand ahead of a station's claim. -/
def aheadOf (l : List Claim) (k : Nat) : List Claim := l.takeWhile (fun c => c.claimant != k)

/-- The claimants that a claimant waits for (R61). -/
def waitsOn (zs : List ZoneEntry) (l : List Claim) (k : Nat) : List Nat :=
  match l.find? (fun c => c.claimant == k) with
  | none => []
  | some a =>
    (l.filter (fun b =>
      (List.range 32).any (fun z => a.wanted.getLsbD z && (zs.getD z ⟨.free, 0⟩).hold == .held b.claimant) ||
        (b.urgent && (aheadOf l k).any (fun c => c.claimant == b.claimant) && meets a.wanted b.wanted))).map (·.claimant)

/-- The claimants reached from a set of them in at most `n` further waits. -/
def reach (zs : List ZoneEntry) (l : List Claim) : Nat → List Nat → List Nat
  | 0, ks => ks
  | n + 1, ks => reach zs l n ((l.map (·.claimant)).filter (fun j => ks.contains j || ks.any (fun k => (waitsOn zs l k).contains j)))

/-- A claimant can be reached again from itself along waits. -/
def onCycle (zs : List ZoneEntry) (l : List Claim) (k : Nat) : Bool := (reach zs l l.length (waitsOn zs l k)).contains k

/-- The claim with the highest application line count among those on a cycle (R62). -/
def youngestOnCycle (zs : List ZoneEntry) (l : List Claim) : Option Claim :=
  (l.filter (fun c => onCycle zs l c.claimant)).foldl (fun best c => match best with
    | none => some c
    | some b => if b.count < c.count then some c else some b) none

/-- The scan: walk, escalation and deadlock check, again after each withdrawal. `n` bounds the withdrawals by the length of
the list. The third component lists the claimants withdrawn as DEADLOCKED, in order. -/
def scanSteps (starve lc : Nat) : Nat → List Claim → List ZoneEntry → List Claim × List ZoneEntry × List Nat
  | 0, l, zs => (l, zs, [])
  | n + 1, l, zs =>
    let w := walk lc [] l zs
    let l1 := escalate starve w.1
    match youngestOnCycle w.2 l1 with
    | none => (l1, w.2, [])
    | some c =>
      let more := scanSteps starve lc n (dropClaim l1 c.claimant) w.2
      (more.1, more.2.1, c.claimant :: more.2.2)

/-- A grant scan over a replica (R52). -/
def scan (c : CellPart) (lc : Nat) (r : Replica) : Replica × List Nat :=
  let out := scanSteps c.starve lc (r.claims.length + 1) r.claims r.zones
  ({ r with claims := out.1, zones := out.2.1 }, out.2.2)

/-! ### The frames of chapter 3 -/

/-- A ZONE_CLAIM of station `k` (R50): `none` where it is void. -/
def recordClaim (c : CellPart) (lc k : Nat) (mask : ZoneMask) (base : Prio) (r : Replica) : Option Replica :=
  if meets mask (othersHomeMask c k) then none
  else
    let wanted := maskLess mask (heldMask r k)
    let rest := dropClaim r.claims k
    if wanted = 0#32 then some { r with claims := rest }
    else some { r with claims := insertClaim ⟨k, wanted, base, false, 0, lc⟩ rest }

/-- The zones that a ZONE_RELEASE of station `k` frees (R58). -/
def releasable (c : CellPart) (r : Replica) (k : Nat) (mask : ZoneMask) : ZoneMask :=
  maskOf (fun z => mask.getLsbD z && (zoneEntry r z).hold == .held k && !isHome c z)

/-- A ZONE_RELEASE of station `k` before its scan (R58). -/
def releaseZones (c : CellPart) (lc k : Nat) (mask : ZoneMask) (withdraw : Bool) (r : Replica) : Replica :=
  let freed := releasable c r k mask
  { r with zones := setHold r.zones (fun z _ => freed.getLsbD z) .free lc
           claims := if withdraw then dropClaim r.claims k else r.claims }

/-- A release changed something: zones freed or a claim removed (R58). -/
def releaseChanges (c : CellPart) (r : Replica) (k : Nat) (mask : ZoneMask) (withdraw : Bool) : Bool :=
  releasable c r k mask != 0#32 || (withdraw && (claimOf r k).isSome)

/-- State of a station in the roster. -/
def rosterState (r : Replica) (k : Nat) : RosterState := (at1 r.roster ⟨.unseen, none, false, false, none, 0, false⟩ k).state

/-- The zones that a FORCE_RELEASE frees (R66): ORPHANED ones, and those other than HOME held by a JOINING station. -/
def forcible (c : CellPart) (r : Replica) (mask : ZoneMask) : ZoneMask :=
  maskOf (fun z => mask.getLsbD z && match (zoneEntry r z).hold with
    | .free => false
    | .orphaned _ => true
    | .held k => !isHome c z && rosterState r k == .joining)

def forceZones (c : CellPart) (lc : Nat) (mask : ZoneMask) (r : Replica) : Replica :=
  let freed := forcible c r mask
  { r with zones := setHold r.zones (fun z _ => freed.getLsbD z) .free lc }

/-- Silence or refusal of station `k`: its zones other than HOME are ORPHANED, its claim is removed (R64). -/
def orphanZones (c : CellPart) (lc k : Nat) (r : Replica) : Replica :=
  { r with zones := setHold r.zones (fun z e => e.hold == .held k && !(isHome c z && (zoneCfg c z).owner == k)) (.orphaned k) lc
           claims := dropClaim r.claims k }

/-- Rejoin of station `k`: its ORPHANED zones are HELD by it again, its claim is removed (R65). -/
def restoreZones (lc k : Nat) (r : Replica) : Replica :=
  { r with zones := setHold r.zones (fun _ e => e.hold == .orphaned k) (.held k) lc
           claims := dropClaim r.claims k }

end Sys2Proof.Machine
end

