-- ==== Sys2Proof/Machine/Custody.lean ====
section
/-! DEFINITION. The port table and the custody of probes in a replica (chapter 6): placing (R108), reservations, rack reports,
deposits, takes, abandons, mount reports, CUSTODY_SET, and what silence and rejoin do (R120, R121). -/

namespace Sys2Proof.Machine

/-! ### Records -/

def probeCfg (c : CellPart) (x : Nat) : ProbeCfg := at1 c.probes ⟨false, 0, 0, 0⟩ x

def inUse (c : CellPart) (x : Nat) : Bool := (probeCfg c x).inUse

def configured (c : CellPart) (p : Nat) : Bool := decide (1 ≤ p) && decide (p ≤ c.ports.length)

def portCfg (c : CellPart) (p : Nat) : PortCfg := at1 c.ports ⟨⟨0, 0, 0⟩, ⟨0, 0, 0⟩⟩ p

def probeRec (r : Replica) (x : Nat) : ProbeRec := at1 r.probes ⟨.lost, .usable, 0, 0, none, [], 0⟩ x

def portEntry (r : Replica) (p : Nat) : PortEntry := at1 r.ports ⟨.empty, .unreported, .locked, none, false, 0⟩ p

/-- The probe in use that an identity code is the code of; none where it is unmatched. -/
def probeByCode (c : CellPart) (code : Option Code) : Option Nat :=
  match code with
  | none => none
  | some v => ((List.range 24).map (· + 1)).find? (fun x => inUse c x && (probeCfg c x).code == v)

/-- The probe whose custody is STATION k. -/
def mountedOn (r : Replica) (k : Nat) : Option Nat :=
  ((List.range 24).map (· + 1)).find? (fun x => (probeRec r x).custody == .station k)

/-- A port with its state replaced, stamped. -/
def setPortState (r : Replica) (lc p : Nat) (st : PortState) : Replica :=
  { r with ports := set1 r.ports p { portEntry r p with state := st, stamp := lc } }

/-- The probe entries with custody and stale count set and the record stamped (R108 step 3). -/
def setCustody (r : Replica) (lc x : Nat) (c : Custody) : Replica :=
  { r with probes := set1 r.probes x { probeRec r x with custody := c, staleRun := 0, stamp := lc } }

def setSuspect (r : Replica) (lc x : Nat) : Replica :=
  { r with probes := set1 r.probes x { probeRec r x with cond := .suspect, stamp := lc } }

/-- Ports with those that a test picks given a new state, stamped; port `keep` stays as it is. -/
def setPortsWhere (r : Replica) (lc : Nat) (p : PortState → Bool) (st : PortState) (keep : Option Nat) : Replica :=
  { r with ports := map1 (fun q e => if keep ≠ some q ∧ p e.state = true then { e with state := st, stamp := lc } else e) r.ports }

/-- A port is RESERVED for a deposit of `x`. -/
def depositOf (x : Nat) : PortState → Bool
  | .reserved _ .deposit y => y == x
  | _ => false

/-! ### Placing (R108) -/

/-- Step 1: the old custody of `x` is vacated; port `keep` stays as it is (a new port, the port of a take or of a deposit). -/
def vacate (r : Replica) (lc x : Nat) (keep : Option Nat) : Replica :=
  match (probeRec r x).custody with
  | .port q => if keep = some q then r else setPortState r lc q .unknown
  | .transfer q => if keep ≠ some q ∧ depositOf x (portEntry r q).state = true then setPortState r lc q .unknown else r
  | .station _ => setPortsWhere r lc (depositOf x) .empty keep
  | .lost => r

/-- A probe becomes LOST: its custody is vacated and set; a LOST probe is left as it is. -/
def makeLost (r : Replica) (lc : Nat) (keep : Option Nat) (x : Nat) : Replica :=
  if (probeRec r x).custody = .lost then r else setCustody (vacate r lc x keep) lc x .lost

/-- The probes that a test on custody picks. -/
def probesWith (r : Replica) (p : Custody → Bool) : List Nat :=
  ((List.range 24).map (· + 1)).filter (fun x => p (probeRec r x).custody)

/-- The probes of a list become LOST, one after the other. -/
def loseAll (lc : Nat) (keep : Option Nat) (xs : List Nat) (r : Replica) : Replica := xs.foldl (fun r x => makeLost r lc keep x) r

/-- Step 2 for a port: every other probe at PORT p or TRANSFER p becomes LOST; the caller sets the port's state. -/
def clearPort (r : Replica) (lc p x : Nat) : Replica :=
  (probesWith r (fun c => c == .port p || c == .transfer p)).foldl
    (fun r y => if y = x then r else setCustody r lc y .lost) r

/-- Step 2 for a station: every other probe at STATION k becomes LOST, vacated from it. -/
def clearStation (r : Replica) (lc k x : Nat) : Replica :=
  loseAll lc none ((probesWith r (fun c => c == .station k)).filter (fun y => y != x)) r

/-- `x` placed at PORT p, which the caller then gives its state. -/
def placeAtPort (r : Replica) (lc x p : Nat) : Replica :=
  setCustody (clearPort (vacate r lc x (some p)) lc p x) lc x (.port p)

/-- `x` placed at STATION k; a port named by `keep` stays RESERVED (R116). -/
def placeAtStation (r : Replica) (lc x k : Nat) (keep : Option Nat) : Replica :=
  setCustody (clearStation (vacate r lc x keep) lc k x) lc x (.station k)

/-! ### Reservations and reports -/

/-- A PORT_RESERVE of station `k` (R112): `none` where it is void. -/
def reservePort (c : CellPart) (lc k p : Nat) (purpose : Purpose) (x : Nat) (r : Replica) : Option Replica :=
  let e := portEntry r p
  let ok := configured c p && inUse c x && match purpose with
    | .deposit => e.state == .empty && (probeRec r x).custody == .station k
    | .pickup => e.state == .occupied x
  if ok then some { r with ports := set1 r.ports p { e with state := .reserved k purpose x, takeSeen := false, stamp := lc } }
  else none

/-- The port's entry with its stamp: that of the frame where any field differs from `old`, the old one otherwise (R113). -/
def restamp (r : Replica) (lc p : Nat) (old : PortEntry) : Replica :=
  let e := portEntry r p
  let stamp := if { e with stamp := old.stamp } = old then old.stamp else lc
  { r with ports := set1 r.ports p { e with stamp := stamp } }

/-- A reservation that has ended with take-seen cleared, the port in a new state. -/
def endReservation (r : Replica) (lc p : Nat) (st : PortState) : Replica :=
  { r with ports := set1 r.ports p { portEntry r p with state := st, takeSeen := false, stamp := lc } }

/-- The state of a port that is not RESERVED follows the report (R113). -/
def followReport (c : CellPart) (lc p : Nat) (present : Bool) (code : Option Code) (r : Replica) : Replica :=
  let old := (portEntry r p).state
  if present then
    match probeByCode c code with
    | some x => if old = .occupied x then r else setPortState (placeAtPort r lc x p) lc p (.occupied x)
    | none =>
      match old with
      | .occupied x => setPortState (makeLost r lc (some p) x) lc p .unknown
      | _ => setPortState r lc p .unknown
  else
    match old with
    | .occupied x => setPortState (makeLost r lc (some p) x) lc p .empty
    | _ => setPortState r lc p .empty

/-- A deposit of `m` settled by a report that carries LOCKED (R114). -/
def settleDeposit (c : CellPart) (lc p m : Nat) (present : Bool) (code : Option Code) (r : Replica) : Replica :=
  if !present then r
  else match probeByCode c code with
    | some x =>
      if x = m then endReservation (placeAtPort r lc m p) lc p (.occupied m)
      else endReservation (setSuspect (makeLost (placeAtPort r lc x p) lc (some p) m) lc m) lc p (.occupied x)
    | none => endReservation (setSuspect (makeLost r lc (some p) m) lc m) lc p .unknown

/-- The second half of a pickup empties the port (R116). -/
def finishPickup (r : Replica) (lc p : Nat) : Replica :=
  let e := portEntry r p
  if e.takeSeen && e.presence == .absent then endReservation r lc p .empty else r

/-- A PORT_STATE on a configured port (R113, R114, R116). -/
def reportPort (c : CellPart) (lc p : Nat) (present : Bool) (lock : Lock) (code : Option Code) (r : Replica) : Replica :=
  let old := portEntry r p
  let r1 := { r with ports := set1 r.ports p { old with presence := if present then .present else .absent, lock := lock, ident := code } }
  let r2 := match old.state with
    | .reserved _ .deposit m => if lock = .locked then settleDeposit c lc p m present code r1 else r1
    | .reserved _ .pickup _ => if lock = .locked && !present then finishPickup r1 lc p else r1
    | _ => followReport c lc p present code r1
  restamp r2 lc p old

/-- A PROBE_DEPOSIT of station `k` (R115): `m` placed at TRANSFER p, whose reservation stays; any other port RESERVED for a deposit of
`m` returns to EMPTY (R108 step 1). -/
def depositProbe (lc k m p : Nat) (r : Replica) : Option Replica :=
  if (portEntry r p).state = .reserved k .deposit m then some (setCustody (vacate r lc m (some p)) lc m (.transfer p)) else none

/-- A PROBE_TAKE of station `k` (R116). -/
def takeProbe (c : CellPart) (lc k t p : Nat) (code : Option Code) (r : Replica) : Option Replica :=
  if (portEntry r p).state = .reserved k .pickup t then
    let r1 := { r with ports := set1 r.ports p { portEntry r p with takeSeen := true, stamp := lc } }
    let r2 := match probeByCode c code with
      | some x =>
        if x = t then placeAtStation r1 lc t k (some p)
        else makeLost (setSuspect (placeAtStation r1 lc x k (some p)) lc x) lc (some p) t
      | none => loseAll lc (some p) (probesWith (makeLost r1 lc (some p) t) (fun cu => cu == .station k)) (makeLost r1 lc (some p) t)
    some (finishPickup r2 lc p)
  else none

/-- A PORT_ABANDON of station `k` (R117). -/
def abandonPort (lc k p : Nat) (inside : Bool) (r : Replica) : Option Replica :=
  let e := portEntry r p
  match e.state with
  | .reserved j purpose x =>
    if j = k then
      let moved := (probeRec r x).custody
      match purpose with
      | .deposit =>
        if inside || moved == .transfer p then
          some (endReservation (if moved = .transfer p then setCustody r lc x .lost else r) lc p .unknown)
        else some (endReservation r lc p .empty)
      | .pickup =>
        if inside then
          some (endReservation (if !e.takeSeen && moved == .port p then setCustody r lc x .lost else r) lc p .unknown)
        else if e.takeSeen then some (endReservation r lc p (if e.presence = .absent then .empty else .unknown))
        else some (endReservation r lc p (.occupied x))
    else none
  | _ => none

/-- A MOUNT_REPORT of station `k` (R118). -/
def mountProbe (c : CellPart) (lc k : Nat) (code : Option Code) (r : Replica) : Replica :=
  match probeByCode c code with
  | some x => placeAtStation r lc x k none
  | none => loseAll lc none (probesWith r (fun cu => cu == .station k)) r

/-- A CUSTODY_SET (R119): `none` where it is void. -/
def custodyBy (c : CellPart) (lc x : Nat) (cu : Custody) (r : Replica) : Option Replica :=
  if !inUse c x then none
  else match cu with
    | .port p => if configured c p then
        some (restamp (setPortState (placeAtPort r lc x p) lc p (.occupied x)) lc p (portEntry r p)) else none
    | .station k => if roleIn c k = .mc410 then some (placeAtStation r lc x k none) else none
    | .lost => some (makeLost r lc none x)
    | .transfer _ => none

/-! ### Silence and rejoin -/

def isReserved : PortState → Bool
  | .reserved .. => true
  | _ => false

/-- The rack station goes SILENT, rejoins or is refused while ACTIVE (R120). -/
def rackLost (lc : Nat) (r : Replica) : Replica :=
  let xs := probesWith r (fun cu => match cu with
    | .port p => isReserved (portEntry r p).state
    | .transfer _ => true
    | _ => false)
  let r1 := xs.foldl (fun r x => setCustody r lc x .lost) r
  { r1 with ports := r1.ports.map (fun e =>
      let st := if isReserved e.state then .unknown else e.state
      if st = e.state ∧ e.presence = .unreported then e else { e with state := st, presence := .unreported, stamp := lc }) }

/-- One port RESERVED by a station that goes SILENT, rejoins or is refused (R121). -/
def dropReservation (lc k p : Nat) (r : Replica) : Replica :=
  let e := portEntry r p
  match e.state with
  | .reserved j purpose x =>
    if j = k then
      let moved := (probeRec r x).custody
      match purpose with
      | .deposit =>
        if moved = .transfer p then setPortState (setCustody r lc x .lost) lc p .unknown else setPortState r lc p .empty
      | .pickup =>
        if e.takeSeen || e.presence == .absent then
          setPortState (if moved = .port p then setCustody r lc x .lost else r) lc p .unknown
        else setPortState r lc p (.occupied x)
    else r
  | _ => r

/-- Ports and probes when station `k` goes SILENT, rejoins or is refused while ACTIVE (R120, R121). -/
def leavePorts (c : CellPart) (lc k : Nat) (r : Replica) : Replica :=
  if k = c.rackStation then rackLost lc r
  else ((List.range 12).map (· + 1)).foldl (fun r p => dropReservation lc k p r) r

end Sys2Proof.Machine
end

