-- ==== Sys2Proof/Machine/Board.lean ====
section
/-! DEFINITION. The thermal board of a replica and its derived values (R98 to R104), and the probe directory's qualification
side: staging latches, commits, ageing and marks (chapter 7). -/

namespace Sys2Proof.Machine

/-! ### The thermal board -/

/-- The entries that a THERMAL of station `k` leaves for it, by input (R99). -/
def boardEntries (lc k : Nat) (es : List ThermEntry) : List BoardEntry :=
  ((List.range 8).map (· + 1)).flatMap (fun i => match es.find? (fun e => e.input == i) with
    | none => []
    | some e => [⟨k, i, e.kind, e.value, e.state, false, lc⟩])

/-- Steps 1 and 2 of R99; the board stands by station number and then by input. -/
def placeThermal (lc k : Nat) (es : List ThermEntry) (b : List BoardEntry) : List BoardEntry :=
  b.filter (fun e => decide (e.station < k)) ++ (boardEntries lc k es ++ b.filter (fun e => decide (k < e.station)))

/-- The entries of station `k` are excluded; those whose flag changes are stamped (R101). -/
def excludeEntries (lc k : Nat) (b : List BoardEntry) : List BoardEntry :=
  b.map (fun e => if e.station = k ∧ e.excluded = false then { e with excluded := true, stamp := lc } else e)

/-- The counted set (R102). -/
def counted (r : Replica) : List Int :=
  (r.board.filter (fun e => e.kind == .part && e.state == .valid && !e.excluded && rosterState r e.station == .active)).map (·.value)

/-- The largest and the smallest value of a list differ by more than `limit` (R103). -/
def spreads (limit : Nat) (vs : List Int) : Bool := vs.any (fun u => vs.any (fun v => decide ((limit : Int) < u - v)))

/-- The derived values recomputed (R102 to R104). -/
def derive (c : CellPart) (r : Replica) : Replica :=
  let vs := counted r
  { r with partTemp := if vs.isEmpty then none else some (meanRound vs), gradient := spreads c.gradient vs }

/-- The board entry of a station that has a kind. -/
def boardKind (r : Replica) (k : Nat) (kind : ThermKind) : Option BoardEntry :=
  r.board.find? (fun e => e.station == k && e.kind == kind)

/-! ### Staging latches (R133 to R135) -/

def latchOf (r : Replica) (k : Nat) : Latch := at1 r.latches ⟨none, 0⟩ k

def setLatch (r : Replica) (lc k : Nat) (d : Option LatchData) : Replica := { r with latches := set1 r.latches k ⟨d, lc⟩ }

/-- A latch is emptied, stamped if it was filled (R133). -/
def emptyLatch (lc k : Nat) (r : Replica) : Replica := if (latchOf r k).data.isSome then setLatch r lc k none else r

/-- A QUAL_PART of station `k` (R134): `none` where it is void. -/
def stagePart (c : CellPart) (lc k x i n : Nat) (t : Tip) (r : Replica) : Option Replica :=
  if !inUse c x || decide (n < i) then none
  else
    let fresh : LatchData := ⟨x, n, set1 (List.replicate 6 none) i (some t)⟩
    match (latchOf r k).data with
    | none => some (setLatch r lc k (some fresh))
    | some d =>
      if d.probe = x ∧ d.n = n then some (setLatch r lc k (some { d with parts := set1 d.parts i (some t) }))
      else some (setLatch r lc k (some fresh))

/-- Key of a tip entry (R130). -/
def tipKeyOf (t : Tip) : Nat × Nat × Int := (t.tip, t.a, t.b)

/-- The parts at indices 1 to `n` where all are there. -/
def allParts (d : LatchData) : Option (List Tip) :=
  let ps := d.parts.take d.n
  if ps.length = d.n ∧ ps.all (·.isSome) then some (ps.filterMap id) else none

/-- The tip entries that a QUAL_COMMIT of station `k` would make: none where it is void (R135). -/
def commitTips (r : Replica) (k x n : Nat) : Option (List Tip) :=
  match (latchOf r k).data with
  | none => none
  | some d =>
    if d.probe = x ∧ d.n = n ∧ (probeRec r x).custody = .station k then
      match allParts d with
      | none => none
      | some ts => if (ts.map tipKeyOf).Nodup then some (ts.map (fun t => { t with stale := false })) else none
    else none

/-- A valid QUAL_COMMIT on the probe's record (R135). -/
def commitProbe (lc x : Nat) (ts : List Tip) (temp : Int) (r : Replica) : Replica :=
  { r with probes := set1 r.probes x { probeRec r x with
      tips := ts, qualTemp := some temp, cond := .usable, touches := 0, staleRun := 0, stamp := lc } }

/-! ### Ageing and marks (R136 to R138) -/

/-- A record with every QUALIFIED entry turned STALE. -/
def turnStale (e : ProbeRec) : ProbeRec := { e with tips := e.tips.map (fun t => { t with stale := true }) }

/-- A record replaced, stamped where a field differs. -/
def stampProbe (r : Replica) (lc x : Nat) (e : ProbeRec) : Replica :=
  let old := probeRec r x
  if { e with stamp := old.stamp } = old then r else { r with probes := set1 r.probes x { e with stamp := lc } }

/-- The record of a custodian's probe after the stale-by-temperature check (R136). -/
def checkStale (c : CellPart) (headEntry : Option BoardEntry) (e : ProbeRec) : ProbeRec :=
  match e.qualTemp, headEntry with
  | some q, some h =>
    if h.state = .valid then
      if (h.value - q).natAbs ≤ c.staleBand then { e with staleRun := 0 }
      else if Config.staleRuns ≤ e.staleRun + 1 then { turnStale e with staleRun := 0 }
      else { e with staleRun := e.staleRun + 1 }
    else e
  | _, _ => e

/-- The stale check of a THERMAL from station `k` (R100, R136). -/
def staleCheck (c : CellPart) (lc k : Nat) (r : Replica) : Replica :=
  match mountedOn r k with
  | none => r
  | some x => stampProbe r lc x (checkStale c (boardKind r k .head) (probeRec r x))

/-- A probe's record after one more touch (R137). -/
def countTouch (c : CellPart) (e : ProbeRec) : ProbeRec :=
  if Config.touchTop ≤ e.touches then e
  else
    let e1 := { e with touches := e.touches + 1 }
    if c.touchLimit ≠ 0 ∧ e1.touches = c.touchLimit then turnStale e1 else e1

/-- A POINT that names probe `x` (R137): `none` where it changes no record. -/
def touchProbe (c : CellPart) (lc x : Nat) (r : Replica) : Option Replica :=
  if inUse c x then some (stampProbe r lc x (countTouch c (probeRec r x))) else none

/-- A PROBE_MARK of station `k` (R138): `none` where it is void. -/
def markProbe (c : CellPart) (lc k x : Nat) (r : Replica) : Option Replica :=
  if inUse c x ∧ (probeRec r x).custody = .station k then some (stampProbe r lc x { probeRec r x with cond := .suspect }) else none

/-- QUALIFIED and STALE entries of a record (R139). -/
def qualifiedCount (e : ProbeRec) : Nat := (e.tips.filter (fun t => !t.stale)).length
def staleCount (e : ProbeRec) : Nat := (e.tips.filter (·.stale)).length

end Sys2Proof.Machine
end

