-- ==== Sys2Proof/Machine/Roster.lean ====
section
/-! DEFINITION. The application of a completed frame to a replica as a function of the replica alone (chapter 2): the roster
step of R22, JOIN, SILENCE and FORM, and the dispatch to the rules of the other chapters. It is used when a frame completes and
when a catch-up list is replayed (R38). -/

namespace Sys2Proof.Machine

/-- What an application tells the units of the station besides the tables. -/
structure Fx where
  /-- the frame took effect: it was not void -/
  took : Bool
  /-- claimants withdrawn as DEADLOCKED (R62) -/
  deadlocked : List Nat
  /-- the snapshotter chosen (R32) -/
  chosen : Option Nat
  /-- the station that sends the refusal notice (R33) -/
  refuser : Option Nat
deriving DecidableEq, Repr

def Fx.void : Fx := ⟨false, [], none, none⟩
def Fx.plain : Fx := ⟨true, [], none, none⟩

/-! ### Roster entries -/

def unseenEntry : RosterEntry := ⟨.unseen, none, false, false, none, 0, false⟩

def rosterEntry (r : Replica) (k : Nat) : RosterEntry := at1 r.roster unseenEntry k

/-- An entry replaced, stamped where a field differs (R21). -/
def setRoster (r : Replica) (lc k : Nat) (e : RosterEntry) : Replica :=
  let old := rosterEntry r k
  if { e with stamp := old.stamp } = old then r else { r with roster := set1 r.roster k { e with stamp := lc } }

/-- Serving fields that a test picks become none, their entries stamped (R35). -/
def endServices (lc : Nat) (p : Nat → Nat × Nat → Bool) (r : Replica) : Replica :=
  { r with roster := map1 (fun k e => match e.serving with
      | none => e
      | some v => if p k v then { e with serving := none, stamp := lc } else e) r.roster }

/-- The lowest station of role MC410 that a test on its entry picks. -/
def lowestStation (c : CellPart) (r : Replica) (p : Nat → RosterEntry → Bool) : Option Nat :=
  ((List.range 14).map (· + 1)).find? (fun k => roleIn c k == .mc410 && p k (rosterEntry r k))

/-- Steps 2 and 3 of R22 for the sender of a frame. -/
def rosterStep (lc : Nat) (h : Hdr) (r : Replica) : Replica :=
  let e := rosterEntry r h.sender
  let st := if e.state = .joining ∧ h.active = true then .active else e.state
  if st = .joining ∨ st = .active then setRoster r lc h.sender { e with state := st, homed := h.homed, parked := h.parked } else r

/-- The kinds that pass the roster step (R22). -/
def passesRoster (b : Body) : Bool :=
  Body.isReplicated b || Body.isPoint b || match b with
    | .snapEnd .. => true
    | _ => false

/-! ### The earlier part of a station is taken away (R31, R33, R41) -/

/-- The effects that silence, rejoin and refusal share, zones left out: thermal entries excluded, latch cleared, ports settled,
the station's own service ended. -/
def leaveTables (c : CellPart) (lc k : Nat) (r : Replica) : Replica :=
  let r1 := { r with board := excludeEntries lc k r.board }
  endServices lc (fun j _ => j == k) (leavePorts c lc k (emptyLatch lc k r1))

/-- A scan at the end of an application, with the claimants it withdrew. -/
def withScan (c : CellPart) (lc : Nat) (fx : Fx) (r : Replica) : Replica × Fx :=
  let out := scan c lc r
  (out.1, { fx with deadlocked := out.2 })

/-- A JOIN in a formed replica whose fingerprint is the cell's (R31, R32). -/
def joinFormed (c : CellPart) (lc : Nat) (h : Hdr) (cause : ResetCause) (jn : Nat) (r : Replica) : Replica × Fx :=
  let k := h.sender
  let e := rosterEntry r k
  let rejoin := e.state = .active ∨ e.state = .silent
  let r1 := if rejoin then leaveTables c lc k (restoreZones lc k r) else r
  let e1 := rosterEntry r1 k
  let e2 := { e1 with state := .joining, cause := some cause, homed := h.homed, parked := h.parked, stamp := lc }
  let r2 := { r1 with roster := set1 r1.roster k e2 }
  let r3 := endServices lc (fun _ v => v.1 == k) r2
  let chosen := lowestStation c r3 (fun j e => e.state == .active && e.serving.isNone && j != k)
  let r4 := match chosen with
    | none => r3
    | some j => setRoster r3 lc j { rosterEntry r3 j with serving := some (k, jn) }
  let fx : Fx := ⟨true, [], chosen, none⟩
  if rejoin then withScan c lc fx r4 else (r4, fx)

/-- A JOIN in a formed replica whose fingerprint differs from the cell's (R33). -/
def joinRefused (c : CellPart) (lc : Nat) (h : Hdr) (cause : ResetCause) (r : Replica) : Replica × Fx :=
  let k := h.sender
  let e := rosterEntry r k
  let wasActive := e.state = .active
  let r1 := if wasActive then leaveTables c lc k (orphanZones c lc k r) else r
  let e1 := rosterEntry r1 k
  let r2 := { r1 with roster := set1 r1.roster k { e1 with state := .refused, cause := some cause, serving := none, stamp := lc } }
  let r3 := endServices lc (fun _ v => v.1 == k) r2
  let fx : Fx := ⟨true, [], none, lowestStation c r3 (fun j e => e.state == .active && j != k)⟩
  if wasActive then withScan c lc fx r3 else (r3, fx)

/-- A SILENCE naming station `k`; `heard` says that the count it names is the last-heard count of `k` (R41). -/
def silenceStation (c : CellPart) (lc k : Nat) (heard : Bool) (r : Replica) : Replica × Fx :=
  if roleIn c k = .mc410 ∧ (rosterEntry r k).state = .active ∧ heard = true then
    let r1 := setRoster r lc k { rosterEntry r k with state := .silent }
    withScan c lc Fx.plain (leaveTables c lc k (orphanZones c lc k r1))
  else (r, Fx.void)

/-! ### Dispatch -/

/-- The result of a rule that says none where the frame is void. -/
def orVoid (r : Replica) : Option Replica → Replica × Fx
  | none => (r, Fx.void)
  | some r1 => (r1, Fx.plain)

/-- A kind applied once the roster step has let it through. -/
def applyKind (c : CellPart) (lc k : Nat) (heard : Bool) (dest : Nat) (b : Body) (r : Replica) : Replica × Fx :=
  match b with
  | .silence j _ => silenceStation c lc j heard r
  | .snapEnd jn _ _ =>
    (endServices lc (fun j v => j == k && v == (dest, jn)) r, if (rosterEntry r k).serving = some (dest, jn) then Fx.plain else Fx.void)
  | .zoneClaim mask base =>
    match recordClaim c lc k mask base r with
    | none => (r, Fx.void)
    | some r1 => withScan c lc Fx.plain r1
  | .zoneRelease mask withdraw =>
    if releaseChanges c r k mask withdraw then withScan c lc Fx.plain (releaseZones c lc k mask withdraw r) else (r, Fx.plain)
  | .forceRelease mask => if forcible c r mask = 0#32 then (r, Fx.void) else withScan c lc Fx.plain (forceZones c lc mask r)
  | .portReserve p purpose x => orVoid r (reservePort c lc k p purpose x r)
  | .portState p present lock code => if configured c p then (reportPort c lc p present lock code r, Fx.plain) else (r, Fx.void)
  | .portAbandon p inside => orVoid r (if configured c p then abandonPort lc k p inside r else none)
  | .probeDeposit m p => orVoid r (if configured c p then depositProbe lc k m p r else none)
  | .probeTake t p code => orVoid r (if configured c p then takeProbe c lc k t p code r else none)
  | .mountReport code => (mountProbe c lc k code r, Fx.plain)
  | .custodySet x cu => orVoid r (custodyBy c lc x cu r)
  | .qualPart x i n t => orVoid r (stagePart c lc k x i n t r)
  | .qualCommit x n temp =>
    match commitTips r k x n with
    | none => (emptyLatch lc k r, Fx.void)
    | some ts => (emptyLatch lc k (commitProbe lc x ts temp r), Fx.plain)
  | .probeMark x => orVoid r (markProbe c lc k x r)
  | .thermal es => (staleCheck c lc k { r with board := placeThermal lc k es r.board }, Fx.plain)
  | .point p => orVoid r (touchProbe c lc p.probe r)
  | _ => (r, Fx.void)

/-- A completed, well-formed frame applied to a formed replica (R22), derived values brought up to date at the end (R104). -/
def applyFormed (c : CellPart) (lc : Nat) (heard : Bool) (f : Frame) (r : Replica) : Replica × Fx :=
  let k := f.h.sender
  let out : Replica × Fx :=
    match f.body with
    | .join fp cause jn => if fp = r.cell.fingerprint then joinFormed c lc f.h cause jn r else joinRefused c lc f.h cause r
    | b =>
      if !passesRoster b then (r, Fx.void)
      else if roleIn c k = .mc410 then
        let r1 := rosterStep lc f.h r
        if (rosterEntry r1 k).state = .active then applyKind c lc k heard f.h.dest b r1 else (r1, Fx.void)
      else applyKind c lc k heard f.h.dest b r
  (derive c out.1, out.2)

/-! ### The unformed replica (R25, R29) -/

/-- A JOIN applied to an unformed replica of a station whose fingerprint is `own` (R25). -/
def joinUnformed (own fp : Print) (h : Hdr) (cause : ResetCause) (r : Replica) : Replica :=
  let e := { rosterEntry r h.sender with
    state := .joining, cause := some cause, homed := h.homed, parked := h.parked, fpMatch := fp == own }
  { r with roster := set1 r.roster h.sender e }

/-- A mask holds a station number. -/
def inMask (mask : StationMask) (k : Nat) : Bool := mask.getLsbD k

/-- The replica at formation (R29). -/
def formedReplica (c : CellPart) (fp : Print) (mask : StationMask) : Replica :=
  { Replica.blank with
      roster := map1 (fun k _ => { unseenEntry with state := if inMask mask k then .active else .unseen })
        (List.replicate 14 unseenEntry)
      cell := ⟨true, fp, mask⟩
      cellStamp := 0
      zones := formedZones c }

/-- The member mask of a FORM that station `k` offers (R27). -/
def memberMask (c : CellPart) (k : Nat) (r : Replica) : StationMask :=
  ((List.range 14).map (· + 1)).foldl (fun m j =>
    let e := rosterEntry r j
    if j = k ∨ (roleIn c j = .mc410 ∧ e.state = .joining ∧ e.fpMatch = true) then m ||| (1#16 <<< j) else m) 0#16

end Sys2Proof.Machine
end

