-- ==== Sys2Proof/Machine/Operands.lean ====
section
/-! DEFINITION. Positions, the current tip and zone sets (R45 to R48), axis targets and soft limits (R70, R76, R77), and the
tidy mask (R59). -/

namespace Sys2Proof.Machine

/-- The station's replica. -/
def tabs (s : Station) : Replica := s.replica.tables

def setTabs (s : Station) (r : Replica) : Station := { s with replica := { s.replica with tables := r } }

/-- Component of a vector for a linear axis, 0 for A and B. -/
def comp (v : Vec3) : Axis → Int
  | .x => v.x
  | .y => v.y
  | .z => v.z
  | _ => 0

/-! ### Positions (R46) -/

/-- Arm coordinate of a linear axis at a count: sign times position plus origin, 0 where the axis is not declared. -/
def armCoord (s : Station) (ax : Axis) (count : Int) : Int :=
  let a := axisCfg (ownOf s) ax
  if declared s ax then a.sign * count + a.origin else 0

/-- The arm position. -/
def armPos (s : Station) : Vec3 :=
  ⟨armCoord s .x s.motion.enc.x, armCoord s .y s.motion.enc.y, armCoord s .z s.motion.enc.z⟩

/-- The station declares head axes. -/
def hasHead (s : Station) : Bool := declared s .a

/-- The head indices at the A and B counts given: 0 and 0 without head axes, unknown while the head is unhomed (R46, R68). -/
def headIndex (s : Station) : Option (Int × Int) :=
  if hasHead s then
    if s.motion.homed.a && s.motion.homed.b then some (s.motion.enc.a, s.motion.enc.b) else none
  else some (0, 0)

/-- The mounted probe (R46). -/
def mounted (s : Station) : Option Nat := mountedOn (tabs s) (me s)

/-- The tip entry of a probe for the active tip number at head indices (R46, R78). -/
def tipAt (s : Station) (x : Nat) (ab : Int × Int) : Option Tip :=
  (probeRec (tabs s) x).tips.find? (fun t => t.tip == (ownOf s).activeTip && (t.a : Int) == ab.1 && t.b == ab.2)

/-- The tip entry that the current tip reads, at the head indices given. -/
def currentEntry (s : Station) (ab : Option (Int × Int)) : Option Tip :=
  match mounted s, ab with
  | some x, some i => tipAt s x i
  | _, _ => none

/-- The tip offset at the head indices given, zero where no entry is read. -/
def tipOffset (s : Station) (ab : Option (Int × Int)) : Vec3 :=
  match currentEntry s ab with
  | some t => t.off
  | none => ⟨0, 0, 0⟩

/-- The current tip. -/
def currentTip (s : Station) : Vec3 := Vec3.add (armPos s) (tipOffset s (headIndex s))

/-- Clearance of the mounted probe, or of the bare head. -/
def clearance (s : Station) : Nat :=
  match mounted s with
  | some x => (probeCfg (cellOf s) x).clearance
  | none => (cellOf s).bareClearance

/-! ### Boxes (R45 to R47) -/

def boxesMeet (p q : Box) : Bool :=
  boxNonEmpty p && boxNonEmpty q && decide (p.lo.x ≤ q.hi.x) && decide (q.lo.x ≤ p.hi.x) && decide (p.lo.y ≤ q.hi.y) &&
    decide (q.lo.y ≤ p.hi.y) && decide (p.lo.z ≤ q.hi.z) && decide (q.lo.z ≤ p.hi.z)

def inBox (b : Box) (v : Vec3) : Bool := boxesMeet ⟨v, v⟩ b

/-- The smallest box that holds a point and the points of a list. -/
def spanBox (v : Vec3) (vs : List Vec3) : Box := ⟨vs.foldl Vec3.min v, vs.foldl Vec3.max v⟩

def growBox (b : Box) (n : Nat) : Box := ⟨Vec3.sub b.lo ⟨n, n, n⟩, Vec3.add b.hi ⟨n, n, n⟩⟩

/-- The zones whose box meets a box (R48). -/
def zonesMeeting (c : CellPart) (b : Box) : ZoneMask := maskOf (fun z => boxesMeet (zoneCfg c z).box b)

/-- A distance in 0.01 mm as a length in 0.1 µm. -/
def units (d : Nat) : Nat := 100 * d

/-- Approach point, overtravel end and retract limit of a TOUCH (R47). -/
def approachPoint (t : TouchArgs) : Vec3 := Vec3.sub t.target (along (units t.approach) t.dir)
def overtravelEnd (t : TouchArgs) : Vec3 := Vec3.add t.target (along (units t.approach) t.dir)
def retractLimit (t : TouchArgs) : Vec3 := Vec3.sub (approachPoint t) (along (units t.retract) t.dir)

/-- The zone set of a segment kind from a start position with a clearance (R47, R48). -/
def zoneSetFrom (s : Station) (start : Vec3) (clear : Nat) : SegKind → ZoneMask
  | .traverse t => zonesMeeting (cellOf s) (growBox (spanBox start [t]) clear)
  | .armTraverse t => zonesMeeting (cellOf s) (growBox (spanBox (armPos s) [t]) clear)
  | .touch t => zonesMeeting (cellOf s) (growBox (spanBox start [retractLimit t, overtravelEnd t]) clear)
  | .index _ _ => zonesMeeting (cellOf s) (growBox (spanBox start []) clear)
  | .home => homeMask (cellOf s) (me s)

/-- The zone set of a segment as its zone step forms it: the route set for the INDEX of a change (R123), R48 otherwise. -/
def zoneSetOf (s : Station) (g : Segment) : ZoneMask :=
  match g.origin, g.kind with
  | .sequencer _, .index _ _ => s.change.route
  | _, k => zoneSetFrom s (currentTip s) (clearance s) k

/-! ### Axis targets and limits (R70, R76) -/

/-- The count that brings the arm coordinate of a linear axis to `v`. -/
def countFor (s : Station) (ax : Axis) (v : Int) : Int :=
  let a := axisCfg (ownOf s) ax
  a.sign * (v - a.origin)

/-- The counts commanded for a point, less a tip offset; axes that do not move keep their counts. -/
def targetCounts (s : Station) (off v : Vec3) : Counts :=
  let t (ax : Axis) : Int := if declared s ax then countFor s ax (comp v ax - comp off ax) else s.motion.enc.get ax
  ⟨t .x, t .y, t .z, s.motion.enc.a, s.motion.enc.b⟩

def withinLimits (s : Station) (ax : Axis) (count : Int) : Bool :=
  let a := axisCfg (ownOf s) ax
  !declared s ax || (decide (a.lower ≤ count) && decide (count ≤ a.upper))

/-- A point lies within the soft limits of the linear axes (R70). -/
def reachable (s : Station) (off v : Vec3) : Bool :=
  let t := targetCounts s off v
  withinLimits s .x t.x && withinLimits s .y t.y && withinLimits s .z t.z

/-- The soft limit check of a segment kind with the tip offset given (R70). -/
def limitsHold (s : Station) (off : Vec3) : SegKind → Bool
  | .traverse t => reachable s off t
  | .armTraverse t => reachable s ⟨0, 0, 0⟩ t
  | .touch t => reachable s off (approachPoint t) && reachable s off (overtravelEnd t) && reachable s off (retractLimit t)
  | .index a b => withinLimits s .a a && withinLimits s .b b
  | .home => true

/-- Counts moved along by a length of each declared linear axis. -/
def shiftCounts (s : Station) (c : Counts) (v : Vec3) : Counts :=
  let t (ax : Axis) : Int := if declared s ax then c.get ax + (axisCfg (ownOf s) ax).sign * comp v ax else c.get ax
  ⟨t .x, t .y, t .z, c.a, c.b⟩

/-- The axis positions commanded for PROBING: the overtravel end, from the approach point (R77). -/
def probingCounts (s : Station) (t : TouchArgs) (start : Counts) : Counts :=
  shiftCounts s start (Vec3.sub (overtravelEnd t) (approachPoint t))

/-- The axis positions commanded for RETRACT: back by the retract distance from where probing ended (R77). -/
def retractCounts (s : Station) (t : TouchArgs) (start : Counts) : Counts :=
  shiftCounts s start (Vec3.sub ⟨0, 0, 0⟩ (along (units t.retract) t.dir))

/-- The axis positions a segment is commanded to first, with the tip offset given (R76, R77). -/
def commanded (s : Station) (off : Vec3) : SegKind → Option Counts
  | .traverse t => some (targetCounts s off t)
  | .armTraverse t => some (targetCounts s ⟨0, 0, 0⟩ t)
  | .touch t => some (targetCounts s off (approachPoint t))
  | .index a b => some { s.motion.enc with a := a, b := b }
  | .home => none

/-! ### Zones held and kept (R49, R59) -/

/-- The zones of the queued ZONE_RELEASE and of one in flight. -/
def releaseMaskOf : Body → ZoneMask
  | .zoneRelease m _ => m
  | _ => 0#32

def releasing (s : Station) : ZoneMask :=
  (s.line.control.foldl (fun m o => m ||| releaseMaskOf o.body) 0#32) |||
    match s.line.flight with
    | none => 0#32
    | some f => releaseMaskOf f.item.body

/-- The zones HELD by this station in its replica. -/
def heldHere (s : Station) : ZoneMask := heldMask (tabs s) (me s)

/-- Every zone of a set counts as held (R49). -/
def holdsAll (s : Station) (m : ZoneMask) : Bool := maskLess m (maskLess (heldHere s) (releasing s)) == 0#32

/-- The zones that the tip box keeps. -/
def tipZones (s : Station) : ZoneMask := zonesMeeting (cellOf s) (growBox (spanBox (currentTip s) []) (clearance s))

/-- The zones of a channel's head segment: the set it formed, and the set formed from the current tip (log 13). -/
def headZones (s : Station) (c : ChanId) : ZoneMask :=
  match (chan s c).queue with
  | [] => 0#32
  | g :: _ => g.zoneSet.getD 0#32 ||| zoneSetOf s g

/-- A change runs (R122). -/
def changeRuns (s : Station) : Bool := s.change.state != .idle

/-- The tidy mask can be formed: the station has axes, all homed, and no channel is STALLED (R59). -/
def canTidy (s : Station) : Bool :=
  (ownOf s).axes.length != 0 && allHomed s && s.motion.arm.state != .stalled && s.motion.head.state != .stalled

/-- The zones kept for the tip box and for the head segments (R59). -/
def keptZones (s : Station) : ZoneMask := tipZones s ||| headZones s .arm ||| headZones s .head

/-- The tidy mask, the route of a running change left out (R59, R123). -/
def tidyMask (s : Station) : ZoneMask :=
  maskLess (heldHere s) (homeMask (cellOf s) (me s) ||| keptZones s ||| (if changeRuns s then s.change.route else 0#32))

end Sys2Proof.Machine
end

