-- ==== Sys2Proof/Machine/Events.lean ====
section
/-! DEFINITION. Events (R139, R165, R166): their frames, the event list, and their offers to the REPORT queue. -/

namespace Sys2Proof.Machine

def chanCode : ChanId → Nat
  | .arm => 0
  | .head => 1

def modeCode : Mode → Nat
  | .loading => 0
  | .joining => 1
  | .active => 2
  | .parked => 3
  | .out => 4
  | .shut => 5

def haltCauseCode : HaltCause → Nat
  | .requested => 1
  | .zoneDeadlock => 2
  | .zoneForbidden => 3
  | .limit => 4
  | .notHomed => 5
  | .probeUnusable => 6

def stallCauseCode : StallCause → Nat
  | .driveFault => 1
  | .following => 2
  | .encoder => 3
  | .collision => 4

/-- Causes of CHANGE_FAILED in the order of R165. -/
def changeCauseCode : ChangeCause → Nat
  | .halted => 1
  | .collision => 2
  | .stalled => 3
  | .rackTimeout => 4
  | .depositUnconfirmed => 5
  | .rackLost => 6
  | .coupling => 7
  | .wrongProbe => 8
  | .limit => 9
  | .zoneForbidden => 10
  | .zoneDeadlock => 11
  | .notHomed => 12

/-- Reasons of PROBE_CONDITION in the order of R139. -/
def reasonCode : CondReason → Nat
  | .committed => 1
  | .commitVoid => 2
  | .staleTemperature => 3
  | .staleTouches => 4
  | .markedSuspect => 5

/-- An EVENT body with the fields that no kind carries sent as 0 (11.4). -/
def eventBase (n kind channel cause : Nat) (tag : Option Code) : EventBody :=
  ⟨n, kind, channel, cause, tag.isSome, tag.getD 0, 0, 0, 0, 0, 0⟩

/-- The EVENT frame of an event (R165, R178). -/
def eventBody (n : Nat) : Event → EventBody
  | .channelIdle c => eventBase n 1 (chanCode c) 0 none
  | .channelHalted c cause tag => eventBase n 2 (chanCode c) (haltCauseCode cause) tag
  | .channelStalled c cause tag => eventBase n 3 (chanCode c) (stallCauseCode cause) tag
  | .touchMissed tag => eventBase n 4 0 0 (some tag)
  | .changeDone tag probe => { eventBase n 5 0 0 (some tag) with probe := probe }
  | .changeFailed tag cause => eventBase n 6 0 (changeCauseCode cause) (some tag)
  | .probeCondition probe reason cond touches qualified stales =>
    { eventBase n 7 0 (reasonCode reason) none with
        probe := probe, cond := conditionCode cond, touches := touches, qualified := qualified, stales := stales }
  | .stationMode mode parked => { eventBase n 8 (modeCode mode) 0 none with cond := if parked then 1 else 0 }

/-- The station's reporting program station (R165). -/
def reporter (s : Station) : Nat := at1 (cellOf s).reporting 0 (me s)

/-- The event at the head of the list offered, and the next ones for as long as they are taken (R166). -/
def offerEventsFrom : Nat → Station → Station
  | 0, s => s
  | n + 1, s =>
    match s.request.events with
    | [] => s
    | (num, e) :: rest =>
      let b := Body.event (eventBody num e)
      if takesReport s.line b then
        offerEventsFrom n { s with line := enqueueReport s.line ⟨reporter s, b⟩, request := { s.request with events := rest } }
      else s

def offerEvents (s : Station) : Station := offerEventsFrom s.request.events.length s

/-- An event kept at the tail of the list, or discarded where the list holds 8 (R166). -/
def keepEvent (q : RequestUnit) (e : Event) : RequestUnit :=
  let next := (q.nextEvent + 1) % 65536
  if q.events.length < Config.eventPlaces then { q with events := q.events ++ [(q.nextEvent, e)], nextEvent := next }
  else { q with nextEvent := next, overflow := true, discards := min 255 (q.discards + 1) }

/-- A unit gives the Request Unit an event (R166). -/
def giveEvent (s : Station) (e : Event) : Station := offerEvents { s with request := keepEvent s.request e }

end Sys2Proof.Machine
end

