-- ==== Sys2Proof/Machine/Touch.lean ====
section
/-! DEFINITION. The Touch Capture Unit (chapter 8): credits, capture, closing with the corrections of R149 to R151, and the
offers of POINT frames. -/

namespace Sys2Proof.Machine

/-! ### The point list (R143, R144) -/

def isFree : PointEntry → Bool
  | .free => true
  | _ => false

def isReservedEntry : PointEntry → Bool
  | .reserved => true
  | _ => false

/-- The list with its first entry that a test picks rewritten. -/
def updFirst (p : PointEntry → Bool) (v : PointEntry) : List PointEntry → List PointEntry
  | [] => []
  | e :: r => if p e then v :: r else e :: updFirst p v r

def setPoints (s : Station) (l : List PointEntry) : Station := { s with touch := { s.touch with points := l } }

/-- An entry is FREE. -/
def anyFree (s : Station) : Bool := s.touch.points.any isFree

/-- The first FREE entry becomes RESERVED (R144). -/
def reserveEntry (s : Station) : Station := setPoints s (updFirst isFree .reserved s.touch.points)

/-- The RESERVED entry is returned (R144). -/
def returnEntry (s : Station) : Station := setPoints s (updFirst isReservedEntry .free s.touch.points)

/-! ### Correction (R149 to R152) -/

/-- A product of three factors divided by 10¹¹, rounded. -/
def scaled (p : Int) (alpha : Nat) (dT : Int) : Int := roundDiv (p * alpha * dT) 100000000000

/-- The scale temperature that corrects an axis: VALID and not excluded (R149). -/
def scaleTemp (s : Station) (kind : ThermKind) : Option Int :=
  match boardKind (tabs s) (me s) kind with
  | none => none
  | some e => if e.state = .valid ∧ e.excluded = false then some e.value else none

/-- The kind of a linear axis's scale sensor. -/
def scaleKind : Axis → ThermKind
  | .x => .scaleX
  | .y => .scaleY
  | _ => .scaleZ

/-- The count of a linear axis corrected for the temperature of its scale (R149). -/
def scaleStep (s : Station) (ax : Axis) (p : Int) : Int :=
  match scaleTemp s (scaleKind ax) with
  | some dT => p - scaled p (axisCfg (ownOf s) ax).alpha dT
  | none => p

/-- The scale temperature used for an axis; none for an axis the station does not declare. -/
def scaleUsed (s : Station) (ax : Axis) : Option Int := if declared s ax then scaleTemp s (scaleKind ax) else none

/-- The ball-centre coordinate of an axis (R150). -/
def positionStep (s : Station) (d : PointData) (ax : Axis) : Int :=
  clamp32 (armCoord s ax (scaleStep s ax (d.counts.get ax)) + comp d.copy.off ax)

/-- The coordinate carried back to 20 °C about the part reference point (R151). -/
def partStep (s : Station) (ax : Axis) (c : Int) : Int :=
  match (tabs s).partTemp with
  | some dT => clamp32 (c - scaled (c - comp (cellOf s).partRef ax) (cellOf s).partAlpha dT)
  | none => c

/-- The corrected coordinate of an axis. -/
def corrected (s : Station) (d : PointData) (ax : Axis) : Int := partStep s ax (positionStep s d ax)

/-- A declared linear axis is left uncorrected in the scale step (R149). -/
def axisUncorrected (s : Station) (ax : Axis) : Bool := declared s ax && (scaleTemp s (scaleKind ax)).isNone

/-- The correction result of a point closed now, late or not (R148 to R152). -/
def correction (s : Station) (late : Bool) (d : PointData) : Correction where
  pos := ⟨corrected s d .x, corrected s d .y, corrected s d .z⟩
  scaleX := scaleUsed s .x
  scaleY := scaleUsed s .y
  scaleZ := scaleUsed s .z
  part := (tabs s).partTemp
  flags :=
    { scaleUncorrected := axisUncorrected s .x || axisUncorrected s .y || axisUncorrected s .z
      partUncorrected := (tabs s).partTemp.isNone
      partGradient := (tabs s).gradient
      tipStale := d.copy.stale
      thermalLate := late
      haltDuring := d.haltDuring }

/-! ### Offers (R153) -/

/-- The POINT frame of an entry (R153). A latched A count below 0, which the A byte cannot hold, is sent as 0 (log 42). -/
def pointBody (d : PointData) (c : Correction) : PointBody :=
  { seq := d.seq, tag := d.tag, probe := d.probe, tip := d.tip, a := d.a.toNat, b := d.b, count := d.count, pos := c.pos,
    dir := d.dir, radius := d.copy.radius, scaleX := c.scaleX, scaleY := c.scaleY, scaleZ := c.scaleZ, part := c.part,
    flags := c.flags }

/-- How long ago a sequence number was given. -/
def seqAge (next seq : Nat) : Nat := (next + 65536 - 1 - seq) % 65536

/-- The READY entry with the oldest sequence number. -/
def oldestReady (next : Nat) (l : List PointEntry) : Option (PointData × Correction) :=
  l.foldl (fun best e => match e with
    | .ready d c => match best with
      | none => some (d, c)
      | some (d0, c0) => if seqAge next d0.seq < seqAge next d.seq then some (d, c) else some (d0, c0)
    | _ => best) none

/-- The READY entry of a sequence number becomes QUEUED. -/
def markQueued (seq : Nat) (l : List PointEntry) : List PointEntry :=
  l.map (fun e => match e with
    | .ready d c => if d.seq = seq then .queued d c else .ready d c
    | e => e)

/-- The oldest READY entry's POINT offered, and the next ones for as long as they are taken (R153). -/
def offerPointsFrom : Nat → Station → Station
  | 0, s => s
  | n + 1, s =>
    match oldestReady s.touch.nextSeq s.touch.points with
    | none => s
    | some (d, c) =>
      let b := Body.point (pointBody d c)
      if takesReport s.line b then
        offerPointsFrom n
          { s with line := enqueueReport s.line ⟨reporter s, b⟩
                   touch := { s.touch with points := markQueued d.seq s.touch.points } }
      else s

def offerPoints (s : Station) : Station := offerPointsFrom s.touch.points.length s

/-- The entry of a completed POINT becomes FREE (R154). -/
def freeQueued (seq : Nat) (l : List PointEntry) : List PointEntry :=
  l.map (fun e => match e with
    | .queued d c => if d.seq = seq then .free else .queued d c
    | e => e)

/-! ### Closing (R147) -/

/-- A PENDING entry that a test picks becomes READY. -/
def closeWhere (s : Station) (late : Bool) (p : PointData → Bool) : List PointEntry → List PointEntry :=
  List.map (fun e => match e with
    | .pending d => if p d then .ready d (correction s late d) else .pending d
    | e => e)

/-- Points closed against the board as it stands, and their POINT frames offered (R147, R153). -/
def closePoints (s : Station) (late : Bool) (p : PointData → Bool) : Station :=
  offerPoints (setPoints s (closeWhere s late p s.touch.points))

/-! ### Capture (R145) -/

/-- Probe and tip entry of a capture: what the replica shows, or what the touch check found (R145). -/
def captureTip (s : Station) (g : Segment) (a b : Int) : Nat × Tip :=
  let found := g.checked.getD (0, ⟨(ownOf s).activeTip, a.toNat, b, ⟨0, 0, 0⟩, 0, false⟩)
  match mounted s with
  | none => found
  | some x => match tipAt s x (a, b) with
    | some t => (x, t)
    | none => found

/-- The point that a capture puts into the RESERVED entry. -/
def capturedPoint (s : Station) (g : Segment) (dir : Vec3) (tag : Code) (enc : Counts) : PointData :=
  let a := if hasHead s then enc.a else 0
  let b := if hasHead s then enc.b else 0
  let xt := captureTip s g a b
  { seq := s.touch.nextSeq, tag := tag, count := lineCountOf s, counts := enc, probe := xt.1, tip := (ownOf s).activeTip,
    a := a, b := b, copy := xt.2, dir := dir, haltDuring := g.haltSeen,
    lateDue := s.now + Config.latePeriods * (cellOf s).period }

/-- The RESERVED entry becomes PENDING and the next sequence number rises (R145). -/
def capturePoint (s : Station) (d : PointData) : Station :=
  { s with touch := { s.touch with
      points := updFirst isReservedEntry (.pending d) s.touch.points, nextSeq := (s.touch.nextSeq + 1) % 65536 } }

end Sys2Proof.Machine
end

