-- ==== Sys2Proof/Machine/Motion.lean ====
section
/-! DEFINITION. The Motion Unit's shared operations (chapters 3 and 4): releases and tidy moments (R57, R59), what leaves a
channel on a halt, a stop or a stall (R82 to R84), and the failures of the Change Sequencer that rest on them (R126 to R128). -/

namespace Sys2Proof.Machine

/-! ### Channels -/

def otherChan : ChanId → ChanId
  | .arm => .head
  | .head => .arm

/-- Enabled states (R72). -/
def enabledState : ChanState → Bool
  | .disabled => false
  | .stalled => false
  | _ => true

/-- RUNNING or STOPPING. -/
def movingState : ChanState → Bool
  | .running => true
  | .stopping => true
  | _ => false

def waitingState : ChanState → Bool
  | .waitTurn => true
  | .waitCredit => true
  | .waitZone => true
  | _ => false

/-- The output that enables an axis (R72). -/
def axisEnable (s : Station) (ax : Axis) : Bool := driveEnable s && declared s ax && enabledState (chan s (chanOf ax)).state

def headSeg (s : Station) (c : ChanId) : Option Segment := (chan s c).queue.head?

/-- A channel's head segment rewritten. -/
def setHead (s : Station) (c : ChanId) (g : Segment) : Station :=
  match (chan s c).queue with
  | [] => s
  | _ :: r => setChan s c { chan s c with queue := g :: r }

def setState (s : Station) (c : ChanId) (st : ChanState) : Station := setChan s c { chan s c with state := st }

/-- Tag of a segment, none for one of the Change Sequencer. -/
def tagOf (g : Option Segment) : Option Code :=
  match g with
  | none => none
  | some g => match g.origin with
    | .request t => some t
    | .sequencer _ => none

def fromSequencer (g : Segment) : Bool :=
  match g.origin with
  | .request _ => false
  | .sequencer _ => true

/-- A segment marked run-on by the Change Sequencer (R83). -/
def isRunOn (g : Segment) : Bool :=
  match g.origin with
  | .sequencer r => r
  | .request _ => false

def isTouchSeg (g : Segment) : Bool :=
  match g.kind with
  | .touch _ => true
  | _ => false

def isHomeSeg (g : Segment) : Bool :=
  match g.kind with
  | .home => true
  | _ => false

/-- The encoder counts read at an event, for the axes the station declares (R68). -/
def readEncoders (s : Station) (enc : Counts) : Station :=
  let v (ax : Axis) : Int := if declared s ax then enc.get ax else s.motion.enc.get ax
  { s with motion := { s.motion with enc := ⟨v .x, v .y, v .z, v .a, v .b⟩ } }

/-- A flag set for each axis of a channel that the station declares. -/
def setForChan (s : Station) (c : ChanId) (v : Bool) (t : PerAxis Bool) : PerAxis Bool :=
  (chanAxes s c).foldl (fun t ax => t.set v ax) t

/-! ### Claims and releases (R49, R57) -/

def setOutstanding (s : Station) (o : Outstanding) : Station := { s with motion := { s.motion with outstanding := o } }

/-- A ZONE_RELEASE offered, always taken (R13). -/
def offerRelease (s : Station) (m : ZoneMask) (withdraw : Bool) : Station := { s with line := offerReleaseTo s.line m withdraw }

/-- The offer of a claim not yet taken is withdrawn (R49). -/
def withdrawOffer (s : Station) : Station := setOutstanding (withdrawWaiting s (fun w => w.src == .claim)) .none

/-- The tidy release of R57. -/
def tidyRelease (s : Station) : Station :=
  if canTidy s then
    let m := tidyMask s
    if m = 0#32 then s else offerRelease s m false
  else s

/-- The mask of a withdrawing release for a set that has left WAIT_ZONE (R57, R84). -/
def withdrawMask (s : Station) (left : ZoneMask) : ZoneMask :=
  if canTidy s then maskLess (tidyMask s ||| left) (keptZones s) else maskLess left (heldHere s)

/-- A tidy moment of R60; `left` is the zone set of a segment that has left WAIT_ZONE, whose claim is withdrawn with it. -/
def tidyMoment (s : Station) (left : Option ZoneMask) : Station :=
  match left with
  | none => tidyRelease s
  | some m =>
    match s.motion.outstanding with
    | .none => tidyRelease s
    | .offered => tidyRelease (withdrawOffer s)
    | _ => setOutstanding (offerRelease s (withdrawMask s m) true) .none

/-- The zone set of a head segment in WAIT_ZONE. -/
def waitingSet (s : Station) (c : ChanId) : Option ZoneMask :=
  if (chan s c).state = .waitZone then
    match headSeg s c with
    | some g => some (g.zoneSet.getD 0#32)
    | none => none
  else none

/-- The outstanding claim was offered for this segment (R49, R63). -/
def ownsClaim (s : Station) (g : Segment) : Bool := s.motion.claimFor == g.acc

/-- The zone set of a head segment whose claim is withdrawn as it leaves (R49, R57): of one in WAIT_ZONE that the outstanding claim
is for, and of any whose claim the CONTROL queue has not taken. -/
def claimedSet (s : Station) (c : ChanId) : Option ZoneMask :=
  match headSeg s c with
  | some g =>
    if ownsClaim s g then if s.motion.outstanding = .offered then some (g.zoneSet.getD 0#32) else waitingSet s c else none
  | none => none

/-- An unused credit is returned as its segment leaves (R79). -/
def returnCredit (s : Station) (g : Option Segment) : Station :=
  match g with
  | none => s
  | some g => if g.credit then returnEntry s else s

/-- The channel's queue is flushed and the channel takes a state; an unused credit is returned. -/
def emptyChan (s : Station) (c : ChanId) (st : ChanState) : Station :=
  returnCredit (setChan s c { chan s c with state := st, queue := [] }) (headSeg s c)

/-- The channel goes HALTED at once with a tidy moment and CHANNEL_HALTED (R48, R63, R70, R78, R80, R82). -/
def haltNow (s : Station) (c : ChanId) (cause : HaltCause) : Station :=
  let g := headSeg s c
  let left := claimedSet s c
  giveEvent (tidyMoment (emptyChan s c .halted) left) (.channelHalted c cause (tagOf g))

/-- A channel goes HALTED at once by the Change Sequencer's own stop: no event (R128). -/
def haltQuiet (s : Station) (c : ChanId) : Station :=
  let left := claimedSet s c
  tidyMoment (emptyChan s c .halted) left

/-- A moving channel enters STOPPING with its head segment alone (R82). -/
def beginStop (s : Station) (c : ChanId) (g : Segment) : Station := setChan s c { chan s c with state := .stopping, queue := [g] }

/-- A HALT on one channel (R82, R83). A run-on retract is left as it is, one that still waits too (log 21). -/
def haltChan (s : Station) (c : ChanId) : Station :=
  match headSeg s c with
  | none => s
  | some g =>
    match (chan s c).state with
    | .running => beginStop s c { g with haltSeen := true }
    | .waitTurn => if isRunOn g then s else haltNow s c .requested
    | .waitCredit => haltNow s c .requested
    | .waitZone => if isRunOn g then s else haltNow s c .requested
    | _ => s

/-- A channel stalls: steps 1 to 5 of R84. -/
def stallCore (s : Station) (c : ChanId) (cause : StallCause) : Station :=
  if enabledState (chan s c).state then
    let g := headSeg s c
    let left := claimedSet s c
    let s1 := returnCredit (setChan s c ⟨.stalled, [], some cause⟩) g
    let s2 := match left with
      | none => s1
      | some m => match s1.motion.outstanding with
        | .none => s1
        | .offered => withdrawOffer s1
        | _ => setOutstanding (offerRelease s1 (maskLess m (heldHere s)) true) .none
    giveEvent s2 (.channelStalled c cause (tagOf g))
  else s

/-! ### Failures of the Change Sequencer (R126 to R128) -/

/-- The port the change is at, and whether it lies before INSERT. -/
def changePort (s : Station) : Option Nat :=
  match s.change.state with
  | .idle => none
  | .claiming => none
  | .reservePickup => some s.change.pt
  | .unlockPickup => some s.change.pt
  | .engage => some s.change.pt
  | .confirmTake => some s.change.pt
  | _ => match s.change.deposit with
    | some (_, pm) => some pm
    | none => none

/-- The maybe-inside flag: set in the states from INSERT onward (R126, R128). -/
def maybeInside : ChangeState → Bool
  | .idle => false
  | .claiming => false
  | .reserveDeposit => false
  | .unlockDeposit => false
  | _ => true

/-- A port is RESERVED by this station in its replica. -/
def reservedHere (s : Station) (p : Nat) : Bool :=
  match (portEntry (tabs s) p).state with
  | .reserved k _ _ => k == me s
  | _ => false

def isReserveOf (p : Nat) : Body → Bool
  | .portReserve q _ _ => q == p
  | _ => false

/-- A PORT_RESERVE of this station for a port is queued or in flight. -/
def reserveQueued (s : Station) (p : Nat) : Bool :=
  s.line.control.any (fun o => isReserveOf p o.body) ||
    match s.line.flight with
    | none => false
    | some f => isReserveOf p f.item.body

def isReserveFrame : Body → Bool
  | .portReserve .. => true
  | _ => false

def isTakeFrame : Body → Bool
  | .probeTake .. => true
  | _ => false

/-- The abandon of a failure by HALT, stall or start sequence (R126, R127). -/
def abandonByState (s : Station) : Station :=
  let s1 := withdrawWaiting s (fun w => w.src == .change && isReserveFrame w.item.body)
  match changePort s with
  | none => s1
  | some p =>
    if reservedHere s1 p || reserveQueued s1 p then offerControl s1 .change 0 (.portAbandon p (maybeInside s.change.state)) else s1

/-- The abandon of the failures of R128 step 1: every port its replica shows RESERVED by this station. -/
def abandonHeld (s : Station) : Station :=
  (((List.range 12).map (· + 1)).filter (fun p => reservedHere s p)).foldl
    (fun t p => offerControl t .change 0 (.portAbandon p (maybeInside s.change.state))) s

/-- A sequencer segment of a channel is stopped as a HALT stops it, without an event; a running retract runs on (R128). -/
def stopSequencer (s : Station) (c : ChanId) : Station :=
  match headSeg s c with
  | none => s
  | some g =>
    if fromSequencer g then
      match (chan s c).state with
      | .running => if s.change.leg = .retract then s else beginStop s c { g with quietStop := true }
      | .stopping => s
      | _ => haltQuiet s c
    else s

/-- A sequencer segment is running or stopping. -/
def sequencerMoves (s : Station) : Bool :=
  [ChanId.arm, .head].any (fun c => movingState (chan s c).state && match headSeg s c with
    | none => false
    | some g => fromSequencer g)

/-- The change record gone, output and last failure kept (R122). -/
def idleChanger (s : Station) : Station := { s with change := Changer.idleWith s.change.output s.change.lastFailure }

/-- The end of a failed change once no sequencer segment moves (R128 step 4). -/
def endFailure (s : Station) : Station :=
  match s.change.failing with
  | none => s
  | some cause =>
    if sequencerMoves s then s
    else giveEvent (tidyMoment (idleChanger s) none) (.changeFailed s.change.tag cause)

/-- The failure is met: its cause is kept and the waits end. -/
def meetFailure (s : Station) (cause : ChangeCause) : Station :=
  { s with change := { s.change with
      failing := some cause, lastFailure := some cause, couplingWait := none, unlockWait := none, confirmWait := none } }

/-- The MOUNT_REPORT of R128 step 3, with the code the change has read. -/
def reportMount (s : Station) (code : Option Code) : Station := offerControl s .mount 0 (.mountReport code)

/-- A sequencer segment that has not started leaves its channel; one that moves runs on (R86, R127). -/
def dropWaiting (s : Station) (c : ChanId) : Station := if movingState (chan s c).state then s else stopSequencer s c

/-- The motion of a failed change is stopped on both channels (R128 step 2). -/
def stopBoth (s : Station) : Station := stopSequencer (stopSequencer s .arm) .head

/-- What a failure by stall does to the motion of both channels (R86, R127). -/
def dropBoth (s : Station) : Station := dropWaiting (dropWaiting s .arm) .head

/-- A failure by HALT, stall or start sequence (R126, R127), its motion stopped by `stop`; met at most once a change (R128). -/
def failWith (stop : Station → Station) (s : Station) (cause : ChangeCause) (mount : Bool) : Station :=
  if changeRuns s && s.change.failing.isNone then
    let s1 := stop (meetFailure (abandonByState s) cause)
    endFailure (if mount then reportMount s1 s.change.code else s1)
  else endFailure s

/-- A failure by HALT or start sequence (R126, R127). -/
def failByMotion (s : Station) (cause : ChangeCause) (mount : Bool) : Station := failWith stopBoth s cause mount

/-- A failure by RACK_TIMEOUT, COUPLING, DEPOSIT_UNCONFIRMED, WRONG_PROBE or RACK_LOST (R128). -/
def failByRack (s : Station) (cause : ChangeCause) : Station :=
  if changeRuns s && s.change.failing.isNone then
    let s1 := stopBoth (meetFailure (abandonHeld s) cause)
    let s2 := if s.change.heldSeen && cause == .rackLost then reportMount s1 s.change.code else s1
    endFailure s2
  else s

/-- The cause of CHANGE_FAILED for a stall (R127). -/
def stallFailure (cause : StallCause) : ChangeCause := if cause = .collision then .collision else .stalled

/-- A stall fails a running change (R127): an offer of PROBE_TAKE not yet taken is withdrawn, a segment that moves on the other channel
runs on (R86), one that waits is dropped (log 22). The cause is the stall's, after an accepted HALT too (log 21). -/
def failByStall (s : Station) (cause : StallCause) : Station :=
  failWith dropBoth (withdrawWaiting s (fun w => w.src == .change && isTakeFrame w.item.body)) (stallFailure cause) false

/-- The failure of a change by a halt in the start sequence of its segment (R127). -/
def startFailure : HaltCause → ChangeCause
  | .limit => .limit
  | .zoneForbidden => .zoneForbidden
  | .zoneDeadlock => .zoneDeadlock
  | .notHomed => .notHomed
  | _ => .halted

/-- A sequencer segment halted by its start sequence or in a deadlock fails the change (R63, R127). After the coupling has
shown HELD the MOUNT_REPORT takes the place of the PROBE_TAKE (log 14). -/
def failByStart (s : Station) (cause : HaltCause) : Station :=
  failByMotion s (startFailure cause) s.change.heldSeen

end Sys2Proof.Machine
end

