-- ==== Sys2Proof/Machine/Start.lean ====
section
/-! DEFINITION. The leading segment and its start sequence (R75, R79, R80), segments taken, completed and stopped (R74, R81 to
R85), and clearing and enabling of channels (R87, R88). -/

namespace Sys2Proof.Machine

/-! ### The leading segment (R75) -/

/-- The channel of the leading segment: the lower acceptance number of the head segments, while nothing moves. -/
def leading (s : Station) : Option ChanId :=
  if movingState s.motion.arm.state || movingState s.motion.head.state then none
  else match headSeg s .arm, headSeg s .head with
    | none, none => none
    | some _, none => some .arm
    | none, some _ => some .head
    | some a, some h => if a.acc ≤ h.acc then some .arm else some .head

/-- What the start sequence of a leading segment comes to. -/
inductive StartOutcome where
  | waits (s : Station)
  | fails (cause : HaltCause)
  | starts (s : Station)

/-- Credit step (R79). -/
def creditStep (s : Station) (c : ChanId) (g : Segment) : Option (Station × Segment) :=
  if isTouchSeg g && !g.credit then
    if anyFree s then
      let g1 := { g with credit := true }
      some (setHead (reserveEntry s) c g1, g1)
    else none
  else some (s, g)

/-- A segment in motion: RUNNING, a TOUCH in APPROACH, a HOME with its channel's axes unhomed (R69, R80). -/
def startMotion (s : Station) (c : ChanId) (g : Segment) : Station :=
  let s1 := setState (setHead s c { g with phase := .approach, marks := .all false }) c .running
  if isHomeSeg g then { s1 with motion := { s1.motion with homed := setForChan s1 c false s1.motion.homed } } else s1

/-- Base priority of a claim (R49). -/
def claimPrio (g : Segment) : Prio := if g.recovery then .recovery else if fromSequencer g then .change else .routine

/-- The ZONE_CLAIM of a segment offered (R49). -/
def offerClaim (s : Station) (g : Segment) (m : ZoneMask) : Station :=
  let s1 := offerControl { s with motion := { s.motion with claimFor := g.acc } } .claim 0 (.zoneClaim m (claimPrio g))
  setOutstanding s1 (if waitingAny s1 (fun w => w.src == .claim) then .offered else .taken)

/-- The claim of a segment in WAIT_ZONE, offered once no earlier claim of the station is outstanding (R49). -/
def claimIfClear (s : Station) (g : Segment) (m : ZoneMask) : Station :=
  if s.motion.outstanding = .none then offerClaim s g m else s

/-- Zone step once the set is formed (R48, R49). -/
def zoneStep (s : Station) (c : ChanId) (g : Segment) : StartOutcome :=
  let m := zoneSetOf s g
  if meets m (othersHomeMask (cellOf s) (me s)) then .fails .zoneForbidden
  else
    let g1 := { g with zoneSet := some m }
    if holdsAll s m then .starts (startMotion s c g1)
    else .waits (claimIfClear (setState (setHead s c g1) c .waitZone) g1 m)

/-- Homed, limit and zone steps (R80). -/
def laterSteps (s : Station) (c : ChanId) (g : Segment) : StartOutcome :=
  if isHomeSeg g then zoneStep s c g
  else if !allHomed s then .fails .notHomed
  else
    let off := tipOffset s (headIndex s)
    if limitsHold s off g.kind then zoneStep s c { g with axisTarget := commanded s off g.kind } else .fails .limit

/-- The start sequence from its first step (R79, R80). -/
def startSequence (s : Station) (c : ChanId) (g : Segment) : StartOutcome :=
  match creditStep s c g with
  | none => .waits (setState s c .waitCredit)
  | some (s1, g1) => laterSteps s1 c g1

/-- The credit of a start sequence that failed is the segment's already: the station as the failure finds it. -/
def afterCredit (s : Station) (c : ChanId) (g : Segment) : Station :=
  match creditStep s c g with
  | none => s
  | some (s1, _) => s1

/-- The leading segment is chosen afresh and starts, again after each failure; `n` bounds the failures (R75, R80). -/
def leadSteps : Nat → Station → Station
  | 0, s => s
  | n + 1, s =>
    match leading s with
    | none => s
    | some c =>
      match (chan s c).state, headSeg s c with
      | .waitTurn, some g =>
        match startSequence s c g with
        | .waits s1 => s1
        | .starts s1 => s1
        | .fails cause =>
          let s1 := haltNow (afterCredit s c g) c cause
          leadSteps n (if fromSequencer g then failByStart s1 cause else s1)
      | _, _ => s

/-- The leading segment chosen afresh (R75): each failure empties a queue, and there are two. -/
def chooseLead (s : Station) : Station := leadSteps 3 s

/-! ### Segments taken (R74) -/

/-- A channel in this state takes a segment. -/
def takesSegment (st : ChanState) : Bool :=
  match st with
  | .idle => true
  | .waitTurn => true
  | .waitCredit => true
  | .waitZone => true
  | .running => true
  | _ => false

/-- A fresh segment (R74). -/
def freshSegment (s : Station) (kind : SegKind) (origin : Origin) (recovery : Bool) (speed : Nat) : Segment where
  acc := s.motion.nextAcc
  kind := kind
  origin := origin
  recovery := recovery
  speed := speed
  phase := .approach
  zoneSet := none
  axisTarget := none
  credit := false
  haltSeen := false
  quietStop := false
  marks := .all false
  checked := none

/-- A segment enters at the tail with the next acceptance number; an IDLE channel becomes WAIT_TURN (R74). -/
def enqueueSegment (s : Station) (c : ChanId) (kind : SegKind) (origin : Origin) (recovery : Bool) (speed : Nat) : Station :=
  let g := freshSegment s kind origin recovery speed
  let ch := chan s c
  let st := if ch.state = .idle then .waitTurn else ch.state
  let s1 := setChan s c { ch with queue := ch.queue ++ [g], state := st }
  { s1 with motion := { s1.motion with nextAcc := s1.motion.nextAcc + 1 } }

/-- A segment of the Change Sequencer offered under the same rule, and the leading segment chosen afresh (R74). A channel
that takes no segment leaves it out: the change fails as by a HALT (log 14). -/
def giveSegment (s : Station) (c : ChanId) (kind : SegKind) (runOn : Bool) (speed : Nat) : Station :=
  if takesSegment (chan s c).state && decide ((chan s c).queue.length < Config.segmentPlaces) then
    chooseLead (enqueueSegment s c kind (.sequencer runOn) false speed)
  else failByStart s .requested

/-! ### Completion and stops (R81, R82) -/

/-- Steps 1 to 5 of R81 for the head segment of a channel. -/
def completeSegment (s : Station) (c : ChanId) (g : Segment) : Station :=
  let rest := (chan s c).queue.drop 1
  let s1 := setChan s c { chan s c with queue := rest }
  let s2 := if isHomeSeg g then { s1 with motion := { s1.motion with homed := setForChan s1 c true s1.motion.homed } } else s1
  let s3 := tidyMoment (setState s2 c (if rest.isEmpty then .idle else .waitTurn)) none
  if rest.isEmpty && !fromSequencer g then giveEvent s3 (.channelIdle c) else s3

/-- A stop ends: the channel goes HALTED; a stop the Change Sequencer made itself queues no event (R82, R128). -/
def endStop (s : Station) (c : ChanId) (g : Segment) : Station :=
  let s1 := tidyMoment (emptyChan s c .halted) (claimedSet s c)
  if g.quietStop then s1 else giveEvent s1 (.channelHalted c .requested (tagOf (some g)))

/-! ### Stalls and collisions (R84, R85) -/

/-- A channel stalls and the Change Sequencer is told; the leading segment is chosen afresh (R84). -/
def stall (s : Station) (c : ChanId) (cause : StallCause) : Station :=
  if enabledState (chan s c).state then chooseLead (failByStall (stallCore s c cause) cause) else s

/-- A collision: the stall, and a PROBE_MARK for a mounted probe (R85). -/
def collide (s : Station) (c : ChanId) : Station :=
  if enabledState (chan s c).state then
    let s1 := stallCore s c .collision
    let s2 := match mounted s1 with
      | none => s1
      | some x => offerControl s1 .mark 0 (.probeMark x)
    chooseLead (failByStall s2 .collision)
  else s

/-! ### Enabling and clearing (R87, R88) -/

/-- An axis of the channel has a counted drive fault. -/
def channelFault (s : Station) (c : ChanId) : Bool := (chanAxes s c).any (fun ax => s.motion.fault.get ax)

/-- A channel leaves DISABLED (R88). -/
def enableChan (s : Station) (c : ChanId) : Station :=
  if channelFault s c then giveEvent (setChan s c ⟨.stalled, [], some .driveFault⟩) (.channelStalled c .driveFault none)
  else setChan s c ⟨.idle, [], none⟩

def enableChannels (s : Station) : Station :=
  if (ownOf s).axes.length = 0 then s else enableChan (enableChan s .arm) .head

/-- A MOUNT_REPORT of an arm station with the code its identity line reads (R118). -/
def offerMount (s : Station) : Station := if isArm s then reportMount s s.pins.headIdent else s

/-- A CLEAR is refused for a channel: STOPPING, or STALLED with a counted drive fault (R87). -/
def clearRefused (s : Station) (c : ChanId) : Bool :=
  match (chan s c).state with
  | .stopping => true
  | .stalled => channelFault s c
  | _ => false

/-- A CLEAR on one channel (R87). -/
def clearChan (s : Station) (c : ChanId) : Station :=
  match (chan s c).state with
  | .halted => tidyMoment (setChan s c ⟨.idle, [], none⟩) none
  | .stalled =>
    if channelFault s c then s
    else
      let cause := (chan s c).stall
      let s1 := tidyMoment (setChan s c ⟨.idle, [], none⟩) none
      if cause = some .collision then offerMount s1 else s1
  | _ => s

/-- Both channels DISABLED, queues discarded, no event and no release (R89, R90). -/
def disableChannels (s : Station) : Station :=
  { s with motion := { s.motion with arm := .disabled, head := .disabled } }

end Sys2Proof.Machine
end

