-- ==== Sys2Proof/Machine/Change.lean ====
section
/-! DEFINITION. The Change Sequencer's steps (R122 to R126): the route, the states of deposit and pickup, and what the
application of a frame, a timer or the coupling sensor does to them. -/

namespace Sys2Proof.Machine

/-! ### The route (R123) -/

def seatOf (s : Station) (p : Nat) : Vec3 := (portCfg (cellOf s) p).seat

/-- The approach point of a port: its seat plus its approach offset (R109). -/
def enterPoint (s : Station) (p : Nat) : Vec3 := Vec3.add (seatOf s p) (portCfg (cellOf s) p).approach

/-- The points the route box holds besides the current tip. -/
def routePoints (s : Station) (deposit : Option (Nat × Nat)) (pt : Nat) : List Vec3 :=
  [armPos s, seatOf s pt, enterPoint s pt] ++ match deposit with
    | none => []
    | some (_, pm) => [seatOf s pm, enterPoint s pm]

/-- The largest of the three clearances. -/
def routeClearance (s : Station) (deposit : Option (Nat × Nat)) (t : Nat) : Nat :=
  max (max (probeCfg (cellOf s) t).clearance (cellOf s).bareClearance) (match deposit with
    | none => 0
    | some (m, _) => (probeCfg (cellOf s) m).clearance)

/-- The route set: zones that meet the grown route box, and the RACK zone. -/
def routeSet (s : Station) (deposit : Option (Nat × Nat)) (t pt : Nat) : ZoneMask :=
  zonesMeeting (cellOf s) (growBox (spanBox (currentTip s) (routePoints s deposit pt)) (routeClearance s deposit t)) |||
    maskOf (isRackZone (cellOf s))

/-! ### Moves between states -/

def setChange (s : Station) (c : Changer) : Station := { s with change := c }

def setLeg (s : Station) (l : Leg) : Station := { s with change := { s.change with leg := l } }

def enterState (s : Station) (st : ChangeState) (l : Leg) : Station := { s with change := { s.change with state := st, leg := l } }

/-- A TRAVERSE of the ARM channel at the rack speed to an arm position (R123). -/
def armTo (s : Station) (v : Vec3) (runOn : Bool) : Station := giveSegment s .arm (.armTraverse v) runOn (cellOf s).rackSpeed

/-- The rack station is ACTIVE in the replica. -/
def rackActive (s : Station) : Bool := rosterState (tabs s) (cellOf s).rackStation == .active

/-- RESERVE_PICKUP entered (R125). -/
def enterReservePickup (s : Station) : Station :=
  let s1 := enterState s .reservePickup .none
  if rackActive s1 then offerControl s1 .change 0 (.portReserve s.change.pt .pickup s.change.t) else failByRack s1 .rackLost

/-- RESERVE_DEPOSIT entered (R124), or RESERVE_PICKUP where no probe is mounted (R125). -/
def enterReserve (s : Station) : Station :=
  match s.change.deposit with
  | none => enterReservePickup s
  | some (m, pm) =>
    let s1 := enterState s .reserveDeposit .none
    if rackActive s1 then offerControl s1 .change 0 (.portReserve pm .deposit m) else failByRack s1 .rackLost

/-- The coupling has let go in INSERT: PROBE_DEPOSIT, retract and CONFIRM_DEPOSIT (R124). -/
def depositDone (s : Station) : Station :=
  match s.change.deposit with
  | none => s
  | some (m, pm) =>
    let s1 := offerControl { s with change := { s.change with couplingWait := none } } .change 0 (.probeDeposit m pm)
    armTo (enterState s1 .confirmDeposit .retract) (enterPoint s1 pm) false

/-- The coupling shows HELD in ENGAGE: the code is read and the run-on retract starts (R125). -/
def engageDone (s : Station) : Station :=
  let s1 := { s with change := { s.change with couplingWait := none, heldSeen := true, code := s.pins.headIdent, leg := .retract } }
  armTo s1 (enterPoint s1 s1.change.pt) true

/-- The seat of a port is reached in INSERT or ENGAGE: the coupling is driven and its wait starts (R124, R125). -/
def seatReached (s : Station) : Station :=
  let release := s.change.state == .insert
  let s1 := { s with change := { s.change with
    output := !release, leg := .coupling, couplingWait := some (s.now + Config.couplingWait) } }
  if release then (if s1.pins.sensor then s1 else depositDone s1) else (if s1.pins.sensor then engageDone s1 else s1)

/-- The deposit is judged in CONFIRM_DEPOSIT (R124). -/
def judgeDeposit (s : Station) : Station :=
  match s.change.deposit with
  | none => s
  | some (m, pm) =>
    let st := (portEntry (tabs s) pm).state
    if st = .occupied m then
      if s.change.leg = .done then
        enterReservePickup { s with change := { s.change with confirmWait := none } }
      else s
    else if reservedHere s pm then s
    else failByRack s .depositUnconfirmed

/-- The PROBE_TAKE offered at the end of the retract (R125). -/
def offerTake (s : Station) : Station :=
  let s1 := enterState s .confirmTake .done
  offerControl s1 .change 0 (.probeTake s.change.t s.change.pt s.change.code)

/-- A segment of the Change Sequencer has ended, completed or run on to its end under a HALT (R124, R125). -/
def changeSegmentEnd (s : Station) : Station :=
  if s.change.failing.isSome then endFailure s
  else match s.change.state, s.change.leg with
    | .claiming, _ => enterReserve s
    | .insert, .toApproach => match s.change.deposit with
      | none => s
      | some (_, pm) => armTo (setLeg s .toSeat) (seatOf s pm) false
    | .insert, .toSeat => seatReached s
    | .confirmDeposit, .retract => judgeDeposit (setLeg s .done)
    | .engage, .toApproach => armTo (setLeg s .toSeat) (seatOf s s.change.pt) false
    | .engage, .toSeat => seatReached s
    | .engage, .retract => offerTake s
    | _, _ => s

/-! ### Applications (R124 to R126) -/

/-- DONE (R125). -/
def changeDone (s : Station) : Station :=
  giveEvent (tidyMoment (idleChanger s) none) (.changeDone s.change.tag s.change.t)

/-- The sequencer waits on a reservation of the port it is at. -/
def waitsOnPort : ChangeState → Bool
  | .unlockDeposit => true
  | .insert => true
  | .unlockPickup => true
  | .engage => true
  | _ => false

/-- A later PORT_RESERVE of this station for a port waits behind the one applied: that one was an earlier change's. -/
def reserveWaits (s : Station) (p : Nat) : Bool := s.line.control.any (fun o => isReserveOf p o.body)

/-- An own PORT_RESERVE has been applied (R124, R125). -/
def reserveApplied (s : Station) (p : Nat) (took : Bool) : Station :=
  let next := match s.change.state with
    | .reserveDeposit => some ChangeState.unlockDeposit
    | .reservePickup => some ChangeState.unlockPickup
    | _ => none
  match next with
  | none => s
  | some st =>
    if changePort s = some p && !reserveWaits s p then
      if took then
        enterState { s with change := { s.change with unlockWait := some (s.now + Config.unlockWait) } } st .none
      else failByRack s .rackLost
    else s

/-- A PORT_STATE carrying UNLOCKED has been applied on a port RESERVED by this station (R124, R125). -/
def unlockApplied (s : Station) (p : Nat) : Station :=
  if changePort s = some p && reservedHere s p then
    let s1 := { s with change := { s.change with unlockWait := none } }
    match s.change.state with
    | .unlockDeposit => armTo (enterState s1 .insert .toApproach) (enterPoint s1 p) false
    | .unlockPickup => armTo (enterState s1 .engage .toApproach) (enterPoint s1 p) false
    | _ => s
  else s

/-- An own PROBE_DEPOSIT has been applied: the confirm wait starts (R124). -/
def depositApplied (s : Station) (m p : Nat) (took : Bool) : Station :=
  if s.change.state = .confirmDeposit && s.change.deposit == some (m, p) &&
      (took || (portEntry (tabs s) p).state == .occupied m) then
    { s with change := { s.change with confirmWait := some (s.now + Config.confirmWait) } }
  else s

/-- An own PROBE_TAKE has been applied (R125, R126). -/
def takeApplied (s : Station) (t p : Nat) (took : Bool) : Station :=
  if s.change.state = .confirmTake ∧ t = s.change.t ∧ p = s.change.pt then
    if s.change.haltOwed then
      endFailure (meetFailure (if took then s else reportMount s s.change.code) .halted)
    else if (probeRec (tabs s) t).custody = .station (me s) then changeDone s
    else failByRack s (if took then .wrongProbe else .rackLost)
  else s

/-- A reservation the change waits on has ended, or the deposit is to be judged (R124, R125). -/
def watchReservation (s : Station) : Station :=
  if s.change.failing.isSome then s
  else if s.change.state = .confirmDeposit then judgeDeposit s
  else if waitsOnPort s.change.state && !s.change.haltOwed then
    match changePort s with
    | none => s
    | some p => if reservedHere s p then s else failByRack s .rackLost
  else s

/-- The Change Sequencer after the application of a frame: its own frames first, then the port it waits on. -/
def changeApplied (s : Station) (f : Frame) (took : Bool) : Station :=
  if !changeRuns s || s.change.failing.isSome then s
  else
    let own := f.h.sender == me s
    let s1 := match f.body with
      | .portReserve p _ _ => if own then reserveApplied s p took else s
      | .portState p _ lock _ => if took && lock == .unlocked then unlockApplied s p else s
      | .probeDeposit m p => if own then depositApplied s m p took else s
      | .probeTake t p _ => if own then takeApplied s t p took else s
      | _ => s
    if changeRuns s1 then watchReservation s1 else s1

/-! ### HALT (R126) -/

/-- The coupling has shown HELD in ENGAGE, or CONFIRM_TAKE: a HALT lets the retract run on. -/
def pastCoupling (s : Station) : Bool := s.change.heldSeen

/-- The Change Sequencer on an accepted HALT (R126), once the Motion Unit has stopped what it stops. -/
def changeHalt (s : Station) : Station :=
  if !changeRuns s || s.change.failing.isSome then s
  else if pastCoupling s then { s with change := { s.change with haltOwed := true } }
  else failByMotion s .halted false

/-! ### Acceptance (R122) -/

/-- The change recorded and its CLAIMING INDEX given to the HEAD channel (R122, R123). -/
def startChange (s : Station) (tag : Code) (t pt : Nat) (deposit : Option (Nat × Nat)) : Station :=
  let s1 := setChange s { Changer.idleWith s.change.output s.change.lastFailure with
    state := .claiming, tag := tag, t := t, pt := pt, deposit := deposit, route := routeSet s deposit t pt }
  giveSegment s1 .head (.index (cellOf s).rackA (cellOf s).rackB) false (ownOf s).indexRate

end Sys2Proof.Machine
end

