-- ==== Sys2Proof/Machine/Thermal.lean ====
section
/-! DEFINITION. The Thermal Unit (R91 to R97) and the Rack Port Unit (R110, R111). -/

namespace Sys2Proof.Machine

/-! ### Inputs (R92 to R94) -/

/-- How a sample is judged (R92). -/
inductive Sample where
  | fault
  | accepted (v : Int)
  | outside
deriving DecidableEq, Repr

/-- A sample of a resistance in µΩ against the plausible band (R92). -/
def judgeSample (plausible ohms : Nat) : Sample :=
  if !inRange ohms then .fault
  else
    let v := deviation ohms
    if v.natAbs ≤ plausible then .accepted v else .outside

/-- The value of an input: the mean of its window (R93). -/
def inputValue (i : ThermInput) : Int := meanRound i.window

/-- Window and counts after a sample (R93, R94). -/
def countSample (i : ThermInput) : Sample → ThermInput
  | .fault => { i with window := [], good := 0, outside := 0, inside := 0 }
  | .accepted v =>
    let w := i.window ++ [v]
    { i with window := w.drop (w.length - Config.windowSamples), good := min 8 (i.good + 1), outside := 0, inside := i.inside + 1 }
  | .outside => { i with good := min 8 (i.good + 1), outside := i.outside + 1, inside := 0 }

/-- VALID with a full window, SETTLING otherwise. -/
def settled (i : ThermInput) : ThermState := if i.window.length = Config.windowSamples then .valid else .settling

/-- The state after a sample, `i` with its window and counts already changed (R94). -/
def nextThermState (i : ThermInput) : Sample → ThermState
  | .fault => .opened
  | .accepted _ =>
    match i.state with
    | .settling => settled i
    | .opened => if i.good < 8 then .opened else if Config.runLimit ≤ i.outside then .excursion else settled i
    | .valid => .valid
    | .excursion => if Config.runLimit ≤ i.inside then settled i else .excursion
  | .outside =>
    match i.state with
    | .settling => if Config.runLimit ≤ i.outside then .excursion else .settling
    | .opened => if i.good < 8 then .opened else if Config.runLimit ≤ i.outside then .excursion else settled i
    | .valid => if Config.runLimit ≤ i.outside then .excursion else .valid
    | .excursion => .excursion

/-- An input after a sample. -/
def takeSample (i : ThermInput) (x : Sample) : ThermInput :=
  let j := countSample i x
  { j with state := nextThermState j x }

/-- The kind of input `n`, 1 to 8. -/
def inputKind (s : Station) (n : Nat) : Option ThermKind := at1 (ownOf s).inputs none n

/-- Every input whose kind is not NONE sampled (R92). -/
def sampleInputs (s : Station) (ohms : List Nat) : List ThermInput :=
  map1 (fun n i => if (inputKind s n).isSome then takeSample i (judgeSample (cellOf s).plausible (at1 ohms 0 n)) else i)
    s.thermal.inputs

/-! ### The THERMAL frame (R96, R97) -/

/-- The entries of a THERMAL composed now (R97). -/
def thermEntries (s : Station) : List ThermEntry :=
  ((List.range 8).map (· + 1)).flatMap (fun n => match inputKind s n with
    | none => []
    | some k =>
      let i := at1 s.thermal.inputs ⟨[], 0, 0, 0, .settling⟩ n
      [⟨n, k, inputValue i, i.state⟩])

/-- A THERMAL composed and offered, the period timer started (R96). -/
def composeThermal (s : Station) : Station :=
  { s with line := offerThermalTo s.line s.now (.thermal (thermEntries s))
           thermal := { s.thermal with periodDue := some (s.now + (cellOf s).period) } }

/-! ### Rack ports (R110, R111) -/

def rackPort (s : Station) (p : Nat) : RackPort := at1 s.rack ⟨.locked, none⟩ p

def setRackPort (s : Station) (p : Nat) (v : RackPort) : Station := { s with rack := set1 s.rack p v }

/-- The Rack Port Unit works: the rack station in ACTIVE or PARKED mode. -/
def rackWorks (s : Station) : Bool := isRack s && serving s

/-- A report on port `p`: a pending one is withdrawn, the newer one offered (R111). -/
def reportRack (s : Station) (p : Nat) : Station :=
  let present := at1 s.pins.presence false p
  let code := if present then at1 s.pins.portIdent none p else none
  offerControl (withdrawWaiting s (fun w => w.src == .rack p)) (.rack p) 0
    (.portState p present (rackPort s p).lock code)

/-- The lock output of a port driven. -/
def setLock (s : Station) (p : Nat) (l : Lock) : Station := setRackPort s p { rackPort s p with lock := l }

/-- A report on every configured port (R111, on entering ACTIVE from JOINING). -/
def reportAll (s : Station) : Station :=
  if isRack s then ((List.range (cellOf s).ports.length).map (· + 1)).foldl reportRack s else s

/-- What the application of a frame asks of one port: lock action first, one report at most (R111). -/
def rackPortApplied (before : Replica) (f : Frame) (took : Bool) (s : Station) (p : Nat) : Station :=
  let st := (portEntry (tabs s) p).state
  let reserve := took && isReserveOf p f.body
  let abandon := took && match f.body with
    | .portAbandon q _ => q == p
    | _ => false
  let left := (rackPort s p).lock == .unlocked && !isReserved st
  let ownReport := f.h.sender == me s && match f.body with
    | .portState .. => true
    | _ => false
  let unknown := st == .unknown && (portEntry before p).state != .unknown && !ownReport
  if reserve then reportRack (setLock s p .unlocked) p
  else if left || abandon then reportRack (setLock s p .locked) p
  else if unknown then reportRack s p
  else s

/-- The Rack Port Unit after the application of a frame (R111). -/
def rackApplied (before : Replica) (s : Station) (f : Frame) (took : Bool) : Station :=
  if rackWorks s then
    ((List.range (cellOf s).ports.length).map (· + 1)).foldl (rackPortApplied before f took) s
  else s

end Sys2Proof.Machine
end

