-- ==== Sys2Proof/Machine/Modes.lean ====
section
/-! DEFINITION. Station modes (chapter 10): held in reset, LOADING, OUT, SHUT, restarts, and what every unit keeps and loses
(R20, R43, R90, R95, R110, R122, R157, R167, R168, R173 to R175); the JOIN of a station in JOINING (R24). -/

namespace Sys2Proof.Machine

/-! ### Leaving the line -/

/-- The Line Port on entering OUT or SHUT (R20). -/
def lineOut (lp : LinePort) : LinePort := { LinePort.reset with retry := lp.retry, vetoLog := lp.vetoLog }

/-- Every unit on entering OUT or SHUT: what its chapter keeps is kept. -/
def leaveLine (s : Station) : Station :=
  { s with
      line := lineOut s.line
      replica := { ReplicaUnit.reset with joinNumber := s.replica.joinNumber }
      motion := { s.motion with arm := .disabled, head := .disabled, outstanding := .none }
      touch := { s.touch with points := List.replicate 24 .free }
      thermal := { s.thermal with periodDue := none }
      change := Changer.idleWith s.change.output s.change.lastFailure
      rack := s.rack.map (fun p => { p with lockDue := none })
      request := RequestUnit.reset }

/-- The station enters SHUT (R174): sampling stops (R95). -/
def enterShut (s : Station) (r : ShutReason) : Station :=
  let s1 := leaveLine s
  { s1 with
      thermal := { s1.thermal with sampleDue := none }
      loader := { s1.loader with mode := .shut, shutReason := some r, holdOff := none } }

/-- An OUT cause (R173, R174): OUT, or SHUT at the third within 600 s. -/
def enterOut (s : Station) (c : OutCause) : Station :=
  let recent := s.loader.outRecord.filter (fun t => decide (s.now ≤ t + Config.outSpan))
  if 2 ≤ recent.length then
    enterShut { s with loader := { s.loader with outRecord := recent, outCause := some c } } .repeatedOut
  else
    let s1 := leaveLine s
    { s1 with loader := { s1.loader with
        mode := .out, outRecord := recent ++ [s.now], outCause := some c, holdOff := some (s.now + Config.outHoldOff) } }

/-! ### Starting -/

/-- The drive fault filters start afresh: on the lines that are asserted (R71, R90). -/
def freshFilters (s : Station) : PerAxis (Option Nat) :=
  let v (ax : Axis) : Option Nat := if s.pins.driveFault.get ax then some s.now else none
  ⟨v .x, v .y, v .z, v .a, v .b⟩

/-- The level of the straps at a start (R169). -/
def setStraps (s : Station) (straps : Nat) : Station := { s with pins := { s.pins with straps := straps % 16 } }

/-- The straps are sampled at the start of LOADING; 0 and 15 go SHUT (R169). -/
def sampleStraps (s : Station) : Station :=
  let n := s.pins.straps % 16
  let s1 := { s with loader := { s.loader with mode := .loading, number := n } }
  if n = 0 ∨ n = 15 then enterShut s1 .strap else s1

/-- A requested or self restart: every unit at its restart values, encoder counts, homed flags and the repeated-OUT record kept
(R175), then LOADING (R168). -/
def restart (s : Station) (cause : ResetCause) : Station :=
  sampleStraps { s with
      line := LinePort.reset
      replica := ReplicaUnit.reset
      motion := { MotionUnit.reset with enc := s.motion.enc, homed := s.motion.homed, filter := freshFilters s }
      touch := TouchUnit.reset
      thermal := ThermalUnit.reset
      change := Changer.idleWith s.pins.sensor none
      rack := rackReset
      request := RequestUnit.reset
      loader := { s.loader with cause := cause, holdOff := none, shutReason := none, outCause := none } }

/-- Held in reset: every unit at its power-on values, the coupling output following its sensor (R168). Time and the levels at
the pins go on; the counter of free values is the model's own. -/
def holdInReset (s : Station) : Station :=
  { Station.reset with now := s.now, pins := s.pins, freeUsed := s.freeUsed, change := Changer.idleWith s.pins.sensor none }

/-- Out of reset into LOADING with cause POWER_ON (R168). -/
def releaseReset (s : Station) : Station :=
  sampleStraps { s with
    loader := { s.loader with held := false, cause := .powerOn }
    motion := { s.motion with filter := freshFilters s } }

/-! ### JOINING (R24) -/

/-- The next join number: 1 to 255 and then back to 1. -/
def nextJoin (n : Nat) : Nat := if 255 ≤ n then 1 else n + 1

/-- A JOIN offered: it takes the next join number, empties the catch-up list and clears service and pending replica (R24). -/
def offerJoin (s : Station) : Station :=
  let jn := nextJoin s.replica.joinNumber
  let s1 := { s with replica := { s.replica with
    joinNumber := jn, joinDone := false, catchUp := [], service := none, pendingRep := none, abandoned := false } }
  offerControl (withdrawWaiting s1 (fun w => w.src == .joining)) .joining 0 (.join s.loader.fingerprint s.loader.cause jn)

/-- The station enters JOINING: join state set, JOIN offered, sampling begun (R24, R95, R168). -/
def enterJoining (s : Station) : Station :=
  offerJoin { s with
    loader := { s.loader with mode := .joining }
    replica := { ReplicaUnit.reset with joinNumber := s.replica.joinNumber }
    thermal := { ThermalUnit.reset with sampleDue := some (s.now + Config.samplePeriod) } }

/-- The Loader judges the image read: SHUT, or JOINING (R170, R171). -/
def loadImage (s : Station) (bytes : List Byte) : Station :=
  match judgeImage bytes s.loader.number with
  | .shut r fp => enterShut { s with loader := { s.loader with fingerprint := fp.getD s.loader.fingerprint } } r
  | .good im fp => enterJoining { s with loader := { s.loader with image := im, fingerprint := fp } }

/-! ### ACTIVE and PARKED (R88, R89) -/

/-- The STATION_MODE event of the mode the station is in (R165). -/
def modeEvent (s : Station) : Station := giveEvent s (.stationMode s.loader.mode (s.loader.mode == .parked))

/-- The join state is discarded (R24). -/
def endJoining (r : ReplicaUnit) : ReplicaUnit :=
  { ReplicaUnit.reset with tables := r.tables, joinNumber := r.joinNumber }

/-- The station enters ACTIVE mode from JOINING: THERMAL, channels, MOUNT_REPORT, tidy moment, port reports, STATION_MODE
(R88, R96, R111, R118). A FORM or JOIN that the CONTROL queue has not taken is withdrawn (log 36); the MOUNT_REPORT is offered before the
tidy moment (log 41). -/
def enterActive (s : Station) : Station :=
  let s1 := composeThermal { s with
    loader := { s.loader with mode := .active }
    replica := endJoining s.replica
    line := { s.line with waiting := s.line.waiting.filter (fun w => w.src != .joining) } }
  modeEvent (reportAll (tidyMoment (offerMount (enableChannels s1)) none))

/-- PARK accepted in ACTIVE (R89). -/
def park (s : Station) : Station :=
  let m := maskLess (heldHere s) (homeMask (cellOf s) (me s))
  let s1 := disableChannels { s with loader := { s.loader with mode := .parked } }
  modeEvent (if m = 0#32 then s1 else offerRelease s1 m false)

/-- UNPARK accepted in PARKED (R89), the MOUNT_REPORT before the tidy moment (log 41). -/
def unpark (s : Station) : Station :=
  modeEvent (tidyMoment (offerMount (enableChannels { s with loader := { s.loader with mode := .active } })) none)

end Sys2Proof.Machine
end

