-- ==== Sys2Proof/Machine/Joining.lean ====
section
/-! DEFINITION. Serving a snapshot (R33 to R35) and loading one (R26, R36 to R39): the shadow's frames, the pending replica, the
catch-up list and its replay, and abandoning an attempt. -/

namespace Sys2Proof.Machine

/-! ### Serving (R34) -/

/-- The line count a last-heard entry holds, none where it is none or an offset. -/
def heardAbs : HeardCount → Option Nat
  | .abs n => some n
  | _ => none

/-- Tip entries `i`, `i + 1`, `i + 2` of a list as slots. -/
def slots (l : List Tip) (i : Nat) : Option Tip × Option Tip × Option Tip := (l[i]?, l[i + 1]?, l[i + 2]?)

def tipsEntry (x part : Nat) (v : Option Tip × Option Tip × Option Tip) : SnapContent := .tips x part v.1 v.2.1 v.2.2

/-- The three entries of a probe record (R34). -/
def probeEntries (r : Replica) (x : Nat) : List SnapContent :=
  let e := probeRec r x
  [.probe x e.custody e.cond e.touches e.staleRun e.qualTemp e.stamp, tipsEntry x 2 (slots e.tips 0), tipsEntry x 3 (slots e.tips 3)]

/-- The two entries of a filled latch (R34). -/
def latchEntries (r : Replica) (k : Nat) : List SnapContent :=
  let l := latchOf r k
  match l.data with
  | none => []
  | some d =>
    let p (i : Nat) : Option Tip := (at1 d.parts none i)
    [.latchFirst k d.probe d.n l.stamp (p 1) (p 2) (p 3), .latchSecond k (p 4) (p 5) (p 6)]

/-- The SNAP_ENTRY contents of a frozen replica in their order (R34); claims take their places from 1 (log 12). -/
def snapContents (c : CellPart) (sh : Shadow) : List SnapContent :=
  ((List.range 14).map (fun i => SnapContent.roster (i + 1) (roleIn c (i + 1)) (rosterEntry sh.tables (i + 1)) (at1 sh.heard none (i + 1)))) ++
  [.cell sh.tables.cell] ++
  ((List.range 32).map (fun z => SnapContent.zone z (zoneEntry sh.tables z))) ++
  (sh.tables.claims.mapIdx (fun i cl => SnapContent.claim (i + 1) cl)) ++
  ((List.range c.ports.length).map (fun i => SnapContent.port (i + 1) (portEntry sh.tables (i + 1)))) ++
  ((List.range 24).flatMap (fun i => probeEntries sh.tables (i + 1))) ++
  (sh.tables.board.map SnapContent.board) ++
  ((List.range 14).flatMap (fun i => latchEntries sh.tables (i + 1)))

/-- Every frame of a snapshot in its order (R34). -/
def snapFrames (c : CellPart) (sh : Shadow) : List Body :=
  let cs := snapContents c sh
  let fp := sh.tables.cell.fingerprint
  .snapBegin .serve sh.jn fp cs.length :: (cs.map (.snapEntry sh.jn) ++ [.snapEnd sh.jn sh.joinCount fp])

/-- Refusal notices offered in order for as long as they are taken (R33). -/
def offerNotices : Nat → Station → Station
  | 0, s => s
  | n + 1, s =>
    match s.replica.notices with
    | [] => s
    | (k, jn) :: rest =>
      let b := Body.snapBegin .refuse jn (tabs s).cell.fingerprint 0
      if takesReport s.line b then
        offerNotices n { s with line := enqueueReport s.line ⟨k, b⟩, replica := { s.replica with notices := rest } }
      else s

/-- The shadow's frames offered one at a time for as long as they are taken (R34). -/
def offerShadow : Nat → Station → Station
  | 0, s => s
  | n + 1, s =>
    match s.replica.shadow with
    | none => s
    | some sh =>
      match (snapFrames (cellOf s) sh)[sh.next]? with
      | none => s
      | some b =>
        if takesReport s.line b then
          offerShadow n { s with
            line := enqueueReport s.line ⟨sh.joiner, b⟩
            replica := { s.replica with shadow := some { sh with next := sh.next + 1 } } }
        else s

/-- Notices, then snapshot frames: the REPORT queue has 16 entries. -/
def offerSnapshots (s : Station) : Station :=
  let s1 := offerNotices Config.reportEntries s
  if s1.replica.notices.isEmpty then offerShadow Config.reportEntries s1 else s1

/-- The last-heard counts beside the shadow's roster entries. -/
def heardCounts (lp : LinePort) : List (Option Nat) := lp.heard.map (fun h => heardAbs h.count)

/-- The Replica Unit after an application: a service begun, ended or kept (R34, R35), a notice owed (R33). -/
def servingApplied (s : Station) (f : Frame) (fx : Fx) : Station :=
  let r := s.replica
  let jn := match f.body with
    | .join _ _ j => j
    | _ => 0
  let shadow :=
    if fx.chosen = some (me s) then
      some { tables := r.tables, heard := heardCounts s.line, joiner := f.h.sender, jn := jn, joinCount := lineCountOf s, next := 0 }
    else match r.shadow with
      | none => none
      | some sh => if (rosterEntry r.tables (me s)).serving = some (sh.joiner, sh.jn) then some sh else none
  let notices := if fx.refuser = some (me s) then r.notices ++ [(f.h.sender, jn)] else r.notices
  offerSnapshots { s with replica := { r with shadow := shadow, notices := notices } }

/-! ### Loading (R36, R37) -/

/-- A SERVE accepted: an empty pending replica (R36). -/
def acceptService (r : ReplicaUnit) (sender jn announced : Nat) : ReplicaUnit :=
  { r with service := some ⟨sender, jn, announced, 0⟩, pendingRep := some ⟨Replica.blank, List.replicate 14 none⟩ }

/-- A board entry at its place by station and input, in place of the one there (R37). -/
def insertBoard (e : BoardEntry) (b : List BoardEntry) : List BoardEntry :=
  let before (d : BoardEntry) : Bool := decide (d.station < e.station) || (d.station == e.station && decide (d.input < e.input))
  let behind (d : BoardEntry) : Bool := decide (e.station < d.station) || (d.station == e.station && decide (e.input < d.input))
  b.filter before ++ (e :: b.filter behind)

/-- Three slots put into a list of six at `i`. -/
def fillParts (l : List (Option Tip)) (i : Nat) (t1 t2 t3 : Option Tip) : List (Option Tip) :=
  set1 (set1 (set1 l i t1) (i + 1) t2) (i + 2) t3

/-- The tip entries of a pending record with part 2 or 3 replaced. -/
def fillTips (l : List Tip) (part : Nat) (t1 t2 t3 : Option Tip) : List Tip :=
  let new := [t1, t2, t3].filterMap id
  if part = 2 then new ++ l.drop 3 else l.take 3 ++ new

/-- The latch of a pending replica: entries of an empty latch start from nothing. -/
def latchStart (r : Replica) (k : Nat) : LatchData := (latchOf r k).data.getD ⟨0, 0, List.replicate 6 none⟩

/-- One SNAP_ENTRY loaded into the pending replica (R37). -/
def loadEntry (p : PendingReplica) : SnapContent → PendingReplica
  | .roster k _ e heard => { tables := { p.tables with roster := set1 p.tables.roster k e }, heard := set1 p.heard k heard }
  | .cell c => { p with tables := { p.tables with cell := c } }
  | .zone z e => { p with tables := { p.tables with zones := p.tables.zones.set z e } }
  | .claim _ c => { p with tables := { p.tables with claims := p.tables.claims ++ [c] } }
  | .port q e => { p with tables := { p.tables with ports := set1 p.tables.ports q e } }
  | .probe x custody cond touches staleRun qualTemp stamp =>
    let e : ProbeRec := ⟨custody, cond, touches, staleRun, qualTemp, (probeRec p.tables x).tips, stamp⟩
    { p with tables := { p.tables with probes := set1 p.tables.probes x e } }
  | .tips x part t1 t2 t3 =>
    let e := probeRec p.tables x
    { p with tables := { p.tables with probes := set1 p.tables.probes x { e with tips := fillTips e.tips part t1 t2 t3 } } }
  | .board e => { p with tables := { p.tables with board := insertBoard e p.tables.board } }
  | .latchFirst k probe n stamp t1 t2 t3 =>
    let d := latchStart p.tables k
    let l : Latch := ⟨some ⟨probe, n, fillParts d.parts 1 t1 t2 t3⟩, stamp⟩
    { p with tables := { p.tables with latches := set1 p.tables.latches k l } }
  | .latchSecond k t4 t5 t6 =>
    let d := latchStart p.tables k
    let l : Latch := ⟨some { d with parts := fillParts d.parts 4 t4 t5 t6 }, (latchOf p.tables k).stamp⟩
    { p with tables := { p.tables with latches := set1 p.tables.latches k l } }

/-- A SNAP_ENTRY that matches the accepted service; any other is ignored (R37). -/
def takeEntry (s : Station) (h : Hdr) (jn : Nat) (c : SnapContent) : Station :=
  match s.replica.service, s.replica.pendingRep with
  | some v, some p =>
    if h.dest = me s ∧ h.sender = v.sender ∧ jn = v.jn then
      { s with replica := { s.replica with
          service := some { v with received := v.received + 1 }, pendingRep := some (loadEntry p c) } }
    else s
  | _, _ => s

/-! ### Abandoning (R39) -/

/-- The join attempt is abandoned; a JOIN follows at once or when the join retry runs out. -/
def abandonAttempt (s : Station) : Station :=
  let s1 := { s with replica := { s.replica with service := none, pendingRep := none, catchUp := [] } }
  let due := match s.replica.joinMoment with
    | none => true
    | some t => decide (t + Config.joinRetryPeriods * (cellOf s).period ≤ s.now)
  if due then offerJoin s1 else { s1 with replica := { s1.replica with abandoned := true } }

/-! ### The load (R38) -/

/-- A last-heard entry once a snapshot is loaded: offsets take the JOIN's line count, others the snapshot's value (R10). -/
def rebase (joinCount now : Nat) (snap : Option Nat) (h : Heard) : Heard :=
  match h.count with
  | .off n => ⟨.abs (joinCount + n), h.moment⟩
  | .abs n => ⟨.abs n, h.moment⟩
  | .none => match snap with
    | none => ⟨.none, h.moment⟩
    | some n => ⟨.abs n, now⟩

/-- Whether a replayed SILENCE names the last-heard count of the station as it stood when the notice completed (log 11). -/
def replayHeard (joinCount : Nat) (snap : List (Option Nat)) (i : CatchItem) : Bool :=
  match i.frame.body with
  | .silence k count =>
    match i.named with
    | .off n => joinCount + n == count
    | .abs n => n == count
    | .none => at1 snap none k == some count
  | _ => false

/-- The catch-up list applied in order to a replica (R38 step 4). -/
def replay (c : CellPart) (joinCount : Nat) (snap : List (Option Nat)) : List CatchItem → Replica → Replica
  | [], r => r
  | i :: rest, r => replay c joinCount snap rest (applyFormed c (joinCount + i.offset) (replayHeard joinCount snap i) i.frame r).1

/-- The pending replica becomes the station's replica and the station enters ACTIVE (R38). -/
def loadSnapshot (s : Station) (p : PendingReplica) (joinCount : Nat) : Station :=
  let lp := { s.line with
    lineCount := some (joinCount + s.line.joinOffset)
    heard := map1 (fun k h => rebase joinCount s.now (at1 p.heard none k) h) s.line.heard }
  let r := derive (cellOf s) { p.tables with cell := { p.tables.cell with formed := true }, cellStamp := 0 }
  let r1 := replay (cellOf s) joinCount p.heard s.replica.catchUp r
  enterActive { s with line := lp, replica := { s.replica with tables := r1 } }

/-- A SNAP_END at a joining station: the load completes, fails or sends the station SHUT (R38). -/
def takeSnapEnd (s : Station) (h : Hdr) (jn count : Nat) (fp : Print) : Station :=
  match s.replica.service, s.replica.pendingRep with
  | some v, some p =>
    if h.dest = me s ∧ h.sender = v.sender ∧ jn = v.jn then
      if fp ≠ s.loader.fingerprint then enterShut s .mismatch
      else if v.received ≠ v.announced then abandonAttempt s
      else loadSnapshot s p count
    else s
  | _, _ => s

/-- A SNAP_BEGIN addressed to a joining station (R29, R33, R36). -/
def takeSnapBegin (s : Station) (h : Hdr) (purpose : SnapPurpose) (jn : Nat) (fp : Print) (entries : Nat) : Station :=
  if h.dest ≠ me s then s
  else
    let s1 := { s with replica := { s.replica with snapBeginSeen := true } }
    match purpose with
    | .refuse => if jn = s.replica.joinNumber ∧ fp ≠ s.loader.fingerprint then enterShut s1 .mismatch else s1
    | .serve =>
      if jn = s.replica.joinNumber ∧ s.replica.joinDone = true ∧ s.replica.service = none then
        { s1 with replica := acceptService s1.replica h.sender jn entries }
      else s1

/-! ### JOIN and FORM at a joining station -/

/-- The station's own JOIN has completed: form wait and join retry start (R27, R28), and the catch-up list is filled from here
on (R26). -/
def ownJoinDone (s : Station) : Station :=
  { s with replica := { s.replica with
      catchUp := [], joinDone := true, joinMoment := some s.now, snapBeginSeen := false, abandoned := false
      formWait := some (s.now + Config.formWait)
      joinRetry := some (s.now + Config.joinRetryPeriods * (cellOf s).period) } }

/-- A frame of the catch-up list (R26); the frame that would be the 129th makes the station abandon its attempt (R39). -/
def keepFrame (s : Station) (f : Frame) : Station :=
  if s.replica.joinDone && passesRoster f.body then
    if s.replica.catchUp.length < Config.catchUpPlaces then
      let named := match f.body with
        | .silence k _ => (at1 s.line.heard ⟨.none, 0⟩ k).count
        | _ => .none
      { s with replica := { s.replica with catchUp := s.replica.catchUp ++ [⟨f, s.line.joinOffset, named⟩] } }
    else abandonAttempt s
  else s

/-- A FORM is applied and forms the cell in this unformed replica (R29). -/
def formsHere (s : Station) (h : Hdr) (mask : StationMask) : Bool :=
  !(tabs s).cell.formed && inMask mask h.sender && !s.replica.cellExists && !s.replica.snapBeginSeen

/-- The last-heard table at formation (R10). -/
def formHeard (now : Nat) (mask : StationMask) (l : List Heard) : List Heard :=
  map1 (fun k _ => if inMask mask k then ⟨.abs 0, now⟩ else ⟨.none, 0⟩) l

/-- A FORM at a joining station (R29, R30). -/
def takeForm (s : Station) (h : Hdr) (fp : Print) (mask : StationMask) : Station :=
  if !formsHere s h mask then s
  else
    let s1 := { setTabs s (formedReplica (cellOf s) fp mask) with
      line := { s.line with lineCount := some 0, heard := formHeard s.now mask s.line.heard } }
    if fp ≠ s.loader.fingerprint then enterShut s1 .mismatch
    else if inMask mask (me s) then enterActive s1
    else
      offerJoin { setTabs s Replica.blank with
        line := { s.line with lineCount := none, heard := List.replicate 14 ⟨.none, 0⟩ } }

/-- The sender of the accepted service. -/
def servedBy (s : Station) (k : Nat) : Bool :=
  match s.replica.service with
  | none => false
  | some v => v.sender == k

/-- A completed frame at a JOINING station once it is counted, recorded and kept (R25, R29, R30, R33, R36 to R39). -/
def takeJoining (s : Station) (f : Frame) : Station :=
  match f.body with
  | .form fp mask => takeForm s f.h fp mask
  | .join fp cause _ =>
    let s1 := setTabs s (joinUnformed s.loader.fingerprint fp f.h cause (tabs s))
    if f.h.sender = me s then ownJoinDone s1
    else if servedBy s f.h.sender then abandonAttempt s1
    else s1
  | .silence k _ => if servedBy s k then abandonAttempt s else s
  | .snapBegin purpose jn fp entries => takeSnapBegin s f.h purpose jn fp entries
  | .snapEntry jn c => takeEntry s f.h jn c
  | .snapEnd jn count fp => takeSnapEnd s f.h jn count fp
  | _ => s

end Sys2Proof.Machine
end

