-- ==== Sys2Proof/Machine/Frames.lean ====
section
/-! DEFINITION. What a completed frame does at this station (R7): counting, the last-heard table, handing on, the reactions of
the units to the application, and the removal of an own frame. -/

namespace Sys2Proof.Machine

/-! ### Reactions of the units (R63, R111, R118, R124, R139, R147) -/

/-- The leading segment's claim was withdrawn as DEADLOCKED (R63). -/
def deadlockHalt (s : Station) : Station :=
  let s1 := setOutstanding s .none
  let c := if s1.motion.arm.state = .waitZone then ChanId.arm else .head
  match claimedSet s1 c, headSeg s1 c with
  | some _, some g =>
    let s2 := haltNow s1 c .zoneDeadlock
    chooseLead (if fromSequencer g then failByStart s2 .zoneDeadlock else s2)
  | _, _ => s1

/-- The claim that a segment in WAIT_ZONE has not offered, an earlier one being outstanding, is offered once that one is gone (R49, log 43). -/
def offerOwed (s : Station) (c : ChanId) : Station :=
  match waitingSet s c, headSeg s c with
  | some m, some g => if ownsClaim s g || holdsAll s m then s else claimIfClear s g m
  | _, _ => s

/-- The outstanding claim is withdrawn as DEADLOCKED, stands in the claim list, or is gone (R63, R67). -/
def claimSettled (s : Station) (fx : Fx) : Station :=
  if fx.deadlocked.contains (me s) then deadlockHalt s
  else setOutstanding s (if (claimOf (tabs s) (me s)).isSome then .recorded else .none)

/-- The outstanding claim after an application (R49, R63, R67). -/
def claimApplied (s : Station) (f : Frame) (fx : Fx) : Station :=
  let completed := f.h.sender == me s && Body.isClaim f.body && s.motion.outstanding == .taken &&
    !s.line.control.any (fun o => Body.isClaim o.body)
  if completed || s.motion.outstanding == .recorded then
    offerOwed (offerOwed (claimSettled s fx) .arm) .head
  else s

/-- Offers whose ground an application has taken away are withdrawn (R40, R85). -/
def withdrawStale (s : Station) : Station :=
  withdrawWaiting s (fun w => match w.src, w.item.body with
    | .silence, .silence k _ => rosterState (tabs s) k != .active
    | .mark, .probeMark x => (probeRec (tabs s) x).custody != .station (me s)
    | _, _ => false)

/-- The PROBE_CONDITION of one probe in this station's custody for a frame other than an own QUAL_COMMIT (R139). -/
def agedReason (before after : ProbeRec) (b : Body) : Option CondReason :=
  if before.cond = .usable ∧ after.cond = .suspect then some .markedSuspect
  else if qualifiedCount before ≠ 0 ∧ qualifiedCount after = 0 then
    match b with
    | .thermal _ => some .staleTemperature
    | .point _ => some .staleTouches
    | _ => none
  else none

/-- The probes to report after an application, with their reasons (R139). -/
def conditionReports (k : Nat) (before after : Replica) (f : Frame) (took : Bool) : List (Nat × CondReason) :=
  let aged := ((List.range 24).map (· + 1)).filterMap (fun x =>
    if (probeRec after x).custody = .station k then (agedReason (probeRec before x) (probeRec after x) f.body).map (fun w => (x, w))
    else none)
  match f.body with
  | .qualCommit x _ _ => if f.h.sender = k then [(x, if took then .committed else .commitVoid)] else aged
  | _ => aged

/-- The PROBE_CONDITION event of a probe as its record stands (R139, R165). -/
def reportCondition (s : Station) (xw : Nat × CondReason) : Station :=
  let e := probeRec (tabs s) xw.1
  giveEvent s (.probeCondition xw.1 xw.2 e.cond e.touches (qualifiedCount e) (staleCount e))

/-- An own THERMAL closes the PENDING points captured before it (R100, R147). -/
def closingApplied (s : Station) (f : Frame) (took : Bool) : Station :=
  match f.body with
  | .thermal _ => if f.h.sender = me s ∧ took = true then closePoints s false (fun d => decide (d.count < lineCountOf s)) else s
  | _ => s

/-- An own MOUNT_REPORT that contradicts the tables: PROBE_MARK offered (R118). -/
def mountApplied (before : Replica) (s : Station) (f : Frame) (took : Bool) : Station :=
  match f.body with
  | .mountReport code =>
    if f.h.sender = me s ∧ took = true then
      match probeByCode (cellOf s) code with
      | none => s
      | some x =>
        let was := (probeRec before x).custody
        if was = .lost ∨ was = .station (me s) then s else offerControl s .mark 0 (.probeMark x)
    else s
  | _ => s

/-- Every unit after the application of a frame, the tables already changed (log 15). -/
def react (before : Replica) (s : Station) (f : Frame) (fx : Fx) : Station :=
  let s1 := withdrawStale (servingApplied s f fx)
  let s2 := rackApplied before (claimApplied s1 f fx) f fx.took
  let s3 := mountApplied before (closingApplied (changeApplied s2 f fx.took) f fx.took) f fx.took
  (conditionReports (me s) before (tabs s3) f fx.took).foldl reportCondition s3

/-- A SILENCE names the count of the last-heard entry (R41). -/
def namesLastHeard (lp : LinePort) : Body → Bool
  | .silence k count => (at1 lp.heard ⟨.none, 0⟩ k).count == .abs count
  | _ => false

/-- A SILENCE that has taken effect on this station (R42). -/
def silencesMe (k : Nat) (b : Body) : Bool :=
  match b with
  | .silence j _ => j == k
  | _ => false

/-- A frame applied at a station in ACTIVE or PARKED mode (R7, R42). -/
def applyLive (s : Station) (f : Frame) : Station :=
  let before := tabs s
  let out := applyFormed (cellOf s) (lineCountOf s) (namesLastHeard s.line f.body) f before
  let s1 := setTabs s out.1
  if out.2.took && silencesMe (me s) f.body then enterOut s1 .silenced else react before s1 f out.2

/-! ### The taking sequence (R7 to R10) -/

/-- A window has closed clean: it joins the veto record (R19); the reservation it held, if any, stands. -/
def closeClean (s : Station) : Station := { s with line := { recordWindow s.line false with window := none } }

/-- The frame is the station's own JOIN, taken while JOINING. -/
def isOwnJoin (s : Station) (f : Frame) : Bool :=
  joiningMode s && f.h.sender == me s && match f.body with
    | .join .. => true
    | _ => false

/-- Counting (R9). While it joins the station counts every frame into the join offset, before its own JOIN has completed too (log 39). -/
def countFrame (s : Station) : Station :=
  { s with line := { s.line with
      lineCount := s.line.lineCount.map (· + 1)
      joinOffset := if joiningMode s then s.line.joinOffset + 1 else s.line.joinOffset } }

/-- The own JOIN sets the join offset to 0 and clears the entries marked as offsets (R9, R10). -/
def restartOffsets (lp : LinePort) : LinePort :=
  { lp with
      joinOffset := 0
      heard := lp.heard.map (fun h => match h.count with
        | .off _ => { h with count := .none }
        | _ => h) }

/-- The last-heard entry of the sender (R10). -/
def recordHeard (s : Station) (k : Nat) : Station :=
  let count := match s.line.lineCount with
    | some n => HeardCount.abs n
    | none => .off s.line.joinOffset
  { s with line := { s.line with heard := set1 s.line.heard k ⟨count, s.now⟩ } }

/-- The cell-exists flag (R24). -/
def noteCell (s : Station) (h : Hdr) : Station :=
  if joiningMode s && h.active && roleIn (cellOf s) h.sender == .mc410 then
    { s with replica := { s.replica with cellExists := true } }
  else s

/-- A SILENCE waiting to be taken is withdrawn when the station it names is heard (R40). -/
def heardAgain (s : Station) (k : Nat) : Station :=
  withdrawWaiting s (fun w => w.src == .silence && match w.item.body with
    | .silence j _ => j == k
    | _ => false)

/-- A well-formed frame counted and recorded (R7 steps 1 and 2). -/
def takeCount (s : Station) (f : Frame) : Station :=
  let s1 := countFrame s
  let s2 := if isOwnJoin s f then { s1 with line := restartOffsets s1.line } else s1
  noteCell (heardAgain (recordHeard s2 f.h.sender) f.h.sender) f.h

/-- A REQUEST is addressed to the station (R5). -/
def addressed (s : Station) (h : Hdr) : Bool := h.dest == 0 || h.dest == me s

/-- A REQUEST delivered with its reservation: the one of its window, or a free entry where no window was open (R5, R7). -/
def deliver (s : Station) (w : Option Window) (h : Hdr) (tag : Code) (r : ReqBody) : Station :=
  if !addressed s h then s
  else
    let put (t : Station) : Station := { t with request := { t.request with delivered := t.request.delivered ++ [⟨h.sender, tag, r⟩] } }
    match w with
    | some v => if v.reserved then put s else s
    | none => if 1 ≤ reportFree s.line then put { s with line := { s.line with reserved := s.line.reserved + 1 } } else s

/-- Handing on (R7 step 3). -/
def handOn (s : Station) (w : Option Window) (f : Frame) : Station :=
  match f.body with
  | .request tag r => deliver s w f.h tag r
  | b =>
    if joiningMode s then takeJoining (keepFrame s f) f
    else if serving s && passesRoster b then applyLive s f
    else s

/-- The frame in flight is this frame, sent by this station. -/
def ownFlight (s : Station) (f : Frame) : Bool :=
  f.h.sender == me s && match s.line.flight with
    | none => false
    | some v => v.stage != .contending && v.item.dest == f.h.dest && v.item.body == f.body

/-- An accepted RESTART's answer (R164). -/
def answersRestart (s : Station) : Body → Bool
  | .answer a => s.request.restartPending && a.accept && a.code == 12
  | _ => false

/-- The entry of an own frame is free (R7); a POINT frees its point entry (R154), the ANSWER of a RESTART begins it (R164). -/
def releaseOwn (s : Station) (f : Frame) : Station :=
  if ownFlight s f then
    let s1 := { s with line := removeCompleted s.line }
    let s2 := match f.body with
      | .point p => setPoints s1 (freeQueued p.seq s1.touch.points)
      | _ => s1
    if answersRestart s2 f.body then restart s2 .requested else s2
  else s

/-- The window that is open raises a veto of this station's own: no frame can complete in it (R6). -/
def vetoedHere (s : Station) : Bool :=
  match s.line.window with
  | none => false
  | some w => w.veto.isSome

/-- The frame completes at this station well formed (R7, R8). -/
def taken (s : Station) (f : Frame) : Bool := listening s && !vetoedHere s && formatGood (cellOf s) f

/-- A station that may enter ACTIVE with a frame reads its encoders, which count in every mode (R68, R173). -/
def countsForStart (s : Station) (f : Frame) (enc : Counts) : Station :=
  if joiningMode s && taken s f then readEncoders s enc else s

/-- The straps as they stand when an own ANSWER begins a restart (R164, R169). -/
def strapsForRestart (s : Station) (f : Frame) (straps : Nat) : Station :=
  if taken s f && ownFlight s f && answersRestart s f.body then setStraps s straps else s

/-- A completed frame at this station (R7): a malformed one is counted and nothing more (R8). -/
def completeFrame (s : Station) (f : Frame) : Station :=
  if !listening s || vetoedHere s then s
  else
    let w := s.line.window
    let s1 := closeClean s
    if formatGood (cellOf s) f then releaseOwn (handOn (takeCount s1 f) w f) f else countFrame s1

end Sys2Proof.Machine
end

