-- ==== Sys2Proof/Machine/Line.lean ====
section
/-! DEFINITION. The commands of the line besides completed frames (chapter 1): the quiet moment, the prefix, reception, a vetoed
window, a malformed frame, the THERMAL's age, and offers made again. -/

namespace Sys2Proof.Machine

/-- Order of the classes in the prefix (R2). -/
def classRank : FrameClass → Nat
  | .control => 0
  | .thermal => 1
  | .report => 2

/-- A contender is lower than another: a lower class, or the same class and a lower number (R2). -/
def lowerThan (a b : FrameClass × Nat) : Bool :=
  decide (classRank a.1 < classRank b.1) || (classRank a.1 == classRank b.1 && decide (a.2 < b.2))

/-- The arbiter picks a frame at a quiet moment and the station contends with it (R2, R16). -/
def contend (s : Station) : Station :=
  if listening s && s.line.flight.isNone && s.line.window.isNone then
    match arbiterPick s.line s.now (cellOf s).period with
    | none => s
    | some c => { s with line := beginContending s.line s.now c }
  else s

/-- The end of the access prefix: the station has won or has withdrawn (R2, R3). -/
def endPrefix (s : Station) (others : List (FrameClass × Nat)) : Station :=
  match s.line.flight with
  | none => s
  | some v =>
    if listening s && v.stage == .contending then
      if others.any (fun o => lowerThan o (Body.cls v.item.body, me s)) then { s with line := requeue s.line }
      else
        let won := { v with stage := .sending, wire := putFrame ⟨hdrNow s v.item.dest, v.item.body⟩ }
        { s with line := { s.line with flight := some won } }
    else s

/-- The frame that the station has sent stands in its veto window (R4). -/
def intoWindow (lp : LinePort) : LinePort :=
  match lp.flight with
  | none => lp
  | some v => if v.stage = .sending then { lp with flight := some { v with stage := .inWindow } } else lp

/-- The window that a reception opens: a CHECK veto, or for a REQUEST addressed here a reservation or a BUSY veto (R4, R5). -/
def openWindow (s : Station) (bytes : List Byte) : Station :=
  let line := intoWindow s.line
  match receive (cellOf s) bytes with
  | .bad => { s with line := { line with window := some ⟨none, some .check, false⟩ } }
  | .malformed => { s with line := { line with window := some ⟨none, none, false⟩ } }
  | .good f =>
    if Body.isRequest f.body && addressed s f.h then
      if 1 ≤ reportFree line then
        { s with line := { line with window := some ⟨some f, none, true⟩, reserved := line.reserved + 1 } }
      else { s with line := { line with window := some ⟨some f, some .busy, false⟩ } }
    else { s with line := { line with window := some ⟨some f, none, false⟩ } }

/-- A frame has been received (R4). -/
def receiveFrame (s : Station) (bytes : List Byte) : Station :=
  if listening s && s.line.window.isNone then openWindow s bytes else s

/-- A frame of this station's own is on the line or in its window. -/
def ownOnLine (s : Station) : Bool :=
  match s.line.flight with
  | none => false
  | some v => v.stage != .contending

/-- This station raised a CHECK veto in a window (R4). -/
def checkVetoed (w : Option Window) : Bool :=
  match w with
  | none => false
  | some v => v.veto == some .check

/-- The reservation that an open veto window holds, counted (R5). -/
def windowReserves (w : Option Window) : Nat :=
  match w with
  | none => 0
  | some v => if v.reserved then 1 else 0

/-- The Line Port once a vetoed window is recorded and its reservation returned (R5, R19). -/
def afterVeto (lp : LinePort) : LinePort :=
  { recordWindow lp (checkVetoed lp.window) with window := none, reserved := lp.reserved - windowReserves lp.window }

/-- The window closes vetoed: recorded, its reservation returned, an own frame back in its queue and counted (R6, R18, R19). -/
def closeVetoed (s : Station) : Station :=
  { s with line := if ownOnLine s then { requeue (afterVeto s.line) with retry := s.line.retry + 1 } else afterVeto s.line }

/-- A vetoed window, with the limits of R18 and R19. -/
def windowVetoed (s : Station) : Station :=
  if listening s then
    let s1 := closeVetoed s
    if ownOnLine s && decide (Config.retryLimit ≤ s1.line.retry) then enterOut s1 .lineFault
    else if Config.vetoLimit ≤ vetoCount s1.line then enterOut s1 .rxFault
    else s1
  else s

/-- A malformed frame has completed: counted and nothing more (R8). -/
def malformedFrame (s : Station) : Station :=
  if !listening s || vetoedHere s then s else countFrame (closeClean s)

/-- The THERMAL in the slot reaches the age of one thermal period, from where its escape holds (R16). -/
def thermalAged (s : Station) : Station :=
  if listening s then
    match s.line.thermal with
    | none => s
    | some v => { s with now := max s.now (v.since + (cellOf s).period) }
  else s

/-- A unit's oldest kept CONTROL frame offered again, and the next ones for as long as they are taken (R11, R12). -/
def reofferFrom (src : CtlSource) : Nat → Station → Station
  | 0, s => s
  | n + 1, s =>
    match s.line.waiting.find? (fun w => w.src == src) with
    | none => s
    | some w =>
      if takesControl s.line then
        let s1 := { s with line := { enqueueControl s.line w.item with waiting := s.line.waiting.erase w } }
        reofferFrom src n (if src = .claim then setOutstanding s1 .taken else s1)
      else s

def reoffer (s : Station) (src : CtlSource) : Station := reofferFrom src Config.controlPlaces s

/-- A peer has not been heard for the silence limit: SILENCE offered once for each pair of station and count (R40). -/
def silenceLimit (s : Station) (k : Nat) : Station :=
  let h := at1 s.line.heard ⟨.none, 0⟩ k
  match h.count with
  | .abs n =>
    if serving s && k != me s && roleIn (cellOf s) k == .mc410 && rosterState (tabs s) k == .active then
      let s1 := { s with now := max s.now (h.moment + Config.silencePeriods * (cellOf s).period) }
      if at1 s.replica.noticed none k = some n then s1
      else offerControl { s1 with replica := { s1.replica with noticed := set1 s1.replica.noticed k (some n) } } .silence 0
        (.silence k n)
    else s
  | _ => s

end Sys2Proof.Machine
end

