-- ==== Sys2Proof/Machine/Requests.lean ====
section
/-! DEFINITION. The Request Unit (chapter 9): the checks of each kind in their order, the effect of an accepted request, and its
one ANSWER. -/

namespace Sys2Proof.Machine

/-- The refusal reasons in the order of R159. -/
inductive Reason where
  | notActive | parked | busy | queueFull | badArg | limit | notHomed | noProbe | probeUnusable | zoneForbidden
  | rackUnavailable | portOccupied | probeNotInRack | thermalMissing | guardCode | unknownRequest
deriving DecidableEq, Repr

/-- Reason codes, numbered from 1 (R178). -/
def reasonNumber : Reason → Nat
  | .notActive => 1
  | .parked => 2
  | .busy => 3
  | .queueFull => 4
  | .badArg => 5
  | .limit => 6
  | .notHomed => 7
  | .noProbe => 8
  | .probeUnusable => 9
  | .zoneForbidden => 10
  | .rackUnavailable => 11
  | .portOccupied => 12
  | .probeNotInRack => 13
  | .thermalMissing => 14
  | .guardCode => 15
  | .unknownRequest => 16

/-! ### Checks -/

/-- A list of checks: the reason of the first that fails. -/
def firstFailing : List (Bool × Reason) → Option Reason
  | [] => none
  | (ok, r) :: rest => if ok then firstFailing rest else some r

def parkedMode (s : Station) : Bool := s.loader.mode == .parked

/-- The station's own roster entry is ACTIVE in its replica. -/
def ownActive (s : Station) : Bool := rosterState (tabs s) (me s) == .active

def hasAxes (s : Station) (c : ChanId) : Bool := !(chanAxes s c).isEmpty

/-- A segment joins a list kept with the highest acceptance number first. -/
def insertLast (g : Segment) : List Segment → List Segment
  | [] => [g]
  | h :: r => if h.acc ≤ g.acc then g :: h :: r else h :: insertLast g r

/-- The queued segments of both channels, the last accepted first. -/
def lastFirst (s : Station) : List Segment :=
  (s.motion.arm.queue ++ s.motion.head.queue).foldl (fun l g => insertLast g l) []

/-- The end position of the segments queued (R160): an INDEX leaves the position before it. -/
def endPosition (s : Station) : List Segment → Vec3
  | [] => currentTip s
  | g :: rest => match g.kind with
    | .traverse t => t
    | .armTraverse t => t
    | .touch t => approachPoint t
    | .home => currentTip s
    | .index _ _ => endPosition s rest

/-- The head indices after the segments queued (R160). -/
def endIndex (s : Station) : List Segment → Option (Int × Int)
  | [] => headIndex s
  | g :: rest => match g.kind with
    | .index a b => some (a, b)
    | _ => endIndex s rest

/-- The footing of checks 9 and 10 (R160). -/
def startFooting (s : Station) : Vec3 := endPosition s (lastFirst s)
def indexFooting (s : Station) : Option (Int × Int) := endIndex s (lastFirst s)

/-- Check 10: the zone set meets no HOME zone of another station. -/
def zonesAllowed (s : Station) (k : SegKind) : Bool :=
  !meets (zoneSetFrom s (startFooting s) (clearance s) k) (othersHomeMask (cellOf s) (me s))

/-- Checks 1 to 3 of R160. -/
def gateChecks (s : Station) : List (Bool × Reason) :=
  [(serving s && ownActive s, .notActive), (!parkedMode s, .parked), (!changeRuns s && !s.request.restartPending, .busy)]

/-- Checks 6 and 7 of R160. -/
def queueChecks (s : Station) (c : ChanId) : List (Bool × Reason) :=
  [(takesSegment (chan s c).state, .busy), (decide ((chan s c).queue.length < Config.segmentPlaces), .queueFull)]

/-- Checks 9 and 10 of R160. -/
def targetChecks (s : Station) (k : SegKind) : List (Bool × Reason) :=
  [(limitsHold s (tipOffset s (indexFooting s)) k, .limit), (zonesAllowed s k, .zoneForbidden)]

/-- The probe checks of R161. -/
def probeChecks (s : Station) : List (Bool × Reason) :=
  match mounted s with
  | none => [(false, .noProbe)]
  | some x =>
    [((probeRec (tabs s) x).cond == .usable, .probeUnusable), ((currentEntry s (indexFooting s)).isSome, .probeUnusable)]

def between (lo hi n : Nat) : Bool := decide (lo ≤ n) && decide (n ≤ hi)

/-- Field ranges of a MOVE and of a TOUCH (R74, R160). -/
def moveArgs (s : Station) (speed recovery : Nat) : Bool := between 1 500 speed && decide (recovery ≤ 1) && hasAxes s .arm

def touchArgs (s : Station) (t : TouchArgs) : Bool :=
  t.dir != ⟨0, 0, 0⟩ && between 50 1000 t.approach && between 50 2000 t.retract && between 5 200 t.probing &&
    between 1 500 t.speed && hasAxes s .arm

def indexArgs (s : Station) (a : Nat) (b : Int) : Bool :=
  decide (a ≤ 14) && decide (-24 ≤ b) && decide (b ≤ 24) && hasAxes s .head

/-- The channel of a HOME's field. -/
def homeChan (n : Nat) : Option ChanId :=
  match n with
  | 0 => some .arm
  | 1 => some .head
  | _ => none

/-- The channels of a HALT's or CLEAR's selector (11.4). -/
def selected (n : Nat) : List ChanId :=
  match n with
  | 1 => [.arm]
  | 2 => [.head]
  | 3 => [.arm, .head]
  | _ => []

/-! ### Answers (R159) -/

/-- The request taken leaves the list of those delivered. -/
def takeRequest (s : Station) : Station := { s with request := { s.request with delivered := s.request.delivered.drop 1 } }

/-- An ANSWER put into its reserved entry (R5, R159). -/
def answer (s : Station) (src : Nat) (a : AnswerBody) : Station := { s with line := answerInto s.line ⟨src, .answer a⟩ }

def refuse (s : Station) (src : Nat) (tag : Code) (code : Nat) (r : Reason) : Station :=
  answer s src ⟨tag, code, false, reasonNumber r, 0, []⟩

def accept (s : Station) (src : Nat) (tag : Code) (code acc : Nat) : Station := answer s src ⟨tag, code, true, 0, acc, []⟩

/-- A request that the checks refuse, or that takes effect and is accepted with an acceptance number. -/
def decideRequest (s : Station) (src : Nat) (tag : Code) (code acc : Nat) (checks : List (Bool × Reason)) (effect : Station → Station) :
    Station :=
  match firstFailing checks with
  | some r => refuse s src tag code r
  | none => accept (effect s) src tag code acc

/-- A request is the one to take next, at a station that listens (R158). -/
def isNext (s : Station) (src : Nat) (tag : Code) (b : ReqBody) : Bool :=
  listening s && s.request.delivered.head? == some ⟨src, tag, b⟩

/-! ### Motion requests (R160) -/

/-- A segment of a request taken, the leading segment chosen afresh (R74, R75). -/
def takeSegment (c : ChanId) (k : SegKind) (tag : Code) (recovery : Bool) (speed : Nat) (s : Station) : Station :=
  chooseLead (enqueueSegment s c k (.request tag) recovery speed)

def moveChecks (s : Station) (t : Vec3) (speed recovery : Nat) : List (Bool × Reason) :=
  gateChecks s ++ [(moveArgs s speed recovery, .badArg), (allHomed s, .notHomed)] ++ queueChecks s .arm ++ targetChecks s (.traverse t)

def touchChecks (s : Station) (t : TouchArgs) : List (Bool × Reason) :=
  gateChecks s ++ [(touchArgs s t, .badArg), (allHomed s, .notHomed)] ++ queueChecks s .arm ++ probeChecks s ++ targetChecks s (.touch t)

def homeChecks (s : Station) (c : Option ChanId) : List (Bool × Reason) :=
  match c with
  | none => gateChecks s ++ [(false, .badArg)]
  | some c => gateChecks s ++ [(hasAxes s c, .badArg)] ++ queueChecks s c

def indexChecks (s : Station) (a : Nat) (b : Int) : List (Bool × Reason) :=
  gateChecks s ++ [(indexArgs s a b, .badArg), (allHomed s, .notHomed)] ++ queueChecks s .head ++ targetChecks s (.index a b)

def requestMove (s : Station) (src : Nat) (tag : Code) (t : Vec3) (speed recovery : Nat) : Station :=
  decideRequest s src tag 1 s.motion.nextAcc (moveChecks s t speed recovery)
    (takeSegment .arm (.traverse t) tag (recovery == 1) speed)

def requestTouch (s : Station) (src : Nat) (tag : Code) (t : TouchArgs) : Station :=
  decideRequest s src tag 2 s.motion.nextAcc (touchChecks s t) (takeSegment .arm (.touch t) tag false t.speed)

def requestHome (s : Station) (src : Nat) (tag : Code) (n : Nat) : Station :=
  decideRequest s src tag 3 s.motion.nextAcc (homeChecks s (homeChan n)) (takeSegment ((homeChan n).getD .arm) .home tag false 0)

def requestIndex (s : Station) (src : Nat) (tag : Code) (a : Nat) (b : Int) : Station :=
  decideRequest s src tag 4 s.motion.nextAcc (indexChecks s a b) (takeSegment .head (.index a b) tag false (ownOf s).indexRate)

/-! ### Channel and mode requests (R162) -/

/-- A HALT on the channels named; while a change runs, on every channel with a sequencer segment as well (R82, R126):
ARM before HEAD, and the lead chosen after both (log 38). -/
def haltAll (s : Station) (cs : List ChanId) : Station :=
  let named (c : ChanId) : Bool := cs.contains c || (changeRuns s && s.change.failing.isNone && match headSeg s c with
    | none => false
    | some g => fromSequencer g)
  let s1 := if named .arm then haltChan s .arm else s
  let s2 := if named .head then haltChan s1 .head else s1
  chooseLead (changeHalt s2)

def requestHalt (s : Station) (src : Nat) (tag : Code) (sel : Nat) : Station :=
  decideRequest s src tag 5 0 [(!(selected sel).isEmpty, .badArg)] (fun s => haltAll s (selected sel))

/-- A CLEAR on the channels named, answered REFUSE if either is refused (R87, R162). -/
def requestClear (s : Station) (src : Nat) (tag : Code) (sel : Nat) : Station :=
  match firstFailing [(!s.request.restartPending, .busy), (!(selected sel).isEmpty, .badArg), (!changeRuns s, .busy)] with
  | some r => refuse s src tag 6 r
  | none =>
    let refused := (selected sel).any (clearRefused s)
    let s1 := chooseLead ((selected sel).foldl clearChan s)
    if refused then refuse s1 src tag 6 .busy else accept s1 src tag 6 0

/-- The channel, homed and tip tests of PARK, none without axes (R89). -/
def parkTests (s : Station) : List (Bool × Reason) :=
  if (ownOf s).axes.length = 0 then []
  else
    let still (c : ChanId) : Bool := (chan s c).state == .idle || (chan s c).state == .halted
    let atHome := (List.range 32).any (fun z => isHome (cellOf s) z && (zoneCfg (cellOf s) z).owner == me s &&
      inBox (zoneCfg (cellOf s) z).box (currentTip s))
    [(still .arm && still .head, .busy), (allHomed s, .notHomed), (atHome, .limit)]

def parkChecks (s : Station) : List (Bool × Reason) :=
  [(!s.request.restartPending, .busy), (serving s, .notActive)] ++
    if parkedMode s then [] else (!changeRuns s, Reason.busy) :: parkTests s

def requestPark (s : Station) (src : Nat) (tag : Code) : Station :=
  decideRequest s src tag 9 0 (parkChecks s) (fun s => if parkedMode s then s else park s)

def requestUnpark (s : Station) (src : Nat) (tag : Code) : Station :=
  decideRequest s src tag 10 0 [(!s.request.restartPending, .busy), (serving s, .notActive)]
    (fun s => if parkedMode s then unpark s else s)

/-! ### CHANGE (R122) and QUALIFY (R132) -/

/-- The port that holds a probe by custody, 0 where it is in no port. -/
def portHolding (s : Station) (t : Nat) : Nat :=
  match (probeRec (tabs s) t).custody with
  | .port p => p
  | _ => 0

/-- The mounted probe with its home port, as a change deposits it. -/
def depositPlan (s : Station) : Option (Nat × Nat) := (mounted s).map (fun m => (m, (probeCfg (cellOf s) m).home))

def changeChecks (s : Station) (t : Nat) : List (Bool × Reason) :=
  let pt := portHolding s t
  let idle (c : ChanId) : Bool := (chan s c).state == .idle
  [(!s.request.restartPending, .busy), (serving s && ownActive s, .notActive), (!parkedMode s, .parked),
    (isArm s && inUse (cellOf s) t && (probeRec (tabs s) t).custody != .station (me s), .badArg),
    (!changeRuns s && idle .arm && idle .head, .busy), (allHomed s, .notHomed), (rackActive s, .rackUnavailable),
    (!(pt != 0 && isReserved (portEntry (tabs s) pt).state), .rackUnavailable),
    (pt != 0 && (portEntry (tabs s) pt).state == .occupied t, .probeNotInRack),
    (match depositPlan s with
      | none => true
      | some (_, pm) => (portEntry (tabs s) pm).state == .empty, .portOccupied),
    (!meets (routeSet s (depositPlan s) t pt) (othersHomeMask (cellOf s) (me s)), .zoneForbidden)]

def requestChange (s : Station) (src : Nat) (tag : Code) (t : Nat) : Station :=
  decideRequest s src tag 7 0 (changeChecks s t) (fun s => startChange s tag t (portHolding s t) (depositPlan s))

/-- The station's own HEAD entry, VALID and not excluded (R132). -/
def headTemp (s : Station) : Option Int := scaleTemp s .head

def qualifyArgs (s : Station) (i n : Nat) (t : Tip) : Bool :=
  partNumber n && decide (1 ≤ i) && decide (i ≤ n) && tipGood t && (hasAxes s .head || (t.a == 0 && t.b == 0))

def qualifyChecks (s : Station) (x i n : Nat) (t : Tip) : List (Bool × Reason) :=
  [(!s.request.restartPending, .busy), (serving s, .notActive), (!changeRuns s, .busy), (qualifyArgs s i n t, .badArg),
    (probeNumber x && (probeRec (tabs s) x).custody == .station (me s), .noProbe),
    (i != n || (headTemp s).isSome, .thermalMissing),
    (decide (controlHeld s.line + (if i = n then 2 else 1) ≤ Config.controlPlaces), .queueFull)]

/-- The QUAL_PART of a request, and for the last part the QUAL_COMMIT (R132). -/
def offerQualification (x i n : Nat) (t : Tip) (s : Station) : Station :=
  let s1 := { s with line := enqueueControl s.line ⟨0, .qualPart x i n { t with stale := false }⟩ }
  if i = n then { s1 with line := enqueueControl s1.line ⟨0, .qualCommit x n ((headTemp s).getD 0)⟩ } else s1

def requestQualify (s : Station) (src : Nat) (tag : Code) (x i n : Nat) (t : Tip) : Station :=
  decideRequest s src tag 8 0 (qualifyChecks s x i n t) (offerQualification x i n t)

/-! ### STATUS (R163) -/

def chanStateCode : ChanState → Nat
  | .disabled => 0
  | .idle => 1
  | .waitTurn => 2
  | .waitCredit => 3
  | .waitZone => 4
  | .running => 5
  | .stopping => 6
  | .halted => 7
  | .stalled => 8

def changeStateCode : ChangeState → Nat
  | .idle => 0
  | .claiming => 1
  | .reserveDeposit => 2
  | .unlockDeposit => 3
  | .insert => 4
  | .confirmDeposit => 5
  | .reservePickup => 6
  | .unlockPickup => 7
  | .engage => 8
  | .confirmTake => 9

/-- CONTROL frames held, one in flight counted but for a release (R3, R12). -/
def controlFrames (lp : LinePort) : Nat :=
  lp.control.length + match lp.flight with
    | none => 0
    | some f => if Body.cls f.item.body == .control && !Body.isRelease f.item.body then 1 else 0

/-- Overflow flag and discard count that close every page. -/
def lossBytes (s : Station) : List Byte := putFlag s.request.overflow ++ putNat 1 s.request.discards

/-- Page 0 with the six bytes of the line count at hand. -/
def pageStation (s : Station) (count : Nat) : List Byte :=
  putNat 1 (modeCode s.loader.mode) ++ (putFlag (parkedMode s) ++ (putNat 1 (causeCode s.loader.cause) ++
    (putPrint s.loader.fingerprint ++ (putFlag (tabs s).cell.formed ++ (putNat 6 count ++ (putNat 1 s.line.retry ++
    (putNat 1 (vetoCount s.line) ++ (putFlag s.line.drain ++ (putNat 1 (reportHeld s.line) ++ (putNat 1 s.line.reserved ++
    (putNat 1 (controlFrames s.line) ++ (putNat 2 s.request.nextEvent ++ lossBytes s))))))))))))

/-- Per-axis flags, bit 0 for X to bit 4 for B. -/
def axisFlags (t : PerAxis Bool) : Nat :=
  (if t.x then 1 else 0) + (if t.y then 2 else 0) + (if t.z then 4 else 0) + (if t.a then 8 else 0) + (if t.b then 16 else 0)

/-- The claim field of page 1 (11.4, R67). -/
def claimField (s : Station) : List Byte :=
  match claimOf (tabs s) (me s) with
  | some c => putNat 1 3 ++ (putNat 4 c.wanted.toNat ++ (putNat 1 (prioCode c.base) ++ (putFlag c.urgent ++ putNat 1 c.passed)))
  | none =>
    putNat 1 (match s.motion.outstanding with
      | .none => 0
      | .offered => 1
      | _ => 2) ++ List.replicate 7 0#8

def pageMotion (s : Station) : List Byte :=
  putNat 1 (chanStateCode s.motion.arm.state) ++ (putNat 1 s.motion.arm.queue.length ++
    (putNat 1 (chanStateCode s.motion.head.state) ++ (putNat 1 s.motion.head.queue.length ++ (putNat 1 (axisFlags s.motion.homed) ++
    (putNat 1 (axisFlags s.motion.fault) ++ (putFlag s.pins.trigger ++ (putNat 4 (heldHere s).toNat ++ (claimField s ++
    (putNat 1 ((mounted s).getD 0) ++ (putNat 1 (changeStateCode s.change.state) ++ (putNat 1 s.change.t ++
    (putNat 1 (match s.change.lastFailure with
      | none => 0
      | some c => changeCauseCode c) ++ lossBytes s))))))))))))

/-- Number of point entries in the state of a code: FREE, RESERVED, PENDING, READY, QUEUED. -/
def entryCode : PointEntry → Nat
  | .free => 0
  | .reserved => 1
  | .pending _ => 2
  | .ready _ _ => 3
  | .queued _ _ => 4

def entryCount (s : Station) (n : Nat) : Nat := (s.touch.points.filter (fun e => entryCode e == n)).length

/-- Page 2 (R163). The state of an input of kind NONE is the one it holds, SETTLING (log 29). -/
def pageCapture (s : Station) : List Byte :=
  ([0, 1, 2, 3, 4].flatMap (fun n => putNat 1 (entryCount s n))) ++ (putNat 2 s.touch.nextSeq ++
    ((((List.range 8).map (· + 1)).flatMap (fun n => putNat 1 (inputKindCode (inputKind s n)) ++
      putNat 1 (thermStateCode (at1 s.thermal.inputs ⟨[], 0, 0, 0, .settling⟩ n).state))) ++ lossBytes s))

/-- The line count page 0 shows, and the station once it has been read: an unset count is a free value (log 10). -/
def shownCount (s : Station) : Nat × Station :=
  match s.line.lineCount with
  | some n => (n, s)
  | none => (Config.unsetLineCount s.freeUsed, { s with freeUsed := s.freeUsed + 1 })

/-- Overflow flag and discard count cleared as the answer is composed. -/
def clearLosses (s : Station) : Station := { s with request := { s.request with overflow := false, discards := 0 } }

/-- STATUS of one of the three pages (R163). -/
def requestStatus (s : Station) (src : Nat) (tag : Code) (page : Nat) : Station :=
  let give (s : Station) (bytes : List Byte) : Station := answer (clearLosses s) src ⟨tag, 11, true, 0, 0, bytes⟩
  match page with
  | 0 => give (shownCount s).2 (pageStation s (shownCount s).1)
  | 1 => give s (pageMotion s)
  | 2 => give s (pageCapture s)
  | _ => refuse s src tag 11 .badArg

/-! ### RESTART and unknown codes (R158, R164) -/

def requestRestart (s : Station) (src : Nat) (tag : Code) (g : Nat) : Station :=
  decideRequest s src tag 12 0 [(!s.request.restartPending, .busy), (g == Config.restartGuard, .guardCode)]
    (fun s => { s with request := { s.request with restartPending := true } })

def requestUnknown (s : Station) (src : Nat) (tag : Code) (code : Nat) : Station :=
  refuse s src tag code (if s.request.restartPending then .busy else .unknownRequest)

end Sys2Proof.Machine
end

