-- ==== Sys2Proof/Machine/Signals.lean ====
section
/-! DEFINITION. Events at the pins and timers that run out, for the units behind them: motion (R69, R71, R77 to R86), the
coupling, the rack, the Thermal Unit, late points, joining timers and the OUT hold-off. Each leaves a state in which it cannot
occur as it is (log 3). -/

namespace Sys2Proof.Machine

/-- The moment of a timer that runs out at `due` (log 4). -/
def atDue (s : Station) (due : Nat) : Station := { s with now := max s.now due }

/-! ### Motion -/

/-- A point entry for a channel in WAIT_CREDIT (R79, R144). -/
def grantCredit (s : Station) (enc : Counts) : Station :=
  match leading s with
  | none => s
  | some c =>
    if (chan s c).state = .waitCredit ∧ anyFree s = true then chooseLead (setState (readEncoders s enc) c .waitTurn) else s

/-- A channel in WAIT_ZONE whose segment's zones are all held (R56). -/
def startHeld (s : Station) (c : ChanId) : Station :=
  match waitingSet s c, headSeg s c with
  | some m, some g => if holdsAll s m then startMotion s c g else s
  | _, _ => s

/-- The judgement of a trigger assertion on ARM while it moves (R85). -/
def armTrigger (s : Station) (g : Segment) (enc : Counts) : Station :=
  match g.kind, g.phase with
  | .touch t, .probing =>
    let tag := (tagOf (some g)).getD 0
    let s1 := if g.credit then capturePoint s (capturedPoint s g t.dir tag enc) else s
    setHead s1 .arm { g with credit := false, phase := .retract true, axisTarget := some (retractCounts s t enc) }
  | .touch _, .retract true => s
  | _, _ => collide s .arm

/-- The trigger line is asserted: counts latched and the assertion judged (R85, R142). Held in reset, only the line's level changes. -/
def assertTrigger (s : Station) (enc : Counts) : Station :=
  if s.pins.trigger then s
  else if s.loader.held then { s with pins := { s.pins with trigger := true } }
  else
    let s1 := readEncoders s enc
    let s2 := { s1 with pins := { s1.pins with trigger := true }, touch := { s1.touch with latch := some s1.motion.enc } }
    if movingState s2.motion.head.state then collide s2 .head
    else if movingState s2.motion.arm.state then
      match headSeg s2 .arm with
      | none => s2
      | some g => armTrigger s2 g s2.motion.enc
    else s2

/-- The trigger line is released (R142). -/
def releaseTrigger (s : Station) : Station := { s with pins := { s.pins with trigger := false } }

/-- The probe and tip entry that the touch check finds usable (R78). -/
def touchCheck (s : Station) (g : Segment) : Option (Nat × Tip) :=
  if !g.credit then none
  else match mounted s with
    | none => none
    | some x =>
      if (probeRec (tabs s) x).cond = .usable then (currentEntry s (headIndex s)).map (fun t => (x, t)) else none

/-- The axis positions commanded as a TOUCH enters PROBING (R77). -/
def probingTarget (s : Station) (g : Segment) : Option Counts :=
  match g.kind with
  | .touch t => some (probingCounts s t (g.axisTarget.getD s.motion.enc))
  | _ => g.axisTarget

/-- The axis positions commanded as a TOUCH retracts from the overtravel end (R77). -/
def missTarget (s : Station) (g : Segment) : Option Counts :=
  match g.kind with
  | .touch t => some (retractCounts s t (g.axisTarget.getD s.motion.enc))
  | _ => g.axisTarget

/-- The end of APPROACH (R78). -/
def endApproach (s : Station) (enc : Counts) : Station :=
  match headSeg s .arm with
  | none => s
  | some g =>
    if s.motion.arm.state = .running ∧ isTouchSeg g = true ∧ g.phase = .approach then
      let s1 := readEncoders s enc
      match touchCheck s1 g with
      | none => chooseLead (haltNow s1 .arm .probeUnusable)
      | some found =>
        if s1.pins.trigger then collide s1 .arm
        else setHead s1 .arm { g with phase := .probing, checked := some found, axisTarget := probingTarget s1 g }
    else s

/-- The overtravel end reached without a trigger (R77, R144). -/
def missTouch (s : Station) (enc : Counts) : Station :=
  match headSeg s .arm with
  | none => s
  | some g =>
    if movingState s.motion.arm.state && isTouchSeg g && g.phase == .probing then
      let s1 := returnCredit (readEncoders s enc) (some g)
      let s2 := setHead s1 .arm { g with credit := false, phase := .retract false, axisTarget := missTarget s1 g }
      giveEvent s2 (.touchMissed ((tagOf (some g)).getD 0))
    else s

/-- Every axis of a HOME's channel has found its mark (R69). -/
def marksFound (s : Station) (c : ChanId) (g : Segment) : Bool := (chanAxes s c).all (fun ax => g.marks.get ax)

/-- The last phase of a running segment has ended (R81). -/
def segmentEnds (s : Station) (c : ChanId) (g : Segment) : Bool :=
  match g.kind, g.phase with
  | .touch _, .retract _ => true
  | .touch _, _ => false
  | .home, _ => marksFound s c g
  | _, _ => true

/-- A segment completes (R81), and the Change Sequencer is told of its own. -/
def segmentDone (s : Station) (c : ChanId) (enc : Counts) : Station :=
  match headSeg s c with
  | none => s
  | some g =>
    if (chan s c).state = .running ∧ segmentEnds s c g = true then
      let s1 := chooseLead (completeSegment (readEncoders s enc) c g)
      chooseLead (if fromSequencer g then changeSegmentEnd s1 else s1)
    else s

/-- A stop can end: not while a touch still probes (R83). -/
def stopEnds (g : Segment) : Bool := !(isTouchSeg g && g.phase == .probing)

/-- A STOPPING channel comes to rest (R82, R83). -/
def stopDone (s : Station) (c : ChanId) (enc : Counts) : Station :=
  match headSeg s c with
  | none => s
  | some g =>
    if (chan s c).state = .stopping ∧ stopEnds g = true then
      let s1 := endStop (readEncoders s enc) c g
      chooseLead (if fromSequencer g then changeSegmentEnd s1 else s1)
    else s

/-- An axis of a HOME finds its reference mark: its count is set to the home offset (R69). A HOME that is STOPPING takes no
mark (log 40). -/
def findMark (s : Station) (ax : Axis) : Station :=
  let c := chanOf ax
  match headSeg s c with
  | none => s
  | some g =>
    if (chan s c).state = .running ∧ isHomeSeg g = true ∧ declared s ax = true then
      let s1 := { s with motion := { s.motion with enc := s.motion.enc.set (axisCfg (ownOf s) ax).homeOffset ax } }
      setHead s1 c { g with marks := g.marks.set true ax }
    else s

/-- A following error, or a search range run through (R69, R70). -/
def followingStall (s : Station) (ax : Axis) (enc : Counts) : Station :=
  if s.loader.held || !declared s ax then s else stall (readEncoders s enc) (chanOf ax) .following

/-- A quadrature error unhomes its axis in every mode (R68, R86). -/
def quadratureError (s : Station) (ax : Axis) (enc : Counts) : Station :=
  if s.loader.held || !declared s ax then s
  else
    let s1 := readEncoders s enc
    stall { s1 with motion := { s1.motion with homed := s1.motion.homed.set false ax } } (chanOf ax) .encoder

/-- A drive fault line is asserted: its filter starts (R71). -/
def assertFault (s : Station) (ax : Axis) : Station :=
  if s.pins.driveFault.get ax then s
  else
    let s1 := { s with pins := { s.pins with driveFault := s.pins.driveFault.set true ax } }
    if s.loader.held then s1 else { s1 with motion := { s1.motion with filter := s1.motion.filter.set (some s.now) ax } }

/-- The fault filter time has run out with the line asserted: the fault counts (R71). -/
def countFault (s : Station) (ax : Axis) (enc : Counts) : Station :=
  match s.motion.filter.get ax with
  | none => s
  | some t =>
    let s1 := readEncoders (atDue s (t + (ownOf s).filter)) enc
    let s2 := { s1 with motion := { s1.motion with
      fault := s1.motion.fault.set true ax, filter := s1.motion.filter.set none ax } }
    if declared s ax then stall s2 (chanOf ax) .driveFault else s2

/-- A drive fault line is released: its counted fault is released with it (R71). -/
def releaseFault (s : Station) (ax : Axis) : Station :=
  { s with
      pins := { s.pins with driveFault := s.pins.driveFault.set false ax }
      motion := { s.motion with fault := s.motion.fault.set false ax, filter := s.motion.filter.set none ax } }

/-! ### Rack and coupling -/

/-- A presence input changes: the lock delay starts (R110). -/
def presenceMoved (s : Station) (p : Nat) (present : Bool) (code : Option Code) : Station :=
  if !portNumber p || at1 s.pins.presence false p == present then s
  else
    let s1 := { s with pins := { s.pins with presence := set1 s.pins.presence p present, portIdent := set1 s.pins.portIdent p code } }
    if isRack s && listening s && configured (cellOf s) p then
      setRackPort s1 p { rackPort s1 p with lockDue := some (s.now + Config.lockDelay) }
    else s1

/-- A lock delay runs out: the port is locked and reported (R110, R111). -/
def lockDelayOver (s : Station) (p : Nat) : Station :=
  match (rackPort s p).lockDue with
  | none => s
  | some due =>
    let s1 := setRackPort (atDue s due) p { rackPort s p with lockDue := none }
    if rackWorks s then reportRack (setLock s1 p .locked) p else s1

/-- The coupling sensor changes, the identity line read with it (R122, R124, R125). -/
def sensorMoved (s : Station) (held : Bool) (code : Option Code) : Station :=
  let s1 := { s with pins := { s.pins with sensor := held, headIdent := code } }
  if s.loader.held then { s1 with change := { s1.change with output := held } }
  else if s1.change.failing.isSome || s1.change.leg != .coupling then s1
  else match s1.change.state with
    | .insert => if held then s1 else depositDone s1
    | .engage => if held then engageDone s1 else s1
    | _ => s1

/-- The coupling wait runs out (R124, R125). -/
def couplingOver (s : Station) : Station :=
  match s.change.couplingWait with
  | none => s
  | some due =>
    let s1 := atDue s due
    failByRack (if s1.change.state = .engage then { s1 with change := { s1.change with output := false } } else s1) .coupling

/-- The unlock wait runs out (R124, R125). -/
def unlockOver (s : Station) : Station :=
  match s.change.unlockWait with
  | none => s
  | some due => failByRack (atDue s due) .rackTimeout

/-- The confirm wait runs out (R124). -/
def confirmOver (s : Station) : Station :=
  match s.change.confirmWait with
  | none => s
  | some due => failByRack (atDue s due) .depositUnconfirmed

/-! ### Points, thermal inputs and timers of the line -/

/-- The due moment of the late timer of a PENDING entry with a sequence number (R147). -/
def pendingDue (seq : Nat) : PointEntry → Option Nat
  | .pending d => if d.seq = seq then some d.lateDue else none
  | _ => none

/-- The late timer of a PENDING point runs out (R147). -/
def lateOver (s : Station) (seq : Nat) : Station :=
  match s.touch.points.findSome? (pendingDue seq) with
  | none => s
  | some due => closePoints (atDue s due) true (fun d => d.seq == seq)

/-- The inputs are sampled (R92). -/
def sampleNow (s : Station) (ohms : List Nat) : Station :=
  match s.thermal.sampleDue with
  | none => s
  | some due =>
    let s1 := atDue s due
    { s1 with thermal := { s1.thermal with inputs := sampleInputs s1 ohms, sampleDue := some (s1.now + Config.samplePeriod) } }

/-- The period timer runs out: another THERMAL (R96). -/
def periodOver (s : Station) : Station :=
  match s.thermal.periodDue with
  | none => s
  | some due => composeThermal (atDue s due)

/-- The form wait runs out (R27). -/
def formWaitOver (s : Station) : Station :=
  match s.replica.formWait with
  | none => s
  | some due =>
    let s1 := { atDue s due with replica := { s.replica with formWait := none } }
    if joiningMode s && !(tabs s).cell.formed && !s.replica.cellExists && !s.replica.snapBeginSeen then
      offerControl s1 .joining 0 (.form s.loader.fingerprint (memberMask (cellOf s) (me s) (tabs s)))
    else s1

/-- The join retry runs out (R28, R39). After an abandonment a JOIN is offered though a second service was accepted since, which ends with it
(log 26). -/
def joinRetryOver (s : Station) : Station :=
  match s.replica.joinRetry with
  | none => s
  | some due =>
    let s1 := { atDue s due with replica := { s.replica with joinRetry := none } }
    if !joiningMode s then s1
    else if s.replica.abandoned then offerJoin s1
    else if s.replica.service.isSome then s1
    else if s.replica.cellExists then offerJoin s1
    else { s1 with replica := { s1.replica with joinRetry := some (s1.now + Config.joinRetryPeriods * (cellOf s).period) } }

/-- The OUT hold-off runs out: a self restart (R173). -/
def holdOffOver (s : Station) (straps : Nat) : Station :=
  match s.loader.holdOff with
  | none => s
  | some due => if s.loader.mode = .out ∧ s.loader.held = false then restart (setStraps (atDue s due) straps) .self else s

end Sys2Proof.Machine
end

