-- ==== Sys2Proof/Machine/FrameCommands.lean ====
section
/-! DEFINITION. The 24 commands of completed frames, one for each kind. Each meaning acts on the station alone: the queue is left as it is. -/

namespace Sys2Proof.Machine

/-- A completed FORM (R29, R30), with the counts that a station it makes ACTIVE finds (R68, R88). -/
def execForm (h : Hdr) (fp : Print) (mask : StationMask) (s : State) (enc : Counts := .all 0) : Host.Outcome State Fault Refusal :=
  onStation (fun s => completeFrame (countsForStart s ⟨h, .form fp mask⟩ enc) ⟨h, .form fp mask⟩) s

/-- A completed JOIN (R25, R31 to R33). -/
def execJoin (h : Hdr) (fp : Print) (cause : ResetCause) (jn : Nat) (s : State) : Host.Outcome State Fault Refusal :=
  onStation (fun s => completeFrame s ⟨h, .join fp cause jn⟩) s

/-- A completed SILENCE (R41, R42). -/
def execSilence (h : Hdr) (k count : Nat) (s : State) : Host.Outcome State Fault Refusal :=
  onStation (fun s => completeFrame s ⟨h, .silence k count⟩) s

/-- A completed SNAP_BEGIN (R33, R36). -/
def execSnapBegin (h : Hdr) (purpose : SnapPurpose) (jn : Nat) (fp : Print) (entries : Nat) (s : State) : Host.Outcome State Fault Refusal :=
  onStation (fun s => completeFrame s ⟨h, .snapBegin purpose jn fp entries⟩) s

/-- A completed SNAP_ENTRY (R37). -/
def execSnapEntry (h : Hdr) (jn : Nat) (c : SnapContent) (s : State) : Host.Outcome State Fault Refusal :=
  onStation (fun s => completeFrame s ⟨h, .snapEntry jn c⟩) s

/-- A completed SNAP_END (R35, R38), with the counts that a station it makes ACTIVE finds (R68, R88). -/
def execSnapEnd (h : Hdr) (jn count : Nat) (fp : Print) (s : State) (enc : Counts := .all 0) : Host.Outcome State Fault Refusal :=
  onStation (fun s => completeFrame (countsForStart s ⟨h, .snapEnd jn count fp⟩ enc) ⟨h, .snapEnd jn count fp⟩) s

/-- A completed ZONE_CLAIM (R50, R52). -/
def execZoneClaim (h : Hdr) (mask : ZoneMask) (base : Prio) (s : State) : Host.Outcome State Fault Refusal :=
  onStation (fun s => completeFrame s ⟨h, .zoneClaim mask base⟩) s

/-- A completed ZONE_RELEASE (R58). -/
def execZoneRelease (h : Hdr) (mask : ZoneMask) (withdraw : Bool) (s : State) : Host.Outcome State Fault Refusal :=
  onStation (fun s => completeFrame s ⟨h, .zoneRelease mask withdraw⟩) s

/-- A completed FORCE_RELEASE (R66). -/
def execForceRelease (h : Hdr) (mask : ZoneMask) (s : State) : Host.Outcome State Fault Refusal :=
  onStation (fun s => completeFrame s ⟨h, .forceRelease mask⟩) s

/-- A completed PORT_RESERVE (R112). -/
def execPortReserve (h : Hdr) (p : Nat) (purpose : Purpose) (x : Nat) (s : State) : Host.Outcome State Fault Refusal :=
  onStation (fun s => completeFrame s ⟨h, .portReserve p purpose x⟩) s

/-- A completed PORT_STATE (R113, R114, R116). -/
def execPortState (h : Hdr) (p : Nat) (present : Bool) (lock : Lock) (code : Option Code) (s : State) : Host.Outcome State Fault Refusal :=
  onStation (fun s => completeFrame s ⟨h, .portState p present lock code⟩) s

/-- A completed PORT_ABANDON (R117). -/
def execPortAbandon (h : Hdr) (p : Nat) (inside : Bool) (s : State) : Host.Outcome State Fault Refusal :=
  onStation (fun s => completeFrame s ⟨h, .portAbandon p inside⟩) s

/-- A completed PROBE_DEPOSIT (R115). -/
def execProbeDeposit (h : Hdr) (m p : Nat) (s : State) : Host.Outcome State Fault Refusal :=
  onStation (fun s => completeFrame s ⟨h, .probeDeposit m p⟩) s

/-- A completed PROBE_TAKE (R116). -/
def execProbeTake (h : Hdr) (t p : Nat) (code : Option Code) (s : State) : Host.Outcome State Fault Refusal :=
  onStation (fun s => completeFrame s ⟨h, .probeTake t p code⟩) s

/-- A completed MOUNT_REPORT (R118). -/
def execMountReport (h : Hdr) (code : Option Code) (s : State) : Host.Outcome State Fault Refusal :=
  onStation (fun s => completeFrame s ⟨h, .mountReport code⟩) s

/-- A completed CUSTODY_SET (R119). -/
def execCustodySet (h : Hdr) (x : Nat) (c : Custody) (s : State) : Host.Outcome State Fault Refusal :=
  onStation (fun s => completeFrame s ⟨h, .custodySet x c⟩) s

/-- A completed QUAL_PART (R134). -/
def execQualPart (h : Hdr) (x i n : Nat) (tip : Tip) (s : State) : Host.Outcome State Fault Refusal :=
  onStation (fun s => completeFrame s ⟨h, .qualPart x i n tip⟩) s

/-- A completed QUAL_COMMIT (R135). -/
def execQualCommit (h : Hdr) (x n : Nat) (temp : Int) (s : State) : Host.Outcome State Fault Refusal :=
  onStation (fun s => completeFrame s ⟨h, .qualCommit x n temp⟩) s

/-- A completed PROBE_MARK (R138). -/
def execProbeMark (h : Hdr) (x : Nat) (s : State) : Host.Outcome State Fault Refusal :=
  onStation (fun s => completeFrame s ⟨h, .probeMark x⟩) s

/-- A completed THERMAL (R99, R100, R136, R147). -/
def execThermal (h : Hdr) (es : List ThermEntry) (s : State) : Host.Outcome State Fault Refusal :=
  onStation (fun s => completeFrame s ⟨h, .thermal es⟩) s

/-- A completed POINT (R137, R154, R156). -/
def execPoint (h : Hdr) (p : PointBody) (s : State) : Host.Outcome State Fault Refusal :=
  onStation (fun s => completeFrame s ⟨h, .point p⟩) s

/-- A completed REQUEST: delivered with its reservation (R5, R7, R158). -/
def execRequest (h : Hdr) (tag : Code) (r : ReqBody) (s : State) : Host.Outcome State Fault Refusal :=
  onStation (fun s => completeFrame s ⟨h, .request tag r⟩) s

/-- A completed ANSWER: its entry is free; an accepted RESTART begins, the straps sampled (R7, R164, R169). -/
def execAnswer (h : Hdr) (a : AnswerBody) (s : State) (straps : Nat := 0) : Host.Outcome State Fault Refusal :=
  onStation (fun s => completeFrame (strapsForRestart s ⟨h, .answer a⟩ straps) ⟨h, .answer a⟩) s

/-- A completed EVENT (R7, R166). -/
def execEvent (h : Hdr) (e : EventBody) (s : State) : Host.Outcome State Fault Refusal :=
  onStation (fun s => completeFrame s ⟨h, .event e⟩) s

end Sys2Proof.Machine
end

