-- ==== Sys2Proof/Machine/LineCommands.lean ====
section
/-! DEFINITION. The commands of the line besides completed frames, and offers made again. Each meaning acts on the station alone: the queue is left as it is. -/

namespace Sys2Proof.Machine

/-- QUIET_MOMENT_CONTEND (R2, R16, R17). -/
def execQuietMomentContend (s : State) : Host.Outcome State Fault Refusal :=
  onStation (fun s => contend s) s

/-- ACCESS_PREFIX_END: won or withdrawn against the other contenders (R2, R3). -/
def execAccessPrefixEnd (others : List (FrameClass × Nat)) (s : State) : Host.Outcome State Fault Refusal :=
  onStation (fun s => endPrefix s others) s

/-- FRAME_RECEIVED: the check, the header, a BUSY veto or a reservation (R4, R5, R176). -/
def execFrameReceived (bytes : List Byte) (s : State) : Host.Outcome State Fault Refusal :=
  onStation (fun s => receiveFrame s bytes) s

/-- VETO_WINDOW_VETOED (R5, R6, R18, R19, R173, R174). -/
def execVetoWindowVetoed (s : State) : Host.Outcome State Fault Refusal :=
  onStation (fun s => windowVetoed s) s

/-- FRAME_MALFORMED: counted and nothing more (R8, R177). -/
def execFrameMalformed (s : State) : Host.Outcome State Fault Refusal :=
  onStation (fun s => malformedFrame s) s

/-- CONTROL_FRAME_REOFFER of one unit (R11, R12). -/
def execControlFrameReoffer (src : CtlSource) (s : State) : Host.Outcome State Fault Refusal :=
  onStation (fun s => reoffer s src) s

/-- POINT_FRAME_OFFER (R11, R15, R153). -/
def execPointFrameOffer (s : State) : Host.Outcome State Fault Refusal :=
  onStation (fun s => offerPoints s) s

/-- EVENT_FRAME_OFFER (R11, R15, R166). -/
def execEventFrameOffer (s : State) : Host.Outcome State Fault Refusal :=
  onStation (fun s => offerEvents s) s

/-- SNAP_FRAME_OFFER (R11, R15, R34). -/
def execSnapFrameOffer (s : State) : Host.Outcome State Fault Refusal :=
  onStation (fun s => offerSnapshots s) s

/-- THERMAL_AGE_REACHED (R16). -/
def execThermalAgeReached (s : State) : Host.Outcome State Fault Refusal :=
  onStation (fun s => thermalAged s) s

/-- SILENCE_LIMIT_REACHED (R40). -/
def execSilenceLimitReached (k : Nat) (s : State) : Host.Outcome State Fault Refusal :=
  onStation (fun s => silenceLimit s k) s

end Sys2Proof.Machine
end

