-- ==== Sys2Proof/Machine/MotionCommands.lean ====
section
/-! DEFINITION. The commands of the axes, the trigger and the segments. Each meaning acts on the station alone: the queue is left as it is. -/

namespace Sys2Proof.Machine

/-- CREDIT_RESERVE (R79, R80, R144). -/
def execCreditReserve (s : State) (enc : Counts := .all 0) : Host.Outcome State Fault Refusal :=
  onStation (fun s => grantCredit s enc) s

/-- ZONES_HELD_START (R56). -/
def execZonesHeldStart (c : ChanId) (s : State) : Host.Outcome State Fault Refusal :=
  onStation (fun s => startHeld s c) s

/-- TRIGGER_ASSERTION (R77, R83, R85, R142, R145). -/
def execTriggerAssertion (enc : Counts) (s : State) : Host.Outcome State Fault Refusal :=
  onStation (fun s => assertTrigger s enc) s

/-- APPROACH_END (R77, R78, R85). -/
def execApproachEnd (enc : Counts) (s : State) : Host.Outcome State Fault Refusal :=
  onStation (fun s => endApproach s enc) s

/-- TOUCH_MISS (R77, R144). -/
def execTouchMiss (enc : Counts) (s : State) : Host.Outcome State Fault Refusal :=
  onStation (fun s => missTouch s enc) s

/-- SEGMENT_COMPLETE (R81, R124, R125). -/
def execSegmentComplete (c : ChanId) (enc : Counts) (s : State) : Host.Outcome State Fault Refusal :=
  onStation (fun s => segmentDone s c enc) s

/-- STOP_END (R82, R83, R128). -/
def execStopEnd (c : ChanId) (enc : Counts) (s : State) : Host.Outcome State Fault Refusal :=
  onStation (fun s => stopDone s c enc) s

/-- HOME_MARK_FOUND (R69). -/
def execHomeMarkFound (ax : Axis) (s : State) : Host.Outcome State Fault Refusal :=
  onStation (fun s => findMark s ax) s

/-- FOLLOWING_ERROR (R69, R70, R84). -/
def execFollowingError (ax : Axis) (enc : Counts) (s : State) : Host.Outcome State Fault Refusal :=
  onStation (fun s => followingStall s ax enc) s

/-- ENCODER_QUADRATURE_ERROR (R68, R84, R86). -/
def execEncoderQuadratureError (ax : Axis) (enc : Counts) (s : State) : Host.Outcome State Fault Refusal :=
  onStation (fun s => quadratureError s ax enc) s

/-- DRIVE_FAULT_COUNTED (R71, R84). -/
def execDriveFaultCounted (ax : Axis) (enc : Counts) (s : State) : Host.Outcome State Fault Refusal :=
  onStation (fun s => countFault s ax enc) s

/-- DRIVE_FAULT_RELEASED (R71). -/
def execDriveFaultReleased (ax : Axis) (s : State) : Host.Outcome State Fault Refusal :=
  onStation (fun s => releaseFault s ax) s

/-- TRIGGER_RELEASE (R142). -/
def execTriggerRelease (s : State) : Host.Outcome State Fault Refusal :=
  onStation (fun s => releaseTrigger s) s

/-- DRIVE_FAULT_ASSERTION (R71). -/
def execDriveFaultAssertion (ax : Axis) (s : State) : Host.Outcome State Fault Refusal :=
  onStation (fun s => assertFault s ax) s

end Sys2Proof.Machine
end

