-- ==== Sys2Proof/Machine/RequestCommands.lean ====
section
/-! DEFINITION. The 13 commands of requests taken by the Request Unit. Each meaning acts on the station alone: the queue is left as
it is. Those that read where the arm stands bring the encoder counts with them (log 5). -/

namespace Sys2Proof.Machine

/-- MOVE (R160). -/
def execMove (src : Nat) (tag : Code) (target : Vec3) (speed recovery : Nat) (s : State) (enc : Counts := .all 0) : Host.Outcome State Fault Refusal :=
  onStation (fun s => if isNext s src tag (.move target speed recovery) then requestMove (takeRequest (readEncoders s enc)) src tag target speed recovery else s) s

/-- TOUCH (R160, R161). -/
def execTouch (src : Nat) (tag : Code) (t : TouchArgs) (s : State) (enc : Counts := .all 0) : Host.Outcome State Fault Refusal :=
  onStation (fun s => if isNext s src tag (.touch t) then requestTouch (takeRequest (readEncoders s enc)) src tag t else s) s

/-- HOME (R160). -/
def execHome (src : Nat) (tag : Code) (channel : Nat) (s : State) (enc : Counts := .all 0) : Host.Outcome State Fault Refusal :=
  onStation (fun s => if isNext s src tag (.home channel) then requestHome (takeRequest (readEncoders s enc)) src tag channel else s) s

/-- INDEX (R160). -/
def execIndex (src : Nat) (tag : Code) (a : Nat) (b : Int) (s : State) (enc : Counts := .all 0) : Host.Outcome State Fault Refusal :=
  onStation (fun s => if isNext s src tag (.index a b) then requestIndex (takeRequest (readEncoders s enc)) src tag a b else s) s

/-- HALT (R82, R83, R126, R162). -/
def execHalt (src : Nat) (tag : Code) (sel : Nat) (s : State) (enc : Counts := .all 0) : Host.Outcome State Fault Refusal :=
  onStation (fun s => if isNext s src tag (.halt sel) then requestHalt (takeRequest (readEncoders s enc)) src tag sel else s) s

/-- CLEAR (R87, R162). -/
def execClear (src : Nat) (tag : Code) (sel : Nat) (s : State) (enc : Counts := .all 0) : Host.Outcome State Fault Refusal :=
  onStation (fun s => if isNext s src tag (.clear sel) then requestClear (takeRequest (readEncoders s enc)) src tag sel else s) s

/-- CHANGE (R122, R123). -/
def execChange (src : Nat) (tag : Code) (probe : Nat) (s : State) (enc : Counts := .all 0) : Host.Outcome State Fault Refusal :=
  onStation (fun s => if isNext s src tag (.change probe) then requestChange (takeRequest (readEncoders s enc)) src tag probe else s) s

/-- QUALIFY (R132). -/
def execQualify (src : Nat) (tag : Code) (probe i n : Nat) (tip : Tip) (s : State) : Host.Outcome State Fault Refusal :=
  onStation (fun s => if isNext s src tag (.qualify probe i n tip) then requestQualify (takeRequest s) src tag probe i n tip else s) s

/-- PARK (R89, R162). -/
def execPark (src : Nat) (tag : Code) (s : State) (enc : Counts := .all 0) : Host.Outcome State Fault Refusal :=
  onStation (fun s => if isNext s src tag (.park) then requestPark (takeRequest (readEncoders s enc)) src tag else s) s

/-- UNPARK (R89, R162). -/
def execUnpark (src : Nat) (tag : Code) (s : State) (enc : Counts := .all 0) : Host.Outcome State Fault Refusal :=
  onStation (fun s => if isNext s src tag (.unpark) then requestUnpark (takeRequest (readEncoders s enc)) src tag else s) s

/-- STATUS (R163). -/
def execStatus (src : Nat) (tag : Code) (page : Nat) (s : State) : Host.Outcome State Fault Refusal :=
  onStation (fun s => if isNext s src tag (.status page) then requestStatus (takeRequest s) src tag page else s) s

/-- RESTART (R164). -/
def execRestart (src : Nat) (tag : Code) (guardCode : Nat) (s : State) : Host.Outcome State Fault Refusal :=
  onStation (fun s => if isNext s src tag (.restart guardCode) then requestRestart (takeRequest s) src tag guardCode else s) s

/-- UNKNOWN_REQUEST: a request code that names no kind (R158). -/
def execUnknownRequest (src : Nat) (tag : Code) (code : Nat) (args : List Byte) (s : State) : Host.Outcome State Fault Refusal :=
  onStation (fun s => if isNext s src tag (.unknown code args) then requestUnknown (takeRequest s) src tag code else s) s

end Sys2Proof.Machine
end

