-- ==== Sys2Proof/Machine/ResetCommands.lean ====
section
/-! DEFINITION. The commands of reset, loading and the OUT hold-off. Each meaning acts on the station alone: the queue is left as it is. -/

namespace Sys2Proof.Machine

/-- RESET_ASSERT: the station is held in reset (R168, R20, R43, R90, R157). -/
def execResetAssert (s : State) : Host.Outcome State Fault Refusal :=
  onStation (fun s => holdInReset s) s

/-- RESET_RELEASE: LOADING with cause POWER_ON, the straps sampled (R168, R169). -/
def execResetRelease (straps : Nat) (s : State) : Host.Outcome State Fault Refusal :=
  onStation (fun s => if s.loader.held then releaseReset (setStraps s straps) else s) s

/-- IMAGE_READ_COMPLETE: the image is judged; SHUT or JOINING (R170, R171, R179, R24). -/
def execImageReadComplete (bytes : List Byte) (s : State) : Host.Outcome State Fault Refusal :=
  onStation (fun s => if s.loader.held = false ∧ s.loader.mode = .loading then loadImage s bytes else s) s

/-- OUT_HOLD_OFF_EXPIRY (R173, R175). -/
def execOutHoldOffExpiry (s : State) (straps : Nat := 0) : Host.Outcome State Fault Refusal :=
  onStation (fun s => holdOffOver s straps) s

end Sys2Proof.Machine
end

