-- ==== Sys2Proof/Machine/TimerCommands.lean ====
section
/-! DEFINITION. The commands of the rack, the coupling and the timers. Each meaning acts on the station alone: the queue is left as it is. -/

namespace Sys2Proof.Machine

/-- PRESENCE_CHANGE (R110). -/
def execPresenceChange (p : Nat) (present : Bool) (code : Option Code) (s : State) : Host.Outcome State Fault Refusal :=
  onStation (fun s => presenceMoved s p present code) s

/-- LOCK_DELAY_EXPIRY (R110, R111). -/
def execLockDelayExpiry (p : Nat) (s : State) : Host.Outcome State Fault Refusal :=
  onStation (fun s => lockDelayOver s p) s

/-- COUPLING_SENSOR_CHANGE (R122, R124, R125). -/
def execCouplingSensorChange (held : Bool) (code : Option Code) (s : State) : Host.Outcome State Fault Refusal :=
  onStation (fun s => sensorMoved s held code) s

/-- COUPLING_WAIT_EXPIRY (R124, R125, R128). -/
def execCouplingWaitExpiry (s : State) : Host.Outcome State Fault Refusal :=
  onStation (fun s => couplingOver s) s

/-- UNLOCK_WAIT_EXPIRY (R124, R125, R128). -/
def execUnlockWaitExpiry (s : State) : Host.Outcome State Fault Refusal :=
  onStation (fun s => unlockOver s) s

/-- CONFIRM_WAIT_EXPIRY (R124, R128). -/
def execConfirmWaitExpiry (s : State) : Host.Outcome State Fault Refusal :=
  onStation (fun s => confirmOver s) s

/-- LATE_TIMER_EXPIRY (R147). -/
def execLateTimerExpiry (seq : Nat) (s : State) : Host.Outcome State Fault Refusal :=
  onStation (fun s => lateOver s seq) s

/-- THERMAL_SAMPLE (R92 to R94). -/
def execThermalSample (ohms : List Nat) (s : State) : Host.Outcome State Fault Refusal :=
  onStation (fun s => sampleNow s ohms) s

/-- THERMAL_PERIOD_EXPIRY (R96, R97). -/
def execThermalPeriodExpiry (s : State) : Host.Outcome State Fault Refusal :=
  onStation (fun s => periodOver s) s

/-- FORM_WAIT_EXPIRY (R27). -/
def execFormWaitExpiry (s : State) : Host.Outcome State Fault Refusal :=
  onStation (fun s => formWaitOver s) s

/-- JOIN_RETRY_EXPIRY (R28, R39). -/
def execJoinRetryExpiry (s : State) : Host.Outcome State Fault Refusal :=
  onStation (fun s => joinRetryOver s) s

end Sys2Proof.Machine
end

