-- ==== Sys2Proof/Machine/Dispatch.lean ====
section
/-! DEFINITION. `exec`: the effect of each command on everything but the queue, one arm for each row of the table. -/

namespace Sys2Proof.Machine

def exec (i : Instr) (s : State) : Host.Outcome State Fault Refusal :=
  match i with
  | .resetAssert => Sys2Proof.Machine.execResetAssert s
  | .resetRelease straps => Sys2Proof.Machine.execResetRelease straps s
  | .imageReadComplete bytes => Sys2Proof.Machine.execImageReadComplete bytes s
  | .quietMomentContend => Sys2Proof.Machine.execQuietMomentContend s
  | .accessPrefixEnd others => Sys2Proof.Machine.execAccessPrefixEnd others s
  | .frameReceived bytes => Sys2Proof.Machine.execFrameReceived bytes s
  | .vetoWindowVetoed => Sys2Proof.Machine.execVetoWindowVetoed s
  | .frameMalformed => Sys2Proof.Machine.execFrameMalformed s
  | .form h fp mask enc => Sys2Proof.Machine.execForm h fp mask s enc
  | .join h fp cause jn => Sys2Proof.Machine.execJoin h fp cause jn s
  | .silence h k count => Sys2Proof.Machine.execSilence h k count s
  | .snapBegin h purpose jn fp entries => Sys2Proof.Machine.execSnapBegin h purpose jn fp entries s
  | .snapEntry h jn c => Sys2Proof.Machine.execSnapEntry h jn c s
  | .snapEnd h jn count fp enc => Sys2Proof.Machine.execSnapEnd h jn count fp s enc
  | .zoneClaim h mask base => Sys2Proof.Machine.execZoneClaim h mask base s
  | .zoneRelease h mask withdraw => Sys2Proof.Machine.execZoneRelease h mask withdraw s
  | .forceRelease h mask => Sys2Proof.Machine.execForceRelease h mask s
  | .portReserve h p purpose x => Sys2Proof.Machine.execPortReserve h p purpose x s
  | .portState h p present lock code => Sys2Proof.Machine.execPortState h p present lock code s
  | .portAbandon h p inside => Sys2Proof.Machine.execPortAbandon h p inside s
  | .probeDeposit h m p => Sys2Proof.Machine.execProbeDeposit h m p s
  | .probeTake h t p code => Sys2Proof.Machine.execProbeTake h t p code s
  | .mountReport h code => Sys2Proof.Machine.execMountReport h code s
  | .custodySet h x c => Sys2Proof.Machine.execCustodySet h x c s
  | .qualPart h x input n tip => Sys2Proof.Machine.execQualPart h x input n tip s
  | .qualCommit h x n temp => Sys2Proof.Machine.execQualCommit h x n temp s
  | .probeMark h x => Sys2Proof.Machine.execProbeMark h x s
  | .thermal h es => Sys2Proof.Machine.execThermal h es s
  | .point h p => Sys2Proof.Machine.execPoint h p s
  | .request h tag r => Sys2Proof.Machine.execRequest h tag r s
  | .answer h a straps => Sys2Proof.Machine.execAnswer h a s straps
  | .event h e => Sys2Proof.Machine.execEvent h e s
  | .move src tag target speed recovery enc => Sys2Proof.Machine.execMove src tag target speed recovery s enc
  | .touch src tag t enc => Sys2Proof.Machine.execTouch src tag t s enc
  | .home src tag channel enc => Sys2Proof.Machine.execHome src tag channel s enc
  | .index src tag a b enc => Sys2Proof.Machine.execIndex src tag a b s enc
  | .halt src tag sel enc => Sys2Proof.Machine.execHalt src tag sel s enc
  | .clear src tag sel enc => Sys2Proof.Machine.execClear src tag sel s enc
  | .change src tag probe enc => Sys2Proof.Machine.execChange src tag probe s enc
  | .qualify src tag probe input n tip => Sys2Proof.Machine.execQualify src tag probe input n tip s
  | .park src tag enc => Sys2Proof.Machine.execPark src tag s enc
  | .unpark src tag enc => Sys2Proof.Machine.execUnpark src tag s enc
  | .status src tag page => Sys2Proof.Machine.execStatus src tag page s
  | .restart src tag guardCode => Sys2Proof.Machine.execRestart src tag guardCode s
  | .unknownRequest src tag code args => Sys2Proof.Machine.execUnknownRequest src tag code args s
  | .controlFrameReoffer src => Sys2Proof.Machine.execControlFrameReoffer src s
  | .pointFrameOffer => Sys2Proof.Machine.execPointFrameOffer s
  | .eventFrameOffer => Sys2Proof.Machine.execEventFrameOffer s
  | .snapFrameOffer => Sys2Proof.Machine.execSnapFrameOffer s
  | .creditReserve enc => Sys2Proof.Machine.execCreditReserve s enc
  | .zonesHeldStart c => Sys2Proof.Machine.execZonesHeldStart c s
  | .triggerAssertion enc => Sys2Proof.Machine.execTriggerAssertion enc s
  | .approachEnd enc => Sys2Proof.Machine.execApproachEnd enc s
  | .touchMiss enc => Sys2Proof.Machine.execTouchMiss enc s
  | .segmentComplete c enc => Sys2Proof.Machine.execSegmentComplete c enc s
  | .stopEnd c enc => Sys2Proof.Machine.execStopEnd c enc s
  | .homeMarkFound ax => Sys2Proof.Machine.execHomeMarkFound ax s
  | .followingError ax enc => Sys2Proof.Machine.execFollowingError ax enc s
  | .encoderQuadratureError ax enc => Sys2Proof.Machine.execEncoderQuadratureError ax enc s
  | .driveFaultCounted ax enc => Sys2Proof.Machine.execDriveFaultCounted ax enc s
  | .driveFaultReleased ax => Sys2Proof.Machine.execDriveFaultReleased ax s
  | .presenceChange p present code => Sys2Proof.Machine.execPresenceChange p present code s
  | .lockDelayExpiry p => Sys2Proof.Machine.execLockDelayExpiry p s
  | .couplingSensorChange held code => Sys2Proof.Machine.execCouplingSensorChange held code s
  | .couplingWaitExpiry => Sys2Proof.Machine.execCouplingWaitExpiry s
  | .unlockWaitExpiry => Sys2Proof.Machine.execUnlockWaitExpiry s
  | .confirmWaitExpiry => Sys2Proof.Machine.execConfirmWaitExpiry s
  | .lateTimerExpiry seq => Sys2Proof.Machine.execLateTimerExpiry seq s
  | .thermalSample ohms => Sys2Proof.Machine.execThermalSample ohms s
  | .thermalPeriodExpiry => Sys2Proof.Machine.execThermalPeriodExpiry s
  | .thermalAgeReached => Sys2Proof.Machine.execThermalAgeReached s
  | .formWaitExpiry => Sys2Proof.Machine.execFormWaitExpiry s
  | .joinRetryExpiry => Sys2Proof.Machine.execJoinRetryExpiry s
  | .silenceLimitReached k => Sys2Proof.Machine.execSilenceLimitReached k s
  | .outHoldOffExpiry straps => Sys2Proof.Machine.execOutHoldOffExpiry s straps
  | .triggerRelease => Sys2Proof.Machine.execTriggerRelease s
  | .driveFaultAssertion ax => Sys2Proof.Machine.execDriveFaultAssertion ax s

end Sys2Proof.Machine
end

