-- ==== Sys2Proof/Safety.lean ====
section
/-! DEFINITION. What it means for a station to be safe to run: no command stops it, since OUT and SHUT are modes (R173, R174),
every store and table of the station keeps to the size the chapters give it, and a station that serves the cell has a formed replica. -/

namespace Sys2Proof

open Sys2Proof.Machine

/-- An outcome that is a next state. -/
def isNext {S F R : Type} : Host.Outcome S F R → Prop
  | .next _ => True
  | _ => False

/-- A state from which the step goes on. -/
def Safe (s : Machine.State) : Prop := isNext (Machine.step s)

/-- The Line Port's queues keep to their sizes and hold frames of their own classes (R12 to R15, R19). -/
structure LineOk (lp : LinePort) : Prop where
  /-- seven places for frames other than the release, one in flight counted (R12) -/
  control : controlHeld lp ≤ 7
  /-- one release in the queue (R13) -/
  release : (lp.control.filter (fun o => Body.isRelease o.body)).length ≤ 1
  /-- sixteen entries, frames and reservations together (R15) -/
  report : reportHeld lp + lp.reserved ≤ 16
  /-- twelve POINT frames (R15) -/
  points : pointsHeld lp ≤ 12
  /-- 256 veto windows (R19) -/
  vetoLog : lp.vetoLog.length ≤ 256
  controlClass : ∀ o ∈ lp.control, Body.cls o.body = .control
  reportClass : ∀ o ∈ lp.report, Body.cls o.body = .report
  thermalClass : ∀ v ∈ lp.thermal, Body.cls v.item.body = .thermal
  /-- what the units keep is CONTROL frames other than releases (R11, R13) -/
  waitingClass : ∀ w ∈ lp.waiting, Body.cls w.item.body = .control ∧ Body.isRelease w.item.body = false

/-- Both segment queues keep to sixteen segments (R74). -/
def QueuesOk (m : MotionUnit) : Prop := m.arm.queue.length ≤ 16 ∧ m.head.queue.length ≤ 16

/-- Every bounded store of the station keeps to its size: the Line Port's queues, a reservation for every request delivered
(R5), the catch-up list (R26), the segment queues (R74), the filter windows (R93), the point list (R143), the event list (R166)
and the repeated-OUT record (R174). -/
structure Bounded (s : Station) : Prop where
  line : LineOk s.line
  answers : s.request.delivered.length + windowReserves s.line.window ≤ s.line.reserved
  catchUp : s.replica.catchUp.length ≤ 128
  queues : QueuesOk s.motion
  windows : ∀ i ∈ s.thermal.inputs, i.window.length ≤ 8
  points : s.touch.points.length = 24
  events : s.request.events.length ≤ 8
  outRecord : s.loader.outRecord.length ≤ 2

/-- The shared tables have the sizes the chapters give them: 14 stations (R21, R133), 32 zones (R44), 12 ports (R109) and 24 probes
(R106). -/
structure TablesSized (r : Replica) : Prop where
  roster : r.roster.length = 14
  zones : r.zones.length = 32
  ports : r.ports.length = 12
  probes : r.probes.length = 24
  latches : r.latches.length = 14

/-- Every table of the station has its size: the replica and the pending one (R37), the last-heard table (R10), the thermal inputs
(R91), the rack ports and their pins (R110). -/
structure Sized (s : Station) : Prop where
  tables : TablesSized (tabs s)
  pending : ∀ p ∈ s.replica.pendingRep, TablesSized p.tables ∧ p.heard.length = 14
  noticed : s.replica.noticed.length = 14
  heard : s.line.heard.length = 14
  inputs : s.thermal.inputs.length = 8
  rack : s.rack.length = 12
  presence : s.pins.presence.length = 12
  portIdent : s.pins.portIdent.length = 12

/-- Every HOME zone is HELD by its owner (R44). -/
def HomesHeld (c : CellPart) (r : Replica) : Prop :=
  r.zones.length = 32 ∧ ∀ z < 32, isHome c z = true → (zoneEntry r z).hold = .held (zoneCfg c z).owner

/-- A station that serves the cell has a formed replica and a line count, and its HOME zones are held (R9, R23, R44). -/
def Serves (s : Station) : Prop :=
  serving s = true → (tabs s).cell.formed = true ∧ s.line.lineCount.isSome = true ∧ HomesHeld (cellOf s) (tabs s)

/-! ### The claim list and its deadlocks -/

/-- Claimant `a` waits for claimant `b` (R61): a zone of `a`'s wanted set is HELD by `b`, or `b`'s claim is URGENT, stands ahead of
`a`'s and overlaps it. -/
def waitsFor (zs : List ZoneEntry) (l : List Claim) (a b : Nat) : Prop :=
  ∃ c ∈ l, ∃ d ∈ l, c.claimant = a ∧ d.claimant = b ∧
    ((∃ z < 32, c.wanted.getLsbD z = true ∧ (zs.getD z ⟨.free, 0⟩).hold = .held b) ∨
      (d.urgent = true ∧ (∃ pre mid post, l = pre ++ d :: (mid ++ c :: post)) ∧
        ∃ z < 32, c.wanted.getLsbD z = true ∧ d.wanted.getLsbD z = true))

/-- A claimant lies on a cycle of waits (R61). -/
def Deadlocked (zs : List ZoneEntry) (l : List Claim) (k : Nat) : Prop := Relation.TransGen (waitsFor zs l) k k

/-- Claim `a` stands no later than claim `b` (R51): an URGENT claim before one that is not, RECOVERY before CHANGE before ROUTINE among those
that are not, the lower count first among equals. -/
def noLater (a b : Claim) : Prop :=
  (a.urgent = true ∧ b.urgent = false) ∨ (a.urgent = true ∧ b.urgent = true ∧ a.count ≤ b.count) ∨
    (a.urgent = false ∧ b.urgent = false ∧ (prioRank a.base < prioRank b.base ∨ (a.base = b.base ∧ a.count ≤ b.count)))

/-- Every wanted zone of a claim is FREE and no URGENT claim ahead of it overlaps it (R53). -/
def mayBeGranted (zs : List ZoneEntry) (front : List Claim) (c : Claim) : Prop :=
  (∀ z < 32, c.wanted.getLsbD z = true → (zs.getD z ⟨.free, 0⟩).hold = .free) ∧
    ∀ a ∈ front, a.urgent = true → ∀ z < 32, ¬ (a.wanted.getLsbD z = true ∧ c.wanted.getLsbD z = true)

/-- A walk of the claim list from its head (R53, R54): `front` are the claims reached and not granted, a claim granted makes its zones HELD
with the line count of the frame and leaves the list, and each claim of `front` is passed once more, up to 255. -/
inductive Walks (lc : Nat) : List Claim → List Claim → List ZoneEntry → List Claim → List ZoneEntry → Prop
  | done (front : List Claim) (zs : List ZoneEntry) : Walks lc front [] zs front zs
  | grant (front rest out : List Claim) (c : Claim) (zs ys ws : List ZoneEntry) : mayBeGranted zs front c → ys.length = zs.length →
      (∀ z < zs.length, ys.getD z ⟨.free, 0⟩ = if c.wanted.getLsbD z = true then ⟨.held c.claimant, lc⟩ else zs.getD z ⟨.free, 0⟩) →
      Walks lc (front.map fun a => { a with passed := min 255 (a.passed + 1) }) rest ys out ws → Walks lc front (c :: rest) zs out ws
  | wait (front rest out : List Claim) (c : Claim) (zs ws : List ZoneEntry) : ¬ mayBeGranted zs front c →
      Walks lc (front ++ [c]) rest zs out ws → Walks lc front (c :: rest) zs out ws

/-- A grant scan (R52 to R55, R61, R62): a walk; the claims whose passed count has reached the starve limit become URGENT and the list is put
in its order; and while claimants are deadlocked the claim with the highest count of those is withdrawn and the scan is made again. -/
inductive Scans (starve lc : Nat) : List Claim → List ZoneEntry → List Claim → List ZoneEntry → List Nat → Prop
  | settled (l w out : List Claim) (zs ys : List ZoneEntry) : Walks lc [] l zs w ys →
      out.Perm (w.map fun c => { c with urgent := c.urgent || decide (starve ≤ c.passed) }) → out.Pairwise noLater →
      (∀ c ∈ out, ¬ Deadlocked ys out c.claimant) → Scans starve lc l zs out ys []
  | withdraws (l w m out : List Claim) (d : Claim) (zs ys ws : List ZoneEntry) (ks : List Nat) : Walks lc [] l zs w ys →
      m.Perm (w.map fun c => { c with urgent := c.urgent || decide (starve ≤ c.passed) }) → m.Pairwise noLater →
      d ∈ m → Deadlocked ys m d.claimant → (∀ c ∈ m, Deadlocked ys m c.claimant → c.count ≤ d.count) →
      Scans starve lc (m.filter fun c => decide (c.claimant ≠ d.claimant)) ys out ws ks → Scans starve lc l zs out ws (d.claimant :: ks)

/-- The lists whose length a rule bounds keep what bounds them: the claim list in its order with one claim for each claimant of role MC410
and none that wants a zone its claimant holds (R51), the thermal board in its order with one entry for each input of a station of
role MC410 (R98, R99), and at most six tip entries to a probe (R130). -/
structure ListsOk (c : CellPart) (r : Replica) : Prop where
  claimOrder : r.claims.Pairwise (fun a b => claimBefore b a = false)
  claimants : (r.claims.map (·.claimant)).Nodup
  claimRole : ∀ d ∈ r.claims, roleIn c d.claimant = .mc410
  wanted : ∀ d ∈ r.claims, ∀ z < 32, d.wanted.getLsbD z = true → (zoneEntry r z).hold ≠ .held d.claimant
  passed : ∀ d ∈ r.claims, d.passed ≤ 255
  boardOrder : r.board.Pairwise (fun a b => a.station < b.station ∨ (a.station = b.station ∧ a.input < b.input))
  boardRange : ∀ e ∈ r.board, roleIn c e.station = .mc410 ∧ 1 ≤ e.input ∧ e.input ≤ 8
  tips : ∀ x, (probeRec r x).tips.length ≤ 6

/-- A cell has at most ten stations of role MC410 (R171). -/
def StationsOk (c : CellPart) : Prop := c.roles.length = 14 ∧ (c.roles.filter (· == .mc410)).length ≤ 10

/-- The custody of the probes and the port table agree (R107). -/
structure Agrees (r : Replica) : Prop where
  occupied : ∀ p x, (portEntry r p).state = .occupied x → (probeRec r x).custody = .port p
  pickup : ∀ p k x, (portEntry r p).state = .reserved k .pickup x → (portEntry r p).takeSeen = false → (probeRec r x).custody = .port p
  deposit : ∀ p k x, (portEntry r p).state = .reserved k .deposit x →
    (probeRec r x).custody = .station k ∨ (probeRec r x).custody = .transfer p
  atPort : ∀ p x, (probeRec r x).custody = .port p → (portEntry r p).state = .occupied x ∨
    ((∃ k, (portEntry r p).state = .reserved k .pickup x) ∧ (portEntry r p).takeSeen = false)
  inTransfer : ∀ p x, (probeRec r x).custody = .transfer p → ∃ k, (portEntry r p).state = .reserved k .deposit x
  oneStation : ∀ k x y, (probeRec r x).custody = .station k → (probeRec r y).custody = .station k → x = y

/-! ### Point credits and running segments -/

/-- The RESERVED entries of the point list. -/
def reservedPoints (s : Station) : Nat := (s.touch.points.filter isReservedEntry).length

/-- A RESERVED entry of the point list is the credit of the TOUCH at the head of the ARM queue, not yet used: at most one (R79, R143, R144). A segment
that does not move is in its first phase, a channel with none moving or waiting has an empty queue, and both channels are DISABLED outside ACTIVE
mode and without axes (R72, R77, R88 to R90). -/
structure CreditsOk (s : Station) : Prop where
  reserved : reservedPoints s = if s.motion.arm.queue.head?.any (·.credit) = true then 1 else 0
  head : ∀ g ∈ s.motion.head.queue, g.credit = false ∧ isTouchSeg g = false
  tail : ∀ c, ∀ g ∈ (chan s c).queue.drop 1, g.credit = false ∧ g.phase = .approach
  fresh : ∀ c g, movingState (chan s c).state = false → (chan s c).queue.head? = some g → g.phase = .approach
  touch : ∀ g, s.motion.arm.queue.head? = some g → g.credit = true → isTouchSeg g = true ∧ ∀ b, g.phase ≠ .retract b
  empty : ∀ c, movingState (chan s c).state = false → waitingState (chan s c).state = false → (chan s c).queue = []
  off : working s = false ∨ (ownOf s).axes = [] → s.motion.arm.state = .disabled ∧ s.motion.head.state = .disabled

/-- A segment that runs runs on zones held: it ran already, the same segment, or every zone of its zone set is held (R56). -/
def startsHeld (s t : Station) : Prop :=
  ∀ c g, (chan t c).state = .running → (chan t c).queue.head? = some g →
    ((chan s c).state = .running ∧ ∃ h, (chan s c).queue.head? = some h ∧ h.acc = g.acc ∧ h.zoneSet = g.zoneSet) ∨
      holdsAll t (g.zoneSet.getD 0#32) = true

end Sys2Proof
end

