-- ==== Sys2Proof/Certificates/Slice0/Obligations.lean ====
section
/-! DEFINITION. The statements for the provers. `Sys2Proof.Says` names what several of them say; then one `Obligations.<Name>` for
each, by chapter. -/

namespace Sys2Proof.Says

open Sys2Proof.Machine

/-! ### The line -/

/-- The frame that a command of a completed frame brings. -/
def frameOf : Instr → Option Frame
  | .form h fp mask _ => some ⟨h, .form fp mask⟩
  | .join h fp cause jn => some ⟨h, .join fp cause jn⟩
  | .silence h k count => some ⟨h, .silence k count⟩
  | .snapBegin h purpose jn fp entries => some ⟨h, .snapBegin purpose jn fp entries⟩
  | .snapEntry h jn c => some ⟨h, .snapEntry jn c⟩
  | .snapEnd h jn count fp _ => some ⟨h, .snapEnd jn count fp⟩
  | .zoneClaim h mask base => some ⟨h, .zoneClaim mask base⟩
  | .zoneRelease h mask withdraw => some ⟨h, .zoneRelease mask withdraw⟩
  | .forceRelease h mask => some ⟨h, .forceRelease mask⟩
  | .portReserve h p purpose x => some ⟨h, .portReserve p purpose x⟩
  | .portState h p present lock code => some ⟨h, .portState p present lock code⟩
  | .portAbandon h p inside => some ⟨h, .portAbandon p inside⟩
  | .probeDeposit h m p => some ⟨h, .probeDeposit m p⟩
  | .probeTake h t p code => some ⟨h, .probeTake t p code⟩
  | .mountReport h code => some ⟨h, .mountReport code⟩
  | .custodySet h x c => some ⟨h, .custodySet x c⟩
  | .qualPart h x i n tip => some ⟨h, .qualPart x i n tip⟩
  | .qualCommit h x n temp => some ⟨h, .qualCommit x n temp⟩
  | .probeMark h x => some ⟨h, .probeMark x⟩
  | .thermal h es => some ⟨h, .thermal es⟩
  | .point h p => some ⟨h, .point p⟩
  | .request h tag r => some ⟨h, .request tag r⟩
  | .answer h a _ => some ⟨h, .answer a⟩
  | .event h e => some ⟨h, .event e⟩
  | _ => none

/-- A frame has become the frame in flight and contends (R3). -/
def contends (lp : LinePort) (o : Outgoing) (since : Nat) : Prop := lp.flight = some ⟨o, .contending, since, []⟩

/-- No THERMAL of the age of one thermal period waits (R16). -/
def noAge (s : Station) : Prop := ∀ v, s.line.thermal = some v → s.now < v.since + (cellOf s).period

/-- One contender is ahead of another in the prefix: a lower class, or the same class and a lower number (R2). -/
def ahead (a b : FrameClass × Nat) : Prop := classRank a.1 < classRank b.1 ∨ (a.1 = b.1 ∧ a.2 < b.2)

/-- A ZONE_RELEASE offered while none is queued joins the tail; one offered while another is queued merges into it: the zone sets united, the
withdraw flags ORed, and where it withdraws the claims of the station behind the queued one removed (R13). -/
def releaseJoins (mask : ZoneMask) (withdraw : Bool) (old new : List Outgoing) : Prop :=
  ((∀ q ∈ old, Body.isRelease q.body = false) → new = old ++ [⟨0, .zoneRelease mask withdraw⟩]) ∧
  (∀ pre q post m w, old = pre ++ q :: post → (∀ b ∈ pre, Body.isRelease b.body = false) → q.body = .zoneRelease m w →
    new = pre ++ ⟨q.dest, .zoneRelease (m ||| mask) (w || withdraw)⟩ ::
      (if withdraw = true then post.filter (fun b => !Body.isClaim b.body) else post))

/-- A ZONE_RELEASE that goes back to its queue takes the head; a newer one that waits there merges into it, and where the newer one withdraws
the claims of the station that stood before it are removed (R3, R13). -/
def releaseBack (o : Outgoing) (old new : List Outgoing) : Prop :=
  ((∀ q ∈ old, Body.isRelease q.body = false) → new = o :: old) ∧
  (∀ mask withdraw pre q post m w, o.body = .zoneRelease mask withdraw → old = pre ++ q :: post →
    (∀ b ∈ pre, Body.isRelease b.body = false) → q.body = .zoneRelease m w →
    new = ⟨o.dest, .zoneRelease (mask ||| m) (withdraw || w)⟩ ::
      ((if w = true then pre.filter (fun b => !Body.isClaim b.body) else pre) ++ post))

/-- A THERMAL that goes back takes the empty slot with its age, or is dropped and leaves the older age to the one there (R14). -/
def thermalBack (v : Flight) (old new : Option Slot) : Prop :=
  (old = none → new = some ⟨v.item, v.since⟩) ∧ (∀ w, old = some w → new = some ⟨w.item, min w.since v.since⟩)

/-- The 24 kind codes (11.2). -/
def kindCodes : List Nat :=
  [0x10, 0x11, 0x14, 0x15, 0x16, 0x17, 0x21, 0x22, 0x23, 0x31, 0x32, 0x33, 0x34, 0x35, 0x36, 0x37, 0x41, 0x42, 0x43, 0x51, 0x61, 0x71,
    0x72, 0x73]

/-- A header breaks the format whatever the body: the length exceeds 60, the kind is none of the 24, the sender is 0 or 15 or of role
UNUSED, or the destination is 15 (R8, R176). -/
def headerBroken (c : CellPart) (head : List Byte) : Prop :=
  60 < (head.getD 3 0).toNat ∨ (head.getD 0 0).toNat ∉ kindCodes ∨ (head.getD 1 0).toNat / 16 = 0 ∨ (head.getD 1 0).toNat / 16 = 15 ∨
    roleIn c ((head.getD 1 0).toNat / 16) = .unused ∨ (head.getD 1 0).toNat % 16 = 15

/-- The station has met an OUT cause (R173, R174): OUT with its hold-off, or SHUT at the third within 600 s. -/
def wentOut (s t : Station) (cause : OutCause) : Prop :=
  let recent := s.loader.outRecord.filter (fun m => decide (s.now ≤ m + 600000))
  t.loader.outCause = some cause ∧
    (recent.length < 2 →
      t.loader.mode = .out ∧ t.loader.holdOff = some (s.now + 5000) ∧ t.loader.outRecord = recent ++ [s.now]) ∧
    (2 ≤ recent.length → t.loader.mode = .shut ∧ t.loader.shutReason = some .repeatedOut ∧ t.loader.holdOff = none)

/-! ### Completed frames -/

/-- A station in ACTIVE or PARKED mode takes a well-formed frame that no veto of its own stops, at line count `n`. -/
def takes (s : Station) (f : Frame) (n : Nat) : Prop :=
  serving s = true ∧ vetoedHere s = false ∧ formatGood (cellOf s) f = true ∧ s.line.lineCount = some n

/-- The sender passes the roster step (R22): an MC410 station ACTIVE in the replica, or a program station. -/
def passes (s : Station) (h : Hdr) : Prop :=
  roleIn (cellOf s) h.sender ≠ .mc410 ∨ rosterState (tabs s) h.sender = .active

/-- What every frame that completes at a serving station does to it besides the tables (R7, R9, R10): counted, its sender heard, the
mode, the image, the pins, the encoder counts and the thermal inputs as they were. -/
def counted (s t : Station) (h : Hdr) (n : Nat) : Prop :=
  t.line.lineCount = some (n + 1) ∧ t.line.heard = set1 s.line.heard h.sender ⟨.abs (n + 1), s.now⟩ ∧ t.line.window = none ∧
    t.now = s.now ∧ t.pins = s.pins ∧ t.loader = s.loader ∧ t.motion.enc = s.motion.enc ∧ t.thermal = s.thermal ∧
    t.request.delivered = s.request.delivered

/-- A roster entry that takes the homed and parked flags of a header at line count `n + 1`, stamped where one differs (R21, R22). -/
def flagged (e : RosterEntry) (h : Hdr) (n : Nat) : RosterEntry :=
  { e with homed := h.homed, parked := h.parked, stamp := if e.homed = h.homed ∧ e.parked = h.parked then e.stamp else n + 1 }

/-- The roster after a frame that changes no roster entry but its sender's: that of an MC410 station ACTIVE or JOINING shows the homed and
parked flags of the header, any other stays as it was (R22). -/
def rosterFollows (s t : Station) (h : Hdr) (n : Nat) : Prop :=
  (tabs t).cell = (tabs s).cell ∧ (∀ j, j ≠ h.sender → rosterEntry (tabs t) j = rosterEntry (tabs s) j) ∧
    (roleIn (cellOf s) h.sender = .mc410 → (rosterEntry (tabs s) h.sender).state = .active ∨ (rosterEntry (tabs s) h.sender).state = .joining →
      rosterEntry (tabs t) h.sender = flagged (rosterEntry (tabs s) h.sender) h n) ∧
    (roleIn (cellOf s) h.sender ≠ .mc410 ∨
        ((rosterEntry (tabs s) h.sender).state ≠ .active ∧ (rosterEntry (tabs s) h.sender).state ≠ .joining) →
      rosterEntry (tabs t) h.sender = rosterEntry (tabs s) h.sender)

/-- The tables that a frame leaves as they are, by group. -/
def zonesStay (s t : Station) : Prop := (tabs t).zones = (tabs s).zones ∧ (tabs t).claims = (tabs s).claims
def probesStay (s t : Station) : Prop := (tabs t).probes = (tabs s).probes
def portsStay (s t : Station) : Prop := (tabs t).ports = (tabs s).ports
def boardStays (s t : Station) : Prop := (tabs t).board = (tabs s).board
def latchesStay (s t : Station) : Prop := (tabs t).latches = (tabs s).latches

/-! ### Joining and silence -/

/-- A station that may serve the joiner `k` (R32): not the joiner, of role MC410, ACTIVE, serving no one or the joiner's earlier JOIN. -/
def mayServe (s : Station) (k j : Nat) : Prop :=
  1 ≤ j ∧ j ≤ 14 ∧ j ≠ k ∧ roleIn (cellOf s) j = .mc410 ∧ (rosterEntry (tabs s) j).state = .active ∧
    ((rosterEntry (tabs s) j).serving = none ∨ ∃ m, (rosterEntry (tabs s) j).serving = some (k, m))

/-- The JOIN of station `k` is a rejoin (R31). -/
def rejoins (s : Station) (k : Nat) : Prop :=
  (rosterEntry (tabs s) k).state = .active ∨ (rosterEntry (tabs s) k).state = .silent

/-- A SILENCE of station `k` takes effect (R41): role MC410, ACTIVE, and the count named is the last-heard count, the frame itself heard. -/
def isSilenced (s : Station) (h : Hdr) (k count n : Nat) : Prop :=
  roleIn (cellOf s) k = .mc410 ∧ (rosterEntry (tabs s) k).state = .active ∧
    (at1 (set1 s.line.heard h.sender ⟨.abs (n + 1), s.now⟩) ⟨.none, 0⟩ k).count = .abs count

/-- What station `k` had in the cell is taken away (R41, R64): its zones other than its HOME zone ORPHANED, every other zone that is not FREE
as it was, its claim gone, its thermal entries excluded, its latch empty. -/
def orphaned (s t : Station) (k n : Nat) : Prop :=
  (∀ z < 32, (zoneEntry (tabs s) z).hold = .held k → ¬ (isHome (cellOf s) z = true ∧ (zoneCfg (cellOf s) z).owner = k) →
    zoneEntry (tabs t) z = ⟨.orphaned k, n + 1⟩) ∧
  (∀ z < 32, (zoneEntry (tabs s) z).hold = .held k → isHome (cellOf s) z = true → (zoneCfg (cellOf s) z).owner = k →
    zoneEntry (tabs t) z = zoneEntry (tabs s) z) ∧
  (∀ z < 32, (zoneEntry (tabs s) z).hold ≠ .held k → (zoneEntry (tabs s) z).hold ≠ .free →
    zoneEntry (tabs t) z = zoneEntry (tabs s) z) ∧
  (∀ c ∈ (tabs t).claims, c.claimant ≠ k) ∧
  (∀ e ∈ (tabs t).board, e.station = k → e.excluded = true) ∧ (latchOf (tabs t) k).data = none

/-! ### Zones -/

/-- A mask names a HOME zone of another station. -/
def hitsHome (s : Station) (k : Nat) (mask : ZoneMask) : Prop :=
  ∃ z < 32, mask.getLsbD z = true ∧ isHome (cellOf s) z = true ∧ (zoneCfg (cellOf s) z).owner ≠ k

/-- A zone is HELD at this application by a station whose pending claim names it (R52, R53). -/
def grantedNow (s t : Station) (z n : Nat) : Prop :=
  ∃ c ∈ (tabs s).claims, c.wanted.getLsbD z = true ∧ zoneEntry (tabs t) z = ⟨.held c.claimant, n + 1⟩

/-! ### Ports and probes -/

/-- A probe's record after it is placed at a custody or becomes LOST (R108 step 3): the stale count is 0 and the record stamped. -/
def placed (e : ProbeRec) (cu : Custody) (n : Nat) : ProbeRec := { e with custody := cu, staleRun := 0, stamp := n + 1 }

/-- Port `q` after the old custody of probe `x` is vacated, `q` being no port of the placing (R108 step 1). -/
def vacated (s : Station) (x q n : Nat) : PortEntry :=
  let e := portEntry (tabs s) q
  match (probeRec (tabs s) x).custody with
  | .port j => if j = q then { e with state := .unknown, stamp := n + 1 } else e
  | .transfer j => if j = q ∧ depositOf x e.state = true then { e with state := .unknown, stamp := n + 1 } else e
  | .station _ => if depositOf x e.state = true then { e with state := .empty, stamp := n + 1 } else e
  | .lost => e

/-- Probe `x` is placed at PORT p, every other probe recorded there or in TRANSFER there is LOST, the other probes stay (R108). -/
def placedAtPort (s t : Station) (x p n : Nat) : Prop :=
  probeRec (tabs t) x = placed (probeRec (tabs s) x) (.port p) n ∧
  (∀ y, 1 ≤ y → y ≤ 24 → y ≠ x → (probeRec (tabs s) y).custody = .port p ∨ (probeRec (tabs s) y).custody = .transfer p →
    probeRec (tabs t) y = placed (probeRec (tabs s) y) .lost n) ∧
  (∀ y, 1 ≤ y → y ≤ 24 → y ≠ x → (probeRec (tabs s) y).custody ≠ .port p → (probeRec (tabs s) y).custody ≠ .transfer p →
    probeRec (tabs t) y = probeRec (tabs s) y) ∧
  (∀ q, 1 ≤ q → q ≤ 12 → q ≠ p → portEntry (tabs t) q = vacated s x q n)

/-- Probe `x` becomes LOST and leaves its port `p`, the other probes stay (R108). -/
def lostFrom (s t : Station) (x p n : Nat) : Prop :=
  ((probeRec (tabs s) x).custody ≠ .lost → probeRec (tabs t) x = placed (probeRec (tabs s) x) .lost n) ∧
  ((probeRec (tabs s) x).custody = .lost → probeRec (tabs t) x = probeRec (tabs s) x) ∧
  (∀ y, y ≠ x → probeRec (tabs t) y = probeRec (tabs s) y) ∧
  (∀ q, 1 ≤ q → q ≤ 12 → q ≠ p → portEntry (tabs t) q = vacated s x q n)

/-- Every port but `p` is as it was. -/
def otherPortsStay (s t : Station) (p : Nat) : Prop := ∀ q, q ≠ p → portEntry (tabs t) q = portEntry (tabs s) q

/-- Every probe but `x` is as it was. -/
def otherProbesStay (s t : Station) (x : Nat) : Prop := ∀ y, y ≠ x → probeRec (tabs t) y = probeRec (tabs s) y

/-- Every probe but those of `xs` that was at STATION k is LOST, every other probe but those as it was. -/
def stationCleared (s t : Station) (xs : List Nat) (k : Nat) : Prop :=
  (∀ y, 1 ≤ y → y ≤ 24 → y ∉ xs → (probeRec (tabs s) y).custody = .station k → (probeRec (tabs t) y).custody = .lost) ∧
  (∀ y, y ∉ xs → (probeRec (tabs s) y).custody ≠ .station k → probeRec (tabs t) y = probeRec (tabs s) y)

/-- Every port but `p` is as it was, or a probe has left it: it held one by its custody and is UNKNOWN, or was RESERVED for a deposit and
is EMPTY or UNKNOWN (R108 step 1). -/
def portsFollow (s t : Station) (p n : Nat) : Prop :=
  ∀ q, q ≠ p → portEntry (tabs t) q = portEntry (tabs s) q ∨
    (portEntry (tabs t) q = { portEntry (tabs s) q with state := .unknown, stamp := n + 1 } ∧
      ((∃ x, (probeRec (tabs s) x).custody = .port q) ∨ ∃ k x, (portEntry (tabs s) q).state = .reserved k .deposit x)) ∨
    (portEntry (tabs t) q = { portEntry (tabs s) q with state := .empty, stamp := n + 1 } ∧
      ∃ k x, (portEntry (tabs s) q).state = .reserved k .deposit x)

/-- The values of the counted set (R102): VALID PART entries, not excluded, of stations ACTIVE in the roster. -/
def partValues (r : Replica) : List Int :=
  (r.board.filter (fun e => decide (e.kind = .part ∧ e.state = .valid ∧ e.excluded = false ∧ (rosterEntry r e.station).state = .active))).map
    (·.value)

/-- What the frames of chapters 6 and 7 leave as it is: the line as after any completed frame, zones, claims, thermal board. -/
def tablesElse (s t : Station) (h : Hdr) (n : Nat) : Prop :=
  counted s t h n ∧ rosterFollows s t h n ∧ zonesStay s t ∧ boardStays s t

/-- `q` is the quotient of `a` by `b`, rounded half away from zero (R148). -/
def rounded (a b q : Int) : Prop := 2 * |a - q * b| ≤ b ∧ (2 * |a - q * b| = b → |a| ≤ |q * b|)

/-- A value taken to the nearer end of the signed 32-bit range where it lies outside (R150). -/
def limited (v : Int) : Int := max (-2147483648) (min 2147483647 v)

/-- The scale of a declared axis cannot be corrected for: the board holds no VALID entry of this station for it that is not excluded (R149). -/
def scaleUnknown (s : Station) (ax : Axis) : Prop :=
  ∀ e, boardKind (tabs s) (me s) (scaleKind ax) = some e → e.state ≠ .valid ∨ e.excluded = true

/-- One axis of a correction result (R149 to R151): `used` is its scale temperature, `pos` its corrected coordinate. -/
def axisCorrects (s : Station) (d : PointData) (ax : Axis) (used : Option Int) (pos : Int) : Prop :=
  ∃ p c : Int,
    (∀ e, declared s ax = true → boardKind (tabs s) (me s) (scaleKind ax) = some e → e.state = .valid → e.excluded = false →
      used = some e.value ∧
        rounded (d.counts.get ax * (axisCfg (ownOf s) ax).alpha * e.value) 100000000000 (d.counts.get ax - p)) ∧
    (declared s ax = true → scaleUnknown s ax → used = none ∧ p = d.counts.get ax) ∧
    (declared s ax = true → c = limited ((axisCfg (ownOf s) ax).sign * p + (axisCfg (ownOf s) ax).origin + comp d.copy.off ax)) ∧
    (declared s ax = false → used = none ∧ c = limited (comp d.copy.off ax)) ∧
    (∀ v, (tabs s).partTemp = some v → ∃ q,
      rounded ((c - comp (cellOf s).partRef ax) * (cellOf s).partAlpha * v) 100000000000 (c - q) ∧ pos = limited q) ∧
    ((tabs s).partTemp = none → pos = c)

/-- The correction result of a point closed against the board of `s` (R148 to R152). -/
def corrects (s : Station) (late : Bool) (d : PointData) (k : Correction) : Prop :=
  axisCorrects s d .x k.scaleX k.pos.x ∧ axisCorrects s d .y k.scaleY k.pos.y ∧ axisCorrects s d .z k.scaleZ k.pos.z ∧
    k.part = (tabs s).partTemp ∧
    (k.flags.scaleUncorrected = true ↔
      ∃ ax, (ax = .x ∨ ax = .y ∨ ax = .z) ∧ declared s ax = true ∧ scaleUnknown s ax) ∧
    (k.flags.partUncorrected = true ↔ (tabs s).partTemp = none) ∧ k.flags.partGradient = (tabs s).gradient ∧
    k.flags.tipStale = d.copy.stale ∧ k.flags.thermalLate = late ∧ k.flags.haltDuring = d.haltDuring

/-- A captured point is closed: no longer PENDING, READY or QUEUED with its correction result (R147). -/
def closed (s t : Station) (late : Bool) (d : PointData) : Prop :=
  PointEntry.pending d ∉ t.touch.points ∧
    ∃ k, (PointEntry.ready d k ∈ t.touch.points ∨ PointEntry.queued d k ∈ t.touch.points) ∧ corrects s late d k

/-! ### Requests (chapter 9) -/

/-- A request is the one to take next, at a station that listens (R158). -/
def asks (s : Station) (src : Nat) (tag : Code) (b : ReqBody) : Prop :=
  listening s = true ∧ s.request.delivered.head? = some ⟨src, tag, b⟩

/-- The request is taken and answered into the entry reserved for it, at the tail of the REPORT queue (R5, R15, R159). -/
def answered (s t : Station) (src : Nat) (a : AnswerBody) : Prop :=
  t.request.delivered = s.request.delivered.drop 1 ∧ t.line.reserved = s.line.reserved - 1 ∧
    ∃ l, t.line.report = l ++ [⟨src, .answer a⟩]

/-- What no request and no movement touches inside its own command: time, pins, mode and image, tables, thermal inputs, rack ports, encoder
counts, drive faults, the trigger latch, the line count and the last-heard table. -/
def unitsKeep (s t : Station) : Prop :=
  t.now = s.now ∧ t.pins = s.pins ∧ t.loader = s.loader ∧ t.replica = s.replica ∧ t.thermal = s.thermal ∧ t.rack = s.rack ∧
    t.motion.enc = s.motion.enc ∧ t.motion.fault = s.motion.fault ∧ t.motion.filter = s.motion.filter ∧ t.touch.latch = s.touch.latch ∧
    t.touch.nextSeq = s.touch.nextSeq ∧ t.line.lineCount = s.line.lineCount ∧ t.line.heard = s.line.heard ∧
    t.line.thermal = s.line.thermal ∧ t.line.flight = s.line.flight ∧ t.line.window = s.line.window

/-- A request refused with a reason: answered, and nothing else happens (R159, R160). -/
def refused (s t : Station) (src : Nat) (tag : Code) (code reason : Nat) : Prop :=
  answered s t src ⟨tag, code, false, reason, 0, []⟩ ∧ t = { s with line := t.line, request := t.request } ∧
    t.line.report = s.line.report ++ [⟨src, .answer ⟨tag, code, false, reason, 0, []⟩⟩] ∧ t.line.control = s.line.control ∧
    t.line.thermal = s.line.thermal ∧ t.line.flight = s.line.flight ∧ t.line.lineCount = s.line.lineCount ∧
    t.request.events = s.request.events ∧ t.request.restartPending = s.request.restartPending

/-- Checks 1 to 3 of R160 hold: in the cell and ACTIVE in its roster, not PARKED, no change running and no RESTART accepted. -/
def gateOpen (s : Station) : Prop :=
  serving s = true ∧ (rosterEntry (tabs s) (me s)).state = .active ∧ s.loader.mode ≠ .parked ∧ s.change.state = .idle ∧
    s.request.restartPending = false

/-- A channel takes a segment and has a place for it (checks 6 and 7 of R160). -/
def roomOn (s : Station) (c : ChanId) : Prop :=
  ((chan s c).state = .idle ∨ (chan s c).state = .waitTurn ∨ (chan s c).state = .waitCredit ∨ (chan s c).state = .waitZone ∨
    (chan s c).state = .running) ∧ (chan s c).queue.length < 16

/-- The first condition of a list that does not hold has the reason number `n` (R159, R160). -/
def firstOf : List (Prop × Nat) → Nat → Prop
  | [], _ => False
  | (p, r) :: rest, n => (¬ p ∧ n = r) ∨ (p ∧ firstOf rest n)

/-- Checks 1 to 3 of R160 with their reasons. -/
def gateList (s : Station) : List (Prop × Nat) :=
  [(serving s = true ∧ (rosterEntry (tabs s) (me s)).state = .active, 1), (s.loader.mode ≠ .parked, 2),
    (s.change.state = .idle ∧ s.request.restartPending = false, 3)]

/-- Checks 6 and 7 of R160 with their reasons. -/
def roomList (s : Station) (c : ChanId) : List (Prop × Nat) :=
  [((chan s c).state = .idle ∨ (chan s c).state = .waitTurn ∨ (chan s c).state = .waitCredit ∨ (chan s c).state = .waitZone ∨
      (chan s c).state = .running, 3), ((chan s c).queue.length < 16, 4)]

/-- Checks 9 and 10 of R160 with their reasons. -/
def targetList (s : Station) (k : SegKind) : List (Prop × Nat) :=
  [(limitsHold s (tipOffset s (indexFooting s)) k = true, 6), (zonesAllowed s k = true, 10)]

/-- What a TOUCH must meet (R160, R161). -/
def touchList (s : Station) (a : TouchArgs) : List (Prop × Nat) :=
  gateList s ++ [(a.dir ≠ ⟨0, 0, 0⟩ ∧ 50 ≤ a.approach ∧ a.approach ≤ 1000 ∧ 50 ≤ a.retract ∧ a.retract ≤ 2000 ∧ 5 ≤ a.probing ∧
      a.probing ≤ 200 ∧ 1 ≤ a.speed ∧ a.speed ≤ 500 ∧ (ownOf s).axes ≠ [], 5), (allHomed s = true, 7)] ++ roomList s .arm ++
    [(∃ x, mounted s = some x, 8), (∀ x, mounted s = some x → (probeRec (tabs s) x).cond = .usable, 9),
      (∃ e, currentEntry s (indexFooting s) = some e, 9)] ++ targetList s (.touch a)

/-- What a HOME must meet (R160): its field is 0 for ARM and 1 for HEAD. -/
def homeList (s : Station) (n : Nat) : List (Prop × Nat) :=
  gateList s ++ [(n ≤ 1 ∧ chanAxes s (if n = 0 then .arm else .head) ≠ [], 5)] ++ roomList s (if n = 0 then .arm else .head)

/-- What an INDEX must meet (R160). -/
def indexList (s : Station) (a : Nat) (b : Int) : List (Prop × Nat) :=
  gateList s ++ [(a ≤ 14 ∧ -24 ≤ b ∧ b ≤ 24 ∧ chanAxes s .head ≠ [], 5), (allHomed s = true, 7)] ++ roomList s .head ++
    targetList s (.index a b)

/-- What a CHANGE to probe `x` must meet (R122, R164). -/
def changeList (s : Station) (x : Nat) : List (Prop × Nat) :=
  [(s.request.restartPending = false, 3), (serving s = true ∧ (rosterEntry (tabs s) (me s)).state = .active, 1), (s.loader.mode ≠ .parked, 2),
    (isArm s = true ∧ inUse (cellOf s) x = true ∧ (probeRec (tabs s) x).custody ≠ .station (me s), 5),
    (s.change.state = .idle ∧ s.motion.arm.state = .idle ∧ s.motion.head.state = .idle, 3), (allHomed s = true, 7),
    (rosterState (tabs s) (cellOf s).rackStation = .active, 11),
    (∀ p, p ≠ 0 → (probeRec (tabs s) x).custody = .port p → ∀ k w y, (portEntry (tabs s) p).state ≠ .reserved k w y, 11),
    (∃ p, p ≠ 0 ∧ (probeRec (tabs s) x).custody = .port p ∧ (portEntry (tabs s) p).state = .occupied x, 13),
    (∀ m, mounted s = some m → (portEntry (tabs s) (probeCfg (cellOf s) m).home).state = .empty, 12),
    (∀ p, (probeRec (tabs s) x).custody = .port p →
      meets (routeSet s (depositPlan s) x p) (othersHomeMask (cellOf s) (me s)) = false, 10)]

/-- What a QUALIFY must meet (R132, R164). -/
def qualifyList (s : Station) (x i n : Nat) (e : Tip) : List (Prop × Nat) :=
  [(s.request.restartPending = false, 3), (serving s = true, 1), (s.change.state = .idle, 3),
    (1 ≤ n ∧ n ≤ 6 ∧ 1 ≤ i ∧ i ≤ n ∧ 1 ≤ e.tip ∧ e.tip ≤ 5 ∧ e.a ≤ 14 ∧ -24 ≤ e.b ∧ e.b ≤ 24 ∧
      (chanAxes s .head = [] → e.a = 0 ∧ e.b = 0), 5),
    (1 ≤ x ∧ x ≤ 24 ∧ (probeRec (tabs s) x).custody = .station (me s), 8),
    (i = n → ∃ b, boardKind (tabs s) (me s) .head = some b ∧ b.state = .valid ∧ b.excluded = false, 14),
    (controlHeld s.line + (if i = n then 2 else 1) ≤ 7, 4)]

/-- What a PARK must meet (R89, R162): in PARKED mode no more than that it is not to restart. -/
def parkList (s : Station) : List (Prop × Nat) :=
  [(s.request.restartPending = false, 3), (serving s = true, 1), (s.loader.mode ≠ .parked → s.change.state = .idle, 3),
    (s.loader.mode ≠ .parked → (ownOf s).axes ≠ [] →
      (s.motion.arm.state = .idle ∨ s.motion.arm.state = .halted) ∧ (s.motion.head.state = .idle ∨ s.motion.head.state = .halted), 3),
    (s.loader.mode ≠ .parked → (ownOf s).axes ≠ [] → allHomed s = true, 7),
    (s.loader.mode ≠ .parked → (ownOf s).axes ≠ [] → ∃ z < 32, isHome (cellOf s) z = true ∧ (zoneCfg (cellOf s) z).owner = me s ∧
      inBox (zoneCfg (cellOf s) z).box (currentTip s) = true, 6)]

/-- Numbers written one after the other, each with its size in bytes, most significant byte first (11.4). -/
def packed (fields : List (Nat × Nat)) : List Byte :=
  fields.flatMap fun f => (List.range f.1).map fun i => BitVec.ofNat 8 (f.2 / 256 ^ (f.1 - 1 - i))

/-- A flag as it is written (R178). -/
def flag (b : Bool) : Nat := if b = true then 1 else 0

/-- The segment of a request as it enters its queue (R74). -/
def newSegment (s : Station) (kind : SegKind) (tag : Code) (recovery : Bool) (speed : Nat) : Segment :=
  { acc := s.motion.nextAcc, kind := kind, origin := .request tag, recovery := recovery, speed := speed, phase := .approach
    zoneSet := none, axisTarget := none, credit := false, haltSeen := false, quietStop := false, marks := .all false, checked := none }

/-- The head segment of channel `c` keeps the lead: it waits for a credit or for its zones, and the other channel's is a later one (R75). -/
def leadWaits (s : Station) (c : ChanId) : Prop :=
  ((chan s c).state = .waitCredit ∨ (chan s c).state = .waitZone) ∧
    ∃ g, (chan s c).queue.head? = some g ∧ g.acc < s.motion.nextAcc ∧ ∀ d h, d ≠ c → (chan s d).queue.head? = some h → g.acc < h.acc

/-- A segment is accepted on a channel: the answer carries its acceptance number, the next one rises, and while anything moves, or a leading
segment waits for a credit or for its zones, it waits at the tail of the channel's queue (R74, R75, R160). -/
def segmentTaken (s t : Station) (src : Nat) (tag : Code) (code : Nat) (c : ChanId) (g : Segment) : Prop :=
  answered s t src ⟨tag, code, true, 0, s.motion.nextAcc, []⟩ ∧ t.motion.nextAcc = s.motion.nextAcc + 1 ∧ unitsKeep s t ∧
    (movingState s.motion.arm.state = true ∨ movingState s.motion.head.state = true ∨ leadWaits s .arm ∨ leadWaits s .head →
      (chan t c).queue = (chan s c).queue ++ [g] ∧
        (chan t c).state = (if (chan s c).state = .idle then .waitTurn else (chan s c).state))

/-- Both channels are IDLE with nothing queued. -/
def allIdle (s : Station) : Prop :=
  s.motion.arm.state = .idle ∧ s.motion.arm.queue = [] ∧ s.motion.head.state = .idle ∧ s.motion.head.queue = []

/-- The first segment of an idle station: it runs where every zone of its set is held; where one is missing it waits for its zones, with a
ZONE_CLAIM offered where no earlier claim is outstanding (R48, R49, R80). -/
def startsOrWaits (s t : Station) (c : ChanId) (g : Segment) (set : ZoneMask) (prio : Prio) : Prop :=
  (∀ d, d ≠ c → chan t d = chan s d) ∧ (chan t c).queue = [{ g with zoneSet := some set }] ∧
    (holdsAll s set = true → (chan t c).state = .running) ∧
    (holdsAll s set = false → (chan t c).state = .waitZone ∧
      (s.motion.outstanding = .none → controlHeld s.line < 7 → (∀ w ∈ s.line.waiting, w.src ≠ .claim) →
        t.line.control = s.line.control ++ [⟨0, .zoneClaim set prio⟩] ∧ t.motion.outstanding = .taken))

/-! ### Events at the pins and timers -/

/-- What an event at the pins or a timer leaves beside what `unitsKeep` names: the requests delivered, the restart owed, the reservations. -/
def eventKeeps (s t : Station) : Prop :=
  unitsKeep s t ∧ t.request.delivered = s.request.delivered ∧ t.request.restartPending = s.request.restartPending ∧
    t.line.reserved = s.line.reserved

/-- An event is queued with the next event number: it stands in the list or as a frame in the REPORT queue (R165, R166). -/
def eventQueued (s t : Station) (e : Event) : Prop :=
  t.request.nextEvent = (s.request.nextEvent + 1) % 65536 ∧
    (s.request.events.length < 8 → (s.request.nextEvent, e) ∈ t.request.events ∨
      ∃ d, (⟨d, .event (eventBody s.request.nextEvent e)⟩ : Outgoing) ∈ t.line.report)

/-- No change runs and none is failing. -/
def noChange (s : Station) : Prop := s.change.state = .idle ∧ s.change.failing = none

/-- A channel that nothing is queued on stays as it is. -/
def emptyStays (s t : Station) (c : ChanId) : Prop := (chan s c).queue = [] → chan t c = chan s c

/-- A cause of R84 meets channel `c`: an enabled one is STALLED with that cause and nothing queued, any other stays with everything else; with no
change running and the other channel empty the event is queued and the homed flags stay. -/
def stallsBy (s t : Station) (c : ChanId) (cause : StallCause) : Prop :=
  eventKeeps s t ∧ emptyStays s t (otherChan c) ∧
    (enabledState (chan s c).state = true → chan t c = ⟨.stalled, [], some cause⟩) ∧
    (enabledState (chan s c).state = false → t = s) ∧
    (enabledState (chan s c).state = true → noChange s → (chan s (otherChan c)).queue = [] →
      eventQueued s t (.channelStalled c cause (tagOf (headSeg s c))) ∧ t.motion.homed = s.motion.homed ∧ t.change = s.change)

/-- A running change fails with a cause while both channels are idle (R128): its record is gone, the cause kept, CHANGE_FAILED queued, and a
PORT_ABANDON offered for every port of the rack that the replica shows RESERVED by this station. -/
def changeFails (s t : Station) (cause : ChangeCause) : Prop :=
  t.change = Changer.idleWith s.change.output (some cause) ∧
    t.motion.arm = s.motion.arm ∧ t.motion.head = s.motion.head ∧ eventKeeps s t ∧
    eventQueued s t (.changeFailed s.change.tag cause) ∧
    ∀ p, 1 ≤ p → p ≤ 12 → reservedHere s p = true →
      (⟨0, .portAbandon p (maybeInside s.change.state)⟩ : Outgoing) ∈ t.line.control ∨
        (⟨.change, ⟨0, .portAbandon p (maybeInside s.change.state)⟩⟩ : Waiting) ∈ t.line.waiting

/-- A CONTROL frame is offered: it joins the queue where one of the seven places is free and the unit keeps none already, and is kept otherwise (R11,
R12). -/
def offered (s t : Station) (src : CtlSource) (b : Body) : Prop :=
  (controlHeld s.line < 7 → (∀ w ∈ s.line.waiting, w.src ≠ src) → (⟨0, b⟩ : Outgoing) ∈ t.line.control) ∧
    (7 ≤ controlHeld s.line → (⟨src, ⟨0, b⟩⟩ : Waiting) ∈ t.line.waiting)

/-- The ARM channel can take and pass a segment of the Change Sequencer to an arm position: both channels idle and empty, every axis homed, the position
within the limits, no other station's HOME zone in the way. -/
def armFree (s : Station) (v : Vec3) : Prop :=
  allIdle s ∧ allHomed s = true ∧ limitsHold s ⟨0, 0, 0⟩ (.armTraverse v) = true ∧
    meets (zoneSetFrom s (currentTip s) (clearance s) (.armTraverse v)) (othersHomeMask (cellOf s) (me s)) = false

/-- Nothing in the start sequence stops the ARM channel on its way to an arm position: every axis homed, the position within the limits, no
other station's HOME zone in the way. -/
def armMayGo (u : Station) (v : Vec3) : Prop :=
  allHomed u = true ∧ limitsHold u ⟨0, 0, 0⟩ (.armTraverse v) = true ∧
    meets (zoneSetFrom u (currentTip u) (clearance u) (.armTraverse v)) (othersHomeMask (cellOf u) (me u)) = false

/-- The ARM channel has the Change Sequencer's segment to an arm position, and moves or waits for its zones. -/
def armGoes (t : Station) (v : Vec3) (runOn : Bool) : Prop :=
  (∃ g, t.motion.arm.queue = [g] ∧ g.kind = .armTraverse v ∧ g.origin = .sequencer runOn ∧ g.speed = (cellOf t).rackSpeed) ∧
    (t.motion.arm.state = .running ∨ t.motion.arm.state = .waitZone)

/-- An event stands in the event list, or as a frame in the REPORT queue, under the event number that was next. -/
def eventThere (s t : Station) (e : Event) : Prop :=
  s.request.events.length < 8 → (s.request.nextEvent, e) ∈ t.request.events ∨
    ∃ d, (⟨d, .event (eventBody s.request.nextEvent e)⟩ : Outgoing) ∈ t.line.report

/-- The ARM channel has taken a segment of the Change Sequencer to an arm position: it moves, or waits for its zones. -/
def armSent (s t : Station) (v : Vec3) (runOn : Bool) : Prop :=
  (∃ g, t.motion.arm.queue = [g] ∧ g.kind = .armTraverse v ∧ g.origin = .sequencer runOn ∧ g.speed = (cellOf s).rackSpeed) ∧
    t.motion.head = s.motion.head ∧
    t.motion.arm.state = if holdsAll s (zoneSetFrom s (currentTip s) (clearance s) (.armTraverse v)) = true then .running else .waitZone

end Sys2Proof.Says

open Sys2Proof Sys2Proof.Machine
/-! ### The queue and the step -/

/-- O1. The command at the front of the queue acts with the queue's rest (the queue is the model's, log 1). -/
def Obligations.StepRunsFront : Prop :=
  ∀ (c : Instr) (rest : List Instr) (s : State),
    step { s with pending := c :: rest } = exec c { s with pending := rest }

/-- O2. On an empty queue 1 ms passes and nothing else happens (the model's choice, log 1). -/
def Obligations.StepIdlesOnEmptyQueue : Prop :=
  ∀ s : State, s.pending = [] → step s = .next { s with stn := { s.stn with now := s.stn.now + 1 } }

/-- O3. Every command answers a next state and leaves the queue as it is: OUT and SHUT are modes, not stops (log 3). -/
def Obligations.EveryCommandAnswersNext : Prop :=
  ∀ (c : Instr) (s : State), ∃ t : State, exec c s = .next t ∧ t.pending = s.pending

/-! ### Sizes and the served cell: what every step keeps -/

/-- O4. The station in reset keeps every store and every table to its size, its point list and its channels agreeing. -/
def Obligations.ResetKeepsSizes : Prop := Bounded State.reset.stn ∧ Sized State.reset.stn ∧ CreditsOk State.reset.stn

/-- O5. Every step keeps every bounded store to its size: 7 and 1 CONTROL frames, 16 REPORT entries with a reservation for each
request delivered, 12 POINT frames, 256 windows, 128 caught-up frames, 16 segments a channel, 8 samples, 24 points, 8 events; and one RESERVED
entry of the point list at most, the credit of the TOUCH at the head of the ARM queue (R79, R143, R144). At a station that
goes on serving it keeps the shared lists as R51, R98 and R130 want them, which bound them by 10 claims, 80 thermal entries and 6 tip
entries a probe in a cell of at most ten stations of role MC410; formation makes them so. -/
def Obligations.StepKeepsBounds : Prop :=
  (∀ s t : State, Bounded s.stn → step s = .next t → Bounded t.stn) ∧
  (∀ s t : State, CreditsOk s.stn → step s = .next t → CreditsOk t.stn ∧ reservedPoints t.stn ≤ 1) ∧
  (∀ s t : State, serving s.stn = true → Serves s.stn → ListsOk (cellOf s.stn) (tabs s.stn) → step s = .next t → serving t.stn = true →
    ListsOk (cellOf t.stn) (tabs t.stn)) ∧
  (∀ (c : CellPart) (r : Replica), StationsOk c → ListsOk c r →
    r.claims.length ≤ 10 ∧ r.board.length ≤ 80 ∧ ∀ x, (probeRec r x).tips.length ≤ 6) ∧
  (∀ (c : CellPart) (fp : Print) (mask : StationMask), ListsOk c (formedReplica c fp mask))

/-- O6. Every step keeps the shared tables, the pending replica and the station's own tables to their sizes. -/
def Obligations.StepKeepsTableSizes : Prop :=
  ∀ s t : State, Sized s.stn → step s = .next t → Sized t.stn

/-- O7. A station that serves the cell goes on with a formed replica, a line count and every HOME zone HELD by its owner, for as long
as it serves; and the custody of the probes goes on agreeing with the port table (R107), as it does at formation. -/
def Obligations.StepKeepsServing : Prop :=
  (∀ s t : State, serving s.stn = true → Serves s.stn → step s = .next t → Serves t.stn) ∧
  (∀ s t : State, serving s.stn = true → Serves s.stn → Sized s.stn → (cellOf s.stn).ports.length ≤ 12 → (cellOf s.stn).probes.length ≤ 24 →
    Agrees (tabs s.stn) → step s = .next t → serving t.stn = true → Agrees (tabs t.stn)) ∧
  (∀ (c : CellPart) (fp : Print) (mask : StationMask), Agrees (formedReplica c fp mask))

/-! ### Reset, start and the modes (chapter 10) -/

/-- O8. Right after power is applied the station is held in reset with its outputs low, no command waiting, and the power-on values that R20,
R21, R23, R43, R90, R95, R110, R122, R133, R157, R167 and R174 give, those listed here. -/
def Obligations.ResetState : Prop :=
  State.reset.pending = [] ∧ State.reset.stn.loader.held = true ∧
  driveEnable State.reset.stn = false ∧ stationOk State.reset.stn = false ∧
  -- R20
  State.reset.stn.line.control = [] ∧ State.reset.stn.line.thermal = none ∧ State.reset.stn.line.report = [] ∧
  State.reset.stn.line.flight = none ∧ State.reset.stn.line.reserved = 0 ∧ State.reset.stn.line.drain = false ∧
  State.reset.stn.line.runCount = 0 ∧ State.reset.stn.line.retry = 0 ∧ State.reset.stn.line.vetoLog = [] ∧
  State.reset.stn.line.lineCount = none ∧ State.reset.stn.line.joinOffset = 0 ∧
  (∀ e ∈ State.reset.stn.line.heard, e.count = .none) ∧
  -- R21, R23, R43, R133
  (∀ e ∈ (tabs State.reset.stn).roster, e.state = .unseen ∧ e.serving = none ∧ e.stamp = 0) ∧
  (tabs State.reset.stn).cell.formed = false ∧ State.reset.stn.replica.joinNumber = 0 ∧
  (∀ l ∈ (tabs State.reset.stn).latches, l.data = none) ∧
  -- R90, R95, R110, R122, R157, R167, R174
  State.reset.stn.motion.enc = .all 0 ∧ State.reset.stn.motion.homed = .all false ∧
  State.reset.stn.motion.arm.state = .disabled ∧ State.reset.stn.motion.head.state = .disabled ∧
  State.reset.stn.motion.nextAcc = 1 ∧ State.reset.stn.motion.outstanding = .none ∧
  (∀ i ∈ State.reset.stn.thermal.inputs, i.window = [] ∧ i.state = .settling) ∧
  (∀ p ∈ State.reset.stn.rack, p.lock = .locked) ∧ State.reset.stn.change.state = .idle ∧
  (∀ e ∈ State.reset.stn.touch.points, e = .free) ∧ State.reset.stn.touch.nextSeq = 0 ∧
  State.reset.stn.request.events = [] ∧ State.reset.stn.request.overflow = false ∧ State.reset.stn.request.discards = 0 ∧
  State.reset.stn.request.nextEvent = 0 ∧ State.reset.stn.request.restartPending = false ∧
  State.reset.stn.request.delivered = [] ∧ State.reset.stn.loader.outRecord = []

/-- O9. RESET asserted: whatever the station was doing, it is held with every unit at its power-on values, the coupling output
following its sensor, its outputs low (R168). Time, the levels at the pins and the queue of commands stay. -/
def Obligations.ResetAssertHolds : Prop :=
  ∀ s : State, ∃ t : State, exec .resetAssert s = .next t ∧ t.pending = s.pending ∧ t.stn.now = s.stn.now ∧
    t.stn.pins = s.stn.pins ∧ t.stn.loader.held = true ∧ driveEnable t.stn = false ∧ stationOk t.stn = false ∧
    (∀ ax, axisEnable t.stn ax = false) ∧ t.stn.change = Changer.idleWith s.stn.pins.sensor none ∧
    t.stn.line = LinePort.reset ∧ t.stn.replica = ReplicaUnit.reset ∧ t.stn.motion = MotionUnit.reset ∧
    t.stn.touch = TouchUnit.reset ∧ t.stn.thermal = ThermalUnit.reset ∧ t.stn.rack = rackReset ∧
    t.stn.request = RequestUnit.reset ∧ t.stn.loader.outRecord = []

/-- O10. RESET released: the straps are sampled. 1 to 14 is the station number and the station loads with cause POWER_ON; 0 and 15
send it SHUT with reason STRAP. Released while not held, nothing happens (log 3). -/
def Obligations.ResetReleaseSamplesStraps : Prop :=
  ∀ (straps : Nat) (s : State), straps < 16 → ∃ t : State, exec (.resetRelease straps) s = .next t ∧ t.pending = s.pending ∧
    (s.stn.loader.held = false → t = s) ∧
    (s.stn.loader.held = true →
      t.stn.loader.held = false ∧ t.stn.loader.cause = .powerOn ∧ t.stn.loader.number = straps ∧
      (1 ≤ straps → straps ≤ 14 → t.stn.loader.mode = .loading ∧ t.stn.line = s.stn.line ∧ t.stn.replica = s.stn.replica) ∧
      (straps = 0 ∨ straps = 15 → t.stn.loader.mode = .shut ∧ t.stn.loader.shutReason = some .strap))

/-- O11. An image that passes the Loader's checks: the station holds it with its fingerprint, enters JOINING, starts sampling and
offers its first JOIN, which an empty CONTROL queue takes. The first sample falls due 100 ms later, the model's choice (log 32). -/
def Obligations.GoodImageStartsJoining : Prop :=
  ∀ (bytes : List Byte) (s : State) (im : Image) (fp : Print),
    s.stn.loader.held = false → s.stn.loader.mode = .loading → s.stn.line = LinePort.reset → s.stn.replica = ReplicaUnit.reset →
    judgeImage bytes s.stn.loader.number = .good im fp →
    ∃ t : State, exec (.imageReadComplete bytes) s = .next t ∧ t.pending = s.pending ∧
      t.stn.loader.mode = .joining ∧ t.stn.loader.image = im ∧ t.stn.loader.fingerprint = fp ∧
      driveEnable t.stn = false ∧ stationOk t.stn = true ∧ (tabs t.stn).cell.formed = false ∧
      t.stn.replica.joinNumber = 1 ∧ t.stn.replica.cellExists = false ∧ t.stn.replica.service = none ∧
      t.stn.replica.catchUp = [] ∧ t.stn.replica.formWait = none ∧ t.stn.replica.joinRetry = none ∧
      t.stn.line.control = [⟨0, .join fp s.stn.loader.cause 1⟩] ∧
      t.stn.thermal.sampleDue = some (s.stn.now + 100) ∧ t.stn.motion = s.stn.motion

/-- O12. An image that the Loader's checks refuse sends the station SHUT with the reason of the first check that fails: IMAGE where a
step of R170 or a size of R179 fails, else ROLE where the role byte is not that of an MC410, else RANGE. An image with a code outside its
enumeration, which `readImage` refuses, counts as out of range: the model's choice (log 16). -/
def Obligations.RefusedImageShuts : Prop :=
  ∀ (bytes : List Byte) (s : State), s.stn.loader.held = false → s.stn.loader.mode = .loading →
    ∃ t : State, exec (.imageReadComplete bytes) s = .next t ∧
      (imageGood (memory bytes) = false → t.stn.loader.mode = .shut ∧ t.stn.loader.shutReason = some .image) ∧
      (imageGood (memory bytes) = true → roleGood (memory bytes) s.stn.loader.number = false →
        t.stn.loader.mode = .shut ∧ t.stn.loader.shutReason = some .role) ∧
      (imageGood (memory bytes) = true → roleGood (memory bytes) s.stn.loader.number = true →
        (∀ im ∈ readImage (memory bytes), rangeGood im s.stn.loader.number = false) →
        t.stn.loader.mode = .shut ∧ t.stn.loader.shutReason = some .range)

/-- O13. The OUT hold-off runs out: a self restart. Encoder counts, homed flags and the repeated-OUT record stay, the line, the
replica, the channels, the points, the requests, the rack locks and the coupling output take their restart values, and the straps, which the
command brings (log 5), are read afresh (R168, R169, R175). The moment is the timer's (log 4). -/
def Obligations.HoldOffRestarts : Prop :=
  ∀ (straps : Nat) (s : State) (due : Nat), s.stn.loader.mode = .out → s.stn.loader.held = false → s.stn.loader.holdOff = some due →
    ∃ t : State, exec (.outHoldOffExpiry straps) s = .next t ∧ t.pending = s.pending ∧
      t.stn.now = max s.stn.now due ∧ t.stn.pins = { s.stn.pins with straps := straps % 16 } ∧ t.stn.loader.cause = .self ∧
      t.stn.loader.number = straps % 16 ∧ t.stn.loader.holdOff = none ∧
      t.stn.loader.outRecord = s.stn.loader.outRecord ∧ t.stn.motion.enc = s.stn.motion.enc ∧ t.stn.motion.homed = s.stn.motion.homed ∧
      t.stn.line = LinePort.reset ∧ t.stn.replica = ReplicaUnit.reset ∧ t.stn.motion.arm = .disabled ∧
      t.stn.motion.head = .disabled ∧ t.stn.touch.points = TouchUnit.reset.points ∧ t.stn.touch.nextSeq = 0 ∧
      t.stn.request = RequestUnit.reset ∧ (∀ p ∈ t.stn.rack, p.lock = .locked) ∧ t.stn.change.output = s.stn.pins.sensor ∧
      t.stn.loader.mode = if straps % 16 = 0 ∨ straps % 16 = 15 then .shut else .loading

/-- O14. The outputs that follow the mode, in every state (R172). -/
def Obligations.OutputsFollowMode : Prop :=
  ∀ s : Station,
    (driveEnable s = true ↔ s.loader.held = false ∧ s.loader.mode = .active ∧ (ownOf s).axes ≠ []) ∧
    (stationOk s = true ↔ s.loader.held = false ∧
      (s.loader.mode = .joining ∨ s.loader.mode = .active ∨ s.loader.mode = .parked)) ∧
    (∀ ax, axisEnable s ax = true → driveEnable s = true)

/-- O15. The Request Unit's state across resets (R167): power-on and the RESET pin, a restart, and entering OUT or SHUT. -/
def Obligations.RequestUnitAcrossResets : Prop :=
  (∀ s : Station, (holdInReset s).request = RequestUnit.reset) ∧
  (∀ (s : Station) (c : ResetCause), (restart s c).request = RequestUnit.reset) ∧
  (∀ (s : Station) (c : OutCause), (enterOut s c).request = RequestUnit.reset) ∧
  (∀ (s : Station) (r : ShutReason), (enterShut s r).request = RequestUnit.reset) ∧
  RequestUnit.reset.events = [] ∧ RequestUnit.reset.overflow = false ∧ RequestUnit.reset.discards = 0 ∧
  RequestUnit.reset.nextEvent = 0 ∧ RequestUnit.reset.restartPending = false ∧ RequestUnit.reset.delivered = []

/-- O16. The Line Port's state across resets (R20), and its silence in OUT (R1). -/
def Obligations.LinePortAcrossResets : Prop :=
  (∀ s : Station, (holdInReset s).line = LinePort.reset) ∧
  (∀ (s : Station) (c : ResetCause), (restart s c).line = LinePort.reset) ∧
  (∀ (s : Station) (c : OutCause),
    (enterOut s c).line = { LinePort.reset with retry := s.line.retry, vetoLog := s.line.vetoLog } ∧
    listening (enterOut s c) = false) ∧
  LinePort.reset.control = [] ∧ LinePort.reset.thermal = none ∧ LinePort.reset.report = [] ∧ LinePort.reset.flight = none ∧
  LinePort.reset.reserved = 0 ∧ LinePort.reset.window = none ∧ LinePort.reset.drain = false ∧ LinePort.reset.runCount = 0 ∧
  LinePort.reset.retry = 0 ∧ LinePort.reset.vetoLog = [] ∧ LinePort.reset.lineCount = none ∧ LinePort.reset.joinOffset = 0 ∧
  (∀ e ∈ LinePort.reset.heard, e.count = .none)

/-! ### The line (chapter 1) -/

/-- O17. At a quiet moment the arbiter picks by its mode and its escapes (R16, R17); with nothing queued nothing contends. -/
def Obligations.ArbiterOrder : Prop :=
  ∀ s : State, listening s.stn = true → s.stn.line.flight = none → s.stn.line.window = none →
    ∃ t : State, exec .quietMomentContend s = .next t ∧ t.pending = s.pending ∧ t.stn = { s.stn with line := t.stn.line } ∧
      (∀ v, s.stn.line.thermal = some v → v.since + (cellOf s.stn).period ≤ s.stn.now →
        Says.contends t.stn.line v.item v.since ∧ t.stn.line.thermal = none ∧ t.stn.line.control = s.stn.line.control ∧
          t.stn.line.report = s.stn.line.report) ∧
      (Says.noAge s.stn → s.stn.line.drain = false →
        (∀ o r, s.stn.line.control = o :: r → Says.contends t.stn.line o s.stn.now ∧ t.stn.line.control = r ∧
          t.stn.line.thermal = s.stn.line.thermal ∧ t.stn.line.report = s.stn.line.report) ∧
        (∀ v, s.stn.line.control = [] → s.stn.line.thermal = some v → Says.contends t.stn.line v.item v.since ∧
          t.stn.line.thermal = none ∧ t.stn.line.report = s.stn.line.report) ∧
        (∀ o r, s.stn.line.control = [] → s.stn.line.thermal = none → s.stn.line.report = o :: r →
          Says.contends t.stn.line o s.stn.now ∧ t.stn.line.report = r)) ∧
      (Says.noAge s.stn → s.stn.line.drain = true →
        (∀ o r, 4 ≤ s.stn.line.runCount → s.stn.line.control = o :: r → Says.contends t.stn.line o s.stn.now ∧
          t.stn.line.control = r ∧ t.stn.line.report = s.stn.line.report) ∧
        (∀ o r, s.stn.line.runCount < 4 ∨ s.stn.line.control = [] → s.stn.line.report = o :: r →
          Says.contends t.stn.line o s.stn.now ∧ t.stn.line.report = r ∧ t.stn.line.control = s.stn.line.control) ∧
        (∀ o r, s.stn.line.report = [] → s.stn.line.control = o :: r → Says.contends t.stn.line o s.stn.now ∧
          t.stn.line.control = r) ∧
        (∀ v, s.stn.line.report = [] → s.stn.line.control = [] → s.stn.line.thermal = some v →
          Says.contends t.stn.line v.item v.since ∧ t.stn.line.thermal = none)) ∧
      (s.stn.line.control = [] → s.stn.line.thermal = none → s.stn.line.report = [] → t = s)

/-- O18. The access prefix: a contender of a lower class, or of the same class and a lower number, makes the station withdraw, its
CONTROL or REPORT frame back at the head of its queue, a ZONE_RELEASE merging with a newer one that waits there, its THERMAL in the slot, and
no veto counted; otherwise the frame is sent with the flags of that moment (R2, R3, R13, R14). A ZONE_RELEASE that is offered joins the
tail or merges into the one queued (R13). -/
def Obligations.PrefixDecides : Prop :=
  (∀ (others : List (FrameClass × Nat)) (s : State) (v : Flight),
    listening s.stn = true → s.stn.line.flight = some v → v.stage = .contending →
    ∃ t : State, exec (.accessPrefixEnd others) s = .next t ∧ t.pending = s.pending ∧
      t.stn.line.retry = s.stn.line.retry ∧ t.stn.line.vetoLog = s.stn.line.vetoLog ∧ t.stn.line.lineCount = s.stn.line.lineCount ∧
      tabs t.stn = tabs s.stn ∧
      ((∃ o ∈ others, Says.ahead o (Body.cls v.item.body, me s.stn)) →
        t.stn.line.flight = none ∧
        (Body.cls v.item.body = .control → Body.isRelease v.item.body = false → t.stn.line.control = v.item :: s.stn.line.control) ∧
        (Body.isRelease v.item.body = true → Says.releaseBack v.item s.stn.line.control t.stn.line.control) ∧
        (Body.cls v.item.body = .report → t.stn.line.report = v.item :: s.stn.line.report) ∧
        (Body.cls v.item.body = .thermal → Says.thermalBack v s.stn.line.thermal t.stn.line.thermal)) ∧
      ((∀ o ∈ others, ¬ Says.ahead o (Body.cls v.item.body, me s.stn)) →
        t.stn.line.control = s.stn.line.control ∧ t.stn.line.thermal = s.stn.line.thermal ∧ t.stn.line.report = s.stn.line.report ∧
        t.stn.line.flight = some { v with
          stage := .sending
          wire := putFrame ⟨⟨me s.stn, v.item.dest, serving s.stn, decide (s.stn.loader.mode = .parked), allHomed s.stn,
            isRack s.stn, decide (s.stn.loader.mode = .joining)⟩, v.item.body⟩ })) ∧
  (∀ (lp : LinePort) (mask : ZoneMask) (withdraw : Bool),
    offerReleaseTo lp mask withdraw = { lp with control := (offerReleaseTo lp mask withdraw).control } ∧
      Says.releaseJoins mask withdraw lp.control (offerReleaseTo lp mask withdraw).control)

/-- O19. Reception: a CHECK veto on bytes that end before the length in their header, or whose check is wrong; a reservation or a BUSY veto for a
well-formed REQUEST addressed here; and no veto otherwise, whatever the format (R4, R5, R8, R176). Nothing is counted and nothing is handed on
before the window closes. -/
def Obligations.ReceptionOpensWindow : Prop :=
  ∀ (bytes : List Byte) (s : State), listening s.stn = true → s.stn.line.window = none →
    ∃ t : State, exec (.frameReceived bytes) s = .next t ∧ t.pending = s.pending ∧ t.stn = { s.stn with line := t.stn.line } ∧
      t.stn.line.control = s.stn.line.control ∧ t.stn.line.thermal = s.stn.line.thermal ∧ t.stn.line.report = s.stn.line.report ∧
      t.stn.line.lineCount = s.stn.line.lineCount ∧ t.stn.line.heard = s.stn.line.heard ∧
      t.stn.line.vetoLog = s.stn.line.vetoLog ∧ t.stn.line.retry = s.stn.line.retry ∧
      (bytes.length < 4 ∨ bytes.length < (bytes.getD 3 0).toNat + 8 →
        t.stn.line.window = some ⟨none, some .check, false⟩ ∧ t.stn.line.reserved = s.stn.line.reserved) ∧
      (∀ head body check rest, bytes = head ++ body ++ check ++ rest → head.length = 4 → body.length = (head.getD 3 0).toNat →
        check.length = 4 →
        (check ≠ putPrint (check32 (head ++ body)) →
          t.stn.line.window = some ⟨none, some .check, false⟩ ∧ t.stn.line.reserved = s.stn.line.reserved) ∧
        (check = putPrint (check32 (head ++ body)) → Says.headerBroken (cellOf s.stn) head →
          t.stn.line.window = some ⟨none, none, false⟩ ∧ t.stn.line.reserved = s.stn.line.reserved) ∧
        (check = putPrint (check32 (head ++ body)) → ∀ w, t.stn.line.window = some w → w.veto ≠ some .check)) ∧
      (receive (cellOf s.stn) bytes = .malformed →
        t.stn.line.window = some ⟨none, none, false⟩ ∧ t.stn.line.reserved = s.stn.line.reserved) ∧
      (∀ f, receive (cellOf s.stn) bytes = .good f →
        (Body.isRequest f.body = true ∧ (f.h.dest = 0 ∨ f.h.dest = me s.stn) →
          (1 ≤ reportFree s.stn.line →
            t.stn.line.window = some ⟨some f, none, true⟩ ∧ t.stn.line.reserved = s.stn.line.reserved + 1) ∧
          (reportFree s.stn.line = 0 →
            t.stn.line.window = some ⟨some f, some .busy, false⟩ ∧ t.stn.line.reserved = s.stn.line.reserved)) ∧
        (¬ (Body.isRequest f.body = true ∧ (f.h.dest = 0 ∨ f.h.dest = me s.stn)) →
          t.stn.line.window = some ⟨some f, none, false⟩ ∧ t.stn.line.reserved = s.stn.line.reserved))

/-- O20. A vetoed window below the limits: the frame is discarded everywhere. Nothing is counted or handed on, a reservation made for
it is returned, the window joins the veto record, and an own frame is back in its queue, with one more retry: a CONTROL or REPORT frame at
the head, a ZONE_RELEASE merged with a newer one, a THERMAL in the slot (R6, R13, R14, R18, R19). -/
def Obligations.VetoedFrameIsDiscarded : Prop :=
  ∀ s : State, listening s.stn = true →
    (ownOnLine s.stn = true → s.stn.line.retry < 7) →
    vetoCount (recordWindow s.stn.line (checkVetoed s.stn.line.window)) < 16 →
    ∃ t : State, exec .vetoWindowVetoed s = .next t ∧ t.pending = s.pending ∧ t.stn = { s.stn with line := t.stn.line } ∧
      t.stn.line.window = none ∧ t.stn.line.lineCount = s.stn.line.lineCount ∧ t.stn.line.heard = s.stn.line.heard ∧
      t.stn.line.joinOffset = s.stn.line.joinOffset ∧ t.stn.line.waiting = s.stn.line.waiting ∧
      t.stn.line.vetoLog = (recordWindow s.stn.line (checkVetoed s.stn.line.window)).vetoLog ∧
      t.stn.line.reserved = s.stn.line.reserved - windowReserves s.stn.line.window ∧
      (ownOnLine s.stn = false → t.stn.line.retry = s.stn.line.retry ∧ t.stn.line.flight = s.stn.line.flight ∧
        t.stn.line.control = s.stn.line.control ∧ t.stn.line.report = s.stn.line.report ∧ t.stn.line.thermal = s.stn.line.thermal) ∧
      (∀ v, s.stn.line.flight = some v → v.stage ≠ .contending →
        t.stn.line.retry = s.stn.line.retry + 1 ∧ t.stn.line.flight = none ∧
        (Body.cls v.item.body = .control → Body.isRelease v.item.body = false → t.stn.line.control = v.item :: s.stn.line.control) ∧
        (Body.isRelease v.item.body = true → Says.releaseBack v.item s.stn.line.control t.stn.line.control) ∧
        (Body.cls v.item.body = .report → t.stn.line.report = v.item :: s.stn.line.report) ∧
        (Body.cls v.item.body = .thermal → Says.thermalBack v s.stn.line.thermal t.stn.line.thermal))

/-- O21. The eighth veto of the station's frames, or sixteen marked windows, end in OUT, or in SHUT at the third OUT within 600 s, with
the cause kept and the hold-off running (R18, R19, R173, R174). -/
def Obligations.VetoLimitsEndInOut : Prop :=
  ∀ s : State, listening s.stn = true →
    ∃ t : State, exec .vetoWindowVetoed s = .next t ∧ t.pending = s.pending ∧
      (ownOnLine s.stn = true → 7 ≤ s.stn.line.retry → Says.wentOut s.stn t.stn .lineFault) ∧
      (ownOnLine s.stn = false ∨ s.stn.line.retry < 7 →
        16 ≤ vetoCount (recordWindow s.stn.line (checkVetoed s.stn.line.window)) → Says.wentOut s.stn t.stn .rxFault)

/-- O22. A malformed frame that completes is counted and nothing more: no last-heard entry, no table, no unit (R8). -/
def Obligations.MalformedFrameIsOnlyCounted : Prop :=
  ∀ (c : Instr) (s : State), (c = .frameMalformed ∨ ∃ f, Says.frameOf c = some f ∧ formatGood (cellOf s.stn) f = false) →
    listening s.stn = true → vetoedHere s.stn = false →
    ∃ t : State, exec c s = .next t ∧ t.pending = s.pending ∧ t.stn = { s.stn with line := t.stn.line } ∧
      t.stn.line.lineCount = s.stn.line.lineCount.map (· + 1) ∧ t.stn.line.heard = s.stn.line.heard ∧
      t.stn.line.control = s.stn.line.control ∧ t.stn.line.report = s.stn.line.report ∧ t.stn.line.thermal = s.stn.line.thermal ∧
      t.stn.line.flight = s.stn.line.flight ∧ t.stn.line.reserved = s.stn.line.reserved ∧ t.stn.line.retry = s.stn.line.retry ∧
      t.stn.line.waiting = s.stn.line.waiting ∧ t.stn.line.window = none

/-- O23. A THERMAL whose age has reached one thermal period: from that moment the arbiter's next pick is the THERMAL (R16). The time
goes to that moment (log 4). -/
def Obligations.AgedThermalIsPicked : Prop :=
  ∀ (s : State) (v : Slot), listening s.stn = true → s.stn.line.thermal = some v →
    ∃ t : State, exec .thermalAgeReached s = .next t ∧ t.pending = s.pending ∧
      t.stn = { s.stn with now := max s.stn.now (v.since + (cellOf s.stn).period) } ∧
      arbiterPick t.stn.line t.stn.now (cellOf t.stn).period = some .thermal

/-- O24. A unit's oldest kept CONTROL frame is taken at the tail of its queue as soon as fewer than seven are there, unchanged, and not
before (R11, R12). -/
def Obligations.KeptControlFrameIsTaken : Prop :=
  ∀ (src : CtlSource) (s : State) (w : Waiting), s.stn.line.waiting.find? (fun w => w.src == src) = some w →
    ∃ t : State, exec (.controlFrameReoffer src) s = .next t ∧ t.pending = s.pending ∧
      (controlHeld s.stn.line < 7 → (∃ rest, t.stn.line.control = s.stn.line.control ++ w.item :: rest) ∧
        t.stn.line.report = s.stn.line.report ∧ tabs t.stn = tabs s.stn) ∧
      (7 ≤ controlHeld s.stn.line → t = s)

/-- O25. The oldest READY point, the event at the head of the list, a refusal notice or the next snapshot frame joins the tail of the
REPORT queue where R15 takes it, and stays with its unit where not (R11, R15, R34, R153, R166). That the notices go before the frames of a
standing snapshot is the model's choice (log 19). -/
def Obligations.KeptReportFrameIsTaken : Prop :=
  ∀ s : State,
    (∀ d c, oldestReady s.stn.touch.nextSeq s.stn.touch.points = some (d, c) →
      ∃ t : State, exec .pointFrameOffer s = .next t ∧ t.pending = s.pending ∧
        (1 ≤ reportFree s.stn.line ∧ pointsHeld s.stn.line < 12 →
          ∃ rest, t.stn.line.report = s.stn.line.report ++ ⟨reporter s.stn, .point (pointBody d c)⟩ :: rest) ∧
        (reportFree s.stn.line = 0 ∨ 12 ≤ pointsHeld s.stn.line → t = s)) ∧
    (∀ n e r, s.stn.request.events = (n, e) :: r →
      ∃ t : State, exec .eventFrameOffer s = .next t ∧ t.pending = s.pending ∧
        (1 ≤ reportFree s.stn.line →
          ∃ rest, t.stn.line.report = s.stn.line.report ++ ⟨reporter s.stn, .event (eventBody n e)⟩ :: rest) ∧
        (reportFree s.stn.line = 0 → t = s)) ∧
    (∀ k jn r, s.stn.replica.notices = (k, jn) :: r →
      ∃ t : State, exec .snapFrameOffer s = .next t ∧ t.pending = s.pending ∧
        (2 ≤ reportFree s.stn.line →
          ∃ rest, t.stn.line.report =
            s.stn.line.report ++ ⟨k, .snapBegin .refuse jn (tabs s.stn).cell.fingerprint 0⟩ :: rest) ∧
        (reportFree s.stn.line < 2 → t = s)) ∧
    (∀ sh b, s.stn.replica.notices = [] → s.stn.replica.shadow = some sh → (snapFrames (cellOf s.stn) sh)[sh.next]? = some b →
      ∃ t : State, exec .snapFrameOffer s = .next t ∧ t.pending = s.pending ∧
        (2 ≤ reportFree s.stn.line → ∃ rest, t.stn.line.report = s.stn.line.report ++ ⟨sh.joiner, b⟩ :: rest) ∧
        (reportFree s.stn.line < 2 → t = s))

/-- O26. A peer not heard for four thermal periods: one SILENCE for each pair of station and last-heard count (R40). The time
goes to that moment (log 4). -/
def Obligations.SilenceIsNoticedOnce : Prop :=
  ∀ (k n m : Nat) (s : State), serving s.stn = true → k ≠ me s.stn → roleIn (cellOf s.stn) k = .mc410 →
    rosterState (tabs s.stn) k = .active → at1 s.stn.line.heard ⟨.none, 0⟩ k = ⟨.abs n, m⟩ →
    ∃ t : State, exec (.silenceLimitReached k) s = .next t ∧ t.pending = s.pending ∧
      t.stn.now = max s.stn.now (m + 4 * (cellOf s.stn).period) ∧ tabs t.stn = tabs s.stn ∧
      (at1 s.stn.replica.noticed none k ≠ some n → (∀ w ∈ s.stn.line.waiting, w.src ≠ .silence) → controlHeld s.stn.line < 7 →
        t.stn.line.control = s.stn.line.control ++ [⟨0, .silence k n⟩] ∧
        t.stn.replica.noticed = set1 s.stn.replica.noticed k (some n)) ∧
      (at1 s.stn.replica.noticed none k = some n → t.stn.line = s.stn.line ∧ t.stn.replica = s.stn.replica)

/-- O27. A frame stands on the line as its kind, its sender and destination, its flags, its length, its body and the check of R176, most
significant byte first (11.1), and reads back from those bytes as it was written (11.1, 11.4). The check of the nine bytes 0x31 to 0x39 is
0xE3069283 (R176). -/
def Obligations.FramesReadBack : Prop :=
  (∀ (c : CellPart) (f : Frame), formatGood c f = true → bodyFits f.body = true → receive c (putFrame f) = .good f) ∧
  (∀ (f : Frame) (front : List Byte) (check : Print),
    front = [BitVec.ofNat 8 (Body.kind f.body), BitVec.ofNat 8 (16 * f.h.sender + f.h.dest),
      BitVec.ofNat 8 ((if f.h.active then 1 else 0) + (if f.h.parked then 2 else 0) + (if f.h.homed then 4 else 0) +
        (if f.h.rack then 8 else 0) + (if f.h.joining then 16 else 0)),
      BitVec.ofNat 8 (putBody f.body).length] ++ putBody f.body →
    check = check32 front →
    putFrame f = front ++ [check.extractLsb' 24 8, check.extractLsb' 16 8, check.extractLsb' 8 8, check.extractLsb' 0 8]) ∧
  check32 [0x31#8, 0x32#8, 0x33#8, 0x34#8, 0x35#8, 0x36#8, 0x37#8, 0x38#8, 0x39#8] = 0xE3069283#32

/-! ### Formation, joining and silence (chapter 2) -/

/-- O28. A FORM that this unformed station applies and whose members it is one of: the cell is formed at line count 0, every HOME zone HELD by
its owner and every other zone FREE, the members ACTIVE and just heard, and the station enters ACTIVE mode, its channels IDLE
where it has axes and no drive fault is counted (R29, R30, R88). The encoder counts it finds are read there, since they count in every
mode (R68); the command brings them (log 5). -/
def Obligations.FormationMakesCell : Prop :=
  ∀ (h : Hdr) (fp : Print) (mask : StationMask) (enc : Counts) (s : State),
    joiningMode s.stn = true → vetoedHere s.stn = false → formatGood (cellOf s.stn) ⟨h, .form fp mask⟩ = true →
    (tabs s.stn).cell.formed = false → inMask mask h.sender = true → inMask mask (me s.stn) = true →
    fp = s.stn.loader.fingerprint → s.stn.replica.cellExists = false →
    (h.active = false ∨ roleIn (cellOf s.stn) h.sender ≠ .mc410) → s.stn.replica.snapBeginSeen = false → s.stn.line.heard.length = 14 →
    ∃ t : State, exec (.form h fp mask enc) s = .next t ∧ t.pending = s.pending ∧
      t.stn.loader = { s.stn.loader with mode := .active } ∧ t.stn.now = s.stn.now ∧ t.stn.pins = s.stn.pins ∧
      t.stn.motion.enc = (readEncoders s.stn enc).motion.enc ∧ (tabs t.stn).cell = ⟨true, fp, mask⟩ ∧ (tabs t.stn).cellStamp = 0 ∧
      t.stn.line.lineCount = some 0 ∧ (tabs t.stn).claims = [] ∧ (tabs t.stn).board = [] ∧ (tabs t.stn).partTemp = none ∧
      (∀ z < 32, zoneEntry (tabs t.stn) z =
        if isHome (cellOf s.stn) z then ⟨.held (zoneCfg (cellOf s.stn) z).owner, 0⟩ else ⟨.free, 0⟩) ∧
      HomesHeld (cellOf t.stn) (tabs t.stn) ∧
      (∀ k, 1 ≤ k → k ≤ 14 → (rosterEntry (tabs t.stn) k).state = (if inMask mask k then .active else .unseen) ∧
        at1 t.stn.line.heard ⟨.none, 0⟩ k = (if inMask mask k then ⟨.abs 0, s.stn.now⟩ else ⟨.none, 0⟩)) ∧
      ((ownOf s.stn).axes ≠ [] → (∀ ax, s.stn.motion.fault.get ax = false) →
        t.stn.motion.arm.state = .idle ∧ t.stn.motion.head.state = .idle)

/-- O29. Any other FORM. In an unformed replica: a fingerprint that is not the station's own sends it SHUT with MISMATCH; a member mask
without it leaves the replica unformed and takes the next join number; with the cell-exists flag set or set by its own header, after a SNAP_BEGIN
addressed here, or with a mask that omits its sender, it is void, before and after the station's own JOIN is done. In a formed replica it is void. -/
def Obligations.FormElsewhere : Prop :=
  ∀ (h : Hdr) (fp : Print) (mask : StationMask) (enc : Counts) (s : State), formatGood (cellOf s.stn) ⟨h, .form fp mask⟩ = true →
    vetoedHere s.stn = false →
    ∃ t : State, exec (.form h fp mask enc) s = .next t ∧ t.pending = s.pending ∧
      (joiningMode s.stn = true → (tabs s.stn).cell.formed = false → inMask mask h.sender = true → s.stn.replica.cellExists = false →
        (h.active = false ∨ roleIn (cellOf s.stn) h.sender ≠ .mc410) → s.stn.replica.snapBeginSeen = false →
        s.stn.replica.catchUp.length < 128 →
        (fp ≠ s.stn.loader.fingerprint → t.stn.loader.mode = .shut ∧ t.stn.loader.shutReason = some .mismatch) ∧
        (fp = s.stn.loader.fingerprint → inMask mask (me s.stn) = false →
          t.stn.loader = s.stn.loader ∧ tabs t.stn = Replica.blank ∧ t.stn.line.lineCount = none ∧
          t.stn.replica.joinNumber = nextJoin s.stn.replica.joinNumber)) ∧
      (joiningMode s.stn = true →
        s.stn.replica.cellExists = true ∨ (h.active = true ∧ roleIn (cellOf s.stn) h.sender = .mc410) ∨ s.stn.replica.snapBeginSeen = true ∨
          inMask mask h.sender = false →
        s.stn.replica.joinDone = false ∨ s.stn.replica.catchUp.length < 128 →
        t.stn.loader = s.stn.loader ∧ tabs t.stn = tabs s.stn ∧ t.stn.replica.joinNumber = s.stn.replica.joinNumber ∧
          t.stn.replica.service = s.stn.replica.service ∧
          (s.stn.replica.joinDone = false → t.stn.replica.catchUp = s.stn.replica.catchUp) ∧
          (s.stn.replica.joinDone = true →
            t.stn.replica.catchUp = s.stn.replica.catchUp ++ [⟨⟨h, .form fp mask⟩, s.stn.line.joinOffset + 1, .none⟩])) ∧
      (∀ n, serving s.stn = true → s.stn.line.lineCount = some n → Says.passes s.stn h →
        Says.counted s.stn t.stn h n ∧ Says.rosterFollows s.stn t.stn h n ∧ Says.zonesStay s.stn t.stn ∧ Says.probesStay s.stn t.stn ∧
          Says.portsStay s.stn t.stn ∧ Says.boardStays s.stn t.stn ∧ Says.latchesStay s.stn t.stn)

/-- O30. A JOIN in an unformed replica enters its sender in the roster as JOINING with its reset cause and flags; the station's own JOIN
starts the form wait and the join retry and clears the join offset; a JOIN of the station that serves this one abandons the attempt. -/
def Obligations.JoinInUnformedReplica : Prop :=
  ∀ (h : Hdr) (fp : Print) (cause : ResetCause) (jn : Nat) (s : State),
    joiningMode s.stn = true → vetoedHere s.stn = false → formatGood (cellOf s.stn) ⟨h, .join fp cause jn⟩ = true →
    s.stn.replica.catchUp.length < 128 → TablesSized (tabs s.stn) →
    ∃ t : State, exec (.join h fp cause jn) s = .next t ∧ t.pending = s.pending ∧
      t.stn.loader = s.stn.loader ∧ t.stn.now = s.stn.now ∧
      (∃ e, rosterEntry (tabs t.stn) h.sender = e ∧ e.state = .joining ∧ e.cause = some cause ∧ e.homed = h.homed ∧ e.parked = h.parked ∧
        e.fpMatch = (fp == s.stn.loader.fingerprint)) ∧
      (∀ j, j ≠ h.sender → rosterEntry (tabs t.stn) j = rosterEntry (tabs s.stn) j) ∧ (tabs t.stn).cell = (tabs s.stn).cell ∧
      Says.zonesStay s.stn t.stn ∧ Says.probesStay s.stn t.stn ∧ Says.portsStay s.stn t.stn ∧ Says.boardStays s.stn t.stn ∧
      Says.latchesStay s.stn t.stn ∧
      (h.sender = me s.stn → t.stn.replica.joinDone = true ∧ t.stn.replica.formWait = some (s.stn.now + 500) ∧
        t.stn.replica.joinRetry = some (s.stn.now + 2 * (cellOf s.stn).period) ∧ t.stn.replica.catchUp = [] ∧ t.stn.line.joinOffset = 0) ∧
      (h.sender ≠ me s.stn → servedBy s.stn h.sender = false →
        t.stn.replica.joinDone = s.stn.replica.joinDone ∧ t.stn.line.joinOffset = s.stn.line.joinOffset + 1) ∧
      (h.sender ≠ me s.stn → servedBy s.stn h.sender = true →
        t.stn.replica.service = none ∧ t.stn.replica.pendingRep = none ∧ t.stn.replica.catchUp = [])

/-- O31. A JOIN in a formed replica with the cell's fingerprint: its sender is JOINING, and the lowest ACTIVE station that serves no one is
chosen as its snapshotter. A rejoin gives the sender's ORPHANED zones back, takes its claim away, excludes its thermal entries and
empties its latch; a JOIN of a station not seen or not at work changes the roster alone. -/
def Obligations.JoinInFormedReplica : Prop :=
  ∀ (h : Hdr) (fp : Print) (cause : ResetCause) (jn : Nat) (s : State) (n : Nat),
    Says.takes s.stn ⟨h, .join fp cause jn⟩ n → TablesSized (tabs s.stn) → fp = (tabs s.stn).cell.fingerprint →
    ∃ t : State, exec (.join h fp cause jn) s = .next t ∧ t.pending = s.pending ∧ Says.counted s.stn t.stn h n ∧
      (∃ e, rosterEntry (tabs t.stn) h.sender = e ∧ e.state = .joining ∧ e.cause = some cause ∧ e.homed = h.homed ∧ e.parked = h.parked ∧
        e.stamp = n + 1) ∧
      (∀ j, j ≠ h.sender → (rosterEntry (tabs t.stn) j).state = (rosterEntry (tabs s.stn) j).state) ∧
      (tabs t.stn).cell = (tabs s.stn).cell ∧
      (∀ j, Says.mayServe s.stn h.sender j → (∀ i < j, ¬ Says.mayServe s.stn h.sender i) →
        (rosterEntry (tabs t.stn) j).serving = some (h.sender, jn) ∧
        (j = me s.stn → ∃ sh, t.stn.replica.shadow = some sh ∧ sh.joiner = h.sender ∧ sh.jn = jn ∧ sh.joinCount = n + 1 ∧
          sh.tables = tabs t.stn)) ∧
      (Says.rejoins s.stn h.sender →
        (∀ z < 32, (zoneEntry (tabs s.stn) z).hold = .orphaned h.sender → zoneEntry (tabs t.stn) z = ⟨.held h.sender, n + 1⟩) ∧
        (∀ z < 32, (zoneEntry (tabs s.stn) z).hold ≠ .orphaned h.sender → (zoneEntry (tabs s.stn) z).hold ≠ .free →
          zoneEntry (tabs t.stn) z = zoneEntry (tabs s.stn) z) ∧
        (∀ c ∈ (tabs t.stn).claims, c.claimant ≠ h.sender) ∧
        (∀ e ∈ (tabs t.stn).board, e.station = h.sender → e.excluded = true) ∧ (latchOf (tabs t.stn) h.sender).data = none) ∧
      (¬ Says.rejoins s.stn h.sender →
        Says.zonesStay s.stn t.stn ∧ Says.probesStay s.stn t.stn ∧ Says.portsStay s.stn t.stn ∧ Says.boardStays s.stn t.stn ∧
          Says.latchesStay s.stn t.stn)

/-- O32. A JOIN in a formed replica with another fingerprint: its sender is REFUSED. What an ACTIVE sender had in the cell is taken away as
by a SILENCE: its zones other than its HOME zone are ORPHANED, its claim is gone. -/
def Obligations.JoinRefused : Prop :=
  ∀ (h : Hdr) (fp : Print) (cause : ResetCause) (jn : Nat) (s : State) (n : Nat),
    Says.takes s.stn ⟨h, .join fp cause jn⟩ n → TablesSized (tabs s.stn) → fp ≠ (tabs s.stn).cell.fingerprint →
    ∃ t : State, exec (.join h fp cause jn) s = .next t ∧ t.pending = s.pending ∧ Says.counted s.stn t.stn h n ∧
      (∃ e, rosterEntry (tabs t.stn) h.sender = e ∧ e.state = .refused ∧ e.cause = some cause ∧ e.serving = none ∧ e.stamp = n + 1) ∧
      (∀ j, j ≠ h.sender → (rosterEntry (tabs t.stn) j).state = (rosterEntry (tabs s.stn) j).state) ∧
      (tabs t.stn).cell = (tabs s.stn).cell ∧
      ((rosterEntry (tabs s.stn) h.sender).state = .active → Says.orphaned s.stn t.stn h.sender n) ∧
      ((rosterEntry (tabs s.stn) h.sender).state ≠ .active →
        Says.zonesStay s.stn t.stn ∧ Says.probesStay s.stn t.stn ∧ Says.portsStay s.stn t.stn ∧ Says.boardStays s.stn t.stn ∧
          Says.latchesStay s.stn t.stn)

/-- O33. A SILENCE that names an ACTIVE station with its last-heard count: the station is SILENT, its zones other than its HOME zone
ORPHANED, its claim gone. With any other count it is void. The station itself, silenced, goes OUT with cause SILENCED. At a joining
station a SILENCE of the station that serves it abandons the attempt. -/
def Obligations.SilenceTakesAway : Prop :=
  (∀ (h : Hdr) (k count : Nat) (s : State) (n : Nat),
    Says.takes s.stn ⟨h, .silence k count⟩ n → Says.passes s.stn h → TablesSized (tabs s.stn) →
    ∃ t : State, exec (.silence h k count) s = .next t ∧ t.pending = s.pending ∧
      (Says.isSilenced s.stn h k count n → k ≠ me s.stn →
        Says.counted s.stn t.stn h n ∧ (rosterEntry (tabs t.stn) k).state = .silent ∧ Says.orphaned s.stn t.stn k n) ∧
      (Says.isSilenced s.stn h k count n → k = me s.stn → Says.wentOut s.stn t.stn .silenced) ∧
      (¬ Says.isSilenced s.stn h k count n →
        Says.counted s.stn t.stn h n ∧ Says.rosterFollows s.stn t.stn h n ∧ Says.zonesStay s.stn t.stn ∧ Says.probesStay s.stn t.stn ∧
          Says.portsStay s.stn t.stn ∧ Says.boardStays s.stn t.stn ∧ Says.latchesStay s.stn t.stn)) ∧
  (∀ (h : Hdr) (k count : Nat) (s : State), joiningMode s.stn = true → vetoedHere s.stn = false →
    formatGood (cellOf s.stn) ⟨h, .silence k count⟩ = true → servedBy s.stn k = true →
    ∃ t : State, exec (.silence h k count) s = .next t ∧ t.pending = s.pending ∧ t.stn.loader = s.stn.loader ∧
      tabs t.stn = tabs s.stn ∧ t.stn.replica.service = none ∧ t.stn.replica.pendingRep = none ∧ t.stn.replica.catchUp = [])

/-- O34. SNAP_BEGIN and SNAP_ENTRY at the joiner they are addressed to: a SERVE for its current join number, once its JOIN is done, is accepted
with an empty pending replica; each entry that matches the accepted service is counted and loaded; a REFUSE of this join with another
fingerprint sends the station SHUT with MISMATCH. -/
def Obligations.SnapshotIsTaken : Prop :=
  (∀ (h : Hdr) (purpose : SnapPurpose) (jn : Nat) (fp : Print) (entries : Nat) (s : State),
    joiningMode s.stn = true → vetoedHere s.stn = false → formatGood (cellOf s.stn) ⟨h, .snapBegin purpose jn fp entries⟩ = true →
    h.dest = me s.stn →
    ∃ t : State, exec (.snapBegin h purpose jn fp entries) s = .next t ∧ t.pending = s.pending ∧
      (purpose = .serve → t.stn.loader = s.stn.loader ∧ tabs t.stn = tabs s.stn ∧ t.stn.replica.snapBeginSeen = true) ∧
      (purpose = .serve → jn = s.stn.replica.joinNumber → s.stn.replica.joinDone = true → s.stn.replica.service = none →
        t.stn.replica.service = some ⟨h.sender, jn, entries, 0⟩ ∧
        t.stn.replica.pendingRep = some ⟨Replica.blank, List.replicate 14 none⟩) ∧
      (purpose = .serve → (jn ≠ s.stn.replica.joinNumber ∨ s.stn.replica.joinDone = false ∨ s.stn.replica.service ≠ none) →
        t.stn.replica.service = s.stn.replica.service ∧ t.stn.replica.pendingRep = s.stn.replica.pendingRep) ∧
      (purpose = .refuse → jn = s.stn.replica.joinNumber → fp ≠ s.stn.loader.fingerprint →
        t.stn.loader.mode = .shut ∧ t.stn.loader.shutReason = some .mismatch) ∧
      (purpose = .refuse → jn ≠ s.stn.replica.joinNumber ∨ fp = s.stn.loader.fingerprint →
        t.stn.loader = s.stn.loader ∧ t.stn.replica.service = s.stn.replica.service)) ∧
  (∀ (h : Hdr) (jn : Nat) (content : SnapContent) (s : State) (v : Service) (p : PendingReplica),
    joiningMode s.stn = true → vetoedHere s.stn = false → formatGood (cellOf s.stn) ⟨h, .snapEntry jn content⟩ = true →
    s.stn.replica.service = some v → s.stn.replica.pendingRep = some p →
    ∃ t : State, exec (.snapEntry h jn content) s = .next t ∧ t.pending = s.pending ∧ t.stn.loader = s.stn.loader ∧
      tabs t.stn = tabs s.stn ∧
      (h.dest = me s.stn ∧ h.sender = v.sender ∧ jn = v.jn →
        t.stn.replica.service = some { v with received := v.received + 1 } ∧
        ∃ q, t.stn.replica.pendingRep = some q ∧ q = loadEntry p content ∧
          (∀ z e, content = .zone z e → z < p.tables.zones.length → zoneEntry q.tables z = e) ∧
          (∀ k role e heard, content = .roster k role e heard → k ≤ p.tables.roster.length → k ≤ p.heard.length →
            rosterEntry q.tables k = e ∧ at1 q.heard none k = heard) ∧
          (∀ x e, content = .port x e → x ≤ p.tables.ports.length → portEntry q.tables x = e) ∧
          (∀ place c, content = .claim place c → q.tables.claims = p.tables.claims ++ [c])) ∧
      (¬ (h.dest = me s.stn ∧ h.sender = v.sender ∧ jn = v.jn) →
        t.stn.replica.service = s.stn.replica.service ∧ t.stn.replica.pendingRep = s.stn.replica.pendingRep))

/-- O35. SNAP_END. At the joiner it is addressed to: with every announced entry received the station is ACTIVE with a formed replica, its line
count the JOIN's count and the frames since; with entries missing the attempt is abandoned; another fingerprint sends it SHUT. At a
station that serves the cell the sender's service ends. The station that enters ACTIVE reads its encoder counts there (R68, log 5). -/
def Obligations.SnapEndLoads : Prop :=
  (∀ (h : Hdr) (jn count : Nat) (fp : Print) (enc : Counts) (s : State) (v : Service) (p : PendingReplica),
    joiningMode s.stn = true → vetoedHere s.stn = false → formatGood (cellOf s.stn) ⟨h, .snapEnd jn count fp⟩ = true →
    s.stn.replica.service = some v → s.stn.replica.pendingRep = some p → h.dest = me s.stn → h.sender = v.sender → jn = v.jn →
    s.stn.replica.catchUp.length < 128 →
    ∃ t : State, exec (.snapEnd h jn count fp enc) s = .next t ∧ t.pending = s.pending ∧
      (fp ≠ s.stn.loader.fingerprint → t.stn.loader.mode = .shut ∧ t.stn.loader.shutReason = some .mismatch) ∧
      (fp = s.stn.loader.fingerprint → v.received ≠ v.announced →
        t.stn.loader = s.stn.loader ∧ t.stn.replica.service = none ∧ t.stn.replica.pendingRep = none ∧ t.stn.replica.catchUp = [] ∧
        tabs t.stn = tabs s.stn) ∧
      (fp = s.stn.loader.fingerprint → v.received = v.announced →
        t.stn.loader = { s.stn.loader with mode := .active } ∧ t.stn.line.lineCount = some (count + (s.stn.line.joinOffset + 1)) ∧
        t.stn.motion.enc = (readEncoders s.stn enc).motion.enc ∧
        (tabs t.stn).cell.formed = true ∧ (tabs t.stn).cell.fingerprint = p.tables.cell.fingerprint ∧
        (tabs t.stn).cell.members = p.tables.cell.members ∧
        (HomesHeld (cellOf s.stn) p.tables → HomesHeld (cellOf t.stn) (tabs t.stn)))) ∧
  (∀ (h : Hdr) (jn count : Nat) (fp : Print) (enc : Counts) (s : State) (n : Nat),
    Says.takes s.stn ⟨h, .snapEnd jn count fp⟩ n → Says.passes s.stn h → TablesSized (tabs s.stn) →
    ∃ t : State, exec (.snapEnd h jn count fp enc) s = .next t ∧ t.pending = s.pending ∧ Says.counted s.stn t.stn h n ∧
      ((rosterEntry (tabs s.stn) h.sender).serving = some (h.dest, jn) → (rosterEntry (tabs t.stn) h.sender).serving = none) ∧
      ((rosterEntry (tabs s.stn) h.sender).serving ≠ some (h.dest, jn) →
        (rosterEntry (tabs t.stn) h.sender).serving = (rosterEntry (tabs s.stn) h.sender).serving) ∧
      (∀ j, j ≠ h.sender → rosterEntry (tabs t.stn) j = rosterEntry (tabs s.stn) j) ∧
      Says.zonesStay s.stn t.stn ∧ Says.probesStay s.stn t.stn ∧ Says.portsStay s.stn t.stn ∧ Says.boardStays s.stn t.stn ∧
      Says.latchesStay s.stn t.stn)


/-! ### Zones (chapter 3) and the roster step (R22) -/

/-- O36. A frame other than a JOIN from a station of role MC410 that the replica does not show ACTIVE, and that its own flag does not make
ACTIVE, changes no table but the sender's roster flags; a JOINING sender whose frame carries the ACTIVE flag becomes ACTIVE, its homed and
parked fields those of the header, its entry stamped (R21, R22). -/
def Obligations.SenderMustBeActive : Prop :=
  ∀ (c : Instr) (f : Frame) (s : State) (n : Nat), Says.frameOf c = some f → Says.takes s.stn f n → passesRoster f.body = true →
    (∀ fp cause jn, f.body ≠ .join fp cause jn) → roleIn (cellOf s.stn) f.h.sender = .mc410 → TablesSized (tabs s.stn) →
    (rosterEntry (tabs s.stn) f.h.sender).state ≠ .active →
    ∃ t : State, exec c s = .next t ∧ t.pending = s.pending ∧
      ((rosterEntry (tabs s.stn) f.h.sender).state ≠ .joining ∨ f.h.active = false →
        Says.counted s.stn t.stn f.h n ∧ Says.rosterFollows s.stn t.stn f.h n ∧ Says.zonesStay s.stn t.stn ∧ Says.probesStay s.stn t.stn ∧
          Says.portsStay s.stn t.stn ∧ Says.boardStays s.stn t.stn ∧ Says.latchesStay s.stn t.stn) ∧
      ((rosterEntry (tabs s.stn) f.h.sender).state = .joining → f.h.active = true →
        (∀ k count, f.body = .silence k count → k ≠ f.h.sender ∧ k ≠ me s.stn) →
        Says.counted s.stn t.stn f.h n ∧
        rosterEntry (tabs t.stn) f.h.sender = { rosterEntry (tabs s.stn) f.h.sender with
          state := .active, homed := f.h.homed, parked := f.h.parked, stamp := n + 1
          serving := (rosterEntry (tabs t.stn) f.h.sender).serving } ∧
        ((∀ k count, f.body ≠ .silence k count) → (∀ jn count fp, f.body ≠ .snapEnd jn count fp) →
          (rosterEntry (tabs t.stn) f.h.sender).serving = (rosterEntry (tabs s.stn) f.h.sender).serving))

/-- O37. ZONE_CLAIM. One that names a HOME zone of another station is void. A zone that is not FREE keeps its entry; a FREE one stays or is
granted to a waiting claim or to this one. With no claim pending it is granted at once where every zone it names is FREE or the sender's
own; otherwise it waits in the list with its base priority and its line count. On a list as R51 wants it the claim takes the place of the
sender's earlier one, where a zone is still wanted, at the place the order gives it, and the scan of R52 to R55, R61 and R62 follows: in
order, passing claims over, making them URGENT at the starve limit, withdrawing the youngest of a deadlock until none is left. -/
def Obligations.ClaimIsGrantedOrWaits : Prop :=
  ∀ (h : Hdr) (mask : ZoneMask) (base : Prio) (s : State) (n : Nat),
    Says.takes s.stn ⟨h, .zoneClaim mask base⟩ n → Says.passes s.stn h → TablesSized (tabs s.stn) →
    ∃ t : State, exec (.zoneClaim h mask base) s = .next t ∧ t.pending = s.pending ∧ Says.counted s.stn t.stn h n ∧
      Says.rosterFollows s.stn t.stn h n ∧ Says.probesStay s.stn t.stn ∧ Says.portsStay s.stn t.stn ∧ Says.boardStays s.stn t.stn ∧
      Says.latchesStay s.stn t.stn ∧
      (Says.hitsHome s.stn h.sender mask → Says.zonesStay s.stn t.stn) ∧
      (∀ z < 32, (zoneEntry (tabs s.stn) z).hold ≠ .free → zoneEntry (tabs t.stn) z = zoneEntry (tabs s.stn) z) ∧
      (∀ z < 32, (zoneEntry (tabs s.stn) z).hold = .free →
        zoneEntry (tabs t.stn) z = zoneEntry (tabs s.stn) z ∨ Says.grantedNow s.stn t.stn z n ∨
          (mask.getLsbD z = true ∧ zoneEntry (tabs t.stn) z = ⟨.held h.sender, n + 1⟩)) ∧
      (¬ Says.hitsHome s.stn h.sender mask → (tabs s.stn).claims = [] →
        ((∀ z < 32, mask.getLsbD z = true → (zoneEntry (tabs s.stn) z).hold = .free ∨ (zoneEntry (tabs s.stn) z).hold = .held h.sender) →
          (tabs t.stn).claims = [] ∧ (∀ z < 32, mask.getLsbD z = true → (zoneEntry (tabs t.stn) z).hold = .held h.sender) ∧
          (∀ z < 32, mask.getLsbD z = false → zoneEntry (tabs t.stn) z = zoneEntry (tabs s.stn) z)) ∧
        (∀ z < 32, mask.getLsbD z = true → (zoneEntry (tabs s.stn) z).hold ≠ .free → (zoneEntry (tabs s.stn) z).hold ≠ .held h.sender →
          0 < (cellOf s.stn).starve →
          (tabs t.stn).zones = (tabs s.stn).zones ∧
          ∃ c, (tabs t.stn).claims = [c] ∧ c.claimant = h.sender ∧ c.base = base ∧ c.urgent = false ∧ c.passed = 0 ∧ c.count = n + 1 ∧
            (∀ y < 32, c.wanted.getLsbD y = true ↔ mask.getLsbD y = true ∧ (zoneEntry (tabs s.stn) y).hold ≠ .held h.sender))) ∧
      (¬ Says.hitsHome s.stn h.sender mask → ListsOk (cellOf s.stn) (tabs s.stn) → ∀ w : ZoneMask,
        (∀ z < 32, w.getLsbD z = true ↔ mask.getLsbD z = true ∧ (zoneEntry (tabs s.stn) z).hold ≠ .held h.sender) →
        ∃ l ks, l.Pairwise noLater ∧
          (w = 0#32 → l.Perm ((tabs s.stn).claims.filter fun c => decide (c.claimant ≠ h.sender))) ∧
          (w ≠ 0#32 → l.Perm (⟨h.sender, w, base, false, 0, n + 1⟩ ::
            (tabs s.stn).claims.filter fun c => decide (c.claimant ≠ h.sender))) ∧
          Scans (cellOf s.stn).starve (n + 1) l (tabs s.stn).zones (tabs t.stn).claims (tabs t.stn).zones ks)

/-- O38. ZONE_RELEASE frees the named zones that its sender holds, HOME zones excepted, and withdraws its claim where it says so;
FORCE_RELEASE frees the named zones that are ORPHANED or, HOME zones excepted, held by a JOINING station. A zone so freed is FREE, or HELD
by a waiting claimant whose claim names it; the other zones keep their entries, but for FREE ones granted in the scan. -/
def Obligations.ReleaseFreesZones : Prop :=
  (∀ (h : Hdr) (mask : ZoneMask) (withdraw : Bool) (s : State) (n : Nat),
    Says.takes s.stn ⟨h, .zoneRelease mask withdraw⟩ n → Says.passes s.stn h → TablesSized (tabs s.stn) →
    ∃ t : State, exec (.zoneRelease h mask withdraw) s = .next t ∧ t.pending = s.pending ∧ Says.counted s.stn t.stn h n ∧
      Says.rosterFollows s.stn t.stn h n ∧ Says.probesStay s.stn t.stn ∧ Says.portsStay s.stn t.stn ∧ Says.boardStays s.stn t.stn ∧
      Says.latchesStay s.stn t.stn ∧
      (∀ z < 32, mask.getLsbD z = true → (zoneEntry (tabs s.stn) z).hold = .held h.sender → isHome (cellOf s.stn) z = false →
        zoneEntry (tabs t.stn) z = ⟨.free, n + 1⟩ ∨ Says.grantedNow s.stn t.stn z n) ∧
      (∀ z < 32, (zoneEntry (tabs s.stn) z).hold ≠ .free →
        ¬ (mask.getLsbD z = true ∧ (zoneEntry (tabs s.stn) z).hold = .held h.sender ∧ isHome (cellOf s.stn) z = false) →
        zoneEntry (tabs t.stn) z = zoneEntry (tabs s.stn) z) ∧
      (∀ z < 32, (zoneEntry (tabs s.stn) z).hold = .free →
        zoneEntry (tabs t.stn) z = zoneEntry (tabs s.stn) z ∨ Says.grantedNow s.stn t.stn z n) ∧
      (withdraw = true → ∀ c ∈ (tabs t.stn).claims, c.claimant ≠ h.sender)) ∧
  (∀ (h : Hdr) (mask : ZoneMask) (s : State) (n : Nat), Says.takes s.stn ⟨h, .forceRelease mask⟩ n → TablesSized (tabs s.stn) →
    ∃ t : State, exec (.forceRelease h mask) s = .next t ∧ t.pending = s.pending ∧ Says.counted s.stn t.stn h n ∧
      Says.rosterFollows s.stn t.stn h n ∧ Says.probesStay s.stn t.stn ∧ Says.portsStay s.stn t.stn ∧ Says.boardStays s.stn t.stn ∧
      Says.latchesStay s.stn t.stn ∧
      (∀ z < 32, mask.getLsbD z = true →
        ((∃ k, (zoneEntry (tabs s.stn) z).hold = .orphaned k) ∨
          (∃ k, (zoneEntry (tabs s.stn) z).hold = .held k ∧ isHome (cellOf s.stn) z = false ∧ rosterState (tabs s.stn) k = .joining)) →
        zoneEntry (tabs t.stn) z = ⟨.free, n + 1⟩ ∨ Says.grantedNow s.stn t.stn z n) ∧
      (∀ z < 32, (∃ k, (zoneEntry (tabs s.stn) z).hold = .held k ∧ (isHome (cellOf s.stn) z = true ∨ rosterState (tabs s.stn) k ≠ .joining)) →
        zoneEntry (tabs t.stn) z = zoneEntry (tabs s.stn) z) ∧
      (∀ z < 32, mask.getLsbD z = false → (zoneEntry (tabs s.stn) z).hold ≠ .free →
        zoneEntry (tabs t.stn) z = zoneEntry (tabs s.stn) z) ∧
      (∀ z < 32, (zoneEntry (tabs s.stn) z).hold = .free →
        zoneEntry (tabs t.stn) z = zoneEntry (tabs s.stn) z ∨ Says.grantedNow s.stn t.stn z n))

/-! ### Ports and custody (chapter 6) -/

/-- O39. PORT_RESERVE reserves a configured port: an EMPTY one for the deposit of the sender's own probe, an OCCUPIED one for the pickup of
its probe; any other is void (R112). The rack station unlocks the port (R111). -/
def Obligations.PortIsReserved : Prop :=
  ∀ (h : Hdr) (p : Nat) (purpose : Purpose) (x : Nat) (s : State) (n : Nat),
    Says.takes s.stn ⟨h, .portReserve p purpose x⟩ n → Says.passes s.stn h → TablesSized (tabs s.stn) →
    ∃ t : State, exec (.portReserve h p purpose x) s = .next t ∧ t.pending = s.pending ∧ Says.tablesElse s.stn t.stn h n ∧
      Says.probesStay s.stn t.stn ∧ Says.latchesStay s.stn t.stn ∧ Says.otherPortsStay s.stn t.stn p ∧
      (configured (cellOf s.stn) p = true → inUse (cellOf s.stn) x = true →
        (purpose = .deposit ∧ (portEntry (tabs s.stn) p).state = .empty ∧ (probeRec (tabs s.stn) x).custody = .station h.sender) ∨
          (purpose = .pickup ∧ (portEntry (tabs s.stn) p).state = .occupied x) →
        portEntry (tabs t.stn) p =
          { portEntry (tabs s.stn) p with state := .reserved h.sender purpose x, takeSeen := false, stamp := n + 1 } ∧
        (isRack s.stn = true → s.stn.rack.length = 12 → (cellOf s.stn).ports.length ≤ 12 → (rackPort t.stn p).lock = .unlocked)) ∧
      (configured (cellOf s.stn) p = false ∨ inUse (cellOf s.stn) x = false ∨
          (purpose = .deposit ∧ ((portEntry (tabs s.stn) p).state ≠ .empty ∨ (probeRec (tabs s.stn) x).custody ≠ .station h.sender)) ∨
          (purpose = .pickup ∧ (portEntry (tabs s.stn) p).state ≠ .occupied x) →
        Says.portsStay s.stn t.stn)

/-- O40. PORT_STATE on a port that is not RESERVED: its fields are the report's, and its state follows it (R113). -/
def Obligations.RackReportIsFollowed : Prop :=
  ∀ (h : Hdr) (p : Nat) (present : Bool) (lock : Lock) (code : Option Code) (s : State) (n : Nat),
    Says.takes s.stn ⟨h, .portState p present lock code⟩ n → Says.passes s.stn h → TablesSized (tabs s.stn) →
    isReserved (portEntry (tabs s.stn) p).state = false →
    ∃ t : State, exec (.portState h p present lock code) s = .next t ∧ t.pending = s.pending ∧ Says.tablesElse s.stn t.stn h n ∧
      Says.latchesStay s.stn t.stn ∧
      (configured (cellOf s.stn) p = false → Says.portsStay s.stn t.stn ∧ Says.probesStay s.stn t.stn) ∧
      (configured (cellOf s.stn) p = true →
        (portEntry (tabs t.stn) p).presence = (if present then .present else .absent) ∧ (portEntry (tabs t.stn) p).lock = lock ∧
        (portEntry (tabs t.stn) p).ident = code ∧
        (portEntry (tabs t.stn) p = portEntry (tabs s.stn) p ∨ (portEntry (tabs t.stn) p).stamp = n + 1) ∧
        (∀ x, present = true → probeByCode (cellOf s.stn) code = some x →
          (portEntry (tabs t.stn) p).state = .occupied x ∧
          ((portEntry (tabs s.stn) p).state ≠ .occupied x → Says.placedAtPort s.stn t.stn x p n) ∧
          ((portEntry (tabs s.stn) p).state = .occupied x → Says.probesStay s.stn t.stn ∧ Says.otherPortsStay s.stn t.stn p)) ∧
        (present = true → probeByCode (cellOf s.stn) code = none → (portEntry (tabs t.stn) p).state = .unknown) ∧
        (present = false → (portEntry (tabs t.stn) p).state = .empty) ∧
        ((present = true → probeByCode (cellOf s.stn) code = none) →
          (∀ x, 1 ≤ x → x ≤ 24 → (portEntry (tabs s.stn) p).state = .occupied x → Says.lostFrom s.stn t.stn x p n) ∧
          ((∀ x, (portEntry (tabs s.stn) p).state ≠ .occupied x) → Says.probesStay s.stn t.stn ∧ Says.otherPortsStay s.stn t.stn p)))

/-- O41. PORT_STATE on a RESERVED port: with UNLOCKED the reservation stands. With LOCKED a deposit is settled by what the rack reads, and
stands while it reads ABSENT; a pickup whose take has been seen ends when the rack reads ABSENT, and stands otherwise (R113, R114, R116). -/
def Obligations.RackReportSettlesReservation : Prop :=
  ∀ (h : Hdr) (p : Nat) (present : Bool) (lock : Lock) (code : Option Code) (s : State) (n k : Nat) (purpose : Purpose) (m : Nat),
    Says.takes s.stn ⟨h, .portState p present lock code⟩ n → Says.passes s.stn h → TablesSized (tabs s.stn) →
    configured (cellOf s.stn) p = true → (portEntry (tabs s.stn) p).state = .reserved k purpose m → 1 ≤ m → m ≤ 24 →
    ∃ t : State, exec (.portState h p present lock code) s = .next t ∧ t.pending = s.pending ∧ Says.tablesElse s.stn t.stn h n ∧
      Says.latchesStay s.stn t.stn ∧
      (portEntry (tabs t.stn) p).presence = (if present then .present else .absent) ∧ (portEntry (tabs t.stn) p).lock = lock ∧
      (portEntry (tabs t.stn) p).ident = code ∧
      (lock = .unlocked ∨ (purpose = .deposit ∧ present = false) ∨
          (purpose = .pickup ∧ (present = true ∨ (portEntry (tabs s.stn) p).takeSeen = false)) →
        (portEntry (tabs t.stn) p).state = .reserved k purpose m ∧ Says.probesStay s.stn t.stn ∧ Says.otherPortsStay s.stn t.stn p) ∧
      (lock = .locked → purpose = .deposit → present = true →
        (portEntry (tabs t.stn) p).takeSeen = false ∧
        (probeByCode (cellOf s.stn) code = some m → (portEntry (tabs t.stn) p).state = .occupied m ∧ Says.placedAtPort s.stn t.stn m p n) ∧
        (∀ x, probeByCode (cellOf s.stn) code = some x → x ≠ m →
          (portEntry (tabs t.stn) p).state = .occupied x ∧ (probeRec (tabs t.stn) x).custody = .port p ∧
          (probeRec (tabs t.stn) m).custody = .lost ∧ (probeRec (tabs t.stn) m).cond = .suspect) ∧
        (probeByCode (cellOf s.stn) code = none →
          (portEntry (tabs t.stn) p).state = .unknown ∧ (probeRec (tabs t.stn) m).custody = .lost ∧
          (probeRec (tabs t.stn) m).cond = .suspect ∧ Says.otherProbesStay s.stn t.stn m)) ∧
      (lock = .locked → purpose = .pickup → present = false → (portEntry (tabs s.stn) p).takeSeen = true →
        (portEntry (tabs t.stn) p).state = .empty ∧ (portEntry (tabs t.stn) p).takeSeen = false ∧ Says.probesStay s.stn t.stn ∧
          Says.otherPortsStay s.stn t.stn p)

/-- O42. PORT_ABANDON of the station that holds the reservation ends it and leaves the port in the state that the purpose, the
maybe-inside flag and the halves already seen give it; any other PORT_ABANDON is void (R117). -/
def Obligations.AbandonSettlesPort : Prop :=
  ∀ (h : Hdr) (p : Nat) (inside : Bool) (s : State) (n : Nat),
    Says.takes s.stn ⟨h, .portAbandon p inside⟩ n → Says.passes s.stn h → TablesSized (tabs s.stn) →
    ∃ t : State, exec (.portAbandon h p inside) s = .next t ∧ t.pending = s.pending ∧ Says.tablesElse s.stn t.stn h n ∧
      Says.latchesStay s.stn t.stn ∧ Says.otherPortsStay s.stn t.stn p ∧
      (∀ purpose x, configured (cellOf s.stn) p = true → (portEntry (tabs s.stn) p).state = .reserved h.sender purpose x →
        1 ≤ x → x ≤ 24 →
        portEntry (tabs t.stn) p = { portEntry (tabs s.stn) p with
          takeSeen := false, stamp := n + 1, state := (portEntry (tabs t.stn) p).state } ∧
        Says.otherProbesStay s.stn t.stn x ∧
        (purpose = .deposit → inside = true ∨ (probeRec (tabs s.stn) x).custody = .transfer p →
          (portEntry (tabs t.stn) p).state = .unknown ∧
          ((probeRec (tabs s.stn) x).custody = .transfer p → probeRec (tabs t.stn) x = Says.placed (probeRec (tabs s.stn) x) .lost n) ∧
          ((probeRec (tabs s.stn) x).custody ≠ .transfer p → Says.probesStay s.stn t.stn)) ∧
        (purpose = .deposit → inside = false → (probeRec (tabs s.stn) x).custody ≠ .transfer p →
          (portEntry (tabs t.stn) p).state = .empty ∧ Says.probesStay s.stn t.stn) ∧
        (purpose = .pickup → inside = true →
          (portEntry (tabs t.stn) p).state = .unknown ∧
          ((portEntry (tabs s.stn) p).takeSeen = false → (probeRec (tabs s.stn) x).custody = .port p →
            probeRec (tabs t.stn) x = Says.placed (probeRec (tabs s.stn) x) .lost n) ∧
          ((portEntry (tabs s.stn) p).takeSeen = true ∨ (probeRec (tabs s.stn) x).custody ≠ .port p → Says.probesStay s.stn t.stn)) ∧
        (purpose = .pickup → inside = false → (portEntry (tabs s.stn) p).takeSeen = true →
          (portEntry (tabs t.stn) p).state = (if (portEntry (tabs s.stn) p).presence = .absent then .empty else .unknown) ∧
          Says.probesStay s.stn t.stn) ∧
        (purpose = .pickup → inside = false → (portEntry (tabs s.stn) p).takeSeen = false →
          (portEntry (tabs t.stn) p).state = .occupied x ∧ Says.probesStay s.stn t.stn)) ∧
      (configured (cellOf s.stn) p = false ∨ (∀ purpose x, (portEntry (tabs s.stn) p).state ≠ .reserved h.sender purpose x) →
        Says.portsStay s.stn t.stn ∧ Says.probesStay s.stn t.stn)

/-- O43. PROBE_DEPOSIT of the station that holds the reservation puts its probe into TRANSFER: the port named stays RESERVED, and the old custody is
vacated, so that any other port RESERVED for a deposit of the probe returns to EMPTY (R108 step 1). PROBE_TAKE of one that holds a pickup marks
the take seen and moves the probe that its code names to the station. Where that is not the probe reserved for, the named one is SUSPECT and
the reserved one LOST; with an unmatched code the reserved one and all at the station are LOST. Any other is void (R115, R116). -/
def Obligations.DepositAndTake : Prop :=
  (∀ (h : Hdr) (m p : Nat) (s : State) (n : Nat),
    Says.takes s.stn ⟨h, .probeDeposit m p⟩ n → Says.passes s.stn h → TablesSized (tabs s.stn) →
    ∃ t : State, exec (.probeDeposit h m p) s = .next t ∧ t.pending = s.pending ∧ Says.tablesElse s.stn t.stn h n ∧
      Says.latchesStay s.stn t.stn ∧
      (configured (cellOf s.stn) p = true → (portEntry (tabs s.stn) p).state = .reserved h.sender .deposit m →
        probeRec (tabs t.stn) m = Says.placed (probeRec (tabs s.stn) m) (.transfer p) n ∧ Says.otherProbesStay s.stn t.stn m ∧
        portEntry (tabs t.stn) p = portEntry (tabs s.stn) p ∧
        (∀ q, 1 ≤ q → q ≤ 12 → q ≠ p → portEntry (tabs t.stn) q = Says.vacated s.stn m q n)) ∧
      (configured (cellOf s.stn) p = false ∨ (portEntry (tabs s.stn) p).state ≠ .reserved h.sender .deposit m →
        Says.portsStay s.stn t.stn ∧ Says.probesStay s.stn t.stn)) ∧
  (∀ (h : Hdr) (x p : Nat) (code : Option Code) (s : State) (n : Nat),
    Says.takes s.stn ⟨h, .probeTake x p code⟩ n → Says.passes s.stn h → TablesSized (tabs s.stn) →
    ∃ t : State, exec (.probeTake h x p code) s = .next t ∧ t.pending = s.pending ∧ Says.tablesElse s.stn t.stn h n ∧
      Says.latchesStay s.stn t.stn ∧
      (configured (cellOf s.stn) p = true → (portEntry (tabs s.stn) p).state = .reserved h.sender .pickup x →
        Says.portsFollow s.stn t.stn p n ∧
        ((portEntry (tabs s.stn) p).presence = .absent →
          portEntry (tabs t.stn) p = { portEntry (tabs s.stn) p with state := .empty, takeSeen := false, stamp := n + 1 }) ∧
        ((portEntry (tabs s.stn) p).presence ≠ .absent →
          portEntry (tabs t.stn) p = { portEntry (tabs s.stn) p with takeSeen := true, stamp := n + 1 }) ∧
        (probeByCode (cellOf s.stn) code = some x →
          probeRec (tabs t.stn) x = Says.placed (probeRec (tabs s.stn) x) (.station h.sender) n ∧
          Says.stationCleared s.stn t.stn [x] h.sender) ∧
        (∀ y, probeByCode (cellOf s.stn) code = some y → y ≠ x →
          (probeRec (tabs t.stn) y).custody = .station h.sender ∧ (probeRec (tabs t.stn) y).cond = .suspect ∧
          (probeRec (tabs t.stn) x).custody = .lost ∧ Says.stationCleared s.stn t.stn [y, x] h.sender) ∧
        (probeByCode (cellOf s.stn) code = none →
          (probeRec (tabs t.stn) x).custody = .lost ∧ Says.stationCleared s.stn t.stn [x] h.sender)) ∧
      (configured (cellOf s.stn) p = false ∨ (portEntry (tabs s.stn) p).state ≠ .reserved h.sender .pickup x →
        Says.portsStay s.stn t.stn ∧ Says.probesStay s.stn t.stn))

/-- O44. MOUNT_REPORT places the probe that its code names at the sender and loses every other probe that was there; with an unmatched code
all that were there are LOST (R118). CUSTODY_SET places a probe in use at a configured port, which it occupies, at a station of role MC410, or
nowhere; any other is void (R119). -/
def Obligations.CustodyIsReported : Prop :=
  (∀ (h : Hdr) (code : Option Code) (s : State) (n : Nat),
    Says.takes s.stn ⟨h, .mountReport code⟩ n → Says.passes s.stn h → TablesSized (tabs s.stn) →
    ∃ t : State, exec (.mountReport h code) s = .next t ∧ t.pending = s.pending ∧ Says.tablesElse s.stn t.stn h n ∧
      Says.latchesStay s.stn t.stn ∧ Says.portsFollow s.stn t.stn 0 n ∧
      (∀ x, probeByCode (cellOf s.stn) code = some x →
        probeRec (tabs t.stn) x = Says.placed (probeRec (tabs s.stn) x) (.station h.sender) n ∧
        Says.stationCleared s.stn t.stn [x] h.sender) ∧
      (probeByCode (cellOf s.stn) code = none → Says.stationCleared s.stn t.stn [] h.sender)) ∧
  (∀ (h : Hdr) (x : Nat) (cu : Custody) (s : State) (n : Nat),
    Says.takes s.stn ⟨h, .custodySet x cu⟩ n → Says.passes s.stn h → TablesSized (tabs s.stn) →
    ∃ t : State, exec (.custodySet h x cu) s = .next t ∧ t.pending = s.pending ∧ Says.tablesElse s.stn t.stn h n ∧
      Says.latchesStay s.stn t.stn ∧
      (inUse (cellOf s.stn) x = true →
        (∀ p, cu = .port p → configured (cellOf s.stn) p = true →
          Says.placedAtPort s.stn t.stn x p n ∧
          portEntry (tabs t.stn) p = { portEntry (tabs s.stn) p with state := .occupied x, stamp := (portEntry (tabs t.stn) p).stamp }) ∧
        (∀ k, cu = .station k → roleIn (cellOf s.stn) k = .mc410 →
          probeRec (tabs t.stn) x = Says.placed (probeRec (tabs s.stn) x) (.station k) n ∧
          Says.stationCleared s.stn t.stn [x] k ∧ Says.portsFollow s.stn t.stn 0 n) ∧
        (cu = .lost → Says.lostFrom s.stn t.stn x 0 n)) ∧
      (inUse (cellOf s.stn) x = false ∨ (∃ p, cu = .port p ∧ configured (cellOf s.stn) p = false) ∨
          (∃ k, cu = .station k ∧ roleIn (cellOf s.stn) k ≠ .mc410) ∨ (∃ p, cu = .transfer p) →
        Says.portsStay s.stn t.stn ∧ Says.probesStay s.stn t.stn))

/-! ### The probe directory (chapter 7) -/

/-- O45. QUAL_PART stages a part in its sender's latch, which starts afresh for another probe or number of parts (R134). QUAL_COMMIT empties
the latch; where it names what the latch holds, complete and with distinct keys, of a probe in the sender's custody, the parts become the
probe's tip entries, QUALIFIED, and its condition USABLE (R135). PROBE_MARK makes a probe in the sender's custody SUSPECT (R138). -/
def Obligations.QualificationIsStaged : Prop :=
  (∀ (h : Hdr) (x i m : Nat) (tip : Tip) (s : State) (n : Nat),
    Says.takes s.stn ⟨h, .qualPart x i m tip⟩ n → Says.passes s.stn h → TablesSized (tabs s.stn) →
    ∃ t : State, exec (.qualPart h x i m tip) s = .next t ∧ t.pending = s.pending ∧ Says.tablesElse s.stn t.stn h n ∧
      Says.probesStay s.stn t.stn ∧ Says.portsStay s.stn t.stn ∧
      (∀ j, j ≠ h.sender → latchOf (tabs t.stn) j = latchOf (tabs s.stn) j) ∧
      (inUse (cellOf s.stn) x = true → i ≤ m →
        (∀ d, (latchOf (tabs s.stn) h.sender).data = some d → d.probe = x → d.n = m →
          latchOf (tabs t.stn) h.sender = ⟨some ⟨x, m, set1 d.parts i (some tip)⟩, n + 1⟩) ∧
        ((∀ d, (latchOf (tabs s.stn) h.sender).data = some d → d.probe ≠ x ∨ d.n ≠ m) →
          latchOf (tabs t.stn) h.sender = ⟨some ⟨x, m, set1 (List.replicate 6 none) i (some tip)⟩, n + 1⟩)) ∧
      (inUse (cellOf s.stn) x = false ∨ m < i → Says.latchesStay s.stn t.stn)) ∧
  (∀ (h : Hdr) (x m : Nat) (temp : Int) (s : State) (n : Nat),
    Says.takes s.stn ⟨h, .qualCommit x m temp⟩ n → Says.passes s.stn h → TablesSized (tabs s.stn) →
    ∃ t : State, exec (.qualCommit h x m temp) s = .next t ∧ t.pending = s.pending ∧ Says.tablesElse s.stn t.stn h n ∧
      Says.portsStay s.stn t.stn ∧ (∀ j, j ≠ h.sender → latchOf (tabs t.stn) j = latchOf (tabs s.stn) j) ∧
      (latchOf (tabs t.stn) h.sender).data = none ∧ Says.otherProbesStay s.stn t.stn x ∧
      (∀ (d : LatchData) (ts : List Tip), (latchOf (tabs s.stn) h.sender).data = some d → d.probe = x → d.n = m → d.parts.take m = ts.map some → ts.length = m →
        (ts.map tipKeyOf).Nodup → (probeRec (tabs s.stn) x).custody = .station h.sender →
        probeRec (tabs t.stn) x = { probeRec (tabs s.stn) x with
          tips := ts.map (fun e => { e with stale := false }), qualTemp := some temp, cond := .usable
          touches := 0, staleRun := 0, stamp := n + 1 }) ∧
      ((∀ (d : LatchData) (ts : List Tip), (latchOf (tabs s.stn) h.sender).data = some d → d.probe = x → d.n = m → d.parts.take m = ts.map some → ts.length = m →
          (ts.map tipKeyOf).Nodup → (probeRec (tabs s.stn) x).custody ≠ .station h.sender) →
        Says.probesStay s.stn t.stn)) ∧
  (∀ (h : Hdr) (x : Nat) (s : State) (n : Nat),
    Says.takes s.stn ⟨h, .probeMark x⟩ n → Says.passes s.stn h → TablesSized (tabs s.stn) →
    ∃ t : State, exec (.probeMark h x) s = .next t ∧ t.pending = s.pending ∧ Says.tablesElse s.stn t.stn h n ∧
      Says.portsStay s.stn t.stn ∧ Says.latchesStay s.stn t.stn ∧ Says.otherProbesStay s.stn t.stn x ∧
      (inUse (cellOf s.stn) x = true → (probeRec (tabs s.stn) x).custody = .station h.sender →
        probeRec (tabs t.stn) x = { probeRec (tabs s.stn) x with cond := .suspect, stamp := (probeRec (tabs t.stn) x).stamp } ∧
        ((probeRec (tabs s.stn) x).cond = .usable → (probeRec (tabs t.stn) x).stamp = n + 1)) ∧
      (inUse (cellOf s.stn) x = false ∨ (probeRec (tabs s.stn) x).custody ≠ .station h.sender → Says.probesStay s.stn t.stn))

/-! ### The thermal board and touch counts (chapters 5 and 7) -/

/-- O46. THERMAL takes the place of its sender's entries on the board, unexcluded and stamped, the others as they were (R99); the derived part
temperature and gradient follow the counted set (R102 to R104); the probe on the sender is checked against its own head temperature: within
the band its run of stale readings ends, outside it rises, and the third in a row turns its entries STALE (R100, R136). The station's own
THERMAL closes every PENDING point captured before it against the new board, with the corrections of R149 to R152; the others wait (R147). -/
def Obligations.ThermalIsPlaced : Prop :=
  ∀ (h : Hdr) (es : List ThermEntry) (s : State) (n : Nat),
    Says.takes s.stn ⟨h, .thermal es⟩ n → Says.passes s.stn h → TablesSized (tabs s.stn) →
    ∃ t : State, exec (.thermal h es) s = .next t ∧ t.pending = s.pending ∧ Says.counted s.stn t.stn h n ∧
      Says.rosterFollows s.stn t.stn h n ∧ Says.zonesStay s.stn t.stn ∧ Says.portsStay s.stn t.stn ∧ Says.latchesStay s.stn t.stn ∧
      (∀ e, e.station ≠ h.sender → (e ∈ (tabs t.stn).board ↔ e ∈ (tabs s.stn).board)) ∧
      (∀ e, e.station = h.sender →
        (e ∈ (tabs t.stn).board ↔ ∃ x ∈ es, e = ⟨h.sender, x.input, x.kind, x.value, x.state, false, n + 1⟩)) ∧
      ((tabs t.stn).partTemp = if Says.partValues (tabs t.stn) = [] then none else some (meanRound (Says.partValues (tabs t.stn)))) ∧
      ((tabs t.stn).gradient = true ↔ ∃ u ∈ Says.partValues (tabs t.stn), ∃ v ∈ Says.partValues (tabs t.stn),
        ((cellOf s.stn).gradient : Int) < u - v) ∧
      (∀ y, (probeRec (tabs s.stn) y).custody ≠ .station h.sender → probeRec (tabs t.stn) y = probeRec (tabs s.stn) y) ∧
      (∀ x q e, mountedOn (tabs s.stn) h.sender = some x → (probeRec (tabs s.stn) x).qualTemp = some q → e ∈ es → e.kind = .head →
        (∀ y ∈ es, y.kind = .head → y = e) →
        (e.state ≠ .valid → probeRec (tabs t.stn) x = probeRec (tabs s.stn) x) ∧
        (e.state = .valid → (e.value - q).natAbs ≤ (cellOf s.stn).staleBand →
          (probeRec (tabs t.stn) x).staleRun = 0 ∧ (probeRec (tabs t.stn) x).tips = (probeRec (tabs s.stn) x).tips) ∧
        (e.state = .valid → (cellOf s.stn).staleBand < (e.value - q).natAbs → (probeRec (tabs s.stn) x).staleRun < 2 →
          (probeRec (tabs t.stn) x).staleRun = (probeRec (tabs s.stn) x).staleRun + 1 ∧
          (probeRec (tabs t.stn) x).tips = (probeRec (tabs s.stn) x).tips) ∧
        (e.state = .valid → (cellOf s.stn).staleBand < (e.value - q).natAbs → 2 ≤ (probeRec (tabs s.stn) x).staleRun →
          (probeRec (tabs t.stn) x).staleRun = 0 ∧ ∀ g ∈ (probeRec (tabs t.stn) x).tips, g.stale = true)) ∧
      (∀ d, PointEntry.pending d ∈ s.stn.touch.points →
        (h.sender = me s.stn → d.count < n + 1 → Says.closed t.stn t.stn false d) ∧
        (h.sender ≠ me s.stn ∨ n + 1 ≤ d.count → PointEntry.pending d ∈ t.stn.touch.points))

/-- O47. A POINT counts one touch of the probe in use that it names, up to 65 535; at the touch limit of the image its entries turn STALE
(R137). Nothing else of the tables changes. -/
def Obligations.PointCountsTouch : Prop :=
  ∀ (h : Hdr) (p : PointBody) (s : State) (n : Nat),
    Says.takes s.stn ⟨h, .point p⟩ n → Says.passes s.stn h → TablesSized (tabs s.stn) →
    ∃ t : State, exec (.point h p) s = .next t ∧ t.pending = s.pending ∧ Says.tablesElse s.stn t.stn h n ∧
      Says.portsStay s.stn t.stn ∧ Says.latchesStay s.stn t.stn ∧ Says.otherProbesStay s.stn t.stn p.probe ∧
      (inUse (cellOf s.stn) p.probe = true → (probeRec (tabs s.stn) p.probe).touches < 65535 →
        (probeRec (tabs t.stn) p.probe).touches = (probeRec (tabs s.stn) p.probe).touches + 1 ∧
        (probeRec (tabs t.stn) p.probe).stamp = n + 1 ∧ (probeRec (tabs t.stn) p.probe).custody = (probeRec (tabs s.stn) p.probe).custody ∧
        ((cellOf s.stn).touchLimit ≠ 0 → (probeRec (tabs s.stn) p.probe).touches + 1 = (cellOf s.stn).touchLimit →
          ∀ g ∈ (probeRec (tabs t.stn) p.probe).tips, g.stale = true) ∧
        ((cellOf s.stn).touchLimit = 0 ∨ (probeRec (tabs s.stn) p.probe).touches + 1 ≠ (cellOf s.stn).touchLimit →
          (probeRec (tabs t.stn) p.probe).tips = (probeRec (tabs s.stn) p.probe).tips)) ∧
      (inUse (cellOf s.stn) p.probe = false ∨ 65535 ≤ (probeRec (tabs s.stn) p.probe).touches → Says.probesStay s.stn t.stn)

/-! ### Requests, answers and events as frames (chapters 1 and 9) -/

/-- O48. REQUEST, ANSWER and EVENT change no table. A REQUEST addressed here is delivered with the reservation of its window (R5, R7, R158); one
for another station is counted only. The station's own ANSWER, EVENT or POINT that completes is removed, its retry count cleared (R7, R18),
and the ANSWER of an accepted RESTART restarts the station (R164, R175), the straps, which the command brings (log 5), read afresh (R169). -/
def Obligations.ReportFramesComplete : Prop :=
  (∀ (h : Hdr) (tag : Code) (r : ReqBody) (s : State), listening s.stn = true → vetoedHere s.stn = false →
    formatGood (cellOf s.stn) ⟨h, .request tag r⟩ = true →
    ∃ t : State, exec (.request h tag r) s = .next t ∧ t.pending = s.pending ∧
      t.stn.line.lineCount = s.stn.line.lineCount.map (· + 1) ∧ t.stn.line.window = none ∧ tabs t.stn = tabs s.stn ∧
      t.stn.loader = s.stn.loader ∧ t.stn.motion = s.stn.motion ∧ t.stn.line.report = s.stn.line.report ∧
      (h.dest = 0 ∨ h.dest = me s.stn → (∃ w, s.stn.line.window = some w ∧ w.reserved = true) →
        t.stn.request.delivered = s.stn.request.delivered ++ [⟨h.sender, tag, r⟩] ∧ t.stn.line.reserved = s.stn.line.reserved) ∧
      (h.dest ≠ 0 → h.dest ≠ me s.stn → t.stn.request = s.stn.request ∧ t.stn.line.reserved = s.stn.line.reserved)) ∧
  (∀ (c : Instr) (f : Frame) (s : State), Says.frameOf c = some f → (∃ a, f.body = .answer a) ∨ (∃ e, f.body = .event e) →
    listening s.stn = true → vetoedHere s.stn = false → formatGood (cellOf s.stn) f = true →
    ∃ t : State, exec c s = .next t ∧ t.pending = s.pending ∧
      (ownFlight s.stn f = false →
        t.stn.line.lineCount = s.stn.line.lineCount.map (· + 1) ∧ t.stn.line.window = none ∧ tabs t.stn = tabs s.stn ∧
        t.stn.loader = s.stn.loader ∧ t.stn.motion = s.stn.motion ∧ t.stn.request = s.stn.request ∧
        t.stn.line.flight = s.stn.line.flight ∧ t.stn.line.retry = s.stn.line.retry) ∧
      (ownFlight s.stn f = true → answersRestart s.stn f.body = false →
        t.stn.line.lineCount = s.stn.line.lineCount.map (· + 1) ∧ t.stn.line.window = none ∧ tabs t.stn = tabs s.stn ∧
        t.stn.loader = s.stn.loader ∧ t.stn.motion = s.stn.motion ∧ t.stn.request = s.stn.request ∧
        t.stn.line.flight = none ∧ t.stn.line.retry = 0) ∧
      (ownFlight s.stn f = true → answersRestart s.stn f.body = true →
        t.stn.loader.cause = .requested ∧ t.stn.line = LinePort.reset ∧ t.stn.replica = ReplicaUnit.reset ∧
        t.stn.motion.enc = s.stn.motion.enc ∧ t.stn.motion.homed = s.stn.motion.homed ∧
        t.stn.loader.outRecord = s.stn.loader.outRecord)) ∧
  (∀ (h : Hdr) (a : AnswerBody) (straps : Nat) (s : State), listening s.stn = true → vetoedHere s.stn = false →
    formatGood (cellOf s.stn) ⟨h, .answer a⟩ = true → ownFlight s.stn ⟨h, .answer a⟩ = true → answersRestart s.stn (.answer a) = true →
    ∃ t : State, exec (.answer h a straps) s = .next t ∧ t.pending = s.pending ∧
      t.stn.pins = { s.stn.pins with straps := straps % 16 } ∧ t.stn.loader.number = straps % 16 ∧ t.stn.request = RequestUnit.reset ∧
      (1 ≤ straps % 16 → straps % 16 ≤ 14 → t.stn.loader.mode = .loading) ∧
      (straps % 16 = 0 ∨ straps % 16 = 15 → t.stn.loader.mode = .shut ∧ t.stn.loader.shutReason = some .strap)) ∧
  (∀ (h : Hdr) (p : PointBody) (s : State) (n : Nat), Says.takes s.stn ⟨h, .point p⟩ n → ownFlight s.stn ⟨h, .point p⟩ = true →
    ∃ t : State, exec (.point h p) s = .next t ∧ t.pending = s.pending ∧ t.stn.line.flight = none ∧ t.stn.line.retry = 0 ∧
      ∀ d c, PointEntry.queued d c ∈ t.stn.touch.points → d.seq ≠ p.seq)

/-! ### Requests (chapter 9) -/

/-- O49. A MOVE, TOUCH, HOME or INDEX that passes its checks (R160, R161) is accepted with the next acceptance number and queued: behind what moves
or leads it waits its turn (R74, R75). On an idle station it starts: a TOUCH takes a credit first, or waits for one (R79); a segment whose zones
are held runs, a HOME with its channel's axes unhomed (R69); where one is missing it waits for its zones with a ZONE_CLAIM offered (R48, R49, R56).
`enc` are the encoder counts that the command brings (R68, log 5). -/
def Obligations.MotionRequestsAreAccepted : Prop :=
  (∀ (src : Nat) (tag : Code) (v : Vec3) (speed recovery : Nat) (enc : Counts) (s : State) (u : Station), u = readEncoders s.stn enc →
    Says.asks u src tag (.move v speed recovery) →
    Says.gateOpen u → 1 ≤ speed → speed ≤ 500 → recovery ≤ 1 → (ownOf u).axes ≠ [] → allHomed u = true →
    Says.roomOn u .arm → limitsHold u (tipOffset u (indexFooting u)) (.traverse v) = true → zonesAllowed u (.traverse v) = true →
    ∃ t : State, exec (.move src tag v speed recovery enc) s = .next t ∧ t.pending = s.pending ∧
      Says.segmentTaken u t.stn src tag 1 .arm (Says.newSegment u (.traverse v) tag (recovery == 1) speed) ∧
      (Says.allIdle u → Says.startsOrWaits u t.stn .arm
        { Says.newSegment u (.traverse v) tag (recovery == 1) speed with
          axisTarget := some (targetCounts u (tipOffset u (headIndex u)) v) }
        (zoneSetFrom u (currentTip u) (clearance u) (.traverse v)) (if recovery = 1 then .recovery else .routine))) ∧
  (∀ (src : Nat) (tag : Code) (a : TouchArgs) (enc : Counts) (s : State) (u : Station) (x : Nat) (e : Tip), u = readEncoders s.stn enc →
    Says.asks u src tag (.touch a) →
    Says.gateOpen u → a.dir ≠ ⟨0, 0, 0⟩ → 50 ≤ a.approach → a.approach ≤ 1000 → 50 ≤ a.retract → a.retract ≤ 2000 →
    5 ≤ a.probing → a.probing ≤ 200 → 1 ≤ a.speed → a.speed ≤ 500 → (ownOf u).axes ≠ [] → allHomed u = true →
    Says.roomOn u .arm → mounted u = some x → (probeRec (tabs u) x).cond = .usable →
    currentEntry u (indexFooting u) = some e → limitsHold u (tipOffset u (indexFooting u)) (.touch a) = true → zonesAllowed u (.touch a) = true →
    ∃ t : State, exec (.touch src tag a enc) s = .next t ∧ t.pending = s.pending ∧
      Says.segmentTaken u t.stn src tag 2 .arm (Says.newSegment u (.touch a) tag false a.speed) ∧
      (Says.allIdle u → (∃ p ∈ u.touch.points, p = .free) →
        reservedPoints t.stn = reservedPoints u + 1 ∧
        Says.startsOrWaits u t.stn .arm
          { Says.newSegment u (.touch a) tag false a.speed with
            credit := true, axisTarget := some (targetCounts u (tipOffset u (headIndex u)) (approachPoint a)) }
          (zoneSetFrom u (currentTip u) (clearance u) (.touch a)) .routine) ∧
      (Says.allIdle u → (∀ p ∈ u.touch.points, p ≠ .free) →
        t.stn.touch = u.touch ∧ t.stn.motion.head = u.motion.head ∧ t.stn.motion.arm.state = .waitCredit ∧
        t.stn.motion.arm.queue = [Says.newSegment u (.touch a) tag false a.speed])) ∧
  (∀ (src : Nat) (tag : Code) (n : Nat) (c : ChanId) (enc : Counts) (s : State) (u : Station), u = readEncoders s.stn enc →
    Says.asks u src tag (.home n) →
    (n = 0 ∧ c = .arm) ∨ (n = 1 ∧ c = .head) → Says.gateOpen u → chanAxes u c ≠ [] → Says.roomOn u c →
    ∃ t : State, exec (.home src tag n enc) s = .next t ∧ t.pending = s.pending ∧
      Says.segmentTaken u t.stn src tag 3 c (Says.newSegment u .home tag false 0) ∧
      (Says.allIdle u → Says.startsOrWaits u t.stn c (Says.newSegment u .home tag false 0) (homeMask (cellOf u) (me u)) .routine ∧
        (holdsAll u (homeMask (cellOf u) (me u)) = true →
          (∀ ax, ax ∈ chanAxes u c → t.stn.motion.homed.get ax = false) ∧
          ∀ ax, ax ∉ chanAxes u c → t.stn.motion.homed.get ax = u.motion.homed.get ax) ∧
        (holdsAll u (homeMask (cellOf u) (me u)) = false → t.stn.motion.homed = u.motion.homed))) ∧
  (∀ (src : Nat) (tag : Code) (a : Nat) (b : Int) (enc : Counts) (s : State) (u : Station), u = readEncoders s.stn enc →
    Says.asks u src tag (.index a b) →
    Says.gateOpen u → a ≤ 14 → -24 ≤ b → b ≤ 24 → chanAxes u .head ≠ [] → allHomed u = true → Says.roomOn u .head →
    limitsHold u (tipOffset u (indexFooting u)) (.index a b) = true → zonesAllowed u (.index a b) = true →
    ∃ t : State, exec (.index src tag a b enc) s = .next t ∧ t.pending = s.pending ∧
      Says.segmentTaken u t.stn src tag 4 .head (Says.newSegment u (.index a b) tag false (ownOf u).indexRate) ∧
      (Says.allIdle u → Says.startsOrWaits u t.stn .head
        { Says.newSegment u (.index a b) tag false (ownOf u).indexRate with axisTarget := some { u.motion.enc with a := a, b := b } }
        (zoneSetFrom u (currentTip u) (clearance u) (.index a b)) .routine))

/-- O50. A motion request that fails a check is refused with the reason of the first that fails, and has no effect (R160, R161). The order of the
reasons is spelled out for a MOVE: NOT_ACTIVE, PARKED, BUSY, BAD_ARG, NOT_HOMED, BUSY, QUEUE_FULL, LIMIT, ZONE_FORBIDDEN; and for TOUCH, HOME and
INDEX by the lists `Says.touchList`, `Says.homeList` and `Says.indexList` of what each must meet. -/
def Obligations.MotionRequestsAreRefused : Prop :=
  (∀ (src : Nat) (tag : Code) (v : Vec3) (speed recovery : Nat) (enc : Counts) (s : State) (u : Station), u = readEncoders s.stn enc →
    Says.asks u src tag (.move v speed recovery) →
    ∃ t : State, exec (.move src tag v speed recovery enc) s = .next t ∧ t.pending = s.pending ∧
      (¬ (serving u = true ∧ (rosterEntry (tabs u) (me u)).state = .active) → Says.refused u t.stn src tag 1 1) ∧
      (serving u = true → (rosterEntry (tabs u) (me u)).state = .active → u.loader.mode = .parked →
        Says.refused u t.stn src tag 1 2) ∧
      (serving u = true → (rosterEntry (tabs u) (me u)).state = .active → u.loader.mode ≠ .parked →
        u.change.state ≠ .idle ∨ u.request.restartPending = true → Says.refused u t.stn src tag 1 3) ∧
      (Says.gateOpen u → ¬ (1 ≤ speed ∧ speed ≤ 500 ∧ recovery ≤ 1 ∧ (ownOf u).axes ≠ []) →
        Says.refused u t.stn src tag 1 5) ∧
      (Says.gateOpen u → 1 ≤ speed → speed ≤ 500 → recovery ≤ 1 → (ownOf u).axes ≠ [] →
        (allHomed u = false → Says.refused u t.stn src tag 1 7) ∧
        (allHomed u = true →
          (takesSegment u.motion.arm.state = false → Says.refused u t.stn src tag 1 3) ∧
          (takesSegment u.motion.arm.state = true → 16 ≤ u.motion.arm.queue.length → Says.refused u t.stn src tag 1 4) ∧
          (Says.roomOn u .arm → limitsHold u (tipOffset u (indexFooting u)) (.traverse v) = false →
            Says.refused u t.stn src tag 1 6) ∧
          (Says.roomOn u .arm → limitsHold u (tipOffset u (indexFooting u)) (.traverse v) = true →
            zonesAllowed u (.traverse v) = false → Says.refused u t.stn src tag 1 10)))) ∧
  (∀ (src : Nat) (tag : Code) (a : TouchArgs) (enc : Counts) (s : State) (u : Station) (r : Nat), u = readEncoders s.stn enc →
    Says.asks u src tag (.touch a) → Says.firstOf (Says.touchList u a) r →
    ∃ t : State, exec (.touch src tag a enc) s = .next t ∧ t.pending = s.pending ∧ Says.refused u t.stn src tag 2 r) ∧
  (∀ (src : Nat) (tag : Code) (n : Nat) (enc : Counts) (s : State) (u : Station) (r : Nat), u = readEncoders s.stn enc →
    Says.asks u src tag (.home n) → Says.firstOf (Says.homeList u n) r →
    ∃ t : State, exec (.home src tag n enc) s = .next t ∧ t.pending = s.pending ∧ Says.refused u t.stn src tag 3 r) ∧
  (∀ (src : Nat) (tag : Code) (a : Nat) (b : Int) (enc : Counts) (s : State) (u : Station) (r : Nat), u = readEncoders s.stn enc →
    Says.asks u src tag (.index a b) → Says.firstOf (Says.indexList u a b) r →
    ∃ t : State, exec (.index src tag a b enc) s = .next t ∧ t.pending = s.pending ∧ Says.refused u t.stn src tag 4 r)

/-- O51. HALT: with no change running, a RUNNING channel it names goes STOPPING with its segment alone, a waiting one goes HALTED with its queue
flushed, any other stays; a moving channel it does not name goes on (R82, R83, R162). While a change runs the HALT is accepted all the same and the
change fails with HALTED: at once where no segment of it moves and the coupling has not shown HELD; after the take where it has, the HALT owed
till then (R126, R128). CLEAR: a HALTED channel, or a STALLED one without a counted drive fault, is IDLE again; STOPPING, or STALLED with the
fault there, refuses it (R87, R162); a selector that names no channel is refused BAD_ARG also while a change runs, the model's reading (log 23). -/
def Obligations.HaltAndClear : Prop :=
  (∀ (src : Nat) (tag : Code) (sel : Nat) (enc : Counts) (s : State) (u : Station), u = readEncoders s.stn enc →
    Says.asks u src tag (.halt sel) →
    ∃ t : State, exec (.halt src tag sel enc) s = .next t ∧ t.pending = s.pending ∧
      (sel = 0 ∨ 4 ≤ sel → Says.refused u t.stn src tag 5 5) ∧
      (1 ≤ sel → sel ≤ 3 →
        Says.answered u t.stn src ⟨tag, 5, true, 0, 0, []⟩ ∧ Says.unitsKeep u t.stn ∧
        (u.change.state = .idle → (u.change.failing = none → t.stn.change = u.change) ∧
          (∀ c ∈ selected sel,
            (∀ g r, (chan u c).queue = g :: r → (chan u c).state = .running →
              (chan t.stn c).state = .stopping ∧ (chan t.stn c).queue = [{ g with haltSeen := true }]) ∧
            (∀ g r, (chan u c).queue = g :: r → fromSequencer g = false → waitingState (chan u c).state = true →
              (chan t.stn c).state = .halted ∧ (chan t.stn c).queue = []) ∧
            ((chan u c).state ≠ .running → waitingState (chan u c).state = false → chan t.stn c = chan u c)) ∧
          (∀ c, c ∉ selected sel → movingState (chan u c).state = true → chan t.stn c = chan u c)) ∧
        (u.change.state ≠ .idle → u.change.failing = none → Says.allIdle u →
          (u.change.heldSeen = true → t.stn.change = { u.change with haltOwed := true } ∧ t.stn.motion = u.motion) ∧
          (u.change.heldSeen = false → t.stn.change.state = .idle ∧ t.stn.change.lastFailure = some .halted ∧
            t.stn.request.nextEvent = (u.request.nextEvent + 1) % 65536)) ∧
        (u.change.state ≠ .idle → u.change.failing = none → u.change.heldSeen = false →
          ∀ c d g, d ≠ c → (chan u c).queue = [g] → (chan u c).state = .running → fromSequencer g = true →
            (chan u d).state = .idle → (chan u d).queue = [] →
            (chan t.stn c).state = .stopping ∧ t.stn.change.failing = some .halted ∧ t.stn.change.lastFailure = some .halted ∧
              t.stn.change.state = u.change.state))) ∧
  (∀ (src : Nat) (tag : Code) (sel : Nat) (enc : Counts) (s : State) (u : Station), u = readEncoders s.stn enc →
    Says.asks u src tag (.clear sel) →
    ∃ t : State, exec (.clear src tag sel enc) s = .next t ∧ t.pending = s.pending ∧
      (u.request.restartPending = true → Says.refused u t.stn src tag 6 3) ∧
      (u.request.restartPending = false → sel = 0 ∨ 4 ≤ sel → Says.refused u t.stn src tag 6 5) ∧
      (u.request.restartPending = false → 1 ≤ sel → sel ≤ 3 → u.change.state ≠ .idle → Says.refused u t.stn src tag 6 3) ∧
      (u.request.restartPending = false → 1 ≤ sel → sel ≤ 3 → u.change.state = .idle → Says.unitsKeep u t.stn ∧
        (∀ c ∈ selected sel,
          ((chan u c).state = .halted ∨ ((chan u c).state = .stalled ∧ channelFault u c = false) →
            chan t.stn c = ⟨.idle, [], none⟩) ∧
          ((chan u c).state = .stopping ∨ ((chan u c).state = .stalled ∧ channelFault u c = true) →
            chan t.stn c = chan u c ∧ Says.answered u t.stn src ⟨tag, 6, false, 3, 0, []⟩)) ∧
        ((∀ c ∈ selected sel, clearRefused u c = false) → Says.answered u t.stn src ⟨tag, 6, true, 0, 0, []⟩)))

/-- O52. A CHANGE that passes the checks of R122 is accepted and recorded with its probe, its port and the probe to deposit; the HEAD channel
takes the INDEX to the rack attitude, which runs or waits for the route's zones (R123). One that fails is refused with the reason of the
first check that fails, in the order of `Says.changeList`; so is a QUALIFY, in that of `Says.qualifyList`. A QUALIFY that passes offers its QUAL_PART, and for the last part the QUAL_COMMIT with the head temperature (R132). -/
def Obligations.ChangeAndQualify : Prop :=
  (∀ (src : Nat) (tag : Code) (x p : Nat) (enc : Counts) (s : State) (u : Station), u = readEncoders s.stn enc →
    Says.asks u src tag (.change x) →
    u.request.restartPending = false → serving u = true → (rosterEntry (tabs u) (me u)).state = .active →
    u.loader.mode ≠ .parked → isArm u = true → inUse (cellOf u) x = true → u.change.state = .idle → Says.allIdle u →
    allHomed u = true → rosterState (tabs u) (cellOf u).rackStation = .active →
    (probeRec (tabs u) x).custody = .port p → p ≠ 0 → (portEntry (tabs u) p).state = .occupied x →
    (∀ m pm, depositPlan u = some (m, pm) → (portEntry (tabs u) pm).state = .empty) →
    meets (routeSet u (depositPlan u) x p) (othersHomeMask (cellOf u) (me u)) = false →
    withinLimits u .a (cellOf u).rackA = true → withinLimits u .b (cellOf u).rackB = true →
    ∃ t : State, exec (.change src tag x enc) s = .next t ∧ t.pending = s.pending ∧
      Says.answered u t.stn src ⟨tag, 7, true, 0, 0, []⟩ ∧ Says.unitsKeep u t.stn ∧
      t.stn.change = { Changer.idleWith u.change.output u.change.lastFailure with
        state := .claiming, tag := tag, t := x, pt := p, deposit := depositPlan u
        route := routeSet u (depositPlan u) x p } ∧
      t.stn.motion.arm = u.motion.arm ∧
      (∃ g, t.stn.motion.head.queue = [g] ∧ g.kind = .index (cellOf u).rackA (cellOf u).rackB ∧ g.origin = .sequencer false) ∧
      t.stn.motion.head.state =
        (if holdsAll u (routeSet u (depositPlan u) x p) = true then .running else .waitZone)) ∧
  (∀ (src : Nat) (tag : Code) (x : Nat) (enc : Counts) (s : State) (u : Station) (r : Nat), u = readEncoders s.stn enc →
    Says.asks u src tag (.change x) → Says.firstOf (Says.changeList u x) r →
    ∃ t : State, exec (.change src tag x enc) s = .next t ∧ t.pending = s.pending ∧ Says.refused u t.stn src tag 7 r) ∧
  (∀ (src : Nat) (tag : Code) (x i n : Nat) (tip : Tip) (s : State), Says.asks s.stn src tag (.qualify x i n tip) →
    ∃ t : State, exec (.qualify src tag x i n tip) s = .next t ∧ t.pending = s.pending ∧
      (∀ r, Says.firstOf (Says.qualifyList s.stn x i n tip) r → Says.refused s.stn t.stn src tag 8 r) ∧
      ((∀ c ∈ Says.qualifyList s.stn x i n tip, c.1) →
        Says.answered s.stn t.stn src ⟨tag, 8, true, 0, 0, []⟩ ∧ Says.unitsKeep s.stn t.stn ∧
        (i ≠ n → t.stn.line.control = s.stn.line.control ++ [⟨0, .qualPart x i n { tip with stale := false }⟩]) ∧
        (∀ b, i = n → boardKind (tabs s.stn) (me s.stn) .head = some b → t.stn.line.control =
          s.stn.line.control ++ [⟨0, .qualPart x i n { tip with stale := false }⟩, ⟨0, .qualCommit x n b.value⟩])))

/-- O53. PARK in ACTIVE mode: the channels are DISABLED, every zone held but the HOME zones is released, the mode is PARKED (R89). UNPARK in PARKED
mode: the mode is ACTIVE and the channels IDLE, or STALLED where an axis has a counted drive fault (R88, R89). Each is accepted without effect
in the mode it would bring about, and refused with the reason of the first check that fails, PARK in the order of `Says.parkList` (R162). -/
def Obligations.ParkAndUnpark : Prop :=
  (∀ (src : Nat) (tag : Code) (enc : Counts) (s : State) (u : Station), u = readEncoders s.stn enc → Says.asks u src tag .park →
    ∃ t : State, exec (.park src tag enc) s = .next t ∧ t.pending = s.pending ∧
      (∀ r, Says.firstOf (Says.parkList u) r → Says.refused u t.stn src tag 9 r) ∧
      ((∀ c ∈ Says.parkList u, c.1) → u.loader.mode = .parked →
        Says.answered u t.stn src ⟨tag, 9, true, 0, 0, []⟩ ∧ t.stn.loader = u.loader ∧ t.stn.motion = u.motion ∧
        t.stn.line.control = u.line.control) ∧
      ((∀ c ∈ Says.parkList u, c.1) → u.loader.mode = .active →
        Says.answered u t.stn src ⟨tag, 9, true, 0, 0, []⟩ ∧ t.stn.loader = { u.loader with mode := .parked } ∧
        t.stn.motion = { u.motion with arm := .disabled, head := .disabled } ∧ tabs t.stn = tabs u ∧
        driveEnable t.stn = false ∧ t.stn.request.nextEvent = (u.request.nextEvent + 1) % 65536 ∧
        (maskLess (heldHere u) (homeMask (cellOf u) (me u)) = 0#32 → t.stn.line.control = u.line.control) ∧
        (maskLess (heldHere u) (homeMask (cellOf u) (me u)) ≠ 0#32 →
          Says.releaseJoins (maskLess (heldHere u) (homeMask (cellOf u) (me u))) false u.line.control t.stn.line.control))) ∧
  (∀ (src : Nat) (tag : Code) (enc : Counts) (s : State) (u : Station), u = readEncoders s.stn enc → Says.asks u src tag .unpark →
    ∃ t : State, exec (.unpark src tag enc) s = .next t ∧ t.pending = s.pending ∧
      (u.request.restartPending = true → Says.refused u t.stn src tag 10 3) ∧
      (u.request.restartPending = false → serving u = false → Says.refused u t.stn src tag 10 1) ∧
      (u.request.restartPending = false → serving u = true → u.loader.mode = .active →
        Says.answered u t.stn src ⟨tag, 10, true, 0, 0, []⟩ ∧ t.stn.loader = u.loader ∧ t.stn.motion = u.motion ∧
        t.stn.line.control = u.line.control) ∧
      (u.request.restartPending = false → serving u = true → u.loader.mode = .parked →
        Says.answered u t.stn src ⟨tag, 10, true, 0, 0, []⟩ ∧ t.stn.loader = { u.loader with mode := .active } ∧
        tabs t.stn = tabs u ∧ t.stn.motion.enc = u.motion.enc ∧ t.stn.motion.homed = u.motion.homed ∧
        ((ownOf u).axes = [] → t.stn.motion.arm = u.motion.arm ∧ t.stn.motion.head = u.motion.head) ∧
        ((ownOf u).axes ≠ [] → ∀ c, chan t.stn c =
          if channelFault u c = true then ⟨.stalled, [], some .driveFault⟩ else ⟨.idle, [], none⟩)))

/-- O54. STATUS answers with its page and clears the overflow flag and the discard count, or is refused BAD_ARG and clears nothing (R163); page
0 of a station without a line count holds a value the spec leaves open (log 10). RESTART with the guard code is accepted and owed, refused
otherwise (R164). A request code that names no kind is refused UNKNOWN_REQUEST (R158). The pages are written out field by field, with
the sizes of 11.4; that an input of kind NONE shows SETTLING is the model's (log 29). -/
def Obligations.StatusRestartUnknown : Prop :=
  (∀ (src : Nat) (tag : Code) (page : Nat) (s : State), Says.asks s.stn src tag (.status page) →
    ∃ t : State, exec (.status src tag page) s = .next t ∧ t.pending = s.pending ∧
      (3 ≤ page → Says.refused s.stn t.stn src tag 11 5 ∧ t.stn.request.overflow = s.stn.request.overflow ∧
        t.stn.request.discards = s.stn.request.discards) ∧
      (page ≤ 2 → ∃ bytes, Says.answered s.stn t.stn src ⟨tag, 11, true, 0, 0, bytes⟩ ∧ t.stn.request.overflow = false ∧
        t.stn.request.discards = 0 ∧ Says.unitsKeep s.stn t.stn ∧ t.stn.motion = s.stn.motion ∧ t.stn.touch = s.stn.touch ∧
        t.stn.change = s.stn.change ∧ t.stn.line.control = s.stn.line.control ∧
        (page = 0 → ∃ n, (∀ m, s.stn.line.lineCount = some m → n = m) ∧ bytes = Says.packed
          [(1, modeCode s.stn.loader.mode), (1, Says.flag (s.stn.loader.mode == .parked)), (1, causeCode s.stn.loader.cause),
            (4, s.stn.loader.fingerprint.toNat), (1, Says.flag (tabs s.stn).cell.formed), (6, n), (1, s.stn.line.retry),
            (1, vetoCount s.stn.line), (1, Says.flag s.stn.line.drain), (1, reportHeld s.stn.line), (1, s.stn.line.reserved),
            (1, controlFrames s.stn.line), (2, s.stn.request.nextEvent), (1, Says.flag s.stn.request.overflow),
            (1, s.stn.request.discards)]) ∧
        (page = 1 → ∃ claim, bytes = Says.packed (
          [(1, chanStateCode s.stn.motion.arm.state), (1, s.stn.motion.arm.queue.length), (1, chanStateCode s.stn.motion.head.state),
            (1, s.stn.motion.head.queue.length), (1, axisFlags s.stn.motion.homed), (1, axisFlags s.stn.motion.fault),
            (1, Says.flag s.stn.pins.trigger), (4, (heldHere s.stn).toNat)] ++ claim ++
          [(1, (mounted s.stn).getD 0), (1, changeStateCode s.stn.change.state), (1, s.stn.change.t),
            (1, (s.stn.change.lastFailure.map changeCauseCode).getD 0), (1, Says.flag s.stn.request.overflow),
            (1, s.stn.request.discards)]) ∧
          (∀ c, claimOf (tabs s.stn) (me s.stn) = some c →
            claim = [(1, 3), (4, c.wanted.toNat), (1, prioCode c.base), (1, Says.flag c.urgent), (1, c.passed)]) ∧
          (claimOf (tabs s.stn) (me s.stn) = none →
            (s.stn.motion.outstanding = .none → claim = [(1, 0), (7, 0)]) ∧
            (s.stn.motion.outstanding = .offered → claim = [(1, 1), (7, 0)]) ∧
            (s.stn.motion.outstanding = .taken ∨ s.stn.motion.outstanding = .recorded → claim = [(1, 2), (7, 0)]))) ∧
        (page = 2 → bytes = Says.packed (
          ([0, 1, 2, 3, 4].map fun n => (1, entryCount s.stn n)) ++ [(2, s.stn.touch.nextSeq)] ++
          ((List.range 8).flatMap fun i =>
            [(1, inputKindCode (inputKind s.stn (i + 1))), (1, thermStateCode (at1 s.stn.thermal.inputs ⟨[], 0, 0, 0, .settling⟩ (i + 1)).state)]) ++
          [(1, Says.flag s.stn.request.overflow), (1, s.stn.request.discards)])))) ∧
  (∀ (src : Nat) (tag : Code) (g : Nat) (s : State), Says.asks s.stn src tag (.restart g) →
    ∃ t : State, exec (.restart src tag g) s = .next t ∧ t.pending = s.pending ∧
      (s.stn.request.restartPending = true → Says.refused s.stn t.stn src tag 12 3) ∧
      (s.stn.request.restartPending = false → g ≠ Config.restartGuard → Says.refused s.stn t.stn src tag 12 15) ∧
      (s.stn.request.restartPending = false → g = Config.restartGuard →
        Says.answered s.stn t.stn src ⟨tag, 12, true, 0, 0, []⟩ ∧ t.stn.request.restartPending = true ∧ Says.unitsKeep s.stn t.stn ∧
        t.stn.motion = s.stn.motion)) ∧
  (∀ (src : Nat) (tag : Code) (code : Nat) (args : List Byte) (s : State), Says.asks s.stn src tag (.unknown code args) →
    ∃ t : State, exec (.unknownRequest src tag code args) s = .next t ∧ t.pending = s.pending ∧
      (s.stn.request.restartPending = true → Says.refused s.stn t.stn src tag code 3) ∧
      (s.stn.request.restartPending = false → Says.refused s.stn t.stn src tag code 16))

/-! ### Motion, the trigger and the segments (chapters 4 and 8) -/

/-- O55. The end of a TOUCH's approach: PROBING with a credit, a usable probe and its tip entry, HALTED without, a collision with the trigger asserted
(R77, R78, R85). A trigger assertion latches the counts; it captures the point of a probing TOUCH with the next sequence number, is ignored after a
capture and at rest, and is a collision in any other motion (R77, R85, R142, R145). A miss gives the entry back and queues TOUCH_MISSED (R77). The
options left to the model: the point goes into, and a miss gives back, the lowest RESERVED entry (log 33); a station held in reset only
follows the line's level (log 2); an event that cannot occur in the state leaves it as it is (log 3); the counts come with the command (log 5). -/
def Obligations.TouchSequence : Prop :=
  (∀ (enc : Counts) (s : State) (g : Segment) (r : List Segment) (u : Station), u = readEncoders s.stn enc →
    s.stn.motion.arm.queue = g :: r → s.stn.motion.arm.state = .running → isTouchSeg g = true → g.phase = .approach →
    ∃ t : State, exec (.approachEnd enc) s = .next t ∧ t.pending = s.pending ∧ Says.eventKeeps u t.stn ∧ Says.emptyStays u t.stn .head ∧
      (∀ x e, g.credit = true → mounted s.stn = some x → (probeRec (tabs s.stn) x).cond = .usable →
        currentEntry u (headIndex u) = some e →
        (s.stn.pins.trigger = false → t.stn = { u with motion := { u.motion with
          arm := { u.motion.arm with queue := { g with phase := .probing, checked := some (x, e), axisTarget := probingTarget u g } :: r } } }) ∧
        (s.stn.pins.trigger = true → t.stn.motion.arm = ⟨.stalled, [], some .collision⟩ ∧
          (Says.noChange s.stn → s.stn.motion.head.queue = [] → Says.offered s.stn t.stn .mark (.probeMark x)))) ∧
      (g.credit = false ∨ mounted s.stn = none ∨ (∃ x, mounted s.stn = some x ∧ (probeRec (tabs s.stn) x).cond ≠ .usable) ∨
          currentEntry u (headIndex u) = none →
        t.stn.motion.arm = { u.motion.arm with state := .halted, queue := [] } ∧
        (s.stn.motion.head.queue = [] → Says.eventQueued s.stn t.stn (.channelHalted .arm .probeUnusable (tagOf (some g)))))) ∧
  (∀ (enc : Counts) (s : State), ¬ (∃ g r, s.stn.motion.arm.queue = g :: r ∧ s.stn.motion.arm.state = .running ∧ isTouchSeg g = true ∧
    g.phase = .approach) → exec (.approachEnd enc) s = .next s) ∧
  (∀ (enc : Counts) (s : State) (u : Station), u = readEncoders s.stn enc → s.stn.loader.held = false → s.stn.pins.trigger = false →
    ∃ t : State, exec (.triggerAssertion enc) s = .next t ∧ t.pending = s.pending ∧ t.stn.pins = { s.stn.pins with trigger := true } ∧
      t.stn.touch.latch = some u.motion.enc ∧ t.stn.motion.enc = u.motion.enc ∧ t.stn.replica = s.stn.replica ∧ t.stn.loader = s.stn.loader ∧
      t.stn.now = s.stn.now ∧
      (∀ a g r, s.stn.motion.arm.queue = g :: r → g.kind = .touch a → g.phase = .probing → g.credit = true →
        movingState s.stn.motion.arm.state = true → movingState s.stn.motion.head.state = false →
        t.stn.motion = { u.motion with arm := { u.motion.arm with queue :=
          { g with credit := false, phase := .retract true, axisTarget := some (retractCounts u a u.motion.enc) } :: r } } ∧
        t.stn.line = s.stn.line ∧ t.stn.request = s.stn.request ∧ t.stn.touch.nextSeq = (s.stn.touch.nextSeq + 1) % 65536 ∧
        ∃ d, t.stn.touch.points = updFirst isReservedEntry (.pending d) s.stn.touch.points ∧ d.seq = s.stn.touch.nextSeq ∧
          (∀ tag, g.origin = .request tag → d.tag = tag) ∧ d.counts = u.motion.enc ∧ d.dir = a.dir ∧ d.haltDuring = g.haltSeen ∧
          (∀ n, s.stn.line.lineCount = some n → d.count = n) ∧ d.lateDue = s.stn.now + 3 * (cellOf s.stn).period ∧
          (∀ x e, mounted s.stn = some x → tipAt s.stn x (d.a, d.b) = some e → d.probe = x ∧ d.copy = e)) ∧
      (∀ g r, s.stn.motion.arm.queue = g :: r → isTouchSeg g = true → g.phase = .retract true → movingState s.stn.motion.arm.state = true →
        movingState s.stn.motion.head.state = false → t.stn.motion = u.motion ∧ t.stn.touch.points = s.stn.touch.points) ∧
      (movingState s.stn.motion.arm.state = false → movingState s.stn.motion.head.state = false →
        t.stn.motion = u.motion ∧ t.stn.touch.points = s.stn.touch.points ∧ t.stn.touch.nextSeq = s.stn.touch.nextSeq ∧ t.stn.line = s.stn.line) ∧
      (movingState s.stn.motion.head.state = true →
        t.stn.motion.head = ⟨.stalled, [], some .collision⟩ ∧ t.stn.touch.nextSeq = s.stn.touch.nextSeq) ∧
      (∀ g r, s.stn.motion.arm.queue = g :: r → isTouchSeg g = false ∨ g.phase = .approach ∨ g.phase = .retract false →
        movingState s.stn.motion.arm.state = true → movingState s.stn.motion.head.state = false →
        t.stn.motion.arm = ⟨.stalled, [], some .collision⟩ ∧ t.stn.touch.nextSeq = s.stn.touch.nextSeq)) ∧
  (∀ (enc : Counts) (s : State), s.stn.pins.trigger = true → exec (.triggerAssertion enc) s = .next s) ∧
  (∀ (enc : Counts) (s : State), s.stn.pins.trigger = false → s.stn.loader.held = true →
    exec (.triggerAssertion enc) s = .next { s with stn := { s.stn with pins := { s.stn.pins with trigger := true } } }) ∧
  (∀ (enc : Counts) (s : State) (g : Segment) (r : List Segment) (tag : Code) (u : Station), u = readEncoders s.stn enc →
    s.stn.motion.arm.queue = g :: r → movingState s.stn.motion.arm.state = true → isTouchSeg g = true → g.phase = .probing →
    g.origin = .request tag →
    ∃ t : State, exec (.touchMiss enc) s = .next t ∧ t.pending = s.pending ∧ Says.eventKeeps u t.stn ∧
      t.stn.motion = { u.motion with arm := { u.motion.arm with queue :=
        { g with credit := false, phase := .retract false, axisTarget := missTarget u g } :: r } } ∧
      t.stn.touch.points = (if g.credit = true then updFirst isReservedEntry .free s.stn.touch.points else s.stn.touch.points) ∧
      Says.eventQueued s.stn t.stn (.touchMissed tag)) ∧
  (∀ s : State, exec .triggerRelease s = .next { s with stn := { s.stn with pins := { s.stn.pins with trigger := false } } })

/-- O56. A point entry that is free takes the leading TOUCH out of WAIT_CREDIT into motion or to its zones (R79, R80): the lowest FREE entry becomes
RESERVED, the model's choice (log 33). A channel whose zones are all held starts, and no step sets a segment in motion whose zones are not all
held (R56). A segment that completes leaves its channel, the last of a request IDLE with CHANNEL_IDLE; with others behind it the channel is in
WAIT_TURN, and the leading segment of the two channels starts or waits for its zones (R75, R81). A HOME homes its axes, each count having been
set at its mark (R69). A stop that ends leaves the channel HALTED with CHANNEL_HALTED (R82). An event that cannot occur in the state
leaves it as it is (log 3); the counts come with the command (log 5). -/
def Obligations.SegmentsRun : Prop :=
  (∀ s t : State, CreditsOk s.stn → step s = .next t → startsHeld s.stn t.stn) ∧
  (∀ (enc : Counts) (s : State) (g : Segment) (r : List Segment) (m : ZoneMask) (u : Station), u = readEncoders s.stn enc →
    s.stn.motion.arm.queue = g :: r → s.stn.motion.arm.state = .waitCredit →
    isTouchSeg g = true → g.phase = .approach → g.credit = false → movingState s.stn.motion.head.state = false →
    (∀ h ∈ s.stn.motion.head.queue, g.acc ≤ h.acc) →
    (∃ e ∈ s.stn.touch.points, e = .free) → allHomed u = true →
    limitsHold u (tipOffset u (headIndex u)) g.kind = true →
    m = zoneSetFrom u (currentTip u) (clearance u) g.kind → meets m (othersHomeMask (cellOf u) (me u)) = false →
    ∃ t : State, exec (.creditReserve enc) s = .next t ∧ t.pending = s.pending ∧ Says.eventKeeps u t.stn ∧
      t.stn.motion.head = u.motion.head ∧ t.stn.touch.points = updFirst isFree .reserved s.stn.touch.points ∧
      t.stn.motion.arm.state = (if holdsAll u m = true then .running else .waitZone) ∧
      ∃ h, t.stn.motion.arm.queue = h :: r ∧ h.credit = true ∧ h.zoneSet = some m ∧ h.kind = g.kind ∧ h.acc = g.acc ∧ h.phase = g.phase ∧
        h.axisTarget = commanded u (tipOffset u (headIndex u)) g.kind) ∧
  (∀ (enc : Counts) (s : State), s.stn.motion.arm.state ≠ .waitCredit → s.stn.motion.head.state ≠ .waitCredit →
    exec (.creditReserve enc) s = .next s) ∧
  (∀ (enc : Counts) (s : State), (∀ e ∈ s.stn.touch.points, e ≠ .free) → exec (.creditReserve enc) s = .next s) ∧
  (∀ (c : ChanId) (s : State) (g : Segment) (r : List Segment) (m : ZoneMask), (chan s.stn c).queue = g :: r → (chan s.stn c).state = .waitZone →
    g.zoneSet = some m →
    ∃ t : State, exec (.zonesHeldStart c) s = .next t ∧ t.pending = s.pending ∧ Says.eventKeeps s.stn t.stn ∧
      chan t.stn (otherChan c) = chan s.stn (otherChan c) ∧ t.stn.line = s.stn.line ∧ t.stn.touch = s.stn.touch ∧
      (holdsAll s.stn m = true → chan t.stn c =
        { chan s.stn c with state := .running, queue := { g with phase := .approach, marks := .all false } :: r }) ∧
      (holdsAll s.stn m = false → t = s)) ∧
  (∀ (c : ChanId) (s : State), (chan s.stn c).state ≠ .waitZone → exec (.zonesHeldStart c) s = .next s) ∧
  (∀ (c : ChanId) (enc : Counts) (s : State) (g : Segment) (r : List Segment) (tag : Code) (u : Station), u = readEncoders s.stn enc →
    (chan s.stn c).queue = g :: r → (chan s.stn c).state = .running → g.origin = .request tag → segmentEnds s.stn c g = true →
    ∃ t : State, exec (.segmentComplete c enc) s = .next t ∧ t.pending = s.pending ∧ Says.eventKeeps u t.stn ∧
      Says.emptyStays u t.stn (otherChan c) ∧
      (r = [] → (chan t.stn c).queue = [] ∧ (chan t.stn c).state = .idle) ∧
      (r = [] → (chan s.stn (otherChan c)).queue = [] → Says.eventQueued s.stn t.stn (.channelIdle c) ∧
        (g.kind = .home → ∀ ax ∈ chanAxes s.stn c, t.stn.motion.homed.get ax = true) ∧
        (g.kind ≠ .home → t.stn.motion.homed = s.stn.motion.homed)) ∧
      (r ≠ [] → movingState (chan s.stn (otherChan c)).state = true →
        (chan t.stn c).queue = r ∧ (chan t.stn c).state = .waitTurn ∧ chan t.stn (otherChan c) = chan s.stn (otherChan c)) ∧
      (∀ d b q m, r ≠ [] → (d = c ∧ r = b :: q) ∨ (d = otherChan c ∧ (chan s.stn d).queue = b :: q ∧ (chan s.stn d).state = .waitTurn) →
        movingState (chan s.stn (otherChan c)).state = false →
        (∀ h, (chan s.stn (otherChan c)).queue.head? = some h → d = c → b.acc < h.acc) → (d ≠ c → ∀ h, r.head? = some h → b.acc < h.acc) →
        g.kind ≠ .home → isTouchSeg b = false → isHomeSeg b = false → fromSequencer b = false → allHomed u = true →
        limitsHold u (tipOffset u (headIndex u)) b.kind = true → m = zoneSetFrom u (currentTip u) (clearance u) b.kind →
        meets m (othersHomeMask (cellOf u) (me u)) = false →
        (d ≠ c → (chan t.stn c).queue = r ∧ (chan t.stn c).state = .waitTurn) ∧
        (chan t.stn d).state = (if holdsAll u m = true then .running else .waitZone) ∧
        ∃ h, (chan t.stn d).queue = h :: q ∧ h.acc = b.acc ∧ h.kind = b.kind ∧ h.zoneSet = some m)) ∧
  (∀ (c : ChanId) (enc : Counts) (s : State), (chan s.stn c).state ≠ .running → exec (.segmentComplete c enc) s = .next s) ∧
  (∀ (ax : Axis) (s : State) (g : Segment) (r : List Segment), (chan s.stn (chanOf ax)).queue = g :: r → (chan s.stn (chanOf ax)).state = .running →
    g.kind = .home → declared s.stn ax = true →
    ∃ t : State, exec (.homeMarkFound ax) s = .next t ∧ t.pending = s.pending ∧
      chan t.stn (chanOf ax) = { chan s.stn (chanOf ax) with queue := { g with marks := g.marks.set true ax } :: r } ∧
      chan t.stn (otherChan (chanOf ax)) = chan s.stn (otherChan (chanOf ax)) ∧
      t.stn.motion.enc = s.stn.motion.enc.set (axisCfg (ownOf s.stn) ax).homeOffset ax ∧ t.stn.motion.homed = s.stn.motion.homed ∧
      t.stn = { s.stn with motion := t.stn.motion }) ∧
  (∀ (c : ChanId) (enc : Counts) (s : State) (g : Segment) (r : List Segment) (tag : Code) (u : Station), u = readEncoders s.stn enc →
    (chan s.stn c).queue = g :: r → (chan s.stn c).state = .stopping → g.origin = .request tag → g.quietStop = false →
    isTouchSeg g = false ∨ g.phase ≠ .probing →
    ∃ t : State, exec (.stopEnd c enc) s = .next t ∧ t.pending = s.pending ∧ Says.eventKeeps u t.stn ∧
      Says.emptyStays u t.stn (otherChan c) ∧ (chan t.stn c).queue = [] ∧ (chan t.stn c).state = .halted ∧
      ((chan s.stn (otherChan c)).queue = [] → Says.eventQueued s.stn t.stn (.channelHalted c .requested (some tag)))) ∧
  (∀ (c : ChanId) (enc : Counts) (s : State), (chan s.stn c).state ≠ .stopping → exec (.stopEnd c enc) s = .next s)

/-- O57. A following error, a quadrature error and a counted drive fault stall an enabled channel, each with its cause; a quadrature error unhomes its
axis in every mode (R68, R70, R71, R84, R86). A drive fault counts once its line has stood asserted for the filter time and stays counted until the
line is released (R71). The moment is the filter's (log 4); an event that cannot occur leaves the state as it is (log 3). -/
def Obligations.FaultsStall : Prop :=
  (∀ (ax : Axis) (enc : Counts) (s : State), s.stn.loader.held = false → declared s.stn ax = true →
    ∃ t : State, exec (.followingError ax enc) s = .next t ∧ t.pending = s.pending ∧
      Says.stallsBy (readEncoders s.stn enc) t.stn (chanOf ax) .following) ∧
  (∀ (ax : Axis) (enc : Counts) (s : State), s.stn.loader.held = false → declared s.stn ax = true →
    ∃ t : State, exec (.encoderQuadratureError ax enc) s = .next t ∧ t.pending = s.pending ∧
      Says.stallsBy { readEncoders s.stn enc with motion := { (readEncoders s.stn enc).motion with homed := s.stn.motion.homed.set false ax } }
        t.stn (chanOf ax) .encoder) ∧
  (∀ (ax : Axis) (enc : Counts) (s : State), s.stn.loader.held = true ∨ declared s.stn ax = false →
    exec (.followingError ax enc) s = .next s ∧ exec (.encoderQuadratureError ax enc) s = .next s) ∧
  (∀ (ax : Axis) (s : State),
    exec (.driveFaultAssertion ax) s = .next (if s.stn.pins.driveFault.get ax = true then s else
      { s with stn := { s.stn with
        pins := { s.stn.pins with driveFault := s.stn.pins.driveFault.set true ax }
        motion := if s.stn.loader.held = true then s.stn.motion else
          { s.stn.motion with filter := s.stn.motion.filter.set (some s.stn.now) ax } } })) ∧
  (∀ (ax : Axis) (enc : Counts) (s : State) (start : Nat) (u : Station), s.stn.motion.filter.get ax = some start →
    u = readEncoders { s.stn with now := max s.stn.now (start + (ownOf s.stn).filter) } enc →
    ∃ t : State, exec (.driveFaultCounted ax enc) s = .next t ∧ t.pending = s.pending ∧ t.stn.motion.fault.get ax = true ∧
      t.stn.motion.filter.get ax = none ∧
      (declared s.stn ax = true →
        Says.stallsBy { u with motion := { u.motion with fault := u.motion.fault.set true ax, filter := u.motion.filter.set none ax } }
          t.stn (chanOf ax) .driveFault) ∧
      (declared s.stn ax = false →
        t.stn = { u with motion := { u.motion with fault := u.motion.fault.set true ax, filter := u.motion.filter.set none ax } })) ∧
  (∀ (ax : Axis) (enc : Counts) (s : State), s.stn.motion.filter.get ax = none → exec (.driveFaultCounted ax enc) s = .next s) ∧
  (∀ (ax : Axis) (s : State),
    exec (.driveFaultReleased ax) s = .next { s with stn := { s.stn with
      pins := { s.stn.pins with driveFault := s.stn.pins.driveFault.set false ax }
      motion := { s.stn.motion with fault := s.stn.motion.fault.set false ax, filter := s.stn.motion.filter.set none ax } } })

/-! ### The rack and the Change Sequencer (chapter 6) -/

/-- O58. A presence input that changes starts the port's lock delay of 200 ms at the rack station from JOINING onward (R110). The delay run out, the rack
station in ACTIVE or PARKED mode locks the port and reports it with presence, lock and the code read, a pending report withdrawn (R111).
The moment is the timer's (log 4); an event that cannot occur leaves the state as it is (log 3). -/
def Obligations.RackLocksAndReports : Prop :=
  (∀ (p : Nat) (present : Bool) (code : Option Code) (s : State), 1 ≤ p → p ≤ 12 → at1 s.stn.pins.presence false p ≠ present →
    ∃ t : State, exec (.presenceChange p present code) s = .next t ∧ t.pending = s.pending ∧
      t.stn = { s.stn with pins := t.stn.pins, rack := t.stn.rack } ∧
      t.stn.pins = { s.stn.pins with presence := set1 s.stn.pins.presence p present, portIdent := set1 s.stn.pins.portIdent p code } ∧
      (isRack s.stn = true → listening s.stn = true → configured (cellOf s.stn) p = true →
        t.stn.rack = set1 s.stn.rack p ⟨(rackPort s.stn p).lock, some (s.stn.now + 200)⟩) ∧
      (isRack s.stn = false ∨ listening s.stn = false ∨ configured (cellOf s.stn) p = false → t.stn.rack = s.stn.rack)) ∧
  (∀ (p : Nat) (present : Bool) (code : Option Code) (s : State), p = 0 ∨ 12 < p ∨ at1 s.stn.pins.presence false p = present →
    exec (.presenceChange p present code) s = .next s) ∧
  (∀ (p due : Nat) (s : State), (rackPort s.stn p).lockDue = some due →
    ∃ t : State, exec (.lockDelayExpiry p) s = .next t ∧ t.pending = s.pending ∧
      t.stn = { s.stn with now := max s.stn.now due, line := t.stn.line, rack := t.stn.rack } ∧
      (rackWorks s.stn = false → t.stn.rack = set1 s.stn.rack p ⟨(rackPort s.stn p).lock, none⟩ ∧ t.stn.line = s.stn.line) ∧
      (rackWorks s.stn = true → t.stn.rack = set1 s.stn.rack p ⟨.locked, none⟩ ∧
        ∀ b, b = Body.portState p (at1 s.stn.pins.presence false p) .locked
            (if at1 s.stn.pins.presence false p = true then at1 s.stn.pins.portIdent none p else none) →
          (controlHeld s.stn.line < 7 → t.stn.line = { s.stn.line with control := s.stn.line.control ++ [⟨0, b⟩]
                                                                       waiting := s.stn.line.waiting.filter (fun w => w.src != .rack p) }) ∧
          (7 ≤ controlHeld s.stn.line → t.stn.line = { s.stn.line with
            waiting := s.stn.line.waiting.filter (fun w => w.src != .rack p) ++ [⟨.rack p, ⟨0, b⟩⟩] }))) ∧
  (∀ (p : Nat) (s : State), (rackPort s.stn p).lockDue = none → exec (.lockDelayExpiry p) s = .next s)

/-- O59. The coupling sensor in the change's waits: RELEASED at the deposit's seat offers PROBE_DEPOSIT and starts the retract (R124), HELD at the pickup's
seat keeps the code read and starts the run-on retract (R125). The coupling, unlock and confirm waits run out into COUPLING, RACK_TIMEOUT and
DEPOSIT_UNCONFIRMED (R124, R125, R128). The CLAIMING INDEX and the retract of the pickup end in PORT_RESERVE and PROBE_TAKE, the way to a port's
approach point in the way to its seat, the seat reached in the coupling's drive and wait. The station's own PORT_RESERVE applied starts the unlock
wait, or fails the change with RACK_LOST where it was void; a PORT_STATE with UNLOCKED sends the arm to the port; the own PROBE_TAKE applied ends
the change: DONE with the probe at the station, else WRONG_PROBE, or RACK_LOST where it was void, or HALTED where a HALT is owed (R124 to R126).
The moments are the timers' (log 4); a wait that is not running leaves the state as it is (log 3, log 4). -/
def Obligations.ChangeGoesOn : Prop :=
  (∀ (held : Bool) (code : Option Code) (s : State), ∃ t : State, exec (.couplingSensorChange held code) s = .next t ∧ t.pending = s.pending ∧
    t.stn.pins = { s.stn.pins with sensor := held, headIdent := code } ∧ t.stn.loader = s.stn.loader ∧ t.stn.replica = s.stn.replica ∧
    t.stn.motion.enc = s.stn.motion.enc ∧
    (s.stn.loader.held = true → t.stn = { s.stn with pins := t.stn.pins, change := { s.stn.change with output := held } }) ∧
    (s.stn.loader.held = false → s.stn.change.failing ≠ none ∨ s.stn.change.leg ≠ .coupling ∨
        (s.stn.change.state ≠ .insert ∧ s.stn.change.state ≠ .engage) ∨ (s.stn.change.state = .insert ∧ held = true) ∨
        (s.stn.change.state = .engage ∧ held = false) →
      t.stn = { s.stn with pins := t.stn.pins }) ∧
    (∀ m p, s.stn.loader.held = false → s.stn.change.failing = none → s.stn.change.leg = .coupling → s.stn.change.state = .insert →
      held = false → s.stn.change.deposit = some (m, p) → Says.armFree s.stn (enterPoint s.stn p) →
      t.stn.change = { s.stn.change with state := .confirmDeposit, leg := .retract, couplingWait := none } ∧
      Says.offered s.stn t.stn .change (.probeDeposit m p) ∧ Says.armSent s.stn t.stn (enterPoint s.stn p) false) ∧
    (s.stn.loader.held = false → s.stn.change.failing = none → s.stn.change.leg = .coupling → s.stn.change.state = .engage →
      held = true → Says.armFree s.stn (enterPoint s.stn s.stn.change.pt) →
      t.stn.change = { s.stn.change with leg := .retract, couplingWait := none, heldSeen := true, code := code } ∧
      Says.armSent s.stn t.stn (enterPoint s.stn s.stn.change.pt) true)) ∧
  (∀ (c : Instr) (due : Nat) (cause : ChangeCause) (s : State), s.stn.change.state ≠ .idle → s.stn.change.failing = none →
    Says.allIdle s.stn →
    (c = .couplingWaitExpiry ∧ s.stn.change.couplingWait = some due ∧ cause = .coupling) ∨
      (c = .unlockWaitExpiry ∧ s.stn.change.unlockWait = some due ∧ cause = .rackTimeout) ∨
      (c = .confirmWaitExpiry ∧ s.stn.change.confirmWait = some due ∧ cause = .depositUnconfirmed) →
    ∃ t : State, exec c s = .next t ∧ t.pending = s.pending ∧
      Says.changeFails { s.stn with
        now := max s.stn.now due
        change := { s.stn.change with
          output := if c = .couplingWaitExpiry ∧ s.stn.change.state = .engage then false else s.stn.change.output } } t.stn cause) ∧
  (∀ s : State, (s.stn.change.couplingWait = none → exec .couplingWaitExpiry s = .next s) ∧
    (s.stn.change.unlockWait = none → exec .unlockWaitExpiry s = .next s) ∧
    (s.stn.change.confirmWait = none → exec .confirmWaitExpiry s = .next s)) ∧
  (∀ (enc : Counts) (s : State) (g : Segment) (runOn : Bool), s.stn.motion.head.queue = [g] → s.stn.motion.head.state = .running →
    g.origin = .sequencer runOn → isTouchSeg g = false → isHomeSeg g = false → s.stn.motion.arm.queue = [] → s.stn.change.state = .claiming →
    s.stn.change.failing = none → rosterState (tabs s.stn) (cellOf s.stn).rackStation = .active →
    ∃ t : State, exec (.segmentComplete .head enc) s = .next t ∧ t.pending = s.pending ∧
      t.stn.motion.head.state = .idle ∧ t.stn.motion.head.queue = [] ∧
      (∀ m p, s.stn.change.deposit = some (m, p) → t.stn.change = { s.stn.change with state := .reserveDeposit, leg := .none } ∧
        Says.offered s.stn t.stn .change (.portReserve p .deposit m)) ∧
      (s.stn.change.deposit = none → t.stn.change = { s.stn.change with state := .reservePickup, leg := .none } ∧
        Says.offered s.stn t.stn .change (.portReserve s.stn.change.pt .pickup s.stn.change.t))) ∧
  (∀ (enc : Counts) (s : State) (g : Segment) (runOn : Bool), s.stn.motion.arm.queue = [g] → s.stn.motion.arm.state = .running →
    g.origin = .sequencer runOn → isTouchSeg g = false → isHomeSeg g = false → s.stn.motion.head.queue = [] → s.stn.change.state = .engage →
    s.stn.change.leg = .retract → s.stn.change.failing = none →
    ∃ t : State, exec (.segmentComplete .arm enc) s = .next t ∧ t.pending = s.pending ∧
      t.stn.motion.arm.state = .idle ∧ t.stn.motion.arm.queue = [] ∧
      t.stn.change = { s.stn.change with state := .confirmTake, leg := .done } ∧
      Says.offered s.stn t.stn .change (.probeTake s.stn.change.t s.stn.change.pt s.stn.change.code)) ∧
  (∀ (enc : Counts) (s : State) (g : Segment) (runOn : Bool) (p : Nat) (u : Station), u = readEncoders s.stn enc →
    s.stn.motion.arm.queue = [g] → s.stn.motion.arm.state = .running → g.origin = .sequencer runOn → isTouchSeg g = false →
    isHomeSeg g = false → s.stn.motion.head.queue = [] → movingState s.stn.motion.head.state = false →
    s.stn.change.failing = none →
    (s.stn.change.state = .insert ∧ ∃ m, s.stn.change.deposit = some (m, p)) ∨ (s.stn.change.state = .engage ∧ s.stn.change.pt = p) →
    (s.stn.change.leg = .toApproach → Says.armMayGo u (seatOf s.stn p) →
      ∃ t : State, exec (.segmentComplete .arm enc) s = .next t ∧ t.pending = s.pending ∧
        t.stn.change = { s.stn.change with leg := .toSeat } ∧ Says.armGoes t.stn (seatOf s.stn p) false) ∧
    (s.stn.change.leg = .toSeat →
      ∃ t : State, exec (.segmentComplete .arm enc) s = .next t ∧ t.pending = s.pending ∧
        (s.stn.pins.sensor = (s.stn.change.state == .insert) →
          t.stn.motion.arm.state = .idle ∧ t.stn.motion.arm.queue = [] ∧
          t.stn.change = { s.stn.change with
            output := s.stn.change.state == .engage, leg := .coupling, couplingWait := some (s.stn.now + 500) }) ∧
        (∀ m, s.stn.change.state = .insert → s.stn.change.deposit = some (m, p) → s.stn.pins.sensor = false →
          Says.armMayGo u (enterPoint s.stn p) →
          t.stn.change = { s.stn.change with state := .confirmDeposit, output := false, leg := .retract, couplingWait := none } ∧
          Says.offered s.stn t.stn .change (.probeDeposit m p) ∧ Says.armGoes t.stn (enterPoint s.stn p) false) ∧
        (s.stn.change.state = .engage → s.stn.pins.sensor = true → Says.armMayGo u (enterPoint s.stn p) →
          t.stn.change = { s.stn.change with
            output := true, leg := .retract, couplingWait := none, heldSeen := true, code := s.stn.pins.headIdent } ∧
          Says.armGoes t.stn (enterPoint s.stn p) true))) ∧
  (∀ (h : Hdr) (p x : Nat) (purpose : Purpose) (s : State) (n : Nat), Says.takes s.stn ⟨h, .portReserve p purpose x⟩ n → Says.passes s.stn h →
    TablesSized (tabs s.stn) → h.sender = me s.stn → s.stn.change.failing = none →
    (s.stn.change.state = .reserveDeposit ∧ s.stn.change.deposit = some (x, p) ∧ purpose = .deposit) ∨
      (s.stn.change.state = .reservePickup ∧ s.stn.change.pt = p ∧ s.stn.change.t = x ∧ purpose = .pickup) →
    (∀ o ∈ s.stn.line.control, isReserveOf p o.body = false) →
    ∃ t : State, exec (.portReserve h p purpose x) s = .next t ∧ t.pending = s.pending ∧
      ((portEntry (tabs t.stn) p).state = .reserved (me s.stn) purpose x →
        (∀ k w y, (portEntry (tabs s.stn) p).state ≠ .reserved k w y) →
        t.stn.change = { s.stn.change with
          state := if purpose = .deposit then .unlockDeposit else .unlockPickup, leg := .none, unlockWait := some (s.stn.now + 1000) }) ∧
      ((portEntry (tabs t.stn) p).state ≠ .reserved (me s.stn) purpose x → Says.allIdle s.stn →
        t.stn.change = Changer.idleWith s.stn.change.output (some .rackLost))) ∧
  (∀ (h : Hdr) (p : Nat) (present : Bool) (code : Option Code) (s : State) (n x : Nat) (purpose : Purpose),
    Says.takes s.stn ⟨h, .portState p present .unlocked code⟩ n → Says.passes s.stn h → TablesSized (tabs s.stn) →
    configured (cellOf s.stn) p = true → (portEntry (tabs s.stn) p).state = .reserved (me s.stn) purpose x → s.stn.change.failing = none →
    (s.stn.change.state = .unlockDeposit ∧ ∃ m, s.stn.change.deposit = some (m, p)) ∨ (s.stn.change.state = .unlockPickup ∧ s.stn.change.pt = p) →
    Says.armFree s.stn (enterPoint s.stn p) →
    ∃ t : State, exec (.portState h p present .unlocked code) s = .next t ∧ t.pending = s.pending ∧
      t.stn.change = { s.stn.change with
        state := if s.stn.change.state = .unlockDeposit then .insert else .engage, leg := .toApproach, unlockWait := none } ∧
      Says.armSent s.stn t.stn (enterPoint s.stn p) false) ∧
  (∀ (h : Hdr) (p x : Nat) (code : Option Code) (s : State) (n : Nat), Says.takes s.stn ⟨h, .probeTake x p code⟩ n → Says.passes s.stn h →
    TablesSized (tabs s.stn) → h.sender = me s.stn → s.stn.change.failing = none → s.stn.change.state = .confirmTake →
    s.stn.change.t = x → s.stn.change.pt = p → Says.allIdle s.stn →
    ∃ t : State, exec (.probeTake h x p code) s = .next t ∧ t.pending = s.pending ∧
      (s.stn.change.haltOwed = true → t.stn.change = Changer.idleWith s.stn.change.output (some .halted) ∧
        Says.eventThere s.stn t.stn (.changeFailed s.stn.change.tag .halted)) ∧
      (s.stn.change.haltOwed = false →
        ((probeRec (tabs t.stn) x).custody = .station (me s.stn) →
          t.stn.change = Changer.idleWith s.stn.change.output s.stn.change.lastFailure ∧
          Says.eventThere s.stn t.stn (.changeDone s.stn.change.tag x)) ∧
        (∀ cause, (probeRec (tabs t.stn) x).custody ≠ .station (me s.stn) →
          cause = (if configured (cellOf s.stn) p = true ∧ (portEntry (tabs s.stn) p).state = .reserved (me s.stn) .pickup x then
            ChangeCause.wrongProbe else .rackLost) →
          t.stn.change = Changer.idleWith s.stn.change.output (some cause) ∧
          Says.eventThere s.stn t.stn (.changeFailed s.stn.change.tag cause))))

/-! ### Timers of the units -/

/-- O60. A PENDING point whose late timer runs out closes against the board as it stands, marked late and corrected (R147 to R152). A thermal sample
is judged and moves its input's window, counts and state (R92 to R94); the thermal period composes another THERMAL that takes over the older one's
age (R96, R97). The form wait offers a FORM where no cell exists, the join retry a JOIN where the attempt was abandoned or a cell exists (R27,
R28, R39), which stands in the CONTROL queue whatever FORM or JOIN the unit kept, for a new JOIN withdraws those: the model's choice (log 36),
as is the JOIN where a second service was accepted meanwhile (log 26).
The moments are the timers' (log 4); a timer that is not running leaves the state as it is (log 4). -/
def Obligations.TimersRunOut : Prop :=
  (∀ (seq : Nat) (s : State) (d : PointData), PointEntry.pending d ∈ s.stn.touch.points → d.seq = seq →
    (∀ e, PointEntry.pending e ∈ s.stn.touch.points → e.seq = seq → e = d) →
    ∃ t : State, exec (.lateTimerExpiry seq) s = .next t ∧ t.pending = s.pending ∧ t.stn.now = max s.stn.now d.lateDue ∧
      t.stn.pins = s.stn.pins ∧ t.stn.loader = s.stn.loader ∧ t.stn.replica = s.stn.replica ∧ t.stn.motion = s.stn.motion ∧
      t.stn.thermal = s.stn.thermal ∧ t.stn.change = s.stn.change ∧ t.stn.request = s.stn.request ∧
      (∀ e, PointEntry.pending e ∈ s.stn.touch.points → e.seq ≠ seq → PointEntry.pending e ∈ t.stn.touch.points) ∧
      Says.closed s.stn t.stn true d) ∧
  (∀ (seq : Nat) (s : State), (∀ e, PointEntry.pending e ∈ s.stn.touch.points → e.seq ≠ seq) → exec (.lateTimerExpiry seq) s = .next s) ∧
  (∀ (ohms : List Nat) (s : State) (due : Nat), s.stn.thermal.sampleDue = some due → s.stn.thermal.inputs.length = 8 →
    ∃ t : State, exec (.thermalSample ohms) s = .next t ∧ t.pending = s.pending ∧
      t.stn = { s.stn with now := max s.stn.now due, thermal := t.stn.thermal } ∧
      t.stn.thermal.sampleDue = some (max s.stn.now due + 100) ∧ t.stn.thermal.periodDue = s.stn.thermal.periodDue ∧
      ∀ n i j, 1 ≤ n → n ≤ 8 → i = at1 s.stn.thermal.inputs default n → j = at1 t.stn.thermal.inputs default n →
        (inputKind s.stn n = none → j = i) ∧
        (inputKind s.stn n ≠ none → inRange (at1 ohms 0 n) = false → j = ⟨[], 0, 0, 0, .opened⟩) ∧
        (∀ v, inputKind s.stn n ≠ none → inRange (at1 ohms 0 n) = true → v = deviation (at1 ohms 0 n) → i.window.length ≤ 8 →
          (v.natAbs ≤ (cellOf s.stn).plausible →
            j.window = (if i.window.length < 8 then i.window ++ [v] else i.window.drop 1 ++ [v]) ∧ j.good = min 8 (i.good + 1) ∧
            j.outside = 0 ∧ j.inside = i.inside + 1 ∧
            (i.state = .valid → j.state = .valid) ∧
            (i.state = .settling → j.state = if 7 ≤ i.window.length then .valid else .settling) ∧
            (i.state = .excursion → i.inside + 1 < 4 → j.state = .excursion) ∧
            (i.state = .excursion → 4 ≤ i.inside + 1 → j.state = if 7 ≤ i.window.length then .valid else .settling) ∧
            (i.state = .opened → 7 ≤ i.good → j.state = if 7 ≤ i.window.length then .valid else .settling)) ∧
          ((cellOf s.stn).plausible < v.natAbs →
            j.window = i.window ∧ j.good = min 8 (i.good + 1) ∧ j.outside = i.outside + 1 ∧ j.inside = 0 ∧
            (i.state = .valid ∨ i.state = .settling → j.state = if 3 ≤ i.outside then .excursion else i.state) ∧
            (i.state = .excursion → j.state = .excursion) ∧
            (i.state = .opened → 7 ≤ i.good →
              j.state = if 4 ≤ i.outside + 1 then .excursion else if i.window.length = 8 then .valid else .settling)) ∧
          (i.state = .opened → i.good < 7 → j.state = .opened))) ∧
  (∀ (s : State) (due : Nat), s.stn.thermal.periodDue = some due →
    ∃ t : State, exec .thermalPeriodExpiry s = .next t ∧ t.pending = s.pending ∧
      t.stn = { s.stn with
        now := max s.stn.now due
        thermal := { s.stn.thermal with periodDue := some (max s.stn.now due + (cellOf s.stn).period) }
        line := { s.stn.line with thermal := t.stn.line.thermal } } ∧
      (s.stn.line.thermal = none → t.stn.line.thermal = some ⟨⟨0, .thermal (thermEntries s.stn)⟩, max s.stn.now due⟩) ∧
      (∀ v, s.stn.line.thermal = some v → t.stn.line.thermal = some ⟨⟨0, .thermal (thermEntries s.stn)⟩, v.since⟩)) ∧
  (∀ (s : State) (due : Nat), s.stn.replica.formWait = some due →
    ∃ t : State, exec .formWaitExpiry s = .next t ∧ t.pending = s.pending ∧ t.stn.now = max s.stn.now due ∧
      t.stn.replica = { s.stn.replica with formWait := none } ∧
      t.stn = { s.stn with now := t.stn.now, replica := t.stn.replica, line := t.stn.line } ∧
      (joiningMode s.stn = true → (tabs s.stn).cell.formed = false → s.stn.replica.cellExists = false → s.stn.replica.snapBeginSeen = false →
        Says.offered s.stn t.stn .joining (.form s.stn.loader.fingerprint (memberMask (cellOf s.stn) (me s.stn) (tabs s.stn)))) ∧
      (joiningMode s.stn = false ∨ (tabs s.stn).cell.formed = true ∨ s.stn.replica.cellExists = true ∨ s.stn.replica.snapBeginSeen = true →
        t.stn.line = s.stn.line)) ∧
  (∀ (s : State) (due : Nat), s.stn.replica.joinRetry = some due → joiningMode s.stn = true →
    ∃ t : State, exec .joinRetryExpiry s = .next t ∧ t.pending = s.pending ∧ t.stn.now = max s.stn.now due ∧
      t.stn = { s.stn with now := t.stn.now, replica := t.stn.replica, line := t.stn.line } ∧
      (s.stn.replica.abandoned = true ∨ (s.stn.replica.service = none ∧ s.stn.replica.cellExists = true) →
        t.stn.replica.joinNumber = (if 255 ≤ s.stn.replica.joinNumber then 1 else s.stn.replica.joinNumber + 1) ∧
        t.stn.replica.service = none ∧ t.stn.replica.pendingRep = none ∧ t.stn.replica.catchUp = [] ∧ t.stn.replica.joinRetry = none ∧
        (controlHeld s.stn.line < 7 → (⟨0, .join s.stn.loader.fingerprint s.stn.loader.cause t.stn.replica.joinNumber⟩ : Outgoing) ∈
          t.stn.line.control)) ∧
      (s.stn.replica.abandoned = false → s.stn.replica.service ≠ none →
        t.stn.replica = { s.stn.replica with joinRetry := none } ∧ t.stn.line = s.stn.line) ∧
      (s.stn.replica.abandoned = false → s.stn.replica.service = none → s.stn.replica.cellExists = false →
        t.stn.replica = { s.stn.replica with joinRetry := some (max s.stn.now due + 2 * (cellOf s.stn).period) } ∧ t.stn.line = s.stn.line)) ∧
  (∀ s : State, (s.stn.thermal.sampleDue = none → ∀ ohms, exec (.thermalSample ohms) s = .next s) ∧
    (s.stn.thermal.periodDue = none → exec .thermalPeriodExpiry s = .next s) ∧
    (s.stn.replica.formWait = none → exec .formWaitExpiry s = .next s) ∧
    (s.stn.replica.joinRetry = none → exec .joinRetryExpiry s = .next s))
end

