-- ==== Sys2Proof/Laws/Tables.lean ====
section
/-! SUPPORT. `TableStep c r r'`: all that the application of a frame can do to the tables as a whole. The cell record stays (R23), the
tables keep their sizes, and a HOME zone stays HELD by its owner (R44). One lemma for each rule. -/

namespace Sys2Proof.Laws

open Sys2Proof.Machine

structure TableStep (c : CellPart) (r t : Replica) : Prop where
  cell : t.cell = r.cell
  sized : TablesSized r → TablesSized t
  homes : HomesHeld c r → HomesHeld c t

theorem TableStep.refl (c : CellPart) (r : Replica) : TableStep c r r := ⟨rfl, id, id⟩

theorem TableStep.trans {c : CellPart} {r t u : Replica} (h : TableStep c r t) (k : TableStep c t u) : TableStep c r u :=
  ⟨k.cell.trans h.cell, fun x => k.sized (h.sized x), fun x => k.homes (h.homes x)⟩

/-! ### Lists -/

theorem set1_length {α : Type} (l : List α) (n : Nat) (v : α) : (set1 l n v).length = l.length := by
  cases n
  · rfl
  · exact List.length_set

theorem map1_length {α : Type} (f : Nat → α → α) (l : List α) : (map1 f l).length = l.length := by simp [map1]

theorem at1_set1_same {α : Type} (l : List α) (d v : α) (n : Nat) (h1 : 1 ≤ n) (h2 : n ≤ l.length) : at1 (set1 l n v) d n = v := by
  obtain ⟨k, rfl⟩ : ∃ k, n = k + 1 := ⟨n - 1, by omega⟩
  have : k < l.length := by omega
  simp [at1, set1, this]

theorem at1_set1_other {α : Type} (l : List α) (d v : α) (n m : Nat) (h : m ≠ n) : at1 (set1 l n v) d m = at1 l d m := by
  cases n with
  | zero => rfl
  | succ n =>
    cases m with
    | zero => rfl
    | succ m =>
      have hne : n ≠ m := by omega
      simp [at1, set1, hne]

/-- Outside a table its default is read. -/
theorem at1_outside {α : Type} (l : List α) (d : α) (n : Nat) (h : ¬ (1 ≤ n ∧ n ≤ l.length)) : at1 l d n = d := by
  cases n with
  | zero => rfl
  | succ n => exact List.getD_eq_default _ _ (by omega)

theorem at1_map1 {α : Type} (f : Nat → α → α) (l : List α) (d : α) (n : Nat) (h1 : 1 ≤ n) (h2 : n ≤ l.length) :
    at1 (map1 f l) d n = f n (at1 l d n) := by
  obtain ⟨k, rfl⟩ : ∃ k, n = k + 1 := ⟨n - 1, by omega⟩
  have : k < l.length := by omega
  simp [at1, map1, this]

theorem at1_map {α : Type} (f : α → α) (l : List α) (d : α) (n : Nat) (h1 : 1 ≤ n) (h2 : n ≤ l.length) :
    at1 (l.map f) d n = f (at1 l d n) := by
  obtain ⟨k, rfl⟩ : ∃ k, n = k + 1 := ⟨n - 1, by omega⟩
  have : k < l.length := by omega
  simp [at1, this]

/-! ### Zones -/

theorem setHold_length (zs : List ZoneEntry) (p : Nat → ZoneEntry → Bool) (h : ZoneHold) (lc : Nat) :
    (setHold zs p h lc).length = zs.length := by simp [setHold]

theorem setHold_getD (zs : List ZoneEntry) (p : Nat → ZoneEntry → Bool) (h : ZoneHold) (lc z : Nat) (hz : z < zs.length)
    (d : ZoneEntry) : (setHold zs p h lc).getD z d = if p z (zs.getD z d) then ⟨h, lc⟩ else zs.getD z d := by
  simp [setHold, hz]

/-- Zones that a test leaves alone keep their entries. -/
theorem homes_setHold {c : CellPart} {zs : List ZoneEntry} (p : Nat → ZoneEntry → Bool) (h : ZoneHold) (lc : Nat)
    (hp : ∀ z < 32, isHome c z = true → (zs.getD z ⟨.free, 0⟩).hold = .held (zoneCfg c z).owner → p z (zs.getD z ⟨.free, 0⟩) = false)
    (hh : zs.length = 32 ∧ ∀ z < 32, isHome c z = true → (zs.getD z ⟨.free, 0⟩).hold = .held (zoneCfg c z).owner) :
    (setHold zs p h lc).length = 32 ∧
      ∀ z < 32, isHome c z = true → ((setHold zs p h lc).getD z ⟨.free, 0⟩).hold = .held (zoneCfg c z).owner := by
  refine ⟨by rw [setHold_length, hh.1], fun z hz hi => ?_⟩
  rw [setHold_getD _ _ _ _ _ (by omega), hp z hz hi (hh.2 z hz hi)]
  exact hh.2 z hz hi

/-- A replica whose zones alone are rewritten by `setHold`. -/
theorem tableStep_setHold (c : CellPart) (r : Replica) (p : Nat → ZoneEntry → Bool) (h : ZoneHold) (lc : Nat) (cl : List Claim)
    (hp : ∀ z < 32, isHome c z = true → (zoneEntry r z).hold = .held (zoneCfg c z).owner → p z (zoneEntry r z) = false) :
    TableStep c r { r with zones := setHold r.zones p h lc, claims := cl } :=
  ⟨rfl, fun s => ⟨s.roster, by simp only [setHold_length]; exact s.zones, s.ports, s.probes, s.latches⟩,
   fun hh => homes_setHold p h lc hp hh⟩

/-! ### Tables other than the zones -/

/-- A replica with the same cell record and zones, and tables of the same sizes. -/
theorem tableStep_same (c : CellPart) {r t : Replica} (hc : t.cell = r.cell) (hz : t.zones = r.zones)
    (h1 : t.roster.length = r.roster.length) (h2 : t.ports.length = r.ports.length) (h3 : t.probes.length = r.probes.length)
    (h4 : t.latches.length = r.latches.length) : TableStep c r t :=
  ⟨hc, fun s => ⟨h1.trans s.roster, by rw [hz]; exact s.zones, h2.trans s.ports, h3.trans s.probes, h4.trans s.latches⟩,
   fun hh => ⟨by rw [hz]; exact hh.1, fun z hz2 hi => by have := hh.2 z hz2 hi; simpa only [zoneEntry, hz] using this⟩⟩

theorem step_roster (c : CellPart) (r : Replica) (k : Nat) (e : RosterEntry) : TableStep c r { r with roster := set1 r.roster k e } :=
  tableStep_same c rfl rfl (set1_length _ _ _) rfl rfl rfl
theorem step_port (c : CellPart) (r : Replica) (p : Nat) (e : PortEntry) : TableStep c r { r with ports := set1 r.ports p e } :=
  tableStep_same c rfl rfl rfl (set1_length _ _ _) rfl rfl
theorem step_probe (c : CellPart) (r : Replica) (x : Nat) (e : ProbeRec) : TableStep c r { r with probes := set1 r.probes x e } :=
  tableStep_same c rfl rfl rfl rfl (set1_length _ _ _) rfl
theorem step_claims (c : CellPart) (r : Replica) (l : List Claim) : TableStep c r { r with claims := l } :=
  tableStep_same c rfl rfl rfl rfl rfl rfl
theorem step_board (c : CellPart) (r : Replica) (b : List BoardEntry) : TableStep c r { r with board := b } :=
  tableStep_same c rfl rfl rfl rfl rfl rfl
theorem step_derive (c d : CellPart) (r : Replica) : TableStep c r (derive d r) := tableStep_same c rfl rfl rfl rfl rfl rfl
theorem step_latch (c : CellPart) (r : Replica) (lc k : Nat) (d : Option LatchData) : TableStep c r (setLatch r lc k d) :=
  tableStep_same c rfl rfl rfl rfl rfl (set1_length _ _ _)

theorem step_foldl {α : Type} (c : CellPart) (f : Replica → α → Replica) (hf : ∀ r a, TableStep c r (f r a)) (l : List α) (r : Replica) :
    TableStep c r (l.foldl f r) := by
  induction l generalizing r with
  | nil => exact TableStep.refl c r
  | cons a l ih => exact (hf r a).trans (ih _)

/-! ### Ports and custody (chapter 6) -/

theorem step_setPortState (c : CellPart) (r : Replica) (lc p : Nat) (st : PortState) : TableStep c r (setPortState r lc p st) := step_port c r p _
theorem step_setCustody (c : CellPart) (r : Replica) (lc x : Nat) (cu : Custody) : TableStep c r (setCustody r lc x cu) := step_probe c r x _
theorem step_setSuspect (c : CellPart) (r : Replica) (lc x : Nat) : TableStep c r (setSuspect r lc x) := step_probe c r x _
theorem step_setPortsWhere (c : CellPart) (r : Replica) (lc : Nat) (p : PortState → Bool) (st : PortState)
    (keep : Option Nat) : TableStep c r (setPortsWhere r lc p st keep) := tableStep_same c rfl rfl rfl (by simp only [setPortsWhere, map1_length]) rfl rfl
theorem step_endReservation (c : CellPart) (r : Replica) (lc p : Nat) (st : PortState) : TableStep c r (endReservation r lc p st) :=
  step_port c r p _
theorem step_restamp (c : CellPart) (r : Replica) (lc p : Nat) (old : PortEntry) : TableStep c r (restamp r lc p old) := step_port c r p _

theorem step_vacate (c : CellPart) (r : Replica) (lc x : Nat) (keep : Option Nat) : TableStep c r (vacate r lc x keep) := by
  unfold vacate
  split
  · split
    · exact TableStep.refl c r
    · exact step_setPortState _ _ _ _ _
  · split
    · exact step_setPortState _ _ _ _ _
    · exact TableStep.refl c r
  · exact step_setPortsWhere _ _ _ _ _ _
  · exact TableStep.refl c r

theorem step_makeLost (c : CellPart) (r : Replica) (lc : Nat) (keep : Option Nat) (x : Nat) : TableStep c r (makeLost r lc keep x) := by
  unfold makeLost
  split
  · exact TableStep.refl c r
  · exact (step_vacate c r lc x keep).trans (step_setCustody _ _ _ _ _)

theorem step_loseAll (c : CellPart) (lc : Nat) (keep : Option Nat) (xs : List Nat) (r : Replica) : TableStep c r (loseAll lc keep xs r) :=
  step_foldl c _ (fun r x => step_makeLost c r lc keep x) xs r

theorem step_clearPort (c : CellPart) (r : Replica) (lc p x : Nat) : TableStep c r (clearPort r lc p x) := by
  refine step_foldl c _ (fun r y => ?_) _ r
  split
  · exact TableStep.refl c r
  · exact step_setCustody _ _ _ _ _

theorem step_placeAtPort (c : CellPart) (r : Replica) (lc x p : Nat) : TableStep c r (placeAtPort r lc x p) :=
  (step_vacate c r lc x _).trans ((step_clearPort _ _ _ _ _).trans (step_setCustody _ _ _ _ _))

theorem step_placeAtStation (c : CellPart) (r : Replica) (lc x k : Nat) (keep : Option Nat) : TableStep c r (placeAtStation r lc x k keep) :=
  (step_vacate c r lc x keep).trans ((step_loseAll _ _ _ _ _).trans (step_setCustody _ _ _ _ _))

theorem step_followReport (c : CellPart) (lc p : Nat) (present : Bool) (code : Option Code) (r : Replica) :
    TableStep c r (followReport c lc p present code r) := by
  unfold followReport
  simp only
  repeat' split
  all_goals first
    | exact TableStep.refl c _
    | exact step_setPortState _ _ _ _ _
    | exact (step_placeAtPort _ _ _ _ _).trans (step_setPortState _ _ _ _ _)
    | exact (step_makeLost _ _ _ _ _).trans (step_setPortState _ _ _ _ _)

theorem step_settleDeposit (c : CellPart) (lc p m : Nat) (present : Bool) (code : Option Code) (r : Replica) :
    TableStep c r (settleDeposit c lc p m present code r) := by
  unfold settleDeposit
  split
  · exact TableStep.refl c r
  · split
    · split
      · exact (step_placeAtPort c r lc m p).trans (step_endReservation _ _ _ _ _)
      · rename_i x _ _
        exact (step_placeAtPort c r lc x p).trans ((step_makeLost c _ lc (some p) m).trans ((step_setSuspect c _ lc m).trans
          (step_endReservation _ _ _ _ _)))
    · exact (step_makeLost c r lc (some p) m).trans ((step_setSuspect c _ lc m).trans (step_endReservation _ _ _ _ _))

theorem step_finishPickup (c : CellPart) (r : Replica) (lc p : Nat) : TableStep c r (finishPickup r lc p) := by
  unfold finishPickup
  simp only
  split
  · exact step_endReservation _ _ _ _ _
  · exact TableStep.refl c r

theorem step_reportPort (c : CellPart) (lc p : Nat) (present : Bool) (lock : Lock) (code : Option Code) (r : Replica) :
    TableStep c r (reportPort c lc p present lock code r) := by
  have key : ∀ (st : PortState) (r1 : Replica), TableStep c r1 (match st with
      | .reserved _ .deposit m => if lock = .locked then settleDeposit c lc p m present code r1 else r1
      | .reserved _ .pickup _ => if lock = .locked && !present then finishPickup r1 lc p else r1
      | _ => followReport c lc p present code r1) := by
    intro st r1
    split
    · split
      · exact step_settleDeposit _ _ _ _ _ _ _
      · exact TableStep.refl c _
    · split
      · exact step_finishPickup _ _ _ _
      · exact TableStep.refl c _
    · exact step_followReport _ _ _ _ _ _
  exact ((step_port c r p _).trans (key (portEntry r p).state _)).trans (step_restamp c _ lc p (portEntry r p))

/-- A rule that may be void, when it is not. -/
def StepsTo (c : CellPart) (r : Replica) (o : Option Replica) : Prop := ∀ t ∈ o, TableStep c r t

theorem steps_none (c : CellPart) (r : Replica) : StepsTo c r none := fun _ h => nomatch h
theorem steps_some {c : CellPart} {r t : Replica} (h : TableStep c r t) : StepsTo c r (some t) := by
  intro u hu
  cases hu
  exact h

theorem steps_reservePort (c d : CellPart) (lc k p : Nat) (purpose : Purpose) (x : Nat) (r : Replica) :
    StepsTo c r (reservePort d lc k p purpose x r) := by
  have key : ∀ b : Bool, StepsTo c r (if b = true then
      some { r with ports := set1 r.ports p { portEntry r p with state := .reserved k purpose x, takeSeen := false, stamp := lc } }
      else none) := by
    intro b
    split
    · exact steps_some (step_port c r p _)
    · exact steps_none c r
  exact key _

theorem steps_depositProbe (c : CellPart) (lc k m p : Nat) (r : Replica) : StepsTo c r (depositProbe lc k m p r) := by
  unfold depositProbe
  split
  · exact steps_some ((step_vacate c r lc m (some p)).trans (step_setCustody _ _ _ _ _))
  · exact steps_none c r

theorem steps_takeProbe (c d : CellPart) (lc k t p : Nat) (code : Option Code) (r : Replica) :
    StepsTo c r (takeProbe d lc k t p code r) := by
  unfold takeProbe
  split
  · refine steps_some (TableStep.trans ?_ (step_finishPickup _ _ _ _))
    refine TableStep.trans (step_port c r p { portEntry r p with takeSeen := true, stamp := lc }) ?_
    split
    · split
      · exact step_placeAtStation _ _ _ _ _ _
      · exact (step_placeAtStation _ _ _ _ _ _).trans ((step_setSuspect _ _ _ _).trans (step_makeLost _ _ _ _ _))
    · exact (step_makeLost _ _ _ _ _).trans (step_loseAll _ _ _ _ _)
  · exact steps_none c r

theorem steps_abandonPort (c : CellPart) (lc k p : Nat) (inside : Bool) (r : Replica) : StepsTo c r (abandonPort lc k p inside r) := by
  unfold abandonPort
  simp only
  repeat' split
  all_goals first
    | exact steps_none c r
    | exact steps_some (step_endReservation _ _ _ _ _)
    | exact steps_some ((step_setCustody _ _ _ _ _).trans (step_endReservation _ _ _ _ _))

theorem step_mountProbe (c d : CellPart) (lc k : Nat) (code : Option Code) (r : Replica) : TableStep c r (mountProbe d lc k code r) := by
  unfold mountProbe
  split
  · exact step_placeAtStation _ _ _ _ _ _
  · exact step_loseAll _ _ _ _ _

theorem steps_custodyBy (c d : CellPart) (lc x : Nat) (cu : Custody) (r : Replica) : StepsTo c r (custodyBy d lc x cu r) := by
  unfold custodyBy
  repeat' split
  all_goals first
    | exact steps_none c r
    | exact steps_some ((step_placeAtPort _ _ _ _ _).trans ((step_setPortState _ _ _ _ _).trans (step_restamp _ _ _ _ _)))
    | exact steps_some (step_placeAtStation _ _ _ _ _ _)
    | exact steps_some (step_makeLost _ _ _ _ _)

theorem step_rackLost (c : CellPart) (lc : Nat) (r : Replica) : TableStep c r (rackLost lc r) := by
  have key : ∀ (xs : List Nat) (f : PortEntry → PortEntry), TableStep c r
      { xs.foldl (fun r x => setCustody r lc x .lost) r with
        ports := (xs.foldl (fun r x => setCustody r lc x .lost) r).ports.map f } := fun xs f =>
    TableStep.trans (step_foldl c _ (fun r x => step_setCustody c r lc x .lost) xs r)
      (tableStep_same c rfl rfl rfl (List.length_map _) rfl rfl)
  exact key _ _

theorem step_dropReservation (c : CellPart) (lc k p : Nat) (r : Replica) : TableStep c r (dropReservation lc k p r) := by
  unfold dropReservation
  simp only
  repeat' split
  all_goals first
    | exact TableStep.refl c r
    | exact step_setPortState _ _ _ _ _
    | exact (step_setCustody _ _ _ _ _).trans (step_setPortState _ _ _ _ _)

theorem step_leavePorts (c d : CellPart) (lc k : Nat) (r : Replica) : TableStep c r (leavePorts d lc k r) := by
  unfold leavePorts
  split
  · exact step_rackLost c lc r
  · exact step_foldl c _ (fun r p => step_dropReservation c lc k p r) _ r

/-! ### Latches, probes and the board (chapters 5 and 7) -/

theorem step_emptyLatch (c : CellPart) (lc k : Nat) (r : Replica) : TableStep c r (emptyLatch lc k r) := by
  unfold emptyLatch
  split
  · exact step_latch _ _ _ _ _
  · exact TableStep.refl c r

theorem steps_stagePart (c d : CellPart) (lc k x i n : Nat) (t : Tip) (r : Replica) : StepsTo c r (stagePart d lc k x i n t r) := by
  unfold stagePart
  simp only
  repeat' split
  all_goals first
    | exact steps_none c r
    | exact steps_some (step_latch _ _ _ _ _)

theorem step_commitProbe (c : CellPart) (lc x : Nat) (ts : List Tip) (temp : Int) (r : Replica) :
    TableStep c r (commitProbe lc x ts temp r) := step_probe c r x _

theorem step_stampProbe (c : CellPart) (r : Replica) (lc x : Nat) (e : ProbeRec) : TableStep c r (stampProbe r lc x e) := by
  unfold stampProbe
  simp only
  split
  · exact TableStep.refl c r
  · exact step_probe c r x _

theorem step_staleCheck (c d : CellPart) (lc k : Nat) (r : Replica) : TableStep c r (staleCheck d lc k r) := by
  unfold staleCheck
  split
  · exact TableStep.refl c r
  · exact step_stampProbe _ _ _ _ _

theorem steps_touchProbe (c d : CellPart) (lc x : Nat) (r : Replica) : StepsTo c r (touchProbe d lc x r) := by
  unfold touchProbe
  split
  · exact steps_some (step_stampProbe _ _ _ _ _)
  · exact steps_none c r

theorem steps_markProbe (c d : CellPart) (lc k x : Nat) (r : Replica) : StepsTo c r (markProbe d lc k x r) := by
  unfold markProbe
  split
  · exact steps_some (step_stampProbe _ _ _ _ _)
  · exact steps_none c r

/-! ### The roster (chapter 2) -/

theorem step_setRoster (c : CellPart) (r : Replica) (lc k : Nat) (e : RosterEntry) : TableStep c r (setRoster r lc k e) := by
  unfold setRoster
  simp only
  split
  · exact TableStep.refl c r
  · exact step_roster c r k _

theorem step_endServices (c : CellPart) (lc : Nat) (p : Nat → Nat × Nat → Bool) (r : Replica) : TableStep c r (endServices lc p r) :=
  tableStep_same c rfl rfl (by simp only [endServices, map1_length]) rfl rfl rfl

theorem step_rosterStep (c : CellPart) (lc : Nat) (h : Hdr) (r : Replica) : TableStep c r (rosterStep lc h r) := by
  have key : ∀ (st : RosterState) (e : RosterEntry), TableStep c r
      (if st = .joining ∨ st = .active then setRoster r lc h.sender e else r) := by
    intro st e
    split
    · exact step_setRoster _ _ _ _ _
    · exact TableStep.refl c r
  exact key _ _

theorem step_leaveTables (c d : CellPart) (lc k : Nat) (r : Replica) : TableStep c r (leaveTables d lc k r) :=
  (step_board c r _).trans ((step_emptyLatch _ _ _ _).trans ((step_leavePorts _ _ _ _ _).trans (step_endServices _ _ _ _)))

/-! ### The grant scan and the zones (chapter 3) -/

theorem maskOf_getLsbD (p : Nat → Bool) (z : Nat) (hz : z < 32) : (maskOf p).getLsbD z = p z := by
  have key : ∀ (l : List Nat) (m : ZoneMask), (∀ y ∈ l, y < 32) →
      (l.foldl (fun m y => if p y then m ||| (1#32 <<< y) else m) m).getLsbD z = (m.getLsbD z || (decide (z ∈ l) && p z)) := by
    intro l
    induction l with
    | nil => intro m _; simp
    | cons y l ih =>
      intro m hl
      rw [List.foldl_cons, ih _ (fun w hw => hl w (List.mem_cons_of_mem _ hw))]
      have hy : y < 32 := hl y (by simp)
      by_cases hpy : p y
      · simp only [hpy, if_true, BitVec.getLsbD_or, BitVec.getLsbD_shiftLeft, BitVec.getLsbD_one]
        by_cases hzy : z = y
        · subst hzy; simp [hz, hpy]
        · have h1 : decide (z - y = 0) = decide (z < y) := by
            by_cases hlt : z < y
            · simp [hlt]; omega
            · simp [hlt]; omega
          have h2 : decide (z ∈ y :: l) = decide (z ∈ l) := by simp [hzy]
          rw [h2]
          by_cases hlt : z < y
          · simp [hlt, hz]
          · have : z - y ≠ 0 := by omega
            simp [hlt, hz, this]
      · simp only [hpy, if_false, Bool.false_eq_true]
        by_cases hzy : z = y
        · subst hzy; simp [hpy]
        · simp [hzy]
  have := key (List.range 32) 0#32 (fun y hy => List.mem_range.mp hy)
  unfold maskOf
  rw [this]
  simp [hz]

/-- Zones that are all FREE hold no HOME zone that its owner holds. -/
theorem allFree_home {zs : List ZoneEntry} {m : ZoneMask} (h : allFree zs m = true) (z : Nat) (hz : z < 32) (hm : m.getLsbD z = true) :
    (zs.getD z ⟨.free, 0⟩).hold = .free := by
  simp only [allFree, List.all_eq_true, List.mem_range, Bool.or_eq_true, Bool.not_eq_true', beq_iff_eq] at h
  rcases h z hz with h | h
  · rw [h] at hm; cases hm
  · exact h

theorem walk_homes (c : CellPart) (lc : Nat) (rest : List Claim) : ∀ (ahead : List Claim) (zs : List ZoneEntry),
    (walk lc ahead rest zs).2.length = zs.length ∧
      ((zs.length = 32 ∧ ∀ z < 32, isHome c z = true → (zs.getD z ⟨.free, 0⟩).hold = .held (zoneCfg c z).owner) →
        ∀ z < 32, isHome c z = true → ((walk lc ahead rest zs).2.getD z ⟨.free, 0⟩).hold = .held (zoneCfg c z).owner) := by
  induction rest with
  | nil => intro ahead zs; exact ⟨rfl, fun h => h.2⟩
  | cons a rest ih =>
    intro ahead zs
    unfold walk
    split
    · rename_i hg
      simp only [grantable, Bool.and_eq_true] at hg
      obtain ⟨h1, h2⟩ := ih (ahead.map passOnce) (setHold zs (fun z _ => a.wanted.getLsbD z) (.held a.claimant) lc)
      refine ⟨by rw [h1, setHold_length], fun hh => h2 (homes_setHold _ _ _ ?_ hh)⟩
      intro z hz hi hd
      by_contra hb
      have := allFree_home hg.1 z hz (by simpa using hb)
      rw [hd] at this
      cases this
    · exact ih _ _

theorem scanSteps_homes (c : CellPart) (starve lc n : Nat) : ∀ (l : List Claim) (zs : List ZoneEntry),
    (scanSteps starve lc n l zs).2.1.length = zs.length ∧
      ((zs.length = 32 ∧ ∀ z < 32, isHome c z = true → (zs.getD z ⟨.free, 0⟩).hold = .held (zoneCfg c z).owner) →
        ∀ z < 32, isHome c z = true → ((scanSteps starve lc n l zs).2.1.getD z ⟨.free, 0⟩).hold = .held (zoneCfg c z).owner) := by
  induction n with
  | zero => intro l zs; exact ⟨rfl, fun h => h.2⟩
  | succ n ih =>
    intro l zs
    obtain ⟨h1, h2⟩ := walk_homes c lc l [] zs
    unfold scanSteps
    simp only
    split
    · exact ⟨h1, h2⟩
    · rename_i b _
      obtain ⟨h3, h4⟩ := ih (dropClaim (escalate starve (walk lc [] l zs).1) b.claimant) (walk lc [] l zs).2
      exact ⟨h3.trans h1, fun hh => h4 ⟨h1.trans hh.1, h2 hh⟩⟩

theorem step_scan (c d : CellPart) (lc : Nat) (r : Replica) : TableStep c r (scan d lc r).1 := by
  obtain ⟨h1, h2⟩ := scanSteps_homes c d.starve lc (r.claims.length + 1) r.claims r.zones
  exact ⟨rfl, fun s => ⟨s.roster, h1.trans s.zones, s.ports, s.probes, s.latches⟩, fun hh => ⟨h1.trans hh.1, h2 hh⟩⟩

theorem step_withScan (c d : CellPart) (lc : Nat) (fx : Fx) (r : Replica) : TableStep c r (withScan d lc fx r).1 := step_scan c d lc r

theorem step_orphanZones (c : CellPart) (lc k : Nat) (r : Replica) : TableStep c r (orphanZones c lc k r) := by
  refine tableStep_setHold c r _ _ _ _ (fun z _ hi hd => ?_)
  simp only [hi, Bool.true_and, hd]
  by_cases h : (zoneCfg c z).owner = k <;> simp [h]

theorem step_restoreZones (c : CellPart) (lc k : Nat) (r : Replica) : TableStep c r (restoreZones lc k r) :=
  tableStep_setHold c r _ _ _ _ (fun z _ _ hd => by simp [hd])

theorem step_releaseZones (c : CellPart) (lc k : Nat) (mask : ZoneMask) (withdraw : Bool) (r : Replica) :
    TableStep c r (releaseZones c lc k mask withdraw r) :=
  tableStep_setHold c r _ _ _ _ (fun z hz hi _ => by
    simp only [releasable]
    rw [maskOf_getLsbD _ _ hz, hi]
    simp)

theorem step_forceZones (c : CellPart) (lc : Nat) (mask : ZoneMask) (r : Replica) : TableStep c r (forceZones c lc mask r) :=
  tableStep_setHold c r _ _ _ r.claims (fun z hz hi hd => by
    simp only [forcible]
    rw [maskOf_getLsbD _ _ hz, hd, hi]
    simp)

theorem steps_recordClaim (c : CellPart) (lc k : Nat) (mask : ZoneMask) (base : Prio) (r : Replica) :
    StepsTo c r (recordClaim c lc k mask base r) := by
  unfold recordClaim
  simp only
  split
  · exact steps_none c r
  · split
    · exact steps_some (step_claims _ _ _)
    · exact steps_some (step_claims _ _ _)

/-! ### The application of a frame (R22) -/

theorem step_orVoid {c : CellPart} {r : Replica} {o : Option Replica} (h : StepsTo c r o) : TableStep c r (orVoid r o).1 := by
  cases o with
  | none => exact TableStep.refl c r
  | some t => exact h t rfl

theorem steps_if {c : CellPart} {r : Replica} {o : Option Replica} (b : Bool) (h : StepsTo c r o) :
    StepsTo c r (if b = true then o else none) := by
  split
  · exact h
  · exact steps_none c r

theorem step_silenceStation (c : CellPart) (lc k : Nat) (heard : Bool) (r : Replica) : TableStep c r (silenceStation c lc k heard r).1 := by
  unfold silenceStation
  split
  · exact (step_setRoster _ _ _ _ _).trans ((step_orphanZones _ _ _ _).trans ((step_leaveTables _ _ _ _ _).trans (step_withScan _ _ _ _ _)))
  · exact TableStep.refl c r

theorem step_joinFormed (c : CellPart) (lc : Nat) (h : Hdr) (cause : ResetCause) (jn : Nat) (r : Replica) :
    TableStep c r (joinFormed c lc h cause jn r).1 := by
  unfold joinFormed
  simp only
  have key : ∀ (b : Prop) [Decidable b] (fx : Fx) (u : Replica), TableStep c r u →
      TableStep c r (if b then withScan c lc fx u else (u, fx)).1 := by
    intro b _ fx u hu
    split
    · exact hu.trans (step_withScan _ _ _ _ _)
    · exact hu
  refine key _ _ _ ?_
  have h3 : TableStep c r (if (rosterEntry r h.sender).state = .active ∨ (rosterEntry r h.sender).state = .silent then
      leaveTables c lc h.sender (restoreZones lc h.sender r) else r) := by
    split
    · exact (step_restoreZones _ _ _ _).trans (step_leaveTables _ _ _ _ _)
    · exact TableStep.refl c r
  generalize (if (rosterEntry r h.sender).state = .active ∨ (rosterEntry r h.sender).state = .silent then
      leaveTables c lc h.sender (restoreZones lc h.sender r) else r) = r1 at h3 ⊢
  have h4 : ∀ e, TableStep c r (endServices lc (fun _ v => v.1 == h.sender) { r1 with roster := set1 r1.roster h.sender e }) :=
    fun e => h3.trans ((step_roster _ _ _ e).trans (step_endServices _ _ _ _))
  have h5 : ∀ (o : Option Nat) (t : Replica), TableStep c r t → TableStep c r (match o with
      | none => t
      | some j => setRoster t lc j { rosterEntry t j with serving := some (h.sender, jn) }) := by
    intro o t ht
    split
    · exact ht
    · exact ht.trans (step_setRoster _ _ _ _ _)
  exact h5 _ _ (h4 _)

theorem step_joinRefused (c : CellPart) (lc : Nat) (h : Hdr) (cause : ResetCause) (r : Replica) :
    TableStep c r (joinRefused c lc h cause r).1 := by
  unfold joinRefused
  simp only
  have key : ∀ (b : Prop) [Decidable b] (fx : Fx) (u : Replica), TableStep c r u →
      TableStep c r (if b then withScan c lc fx u else (u, fx)).1 := by
    intro b _ fx u hu
    split
    · exact hu.trans (step_withScan _ _ _ _ _)
    · exact hu
  refine key _ _ _ ?_
  have h3 : TableStep c r (if (rosterEntry r h.sender).state = .active then
      leaveTables c lc h.sender (orphanZones c lc h.sender r) else r) := by
    split
    · exact (step_orphanZones _ _ _ _).trans (step_leaveTables _ _ _ _ _)
    · exact TableStep.refl c r
  exact h3.trans ((step_roster _ _ _ _).trans (step_endServices _ _ _ _))

theorem step_applyKind (c : CellPart) (lc k : Nat) (heard : Bool) (dest : Nat) (b : Body) (r : Replica) :
    TableStep c r (applyKind c lc k heard dest b r).1 := by
  unfold applyKind
  split
  · exact step_silenceStation _ _ _ _ _
  · exact step_endServices _ _ _ _
  · split
    · exact TableStep.refl c r
    · rename_i r1 h
      exact (steps_recordClaim c lc k _ _ r r1 h).trans (step_withScan _ _ _ _ _)
  · split
    · exact (step_releaseZones _ _ _ _ _ _).trans (step_withScan _ _ _ _ _)
    · exact TableStep.refl c r
  · split
    · exact TableStep.refl c r
    · exact (step_forceZones _ _ _ _).trans (step_withScan _ _ _ _ _)
  · exact step_orVoid (steps_reservePort _ _ _ _ _ _ _ _)
  · split
    · exact step_reportPort _ _ _ _ _ _ _
    · exact TableStep.refl c r
  · exact step_orVoid (steps_if _ (steps_abandonPort _ _ _ _ _ _))
  · exact step_orVoid (steps_if _ (steps_depositProbe _ _ _ _ _ _))
  · exact step_orVoid (steps_if _ (steps_takeProbe _ _ _ _ _ _ _ _))
  · exact step_mountProbe _ _ _ _ _ _
  · exact step_orVoid (steps_custodyBy _ _ _ _ _ _)
  · exact step_orVoid (steps_stagePart _ _ _ _ _ _ _ _ _)
  · split
    · exact step_emptyLatch _ _ _ _
    · exact (step_commitProbe _ _ _ _ _ _).trans (step_emptyLatch _ _ _ _)
  · exact step_orVoid (steps_markProbe _ _ _ _ _ _)
  · exact (step_board c r _).trans (step_staleCheck _ _ _ _ _)
  · exact step_orVoid (steps_touchProbe _ _ _ _ _)
  · exact TableStep.refl c r

/-- Everything the application of a completed frame can do to the tables as a whole. -/
theorem step_applyFormed (c : CellPart) (lc : Nat) (heard : Bool) (f : Frame) (r : Replica) :
    TableStep c r (applyFormed c lc heard f r).1 := by
  unfold applyFormed
  refine TableStep.trans ?_ (step_derive _ _ _)
  simp only
  split
  · split
    · exact step_joinFormed _ _ _ _ _ _
    · exact step_joinRefused _ _ _ _ _
  · split
    · exact TableStep.refl c r
    · split
      · split
        · exact (step_rosterStep _ _ _ _).trans (step_applyKind _ _ _ _ _ _ _)
        · exact step_rosterStep _ _ _ _
      · exact step_applyKind _ _ _ _ _ _ _

end Sys2Proof.Laws
end

