-- ==== Sys2Proof/Laws/Custody.lean ====
section
/-! SUPPORT. Placing a probe, a probe that becomes LOST, and what they do to ports and probes, entry by entry (R108, R113 to R119). -/

namespace Sys2Proof.Laws

open Sys2Proof.Machine

/-- A probe's record after it is placed at a custody or becomes LOST (R108 step 3). -/
def placedRec (e : ProbeRec) (cu : Custody) (lc : Nat) : ProbeRec := { e with custody := cu, staleRun := 0, stamp := lc }

/-- Port `q` after the old custody of probe `x` is vacated, `q` being no port of the placing (R108 step 1). -/
def vacatedIn (r : Replica) (lc x q : Nat) : PortEntry :=
  let e := portEntry r q
  match (probeRec r x).custody with
  | .port j => if j = q then { e with state := .unknown, stamp := lc } else e
  | .transfer j => if j = q ∧ depositOf x e.state = true then { e with state := .unknown, stamp := lc } else e
  | .station _ => if depositOf x e.state = true then { e with state := .empty, stamp := lc } else e
  | .lost => e

/-! ### One entry -/

theorem probeRec_setCustody (r : Replica) (lc x : Nat) (cu : Custody) (h1 : 1 ≤ x) (h2 : x ≤ r.probes.length) (y : Nat) :
    probeRec (setCustody r lc x cu) y = if y = x then placedRec (probeRec r x) cu lc else probeRec r y := by
  by_cases h : y = x
  · subst h
    rw [if_pos rfl]
    exact at1_set1_same _ _ _ _ h1 h2
  · rw [if_neg h]
    exact at1_set1_other _ _ _ _ _ h

theorem portEntry_setCustody (r : Replica) (lc x : Nat) (cu : Custody) (q : Nat) : portEntry (setCustody r lc x cu) q = portEntry r q := rfl

theorem setCustody_lengths (r : Replica) (lc x : Nat) (cu : Custody) :
    (setCustody r lc x cu).probes.length = r.probes.length ∧ (setCustody r lc x cu).ports.length = r.ports.length :=
  ⟨set1_length _ _ _, rfl⟩

theorem portEntry_set (r : Replica) (p : Nat) (e : PortEntry) (h1 : 1 ≤ p) (h2 : p ≤ r.ports.length) (q : Nat) :
    portEntry { r with ports := set1 r.ports p e } q = if q = p then e else portEntry r q := by
  by_cases h : q = p
  · subst h
    rw [if_pos rfl]
    exact at1_set1_same _ _ _ _ h1 h2
  · rw [if_neg h]
    exact at1_set1_other _ _ _ _ _ h

theorem portEntry_setPortState (r : Replica) (lc p : Nat) (st : PortState) (h1 : 1 ≤ p) (h2 : p ≤ r.ports.length) (q : Nat) :
    portEntry (setPortState r lc p st) q = if q = p then { portEntry r p with state := st, stamp := lc } else portEntry r q :=
  portEntry_set r p _ h1 h2 q

theorem portEntry_endReservation (r : Replica) (lc p : Nat) (st : PortState) (h1 : 1 ≤ p) (h2 : p ≤ r.ports.length) (q : Nat) :
    portEntry (endReservation r lc p st) q =
      if q = p then { portEntry r p with state := st, takeSeen := false, stamp := lc } else portEntry r q :=
  portEntry_set r p _ h1 h2 q

/-- A port outside the table: no entry is replaced. -/
theorem portEntry_setPortState_outside (r : Replica) (lc p : Nat) (st : PortState) (h : ¬ (1 ≤ p ∧ p ≤ r.ports.length)) :
    setPortState r lc p st = r := by
  unfold setPortState
  cases p with
  | zero => rfl
  | succ p =>
    have : r.ports.length ≤ p := by omega
    show ({ r with ports := r.ports.set p _ } : Replica) = r
    rw [List.set_eq_of_length_le this]

/-! ### Vacating (R108 step 1) -/

theorem vacate_probes (r : Replica) (lc x : Nat) (keep : Option Nat) : (vacate r lc x keep).probes = r.probes := by
  unfold vacate
  split
  · split <;> rfl
  · split <;> rfl
  · rfl
  · rfl

theorem vacate_rec (r : Replica) (lc x : Nat) (keep : Option Nat) (y : Nat) : probeRec (vacate r lc x keep) y = probeRec r y := by
  unfold probeRec; rw [vacate_probes]

theorem vacate_ports (r : Replica) (lc x : Nat) (keep : Option Nat) : (vacate r lc x keep).ports.length = r.ports.length := by
  unfold vacate
  split
  · split
    · rfl
    · exact set1_length _ _ _
  · split
    · exact set1_length _ _ _
    · rfl
  · simp only [setPortsWhere, map1_length]
  · rfl

/-- A state set on one port, seen from a port in the table. -/
theorem portEntry_set_state (r : Replica) (lc j : Nat) (st : PortState) (q : Nat) (h1 : 1 ≤ q) (h2 : q ≤ r.ports.length) :
    portEntry (setPortState r lc j st) q = if j = q then { portEntry r q with state := st, stamp := lc } else portEntry r q := by
  by_cases hj : 1 ≤ j ∧ j ≤ r.ports.length
  · rw [portEntry_setPortState r lc j st hj.1 hj.2]
    by_cases h : q = j
    · rw [if_pos h, if_pos h.symm, h]
    · rw [if_neg h, if_neg (Ne.symm h)]
  · rw [portEntry_setPortState_outside r lc j st hj, if_neg]
    intro h; subst h; exact hj ⟨h1, h2⟩

/-- A state set on every port that a test picks, seen from a port in the table. -/
theorem portEntry_setPortsWhere (r : Replica) (lc : Nat) (p : PortState → Bool) (st : PortState) (keep : Option Nat) {q : Nat} (h1 : 1 ≤ q)
    (h2 : q ≤ r.ports.length) :
    portEntry (setPortsWhere r lc p st keep) q =
      if keep ≠ some q ∧ p (portEntry r q).state = true then { portEntry r q with state := st, stamp := lc } else portEntry r q := by
  unfold portEntry setPortsWhere
  rw [at1_map1 _ _ _ _ h1 h2]

theorem vacate_port (r : Replica) (lc x : Nat) (keep : Option Nat) (q : Nat) (h1 : 1 ≤ q) (h2 : q ≤ r.ports.length) (hk : keep ≠ some q) :
    portEntry (vacate r lc x keep) q = vacatedIn r lc x q := by
  unfold vacate vacatedIn
  simp only
  cases hc : (probeRec r x).custody with
  | port j =>
    simp only
    split
    · rename_i hkj
      rw [if_neg]
      intro hj; subst hj; exact hk hkj
    · exact portEntry_set_state _ _ _ _ _ h1 h2
  | transfer j =>
    simp only
    by_cases hd : keep ≠ some j ∧ depositOf x (portEntry r j).state = true
    · rw [if_pos hd, portEntry_set_state _ _ _ _ _ h1 h2]
      by_cases hj : j = q
      · subst hj; rw [if_pos rfl, if_pos ⟨rfl, hd.2⟩]
      · rw [if_neg hj, if_neg (fun y => hj y.1)]
    · rw [if_neg hd, if_neg]
      rintro ⟨hj, h⟩
      subst hj
      exact hd ⟨hk, h⟩
  | station j =>
    rw [portEntry_setPortsWhere _ _ _ _ _ h1 h2]
    by_cases hd : depositOf x (portEntry r q).state = true
    · rw [if_pos ⟨hk, hd⟩, if_pos hd]
    · rw [if_neg (fun y => hd y.2), if_neg hd]
  | lost => rfl

/-- Vacating touches only states and stamps of ports. -/
structure FieldsKept (a b : PortEntry) : Prop where
  presence : b.presence = a.presence
  lock : b.lock = a.lock
  ident : b.ident = a.ident
  takeSeen : b.takeSeen = a.takeSeen

theorem FieldsKept.refl (a : PortEntry) : FieldsKept a a := ⟨rfl, rfl, rfl, rfl⟩
theorem FieldsKept.trans {a b c : PortEntry} (h : FieldsKept a b) (k : FieldsKept b c) : FieldsKept a c :=
  ⟨k.presence.trans h.presence, k.lock.trans h.lock, k.ident.trans h.ident, k.takeSeen.trans h.takeSeen⟩

/-- The port that a placing keeps stays as it is. -/
theorem vacate_kept (r : Replica) (lc x q : Nat) : portEntry (vacate r lc x (some q)) q = portEntry r q := by
  unfold vacate
  split
  · rename_i j hj
    by_cases h : j = q
    · subst h; rw [if_pos rfl]
    · rw [if_neg (fun e => h (Option.some.inj e).symm)]
      by_cases hin : 1 ≤ q ∧ q ≤ r.ports.length
      · rw [portEntry_set_state _ _ _ _ _ hin.1 hin.2, if_neg h]
      · exact at1_set1_other _ _ _ _ _ (fun e => h e.symm)
  · rename_i j hj
    by_cases h : j = q
    · subst h; rw [if_neg (fun y => y.1 rfl)]
    · split
      · exact at1_set1_other _ _ _ _ _ (fun e => h e.symm)
      · rfl
  · by_cases hin : 1 ≤ q ∧ q ≤ r.ports.length
    · rw [portEntry_setPortsWhere _ _ _ _ _ hin.1 hin.2, if_neg (fun y => y.1 rfl)]
    · exact (at1_outside _ _ _ (by simpa only [setPortsWhere, map1_length] using hin)).trans (at1_outside _ _ _ hin).symm
  · rfl

theorem vacate_fields (r : Replica) (lc x : Nat) (keep : Option Nat) (q : Nat) (h1 : 1 ≤ q) (h2 : q ≤ r.ports.length) :
    FieldsKept (portEntry r q) (portEntry (vacate r lc x keep) q) := by
  by_cases hk : keep = some q
  · unfold vacate
    split
    · split
      · exact FieldsKept.refl _
      · rw [portEntry_set_state _ _ _ _ _ h1 h2]
        split <;> exact ⟨rfl, rfl, rfl, rfl⟩
    · split
      · rw [portEntry_set_state _ _ _ _ _ h1 h2]
        split <;> exact ⟨rfl, rfl, rfl, rfl⟩
      · exact FieldsKept.refl _
    · rw [portEntry_setPortsWhere _ _ _ _ _ h1 h2]
      split <;> exact ⟨rfl, rfl, rfl, rfl⟩
    · exact FieldsKept.refl _
  · rw [vacate_port r lc x keep q h1 h2 hk]
    unfold vacatedIn
    simp only
    split
    · split <;> exact ⟨rfl, rfl, rfl, rfl⟩
    · split <;> exact ⟨rfl, rfl, rfl, rfl⟩
    · split <;> exact ⟨rfl, rfl, rfl, rfl⟩
    · exact FieldsKept.refl _

/-! ### Becoming LOST -/

theorem makeLost_rec (r : Replica) (lc : Nat) (keep : Option Nat) (x : Nat) (h1 : 1 ≤ x) (h2 : x ≤ r.probes.length) (y : Nat) :
    probeRec (makeLost r lc keep x) y =
      if y = x ∧ (probeRec r x).custody ≠ .lost then placedRec (probeRec r x) .lost lc else probeRec r y := by
  unfold makeLost
  split
  · rename_i h
    rw [if_neg (fun c => c.2 h)]
  · rename_i h
    rw [probeRec_setCustody _ _ _ _ h1 (by rw [vacate_probes]; exact h2), vacate_rec, vacate_rec]
    by_cases hy : y = x
    · rw [if_pos hy, if_pos ⟨hy, h⟩]
    · rw [if_neg hy, if_neg (fun c => hy c.1)]

theorem makeLost_port (r : Replica) (lc : Nat) (keep : Option Nat) (x q : Nat) (h1 : 1 ≤ q) (h2 : q ≤ r.ports.length) (hk : keep ≠ some q) :
    portEntry (makeLost r lc keep x) q = vacatedIn r lc x q := by
  unfold makeLost
  split
  · rename_i h
    unfold vacatedIn
    rw [h]
  · rw [portEntry_setCustody]
    exact vacate_port r lc x keep q h1 h2 hk

theorem makeLost_fields (r : Replica) (lc : Nat) (keep : Option Nat) (x q : Nat) (h1 : 1 ≤ q) (h2 : q ≤ r.ports.length) :
    FieldsKept (portEntry r q) (portEntry (makeLost r lc keep x) q) := by
  unfold makeLost
  split
  · exact FieldsKept.refl _
  · rw [portEntry_setCustody]
    exact vacate_fields r lc x keep q h1 h2

theorem makeLost_lengths (r : Replica) (lc : Nat) (keep : Option Nat) (x : Nat) :
    (makeLost r lc keep x).probes.length = r.probes.length ∧ (makeLost r lc keep x).ports.length = r.ports.length := by
  unfold makeLost
  split
  · exact ⟨rfl, rfl⟩
  · exact ⟨(setCustody_lengths _ _ _ _).1.trans (by rw [vacate_probes]), (setCustody_lengths _ _ _ _).2.trans (vacate_ports _ _ _ _)⟩

/-- The probes of a list become LOST, the others keep their records. -/
theorem loseAll_rec (lc : Nat) (keep : Option Nat) (xs : List Nat) : ∀ (r : Replica), xs.Nodup → (∀ x ∈ xs, 1 ≤ x ∧ x ≤ r.probes.length) → ∀ y,
    probeRec (loseAll lc keep xs r) y =
      if y ∈ xs ∧ (probeRec r y).custody ≠ .lost then placedRec (probeRec r y) .lost lc else probeRec r y := by
  induction xs with
  | nil => intro r _ _ y; rw [if_neg (fun c => List.not_mem_nil c.1)]; rfl
  | cons a xs ih =>
    intro r hn hr y
    have ha := hr a List.mem_cons_self
    have hl := (makeLost_lengths r lc keep a).1
    show probeRec (loseAll lc keep xs (makeLost r lc keep a)) y = _
    rw [ih (makeLost r lc keep a) (List.nodup_cons.mp hn).2 (fun x hx => by rw [hl]; exact hr x (List.mem_cons_of_mem _ hx)) y,
      makeLost_rec r lc keep a ha.1 ha.2]
    by_cases hy : y = a
    · subst hy
      have hna := (List.nodup_cons.mp hn).1
      by_cases hc : (probeRec r y).custody = .lost
      · simp [hc]
      · simp [hc, hna]
    · simp [hy]

theorem loseAll_lengths (lc : Nat) (keep : Option Nat) (xs : List Nat) (r : Replica) :
    (loseAll lc keep xs r).probes.length = r.probes.length ∧ (loseAll lc keep xs r).ports.length = r.ports.length := by
  induction xs generalizing r with
  | nil => exact ⟨rfl, rfl⟩
  | cons a xs ih =>
    obtain ⟨h1, h2⟩ := makeLost_lengths r lc keep a
    obtain ⟨k1, k2⟩ := ih (makeLost r lc keep a)
    exact ⟨k1.trans h1, k2.trans h2⟩

theorem loseAll_fields (lc : Nat) (keep : Option Nat) (xs : List Nat) : ∀ (r : Replica) (q : Nat), 1 ≤ q → q ≤ r.ports.length →
    FieldsKept (portEntry r q) (portEntry (loseAll lc keep xs r) q) := by
  induction xs with
  | nil => intro r q _ _; exact FieldsKept.refl _
  | cons a xs ih =>
    intro r q h1 h2
    exact (makeLost_fields r lc keep a q h1 h2).trans (ih _ q h1 (by rw [(makeLost_lengths r lc keep a).2]; exact h2))

/-- The probes of a range that a test on custody picks: each once. -/
theorem probesWith_mem (r : Replica) (p : Custody → Bool) (x : Nat) :
    x ∈ probesWith r p ↔ 1 ≤ x ∧ x ≤ 24 ∧ p (probeRec r x).custody = true := by
  unfold probesWith
  rw [List.mem_filter, List.mem_map]
  constructor
  · rintro ⟨⟨i, hi, rfl⟩, h⟩
    rw [List.mem_range] at hi
    exact ⟨by omega, by omega, h⟩
  · rintro ⟨h1, h2, h⟩
    exact ⟨⟨x - 1, List.mem_range.mpr (by omega), by omega⟩, h⟩

theorem probesWith_nodup (r : Replica) (p : Custody → Bool) : (probesWith r p).Nodup :=
  ((List.nodup_map_iff (fun a b h => by simpa using h)).mpr List.nodup_range).filter _

/-! ### Placing at a port (R108) -/

theorem clearPort_rec (r : Replica) (lc p x : Nat) (hl : r.probes.length = 24) (y : Nat) :
    probeRec (clearPort r lc p x) y =
      if y ≠ x ∧ 1 ≤ y ∧ y ≤ 24 ∧ ((probeRec r y).custody = .port p ∨ (probeRec r y).custody = .transfer p)
      then placedRec (probeRec r y) .lost lc else probeRec r y := by
  have key : ∀ (xs : List Nat) (t : Replica), xs.Nodup → (∀ z ∈ xs, 1 ≤ z ∧ z ≤ t.probes.length) →
      probeRec (xs.foldl (fun r y => if y = x then r else setCustody r lc y .lost) t) y =
        if y ≠ x ∧ y ∈ xs then placedRec (probeRec t y) .lost lc else probeRec t y := by
    intro xs
    induction xs with
    | nil => intro t _ _; rw [if_neg (fun c => List.not_mem_nil c.2)]; rfl
    | cons a xs ih =>
      intro t hn hr
      have ha := hr a List.mem_cons_self
      have hna := (List.nodup_cons.mp hn).1
      rw [List.foldl_cons]
      by_cases hax : a = x
      · rw [if_pos hax, ih t (List.nodup_cons.mp hn).2 (fun z hz => hr z (List.mem_cons_of_mem _ hz))]
        by_cases hy : y = x
        · simp [hy]
        · have : y ≠ a := fun c => hy (c.trans hax)
          simp [this]
      · rw [if_neg hax, ih _ (List.nodup_cons.mp hn).2
          (fun z hz => by rw [(setCustody_lengths _ _ _ _).1]; exact hr z (List.mem_cons_of_mem _ hz)),
          probeRec_setCustody _ _ _ _ ha.1 ha.2]
        by_cases hy : y = a
        · subst hy; simp [hna, hax]
        · simp [hy]
  unfold clearPort
  rw [key _ _ (probesWith_nodup _ _) (fun z hz => by
    obtain ⟨h1, h2, _⟩ := (probesWith_mem _ _ _).mp hz
    exact ⟨h1, by rw [hl]; exact h2⟩)]
  refine if_congr ?_ rfl rfl
  rw [probesWith_mem]
  simp

theorem clearPort_ports (r : Replica) (lc p x : Nat) : (clearPort r lc p x).ports = r.ports := by
  have key : ∀ (xs : List Nat) (t : Replica), (xs.foldl (fun r y => if y = x then r else setCustody r lc y .lost) t).ports = t.ports := by
    intro xs
    induction xs with
    | nil => intro t; rfl
    | cons a xs ih => intro t; rw [List.foldl_cons, ih]; split <;> rfl
  exact key _ _

theorem clearPort_probes (r : Replica) (lc p x : Nat) : (clearPort r lc p x).probes.length = r.probes.length := by
  have key : ∀ (xs : List Nat) (t : Replica), (xs.foldl (fun r y => if y = x then r else setCustody r lc y .lost) t).probes.length = t.probes.length := by
    intro xs
    induction xs with
    | nil => intro t; rfl
    | cons a xs ih =>
      intro t; rw [List.foldl_cons, ih]
      split
      · rfl
      · exact set1_length _ _ _
  exact key _ _

/-- `x` placed at PORT p: the probe's own record, the other probes, and the ports but `p` itself (R108). -/
structure PlacedAtPort (r t : Replica) (lc x p : Nat) : Prop where
  own : probeRec t x = placedRec (probeRec r x) (.port p) lc
  gone : ∀ y, 1 ≤ y → y ≤ 24 → y ≠ x → (probeRec r y).custody = .port p ∨ (probeRec r y).custody = .transfer p →
    probeRec t y = placedRec (probeRec r y) .lost lc
  kept : ∀ y, y ≠ x → (probeRec r y).custody ≠ .port p → (probeRec r y).custody ≠ .transfer p → probeRec t y = probeRec r y
  ports : ∀ q, 1 ≤ q → q ≤ r.ports.length → q ≠ p → portEntry t q = vacatedIn r lc x q
  fields : ∀ q, 1 ≤ q → q ≤ r.ports.length → FieldsKept (portEntry r q) (portEntry t q)
  probesLength : t.probes.length = r.probes.length
  portsLength : t.ports.length = r.ports.length

theorem placeAtPort_placed (r : Replica) (lc x p : Nat) (h1 : 1 ≤ x) (h2 : x ≤ 24) (hl : r.probes.length = 24) :
    PlacedAtPort r (placeAtPort r lc x p) lc x p := by
  have hv : (vacate r lc x (some p)).probes.length = 24 := by rw [vacate_probes]; exact hl
  have hc : (clearPort (vacate r lc x (some p)) lc p x).probes.length = 24 := by rw [clearPort_probes]; exact hv
  have e : ∀ y, probeRec (placeAtPort r lc x p) y = if y = x then placedRec (probeRec r x) (.port p) lc else
      if y ≠ x ∧ 1 ≤ y ∧ y ≤ 24 ∧ ((probeRec r y).custody = .port p ∨ (probeRec r y).custody = .transfer p)
      then placedRec (probeRec r y) .lost lc else probeRec r y := by
    intro y
    unfold placeAtPort
    rw [probeRec_setCustody _ _ _ _ h1 (by rw [hc]; exact h2), clearPort_rec _ _ _ _ hv, clearPort_rec _ _ _ _ hv, vacate_rec, vacate_rec]
    simp
  have ep : ∀ q, portEntry (placeAtPort r lc x p) q = portEntry (vacate r lc x (some p)) q := by
    intro q
    unfold placeAtPort
    rw [portEntry_setCustody]
    unfold portEntry
    rw [clearPort_ports]
  refine ⟨?_, fun y a b c d => ?_, fun y c d f => ?_, fun q a b c => ?_, fun q a b => ?_, ?_, ?_⟩
  · rw [e, if_pos rfl]
  · rw [e, if_neg c, if_pos ⟨c, a, b, d⟩]
  · rw [e, if_neg c, if_neg]
    rintro ⟨_, _, _, g | g⟩
    · exact d g
    · exact f g
  · rw [ep]
    exact vacate_port r lc x _ q a b (by intro h; exact c (Option.some.inj h).symm)
  · rw [ep]
    exact vacate_fields r lc x _ q a b
  · unfold placeAtPort
    rw [(setCustody_lengths _ _ _ _).1, hc, hl]
  · unfold placeAtPort
    rw [(setCustody_lengths _ _ _ _).2, clearPort_ports, vacate_ports]

/-! ### Placing at a station (R108) -/

/-- `x` placed at STATION k: the probe's own record and the other probes (R108). -/
structure PlacedAtStation (r t : Replica) (lc x k : Nat) : Prop where
  own : probeRec t x = placedRec (probeRec r x) (.station k) lc
  gone : ∀ y, 1 ≤ y → y ≤ 24 → y ≠ x → (probeRec r y).custody = .station k → probeRec t y = placedRec (probeRec r y) .lost lc
  kept : ∀ y, y ≠ x → (probeRec r y).custody ≠ .station k → probeRec t y = probeRec r y
  fields : ∀ q, 1 ≤ q → q ≤ r.ports.length → FieldsKept (portEntry r q) (portEntry t q)
  probesLength : t.probes.length = r.probes.length
  portsLength : t.ports.length = r.ports.length

theorem placeAtStation_placed (r : Replica) (lc x k : Nat) (keep : Option Nat) (h1 : 1 ≤ x) (h2 : x ≤ 24) (hl : r.probes.length = 24) :
    PlacedAtStation r (placeAtStation r lc x k keep) lc x k := by
  have hv : (vacate r lc x keep).probes.length = 24 := by rw [vacate_probes]; exact hl
  generalize hxs : (probesWith (vacate r lc x keep) (fun c => c == .station k)).filter (fun y => y != x) = xs
  have hm : ∀ y, y ∈ xs ↔ y ≠ x ∧ 1 ≤ y ∧ y ≤ 24 ∧ (probeRec r y).custody = .station k := by
    intro y
    rw [← hxs, List.mem_filter, probesWith_mem, vacate_rec]
    simp only [beq_iff_eq, bne_iff_ne]
    tauto
  have hn : xs.Nodup := by rw [← hxs]; exact (probesWith_nodup _ _).filter _
  have hc : (loseAll lc none xs (vacate r lc x keep)).probes.length = 24 := by rw [(loseAll_lengths _ _ _ _).1]; exact hv
  have hcl : clearStation (vacate r lc x keep) lc k x = loseAll lc none xs (vacate r lc x keep) := by rw [← hxs]; rfl
  have e : ∀ y, probeRec (placeAtStation r lc x k keep) y = if y = x then placedRec (probeRec r x) (.station k) lc else
      if y ∈ xs ∧ (probeRec r y).custody ≠ .lost then placedRec (probeRec r y) .lost lc else probeRec r y := by
    intro y
    unfold placeAtStation
    rw [hcl, probeRec_setCustody _ _ _ _ h1 (by rw [hc]; exact h2),
      loseAll_rec _ _ _ _ hn (fun z hz => ⟨((hm z).mp hz).2.1, by rw [hv]; exact ((hm z).mp hz).2.2.1⟩),
      loseAll_rec _ _ _ _ hn (fun z hz => ⟨((hm z).mp hz).2.1, by rw [hv]; exact ((hm z).mp hz).2.2.1⟩), vacate_rec, vacate_rec]
    have : x ∉ xs := fun c => ((hm x).mp c).1 rfl
    simp [this]
  refine ⟨?_, fun y a b c d => ?_, fun y c d => ?_, fun q a b => ?_, ?_, ?_⟩
  · rw [e, if_pos rfl]
  · rw [e, if_neg c, if_pos ⟨(hm y).mpr ⟨c, a, b, d⟩, by rw [d]; exact nofun⟩]
  · rw [e, if_neg c, if_neg]
    intro g
    exact d ((hm y).mp g.1).2.2.2
  · unfold placeAtStation
    rw [portEntry_setCustody, hcl]
    exact (vacate_fields r lc x keep q a b).trans (loseAll_fields _ _ _ _ _ a (by rw [vacate_ports]; exact b))
  · unfold placeAtStation
    rw [(setCustody_lengths _ _ _ _).1, hcl, hc, hl]
  · unfold placeAtStation
    rw [(setCustody_lengths _ _ _ _).2, hcl, (loseAll_lengths _ _ _ _).2, vacate_ports]

end Sys2Proof.Laws
end

