-- ==== Sys2Proof/Laws/Line.lean ====
section
/-! SUPPORT. What each operation of the Line Port can do to its queues: `LineWorks` for the operations that only offer, and one
lemma each for those that take frames out, put them back or count them. -/

namespace Sys2Proof.Laws

open Sys2Proof.Machine

/-- An operation that only offers frames: what it leaves as it is, and that the queues keep to their sizes. -/
structure LineWorks (a b : LinePort) : Prop where
  thermal : b.thermal = a.thermal
  reserved : b.reserved = a.reserved
  flight : b.flight = a.flight
  window : b.window = a.window
  retry : b.retry = a.retry
  vetoLog : b.vetoLog = a.vetoLog
  lineCount : b.lineCount = a.lineCount
  joinOffset : b.joinOffset = a.joinOffset
  heard : b.heard = a.heard
  ok : LineOk a → LineOk b

theorem LineWorks.refl (a : LinePort) : LineWorks a a := ⟨rfl, rfl, rfl, rfl, rfl, rfl, rfl, rfl, rfl, id⟩

theorem LineWorks.trans {a b c : LinePort} (h : LineWorks a b) (k : LineWorks b c) : LineWorks a c :=
  ⟨k.thermal.trans h.thermal, k.reserved.trans h.reserved, k.flight.trans h.flight, k.window.trans h.window,
   k.retry.trans h.retry, k.vetoLog.trans h.vetoLog, k.lineCount.trans h.lineCount, k.joinOffset.trans h.joinOffset,
   k.heard.trans h.heard, fun x => k.ok (h.ok x)⟩

/-! ### Drain -/

theorem updateDrain_eq (lp : LinePort) :
    updateDrain lp = { lp with drain := (updateDrain lp).drain, runCount := (updateDrain lp).runCount } := by
  unfold updateDrain
  split <;> split <;> rfl

theorem lineOk_drain (lp : LinePort) (d : Bool) (n : Nat) (h : LineOk lp) : LineOk { lp with drain := d, runCount := n } :=
  ⟨h.control, h.release, h.report, h.points, h.vetoLog, h.controlClass, h.reportClass, h.thermalClass, h.waitingClass⟩

theorem updateDrain_works (lp : LinePort) : LineWorks lp (updateDrain lp) := by
  rw [updateDrain_eq]
  exact ⟨rfl, rfl, rfl, rfl, rfl, rfl, rfl, rfl, rfl, lineOk_drain lp _ _⟩

theorem updateDrain_report (lp : LinePort) : (updateDrain lp).report = lp.report := by rw [updateDrain_eq]
theorem updateDrain_control (lp : LinePort) : (updateDrain lp).control = lp.control := by rw [updateDrain_eq]

/-! ### Offers -/

theorem takesControl_iff (lp : LinePort) : takesControl lp = true ↔ controlHeld lp < 7 := by simp [takesControl]

theorem enqueueControl_works (lp : LinePort) (o : Outgoing) (hc : Body.cls o.body = .control) (hr : Body.isRelease o.body = false)
    (ht : controlHeld lp < 7) : LineWorks lp (enqueueControl lp o) := by
  refine ⟨rfl, rfl, rfl, rfl, rfl, rfl, rfl, rfl, rfl, fun h => ⟨?_, ?_, h.report, h.points, h.vetoLog, ?_, h.reportClass, h.thermalClass, h.waitingClass⟩⟩
  · have : controlHeld (enqueueControl lp o) = controlHeld lp + 1 := by
      simp [controlHeld, enqueueControl, hr]; omega
    omega
  · simp [enqueueControl, hr]; exact h.release
  · intro x hx
    simp only [enqueueControl, List.mem_append, List.mem_singleton] at hx
    rcases hx with hx | rfl
    · exact h.controlClass x hx
    · exact hc

theorem isRelease_cls {b : Body} (h : Body.isRelease b = true) : Body.cls b = .control := by
  cases b <;> simp_all [Body.isRelease, Body.cls]

theorem uniteRelease_isRelease (m : ZoneMask) (w : Bool) (b : Body) : Body.isRelease (uniteRelease m w b) = Body.isRelease b := by
  cases b <;> rfl

theorem mergeRelease_held (m : ZoneMask) (w cut : Bool) (l : List Outgoing) :
    ((mergeRelease (uniteRelease m w) cut l).filter (fun o => !Body.isRelease o.body)).length ≤
      (l.filter (fun o => !Body.isRelease o.body)).length := by
  induction l with
  | nil => simp [mergeRelease]
  | cons o r ih =>
    unfold mergeRelease
    split
    · rename_i hr
      simp only [List.filter_cons, uniteRelease_isRelease, hr, Bool.not_true, Bool.false_eq_true, if_false]
      split
      · exact List.Sublist.length_le (List.Sublist.filter _ (List.filter_sublist))
      · exact Nat.le_refl _
    · rename_i hr
      simp only [List.filter_cons]
      split <;> simp_all

theorem mergeRelease_releases (m : ZoneMask) (w cut : Bool) (l : List Outgoing) :
    ((mergeRelease (uniteRelease m w) cut l).filter (fun o => Body.isRelease o.body)).length ≤
      (l.filter (fun o => Body.isRelease o.body)).length := by
  induction l with
  | nil => simp [mergeRelease]
  | cons o r ih =>
    unfold mergeRelease
    split
    · rename_i hr
      simp only [List.filter_cons, uniteRelease_isRelease, hr, if_true, List.length_cons]
      split
      · exact Nat.succ_le_succ (List.Sublist.length_le (List.Sublist.filter _ (List.filter_sublist)))
      · exact Nat.le_refl _
    · rename_i hr
      simp only [List.filter_cons]
      split <;> simp_all

theorem mergeRelease_mem (m : ZoneMask) (w cut : Bool) (l : List Outgoing) (h : ∀ o ∈ l, Body.cls o.body = .control) :
    ∀ o ∈ mergeRelease (uniteRelease m w) cut l, Body.cls o.body = .control := by
  induction l with
  | nil => simp [mergeRelease]
  | cons o r ih =>
    unfold mergeRelease
    split
    · rename_i hr
      intro x hx
      rcases List.mem_cons.mp hx with rfl | hx
      · exact isRelease_cls (by rw [uniteRelease_isRelease]; exact hr)
      · refine h x (List.mem_cons_of_mem _ ?_)
        split at hx
        · exact (List.mem_filter.mp hx).1
        · exact hx
    · intro x hx
      rcases List.mem_cons.mp hx with rfl | hx
      · exact h _ List.mem_cons_self
      · exact ih (fun y hy => h y (List.mem_cons_of_mem _ hy)) x hx

theorem filter_eq_nil_of_any {l : List Outgoing} (h : ¬ l.any (fun o => Body.isRelease o.body) = true) :
    l.filter (fun o => Body.isRelease o.body) = [] := by
  rw [List.filter_eq_nil_iff]
  intro o ho hr
  exact h (List.any_eq_true.mpr ⟨o, ho, hr⟩)

theorem offerReleaseTo_works (lp : LinePort) (m : ZoneMask) (w : Bool) : LineWorks lp (offerReleaseTo lp m w) := by
  unfold offerReleaseTo
  split
  · refine ⟨rfl, rfl, rfl, rfl, rfl, rfl, rfl, rfl, rfl, fun h => ⟨?_, ?_, h.report, h.points, h.vetoLog, ?_, h.reportClass, h.thermalClass, h.waitingClass⟩⟩
    · have := mergeRelease_held m w w lp.control
      have := h.control
      simp only [controlHeld] at *
      omega
    · exact Nat.le_trans (mergeRelease_releases m w w lp.control) h.release
    · exact mergeRelease_mem m w w lp.control h.controlClass
  · rename_i hn
    refine ⟨rfl, rfl, rfl, rfl, rfl, rfl, rfl, rfl, rfl, fun h => ⟨?_, ?_, h.report, h.points, h.vetoLog, ?_, h.reportClass, h.thermalClass, h.waitingClass⟩⟩
    · have := h.control
      simpa [controlHeld, Body.isRelease] using this
    · simp only [List.filter_append, filter_eq_nil_of_any hn]
      exact Nat.le_refl _
    · intro x hx
      simp only [List.mem_append, List.mem_singleton] at hx
      rcases hx with hx | rfl
      · exact h.controlClass x hx
      · rfl

/-! ### The REPORT queue -/

theorem reportHeld_append (lp : LinePort) (o : Outgoing) :
    reportHeld { lp with report := lp.report ++ [o] } = reportHeld lp + 1 := by
  unfold reportHeld flightIn
  simp only [List.length_append, List.length_singleton]
  exact Nat.add_right_comm _ _ _

theorem enqueueReport_report (lp : LinePort) (o : Outgoing) : (enqueueReport lp o).report = lp.report ++ [o] := updateDrain_report _
theorem enqueueReport_control (lp : LinePort) (o : Outgoing) : (enqueueReport lp o).control = lp.control := updateDrain_control _

theorem takesReport_free {lp : LinePort} {b : Body} (h : takesReport lp b = true) : reportHeld lp + lp.reserved < 16 := by
  have hf : 1 ≤ reportFree lp := by
    cases b <;> simp [takesReport] at h <;> omega
  simp only [reportFree, Config.reportEntries] at hf
  omega

theorem takesReport_points {lp : LinePort} {b : Body} (h : takesReport lp b = true) (hp : Body.isPoint b = true) :
    pointsHeld lp < 12 := by
  cases b <;> simp_all [Body.isPoint, takesReport]

theorem enqueueReport_works (lp : LinePort) (o : Outgoing) (hc : Body.cls o.body = .report) (ht : takesReport lp o.body = true) :
    LineWorks lp (enqueueReport lp o) := by
  refine LineWorks.trans (b := { lp with report := lp.report ++ [o] })
    ⟨rfl, rfl, rfl, rfl, rfl, rfl, rfl, rfl, rfl, fun h => ⟨h.control, h.release, ?_, ?_, h.vetoLog, h.controlClass, ?_, h.thermalClass, h.waitingClass⟩⟩
    (updateDrain_works _)
  · have := takesReport_free ht
    rw [reportHeld_append]
    show reportHeld lp + 1 + lp.reserved ≤ 16
    omega
  · have hp := h.points
    by_cases hb : Body.isPoint o.body = true
    · have := takesReport_points ht hb
      simp only [pointsHeld, List.filter_append, List.length_append] at *
      simp [hb] at *
      omega
    · simp only [pointsHeld, List.filter_append, List.length_append] at *
      simp [hb] at *
      omega
  · intro x hx
    simp only [List.mem_append, List.mem_singleton] at hx
    rcases hx with hx | rfl
    · exact h.reportClass x hx
    · exact hc

/-- An ANSWER put into its reserved entry (R5, R15). -/
theorem answerInto_ok (lp : LinePort) (o : Outgoing) (hc : Body.cls o.body = .report) (hp : Body.isPoint o.body = false)
    (hr : 1 ≤ lp.reserved) (h : LineOk lp) : LineOk (answerInto lp o) := by
  refine (updateDrain_works _).ok ⟨h.control, h.release, ?_, ?_, h.vetoLog, h.controlClass, ?_, h.thermalClass, h.waitingClass⟩
  · have := h.report
    have e : reportHeld { lp with report := lp.report ++ [o], reserved := lp.reserved - 1 } = reportHeld lp + 1 := by
      unfold reportHeld flightIn
      simp only [List.length_append, List.length_singleton]
      exact Nat.add_right_comm _ _ _
    rw [e]
    show reportHeld lp + 1 + (lp.reserved - 1) ≤ 16
    omega
  · have := h.points
    simpa [pointsHeld, List.filter_append, hp] using this
  · intro x hx
    simp only [List.mem_append, List.mem_singleton] at hx
    rcases hx with hx | rfl
    · exact h.reportClass x hx
    · exact hc

/-! ### The frame in flight -/

theorem lineOk_reset : LineOk LinePort.reset := by
  constructor <;> decide

theorem lineOk_veto (lp : LinePort) (l : List Bool) (hl : l.length ≤ 256) (h : LineOk lp) : LineOk { lp with vetoLog := l } :=
  ⟨h.control, h.release, h.report, h.points, hl, h.controlClass, h.reportClass, h.thermalClass, h.waitingClass⟩

theorem recordWindow_ok (lp : LinePort) (b : Bool) (h : LineOk lp) : LineOk (recordWindow lp b) := by
  refine lineOk_veto lp _ ?_ h
  rw [List.length_drop]
  simp only [Config.vetoWindows]
  omega

theorem held_cons (o : Outgoing) (l : List Outgoing) :
    ((o :: l).filter (fun q => !Body.isRelease q.body)).length =
      (if Body.isRelease o.body then 0 else 1) + (l.filter (fun q => !Body.isRelease q.body)).length := by
  simp only [List.filter_cons]
  cases Body.isRelease o.body <;> simp [Nat.add_comm]

theorem points_cons (o : Outgoing) (l : List Outgoing) :
    ((o :: l).filter (fun q => Body.isPoint q.body)).length =
      (if Body.isPoint o.body then 1 else 0) + (l.filter (fun q => Body.isPoint q.body)).length := by
  simp only [List.filter_cons]
  cases Body.isPoint o.body <;> simp [Nat.add_comm]

/-- Frames of a class in flight count as the queue's: the sum that R12 bounds, with the flight at hand. -/
theorem controlHeld_none {lp : LinePort} (h : lp.flight = none) :
    controlHeld lp = (lp.control.filter (fun o => !Body.isRelease o.body)).length := by simp [controlHeld, h]

theorem isPoint_cls {b : Body} (h : Body.isPoint b = true) : Body.cls b = .report := by
  cases b <;> simp_all [Body.isPoint, Body.cls]

/-- A frame that starts contending leaves the queue and is counted in flight (R3). -/
theorem beginContending_ok (lp : LinePort) (now : Nat) (c : FrameClass) (hf : lp.flight = none) (h : LineOk lp) :
    LineOk (beginContending lp now c) := by
  have hc := h.control
  have hr := h.report
  have hp := h.points
  simp only [controlHeld, reportHeld, flightIn, pointsHeld, hf] at hc hr hp
  cases c with
  | control =>
    simp only [beginContending]
    split
    · exact h
    · rename_i o r e
      have hcls := h.controlClass o (e ▸ List.mem_cons_self)
      have hnp : Body.isPoint o.body = false := by
        cases hb : Body.isPoint o.body
        · rfl
        · rw [isPoint_cls hb] at hcls; cases hcls
      refine ⟨?_, ?_, ?_, ?_, h.vetoLog, fun x hx => h.controlClass x (e ▸ List.mem_cons_of_mem _ hx), h.reportClass, h.thermalClass, h.waitingClass⟩
      · rw [e, held_cons] at hc
        simp only [controlHeld, hcls]
        cases hb : Body.isRelease o.body <;> simp [hb] at hc ⊢ <;> omega
      · have := h.release
        rw [e, List.filter_cons] at this
        show (r.filter _).length ≤ 1
        split at this
        · simp only [List.length_cons] at this; omega
        · exact this
      · simpa [reportHeld, flightIn, hcls] using hr
      · simpa [pointsHeld, hnp] using hp
  | thermal =>
    simp only [beginContending]
    split
    · exact h
    · rename_i v e
      have hcls := h.thermalClass v (by rw [e]; rfl)
      have hnp : Body.isPoint v.item.body = false := by
        cases hb : Body.isPoint v.item.body
        · rfl
        · rw [isPoint_cls hb] at hcls; cases hcls
      refine ⟨?_, h.release, ?_, ?_, h.vetoLog, h.controlClass, h.reportClass, (by intro x hx; cases hx), h.waitingClass⟩
      · simpa [controlHeld, hcls] using hc
      · simpa [reportHeld, flightIn, hcls] using hr
      · simpa [pointsHeld, hnp] using hp
  | report =>
    simp only [beginContending]
    split
    · exact h
    · rename_i o r e
      have hcls := h.reportClass o (e ▸ List.mem_cons_self)
      refine ⟨?_, h.release, ?_, ?_, h.vetoLog, h.controlClass, fun x hx => h.reportClass x (e ▸ List.mem_cons_of_mem _ hx), h.thermalClass, h.waitingClass⟩
      · simpa [controlHeld, hcls] using hc
      · rw [e] at hr
        simp [reportHeld, flightIn, hcls] at hr ⊢
        omega
      · rw [e, points_cons] at hp
        simp only [pointsHeld]
        cases hb : Body.isPoint o.body <;> simp [hb] at hp ⊢ <;> omega

theorem filter_takeWhile_release (l : List Outgoing) :
    (l.takeWhile (fun q => !Body.isRelease q.body)).filter (fun o => Body.isRelease o.body) = [] := by
  rw [List.filter_eq_nil_iff]
  intro o ho
  have := List.mem_takeWhile_imp ho
  simpa using this

/-- The frames behind the queued release are no releases, where the queue holds one at most. -/
theorem behind_release {l : List Outgoing} {q : Outgoing} (hl : (l.filter (fun o => Body.isRelease o.body)).length ≤ 1)
    (hq : l.find? (fun o => Body.isRelease o.body) = some q) :
    ((l.dropWhile (fun o => !Body.isRelease o.body)).drop 1).filter (fun o => Body.isRelease o.body) = [] ∧
      (l.filter (fun o => !Body.isRelease o.body)).length =
        ((l.takeWhile (fun o => !Body.isRelease o.body)).filter (fun o => !Body.isRelease o.body)).length +
          (((l.dropWhile (fun o => !Body.isRelease o.body)).drop 1).filter (fun o => !Body.isRelease o.body)).length := by
  induction l with
  | nil => simp at hq
  | cons o r ih =>
    by_cases ho : Body.isRelease o.body = true
    · simp only [List.filter_cons, ho, if_true, List.length_cons] at hl
      refine ⟨?_, ?_⟩
      · simp only [List.dropWhile_cons, ho, Bool.not_true, Bool.false_eq_true, if_false, List.drop_succ_cons, List.drop_zero]
        exact List.eq_nil_of_length_eq_zero (by omega)
      · simp [ho]
    · have ho' : Body.isRelease o.body = false := by simpa using ho
      simp only [List.filter_cons, ho', Bool.false_eq_true, if_false] at hl
      simp only [List.find?_cons, ho'] at hq
      have := ih hl hq
      simp only [List.dropWhile_cons, List.takeWhile_cons, List.filter_cons, ho', Bool.not_false, if_true, List.length_cons]
      refine ⟨this.1, ?_⟩
      rw [this.2]; omega

theorem requeueRelease_ok (lp : LinePort) (o : Outgoing) (hf : lp.flight = none) (ho : Body.isRelease o.body = true) (h : LineOk lp) :
    LineOk (requeueRelease lp o) := by
  have hc := h.control
  rw [controlHeld_none hf] at hc
  unfold requeueRelease
  split
  · rename_i hn
    have hz : lp.control.filter (fun q => Body.isRelease q.body) = [] := by
      rw [List.filter_eq_nil_iff]
      intro x hx
      simpa using List.find?_eq_none.mp hn x hx
    refine ⟨?_, ?_, h.report, h.points, h.vetoLog, ?_, h.reportClass, h.thermalClass, h.waitingClass⟩
    · rw [controlHeld_none (by exact hf)]
      show ((o :: lp.control).filter _).length ≤ 7
      rw [held_cons]; simp [ho]; exact hc
    · show ((o :: lp.control).filter _).length ≤ 1
      rw [List.filter_cons, hz]; simp [ho]
    · intro x hx
      rcases List.mem_cons.mp hx with rfl | hx
      · exact isRelease_cls ho
      · exact h.controlClass x hx
  · rename_i q hq
    split
    · rename_i mask withdraw hb
      obtain ⟨hnone, hlen⟩ := behind_release h.release hq
      have hkept : ∀ x ∈ (if withdraw = true then (lp.control.takeWhile (fun q => !Body.isRelease q.body)).filter (fun q => !Body.isClaim q.body)
          else lp.control.takeWhile (fun q => !Body.isRelease q.body)), x ∈ lp.control.takeWhile (fun q => !Body.isRelease q.body) := by
        intro x hx
        split at hx
        · exact (List.mem_filter.mp hx).1
        · exact hx
      have hsub : List.Sublist (if withdraw = true then (lp.control.takeWhile (fun q => !Body.isRelease q.body)).filter (fun q => !Body.isClaim q.body)
          else lp.control.takeWhile (fun q => !Body.isRelease q.body)) (lp.control.takeWhile (fun q => !Body.isRelease q.body)) := by
        split
        · exact List.filter_sublist
        · exact List.Sublist.refl _
      refine ⟨?_, ?_, h.report, h.points, h.vetoLog, ?_, h.reportClass, h.thermalClass, h.waitingClass⟩
      · rw [controlHeld_none (by exact hf)]
        show ((_ :: (_ ++ _)).filter _).length ≤ 7
        rw [held_cons, List.filter_append, List.length_append]
        simp only [uniteRelease_isRelease, ho, if_true]
        have := List.Sublist.length_le (List.Sublist.filter (fun q : Outgoing => !Body.isRelease q.body) hsub)
        omega
      · show ((_ :: (_ ++ _)).filter _).length ≤ 1
        rw [List.filter_cons, List.filter_append, hnone]
        have hz : List.filter (fun o : Outgoing => Body.isRelease o.body)
            (if withdraw = true then (lp.control.takeWhile (fun q => !Body.isRelease q.body)).filter (fun q => !Body.isClaim q.body)
              else lp.control.takeWhile (fun q => !Body.isRelease q.body)) = [] := by
          rw [List.filter_eq_nil_iff]
          intro x hx
          have := List.mem_takeWhile_imp (hkept x hx)
          simpa using this
        rw [hz]
        split <;> simp
      · intro x hx
        rcases List.mem_cons.mp hx with rfl | hx
        · exact isRelease_cls (by rw [uniteRelease_isRelease]; exact ho)
        · rcases List.mem_append.mp hx with hx | hx
          · exact h.controlClass x ((List.takeWhile_sublist _).subset (hkept x hx))
          · exact h.controlClass x ((List.dropWhile_sublist _).subset ((List.drop_sublist _ _).subset hx))
    · exact absurd (List.find?_some hq) (by
        rename_i hb
        cases hbody : q.body <;> simp_all [Body.isRelease])

/-- The frame in flight goes back to its queue (R3, R13, R14). -/
theorem requeue_ok (lp : LinePort) (h : LineOk lp) : LineOk (requeue lp) := by
  unfold requeue
  split
  · exact h
  · rename_i f hf
    have hc := h.control
    have hr := h.report
    have hp := h.points
    simp only [controlHeld, reportHeld, flightIn, pointsHeld, hf] at hc hr hp
    split
    · rename_i hcls
      have hnp : Body.isPoint f.item.body = false := by
        cases hb : Body.isPoint f.item.body
        · rfl
        · rw [isPoint_cls hb] at hcls; cases hcls
      have base : LineOk { lp with flight := none } := by
        refine ⟨?_, h.release, ?_, ?_, h.vetoLog, h.controlClass, h.reportClass, h.thermalClass, h.waitingClass⟩
        · simp only [controlHeld]; omega
        · simp [reportHeld, flightIn, hcls] at hr ⊢; exact hr
        · simp [pointsHeld, hnp] at hp ⊢; exact hp
      split
      · rename_i hrel
        exact requeueRelease_ok _ _ rfl hrel base
      · rename_i hrel
        have hrel' : Body.isRelease f.item.body = false := by simpa using hrel
        refine ⟨?_, ?_, base.report, base.points, h.vetoLog, ?_, h.reportClass, h.thermalClass, h.waitingClass⟩
        · rw [controlHeld_none rfl]
          show ((f.item :: lp.control).filter _).length ≤ 7
          rw [held_cons]
          simp [hcls, hrel'] at hc ⊢
          omega
        · show ((f.item :: lp.control).filter _).length ≤ 1
          rw [List.filter_cons]
          simp [hrel']
          exact h.release
        · intro x hx
          rcases List.mem_cons.mp hx with rfl | hx
          · exact hcls
          · exact h.controlClass x hx
    · rename_i hcls
      have hnp : Body.isPoint f.item.body = false := by
        cases hb : Body.isPoint f.item.body
        · rfl
        · rw [isPoint_cls hb] at hcls; cases hcls
      have hc' : controlHeld { lp with flight := none } ≤ 7 := by simp only [controlHeld]; omega
      have hr' : reportHeld { lp with flight := none } + lp.reserved ≤ 16 := by
        simp [reportHeld, flightIn, hcls] at hr ⊢; exact hr
      have hp' : pointsHeld { lp with flight := none } ≤ 12 := by
        simp [pointsHeld, hnp] at hp ⊢; exact hp
      simp only [requeueThermal]
      split
      · refine ⟨hc', h.release, hr', hp', h.vetoLog, h.controlClass, h.reportClass, ?_, h.waitingClass⟩
        intro v hv
        cases hv
        exact hcls
      · rename_i v hv
        refine ⟨hc', h.release, hr', hp', h.vetoLog, h.controlClass, h.reportClass, ?_, h.waitingClass⟩
        intro w hw
        cases hw
        exact h.thermalClass v hv
    · rename_i hcls
      refine ⟨?_, h.release, ?_, ?_, h.vetoLog, h.controlClass, ?_, h.thermalClass, h.waitingClass⟩
      · simp only [controlHeld]; omega
      · simp [reportHeld, flightIn, hcls] at hr ⊢; omega
      · show ((f.item :: lp.report).filter _).length + 0 ≤ 12
        rw [points_cons]
        omega
      · intro x hx
        rcases List.mem_cons.mp hx with rfl | hx
        · exact hcls
        · exact h.reportClass x hx

/-- The own frame that completed leaves its queue (R7, R17). -/
theorem removeCompleted_ok (lp : LinePort) (h : LineOk lp) : LineOk (removeCompleted lp) := by
  unfold removeCompleted
  split
  · exact h
  · rename_i f hf
    have hc := h.control
    have hr := h.report
    have hp := h.points
    simp only [controlHeld, reportHeld, flightIn, pointsHeld, hf] at hc hr hp
    have base : ∀ n, LineOk { lp with flight := none, retry := 0, runCount := n } := by
      intro n
      refine ⟨?_, h.release, ?_, ?_, h.vetoLog, h.controlClass, h.reportClass, h.thermalClass, h.waitingClass⟩
      · simp only [controlHeld]; omega
      · simp only [reportHeld, flightIn]; split at hr <;> simp_all; omega
      · simp only [pointsHeld]; omega
    split
    · exact base 0
    · exact base lp.runCount
    · refine (updateDrain_works _).ok ?_
      split
      · exact base lp.runCount
      · exact base (lp.runCount + 1)

end Sys2Proof.Laws
end

