-- ==== Sys2Proof/Laws/Works.lean ====
section
/-! SUPPORT. `Works s t`: all that the working units can do inside one command (Motion Unit, Change Sequencer, Touch Capture Unit
and Request Unit offering frames and giving events). One lemma for each of their operations says that it does no more: the mode,
the image, the shared tables, the pins, the encoder counts, the last-heard table and the line count stay, and every store keeps
to its size. -/

namespace Sys2Proof.Laws

open Sys2Proof.Machine

structure Works (s t : Station) : Prop where
  now : t.now = s.now
  pins : t.pins = s.pins
  loader : t.loader = s.loader
  replica : t.replica = s.replica
  thermal : t.thermal = s.thermal
  rack : t.rack = s.rack
  freeUsed : t.freeUsed = s.freeUsed
  enc : t.motion.enc = s.motion.enc
  fault : t.motion.fault = s.motion.fault
  filter : t.motion.filter = s.motion.filter
  nextSeq : t.touch.nextSeq = s.touch.nextSeq
  latch : t.touch.latch = s.touch.latch
  delivered : t.request.delivered = s.request.delivered
  restartPending : t.request.restartPending = s.request.restartPending
  line : LineWorks s.line t.line
  queues : QueuesOk s.motion → QueuesOk t.motion
  points : t.touch.points.length = s.touch.points.length
  events : s.request.events.length ≤ 8 → t.request.events.length ≤ 8

theorem Works.refl (s : Station) : Works s s :=
  ⟨rfl, rfl, rfl, rfl, rfl, rfl, rfl, rfl, rfl, rfl, rfl, rfl, rfl, rfl, LineWorks.refl _, id, rfl, id⟩

theorem Works.trans {s t u : Station} (h : Works s t) (k : Works t u) : Works s u :=
  ⟨k.now.trans h.now, k.pins.trans h.pins, k.loader.trans h.loader, k.replica.trans h.replica, k.thermal.trans h.thermal, k.rack.trans h.rack,
   k.freeUsed.trans h.freeUsed, k.enc.trans h.enc, k.fault.trans h.fault, k.filter.trans h.filter, k.nextSeq.trans h.nextSeq,
   k.latch.trans h.latch, k.delivered.trans h.delivered, k.restartPending.trans h.restartPending, h.line.trans k.line,
   fun x => k.queues (h.queues x), k.points.trans h.points, fun x => k.events (h.events x)⟩

theorem works_line (s : Station) {lp : LinePort} (h : LineWorks s.line lp) : Works s { s with line := lp } :=
  ⟨rfl, rfl, rfl, rfl, rfl, rfl, rfl, rfl, rfl, rfl, rfl, rfl, rfl, rfl, h, id, rfl, id⟩

theorem works_change (s : Station) (c : Changer) : Works s { s with change := c } :=
  ⟨rfl, rfl, rfl, rfl, rfl, rfl, rfl, rfl, rfl, rfl, rfl, rfl, rfl, rfl, LineWorks.refl _, id, rfl, id⟩

theorem works_points (s : Station) {l : List PointEntry} (h : l.length = s.touch.points.length) : Works s (setPoints s l) :=
  ⟨rfl, rfl, rfl, rfl, rfl, rfl, rfl, rfl, rfl, rfl, rfl, rfl, rfl, rfl, LineWorks.refl _, id, h, id⟩

theorem works_outstanding (s : Station) (o : Outstanding) : Works s (setOutstanding s o) :=
  ⟨rfl, rfl, rfl, rfl, rfl, rfl, rfl, rfl, rfl, rfl, rfl, rfl, rfl, rfl, LineWorks.refl _, id, rfl, id⟩

theorem works_claimFor (s : Station) (n : Nat) : Works s { s with motion := { s.motion with claimFor := n } } :=
  ⟨rfl, rfl, rfl, rfl, rfl, rfl, rfl, rfl, rfl, rfl, rfl, rfl, rfl, rfl, LineWorks.refl _, id, rfl, id⟩

theorem works_homed (s : Station) (h : PerAxis Bool) : Works s { s with motion := { s.motion with homed := h } } :=
  ⟨rfl, rfl, rfl, rfl, rfl, rfl, rfl, rfl, rfl, rfl, rfl, rfl, rfl, rfl, LineWorks.refl _, id, rfl, id⟩

theorem works_nextAcc (s : Station) (n : Nat) : Works s { s with motion := { s.motion with nextAcc := n } } :=
  ⟨rfl, rfl, rfl, rfl, rfl, rfl, rfl, rfl, rfl, rfl, rfl, rfl, rfl, rfl, LineWorks.refl _, id, rfl, id⟩

/-- A channel replaced by one whose queue is within sixteen segments wherever the old one was. -/
theorem works_setChan (s : Station) (c : ChanId) (v : Chan) (h : (chan s c).queue.length ≤ 16 → v.queue.length ≤ 16) :
    Works s (setChan s c v) := by
  cases c
  · exact ⟨rfl, rfl, rfl, rfl, rfl, rfl, rfl, rfl, rfl, rfl, rfl, rfl, rfl, rfl, LineWorks.refl _, fun q => ⟨h q.1, q.2⟩, rfl, id⟩
  · exact ⟨rfl, rfl, rfl, rfl, rfl, rfl, rfl, rfl, rfl, rfl, rfl, rfl, rfl, rfl, LineWorks.refl _, fun q => ⟨q.1, h q.2⟩, rfl, id⟩

/-! ### Frames kept and offered, events -/

theorem waiting_ok {lp : LinePort} {l : List Waiting}
    (hl : LineOk lp → ∀ w ∈ l, Body.cls w.item.body = .control ∧ Body.isRelease w.item.body = false) :
    LineWorks lp { lp with waiting := l } :=
  ⟨rfl, rfl, rfl, rfl, rfl, rfl, rfl, rfl, rfl, fun h =>
    ⟨h.control, h.release, h.report, h.points, h.vetoLog, h.controlClass, h.reportClass, h.thermalClass, hl h⟩⟩

theorem offerControl_works (s : Station) (src : CtlSource) (dest : Nat) (b : Body) (hc : Body.cls b = .control)
    (hr : Body.isRelease b = false) : Works s (offerControl s src dest b) := by
  unfold offerControl
  split
  · rename_i ht
    simp only [Bool.and_eq_true] at ht
    exact works_line s (enqueueControl_works _ _ hc hr ((takesControl_iff _).mp ht.2))
  · refine works_line s (waiting_ok fun h w hw => ?_)
    rcases List.mem_append.mp hw with hw | hw
    · exact h.waitingClass w hw
    · rw [List.mem_singleton.mp hw]; exact ⟨hc, hr⟩

theorem withdrawWaiting_works (s : Station) (p : Waiting → Bool) : Works s (withdrawWaiting s p) :=
  works_line s (waiting_ok fun h w hw => h.waitingClass w (List.mem_filter.mp hw).1)

theorem keepEvent_facts (q : RequestUnit) (e : Event) :
    (keepEvent q e).delivered = q.delivered ∧ (keepEvent q e).restartPending = q.restartPending ∧
      (q.events.length ≤ 8 → (keepEvent q e).events.length ≤ 8) := by
  unfold keepEvent
  split
  · rename_i h
    refine ⟨rfl, rfl, fun _ => ?_⟩
    simp only [Config.eventPlaces] at h
    simp only [List.length_append, List.length_singleton]
    omega
  · exact ⟨rfl, rfl, id⟩

theorem offerEventsFrom_works (n : Nat) (s : Station) : Works s (offerEventsFrom n s) := by
  induction n generalizing s with
  | zero => exact Works.refl s
  | succ n ih =>
    unfold offerEventsFrom
    split
    · exact Works.refl s
    · rename_i num e rest hev
      simp only
      split
      · rename_i ht
        refine Works.trans ?_ (ih _)
        refine ⟨rfl, rfl, rfl, rfl, rfl, rfl, rfl, rfl, rfl, rfl, rfl, rfl, rfl, rfl, enqueueReport_works _ _ rfl ht, id, rfl, fun h => ?_⟩
        rw [hev] at h
        simp only [List.length_cons] at h
        show rest.length ≤ 8
        omega
      · exact Works.refl s

theorem offerEvents_works (s : Station) : Works s (offerEvents s) := offerEventsFrom_works _ s

theorem giveEvent_works (s : Station) (e : Event) : Works s (giveEvent s e) := by
  refine Works.trans ?_ (offerEvents_works _)
  obtain ⟨h1, h2, h3⟩ := keepEvent_facts s.request e
  exact ⟨rfl, rfl, rfl, rfl, rfl, rfl, rfl, rfl, rfl, rfl, rfl, rfl, h1, h2, LineWorks.refl _, id, rfl, h3⟩

/-! ### Points -/

theorem updFirst_length (p : PointEntry → Bool) (v : PointEntry) (l : List PointEntry) : (updFirst p v l).length = l.length := by
  induction l with
  | nil => rfl
  | cons e r ih => unfold updFirst; split <;> simp [ih]

theorem reserveEntry_works (s : Station) : Works s (reserveEntry s) := works_points s (updFirst_length _ _ _)
theorem returnEntry_works (s : Station) : Works s (returnEntry s) := works_points s (updFirst_length _ _ _)

theorem offerPointsFrom_works (n : Nat) (s : Station) : Works s (offerPointsFrom n s) := by
  induction n generalizing s with
  | zero => exact Works.refl s
  | succ n ih =>
    unfold offerPointsFrom
    split
    · exact Works.refl s
    · simp only
      split
      · rename_i ht
        refine Works.trans ?_ (ih _)
        exact ⟨rfl, rfl, rfl, rfl, rfl, rfl, rfl, rfl, rfl, rfl, rfl, rfl, rfl, rfl, enqueueReport_works _ _ rfl ht, id,
          by simp [markQueued], id⟩
      · exact Works.refl s

theorem offerPoints_works (s : Station) : Works s (offerPoints s) := offerPointsFrom_works _ s

theorem closePoints_works (s : Station) (late : Bool) (p : PointData → Bool) : Works s (closePoints s late p) :=
  Works.trans (works_points s (by simp [closeWhere])) (offerPoints_works _)

/-! ### Channels -/

theorem setHead_works (s : Station) (c : ChanId) (g : Segment) : Works s (setHead s c g) := by
  unfold setHead
  split
  · exact Works.refl s
  · rename_i h
    exact works_setChan s c _ (by rw [h]; simp)

theorem setState_works (s : Station) (c : ChanId) (st : ChanState) : Works s (setState s c st) := works_setChan s c _ id

theorem offerRelease_works (s : Station) (m : ZoneMask) (w : Bool) : Works s (offerRelease s m w) :=
  works_line s (offerReleaseTo_works _ _ _)

theorem withdrawOffer_works (s : Station) : Works s (withdrawOffer s) :=
  Works.trans (withdrawWaiting_works s _) (works_outstanding _ _)

theorem tidyRelease_works (s : Station) : Works s (tidyRelease s) := by
  unfold tidyRelease
  split
  · simp only
    split
    · exact Works.refl s
    · exact offerRelease_works _ _ _
  · exact Works.refl s

theorem tidyMoment_works (s : Station) (left : Option ZoneMask) : Works s (tidyMoment s left) := by
  unfold tidyMoment
  split
  · exact tidyRelease_works s
  · split
    · exact tidyRelease_works s
    · exact Works.trans (withdrawOffer_works s) (tidyRelease_works _)
    · exact Works.trans (offerRelease_works s _ _) (works_outstanding _ _)

theorem returnCredit_works (s : Station) (g : Option Segment) : Works s (returnCredit s g) := by
  unfold returnCredit
  split
  · exact Works.refl s
  · split
    · exact returnEntry_works s
    · exact Works.refl s

theorem emptyChan_works (s : Station) (c : ChanId) (st : ChanState) : Works s (emptyChan s c st) :=
  Works.trans (works_setChan s c _ (fun _ => Nat.zero_le _)) (returnCredit_works _ _)

theorem haltNow_works (s : Station) (c : ChanId) (cause : HaltCause) : Works s (haltNow s c cause) :=
  Works.trans (emptyChan_works s c _) (Works.trans (tidyMoment_works _ _) (giveEvent_works _ _))

theorem haltQuiet_works (s : Station) (c : ChanId) : Works s (haltQuiet s c) :=
  Works.trans (emptyChan_works s c _) (tidyMoment_works _ _)

theorem beginStop_works (s : Station) (c : ChanId) (g : Segment) : Works s (beginStop s c g) :=
  works_setChan s c _ (fun _ => by simp)

theorem haltChan_works (s : Station) (c : ChanId) : Works s (haltChan s c) := by
  unfold haltChan
  split
  · exact Works.refl s
  · split
    · exact beginStop_works _ _ _
    · split
      · exact Works.refl s
      · exact haltNow_works _ _ _
    · exact haltNow_works _ _ _
    · split
      · exact Works.refl s
      · exact haltNow_works _ _ _
    · exact Works.refl s

theorem stallCore_works (s : Station) (c : ChanId) (cause : StallCause) : Works s (stallCore s c cause) := by
  unfold stallCore
  split
  · simp only
    refine Works.trans ?_ (giveEvent_works _ _)
    refine Works.trans (Works.trans (works_setChan s c ⟨.stalled, [], some cause⟩ (fun _ => Nat.zero_le _))
      (returnCredit_works _ (headSeg s c))) ?_
    split
    · exact Works.refl _
    · split
      · exact Works.refl _
      · exact withdrawOffer_works _
      · exact Works.trans (offerRelease_works _ _ _) (works_outstanding _ _)
  · exact Works.refl s

/-! ### Failures of a change -/

theorem abandonByState_works (s : Station) : Works s (abandonByState s) := by
  unfold abandonByState
  simp only
  refine Works.trans (withdrawWaiting_works s (fun w => w.src == .change && isReserveFrame w.item.body)) ?_
  split
  · exact Works.refl _
  · split
    · exact offerControl_works _ _ _ _ rfl rfl
    · exact Works.refl _

theorem foldl_works {α : Type} (f : Station → α → Station) (hf : ∀ s a, Works s (f s a)) (l : List α) (s : Station) :
    Works s (l.foldl f s) := by
  induction l generalizing s with
  | nil => exact Works.refl s
  | cons a r ih => exact Works.trans (hf s a) (ih _)

theorem abandonHeld_works (s : Station) : Works s (abandonHeld s) :=
  foldl_works _ (fun _ _ => offerControl_works _ _ _ _ rfl rfl) _ s

theorem stopSequencer_works (s : Station) (c : ChanId) : Works s (stopSequencer s c) := by
  unfold stopSequencer
  split
  · exact Works.refl s
  · split
    · split
      · split
        · exact Works.refl s
        · exact beginStop_works _ _ _
      · exact Works.refl s
      · exact haltQuiet_works _ _
    · exact Works.refl s

theorem idleChanger_works (s : Station) : Works s (idleChanger s) := works_change s _

theorem endFailure_works (s : Station) : Works s (endFailure s) := by
  unfold endFailure
  split
  · exact Works.refl s
  · split
    · exact Works.refl s
    · exact Works.trans (idleChanger_works s) (Works.trans (tidyMoment_works _ _) (giveEvent_works _ _))

theorem meetFailure_works (s : Station) (cause : ChangeCause) : Works s (meetFailure s cause) := works_change s _

theorem reportMount_works (s : Station) (code : Option Code) : Works s (reportMount s code) := offerControl_works _ _ _ _ rfl rfl

theorem stopBoth_works (s : Station) : Works s (stopBoth s) := Works.trans (stopSequencer_works s _) (stopSequencer_works _ _)

theorem dropWaiting_works (s : Station) (c : ChanId) : Works s (dropWaiting s c) := by
  unfold dropWaiting
  split
  · exact Works.refl s
  · exact stopSequencer_works s c

theorem dropBoth_works (s : Station) : Works s (dropBoth s) := Works.trans (dropWaiting_works s _) (dropWaiting_works _ _)

theorem failWith_works {stop : Station → Station} (hs : ∀ t, Works t (stop t)) (s : Station) (cause : ChangeCause) (mount : Bool) :
    Works s (failWith stop s cause mount) := by
  unfold failWith
  split
  · simp only
    refine Works.trans ?_ (endFailure_works _)
    have h : Works s (stop (meetFailure (abandonByState s) cause)) :=
      Works.trans (abandonByState_works s) (Works.trans (meetFailure_works _ _) (hs _))
    split
    · exact Works.trans h (reportMount_works _ _)
    · exact h
  · exact endFailure_works s

theorem failByMotion_works (s : Station) (cause : ChangeCause) (mount : Bool) : Works s (failByMotion s cause mount) :=
  failWith_works stopBoth_works s cause mount

theorem failByRack_works (s : Station) (cause : ChangeCause) : Works s (failByRack s cause) := by
  unfold failByRack
  split
  · simp only
    refine Works.trans ?_ (endFailure_works _)
    have h : Works s (stopBoth (meetFailure (abandonHeld s) cause)) :=
      Works.trans (abandonHeld_works s) (Works.trans (meetFailure_works _ _) (stopBoth_works _))
    split
    · exact Works.trans h (reportMount_works _ _)
    · exact h
  · exact Works.refl s

theorem failByStall_works (s : Station) (cause : StallCause) : Works s (failByStall s cause) :=
  Works.trans (withdrawWaiting_works s _) (failWith_works dropBoth_works _ _ _)

theorem failByStart_works (s : Station) (cause : HaltCause) : Works s (failByStart s cause) := failByMotion_works _ _ _

/-! ### The start sequence -/

theorem creditStep_works (s : Station) (c : ChanId) (g : Segment) :
    ∀ r ∈ creditStep s c g, Works s r.1 := by
  intro r hr
  unfold creditStep at hr
  split at hr
  · split at hr
    · cases hr
      exact Works.trans (reserveEntry_works s) (setHead_works _ _ _)
    · cases hr
  · cases hr
    exact Works.refl s

theorem afterCredit_works (s : Station) (c : ChanId) (g : Segment) : Works s (afterCredit s c g) := by
  unfold afterCredit
  split
  · exact Works.refl s
  · rename_i s1 g1 h
    exact creditStep_works s c g (s1, g1) h

theorem startMotion_works (s : Station) (c : ChanId) (g : Segment) : Works s (startMotion s c g) := by
  unfold startMotion
  simp only
  have h : Works s (setState (setHead s c { g with phase := .approach, marks := .all false }) c .running) :=
    Works.trans (setHead_works s c _) (setState_works _ _ _)
  split
  · exact Works.trans h (works_homed _ _)
  · exact h

theorem offerClaim_works (s : Station) (g : Segment) (m : ZoneMask) : Works s (offerClaim s g m) :=
  Works.trans (works_claimFor s g.acc) (Works.trans (offerControl_works _ _ _ _ rfl rfl) (works_outstanding _ _))

theorem claimIfClear_works (s : Station) (g : Segment) (m : ZoneMask) : Works s (claimIfClear s g m) := by
  unfold claimIfClear
  split
  · exact offerClaim_works s g m
  · exact Works.refl s

/-- The station that a start sequence leaves where it waits or starts. -/
def outcomeWorks (s : Station) : StartOutcome → Prop
  | .waits t => Works s t
  | .starts t => Works s t
  | .fails _ => True

theorem outcomeWorks_trans {s t : Station} (h : Works s t) (o : StartOutcome) (k : outcomeWorks t o) : outcomeWorks s o := by
  cases o
  · exact Works.trans h k
  · trivial
  · exact Works.trans h k

theorem zoneStep_works (s : Station) (c : ChanId) (g : Segment) : outcomeWorks s (zoneStep s c g) := by
  unfold zoneStep
  simp only
  split
  · trivial
  · split
    · exact startMotion_works _ _ _
    · exact Works.trans (setHead_works s c _) (Works.trans (setState_works _ _ _) (claimIfClear_works _ _ _))

theorem laterSteps_works (s : Station) (c : ChanId) (g : Segment) : outcomeWorks s (laterSteps s c g) := by
  unfold laterSteps
  split
  · exact zoneStep_works _ _ _
  · split
    · trivial
    · simp only
      split
      · exact zoneStep_works _ _ _
      · trivial

theorem startSequence_works (s : Station) (c : ChanId) (g : Segment) : outcomeWorks s (startSequence s c g) := by
  unfold startSequence
  split
  · exact setState_works _ _ _
  · rename_i s1 g1 h
    exact outcomeWorks_trans (creditStep_works s c g (s1, g1) h) _ (laterSteps_works _ _ _)

theorem leadSteps_works (n : Nat) (s : Station) : Works s (leadSteps n s) := by
  induction n generalizing s with
  | zero => exact Works.refl s
  | succ n ih =>
    unfold leadSteps
    split
    · exact Works.refl s
    · rename_i c _
      split
      · rename_i g _ _
        have hw := startSequence_works s c g
        split
        · rename_i s1 h
          rw [h] at hw; exact hw
        · rename_i s1 h
          rw [h] at hw; exact hw
        · simp only
          have h : ∀ cause c, Works s (haltNow (afterCredit s c g) c cause) := fun cause c =>
            Works.trans (afterCredit_works s c g) (haltNow_works _ _ _)
          refine Works.trans ?_ (ih _)
          split
          · exact Works.trans (h _ _) (failByStart_works _ _)
          · exact h _ _
      · exact Works.refl s

theorem chooseLead_works (s : Station) : Works s (chooseLead s) := leadSteps_works 3 s

theorem enqueueSegment_works (s : Station) (c : ChanId) (kind : SegKind) (origin : Origin) (recovery : Bool) (speed : Nat)
    (h : (chan s c).queue.length < 16) : Works s (enqueueSegment s c kind origin recovery speed) := by
  unfold enqueueSegment
  simp only
  refine Works.trans (works_setChan s c _ (fun _ => ?_)) (works_nextAcc _ _)
  simp only [List.length_append, List.length_singleton]
  omega

theorem giveSegment_works (s : Station) (c : ChanId) (kind : SegKind) (runOn : Bool) (speed : Nat) :
    Works s (giveSegment s c kind runOn speed) := by
  unfold giveSegment
  split
  · rename_i h
    simp only [Bool.and_eq_true, decide_eq_true_eq] at h
    exact Works.trans (enqueueSegment_works _ _ _ _ _ _ h.2) (chooseLead_works _)
  · exact failByStart_works _ _

/-! ### Completion, stops, stalls, clearing -/

theorem completeSegment_works (s : Station) (c : ChanId) (g : Segment) : Works s (completeSegment s c g) := by
  unfold completeSegment
  simp only
  have h1 : Works s (setChan s c { chan s c with queue := (chan s c).queue.drop 1 }) :=
    works_setChan s c _ (fun h => by simp only [List.length_drop]; omega)
  have h2 : Works s (if isHomeSeg g = true then
      { setChan s c { chan s c with queue := (chan s c).queue.drop 1 } with
        motion := { (setChan s c { chan s c with queue := (chan s c).queue.drop 1 }).motion with
          homed := setForChan (setChan s c { chan s c with queue := (chan s c).queue.drop 1 }) c true
            (setChan s c { chan s c with queue := (chan s c).queue.drop 1 }).motion.homed } }
      else setChan s c { chan s c with queue := (chan s c).queue.drop 1 }) := by
    split
    · exact Works.trans h1 (works_homed _ _)
    · exact h1
  split
  · exact Works.trans h2 (Works.trans (setState_works _ _ _) (Works.trans (tidyMoment_works _ _) (giveEvent_works _ _)))
  · exact Works.trans h2 (Works.trans (setState_works _ _ _) (tidyMoment_works _ _))

theorem endStop_works (s : Station) (c : ChanId) (g : Segment) : Works s (endStop s c g) := by
  unfold endStop
  simp only
  have h : Works s (tidyMoment (emptyChan s c .halted) (claimedSet s c)) := Works.trans (emptyChan_works s c _) (tidyMoment_works _ _)
  split
  · exact h
  · exact Works.trans h (giveEvent_works _ _)

theorem stall_works (s : Station) (c : ChanId) (cause : StallCause) : Works s (stall s c cause) := by
  unfold stall
  split
  · exact Works.trans (stallCore_works s c cause) (Works.trans (failByStall_works _ _) (chooseLead_works _))
  · exact Works.refl s

theorem collide_works (s : Station) (c : ChanId) : Works s (collide s c) := by
  unfold collide
  split
  · simp only
    refine Works.trans ?_ (Works.trans (failByStall_works _ _) (chooseLead_works _))
    refine Works.trans (stallCore_works s c .collision) ?_
    split
    · exact Works.refl _
    · exact offerControl_works _ _ _ _ rfl rfl
  · exact Works.refl s

theorem enableChan_works (s : Station) (c : ChanId) : Works s (enableChan s c) := by
  unfold enableChan
  split
  · exact Works.trans (works_setChan s c _ (fun _ => Nat.zero_le _)) (giveEvent_works _ _)
  · exact works_setChan s c _ (fun _ => Nat.zero_le _)

theorem enableChannels_works (s : Station) : Works s (enableChannels s) := by
  unfold enableChannels
  split
  · exact Works.refl s
  · exact Works.trans (enableChan_works s _) (enableChan_works _ _)

theorem offerMount_works (s : Station) : Works s (offerMount s) := by
  unfold offerMount
  split
  · exact reportMount_works _ _
  · exact Works.refl s

theorem clearChan_works (s : Station) (c : ChanId) : Works s (clearChan s c) := by
  have h : Works s (tidyMoment (setChan s c ⟨.idle, [], none⟩) none) :=
    Works.trans (works_setChan s c _ (fun _ => Nat.zero_le _)) (tidyMoment_works _ _)
  unfold clearChan
  split
  · exact h
  · split
    · exact Works.refl s
    · simp only
      split
      · exact Works.trans h (offerMount_works _)
      · exact h
  · exact Works.refl s

theorem disableChannels_works (s : Station) : Works s (disableChannels s) :=
  ⟨rfl, rfl, rfl, rfl, rfl, rfl, rfl, rfl, rfl, rfl, rfl, rfl, rfl, rfl, LineWorks.refl _, fun _ => ⟨Nat.zero_le _, Nat.zero_le _⟩, rfl, id⟩

end Sys2Proof.Laws
end

