-- ==== Sys2Proof/Laws/WorksChange.lean ====
section
/-! SUPPORT. The operations of the Change Sequencer and the units' reactions to an application do no more than `Works` allows. -/

namespace Sys2Proof.Laws

open Sys2Proof.Machine

/-! ### Steps of a change -/

theorem setChange_works (s : Station) (c : Changer) : Works s (setChange s c) := works_change s c
theorem setLeg_works (s : Station) (l : Leg) : Works s (setLeg s l) := works_change s _
theorem enterState_works (s : Station) (st : ChangeState) (l : Leg) : Works s (enterState s st l) := works_change s _
theorem armTo_works (s : Station) (v : Vec3) (r : Bool) : Works s (armTo s v r) := giveSegment_works _ _ _ _ _

theorem enterReservePickup_works (s : Station) : Works s (enterReservePickup s) := by
  unfold enterReservePickup
  simp only
  split
  · exact Works.trans (enterState_works s _ _) (offerControl_works _ _ _ _ rfl rfl)
  · exact Works.trans (enterState_works s _ _) (failByRack_works _ _)

theorem enterReserve_works (s : Station) : Works s (enterReserve s) := by
  unfold enterReserve
  split
  · exact enterReservePickup_works s
  · simp only
    split
    · exact Works.trans (enterState_works s _ _) (offerControl_works _ _ _ _ rfl rfl)
    · exact Works.trans (enterState_works s _ _) (failByRack_works _ _)

theorem depositDone_works (s : Station) : Works s (depositDone s) := by
  unfold depositDone
  split
  · exact Works.refl s
  · exact Works.trans (works_change s _) (Works.trans (offerControl_works _ .change 0 _ rfl rfl)
      (Works.trans (enterState_works _ _ _) (armTo_works _ _ _)))

theorem engageDone_works (s : Station) : Works s (engageDone s) := Works.trans (works_change s _) (armTo_works _ _ _)

theorem seatReached_works (s : Station) : Works s (seatReached s) := by
  unfold seatReached
  simp only
  split
  · split
    · exact works_change s _
    · exact Works.trans (works_change s _) (depositDone_works _)
  · split
    · exact Works.trans (works_change s _) (engageDone_works _)
    · exact works_change s _

theorem judgeDeposit_works (s : Station) : Works s (judgeDeposit s) := by
  unfold judgeDeposit
  split
  · exact Works.refl s
  · simp only
    split
    · split
      · exact Works.trans (works_change s _) (enterReservePickup_works _)
      · exact Works.refl s
    · split
      · exact Works.refl s
      · exact failByRack_works _ _

theorem offerTake_works (s : Station) : Works s (offerTake s) :=
  Works.trans (enterState_works s _ _) (offerControl_works _ _ _ _ rfl rfl)

theorem changeSegmentEnd_works (s : Station) : Works s (changeSegmentEnd s) := by
  unfold changeSegmentEnd
  split
  · exact endFailure_works s
  · split
    · exact enterReserve_works s
    · split
      · exact Works.refl s
      · exact Works.trans (setLeg_works s _) (armTo_works _ _ _)
    · exact seatReached_works s
    · exact Works.trans (setLeg_works s _) (judgeDeposit_works _)
    · exact Works.trans (setLeg_works s _) (armTo_works _ _ _)
    · exact seatReached_works s
    · exact offerTake_works s
    · exact Works.refl s

theorem changeDone_works (s : Station) : Works s (changeDone s) :=
  Works.trans (idleChanger_works s) (Works.trans (tidyMoment_works _ _) (giveEvent_works _ _))

theorem reserveApplied_works (s : Station) (p : Nat) (took : Bool) : Works s (reserveApplied s p took) := by
  unfold reserveApplied
  simp only
  split
  · exact Works.refl s
  · split
    · split
      · exact Works.trans (works_change s _) (enterState_works _ _ _)
      · exact failByRack_works _ _
    · exact Works.refl s

theorem unlockApplied_works (s : Station) (p : Nat) : Works s (unlockApplied s p) := by
  unfold unlockApplied
  split
  · simp only
    split
    · exact Works.trans (works_change s _) (Works.trans (enterState_works _ _ _) (armTo_works _ _ _))
    · exact Works.trans (works_change s _) (Works.trans (enterState_works _ _ _) (armTo_works _ _ _))
    · exact Works.refl s
  · exact Works.refl s

theorem depositApplied_works (s : Station) (m p : Nat) (took : Bool) : Works s (depositApplied s m p took) := by
  unfold depositApplied
  split
  · exact works_change s _
  · exact Works.refl s

theorem takeApplied_works (s : Station) (t p : Nat) (took : Bool) : Works s (takeApplied s t p took) := by
  unfold takeApplied
  split
  · split
    · refine Works.trans ?_ (Works.trans (meetFailure_works _ _) (endFailure_works _))
      split
      · exact Works.refl s
      · exact reportMount_works _ _
    · split
      · exact changeDone_works s
      · exact failByRack_works _ _
  · exact Works.refl s

theorem watchReservation_works (s : Station) : Works s (watchReservation s) := by
  unfold watchReservation
  split
  · exact Works.refl s
  · split
    · exact judgeDeposit_works s
    · split
      · split
        · exact Works.refl s
        · split
          · exact Works.refl s
          · exact failByRack_works _ _
      · exact Works.refl s

theorem changeApplied_works (s : Station) (f : Frame) (took : Bool) : Works s (changeApplied s f took) := by
  unfold changeApplied
  split
  · exact Works.refl s
  · have key : ∀ t, Works s t → Works s (if changeRuns t = true then watchReservation t else t) := fun t h => by
      split
      · exact Works.trans h (watchReservation_works t)
      · exact h
    refine key _ ?_
    split
    · split
      · exact reserveApplied_works _ _ _
      · exact Works.refl s
    · split
      · exact unlockApplied_works _ _
      · exact Works.refl s
    · split
      · exact depositApplied_works _ _ _ _
      · exact Works.refl s
    · split
      · exact takeApplied_works _ _ _ _
      · exact Works.refl s
    · exact Works.refl s

theorem changeHalt_works (s : Station) : Works s (changeHalt s) := by
  unfold changeHalt
  split
  · exact Works.refl s
  · split
    · exact works_change s _
    · exact failByMotion_works _ _ _

theorem startChange_works (s : Station) (tag : Code) (t pt : Nat) (deposit : Option (Nat × Nat)) :
    Works s (startChange s tag t pt deposit) :=
  Works.trans (setChange_works s _) (giveSegment_works _ _ _ _ _)

/-! ### Reactions to an application that touch no table -/

theorem deadlockHalt_works (s : Station) : Works s (deadlockHalt s) := by
  unfold deadlockHalt
  simp only
  split
  · have h : ∀ c, Works s (haltNow (setOutstanding s .none) c .zoneDeadlock) := fun c =>
      Works.trans (works_outstanding s .none) (haltNow_works _ c _)
    refine Works.trans ?_ (chooseLead_works _)
    split
    · exact Works.trans (h _) (failByStart_works _ _)
    · exact h _
  · exact works_outstanding s _

theorem offerOwed_works (s : Station) (c : ChanId) : Works s (offerOwed s c) := by
  unfold offerOwed
  split
  · split
    · exact Works.refl s
    · exact claimIfClear_works s _ _
  · exact Works.refl s

theorem claimSettled_works (s : Station) (fx : Fx) : Works s (claimSettled s fx) := by
  unfold claimSettled
  split
  · exact deadlockHalt_works s
  · exact works_outstanding s _

theorem claimApplied_works (s : Station) (f : Frame) (fx : Fx) : Works s (claimApplied s f fx) := by
  unfold claimApplied
  simp only
  split
  · exact Works.trans (claimSettled_works s fx) (Works.trans (offerOwed_works _ _) (offerOwed_works _ _))
  · exact Works.refl s

theorem withdrawStale_works (s : Station) : Works s (withdrawStale s) := withdrawWaiting_works s _

theorem reportCondition_works (s : Station) (xw : Nat × CondReason) : Works s (reportCondition s xw) := giveEvent_works _ _

theorem closingApplied_works (s : Station) (f : Frame) (took : Bool) : Works s (closingApplied s f took) := by
  unfold closingApplied
  split
  · split
    · exact closePoints_works _ _ _
    · exact Works.refl s
  · exact Works.refl s

theorem mountApplied_works (before : Replica) (s : Station) (f : Frame) (took : Bool) : Works s (mountApplied before s f took) := by
  unfold mountApplied
  split
  · split
    · split
      · exact Works.refl s
      · simp only
        split
        · exact Works.refl s
        · exact offerControl_works _ _ _ _ rfl rfl
    · exact Works.refl s
  · exact Works.refl s

end Sys2Proof.Laws
end

