-- ==== Sys2Proof/Laws/Bounded.lean ====
section
/-! SUPPORT. `Owing n s`: every store keeps to its size and `n` reserved answer entries besides those of the delivered requests and
the open window are still to be used. One lemma for each operation behind a command: it keeps `Owing`. -/

namespace Sys2Proof.Laws

open Sys2Proof.Machine

/-- `Bounded` while `n` answers are owed besides (R5). -/
structure Owing (n : Nat) (s : Station) : Prop where
  line : LineOk s.line
  answers : s.request.delivered.length + windowReserves s.line.window + n ≤ s.line.reserved
  catchUp : s.replica.catchUp.length ≤ 128
  queues : QueuesOk s.motion
  windows : ∀ i ∈ s.thermal.inputs, i.window.length ≤ 8
  points : s.touch.points.length = 24
  events : s.request.events.length ≤ 8
  outRecord : s.loader.outRecord.length ≤ 2

theorem bounded_iff (s : Station) : Bounded s ↔ Owing 0 s :=
  ⟨fun h => ⟨h.line, h.answers, h.catchUp, h.queues, h.windows, h.points, h.events, h.outRecord⟩,
   fun h => ⟨h.line, h.answers, h.catchUp, h.queues, h.windows, h.points, h.events, h.outRecord⟩⟩

theorem Works.owing {n : Nat} {s t : Station} (w : Works s t) (h : Owing n s) : Owing n t := by
  refine ⟨w.line.ok h.line, ?_, ?_, w.queues h.queues, ?_, ?_, w.events h.events, ?_⟩
  · rw [w.delivered, w.line.window, w.line.reserved]; exact h.answers
  · rw [w.replica]; exact h.catchUp
  · rw [w.thermal]; exact h.windows
  · rw [w.points]; exact h.points
  · rw [w.loader]; exact h.outRecord

/-! ### Fields that no bound rests on -/

theorem owing_now {n : Nat} {s : Station} (h : Owing n s) (t : Nat) : Owing n { s with now := t } :=
  ⟨h.line, h.answers, h.catchUp, h.queues, h.windows, h.points, h.events, h.outRecord⟩

theorem owing_pins {n : Nat} {s : Station} (h : Owing n s) (p : Pins) : Owing n { s with pins := p } :=
  ⟨h.line, h.answers, h.catchUp, h.queues, h.windows, h.points, h.events, h.outRecord⟩

theorem owing_rack {n : Nat} {s : Station} (h : Owing n s) (l : List RackPort) : Owing n { s with rack := l } :=
  ⟨h.line, h.answers, h.catchUp, h.queues, h.windows, h.points, h.events, h.outRecord⟩

theorem owing_free {n : Nat} {s : Station} (h : Owing n s) (k : Nat) : Owing n { s with freeUsed := k } :=
  ⟨h.line, h.answers, h.catchUp, h.queues, h.windows, h.points, h.events, h.outRecord⟩

theorem owing_loader {n : Nat} {s : Station} (h : Owing n s) {l : Loader} (hl : l.outRecord.length ≤ 2) : Owing n { s with loader := l } :=
  ⟨h.line, h.answers, h.catchUp, h.queues, h.windows, h.points, h.events, hl⟩

theorem owing_replica {n : Nat} {s : Station} (h : Owing n s) {r : ReplicaUnit} (hr : r.catchUp.length ≤ 128) :
    Owing n { s with replica := r } :=
  ⟨h.line, h.answers, hr, h.queues, h.windows, h.points, h.events, h.outRecord⟩

theorem owing_motion {n : Nat} {s : Station} (h : Owing n s) {m : MotionUnit} (hm : QueuesOk m) : Owing n { s with motion := m } :=
  ⟨h.line, h.answers, h.catchUp, hm, h.windows, h.points, h.events, h.outRecord⟩

theorem owing_thermal {n : Nat} {s : Station} (h : Owing n s) {t : ThermalUnit} (ht : ∀ i ∈ t.inputs, i.window.length ≤ 8) :
    Owing n { s with thermal := t } :=
  ⟨h.line, h.answers, h.catchUp, h.queues, ht, h.points, h.events, h.outRecord⟩

theorem owing_touch {n : Nat} {s : Station} (h : Owing n s) {t : TouchUnit} (ht : t.points.length = 24) : Owing n { s with touch := t } :=
  ⟨h.line, h.answers, h.catchUp, h.queues, h.windows, ht, h.events, h.outRecord⟩

/-- A Line Port that keeps its reservations and its window. -/
theorem owing_line {n : Nat} {s : Station} (h : Owing n s) {lp : LinePort} (hl : LineOk lp) (hr : lp.reserved = s.line.reserved)
    (hw : lp.window = s.line.window) : Owing n { s with line := lp } :=
  ⟨hl, by show _ + windowReserves lp.window + n ≤ lp.reserved; rw [hr, hw]; exact h.answers, h.catchUp, h.queues, h.windows, h.points,
   h.events, h.outRecord⟩

theorem owing_setTabs {n : Nat} {s : Station} (h : Owing n s) (r : Replica) : Owing n (setTabs s r) := owing_replica h h.catchUp

theorem owing_readEncoders {n : Nat} {s : Station} (h : Owing n s) (enc : Counts) : Owing n (readEncoders s enc) :=
  owing_motion h h.queues

theorem owing_atDue {n : Nat} {s : Station} (h : Owing n s) (t : Nat) : Owing n (atDue s t) := owing_now h _

/-! ### Thermal and rack units -/

theorem offerThermalTo_ok (lp : LinePort) (now : Nat) (b : Body) (hb : Body.cls b = .thermal) (h : LineOk lp) :
    LineOk (offerThermalTo lp now b) := by
  unfold offerThermalTo
  split
  all_goals
    exact ⟨h.control, h.release, h.report, h.points, h.vetoLog, h.controlClass, h.reportClass, by
      intro v hv; simp only [Option.mem_def, Option.some.injEq] at hv; subst hv; exact hb, h.waitingClass⟩

theorem offerThermalTo_keeps (lp : LinePort) (now : Nat) (b : Body) :
    (offerThermalTo lp now b).reserved = lp.reserved ∧ (offerThermalTo lp now b).window = lp.window := by
  unfold offerThermalTo; split <;> exact ⟨rfl, rfl⟩

theorem owing_composeThermal {n : Nat} {s : Station} (h : Owing n s) : Owing n (composeThermal s) := by
  obtain ⟨h1, h2⟩ := offerThermalTo_keeps s.line s.now (.thermal (thermEntries s))
  exact owing_thermal (owing_line h (offerThermalTo_ok _ _ _ rfl h.line) h1 h2) h.windows

theorem countSample_window (i : ThermInput) (x : Sample) (h : i.window.length ≤ 8) : (countSample i x).window.length ≤ 8 := by
  cases x
  · exact Nat.zero_le _
  · simp only [countSample, List.length_drop, List.length_append, List.length_singleton, Config.windowSamples]; omega
  · exact h

theorem mem_map1 {α : Type} {f : Nat → α → α} {l : List α} {v : α} (h : v ∈ map1 f l) : ∃ k, ∃ u ∈ l, v = f k u := by
  simp only [map1, List.mem_mapIdx] at h
  obtain ⟨i, hi, rfl⟩ := h
  exact ⟨i + 1, l[i], List.getElem_mem hi, rfl⟩

theorem sampleInputs_windows (s : Station) (ohms : List Nat) (h : ∀ i ∈ s.thermal.inputs, i.window.length ≤ 8) :
    ∀ i ∈ sampleInputs s ohms, i.window.length ≤ 8 := by
  intro i hi
  obtain ⟨k, u, hu, rfl⟩ := mem_map1 hi
  split
  · exact countSample_window u _ (h u hu)
  · exact h u hu

theorem reportRack_works (s : Station) (p : Nat) : Works s (reportRack s p) :=
  Works.trans (withdrawWaiting_works s (fun w => w.src == .rack p)) (offerControl_works _ _ _ _ rfl rfl)

theorem reportAll_works (s : Station) : Works s (reportAll s) := by
  unfold reportAll
  split
  · exact foldl_works _ reportRack_works _ s
  · exact Works.refl s

theorem owing_setRackPort {n : Nat} {s : Station} (h : Owing n s) (p : Nat) (v : RackPort) : Owing n (setRackPort s p v) := owing_rack h _

theorem owing_rackPortApplied {n : Nat} {s : Station} (before : Replica) (f : Frame) (took : Bool) (p : Nat) (h : Owing n s) :
    Owing n (rackPortApplied before f took s p) := by
  have key : ∀ a b c : Bool, Owing n (if a = true then reportRack (setLock s p .unlocked) p
      else if b = true then reportRack (setLock s p .locked) p else if c = true then reportRack s p else s) := by
    intro a b c
    split
    · exact (reportRack_works _ _).owing (owing_setRackPort h _ _)
    · split
      · exact (reportRack_works _ _).owing (owing_setRackPort h _ _)
      · split
        · exact (reportRack_works _ _).owing h
        · exact h
  exact key _ _ _

theorem owing_foldl {α : Type} {n : Nat} (f : Station → α → Station) (hf : ∀ s a, Owing n s → Owing n (f s a)) (l : List α)
    {s : Station} (h : Owing n s) : Owing n (l.foldl f s) := by
  induction l generalizing s with
  | nil => exact h
  | cons a r ih => exact ih (hf s a h)

theorem owing_rackApplied {n : Nat} {s : Station} (before : Replica) (f : Frame) (took : Bool) (h : Owing n s) :
    Owing n (rackApplied before s f took) := by
  unfold rackApplied
  split
  · exact owing_foldl _ (fun s p => owing_rackPortApplied before f took p) _ h
  · exact h

/-! ### Serving -/

theorem owing_report {n : Nat} {s : Station} (h : Owing n s) (o : Outgoing) (hc : Body.cls o.body = .report)
    (ht : takesReport s.line o.body = true) {r : ReplicaUnit} (hr : r.catchUp = s.replica.catchUp) :
    Owing n { s with line := enqueueReport s.line o, replica := r } := by
  have w := enqueueReport_works s.line o hc ht
  exact owing_replica (owing_line h (w.ok h.line) w.reserved w.window) (hr ▸ h.catchUp)

theorem owing_offerNotices {n : Nat} (k : Nat) {s : Station} (h : Owing n s) : Owing n (offerNotices k s) := by
  induction k generalizing s with
  | zero => exact h
  | succ k ih =>
    unfold offerNotices
    split
    · exact h
    · simp only
      split
      · rename_i ht
        exact ih (owing_report h ⟨_, .snapBegin _ _ _ _⟩ rfl ht rfl)
      · exact h

theorem snapFrames_cls (c : CellPart) (sh : Shadow) : ∀ b ∈ snapFrames c sh, Body.cls b = .report := by
  intro b hb
  simp only [snapFrames, List.mem_cons, List.mem_append, List.mem_map, List.mem_nil_iff, or_false] at hb
  rcases hb with rfl | ⟨_, _, rfl⟩ | rfl <;> rfl

theorem owing_offerShadow {n : Nat} (k : Nat) {s : Station} (h : Owing n s) : Owing n (offerShadow k s) := by
  induction k generalizing s with
  | zero => exact h
  | succ k ih =>
    unfold offerShadow
    split
    · exact h
    · split
      · exact h
      · rename_i hb
        split
        · rename_i ht
          exact ih (owing_report h ⟨_, _⟩ (snapFrames_cls _ _ _ (List.mem_of_getElem? hb)) ht rfl)
        · exact h

theorem owing_offerSnapshots {n : Nat} {s : Station} (h : Owing n s) : Owing n (offerSnapshots s) := by
  unfold offerSnapshots
  simp only
  split
  · exact owing_offerShadow _ (owing_offerNotices _ h)
  · exact owing_offerNotices _ h

theorem owing_servingApplied {n : Nat} {s : Station} (f : Frame) (fx : Fx) (h : Owing n s) : Owing n (servingApplied s f fx) := by
  unfold servingApplied
  exact owing_offerSnapshots (owing_replica h h.catchUp)

/-! ### Modes -/

theorem waitingClass_filter {lp : LinePort} (p : Waiting → Bool) (h : LineOk lp) :
    LineOk { lp with waiting := lp.waiting.filter p } :=
  (waiting_ok fun h w hw => h.waitingClass w (List.mem_filter.mp hw).1).ok h

theorem lineOut_ok (lp : LinePort) (h : LineOk lp) : LineOk (lineOut lp) := by
  refine ⟨?_, ?_, ?_, ?_, h.vetoLog, ?_, ?_, ?_, ?_⟩ <;> simp [lineOut, LinePort.reset, controlHeld, reportHeld, flightIn, pointsHeld]

/-- Entering OUT or SHUT leaves nothing owed: requests and reservations are gone together (R20, R167). -/
theorem owing_leaveLine {n : Nat} {s : Station} (h : Owing n s) : Owing 0 (leaveLine s) :=
  ⟨lineOut_ok _ h.line, Nat.le_refl _, Nat.zero_le _, ⟨Nat.zero_le _, Nat.zero_le _⟩, h.windows, by simp [leaveLine],
   Nat.zero_le _, h.outRecord⟩

theorem owing_enterShut {n : Nat} {s : Station} (h : Owing n s) (r : ShutReason) : Owing 0 (enterShut s r) := by
  have k := owing_leaveLine h
  exact ⟨k.line, k.answers, k.catchUp, k.queues, k.windows, k.points, k.events, k.outRecord⟩

theorem owing_enterOut {n : Nat} {s : Station} (h : Owing n s) (c : OutCause) : Owing 0 (enterOut s c) := by
  have hlen : (s.loader.outRecord.filter (fun t => decide (s.now ≤ t + Config.outSpan))).length ≤ 2 :=
    Nat.le_trans (List.length_filter_le _ _) h.outRecord
  unfold enterOut
  simp only
  split
  · exact owing_enterShut (owing_loader h hlen) _
  · refine owing_loader (owing_leaveLine h) ?_
    simp only [List.length_append, List.length_singleton]
    omega

theorem owing_sampleStraps {s : Station} (h : Owing 0 s) : Owing 0 (sampleStraps s) := by
  unfold sampleStraps
  simp only
  split
  · refine owing_enterShut (n := 0) ?_ _
    exact ⟨h.line, h.answers, h.catchUp, h.queues, h.windows, h.points, h.events, h.outRecord⟩
  · exact ⟨h.line, h.answers, h.catchUp, h.queues, h.windows, h.points, h.events, h.outRecord⟩

/-- A station at its restart values. -/
theorem owing_fresh {s : Station} (hl : s.line = LinePort.reset) (hr : s.replica = ReplicaUnit.reset)
    (hm : QueuesOk s.motion) (ht : s.thermal = ThermalUnit.reset) (hp : s.touch = TouchUnit.reset)
    (hq : s.request = RequestUnit.reset) (ho : s.loader.outRecord.length ≤ 2) : Owing 0 s := by
  refine ⟨hl ▸ lineOk_reset, ?_, ?_, hm, ?_, ?_, ?_, ho⟩
  · rw [hq, hl]; exact Nat.le_refl _
  · rw [hr]; exact Nat.zero_le _
  · rw [ht]; intro i hi
    simp only [ThermalUnit.reset, List.mem_replicate] at hi
    rw [hi.2]; exact Nat.zero_le _
  · rw [hp]; exact List.length_replicate
  · rw [hq]; exact Nat.zero_le _

theorem owing_restart {n : Nat} {s : Station} (h : Owing n s) (c : ResetCause) : Owing 0 (restart s c) :=
  owing_sampleStraps (owing_fresh rfl rfl ⟨Nat.zero_le _, Nat.zero_le _⟩ rfl rfl rfl h.outRecord)

theorem owing_holdInReset (s : Station) : Owing 0 (holdInReset s) :=
  owing_fresh rfl rfl ⟨Nat.zero_le _, Nat.zero_le _⟩ rfl rfl rfl (Nat.zero_le _)

theorem owing_releaseReset {s : Station} (h : Owing 0 s) : Owing 0 (releaseReset s) :=
  owing_sampleStraps ⟨h.line, h.answers, h.catchUp, h.queues, h.windows, h.points, h.events, h.outRecord⟩

theorem owing_offerJoin {n : Nat} {s : Station} (h : Owing n s) : Owing n (offerJoin s) := by
  unfold offerJoin
  exact (offerControl_works _ _ _ _ rfl rfl).owing ((withdrawWaiting_works _ _).owing (owing_replica h (Nat.zero_le _)))

theorem owing_enterJoining {n : Nat} {s : Station} (h : Owing n s) : Owing n (enterJoining s) := by
  unfold enterJoining
  refine owing_offerJoin ⟨h.line, h.answers, Nat.zero_le _, h.queues, ?_, h.points, h.events, h.outRecord⟩
  intro i hi
  simp only [ThermalUnit.reset, List.mem_replicate] at hi
  rw [hi.2]; exact Nat.zero_le _

theorem owing_loadImage {s : Station} (h : Owing 0 s) (bytes : List Byte) : Owing 0 (loadImage s bytes) := by
  unfold loadImage
  split
  · refine owing_enterShut (n := 0) ?_ _
    exact ⟨h.line, h.answers, h.catchUp, h.queues, h.windows, h.points, h.events, h.outRecord⟩
  · exact owing_enterJoining ⟨h.line, h.answers, h.catchUp, h.queues, h.windows, h.points, h.events, h.outRecord⟩

theorem modeEvent_works (s : Station) : Works s (modeEvent s) := giveEvent_works _ _

theorem owing_enterActive {n : Nat} {s : Station} (h : Owing n s) : Owing n (enterActive s) := by
  unfold enterActive
  refine (modeEvent_works _).owing ((reportAll_works _).owing ((tidyMoment_works _ _).owing ((offerMount_works _).owing
    ((enableChannels_works _).owing (owing_composeThermal ?_)))))
  exact ⟨waitingClass_filter _ h.line, h.answers, Nat.zero_le _, h.queues, h.windows, h.points, h.events, h.outRecord⟩

theorem owing_park {n : Nat} {s : Station} (h : Owing n s) : Owing n (park s) := by
  unfold park
  simp only
  refine (modeEvent_works _).owing ?_
  have h1 : Owing n (disableChannels { s with loader := { s.loader with mode := .parked } }) :=
    (disableChannels_works _).owing ⟨h.line, h.answers, h.catchUp, h.queues, h.windows, h.points, h.events, h.outRecord⟩
  split
  · exact h1
  · exact (offerRelease_works _ _ _).owing h1

theorem owing_unpark {n : Nat} {s : Station} (h : Owing n s) : Owing n (unpark s) := by
  unfold unpark
  exact (modeEvent_works _).owing ((tidyMoment_works _ _).owing ((offerMount_works _).owing ((enableChannels_works _).owing
    ⟨h.line, h.answers, h.catchUp, h.queues, h.windows, h.points, h.events, h.outRecord⟩)))

/-! ### Joining -/

theorem owing_abandonAttempt {n : Nat} {s : Station} (h : Owing n s) : Owing n (abandonAttempt s) := by
  have go : ∀ b : Bool, Owing n (if b = true then
      offerJoin { s with replica := { s.replica with service := none, pendingRep := none, catchUp := [] } }
      else { s with replica := { s.replica with service := none, pendingRep := none, catchUp := [], abandoned := true } }) := by
    intro b
    split
    · exact owing_offerJoin (owing_replica h (Nat.zero_le _))
    · exact owing_replica h (Nat.zero_le _)
  exact go _

theorem owing_loadSnapshot {n : Nat} {s : Station} (h : Owing n s) (p : PendingReplica) (k : Nat) : Owing n (loadSnapshot s p k) := by
  unfold loadSnapshot
  refine owing_enterActive ⟨?_, h.answers, h.catchUp, h.queues, h.windows, h.points, h.events, h.outRecord⟩
  exact ⟨h.line.control, h.line.release, h.line.report, h.line.points, h.line.vetoLog, h.line.controlClass, h.line.reportClass,
    h.line.thermalClass, h.line.waitingClass⟩

theorem Owing.weaken {n m : Nat} {s : Station} (h : Owing n s) (hm : m ≤ n) : Owing m s :=
  ⟨h.line, by have := h.answers; omega, h.catchUp, h.queues, h.windows, h.points, h.events, h.outRecord⟩

theorem owing_takeSnapEnd {s : Station} (h : Owing 0 s) (hd : Hdr) (jn count : Nat) (fp : Print) : Owing 0 (takeSnapEnd s hd jn count fp) := by
  unfold takeSnapEnd
  split
  · split
    · split
      · exact owing_enterShut h _
      · split
        · exact owing_abandonAttempt h
        · exact owing_loadSnapshot h _ _
    · exact h
  · exact h

theorem owing_takeSnapBegin {s : Station} (h : Owing 0 s) (hd : Hdr) (purpose : SnapPurpose) (jn : Nat) (fp : Print) (entries : Nat) :
    Owing 0 (takeSnapBegin s hd purpose jn fp entries) := by
  have h1 : Owing 0 { s with replica := { s.replica with snapBeginSeen := true } } := owing_replica h h.catchUp
  unfold takeSnapBegin
  split
  · exact h
  · simp only
    split
    · split
      · exact owing_enterShut h1 _
      · exact h1
    · split
      · exact owing_replica h1 h1.catchUp
      · exact h1

theorem owing_takeEntry {n : Nat} {s : Station} (h : Owing n s) (hd : Hdr) (jn : Nat) (c : SnapContent) : Owing n (takeEntry s hd jn c) := by
  unfold takeEntry
  split
  · split
    · exact owing_replica h h.catchUp
    · exact h
  · exact h

theorem lineOk_count {lp : LinePort} (lc : Option Nat) (jo : Nat) (hd : List Heard) (h : LineOk lp) :
    LineOk { lp with lineCount := lc, joinOffset := jo, heard := hd } :=
  ⟨h.control, h.release, h.report, h.points, h.vetoLog, h.controlClass, h.reportClass, h.thermalClass, h.waitingClass⟩

theorem owing_takeForm {s : Station} (h : Owing 0 s) (hd : Hdr) (fp : Print) (mask : StationMask) : Owing 0 (takeForm s hd fp mask) := by
  unfold takeForm
  split
  · exact h
  · simp only
    have h1 : Owing 0 { setTabs s (formedReplica (cellOf s) fp mask) with
        line := { s.line with lineCount := some 0, heard := formHeard s.now mask s.line.heard } } :=
      owing_line (owing_setTabs h _) (lineOk_count _ _ _ h.line) rfl rfl
    split
    · exact owing_enterShut h1 _
    · split
      · exact owing_enterActive h1
      · exact owing_offerJoin (owing_line (owing_setTabs h _) (lineOk_count _ _ _ h.line) rfl rfl)

theorem owing_takeJoining {s : Station} (h : Owing 0 s) (f : Frame) : Owing 0 (takeJoining s f) := by
  unfold takeJoining
  split
  · exact owing_takeForm h _ _ _
  · simp only
    have h1 : ∀ r, Owing 0 (setTabs s r) := fun r => owing_setTabs h r
    split
    · exact owing_replica (h1 _) (Nat.zero_le _)
    · split
      · exact owing_abandonAttempt (h1 _)
      · exact h1 _
  · split
    · exact owing_abandonAttempt h
    · exact h
  · exact owing_takeSnapBegin h _ _ _ _ _
  · exact owing_takeEntry h _ _ _
  · exact owing_takeSnapEnd h _ _ _ _
  · exact h

theorem owing_keepFrame {n : Nat} {s : Station} (h : Owing n s) (f : Frame) : Owing n (keepFrame s f) := by
  unfold keepFrame
  split
  · split
    · rename_i hl
      refine owing_replica h ?_
      simp only [Config.catchUpPlaces] at hl
      simp only [List.length_append, List.length_singleton]
      omega
    · exact owing_abandonAttempt h
  · exact h

/-! ### Completed frames -/

theorem owing_react {n : Nat} {s : Station} (before : Replica) (f : Frame) (fx : Fx) (h : Owing n s) : Owing n (react before s f fx) := by
  unfold react
  simp only
  refine owing_foldl _ (fun t x ht => (reportCondition_works t x).owing ht) _ ?_
  refine (mountApplied_works _ _ _ _).owing ((closingApplied_works _ _ _).owing ((changeApplied_works _ _ _).owing ?_))
  exact owing_rackApplied _ _ _ ((claimApplied_works _ _ _).owing ((withdrawStale_works _).owing (owing_servingApplied _ _ h)))

theorem owing_applyLive {s : Station} (h : Owing 0 s) (f : Frame) : Owing 0 (applyLive s f) := by
  unfold applyLive
  simp only
  split
  · exact owing_enterOut (owing_setTabs h _) _
  · exact owing_react _ _ _ (owing_setTabs h _)

theorem lineOk_window {lp : LinePort} (w : Option Window) (h : LineOk lp) : LineOk { lp with window := w } :=
  ⟨h.control, h.release, h.report, h.points, h.vetoLog, h.controlClass, h.reportClass, h.thermalClass, h.waitingClass⟩

/-- What recording a window leaves as it is; stated as an equation so that no proof unfolds the record. -/
theorem recordWindow_eq (lp : LinePort) (b : Bool) : recordWindow lp b = { lp with vetoLog := (recordWindow lp b).vetoLog } := by
  simp only [recordWindow]

/-- The window that has closed clean leaves its reservation to the request delivered with it (R5, R7). -/
theorem owing_closeClean {s : Station} (h : Owing 0 s) : Owing (windowReserves s.line.window) (closeClean s) := by
  have hw := lineOk_window none (recordWindow_ok s.line false h.line)
  unfold closeClean
  rw [recordWindow_eq] at hw ⊢
  generalize (recordWindow s.line false).vetoLog = l at hw ⊢
  refine ⟨hw, ?_, h.catchUp, h.queues, h.windows, h.points, h.events, h.outRecord⟩
  have := h.answers
  show s.request.delivered.length + 0 + windowReserves s.line.window ≤ s.line.reserved
  omega

theorem owing_countFrame {n : Nat} {s : Station} (h : Owing n s) : Owing n (countFrame s) :=
  owing_line h (lineOk_count _ _ _ h.line) rfl rfl

theorem owing_takeCount {n : Nat} {s : Station} (h : Owing n s) (f : Frame) : Owing n (takeCount s f) := by
  have h2 : Owing n (if isOwnJoin s f = true then { countFrame s with line := restartOffsets (countFrame s).line } else countFrame s) := by
    split
    · exact owing_line (owing_countFrame h) (lineOk_count _ _ _ (owing_countFrame h).line) rfl rfl
    · exact owing_countFrame h
  have h3 : ∀ t, Owing n t → Owing n (noteCell (heardAgain (recordHeard t f.h.sender) f.h.sender) f.h) := by
    intro t ht
    have h4 : Owing n (heardAgain (recordHeard t f.h.sender) f.h.sender) :=
      (withdrawWaiting_works _ _).owing (owing_line ht (lineOk_count _ _ _ ht.line) rfl rfl)
    unfold noteCell
    split
    · exact owing_replica h4 h4.catchUp
    · exact h4
  exact h3 _ h2

theorem owing_deliver {s : Station} (w : Option Window) (h : Owing (windowReserves w) s) (hd : Hdr) (tag : Code) (r : ReqBody) :
    Owing 0 (deliver s w hd tag r) := by
  unfold deliver
  split
  · exact h.weaken (Nat.zero_le _)
  · simp only
    split
    · rename_i v
      split
      · rename_i hr
        refine ⟨h.line, ?_, h.catchUp, h.queues, h.windows, h.points, h.events, h.outRecord⟩
        have := h.answers
        simp only [windowReserves, hr, if_true] at this
        simp only [List.length_append, List.length_singleton]
        unfold windowReserves
        omega
      · exact h.weaken (Nat.zero_le _)
    · split
      · rename_i hf
        have hx := h.answers
        simp only [reportFree, Config.reportEntries] at hf
        refine ⟨⟨h.line.control, h.line.release, ?_, h.line.points, h.line.vetoLog, h.line.controlClass, h.line.reportClass,
          h.line.thermalClass, h.line.waitingClass⟩, ?_, h.catchUp, h.queues, h.windows, h.points, h.events, h.outRecord⟩
        · show reportHeld s.line + (s.line.reserved + 1) ≤ 16
          omega
        · simp only [List.length_append, List.length_singleton]
          omega
      · exact h.weaken (Nat.zero_le _)

theorem owing_handOn {s : Station} (w : Option Window) (h : Owing (windowReserves w) s) (f : Frame) : Owing 0 (handOn s w f) := by
  have h0 : Owing 0 s := h.weaken (Nat.zero_le _)
  unfold handOn
  split
  · exact owing_deliver w h _ _ _
  · split
    · exact owing_takeJoining (owing_keepFrame h0 f) f
    · split
      · exact owing_applyLive h0 f
      · exact h0

theorem removeCompleted_keeps (lp : LinePort) : (removeCompleted lp).reserved = lp.reserved ∧ (removeCompleted lp).window = lp.window := by
  unfold removeCompleted
  split
  · exact ⟨rfl, rfl⟩
  · simp only
    split
    · exact ⟨rfl, rfl⟩
    · exact ⟨rfl, rfl⟩
    · split
      · exact ⟨(updateDrain_works _).reserved, (updateDrain_works _).window⟩
      · exact ⟨(updateDrain_works _).reserved, (updateDrain_works _).window⟩

theorem owing_releaseOwn {s : Station} (h : Owing 0 s) (f : Frame) : Owing 0 (releaseOwn s f) := by
  unfold releaseOwn
  split
  · simp only
    obtain ⟨h1, h2⟩ := removeCompleted_keeps s.line
    have h3 : Owing 0 { s with line := removeCompleted s.line } := owing_line h (removeCompleted_ok _ h.line) h1 h2
    have key : ∀ t, Owing 0 t → Owing 0 (if answersRestart t f.body = true then restart t .requested else t) := by
      intro t ht
      split
      · exact owing_restart ht _
      · exact ht
    refine key _ ?_
    split
    · exact (works_points _ (by simp [freeQueued])).owing h3
    · exact h3
  · exact h

theorem owing_completeFrame {s : Station} (h : Owing 0 s) (f : Frame) : Owing 0 (completeFrame s f) := by
  unfold completeFrame
  split
  · exact h
  · simp only
    split
    · exact owing_releaseOwn (owing_handOn _ (owing_takeCount (owing_closeClean h) f) f) f
    · exact (owing_countFrame (owing_closeClean h)).weaken (Nat.zero_le _)

end Sys2Proof.Laws
end

