-- ==== Sys2Proof/Laws/BoundedCommands.lean ====
section
/-! SUPPORT. `Owing` for the commands of the line, of requests, of the axes and of the timers. -/

namespace Sys2Proof.Laws

open Sys2Proof.Machine

/-! ### The line -/

theorem owing_contend {s : Station} (h : Owing 0 s) : Owing 0 (contend s) := by
  unfold contend
  split
  · rename_i hc
    simp only [Bool.and_eq_true, Option.isNone_iff_eq_none] at hc
    split
    · exact h
    · rename_i c _
      refine owing_line h (beginContending_ok _ _ _ hc.1.2 h.line) ?_ ?_ <;>
        (unfold beginContending; split <;> split <;> rfl)
  · exact h

theorem flight_stage_ok {lp : LinePort} {v w : Flight} (hf : lp.flight = some v) (hw : w.item = v.item) (h : LineOk lp) :
    LineOk { lp with flight := some w } := by
  refine ⟨?_, h.release, ?_, ?_, h.vetoLog, h.controlClass, h.reportClass, h.thermalClass, h.waitingClass⟩
  · have := h.control; simp only [controlHeld, hf] at this; simpa only [controlHeld, hw] using this
  · have := h.report; simp only [reportHeld, flightIn, hf] at this; simpa only [reportHeld, flightIn, hw] using this
  · have := h.points; simp only [pointsHeld, hf] at this; simpa only [pointsHeld, hw] using this

theorem requeueRelease_keeps (lp : LinePort) (o : Outgoing) :
    (requeueRelease lp o).reserved = lp.reserved ∧ (requeueRelease lp o).window = lp.window ∧
      (requeueRelease lp o).retry = lp.retry ∧ (requeueRelease lp o).vetoLog = lp.vetoLog := by
  unfold requeueRelease
  split
  · exact ⟨rfl, rfl, rfl, rfl⟩
  · split <;> exact ⟨rfl, rfl, rfl, rfl⟩

theorem requeue_keeps (lp : LinePort) :
    (requeue lp).reserved = lp.reserved ∧ (requeue lp).window = lp.window ∧ (requeue lp).retry = lp.retry ∧
      (requeue lp).vetoLog = lp.vetoLog := by
  unfold requeue
  split
  · exact ⟨rfl, rfl, rfl, rfl⟩
  · simp only
    split
    · split
      · exact requeueRelease_keeps _ _
      · exact ⟨rfl, rfl, rfl, rfl⟩
    · unfold requeueThermal; split <;> exact ⟨rfl, rfl, rfl, rfl⟩
    · exact ⟨rfl, rfl, rfl, rfl⟩

theorem owing_endPrefix {s : Station} (h : Owing 0 s) (others : List (FrameClass × Nat)) : Owing 0 (endPrefix s others) := by
  unfold endPrefix
  split
  · exact h
  · rename_i v hv
    split
    · split
      · exact owing_line h (requeue_ok _ h.line) (requeue_keeps _).1 (requeue_keeps _).2.1
      · exact owing_line h (flight_stage_ok hv (by rfl) h.line) rfl rfl
    · exact h

theorem lineOk_reserve {lp : LinePort} (hf : 1 ≤ reportFree lp) (h : LineOk lp) : LineOk { lp with reserved := lp.reserved + 1 } := by
  simp only [reportFree, Config.reportEntries] at hf
  refine ⟨h.control, h.release, ?_, h.points, h.vetoLog, h.controlClass, h.reportClass, h.thermalClass, h.waitingClass⟩
  show reportHeld lp + (lp.reserved + 1) ≤ 16
  omega

/-- Moving the own frame into its window keeps every queue. -/
theorem intoWindow_facts (lp : LinePort) (h : LineOk lp) :
    LineOk (intoWindow lp) ∧ (intoWindow lp).reserved = lp.reserved ∧ (intoWindow lp).window = lp.window := by
  unfold intoWindow
  split
  · exact ⟨h, rfl, rfl⟩
  · rename_i v hv
    split
    · exact ⟨flight_stage_ok hv (by rfl) h, rfl, rfl⟩
    · exact ⟨h, rfl, rfl⟩

theorem owing_openWindow {s : Station} (h : Owing 0 s) (hw : s.line.window = none) (bytes : List Byte) : Owing 0 (openWindow s bytes) := by
  unfold openWindow
  simp only
  obtain ⟨ok, hr, hn⟩ := intoWindow_facts s.line h.line
  generalize intoWindow s.line = lp at ok hr hn ⊢
  have ha := h.answers
  simp only [hw, windowReserves] at ha
  have open0 : ∀ w : Window, w.reserved = false → Owing 0 { s with line := { lp with window := some w } } := by
    intro w hwr
    refine ⟨lineOk_window _ ok, ?_, h.catchUp, h.queues, h.windows, h.points, h.events, h.outRecord⟩
    simp only [windowReserves, hwr, hr]
    simpa using ha
  split
  · exact open0 _ rfl
  · exact open0 _ rfl
  · split
    · split
      · rename_i hf
        refine ⟨lineOk_window _ (lineOk_reserve hf ok), ?_, h.catchUp, h.queues, h.windows, h.points, h.events, h.outRecord⟩
        simp only [windowReserves, hr, if_true]
        omega
      · exact open0 _ rfl
    · exact open0 _ rfl

theorem owing_receiveFrame {s : Station} (h : Owing 0 s) (bytes : List Byte) : Owing 0 (receiveFrame s bytes) := by
  unfold receiveFrame
  split
  · rename_i hc
    simp only [Bool.and_eq_true, Option.isNone_iff_eq_none] at hc
    exact owing_openWindow h hc.2 bytes
  · exact h

theorem lineOk_reserved_less {lp : LinePort} {k : Nat} (hk : k ≤ lp.reserved) (h : LineOk lp) : LineOk { lp with reserved := k } := by
  refine ⟨h.control, h.release, ?_, h.points, h.vetoLog, h.controlClass, h.reportClass, h.thermalClass, h.waitingClass⟩
  have := h.report
  show reportHeld lp + k ≤ 16
  omega

theorem lineOk_retry {lp : LinePort} (k : Nat) (h : LineOk lp) : LineOk { lp with retry := k } :=
  ⟨h.control, h.release, h.report, h.points, h.vetoLog, h.controlClass, h.reportClass, h.thermalClass, h.waitingClass⟩

theorem owing_afterVeto {s : Station} (h : Owing 0 s) : Owing 0 { s with line := afterVeto s.line } := by
  have ha := h.answers
  have ok := recordWindow_ok s.line (checkVetoed s.line.window) h.line
  unfold afterVeto
  rw [recordWindow_eq] at ok ⊢
  generalize (recordWindow s.line (checkVetoed s.line.window)).vetoLog = l at ok ⊢
  generalize hk : s.line.reserved - windowReserves s.line.window = k
  refine ⟨lineOk_window none (lineOk_reserved_less (lp := { s.line with vetoLog := l }) (by show k ≤ s.line.reserved; omega) ok), ?_,
    h.catchUp, h.queues, h.windows, h.points, h.events, h.outRecord⟩
  show s.request.delivered.length + 0 + 0 ≤ k
  omega

theorem owing_closeVetoed {s : Station} (h : Owing 0 s) : Owing 0 (closeVetoed s) := by
  have h1 := owing_afterVeto h
  unfold closeVetoed
  split
  · obtain ⟨k1, k2, _, _⟩ := requeue_keeps (afterVeto s.line)
    exact owing_line h1 (lineOk_retry _ (requeue_ok _ h1.line)) k1 k2
  · exact h1

theorem owing_windowVetoed {s : Station} (h : Owing 0 s) : Owing 0 (windowVetoed s) := by
  unfold windowVetoed
  split
  · simp only
    split
    · exact owing_enterOut (owing_closeVetoed h) _
    · split
      · exact owing_enterOut (owing_closeVetoed h) _
      · exact owing_closeVetoed h
  · exact h

theorem owing_malformedFrame {s : Station} (h : Owing 0 s) : Owing 0 (malformedFrame s) := by
  unfold malformedFrame
  split
  · exact h
  · exact (owing_countFrame (owing_closeClean h)).weaken (Nat.zero_le _)

theorem owing_thermalAged {s : Station} (h : Owing 0 s) : Owing 0 (thermalAged s) := by
  unfold thermalAged
  split
  · split
    · exact h
    · exact owing_now h _
  · exact h

theorem owing_reofferFrom {s : Station} (src : CtlSource) (k : Nat) (h : Owing 0 s) : Owing 0 (reofferFrom src k s) := by
  induction k generalizing s with
  | zero => exact h
  | succ k ih =>
    unfold reofferFrom
    split
    · exact h
    · rename_i w hw
      split
      · rename_i ht
        have hc := h.line.waitingClass w (List.mem_of_find?_eq_some hw)
        have wk := enqueueControl_works s.line w.item hc.1 hc.2 ((takesControl_iff _).mp ht)
        have ok := wk.ok h.line
        have h1 : Owing 0 { s with line := { enqueueControl s.line w.item with waiting := s.line.waiting.erase w } } := by
          refine owing_line h ?_ rfl rfl
          exact ⟨ok.control, ok.release, ok.report, ok.points, ok.vetoLog, ok.controlClass, ok.reportClass, ok.thermalClass,
            fun v hv => h.line.waitingClass v (List.mem_of_mem_erase hv)⟩
        refine ih ?_
        split
        · exact (works_outstanding _ _).owing h1
        · exact h1
      · exact h

theorem owing_silenceLimit {s : Station} (k : Nat) (h : Owing 0 s) : Owing 0 (silenceLimit s k) := by
  unfold silenceLimit
  simp only
  split
  · split
    · split
      · exact owing_now h _
      · refine (offerControl_works _ _ _ _ rfl rfl).owing ?_
        exact ⟨h.line, h.answers, h.catchUp, h.queues, h.windows, h.points, h.events, h.outRecord⟩
    · exact h
  · exact h

/-! ### Requests -/

/-- The request taken leaves one answer owed (R5, R158). -/
theorem owing_takeRequest {s : Station} {src : Nat} {tag : Code} {b : ReqBody} (hn : Machine.isNext s src tag b = true) (h : Owing 0 s) :
    Owing 1 (takeRequest s) := by
  refine ⟨h.line, ?_, h.catchUp, h.queues, h.windows, h.points, h.events, h.outRecord⟩
  have ha := h.answers
  simp only [Machine.isNext, Bool.and_eq_true, beq_iff_eq] at hn
  cases hd : s.request.delivered with
  | nil => rw [hd] at hn; exact absurd hn.2 (by simp)
  | cons d r =>
    rw [hd] at ha
    simp only [takeRequest, hd, List.drop_succ_cons, List.drop_zero]
    simp only [List.length_cons] at ha
    omega

theorem owing_answer {s : Station} (src : Nat) (a : AnswerBody) (h : Owing 1 s) : Owing 0 (answer s src a) := by
  have ha := h.answers
  have hk : (answerInto s.line ⟨src, .answer a⟩).reserved = s.line.reserved - 1 ∧
      (answerInto s.line ⟨src, .answer a⟩).window = s.line.window :=
    ⟨(updateDrain_works _).reserved, (updateDrain_works _).window⟩
  refine ⟨answerInto_ok _ _ rfl rfl (by omega) h.line, ?_, h.catchUp, h.queues, h.windows, h.points, h.events, h.outRecord⟩
  simp only [answer]
  rw [hk.1, hk.2]
  omega

theorem owing_refuse {s : Station} (src : Nat) (tag : Code) (code : Nat) (r : Reason) (h : Owing 1 s) : Owing 0 (refuse s src tag code r) :=
  owing_answer _ _ h

theorem owing_accept {s : Station} (src : Nat) (tag : Code) (code acc : Nat) (h : Owing 1 s) : Owing 0 (accept s src tag code acc) :=
  owing_answer _ _ h

theorem owing_decide {s : Station} (src : Nat) (tag : Code) (code acc : Nat) (checks : List (Bool × Reason)) (effect : Station → Station)
    (he : firstFailing checks = none → Owing 1 (effect s)) (h : Owing 1 s) :
    Owing 0 (decideRequest s src tag code acc checks effect) := by
  unfold decideRequest
  split
  · exact owing_refuse _ _ _ _ h
  · rename_i hf
    exact owing_accept _ _ _ _ (he hf)

/-- No check of a list fails. -/
theorem firstFailing_none {l : List (Bool × Reason)} (h : firstFailing l = none) : ∀ x ∈ l, x.1 = true := by
  induction l with
  | nil => intro x hx; cases hx
  | cons a r ih =>
    obtain ⟨ok, re⟩ := a
    unfold firstFailing at h
    split at h
    · rename_i hk
      intro x hx
      rcases List.mem_cons.mp hx with rfl | hx
      · exact hk
      · exact ih h x hx
    · cases h

theorem takeSegment_works (c : ChanId) (k : SegKind) (tag : Code) (recovery : Bool) (speed : Nat) (s : Station)
    (h : (chan s c).queue.length < 16) : Works s (takeSegment c k tag recovery speed s) :=
  Works.trans (enqueueSegment_works s c k _ recovery speed h) (chooseLead_works _)

/-- Check 7 of R160 leaves a place in the channel's queue. -/
theorem room_of_checks {s : Station} {c : ChanId} {l : List (Bool × Reason)} (hf : firstFailing l = none)
    (hm : (decide ((chan s c).queue.length < Config.segmentPlaces), Reason.queueFull) ∈ l) : (chan s c).queue.length < 16 := by
  have := firstFailing_none hf _ hm
  simpa [Config.segmentPlaces] using this

theorem owing_requestMove {s : Station} (src : Nat) (tag : Code) (t : Vec3) (speed recovery : Nat) (h : Owing 1 s) :
    Owing 0 (requestMove s src tag t speed recovery) :=
  owing_decide _ _ _ _ _ _ (fun hf => (takeSegment_works _ _ _ _ _ _
    (room_of_checks (c := .arm) hf (by simp [moveChecks, queueChecks]))).owing h) h

theorem owing_requestTouch {s : Station} (src : Nat) (tag : Code) (t : TouchArgs) (h : Owing 1 s) : Owing 0 (requestTouch s src tag t) :=
  owing_decide _ _ _ _ _ _ (fun hf => (takeSegment_works _ _ _ _ _ _
    (room_of_checks (c := .arm) hf (by simp [touchChecks, queueChecks]))).owing h) h

theorem owing_requestHome {s : Station} (src : Nat) (tag : Code) (n : Nat) (h : Owing 1 s) : Owing 0 (requestHome s src tag n) := by
  refine owing_decide _ _ _ _ _ _ (fun hf => ?_) h
  cases hc : homeChan n with
  | none =>
    rw [hc] at hf
    have := firstFailing_none hf (false, .badArg) (by simp [homeChecks])
    cases this
  | some c =>
    rw [hc] at hf
    exact (takeSegment_works _ _ _ _ _ _ (room_of_checks (c := c) hf (by simp [homeChecks, queueChecks]))).owing h

theorem owing_requestIndex {s : Station} (src : Nat) (tag : Code) (a : Nat) (b : Int) (h : Owing 1 s) :
    Owing 0 (requestIndex s src tag a b) :=
  owing_decide _ _ _ _ _ _ (fun hf => (takeSegment_works _ _ _ _ _ _
    (room_of_checks (c := .head) hf (by simp [indexChecks, queueChecks]))).owing h) h

theorem haltAll_works (s : Station) (cs : List ChanId) : Works s (haltAll s cs) := by
  unfold haltAll
  simp only
  refine Works.trans ?_ (Works.trans (changeHalt_works _) (chooseLead_works _))
  have key : ∀ a b : Bool, Works s (if b = true then haltChan (if a = true then haltChan s .arm else s) .head
      else (if a = true then haltChan s .arm else s)) := by
    intro a b
    have h1 : Works s (if a = true then haltChan s .arm else s) := by
      split
      · exact haltChan_works _ _
      · exact Works.refl s
    split
    · exact Works.trans h1 (haltChan_works _ _)
    · exact h1
  exact key _ _

theorem owing_requestHalt {s : Station} (src : Nat) (tag : Code) (sel : Nat) (h : Owing 1 s) : Owing 0 (requestHalt s src tag sel) :=
  owing_decide _ _ _ _ _ _ (fun _ => (haltAll_works _ _).owing h) h

theorem owing_requestClear {s : Station} (src : Nat) (tag : Code) (sel : Nat) (h : Owing 1 s) : Owing 0 (requestClear s src tag sel) := by
  have h1 : Owing 1 (chooseLead ((selected sel).foldl clearChan s)) :=
    (Works.trans (foldl_works _ clearChan_works _ s) (chooseLead_works _)).owing h
  unfold requestClear
  split
  · exact owing_refuse _ _ _ _ h
  · simp only
    split
    · exact owing_refuse _ _ _ _ h1
    · exact owing_accept _ _ _ _ h1

theorem owing_requestPark {s : Station} (src : Nat) (tag : Code) (h : Owing 1 s) : Owing 0 (requestPark s src tag) := by
  refine owing_decide _ _ _ _ _ _ (fun _ => ?_) h
  split
  · exact h
  · exact owing_park h

theorem owing_requestUnpark {s : Station} (src : Nat) (tag : Code) (h : Owing 1 s) : Owing 0 (requestUnpark s src tag) := by
  refine owing_decide _ _ _ _ _ _ (fun _ => ?_) h
  split
  · exact owing_unpark h
  · exact h

theorem owing_requestChange {s : Station} (src : Nat) (tag : Code) (t : Nat) (h : Owing 1 s) : Owing 0 (requestChange s src tag t) :=
  owing_decide _ _ _ _ _ _ (fun _ => (startChange_works _ _ _ _ _).owing h) h

theorem controlHeld_enqueue (lp : LinePort) (o : Outgoing) (hr : Body.isRelease o.body = false) :
    controlHeld (enqueueControl lp o) = controlHeld lp + 1 := by
  simp [controlHeld, enqueueControl, hr]; omega

theorem offerQualification_works (x i n : Nat) (t : Tip) (s : Station)
    (hh : controlHeld s.line + (if i = n then 2 else 1) ≤ 7) : Works s (offerQualification x i n t s) := by
  unfold offerQualification
  simp only
  have h1 : Works s { s with line := enqueueControl s.line ⟨0, .qualPart x i n { t with stale := false }⟩ } :=
    works_line s (enqueueControl_works _ _ rfl rfl (by split at hh <;> omega))
  split
  · rename_i hi
    refine Works.trans h1 (works_line _ (enqueueControl_works _ _ rfl rfl ?_))
    rw [controlHeld_enqueue _ _ rfl]
    rw [if_pos hi] at hh
    omega
  · exact h1

theorem owing_requestQualify {s : Station} (src : Nat) (tag : Code) (x i n : Nat) (t : Tip) (h : Owing 1 s) :
    Owing 0 (requestQualify s src tag x i n t) := by
  refine owing_decide _ _ _ _ _ _ (fun hf => (offerQualification_works _ _ _ _ _ ?_).owing h) h
  have := firstFailing_none hf (decide (controlHeld s.line + (if i = n then 2 else 1) ≤ Config.controlPlaces), .queueFull)
    (by simp [qualifyChecks])
  simpa [Config.controlPlaces] using this

theorem owing_clearLosses {n : Nat} {s : Station} (h : Owing n s) : Owing n (clearLosses s) :=
  ⟨h.line, h.answers, h.catchUp, h.queues, h.windows, h.points, h.events, h.outRecord⟩

theorem owing_requestStatus {s : Station} (src : Nat) (tag : Code) (page : Nat) (h : Owing 1 s) :
    Owing 0 (requestStatus s src tag page) := by
  have give : ∀ t bytes, Owing 1 t → Owing 0 (answer (clearLosses t) src ⟨tag, 11, true, 0, 0, bytes⟩) :=
    fun t bytes ht => owing_answer _ _ (owing_clearLosses ht)
  unfold requestStatus
  simp only
  split
  · refine give _ _ ?_
    unfold shownCount
    split
    · exact h
    · exact owing_free h _
  · exact give _ _ h
  · exact give _ _ h
  · exact owing_refuse _ _ _ _ h

theorem owing_requestRestart {s : Station} (src : Nat) (tag : Code) (g : Nat) (h : Owing 1 s) : Owing 0 (requestRestart s src tag g) :=
  owing_decide _ _ _ _ _ _ (fun _ => ⟨h.line, h.answers, h.catchUp, h.queues, h.windows, h.points, h.events, h.outRecord⟩) h

theorem owing_requestUnknown {s : Station} (src : Nat) (tag : Code) (code : Nat) (h : Owing 1 s) :
    Owing 0 (requestUnknown s src tag code) := owing_refuse _ _ _ _ h

/-! ### Motion -/

theorem owing_grantCredit {s : Station} (enc : Counts) (h : Owing 0 s) : Owing 0 (grantCredit s enc) := by
  unfold grantCredit
  split
  · exact h
  · split
    · exact (Works.trans (setState_works _ _ _) (chooseLead_works _)).owing (owing_readEncoders h enc)
    · exact h

theorem startHeld_works (s : Station) (c : ChanId) : Works s (startHeld s c) := by
  unfold startHeld
  split
  · split
    · exact startMotion_works _ _ _
    · exact Works.refl s
  · exact Works.refl s

theorem owing_capturePoint {n : Nat} {s : Station} (d : PointData) (h : Owing n s) : Owing n (capturePoint s d) :=
  ⟨h.line, h.answers, h.catchUp, h.queues, h.windows, by simp [capturePoint, updFirst_length, h.points], h.events, h.outRecord⟩

theorem owing_armTrigger {s : Station} (g : Segment) (enc : Counts) (h : Owing 0 s) : Owing 0 (armTrigger s g enc) := by
  unfold armTrigger
  split
  · simp only
    refine (setHead_works _ _ _).owing ?_
    split
    · exact owing_capturePoint _ h
    · exact h
  · exact h
  · exact (collide_works _ _).owing h

theorem owing_assertTrigger {s : Station} (enc : Counts) (h : Owing 0 s) : Owing 0 (assertTrigger s enc) := by
  unfold assertTrigger
  split
  · exact h
  · split
    · exact ⟨h.line, h.answers, h.catchUp, h.queues, h.windows, h.points, h.events, h.outRecord⟩
    simp only
    have h1 : Owing 0 { readEncoders s enc with
        pins := { (readEncoders s enc).pins with trigger := true }
        touch := { (readEncoders s enc).touch with latch := some (readEncoders s enc).motion.enc } } :=
      ⟨h.line, h.answers, h.catchUp, h.queues, h.windows, h.points, h.events, h.outRecord⟩
    split
    · exact (collide_works _ _).owing h1
    · split
      · split
        · exact h1
        · exact owing_armTrigger _ _ h1
      · exact h1

theorem owing_endApproach {s : Station} (enc : Counts) (h : Owing 0 s) : Owing 0 (endApproach s enc) := by
  unfold endApproach
  split
  · exact h
  · split
    · simp only
      have h1 := owing_readEncoders h enc
      split
      · exact (Works.trans (haltNow_works _ .arm .probeUnusable) (chooseLead_works _)).owing h1
      · split
        · exact (collide_works _ _).owing h1
        · exact (setHead_works _ _ _).owing h1
    · exact h

theorem owing_missTouch {s : Station} (enc : Counts) (h : Owing 0 s) : Owing 0 (missTouch s enc) := by
  unfold missTouch
  split
  · exact h
  · split
    · exact (Works.trans (returnCredit_works _ _) (Works.trans (setHead_works _ .arm _) (giveEvent_works _ _))).owing
        (owing_readEncoders h enc)
    · exact h

theorem owing_segmentDone {s : Station} (c : ChanId) (enc : Counts) (h : Owing 0 s) : Owing 0 (segmentDone s c enc) := by
  unfold segmentDone
  split
  · exact h
  · rename_i g _
    split
    · simp only
      have h1 : Owing 0 (chooseLead (completeSegment (readEncoders s enc) c g)) :=
        (Works.trans (completeSegment_works _ _ _) (chooseLead_works _)).owing (owing_readEncoders h enc)
      refine (chooseLead_works _).owing ?_
      split
      · exact (changeSegmentEnd_works _).owing h1
      · exact h1
    · exact h

theorem owing_stopDone {s : Station} (c : ChanId) (enc : Counts) (h : Owing 0 s) : Owing 0 (stopDone s c enc) := by
  unfold stopDone
  split
  · exact h
  · rename_i g _
    split
    · simp only
      have h1 : Owing 0 (endStop (readEncoders s enc) c g) := (endStop_works _ _ _).owing (owing_readEncoders h enc)
      refine (chooseLead_works _).owing ?_
      split
      · exact (changeSegmentEnd_works _).owing h1
      · exact h1
    · exact h

theorem owing_findMark {s : Station} (ax : Axis) (h : Owing 0 s) : Owing 0 (findMark s ax) := by
  unfold findMark
  simp only
  split
  · exact h
  · split
    · exact (setHead_works _ _ _).owing (owing_motion h h.queues)
    · exact h

theorem owing_followingStall {s : Station} (ax : Axis) (enc : Counts) (h : Owing 0 s) : Owing 0 (followingStall s ax enc) := by
  unfold followingStall
  split
  · exact h
  · exact (stall_works _ _ _).owing (owing_readEncoders h enc)

theorem owing_quadratureError {s : Station} (ax : Axis) (enc : Counts) (h : Owing 0 s) : Owing 0 (quadratureError s ax enc) := by
  unfold quadratureError
  split
  · exact h
  · exact (Works.trans (works_homed _ _) (stall_works _ _ _)).owing (owing_readEncoders h enc)

theorem owing_assertFault {s : Station} (ax : Axis) (h : Owing 0 s) : Owing 0 (assertFault s ax) := by
  unfold assertFault
  split
  · exact h
  · simp only
    split
    · exact ⟨h.line, h.answers, h.catchUp, h.queues, h.windows, h.points, h.events, h.outRecord⟩
    · exact ⟨h.line, h.answers, h.catchUp, h.queues, h.windows, h.points, h.events, h.outRecord⟩

theorem owing_countFault {s : Station} (ax : Axis) (enc : Counts) (h : Owing 0 s) : Owing 0 (countFault s ax enc) := by
  unfold countFault
  split
  · exact h
  · rename_i t _
    simp only
    have h1 := owing_readEncoders (owing_atDue h (t + (ownOf s).filter)) enc
    have h2 : Owing 0 { readEncoders (atDue s (t + (ownOf s).filter)) enc with
        motion := { (readEncoders (atDue s (t + (ownOf s).filter)) enc).motion with
          fault := (readEncoders (atDue s (t + (ownOf s).filter)) enc).motion.fault.set true ax
          filter := (readEncoders (atDue s (t + (ownOf s).filter)) enc).motion.filter.set none ax } } := owing_motion h1 h1.queues
    split
    · exact (stall_works _ _ _).owing h2
    · exact h2

theorem owing_releaseFault {s : Station} (ax : Axis) (h : Owing 0 s) : Owing 0 (releaseFault s ax) :=
  ⟨h.line, h.answers, h.catchUp, h.queues, h.windows, h.points, h.events, h.outRecord⟩

/-! ### Rack, coupling and timers -/

theorem owing_presenceMoved {s : Station} (p : Nat) (present : Bool) (code : Option Code) (h : Owing 0 s) :
    Owing 0 (presenceMoved s p present code) := by
  unfold presenceMoved
  split
  · exact h
  · simp only
    split
    · exact ⟨h.line, h.answers, h.catchUp, h.queues, h.windows, h.points, h.events, h.outRecord⟩
    · exact ⟨h.line, h.answers, h.catchUp, h.queues, h.windows, h.points, h.events, h.outRecord⟩

theorem owing_lockDelayOver {s : Station} (p : Nat) (h : Owing 0 s) : Owing 0 (lockDelayOver s p) := by
  unfold lockDelayOver
  split
  · exact h
  · rename_i due _
    simp only
    have h1 : Owing 0 (setRackPort (atDue s due) p { rackPort s p with lockDue := none }) := owing_setRackPort (owing_atDue h due) _ _
    split
    · exact (reportRack_works _ _).owing (owing_setRackPort h1 _ _)
    · exact h1

theorem owing_sensorMoved {s : Station} (held : Bool) (code : Option Code) (h : Owing 0 s) : Owing 0 (sensorMoved s held code) := by
  have h1 : Owing 0 { s with pins := { s.pins with sensor := held, headIdent := code } } := owing_pins h _
  unfold sensorMoved
  simp only
  split
  · exact (works_change _ _).owing h1
  · split
    · exact h1
    · split
      · split
        · exact h1
        · exact (depositDone_works _).owing h1
      · split
        · exact (engageDone_works _).owing h1
        · exact h1
      · exact h1

theorem owing_couplingOver {s : Station} (h : Owing 0 s) : Owing 0 (couplingOver s) := by
  unfold couplingOver
  split
  · exact h
  · rename_i due _
    simp only
    refine (failByRack_works _ _).owing ?_
    split
    · exact (works_change _ _).owing (owing_atDue h due)
    · exact owing_atDue h due

theorem owing_unlockOver {s : Station} (h : Owing 0 s) : Owing 0 (unlockOver s) := by
  unfold unlockOver
  split
  · exact h
  · exact (failByRack_works _ _).owing (owing_atDue h _)

theorem owing_confirmOver {s : Station} (h : Owing 0 s) : Owing 0 (confirmOver s) := by
  unfold confirmOver
  split
  · exact h
  · exact (failByRack_works _ _).owing (owing_atDue h _)

theorem owing_lateOver {s : Station} (seq : Nat) (h : Owing 0 s) : Owing 0 (lateOver s seq) := by
  unfold lateOver
  split
  · exact h
  · exact (closePoints_works _ _ _).owing (owing_atDue h _)

theorem owing_sampleNow {s : Station} (ohms : List Nat) (h : Owing 0 s) : Owing 0 (sampleNow s ohms) := by
  unfold sampleNow
  split
  · exact h
  · rename_i due _
    exact ⟨h.line, h.answers, h.catchUp, h.queues, sampleInputs_windows (atDue s due) ohms h.windows, h.points, h.events, h.outRecord⟩

theorem owing_periodOver {s : Station} (h : Owing 0 s) : Owing 0 (periodOver s) := by
  unfold periodOver
  split
  · exact h
  · exact owing_composeThermal (owing_atDue h _)

theorem owing_formWaitOver {s : Station} (h : Owing 0 s) : Owing 0 (formWaitOver s) := by
  unfold formWaitOver
  split
  · exact h
  · rename_i due _
    simp only
    have h1 : Owing 0 { atDue s due with replica := { s.replica with formWait := none } } :=
      ⟨h.line, h.answers, h.catchUp, h.queues, h.windows, h.points, h.events, h.outRecord⟩
    split
    · exact (offerControl_works _ _ _ _ rfl rfl).owing h1
    · exact h1

theorem owing_joinRetryOver {s : Station} (h : Owing 0 s) : Owing 0 (joinRetryOver s) := by
  unfold joinRetryOver
  split
  · exact h
  · rename_i due _
    simp only
    have h1 : Owing 0 { atDue s due with replica := { s.replica with joinRetry := none } } :=
      ⟨h.line, h.answers, h.catchUp, h.queues, h.windows, h.points, h.events, h.outRecord⟩
    split
    · exact h1
    · split
      · exact owing_offerJoin h1
      · split
        · exact h1
        · split
          · exact owing_offerJoin h1
          · exact ⟨h1.line, h1.answers, h1.catchUp, h1.queues, h1.windows, h1.points, h1.events, h1.outRecord⟩

theorem owing_setStraps {n : Nat} {s : Station} (h : Owing n s) (straps : Nat) : Owing n (setStraps s straps) :=
  ⟨h.line, h.answers, h.catchUp, h.queues, h.windows, h.points, h.events, h.outRecord⟩

theorem owing_holdOffOver {s : Station} (h : Owing 0 s) (straps : Nat) : Owing 0 (holdOffOver s straps) := by
  unfold holdOffOver
  split
  · exact h
  · split
    · exact owing_restart (owing_setStraps (owing_atDue h _) straps) _
    · exact h

/-! ### Every command -/

/-- A meaning is a change of the station: it answers a next state with the queue as it was. -/
theorem onStation_eq (f : Station → Station) (s : State) : onStation f s = .next { s with stn := f s.stn } := rfl

end Sys2Proof.Laws
end

