-- ==== Sys2Proof/Laws/Live.lean ====
section
/-! SUPPORT. A completed frame at a station in ACTIVE or PARKED mode (R7, R9, R10, R22): what the reactions of the units leave as it
is, and the line count, the last-heard table and the shared tables after the frame. -/

namespace Sys2Proof.Laws

open Sys2Proof.Machine

/-- All that the units can do in reaction to an application: the tables, the counts of the line and what the outside sets stay. -/
structure Reacts (s t : Station) : Prop where
  now : t.now = s.now
  pins : t.pins = s.pins
  loader : t.loader = s.loader
  thermal : t.thermal = s.thermal
  freeUsed : t.freeUsed = s.freeUsed
  enc : t.motion.enc = s.motion.enc
  nextSeq : t.touch.nextSeq = s.touch.nextSeq
  latch : t.touch.latch = s.touch.latch
  delivered : t.request.delivered = s.request.delivered
  restartPending : t.request.restartPending = s.request.restartPending
  line : LineWorks s.line t.line
  tables : t.replica.tables = s.replica.tables
  joinNumber : t.replica.joinNumber = s.replica.joinNumber
  pendingRep : t.replica.pendingRep = s.replica.pendingRep
  noticed : t.replica.noticed = s.replica.noticed
  rack : t.rack.length = s.rack.length

theorem Reacts.refl (s : Station) : Reacts s s :=
  ⟨rfl, rfl, rfl, rfl, rfl, rfl, rfl, rfl, rfl, rfl, LineWorks.refl _, rfl, rfl, rfl, rfl, rfl⟩

theorem Reacts.trans {s t u : Station} (h : Reacts s t) (k : Reacts t u) : Reacts s u :=
  ⟨k.now.trans h.now, k.pins.trans h.pins, k.loader.trans h.loader, k.thermal.trans h.thermal, k.freeUsed.trans h.freeUsed,
   k.enc.trans h.enc, k.nextSeq.trans h.nextSeq, k.latch.trans h.latch, k.delivered.trans h.delivered,
   k.restartPending.trans h.restartPending, h.line.trans k.line, k.tables.trans h.tables, k.joinNumber.trans h.joinNumber,
   k.pendingRep.trans h.pendingRep, k.noticed.trans h.noticed, k.rack.trans h.rack⟩

theorem Works.reacts {s t : Station} (w : Works s t) : Reacts s t :=
  ⟨w.now, w.pins, w.loader, w.thermal, w.freeUsed, w.enc, w.nextSeq, w.latch, w.delivered, w.restartPending, w.line,
   by rw [w.replica], by rw [w.replica], by rw [w.replica], by rw [w.replica], by rw [w.rack]⟩

theorem reacts_rack (s : Station) (p : Nat) (v : RackPort) : Reacts s (setRackPort s p v) :=
  ⟨rfl, rfl, rfl, rfl, rfl, rfl, rfl, rfl, rfl, rfl, LineWorks.refl _, rfl, rfl, rfl, rfl, set1_length _ _ _⟩

theorem rackPortApplied_reacts (before : Replica) (f : Frame) (took : Bool) (s : Station) (p : Nat) :
    Reacts s (rackPortApplied before f took s p) := by
  have key : ∀ a b c : Bool, Reacts s (if a = true then reportRack (setLock s p .unlocked) p
      else if b = true then reportRack (setLock s p .locked) p else if c = true then reportRack s p else s) := by
    intro a b c
    split
    · exact (reacts_rack s p _).trans (reportRack_works _ _).reacts
    · split
      · exact (reacts_rack s p _).trans (reportRack_works _ _).reacts
      · split
        · exact (reportRack_works _ _).reacts
        · exact Reacts.refl s
  exact key _ _ _

theorem reacts_foldl {α : Type} (f : Station → α → Station) (hf : ∀ s a, Reacts s (f s a)) (l : List α) (s : Station) :
    Reacts s (l.foldl f s) := by
  induction l generalizing s with
  | nil => exact Reacts.refl s
  | cons a r ih => exact (hf s a).trans (ih _)

theorem rackApplied_reacts (before : Replica) (s : Station) (f : Frame) (took : Bool) : Reacts s (rackApplied before s f took) := by
  unfold rackApplied
  split
  · exact reacts_foldl _ (rackPortApplied_reacts before f took) _ s
  · exact Reacts.refl s

theorem reacts_report (s : Station) (o : Outgoing) (hc : Body.cls o.body = .report) (ht : takesReport s.line o.body = true)
    {r : ReplicaUnit} (h1 : r.tables = s.replica.tables) (h2 : r.joinNumber = s.replica.joinNumber)
    (h3 : r.pendingRep = s.replica.pendingRep) (h4 : r.noticed = s.replica.noticed) :
    Reacts s { s with line := enqueueReport s.line o, replica := r } :=
  ⟨rfl, rfl, rfl, rfl, rfl, rfl, rfl, rfl, rfl, rfl, enqueueReport_works _ _ hc ht, h1, h2, h3, h4, rfl⟩

theorem offerNotices_reacts (k : Nat) (s : Station) : Reacts s (offerNotices k s) := by
  induction k generalizing s with
  | zero => exact Reacts.refl s
  | succ k ih =>
    unfold offerNotices
    split
    · exact Reacts.refl s
    · simp only
      split
      · rename_i ht
        refine Reacts.trans ?_ (ih _)
        exact reacts_report s ⟨_, .snapBegin _ _ _ _⟩ rfl ht rfl rfl rfl rfl
      · exact Reacts.refl s

theorem offerShadow_reacts (k : Nat) (s : Station) : Reacts s (offerShadow k s) := by
  induction k generalizing s with
  | zero => exact Reacts.refl s
  | succ k ih =>
    unfold offerShadow
    split
    · exact Reacts.refl s
    · split
      · exact Reacts.refl s
      · rename_i hb
        split
        · rename_i ht
          refine Reacts.trans ?_ (ih _)
          exact reacts_report s ⟨_, _⟩ (snapFrames_cls _ _ _ (List.mem_of_getElem? hb)) ht rfl rfl rfl rfl
        · exact Reacts.refl s

theorem offerSnapshots_reacts (s : Station) : Reacts s (offerSnapshots s) := by
  unfold offerSnapshots
  simp only
  split
  · exact (offerNotices_reacts _ s).trans (offerShadow_reacts _ _)
  · exact offerNotices_reacts _ s

theorem servingApplied_reacts (s : Station) (f : Frame) (fx : Fx) : Reacts s (servingApplied s f fx) := by
  unfold servingApplied
  refine Reacts.trans ?_ (offerSnapshots_reacts _)
  exact ⟨rfl, rfl, rfl, rfl, rfl, rfl, rfl, rfl, rfl, rfl, LineWorks.refl _, rfl, rfl, rfl, rfl, rfl⟩

/-- The units react to an application within `Reacts`: the tables are the application's alone (log 15). -/
theorem react_reacts (before : Replica) (s : Station) (f : Frame) (fx : Fx) : Reacts s (react before s f fx) := by
  unfold react
  simp only
  refine Reacts.trans ?_ (reacts_foldl _ (fun t x => (reportCondition_works t x).reacts) _ _)
  refine Reacts.trans ?_ (mountApplied_works _ _ _ _).reacts
  refine Reacts.trans ?_ (closingApplied_works _ _ _).reacts
  refine Reacts.trans ?_ (changeApplied_works _ _ _).reacts
  refine Reacts.trans ?_ (rackApplied_reacts _ _ _ _)
  refine Reacts.trans ?_ (claimApplied_works _ _ _).reacts
  exact (servingApplied_reacts s f fx).trans (withdrawStale_works _).reacts

/-! ### The taking sequence at a serving station -/

theorem serving_listening {s : Station} (h : serving s = true) : listening s = true := by
  simp only [serving, listening, Bool.and_eq_true] at h ⊢
  refine ⟨h.1, ?_⟩
  cases hm : s.loader.mode <;> simp_all

theorem serving_not_joining {s : Station} (h : serving s = true) : joiningMode s = false := by
  simp only [serving, joiningMode, Bool.and_eq_true, Bool.and_eq_false_iff] at h ⊢
  right
  cases hm : s.loader.mode <;> simp_all

/-- A removed frame leaves the counts of the line as they are. -/
theorem removeCompleted_counts (lp : LinePort) : (removeCompleted lp).lineCount = lp.lineCount ∧ (removeCompleted lp).heard = lp.heard := by
  unfold removeCompleted
  split
  · exact ⟨rfl, rfl⟩
  · simp only
    split
    · exact ⟨rfl, rfl⟩
    · exact ⟨rfl, rfl⟩
    · split
      · exact ⟨(updateDrain_works _).lineCount, (updateDrain_works _).heard⟩
      · exact ⟨(updateDrain_works _).lineCount, (updateDrain_works _).heard⟩

theorem removeCompleted_offset (lp : LinePort) : (removeCompleted lp).joinOffset = lp.joinOffset := by
  unfold removeCompleted
  split
  · rfl
  · simp only
    split
    · rfl
    · rfl
    · split <;> exact (updateDrain_works _).joinOffset

/-- What the removal of an own frame leaves as it is, unless it begins a restart. -/
structure Released (s t : Station) : Prop where
  now : t.now = s.now
  pins : t.pins = s.pins
  loader : t.loader = s.loader
  replica : t.replica = s.replica
  motion : t.motion = s.motion
  thermal : t.thermal = s.thermal
  rack : t.rack = s.rack
  request : t.request = s.request
  change : t.change = s.change
  lineCount : t.line.lineCount = s.line.lineCount
  heard : t.line.heard = s.line.heard
  window : t.line.window = s.line.window
  joinOffset : t.line.joinOffset = s.line.joinOffset

theorem releaseOwn_released (s : Station) (f : Frame) (h : answersRestart s f.body = false) : Released s (releaseOwn s f) := by
  unfold releaseOwn
  split
  · obtain ⟨h1, h2⟩ := removeCompleted_counts s.line
    have h3 := (removeCompleted_keeps s.line).2
    have h4 := removeCompleted_offset s.line
    have key : ∀ t : Station, Released s t → t.request = s.request →
        Released s (if answersRestart t f.body = true then restart t .requested else t) := by
      intro t ht hq
      have : answersRestart t f.body = false := by rw [← h]; unfold answersRestart; rw [hq]
      rw [this]
      exact ht
    have base : Released s { s with line := removeCompleted s.line } := ⟨rfl, rfl, rfl, rfl, rfl, rfl, rfl, rfl, rfl, h1, h2, h3, h4⟩
    have base2 : ∀ l, Released s (setPoints { s with line := removeCompleted s.line } l) :=
      fun l => ⟨rfl, rfl, rfl, rfl, rfl, rfl, rfl, rfl, rfl, h1, h2, h3, h4⟩
    refine key _ ?_ ?_
    · split
      · exact base2 _
      · exact base
    · split <;> rfl
  · exact ⟨rfl, rfl, rfl, rfl, rfl, rfl, rfl, rfl, rfl, rfl, rfl, rfl, rfl⟩

/-- A well-formed frame counted and recorded at a serving station with a line count (R7, R9, R10). -/
theorem takeCount_live {s : Station} (hs : serving s = true) {n : Nat} (hl : s.line.lineCount = some n) (f : Frame) :
    takeCount s f = heardAgain { s with line := { s.line with
      lineCount := some (n + 1), heard := set1 s.line.heard f.h.sender ⟨.abs (n + 1), s.now⟩ } } f.h.sender := by
  have hj := serving_not_joining hs
  have h1 : countFrame s = { s with line := { s.line with lineCount := some (n + 1) } } := by
    simp [countFrame, hl, hj]
  have h2 : isOwnJoin s f = false := by simp [isOwnJoin, hj]
  unfold takeCount
  simp only [h2, h1]
  unfold noteCell
  have h3 : ∀ t : Station, t.loader = s.loader → joiningMode t = false := by
    intro t ht
    rw [← hj]; unfold joiningMode; rw [ht]
  have h4 := h3 (heardAgain (recordHeard { s with line := { s.line with lineCount := some (n + 1) } } f.h.sender) f.h.sender) rfl
  simp only [Bool.false_eq_true, if_false]
  rw [h4]
  rfl

/-- The last-heard table after a frame of station `k` (R10). -/
def heardAfter (s : Station) (k n : Nat) : List Heard := set1 s.line.heard k ⟨.abs (n + 1), s.now⟩

/-- Whether a SILENCE names the last-heard count, judged once the frame itself is recorded (R10, R41). -/
def namedBy (s : Station) (f : Frame) (n : Nat) : Bool :=
  match f.body with
  | .silence k count => (at1 (heardAfter s f.h.sender n) ⟨.none, 0⟩ k).count == .abs count
  | _ => false

/-- A frame counted and recorded, its window closed: what that leaves as it is. -/
structure Counted (s u : Station) (f : Frame) (n : Nat) : Prop where
  now : u.now = s.now
  pins : u.pins = s.pins
  loader : u.loader = s.loader
  replica : u.replica = s.replica
  motion : u.motion = s.motion
  touch : u.touch = s.touch
  thermal : u.thermal = s.thermal
  change : u.change = s.change
  rack : u.rack = s.rack
  request : u.request = s.request
  freeUsed : u.freeUsed = s.freeUsed
  window : u.line.window = none
  flight : u.line.flight = s.line.flight
  control : u.line.control = s.line.control
  thermalSlot : u.line.thermal = s.line.thermal
  report : u.line.report = s.line.report
  reserved : u.line.reserved = s.line.reserved
  lineCount : u.line.lineCount = some (n + 1)
  heard : u.line.heard = heardAfter s f.h.sender n

theorem closeClean_eq (s : Station) :
    closeClean s = { s with line := { s.line with vetoLog := (recordWindow s.line false).vetoLog, window := none } } := by
  unfold closeClean
  rw [recordWindow_eq]

theorem counted_live {s : Station} (hs : serving s = true) {n : Nat} (hl : s.line.lineCount = some n) (f : Frame) :
    Counted s (takeCount (closeClean s) f) f n := by
  rw [closeClean_eq]
  generalize (recordWindow s.line false).vetoLog = log
  rw [takeCount_live (s := { s with line := { s.line with vetoLog := log, window := none } }) hs hl]
  exact ⟨rfl, rfl, rfl, rfl, rfl, rfl, rfl, rfl, rfl, rfl, rfl, rfl, rfl, rfl, rfl, rfl, rfl, rfl, rfl⟩

/-- A completed, well-formed frame at a serving station: counted, handed on, the own one removed (R7). -/
theorem completeFrame_eq {s : Station} (hs : serving s = true) (hv : vetoedHere s = false) {f : Frame}
    (hg : formatGood (cellOf s) f = true) :
    completeFrame s f = releaseOwn (handOn (takeCount (closeClean s) f) s.line.window f) f := by
  unfold completeFrame
  rw [serving_listening hs, hv]
  simp only [Bool.not_true, Bool.or_self, Bool.false_eq_true, if_false, hg, if_true]

/-- What every completed frame that is handed to no unit but the Replica Unit leaves as it is at a serving station. -/
structure LiveFrame (s t : Station) (f : Frame) (n : Nat) : Prop where
  now : t.now = s.now
  pins : t.pins = s.pins
  loader : t.loader = s.loader
  thermal : t.thermal = s.thermal
  enc : t.motion.enc = s.motion.enc
  delivered : t.request.delivered = s.request.delivered
  joinNumber : t.replica.joinNumber = s.replica.joinNumber
  pendingRep : t.replica.pendingRep = s.replica.pendingRep
  noticed : t.replica.noticed = s.replica.noticed
  rack : t.rack.length = s.rack.length
  lineCount : t.line.lineCount = some (n + 1)
  heard : t.line.heard = heardAfter s f.h.sender n
  window : t.line.window = none

theorem liveFrame_of {s u v t : Station} {f : Frame} {n : Nat} (hu : Counted s u f n) (hr : Reacts { u with replica := v.replica } v)
    (hj : v.replica.joinNumber = s.replica.joinNumber) (hp : v.replica.pendingRep = s.replica.pendingRep)
    (hn : v.replica.noticed = s.replica.noticed) (hq : Released v t) : LiveFrame s t f n := by
  refine ⟨?_, ?_, ?_, ?_, ?_, ?_, ?_, ?_, ?_, ?_, ?_, ?_, ?_⟩
  · rw [hq.now, hr.now]; exact hu.now
  · rw [hq.pins, hr.pins]; exact hu.pins
  · rw [hq.loader, hr.loader]; exact hu.loader
  · rw [hq.thermal, hr.thermal]; exact hu.thermal
  · rw [hq.motion, hr.enc]; exact congrArg (·.enc) hu.motion
  · rw [hq.request, hr.delivered]; exact congrArg (·.delivered) hu.request
  · rw [hq.replica, hj]
  · rw [hq.replica, hp]
  · rw [hq.replica, hn]
  · rw [hq.rack, hr.rack]; exact congrArg List.length hu.rack
  · rw [hq.lineCount, hr.line.lineCount]; exact hu.lineCount
  · rw [hq.heard, hr.line.heard]; exact hu.heard
  · rw [hq.window, hr.line.window]; exact hu.window

/-- A replicated kind, a POINT or a SNAP_END that does not silence this station: counted, applied to the replica, and the units react
(R7, R22). -/
theorem completeFrame_applied {s : Station} (hs : serving s = true) (hv : vetoedHere s = false) {f : Frame}
    (hg : formatGood (cellOf s) f = true) (hp : passesRoster f.body = true) {n : Nat} (hl : s.line.lineCount = some n)
    (hsil : ((applyFormed (cellOf s) (n + 1) (namedBy s f n) f (tabs s)).2.took && silencesMe (me s) f.body) = false) :
    ∃ u, Counted s u f n ∧ completeFrame s f =
      releaseOwn (react (tabs s) (setTabs u (applyFormed (cellOf s) (n + 1) (namedBy s f n) f (tabs s)).1) f
        (applyFormed (cellOf s) (n + 1) (namedBy s f n) f (tabs s)).2) f := by
  rw [completeFrame_eq hs hv hg]
  have hc := counted_live hs hl f
  refine ⟨_, hc, ?_⟩
  generalize takeCount (closeClean s) f = u at hc ⊢
  have hcell : cellOf u = cellOf s := by unfold cellOf; rw [hc.loader]
  have hme : me u = me s := by unfold me; rw [hc.loader]
  have htabs : tabs u = tabs s := by unfold tabs; rw [hc.replica]
  have hlc : lineCountOf u = n + 1 := by unfold lineCountOf; rw [hc.lineCount]; rfl
  have hnamed : namesLastHeard u.line f.body = namedBy s f n := by
    unfold namesLastHeard namedBy
    rw [hc.heard]
    all_goals (generalize f.body = b; cases b <;> rfl)
  have hsu : serving u = true := by rw [← hs]; unfold serving; rw [hc.loader]
  have hju : joiningMode u = false := serving_not_joining hsu
  have hand : handOn u s.line.window f = applyLive u f := by
    unfold handOn
    split
    · rename_i hb; rw [hb] at hp; simp [passesRoster, Body.isReplicated, Body.cls, Body.isRequest, Body.isPoint] at hp
    · simp [hju, hsu, hp]
  rw [hand]
  unfold applyLive
  simp only [hcell, hme, htabs, hlc, hnamed, hsil, Bool.false_eq_true, if_false]

/-- The same frame where it does not restart this station: what it leaves as it is, and the tables it leaves. -/
theorem completeFrame_live {s : Station} (hs : serving s = true) (hv : vetoedHere s = false) {f : Frame}
    (hg : formatGood (cellOf s) f = true) (hp : passesRoster f.body = true) {n : Nat} (hl : s.line.lineCount = some n)
    (hsil : ((applyFormed (cellOf s) (n + 1) (namedBy s f n) f (tabs s)).2.took && silencesMe (me s) f.body) = false) :
    LiveFrame s (completeFrame s f) f n ∧
      tabs (completeFrame s f) = (applyFormed (cellOf s) (n + 1) (namedBy s f n) f (tabs s)).1 := by
  obtain ⟨u, hc, he⟩ := completeFrame_applied hs hv hg hp hl hsil
  rw [he]
  generalize (applyFormed (cellOf s) (n + 1) (namedBy s f n) f (tabs s)).2 = fx
  generalize (applyFormed (cellOf s) (n + 1) (namedBy s f n) f (tabs s)).1 = r
  have hr := react_reacts (tabs s) (setTabs u r) f fx
  generalize react (tabs s) (setTabs u r) f fx = v at hr ⊢
  have hans : answersRestart v f.body = false := by
    unfold answersRestart
    split
    · rename_i hb; rw [hb] at hp; simp [passesRoster, Body.isReplicated, Body.cls, Body.isPoint] at hp
    · rfl
  have hq := releaseOwn_released v f hans
  refine ⟨liveFrame_of hc ⟨hr.now, hr.pins, hr.loader, hr.thermal, hr.freeUsed, hr.enc, hr.nextSeq, hr.latch, hr.delivered,
    hr.restartPending, hr.line, rfl, rfl, rfl, rfl, hr.rack⟩ ?_ ?_ ?_ hq, ?_⟩
  · rw [hr.joinNumber]; exact congrArg (·.joinNumber) hc.replica
  · rw [hr.pendingRep]; exact congrArg (·.pendingRep) hc.replica
  · rw [hr.noticed]; exact congrArg (·.noticed) hc.replica
  · unfold tabs
    rw [hq.replica, hr.tables]
    rfl

/-! ### The roster step (R22) -/

/-- A roster entry replaced and stamped where a field differs: the others stay, and so does every other table (R21). -/
theorem setRoster_facts (r : Replica) (lc k : Nat) (e : RosterEntry) :
    setRoster r lc k e = { r with roster := (setRoster r lc k e).roster } ∧
      (∀ j, j ≠ k → rosterEntry (setRoster r lc k e) j = rosterEntry r j) := by
  unfold setRoster
  simp only
  split
  · exact ⟨rfl, fun _ _ => rfl⟩
  · exact ⟨rfl, fun j hj => at1_set1_other _ _ _ _ _ hj⟩

/-- The entry itself, whose stamp is that of the frame where a field differs. -/
theorem setRoster_same (r : Replica) (lc k : Nat) (e : RosterEntry) (h1 : 1 ≤ k) (h2 : k ≤ r.roster.length) :
    ∃ st, rosterEntry (setRoster r lc k e) k = { e with stamp := st } := by
  unfold setRoster
  simp only
  split
  · rename_i h; exact ⟨_, h.symm⟩
  · exact ⟨lc, at1_set1_same _ _ _ _ h1 h2⟩

/-- The roster step leaves every table but the roster as it is, and there every entry but the sender's. -/
theorem rosterStep_facts (lc : Nat) (h : Hdr) (r : Replica) :
    rosterStep lc h r = { r with roster := (rosterStep lc h r).roster } ∧
      (∀ j, j ≠ h.sender → rosterEntry (rosterStep lc h r) j = rosterEntry r j) := by
  have key : ∀ st : RosterState, ∀ t : Replica, t = (if st = .joining ∨ st = .active then
      setRoster r lc h.sender { rosterEntry r h.sender with state := st, homed := h.homed, parked := h.parked } else r) →
      t = { r with roster := t.roster } ∧ (∀ j, j ≠ h.sender → rosterEntry t j = rosterEntry r j) := by
    intro st t ht
    split at ht
    · rw [ht]; exact setRoster_facts _ _ _ _
    · rw [ht]; exact ⟨rfl, fun _ _ => rfl⟩
  exact key _ _ rfl

/-- The entry of an ACTIVE sender keeps its state, cause, service and mark, and shows the flags of the header (R22). -/
theorem rosterStep_active (lc : Nat) (h : Hdr) (r : Replica) (ha : (rosterEntry r h.sender).state = .active) (h1 : 1 ≤ h.sender)
    (h2 : h.sender ≤ r.roster.length) :
    ∃ st, rosterEntry (rosterStep lc h r) h.sender =
      { rosterEntry r h.sender with homed := h.homed, parked := h.parked, stamp := st } := by
  unfold rosterStep
  simp only [ha]
  obtain ⟨st, hst⟩ := setRoster_same r lc h.sender { rosterEntry r h.sender with state := .active, homed := h.homed, parked := h.parked } h1 h2
  refine ⟨st, ?_⟩
  simp only [reduceCtorEq, false_and, if_false, false_or, if_true]
  rw [hst, ← ha]

theorem at1_range {α : Type} (l : List α) (d : α) (n : Nat) (h : at1 l d n ≠ d) : 1 ≤ n ∧ n ≤ l.length := by
  cases n with
  | zero => exact absurd rfl h
  | succ n =>
    refine ⟨Nat.succ_le_succ (Nat.zero_le n), ?_⟩
    by_contra hc
    exact h (List.getD_eq_default l d (by omega))

/-- A roster entry that takes the homed and parked flags of a header, stamped where one differs (R21, R22). -/
def flaggedBy (lc : Nat) (h : Hdr) (e : RosterEntry) : RosterEntry :=
  { e with homed := h.homed, parked := h.parked, stamp := if e.homed = h.homed ∧ e.parked = h.parked then e.stamp else lc }

/-- What a roster step through which a frame passes leaves of the replica (R22). -/
structure Passed (c : CellPart) (lc : Nat) (h : Hdr) (r t : Replica) : Prop where
  rest : t = { r with roster := t.roster }
  others : ∀ j, j ≠ h.sender → rosterEntry t j = rosterEntry r j
  state : (rosterEntry t h.sender).state = (rosterEntry r h.sender).state
  cause : (rosterEntry t h.sender).cause = (rosterEntry r h.sender).cause
  serving : (rosterEntry t h.sender).serving = (rosterEntry r h.sender).serving
  length : t.roster.length = r.roster.length
  flagged : roleIn c h.sender = .mc410 → (rosterEntry r h.sender).state = .active ∨ (rosterEntry r h.sender).state = .joining →
    rosterEntry t h.sender = flaggedBy lc h (rosterEntry r h.sender)
  unflagged : roleIn c h.sender ≠ .mc410 ∨ ((rosterEntry r h.sender).state ≠ .active ∧ (rosterEntry r h.sender).state ≠ .joining) →
    rosterEntry t h.sender = rosterEntry r h.sender

theorem Passed.same {c : CellPart} {lc : Nat} {h : Hdr} {r : Replica}
    (hn : roleIn c h.sender ≠ .mc410 ∨ ((rosterEntry r h.sender).state ≠ .active ∧ (rosterEntry r h.sender).state ≠ .joining)) :
    Passed c lc h r r := by
  refine ⟨rfl, fun _ _ => rfl, rfl, rfl, rfl, rfl, fun hr ha => ?_, fun _ => rfl⟩
  rcases hn with hn | ⟨h1, h2⟩
  · exact absurd hr hn
  · rcases ha with ha | ha
    · exact absurd ha h1
    · exact absurd ha h2

theorem rosterStep_length (lc : Nat) (h : Hdr) (r : Replica) : (rosterStep lc h r).roster.length = r.roster.length := by
  have hs : ∀ k e, (setRoster r lc k e).roster.length = r.roster.length := by
    intro k e
    unfold setRoster
    simp only
    split
    · rfl
    · exact set1_length _ _ _
  unfold rosterStep
  simp only
  generalize (if (rosterEntry r h.sender).state = .joining ∧ h.active = true then RosterState.active
    else (rosterEntry r h.sender).state) = st
  split
  · exact hs _ _
  · rfl

/-- The entry of a sender that the roster step leaves in its state shows the flags of the header (R22). -/
theorem rosterStep_flagged (c : CellPart) (lc : Nat) (h : Hdr) (r : Replica)
    (ha : (rosterEntry r h.sender).state = .active ∨ ((rosterEntry r h.sender).state = .joining ∧ h.active = false)) :
    Passed c lc h r (rosterStep lc h r) ∨ roleIn c h.sender ≠ .mc410 := by
  by_cases hr : roleIn c h.sender = .mc410
  · left
    obtain ⟨h1, h2⟩ := at1_range r.roster unseenEntry h.sender (fun hc => by
      have hu : (rosterEntry r h.sender).state = .unseen := congrArg RosterEntry.state hc
      rw [hu] at ha; simp at ha)
    obtain ⟨k1, k2⟩ := rosterStep_facts lc h r
    have e : rosterEntry (rosterStep lc h r) h.sender = flaggedBy lc h (rosterEntry r h.sender) := by
      have hs : rosterStep lc h r = setRoster r lc h.sender { rosterEntry r h.sender with homed := h.homed, parked := h.parked } := by
        unfold rosterStep
        rcases ha with ha | ⟨ha, hb⟩ <;> simp [ha, *] <;> rw [← ha]
      rw [hs]
      unfold setRoster flaggedBy
      simp only
      by_cases hf : (rosterEntry r h.sender).homed = h.homed ∧ (rosterEntry r h.sender).parked = h.parked
      · rw [if_pos (by rw [← hf.1, ← hf.2]), if_pos hf, ← hf.1, ← hf.2]
      · rw [if_neg (fun hc => hf ⟨(congrArg RosterEntry.homed hc).symm, (congrArg RosterEntry.parked hc).symm⟩), if_neg hf]
        exact at1_set1_same _ _ _ _ h1 h2
    refine ⟨k1, k2, by rw [e]; rfl, by rw [e]; rfl, by rw [e]; rfl, rosterStep_length lc h r, fun _ _ => e, fun hn => ?_⟩
    rcases hn with hn | ⟨n1, n2⟩
    · exact absurd hr hn
    · rcases ha with ha | ha
      · exact absurd ha n1
      · exact absurd ha.1 n2
  · exact .inr hr

def isJoin : Body → Bool
  | .join .. => true
  | _ => false

/-- A frame of a sender that passes the roster step: its kind is applied to the replica after that step (R22, R104). -/
theorem applyFormed_kind (c : CellPart) (lc : Nat) (heard : Bool) (f : Frame) (r : Replica) (hj : isJoin f.body = false)
    (hp : passesRoster f.body = true)
    (ha : roleIn c f.h.sender ≠ .mc410 ∨ (rosterEntry r f.h.sender).state = .active) :
    ∃ r1, Passed c lc f.h r r1 ∧
      (applyFormed c lc heard f r).1 = derive c (applyKind c lc f.h.sender heard f.h.dest f.body r1).1 ∧
      (applyFormed c lc heard f r).2 = (applyKind c lc f.h.sender heard f.h.dest f.body r1).2 := by
  by_cases hr : roleIn c f.h.sender = .mc410
  · have hact := ha.resolve_left (fun h => h hr)
    have hpass := (rosterStep_flagged c lc f.h r (.inl hact)).resolve_right (fun hn => hn hr)
    refine ⟨rosterStep lc f.h r, hpass, ?_⟩
    have h1 : (rosterEntry (rosterStep lc f.h r) f.h.sender).state = .active := hpass.state.trans hact
    unfold applyFormed
    split
    · rename_i hb; rw [hb] at hj; cases hj
    · simp only [hp, hr, h1, Bool.not_true, Bool.false_eq_true, if_false, if_true, and_self]
  · refine ⟨r, Passed.same (.inl hr), ?_⟩
    unfold applyFormed
    split
    · rename_i hb; rw [hb] at hj; cases hj
    · simp only [hp, hr, Bool.not_true, Bool.false_eq_true, if_false, and_self]

/-- A completed frame of a sender that passes the roster step, at a serving station: counted, and its kind applied to the tables after
that step, with the derived values brought up to date (R7, R22, R104). -/
theorem completeFrame_kind {s : Station} (hs : serving s = true) (hv : vetoedHere s = false) {f : Frame}
    (hg : formatGood (cellOf s) f = true) (hp : passesRoster f.body = true) {n : Nat} (hl : s.line.lineCount = some n)
    (hsil : silencesMe (me s) f.body = false) (hj : isJoin f.body = false)
    (ha : roleIn (cellOf s) f.h.sender ≠ .mc410 ∨ rosterState (tabs s) f.h.sender = .active) :
    LiveFrame s (completeFrame s f) f n ∧ ∃ r1, Passed (cellOf s) (n + 1) f.h (tabs s) r1 ∧
      tabs (completeFrame s f) =
        derive (cellOf s) (applyKind (cellOf s) (n + 1) f.h.sender (namedBy s f n) f.h.dest f.body r1).1 := by
  obtain ⟨h1, h2⟩ := completeFrame_live hs hv hg hp hl (by rw [hsil, Bool.and_false])
  obtain ⟨r1, hr, h3, _⟩ := applyFormed_kind (cellOf s) (n + 1) (namedBy s f n) f (tabs s) hj hp ha
  exact ⟨h1, r1, hr, h2.trans h3⟩

end Sys2Proof.Laws
end

