-- ==== Sys2Proof/Laws/Scan.lean ====
section
/-! SUPPORT. What a grant scan can do (R52 to R55, R61, R62): a zone that is not FREE keeps its entry, a FREE one stays or is HELD with
the scan's stamp by a claimant whose claim names it, and no claim comes to the list. -/

namespace Sys2Proof.Laws

open Sys2Proof.Machine

/-- A list of claims holds one of station `k` that wants zone `z`. -/
def Wants (l : List Claim) (k z : Nat) : Prop := ∃ c ∈ l, c.claimant = k ∧ c.wanted.getLsbD z = true

/-- Zones granted to claimants of a list and nothing else. -/
structure Granted (lc : Nat) (l : List Claim) (zs ys : List ZoneEntry) : Prop where
  length : ys.length = zs.length
  kept : ∀ z < zs.length, (zs.getD z ⟨.free, 0⟩).hold ≠ .free → ys.getD z ⟨.free, 0⟩ = zs.getD z ⟨.free, 0⟩
  given : ∀ z < zs.length, (zs.getD z ⟨.free, 0⟩).hold = .free →
    ys.getD z ⟨.free, 0⟩ = zs.getD z ⟨.free, 0⟩ ∨ ∃ k, Wants l k z ∧ ys.getD z ⟨.free, 0⟩ = ⟨.held k, lc⟩

/-- Every claim of a list comes from a claim of another: same claimant, zones, base and count. -/
def From (a b : List Claim) : Prop :=
  ∀ c ∈ a, ∃ d ∈ b, c.claimant = d.claimant ∧ c.wanted = d.wanted ∧ c.base = d.base ∧ c.count = d.count

theorem From.refl (l : List Claim) : From l l := fun c h => ⟨c, h, rfl, rfl, rfl, rfl⟩

theorem From.trans {a b c : List Claim} (h : From a b) (k : From b c) : From a c := fun x hx => by
  obtain ⟨y, hy, h1, h2, h3, h4⟩ := h x hx
  obtain ⟨w, hw, k1, k2, k3, k4⟩ := k y hy
  exact ⟨w, hw, h1.trans k1, h2.trans k2, h3.trans k3, h4.trans k4⟩

theorem From.wants {a b : List Claim} (h : From a b) {k z : Nat} (w : Wants a k z) : Wants b k z := by
  obtain ⟨c, hc, h1, h2⟩ := w
  obtain ⟨d, hd, k1, k2, _⟩ := h c hc
  exact ⟨d, hd, k1 ▸ h1, k2 ▸ h2⟩

theorem Granted.refl (lc : Nat) (l : List Claim) (zs : List ZoneEntry) : Granted lc l zs zs := ⟨rfl, fun _ _ _ => rfl, fun _ _ _ => .inl rfl⟩

theorem Granted.weaken {lc : Nat} {a b : List Claim} {zs ys : List ZoneEntry} (h : Granted lc a zs ys) (f : From a b) : Granted lc b zs ys :=
  ⟨h.length, h.kept, fun z hz hf => by
    rcases h.given z hz hf with e | ⟨k, w, e⟩
    · exact .inl e
    · exact .inr ⟨k, f.wants w, e⟩⟩

theorem Granted.trans {lc : Nat} {l : List Claim} {zs ys xs : List ZoneEntry} (h : Granted lc l zs ys) (k : Granted lc l ys xs) :
    Granted lc l zs xs := by
  refine ⟨k.length.trans h.length, fun z hz hn => ?_, fun z hz hf => ?_⟩
  · have h1 := h.kept z hz hn
    rw [k.kept z (by rw [h.length]; exact hz) (by rw [h1]; exact hn), h1]
  · rcases h.given z hz hf with e | ⟨j, w, e⟩
    · rcases k.given z (by rw [h.length]; exact hz) (by rw [e]; exact hf) with e2 | ⟨j, w, e2⟩
      · exact .inl (e2.trans e)
      · exact .inr ⟨j, w, e2⟩
    · refine .inr ⟨j, w, ?_⟩
      rw [k.kept z (by rw [h.length]; exact hz) (by rw [e]; exact nofun), e]

/-! ### The order of the list -/

theorem mem_insertClaim {c d : Claim} {l : List Claim} : d ∈ insertClaim c l ↔ d = c ∨ d ∈ l := by
  induction l with
  | nil => simp [insertClaim]
  | cons e r ih =>
    unfold insertClaim
    split
    · simp
    · simp only [List.mem_cons, ih]
      tauto

theorem mem_orderClaims {d : Claim} {l : List Claim} : d ∈ orderClaims l ↔ d ∈ l := by
  have key : ∀ (l acc : List Claim), d ∈ l.foldl (fun acc c => insertClaim c acc) acc ↔ d ∈ acc ∨ d ∈ l := by
    intro l
    induction l with
    | nil => simp
    | cons e r ih =>
      intro acc
      rw [List.foldl_cons, ih, mem_insertClaim, List.mem_cons]
      tauto
  simpa [orderClaims] using key l []

theorem from_map (l : List Claim) (f : Claim → Claim)
    (hf : ∀ c, (f c).claimant = c.claimant ∧ (f c).wanted = c.wanted ∧ (f c).base = c.base ∧ (f c).count = c.count) : From (l.map f) l := by
  intro x hx
  obtain ⟨y, hy, rfl⟩ := List.mem_map.mp hx
  exact ⟨y, hy, hf y⟩

theorem from_dropClaim (l : List Claim) (k : Nat) : From (dropClaim l k) l := fun x hx =>
  ⟨x, (List.mem_filter.mp hx).1, rfl, rfl, rfl, rfl⟩

theorem from_escalate (starve : Nat) (l : List Claim) : From (escalate starve l) l := by
  intro x hx
  have h1 := from_map l (fun c => if !c.urgent && decide (starve ≤ c.passed) then { c with urgent := true } else c)
    (fun c => by split <;> exact ⟨rfl, rfl, rfl, rfl⟩)
  exact h1 x (mem_orderClaims.mp hx)

/-! ### The scan -/

theorem walk_facts (lc : Nat) (rest : List Claim) : ∀ (ahead : List Claim) (zs : List ZoneEntry),
    Granted lc rest zs (walk lc ahead rest zs).2 ∧ From (walk lc ahead rest zs).1 (ahead ++ rest) := by
  induction rest with
  | nil => intro ahead zs; exact ⟨Granted.refl _ _ _, by simpa [walk] using From.refl ahead⟩
  | cons a rest ih =>
    intro ahead zs
    have hr : From rest (a :: rest) := fun c h => ⟨c, List.mem_cons_of_mem _ h, rfl, rfl, rfl, rfl⟩
    unfold walk
    split
    · rename_i hg
      simp only [grantable, Bool.and_eq_true] at hg
      obtain ⟨h1, h2⟩ := ih (ahead.map passOnce) (setHold zs (fun z _ => a.wanted.getLsbD z) (.held a.claimant) lc)
      have h3 : Granted lc (a :: rest) zs (setHold zs (fun z _ => a.wanted.getLsbD z) (.held a.claimant) lc) := by
        refine ⟨setHold_length _ _ _ _, fun z hz hn => ?_, fun z hz hf => ?_⟩
        · rw [setHold_getD _ _ _ _ _ hz]
          split
          · rename_i hw
            by_cases h32 : z < 32
            · exact absurd (allFree_home hg.1 z h32 hw) hn
            · exact absurd (a.wanted.getLsbD_of_ge z (by omega)) (by rw [hw]; exact nofun)
          · rfl
        · rw [setHold_getD _ _ _ _ _ hz]
          split
          · rename_i hw; exact .inr ⟨a.claimant, ⟨a, List.mem_cons_self, rfl, hw⟩, rfl⟩
          · exact .inl rfl
      refine ⟨h3.trans (h1.weaken hr), h2.trans ?_⟩
      intro x hx
      rcases List.mem_append.mp hx with hx | hx
      · obtain ⟨y, hy, h⟩ := from_map ahead passOnce (fun c => ⟨rfl, rfl, rfl, rfl⟩) x hx
        exact ⟨y, List.mem_append_left _ hy, h⟩
      · exact ⟨x, List.mem_append_right _ (List.mem_cons_of_mem _ hx), rfl, rfl, rfl, rfl⟩
    · obtain ⟨h1, h2⟩ := ih (ahead ++ [a]) zs
      exact ⟨h1.weaken hr, by simpa using h2⟩

theorem scanSteps_facts (starve lc n : Nat) : ∀ (l : List Claim) (zs : List ZoneEntry),
    Granted lc l zs (scanSteps starve lc n l zs).2.1 ∧ From (scanSteps starve lc n l zs).1 l := by
  induction n with
  | zero => intro l zs; exact ⟨Granted.refl _ _ _, From.refl l⟩
  | succ n ih =>
    intro l zs
    obtain ⟨h1, h2⟩ := walk_facts lc l [] zs
    have h3 : From (escalate starve (walk lc [] l zs).1) l := (from_escalate _ _).trans h2
    unfold scanSteps
    simp only
    split
    · exact ⟨h1, h3⟩
    · rename_i b _
      obtain ⟨h4, h5⟩ := ih (dropClaim (escalate starve (walk lc [] l zs).1) b.claimant) (walk lc [] l zs).2
      have h6 := (from_dropClaim (escalate starve (walk lc [] l zs).1) b.claimant).trans h3
      exact ⟨h1.trans (h4.weaken h6), h5.trans h6⟩

/-- A scan over a replica: the zones and the claims it leaves, and every other table as it was. -/
theorem scan_facts (c : CellPart) (lc : Nat) (r : Replica) :
    Granted lc r.claims r.zones (scan c lc r).1.zones ∧ From (scan c lc r).1.claims r.claims ∧
      (scan c lc r).1 = { r with zones := (scan c lc r).1.zones, claims := (scan c lc r).1.claims } := by
  obtain ⟨h1, h2⟩ := scanSteps_facts c.starve lc (r.claims.length + 1) r.claims r.zones
  exact ⟨h1, h2, rfl⟩

/-- With no claim in the list a scan changes nothing. -/
theorem scan_nil (c : CellPart) (lc : Nat) (r : Replica) (h : r.claims = []) : (scan c lc r).1 = r := by
  cases r
  simp only at h
  subst h
  rfl

/-! ### The other tables -/

@[simp] theorem scan_roster (c : CellPart) (lc : Nat) (r : Replica) : (scan c lc r).1.roster = r.roster := rfl
@[simp] theorem scan_cell (c : CellPart) (lc : Nat) (r : Replica) : (scan c lc r).1.cell = r.cell := rfl
@[simp] theorem scan_ports (c : CellPart) (lc : Nat) (r : Replica) : (scan c lc r).1.ports = r.ports := rfl
@[simp] theorem scan_probes (c : CellPart) (lc : Nat) (r : Replica) : (scan c lc r).1.probes = r.probes := rfl
@[simp] theorem scan_board (c : CellPart) (lc : Nat) (r : Replica) : (scan c lc r).1.board = r.board := rfl
@[simp] theorem scan_partTemp (c : CellPart) (lc : Nat) (r : Replica) : (scan c lc r).1.partTemp = r.partTemp := rfl
@[simp] theorem scan_gradient (c : CellPart) (lc : Nat) (r : Replica) : (scan c lc r).1.gradient = r.gradient := rfl
@[simp] theorem scan_latches (c : CellPart) (lc : Nat) (r : Replica) : (scan c lc r).1.latches = r.latches := rfl
@[simp] theorem derive_roster (c : CellPart) (r : Replica) : (derive c r).roster = r.roster := rfl
@[simp] theorem derive_cell (c : CellPart) (r : Replica) : (derive c r).cell = r.cell := rfl
@[simp] theorem derive_zones (c : CellPart) (r : Replica) : (derive c r).zones = r.zones := rfl
@[simp] theorem derive_claims (c : CellPart) (r : Replica) : (derive c r).claims = r.claims := rfl
@[simp] theorem derive_ports (c : CellPart) (r : Replica) : (derive c r).ports = r.ports := rfl
@[simp] theorem derive_probes (c : CellPart) (r : Replica) : (derive c r).probes = r.probes := rfl
@[simp] theorem derive_board (c : CellPart) (r : Replica) : (derive c r).board = r.board := rfl
@[simp] theorem derive_latches (c : CellPart) (r : Replica) : (derive c r).latches = r.latches := rfl

/-- The derived values of a replica (R102 to R104). -/
@[simp] theorem derive_partTemp (c : CellPart) (r : Replica) :
    (derive c r).partTemp = if (Machine.counted r).isEmpty then none else some (meanRound (Machine.counted r)) := rfl
@[simp] theorem derive_gradient (c : CellPart) (r : Replica) : (derive c r).gradient = spreads c.gradient (Machine.counted r) := rfl

theorem withScan_tables (c : CellPart) (lc : Nat) (fx : Fx) (r : Replica) : (withScan c lc fx r).1 = (scan c lc r).1 := rfl

end Sys2Proof.Laws
end

