-- ==== Sys2Proof/Laws/Leave.lean ====
section
/-! SUPPORT. What a silence, a rejoin or a refusal takes away from a station, table by table (R31, R33, R41, R64, R65, R101, R120, R121,
R133), and what a JOIN leaves in the roster (R31 to R33). -/

namespace Sys2Proof.Laws

open Sys2Proof.Machine

/-! ### Ports and probes alone -/

/-- An operation on the ports and the probes leaves every other table as it is. -/
def PortsOnly (r t : Replica) : Prop := t = { r with ports := t.ports, probes := t.probes }

theorem PortsOnly.refl (r : Replica) : PortsOnly r r := rfl

theorem PortsOnly.trans {r t u : Replica} (h : PortsOnly r t) (k : PortsOnly t u) : PortsOnly r u := by
  unfold PortsOnly at *
  rw [k, h]

theorem portsOnly_foldl {α : Type} (f : Replica → α → Replica) (hf : ∀ r a, PortsOnly r (f r a)) (l : List α) (r : Replica) :
    PortsOnly r (l.foldl f r) := by
  induction l generalizing r with
  | nil => exact PortsOnly.refl r
  | cons a l ih => exact (hf r a).trans (ih _)

theorem portsOnly_setCustody (r : Replica) (lc x : Nat) (cu : Custody) : PortsOnly r (setCustody r lc x cu) := rfl
theorem portsOnly_setPortState (r : Replica) (lc p : Nat) (st : PortState) : PortsOnly r (setPortState r lc p st) := rfl
theorem portsOnly_setSuspect (r : Replica) (lc x : Nat) : PortsOnly r (setSuspect r lc x) := rfl
theorem portsOnly_endReservation (r : Replica) (lc p : Nat) (st : PortState) : PortsOnly r (endReservation r lc p st) := rfl
theorem portsOnly_restamp (r : Replica) (lc p : Nat) (old : PortEntry) : PortsOnly r (restamp r lc p old) := rfl

theorem portsOnly_vacate (r : Replica) (lc x : Nat) (keep : Option Nat) : PortsOnly r (vacate r lc x keep) := by
  unfold vacate
  split
  · split <;> rfl
  · split <;> rfl
  · rfl
  · rfl

theorem portsOnly_makeLost (r : Replica) (lc : Nat) (keep : Option Nat) (x : Nat) : PortsOnly r (makeLost r lc keep x) := by
  unfold makeLost
  split
  · rfl
  · exact (portsOnly_vacate r lc x keep).trans (portsOnly_setCustody _ _ _ _)

theorem portsOnly_loseAll (lc : Nat) (keep : Option Nat) (xs : List Nat) (r : Replica) : PortsOnly r (loseAll lc keep xs r) :=
  portsOnly_foldl _ (fun r x => portsOnly_makeLost r lc keep x) xs r

theorem portsOnly_clearPort (r : Replica) (lc p x : Nat) : PortsOnly r (clearPort r lc p x) := by
  refine portsOnly_foldl _ (fun r y => ?_) _ r
  split <;> rfl

theorem portsOnly_placeAtPort (r : Replica) (lc x p : Nat) : PortsOnly r (placeAtPort r lc x p) :=
  (portsOnly_vacate r lc x _).trans ((portsOnly_clearPort _ _ _ _).trans (portsOnly_setCustody _ _ _ _))

theorem portsOnly_placeAtStation (r : Replica) (lc x k : Nat) (keep : Option Nat) : PortsOnly r (placeAtStation r lc x k keep) :=
  (portsOnly_vacate r lc x keep).trans ((portsOnly_loseAll _ _ _ _).trans (portsOnly_setCustody _ _ _ _))

theorem portsOnly_followReport (c : CellPart) (lc p : Nat) (present : Bool) (code : Option Code) (r : Replica) :
    PortsOnly r (followReport c lc p present code r) := by
  unfold followReport
  simp only
  split
  · split
    · split
      · rfl
      · exact (portsOnly_placeAtPort _ _ _ _).trans (portsOnly_setPortState _ _ _ _)
    · split
      · exact (portsOnly_makeLost _ _ _ _).trans (portsOnly_setPortState _ _ _ _)
      · rfl
  · split
    · exact (portsOnly_makeLost _ _ _ _).trans (portsOnly_setPortState _ _ _ _)
    · rfl

theorem portsOnly_settleDeposit (c : CellPart) (lc p m : Nat) (present : Bool) (code : Option Code) (r : Replica) :
    PortsOnly r (settleDeposit c lc p m present code r) := by
  unfold settleDeposit
  split
  · rfl
  · split
    · split
      · exact (portsOnly_placeAtPort _ _ _ _).trans (portsOnly_endReservation _ _ _ _)
      · exact (portsOnly_placeAtPort _ _ _ _).trans ((portsOnly_makeLost _ _ _ _).trans
          ((portsOnly_setSuspect _ _ _).trans (portsOnly_endReservation _ _ _ _)))
    · exact (portsOnly_makeLost _ _ _ _).trans ((portsOnly_setSuspect _ _ _).trans (portsOnly_endReservation _ _ _ _))

theorem portsOnly_finishPickup (r : Replica) (lc p : Nat) : PortsOnly r (finishPickup r lc p) := by
  unfold finishPickup
  simp only
  split <;> rfl

theorem portsOnly_reportPort (c : CellPart) (lc p : Nat) (present : Bool) (lock : Lock) (code : Option Code) (r : Replica) :
    PortsOnly r (reportPort c lc p present lock code r) := by
  have key : ∀ (st : PortState) (r1 : Replica), PortsOnly r1 (match st with
      | .reserved _ .deposit m => if lock = .locked then settleDeposit c lc p m present code r1 else r1
      | .reserved _ .pickup _ => if lock = .locked && !present then finishPickup r1 lc p else r1
      | _ => followReport c lc p present code r1) := by
    intro st r1
    split
    · split
      · exact portsOnly_settleDeposit _ _ _ _ _ _ _
      · rfl
    · split
      · exact portsOnly_finishPickup _ _ _
      · rfl
    · exact portsOnly_followReport _ _ _ _ _ _
  unfold reportPort
  simp only
  have h0 : ∀ ps, PortsOnly r { r with ports := ps } := fun _ => rfl
  refine (h0 (set1 r.ports p { portEntry r p with
    presence := if present then .present else .absent, lock := lock, ident := code })).trans (PortsOnly.trans ?_ (portsOnly_restamp _ _ _ _))
  exact key _ _

/-- The result of a rule on ports and probes, where there is one. -/
def portsOnlyOpt (r : Replica) (o : Option Replica) : Prop := ∀ t, o = some t → PortsOnly r t

theorem portsOnly_reservePort (c : CellPart) (lc k p : Nat) (purpose : Purpose) (x : Nat) (r : Replica) :
    portsOnlyOpt r (reservePort c lc k p purpose x r) := by
  have key : ∀ b : Bool, portsOnlyOpt r (if b = true then
      some { r with ports := set1 r.ports p { portEntry r p with state := .reserved k purpose x, takeSeen := false, stamp := lc } } else none) := by
    intro b t ht
    split at ht
    · cases ht; rfl
    · cases ht
  exact key _

theorem portsOnly_depositProbe (lc k m p : Nat) (r : Replica) : portsOnlyOpt r (depositProbe lc k m p r) := by
  intro t ht
  unfold depositProbe at ht
  split at ht
  · cases ht; exact (portsOnly_vacate r lc m (some p)).trans (portsOnly_setCustody _ _ _ _)
  · cases ht

theorem portsOnly_takeProbe (c : CellPart) (lc k t p : Nat) (code : Option Code) (r : Replica) :
    portsOnlyOpt r (takeProbe c lc k t p code r) := by
  intro u hu
  unfold takeProbe at hu
  split at hu
  · simp only [Option.some.injEq] at hu
    rw [← hu]
    have h0 : ∀ ps, PortsOnly r { r with ports := ps } := fun _ => rfl
    refine (h0 (set1 r.ports p { portEntry r p with takeSeen := true, stamp := lc })).trans (PortsOnly.trans ?_ (portsOnly_finishPickup _ _ _))
    split
    · split
      · exact portsOnly_placeAtStation _ _ _ _ _
      · exact (portsOnly_placeAtStation _ _ _ _ _).trans ((portsOnly_setSuspect _ _ _).trans (portsOnly_makeLost _ _ _ _))
    · exact (portsOnly_makeLost _ _ _ _).trans (portsOnly_loseAll _ _ _ _)
  · cases hu

theorem portsOnly_abandonPort (lc k p : Nat) (inside : Bool) (r : Replica) : portsOnlyOpt r (abandonPort lc k p inside r) := by
  intro t ht
  unfold abandonPort at ht
  simp only at ht
  repeat' split at ht
  all_goals first
    | (cases ht; rfl)
    | cases ht

theorem portsOnly_mountProbe (c : CellPart) (lc k : Nat) (code : Option Code) (r : Replica) : PortsOnly r (mountProbe c lc k code r) := by
  unfold mountProbe
  split
  · exact portsOnly_placeAtStation _ _ _ _ _
  · exact portsOnly_loseAll _ _ _ _

theorem portsOnly_custodyBy (c : CellPart) (lc x : Nat) (cu : Custody) (r : Replica) : portsOnlyOpt r (custodyBy c lc x cu r) := by
  intro t ht
  unfold custodyBy at ht
  split at ht
  · cases ht
  · split at ht
    · split at ht
      · cases ht
        exact (portsOnly_placeAtPort _ _ _ _).trans ((portsOnly_setPortState _ _ _ _).trans (portsOnly_restamp _ _ _ _))
      · cases ht
    · split at ht
      · cases ht; exact portsOnly_placeAtStation _ _ _ _ _
      · cases ht
    · cases ht; exact portsOnly_makeLost _ _ _ _
    · cases ht

theorem portsOnly_leavePorts (c : CellPart) (lc k : Nat) (r : Replica) : PortsOnly r (leavePorts c lc k r) := by
  unfold leavePorts
  split
  · unfold rackLost
    simp only
    exact (portsOnly_foldl _ (fun r x => portsOnly_setCustody r lc x .lost) _ r).trans rfl
  · refine portsOnly_foldl _ (fun r p => ?_) _ r
    unfold dropReservation
    simp only
    repeat' split
    all_goals rfl

/-! ### The roster -/

/-- A service that a test picks is ended, its entry stamped (R35); every other entry stays. -/
theorem endServices_entry (lc : Nat) (p : Nat → Nat × Nat → Bool) (r : Replica) (k : Nat) (h1 : 1 ≤ k) (h2 : k ≤ r.roster.length) :
    rosterEntry (endServices lc p r) k = match (rosterEntry r k).serving with
      | none => rosterEntry r k
      | some v => if p k v then { rosterEntry r k with serving := none, stamp := lc } else rosterEntry r k := by
  unfold endServices rosterEntry
  simp only
  rw [at1_map1 _ _ _ _ h1 h2]
  all_goals (cases (at1 r.roster unseenEntry k).serving <;> rfl)

theorem endServices_outside (lc : Nat) (p : Nat → Nat × Nat → Bool) (r : Replica) (k : Nat) (h : ¬ (1 ≤ k ∧ k ≤ r.roster.length)) :
    rosterEntry (endServices lc p r) k = rosterEntry r k := by
  have e : ∀ l : List RosterEntry, ¬ (1 ≤ k ∧ k ≤ l.length) → at1 l unseenEntry k = unseenEntry := by
    intro l hl
    by_contra hc
    exact hl (at1_range l unseenEntry k hc)
  unfold rosterEntry endServices
  simp only
  rw [e _ h, e _ (by rw [map1_length]; exact h)]

/-- Ending services changes no entry but in its service and stamp (R35). -/
theorem endServices_keeps (lc : Nat) (p : Nat → Nat × Nat → Bool) (r : Replica) (k : Nat) :
    (rosterEntry (endServices lc p r) k).state = (rosterEntry r k).state ∧
    (rosterEntry (endServices lc p r) k).cause = (rosterEntry r k).cause ∧
    (rosterEntry (endServices lc p r) k).homed = (rosterEntry r k).homed ∧
    (rosterEntry (endServices lc p r) k).parked = (rosterEntry r k).parked := by
  by_cases h : 1 ≤ k ∧ k ≤ r.roster.length
  · rw [endServices_entry lc p r k h.1 h.2]
    split
    · exact ⟨rfl, rfl, rfl, rfl⟩
    · split <;> exact ⟨rfl, rfl, rfl, rfl⟩
  · rw [endServices_outside lc p r k h]
    exact ⟨rfl, rfl, rfl, rfl⟩

theorem endServices_length (lc : Nat) (p : Nat → Nat × Nat → Bool) (r : Replica) : (endServices lc p r).roster.length = r.roster.length := by
  simp only [endServices, map1_length]

/-! ### Latch and board -/

theorem emptyLatch_latch (lc k : Nat) (r : Replica) : (latchOf (emptyLatch lc k r) k).data = none ∧
    emptyLatch lc k r = { r with latches := (emptyLatch lc k r).latches } ∧ (emptyLatch lc k r).latches.length = r.latches.length := by
  unfold emptyLatch
  split
  · rename_i h
    obtain ⟨h1, h2⟩ := at1_range r.latches ⟨none, 0⟩ k (fun hc => by
      have : (latchOf r k).data = none := congrArg Latch.data hc
      rw [this] at h; cases h)
    refine ⟨?_, rfl, set1_length _ _ _⟩
    show (at1 (set1 r.latches k _) _ k).data = none
    rw [at1_set1_same _ _ _ _ h1 h2]
  · rename_i h
    refine ⟨by simpa using h, rfl, rfl⟩

theorem excludeEntries_all (lc k : Nat) (b : List BoardEntry) : ∀ e ∈ excludeEntries lc k b, e.station = k → e.excluded = true := by
  intro e he hk
  unfold excludeEntries at he
  obtain ⟨d, hd, rfl⟩ := List.mem_map.mp he
  by_cases hn : d.station = k ∧ d.excluded = false
  · rw [if_pos hn]
  · rw [if_neg hn] at hk ⊢
    by_contra hc
    exact hn ⟨hk, by simpa using hc⟩

/-- What silence, rejoin and refusal share leaves of the tables (R31, R33, R41). -/
structure Left (r t : Replica) (k : Nat) : Prop where
  cell : t.cell = r.cell
  zones : t.zones = r.zones
  claims : t.claims = r.claims
  length : t.roster.length = r.roster.length
  keeps : ∀ j, (rosterEntry t j).state = (rosterEntry r j).state
  services : ∀ j, j ≠ k → (rosterEntry t j).serving = (rosterEntry r j).serving
  board : ∀ e ∈ t.board, e.station = k → e.excluded = true
  latch : (latchOf t k).data = none

theorem leaveTables_left (c : CellPart) (lc k : Nat) (r : Replica) : Left r (leaveTables c lc k r) k := by
  unfold leaveTables
  simp only
  obtain ⟨h1, h2, h3⟩ := emptyLatch_latch lc k { r with board := excludeEntries lc k r.board }
  generalize emptyLatch lc k { r with board := excludeEntries lc k r.board } = a at h1 h2 h3 ⊢
  have h4 := portsOnly_leavePorts c lc k a
  generalize leavePorts c lc k a = b at h4 ⊢
  have hl : b.latches = a.latches := by rw [h4]
  have hb : b.board = excludeEntries lc k r.board := by rw [h4, h2]
  have hr : b.roster = r.roster := by rw [h4, h2]
  have he : ∀ j, rosterEntry b j = rosterEntry r j := by intro j; unfold rosterEntry; rw [hr]
  have ks := endServices_keeps lc (fun j _ => j == k) b
  refine ⟨by show b.cell = _; rw [h4, h2], by show b.zones = _; rw [h4, h2], by show b.claims = _; rw [h4, h2], ?_, ?_, ?_, ?_, ?_⟩
  · rw [endServices_length, hr]
  · intro j; rw [(ks j).1, he]
  · intro j hj
    by_cases hin : 1 ≤ j ∧ j ≤ b.roster.length
    · rw [endServices_entry _ _ _ _ hin.1 hin.2, he]
      split
      · rfl
      · simp [hj]
    · rw [endServices_outside _ _ _ _ hin, he]
  · show ∀ e ∈ b.board, _
    rw [hb]
    exact excludeEntries_all _ _ _
  · show (at1 b.latches _ k).data = none
    rw [hl]
    exact h1

/-! ### JOIN in a formed replica -/

theorem setRoster_length (r : Replica) (lc k : Nat) (e : RosterEntry) : (setRoster r lc k e).roster.length = r.roster.length := by
  unfold setRoster
  simp only
  split
  · rfl
  · exact set1_length _ _ _

/-- The first number of a range at which a test holds. -/
theorem find_lowest (p : Nat → Bool) (j : Nat) (h1 : 1 ≤ j) (h2 : j ≤ 14) (hj : p j = true) (hl : ∀ i, 1 ≤ i → i < j → p i = false) :
    ((List.range 14).map (· + 1)).find? p = some j := by
  rw [List.find?_eq_some_iff_append]
  refine ⟨hj, ((List.range (j - 1)).map (· + 1)), ((List.range (14 - j)).map (fun i => i + j + 1)), ?_, ?_⟩
  · interval_cases j <;> rfl
  · intro i hi
    obtain ⟨m, hm, rfl⟩ := List.mem_map.mp hi
    rw [List.mem_range] at hm
    simp [hl (m + 1) (by omega) (by omega)]

/-- The joiner's entry (R31). -/
def joinerEntry (lc : Nat) (h : Hdr) (cause : ResetCause) (e : RosterEntry) : RosterEntry :=
  { e with state := .joining, cause := some cause, homed := h.homed, parked := h.parked, stamp := lc }

/-- The replica of a JOIN before a snapshotter is chosen: the joiner's entry, and every service of it ended (R31, R35). -/
def joinEntered (lc : Nat) (h : Hdr) (cause : ResetCause) (r1 : Replica) : Replica :=
  endServices lc (fun _ v => v.1 == h.sender) { r1 with roster := set1 r1.roster h.sender (joinerEntry lc h cause (rosterEntry r1 h.sender)) }

/-- What a JOIN does to the roster: the joiner's entry, the other stations' states, and the services that end (R31, R35). -/
structure Entered (r t : Replica) (lc : Nat) (h : Hdr) (cause : ResetCause) (st : RosterState) : Prop where
  rest : t = { r with roster := t.roster }
  length : t.roster.length = r.roster.length
  joiner : (rosterEntry t h.sender).state = st ∧ (rosterEntry t h.sender).cause = some cause ∧
    (rosterEntry t h.sender).homed = h.homed ∧ (rosterEntry t h.sender).parked = h.parked ∧ (rosterEntry t h.sender).stamp = lc
  states : ∀ j, j ≠ h.sender → (rosterEntry t j).state = (rosterEntry r j).state
  services : ∀ j, j ≠ h.sender → (rosterEntry t j).serving = match (rosterEntry r j).serving with
    | none => none
    | some v => if v.1 = h.sender then none else some v

theorem joinEntered_entered (lc : Nat) (h : Hdr) (cause : ResetCause) (r : Replica) (h1 : 1 ≤ h.sender) (h2 : h.sender ≤ r.roster.length) :
    Entered r (joinEntered lc h cause r) lc h cause .joining := by
  unfold joinEntered
  generalize hu : ({ r with roster := set1 r.roster h.sender (joinerEntry lc h cause (rosterEntry r h.sender)) } : Replica) = u
  have hl : u.roster.length = r.roster.length := by rw [← hu]; exact set1_length _ _ _
  have he : rosterEntry u h.sender = joinerEntry lc h cause (rosterEntry r h.sender) := by
    rw [← hu]; exact at1_set1_same _ _ _ _ h1 h2
  have ho : ∀ j, j ≠ h.sender → rosterEntry u j = rosterEntry r j := by
    intro j hj; rw [← hu]; exact at1_set1_other _ _ _ _ _ hj
  have ks := endServices_keeps lc (fun _ v => v.1 == h.sender) u
  refine ⟨by rw [← hu]; rfl, by rw [endServices_length, hl], ?_, ?_, ?_⟩
  · refine ⟨by rw [(ks _).1, he]; rfl, by rw [(ks _).2.1, he]; rfl, by rw [(ks _).2.2.1, he]; rfl, by rw [(ks _).2.2.2, he]; rfl, ?_⟩
    rw [endServices_entry _ _ _ _ h1 (by rw [hl]; exact h2)]
    split
    · rw [he]; rfl
    · split
      · rfl
      · rw [he]; rfl
  · intro j hj; rw [(ks j).1, ho j hj]
  · intro j hj
    by_cases hin : 1 ≤ j ∧ j ≤ u.roster.length
    · rw [endServices_entry _ _ _ _ hin.1 hin.2, ho j hj]
      cases hs : (rosterEntry r j).serving with
      | none => simp [hs]
      | some v => by_cases hv : v.1 = h.sender <;> simp [hv, hs]
    · rw [endServices_outside _ _ _ _ hin, ho j hj]
      have hd : rosterEntry r j = unseenEntry := by
        by_contra hc
        have := at1_range r.roster unseenEntry j hc
        rw [← hl] at this
        exact hin this
      rw [hd]
      rfl

/-! ### The shadow (R34) -/

theorem rackApplied_replica (before : Replica) (s : Station) (f : Frame) (took : Bool) : (rackApplied before s f took).replica = s.replica := by
  have one : ∀ (t : Station) (p : Nat), (rackPortApplied before f took t p).replica = t.replica := by
    intro t p
    have key : ∀ a b c : Bool, (if a = true then reportRack (setLock t p .unlocked) p
        else if b = true then reportRack (setLock t p .locked) p else if c = true then reportRack t p else t).replica = t.replica := by
      intro a b c
      split
      · rw [(reportRack_works _ _).replica]; rfl
      · split
        · rw [(reportRack_works _ _).replica]; rfl
        · split
          · rw [(reportRack_works _ _).replica]
          · rfl
    exact key _ _ _
  unfold rackApplied
  split
  · rename_i hw
    clear hw
    generalize ((List.range (cellOf s).ports.length).map (· + 1)) = l
    induction l generalizing s with
    | nil => rfl
    | cons a l ih => rw [List.foldl_cons, ih, one]
  · rfl

/-- Behind the Replica Unit no unit changes what it holds (log 15). -/
theorem react_replica (before : Replica) (s : Station) (f : Frame) (fx : Fx) :
    (react before s f fx).replica = (servingApplied s f fx).replica := by
  unfold react
  simp only
  rw [(foldl_works _ reportCondition_works _ _).replica, (mountApplied_works _ _ _ _).replica, (closingApplied_works _ _ _).replica,
    (changeApplied_works _ _ _).replica, rackApplied_replica, (claimApplied_works _ _ _).replica, (withdrawStale_works _).replica]

/-- Snapshot frames offered move the shadow's place and nothing else in it. -/
theorem offerSnapshots_shadow (s : Station) (sh : Shadow) (h : s.replica.shadow = some sh) :
    ∃ n, (offerSnapshots s).replica.shadow = some { sh with next := n } := by
  have h1 : ∀ (k : Nat) (t : Station), (offerNotices k t).replica.shadow = t.replica.shadow := by
    intro k
    induction k with
    | zero => intro t; rfl
    | succ k ih =>
      intro t
      unfold offerNotices
      split
      · rfl
      · simp only
        split
        · rw [ih]
        · rfl
  have h2 : ∀ (k : Nat) (t : Station) (m : Nat), t.replica.shadow = some { sh with next := m } →
      ∃ n, (offerShadow k t).replica.shadow = some { sh with next := n } := by
    intro k
    induction k with
    | zero => intro t m ht; exact ⟨m, ht⟩
    | succ k ih =>
      intro t m ht
      unfold offerShadow
      simp only [ht]
      split
      · exact ⟨m, ht⟩
      · split
        · exact ih _ (m + 1) rfl
        · exact ⟨m, ht⟩
  unfold offerSnapshots
  simp only
  split
  · exact h2 _ _ sh.next (by rw [h1, h])
  · exact ⟨sh.next, by rw [h1, h]⟩

end Sys2Proof.Laws
end

