-- ==== Sys2Proof/Laws/Order.lean ====
section
/-! SUPPORT. The claim list through a grant scan: its order (R51), one claim for each claimant, no claim that wants a zone its claimant
holds, the passed count (R54), and what an escalation leaves (R55). -/

namespace Sys2Proof.Laws

open Sys2Proof.Machine

/-! ### The order of R51 as a key -/

/-- The place of a claim among the others but for its count: URGENT first, then by base priority. -/
def claimRank (c : Claim) : Nat := if c.urgent then 0 else 1 + prioRank c.base

/-- Claim `a` may stand before claim `b`. -/
def NotAfter (a b : Claim) : Prop := claimBefore b a = false

theorem claimBefore_iff (a b : Claim) :
    claimBefore a b = true ↔ claimRank a < claimRank b ∨ (claimRank a = claimRank b ∧ a.count < b.count) := by
  unfold claimBefore claimRank
  cases a.urgent <;> cases b.urgent <;> simp only [Bool.and_self, Bool.and_true, Bool.and_false, Bool.false_eq_true, if_false, if_true,
    decide_eq_true_eq]
  · split
    · rename_i h; rw [beq_iff_eq] at h; rw [decide_eq_true_eq]; omega
    · rename_i h; rw [beq_iff_eq] at h; rw [decide_eq_true_eq]; omega
  all_goals first | omega | simp

theorem notAfter_iff (a b : Claim) : NotAfter a b ↔ claimRank a < claimRank b ∨ (claimRank a = claimRank b ∧ a.count ≤ b.count) := by
  unfold NotAfter
  rw [← Bool.not_eq_true, claimBefore_iff]
  omega

theorem notAfter_trans {a b c : Claim} (h : NotAfter a b) (k : NotAfter b c) : NotAfter a c := by
  rw [notAfter_iff] at *; omega

theorem notAfter_of_before {a b : Claim} (h : claimBefore a b = true) : NotAfter a b := by
  rw [claimBefore_iff] at h; rw [notAfter_iff]; omega

/-! ### Insertion and sorting -/

theorem insertClaim_perm (c : Claim) (l : List Claim) : (insertClaim c l).Perm (c :: l) := by
  induction l with
  | nil => exact .refl _
  | cons d r ih =>
    unfold insertClaim
    split
    · exact .refl _
    · exact (List.Perm.cons d ih).trans (.swap c d r)

theorem insertClaim_order (c : Claim) {l : List Claim} (h : l.Pairwise NotAfter) : (insertClaim c l).Pairwise NotAfter := by
  induction l with
  | nil => exact List.pairwise_singleton _ _
  | cons d r ih =>
    obtain ⟨h1, h2⟩ := List.pairwise_cons.mp h
    unfold insertClaim
    split
    · rename_i hb
      have hcd := notAfter_of_before hb
      refine List.pairwise_cons.mpr ⟨fun e he => ?_, h⟩
      rcases List.mem_cons.mp he with rfl | he
      · exact hcd
      · exact notAfter_trans hcd (h1 e he)
    · rename_i hb
      refine List.pairwise_cons.mpr ⟨fun e he => ?_, ih h2⟩
      rcases mem_insertClaim.mp he with rfl | he
      · exact (Bool.not_eq_true _).mp hb
      · exact h1 e he

theorem orderClaims_perm (l : List Claim) : (orderClaims l).Perm l := by
  have key : ∀ (l acc : List Claim), (l.foldl (fun acc c => insertClaim c acc) acc).Perm (l ++ acc) := by
    intro l
    induction l with
    | nil => intro acc; exact .refl _
    | cons e r ih =>
      intro acc
      rw [List.foldl_cons]
      refine (ih _).trans ?_
      exact (List.Perm.append_left r (insertClaim_perm e acc)).trans List.perm_middle
  exact (key l []).trans (by rw [List.append_nil])

theorem orderClaims_order (l : List Claim) : (orderClaims l).Pairwise NotAfter := by
  have key : ∀ (l acc : List Claim), acc.Pairwise NotAfter → (l.foldl (fun acc c => insertClaim c acc) acc).Pairwise NotAfter := by
    intro l
    induction l with
    | nil => intro acc h; exact h
    | cons e r ih => intro acc h; exact ih _ (insertClaim_order e h)
  exact key l [] .nil

/-! ### What every claim list keeps -/

/-- The claim list of a zone table: in order, one claim for each claimant, none that wants a zone its claimant holds, no passed
count above its top (R51). -/
structure ClaimsIn (zs : List ZoneEntry) (l : List Claim) : Prop where
  order : l.Pairwise NotAfter
  one : (l.map (·.claimant)).Nodup
  wanted : ∀ d ∈ l, ∀ z < 32, d.wanted.getLsbD z = true → (zs.getD z ⟨.free, 0⟩).hold ≠ .held d.claimant
  passed : ∀ d ∈ l, d.passed ≤ 255

theorem ClaimsIn.nil (zs : List ZoneEntry) : ClaimsIn zs [] := ⟨.nil, .nil, fun _ h => (nomatch h), fun _ h => (nomatch h)⟩

theorem ClaimsIn.sublist {zs : List ZoneEntry} {a l : List Claim} (h : ClaimsIn zs l) (s : a.Sublist l) : ClaimsIn zs a :=
  ⟨h.order.sublist s, h.one.sublist (s.map _), fun d hd => h.wanted d (s.subset hd), fun d hd => h.passed d (s.subset hd)⟩

theorem ClaimsIn.drop {zs : List ZoneEntry} {l : List Claim} (h : ClaimsIn zs l) (k : Nat) : ClaimsIn zs (dropClaim l k) :=
  h.sublist List.filter_sublist

/-- A zone table in which no claimant holds more than before, or only one whose claim is not in the list. -/
theorem ClaimsIn.zones {zs ys : List ZoneEntry} {l : List Claim} (h : ClaimsIn zs l)
    (hz : ∀ d ∈ l, ∀ z < 32, (ys.getD z ⟨.free, 0⟩).hold = .held d.claimant → (zs.getD z ⟨.free, 0⟩).hold = .held d.claimant) :
    ClaimsIn ys l :=
  ⟨h.order, h.one, fun d hd z hz32 hw hh => h.wanted d hd z hz32 hw (hz d hd z hz32 hh), h.passed⟩

/-- A new claim joins the list at its place. -/
theorem ClaimsIn.insert {zs : List ZoneEntry} {l : List Claim} (h : ClaimsIn zs l) (c : Claim) (hn : ∀ d ∈ l, d.claimant ≠ c.claimant)
    (hw : ∀ z < 32, c.wanted.getLsbD z = true → (zs.getD z ⟨.free, 0⟩).hold ≠ .held c.claimant) (hp : c.passed ≤ 255) :
    ClaimsIn zs (insertClaim c l) := by
  refine ⟨insertClaim_order c h.order, ?_, fun d hd => ?_, fun d hd => ?_⟩
  · refine ((insertClaim_perm c l).map (·.claimant)).nodup_iff.mpr ?_
    rw [List.map_cons, List.nodup_cons]
    refine ⟨fun hm => ?_, h.one⟩
    obtain ⟨d, hd, he⟩ := List.mem_map.mp hm
    exact hn d hd he
  · rcases mem_insertClaim.mp hd with rfl | hd
    · exact hw
    · exact h.wanted d hd
  · rcases mem_insertClaim.mp hd with rfl | hd
    · exact hp
    · exact h.passed d hd

theorem claimRank_pass (c : Claim) : claimRank (passOnce c) = claimRank c := rfl

theorem pairwise_pass {l : List Claim} (h : l.Pairwise NotAfter) : (l.map passOnce).Pairwise NotAfter := by
  rw [List.pairwise_map]
  refine h.imp fun {a b} hab => ?_
  rw [notAfter_iff] at *
  exact hab

/-- A walk keeps the list in order, grants only what is free, and what stays comes from what was there (R53, R54). -/
theorem walk_claims (lc : Nat) (rest : List Claim) : ∀ (ahead : List Claim) (zs : List ZoneEntry),
    ClaimsIn zs (ahead ++ rest) → ClaimsIn (walk lc ahead rest zs).2 (walk lc ahead rest zs).1 := by
  induction rest with
  | nil => intro ahead zs h; simpa [walk] using h
  | cons a rest ih =>
    intro ahead zs h
    unfold walk
    split
    · apply ih
      have hs : (ahead ++ rest).Sublist (ahead ++ a :: rest) := List.Sublist.append_left (List.sublist_cons_self a rest) ahead
      have h1 := h.sublist hs
      have hne : ∀ d ∈ ahead ++ rest, d.claimant ≠ a.claimant := by
        intro d hd he
        have hn := h.one
        rw [List.map_append, List.map_cons, List.nodup_middle, List.nodup_cons] at hn
        apply hn.1
        rw [← List.map_append, ← he]
        exact List.mem_map_of_mem hd
      have hmem : ∀ d ∈ ahead.map passOnce ++ rest, ∃ e ∈ ahead ++ rest, d.claimant = e.claimant ∧ d.wanted = e.wanted ∧
          (d = e ∨ d = passOnce e) := by
        intro d hd
        rcases List.mem_append.mp hd with hd | hd
        · obtain ⟨e, he, rfl⟩ := List.mem_map.mp hd
          exact ⟨e, List.mem_append_left _ he, rfl, rfl, .inr rfl⟩
        · exact ⟨d, List.mem_append_right _ hd, rfl, rfl, .inl rfl⟩
      refine ⟨?_, ?_, fun d hd z hz hw => ?_, fun d hd => ?_⟩
      · have ho := h1.order
        rw [List.pairwise_append] at ho ⊢
        refine ⟨pairwise_pass ho.1, ho.2.1, fun x hx y hy => ?_⟩
        obtain ⟨w, hw, rfl⟩ := List.mem_map.mp hx
        have := ho.2.2 w hw y hy
        rw [notAfter_iff] at *
        exact this
      · have := h1.one
        rw [List.map_append] at this ⊢
        rw [List.map_map]
        exact this
      · obtain ⟨e, he, e1, e2, _⟩ := hmem d hd
        rw [e1]
        rw [e2] at hw
        by_cases hzl : z < zs.length
        · rw [setHold_getD _ _ _ _ _ hzl]
          split
          · exact fun hc => hne e he (ZoneHold.held.inj hc).symm
          · exact h1.wanted e he z hz hw
        · rw [List.getD_eq_default _ _ (by rw [setHold_length]; omega)]
          exact nofun
      · obtain ⟨e, he, _, _, e3⟩ := hmem d hd
        rcases e3 with rfl | rfl
        · exact h1.passed _ he
        · exact Nat.min_le_left _ _
    · apply ih
      simpa using h

/-- An escalation puts the list in order again, and no claim that is not URGENT has been passed to the starve limit (R55). -/
theorem escalate_claims {zs : List ZoneEntry} {l : List Claim} (starve : Nat) (h : ClaimsIn zs l) :
    ClaimsIn zs (escalate starve l) ∧ ∀ d ∈ escalate starve l, d.urgent = false → d.passed < starve := by
  set f : Claim → Claim := fun c => if !c.urgent && decide (starve ≤ c.passed) then { c with urgent := true } else c with hf
  have hk : ∀ c, (f c).claimant = c.claimant ∧ (f c).wanted = c.wanted ∧ (f c).passed = c.passed := by
    intro c; rw [hf]; simp only; split <;> exact ⟨rfl, rfl, rfl⟩
  have hm : ∀ d ∈ escalate starve l, ∃ c ∈ l, d = f c := by
    intro d hd
    obtain ⟨c, hc, rfl⟩ := List.mem_map.mp (mem_orderClaims.mp hd)
    exact ⟨c, hc, rfl⟩
  refine ⟨⟨orderClaims_order _, ?_, fun d hd => ?_, fun d hd => ?_⟩, fun d hd hu => ?_⟩
  · refine ((orderClaims_perm _).map (·.claimant)).nodup_iff.mpr ?_
    rw [List.map_map]
    have : (fun x : Claim => x.claimant) ∘ f = (·.claimant) := funext fun c => (hk c).1
    rw [this]
    exact h.one
  · obtain ⟨c, hc, rfl⟩ := hm d hd
    rw [(hk c).1, (hk c).2.1]
    exact h.wanted c hc
  · obtain ⟨c, hc, rfl⟩ := hm d hd
    rw [(hk c).2.2]
    exact h.passed c hc
  · obtain ⟨c, hc, rfl⟩ := hm d hd
    rw [hf] at hu ⊢
    simp only at hu ⊢
    split at hu
    · cases hu
    · rename_i hn
      rw [if_neg hn]
      simp only [Bool.and_eq_true, Bool.not_eq_true', decide_eq_true_eq, not_and, Nat.not_le] at hn
      exact hn hu

theorem scanSteps_claims (starve lc n : Nat) : ∀ (l : List Claim) (zs : List ZoneEntry), ClaimsIn zs l →
    ClaimsIn (scanSteps starve lc n l zs).2.1 (scanSteps starve lc n l zs).1 := by
  induction n with
  | zero => intro l zs h; exact h
  | succ n ih =>
    intro l zs h
    have h1 := (escalate_claims starve (walk_claims lc l [] zs h)).1
    unfold scanSteps
    simp only
    split
    · exact h1
    · exact ih _ _ (h1.drop _)

/-- A grant scan keeps what every claim list keeps. -/
theorem scan_claims (c : CellPart) (lc : Nat) (r : Replica) (h : ClaimsIn r.zones r.claims) :
    ClaimsIn (scan c lc r).1.zones (scan c lc r).1.claims := scanSteps_claims _ _ _ _ _ h

end Sys2Proof.Laws
end

