-- ==== Sys2Proof/Laws/Lists.lean ====
section
/-! SUPPORT. The lists of a replica whose length a rule bounds (R51, R98, R130), through the application of a frame: one lemma for each
operation over the tables, and one for `applyFormed`. -/

namespace Sys2Proof.Laws

open Sys2Proof.Machine

/-! ### Tip entries -/

/-- No probe has more or fewer tip entries than before. -/
def SameTips (r t : Replica) : Prop := ∀ x, (probeRec t x).tips.length = (probeRec r x).tips.length

theorem SameTips.refl (r : Replica) : SameTips r r := fun _ => rfl
theorem SameTips.trans {r t u : Replica} (h : SameTips r t) (k : SameTips t u) : SameTips r u := fun x => (k x).trans (h x)
theorem sameTips_of {r t : Replica} (h : t.probes = r.probes) : SameTips r t := fun x => by unfold probeRec; rw [h]

theorem at1_set1 {α : Type} (l : List α) (d v : α) (n m : Nat) :
    at1 (set1 l n v) d m = if m = n ∧ 1 ≤ n ∧ n ≤ l.length then v else at1 l d m := by
  by_cases h : m = n
  · subst h
    by_cases hin : 1 ≤ m ∧ m ≤ l.length
    · rw [at1_set1_same _ _ _ _ hin.1 hin.2, if_pos ⟨rfl, hin⟩]
    · rw [if_neg (fun x => hin x.2), at1_outside _ _ _ hin, at1_outside _ _ _ (by rw [set1_length]; exact hin)]
  · rw [at1_set1_other _ _ _ _ _ h, if_neg (fun x => h x.1)]

theorem sameTips_set {r : Replica} {x : Nat} {e : ProbeRec} (h : e.tips.length = (probeRec r x).tips.length) :
    SameTips r { r with probes := set1 r.probes x e } := by
  intro y
  show (at1 (set1 r.probes x e) _ y).tips.length = _
  rw [at1_set1]
  split
  · rename_i hy; rw [hy.1]; exact h
  · rfl

theorem sameTips_foldl {α : Type} (f : Replica → α → Replica) (hf : ∀ r a, SameTips r (f r a)) (l : List α) (r : Replica) :
    SameTips r (l.foldl f r) := by
  induction l generalizing r with
  | nil => exact .refl r
  | cons a l ih => exact (hf r a).trans (ih _)

theorem sameTips_custody (r : Replica) (lc x : Nat) (cu : Custody) : SameTips r (setCustody r lc x cu) := sameTips_set rfl
theorem sameTips_suspect (r : Replica) (lc x : Nat) : SameTips r (setSuspect r lc x) := sameTips_set rfl
theorem sameTips_vacate (r : Replica) (lc x : Nat) (keep : Option Nat) : SameTips r (vacate r lc x keep) :=
  sameTips_of (vacate_probes r lc x keep)

theorem sameTips_lost (r : Replica) (lc : Nat) (keep : Option Nat) (x : Nat) : SameTips r (makeLost r lc keep x) := by
  unfold makeLost
  split
  · exact .refl r
  · exact (sameTips_vacate r lc x keep).trans (sameTips_custody _ _ _ _)

theorem sameTips_loseAll (lc : Nat) (keep : Option Nat) (xs : List Nat) (r : Replica) : SameTips r (loseAll lc keep xs r) :=
  sameTips_foldl _ (fun _ _ => sameTips_lost _ _ _ _) xs r

theorem sameTips_clearPort (r : Replica) (lc p x : Nat) : SameTips r (clearPort r lc p x) :=
  sameTips_foldl _ (fun r y => by
    by_cases h : y = x
    · simp only [h, if_true]; exact .refl r
    · simp only [h, if_false]; exact sameTips_custody _ _ _ _) _ r

theorem sameTips_atPort (r : Replica) (lc x p : Nat) : SameTips r (placeAtPort r lc x p) :=
  ((sameTips_vacate r lc x _).trans (sameTips_clearPort _ _ _ _)).trans (sameTips_custody _ _ _ _)

theorem sameTips_atStation (r : Replica) (lc x k : Nat) (keep : Option Nat) : SameTips r (placeAtStation r lc x k keep) :=
  ((sameTips_vacate r lc x keep).trans (sameTips_loseAll _ _ _ _)).trans (sameTips_custody _ _ _ _)

theorem sameTips_follow (c : CellPart) (lc p : Nat) (present : Bool) (code : Option Code) (r : Replica) :
    SameTips r (followReport c lc p present code r) := by
  unfold followReport
  simp only
  split
  · split
    · split
      · exact .refl r
      · exact (sameTips_atPort r lc _ p).trans (sameTips_of rfl)
    · split
      · exact (sameTips_lost r lc _ _).trans (sameTips_of rfl)
      · exact sameTips_of rfl
  · split
    · exact (sameTips_lost r lc _ _).trans (sameTips_of rfl)
    · exact sameTips_of rfl

theorem sameTips_settle (c : CellPart) (lc p m : Nat) (present : Bool) (code : Option Code) (r : Replica) :
    SameTips r (settleDeposit c lc p m present code r) := by
  unfold settleDeposit
  split
  · exact .refl r
  · split
    · split
      · exact (sameTips_atPort r lc m p).trans (sameTips_of rfl)
      · exact (((sameTips_atPort r lc _ p).trans (sameTips_lost _ _ _ _)).trans (sameTips_suspect _ _ _)).trans (sameTips_of rfl)
    · exact ((sameTips_lost r lc _ _).trans (sameTips_suspect _ _ _)).trans (sameTips_of rfl)

theorem sameTips_finish (r : Replica) (lc p : Nat) : SameTips r (finishPickup r lc p) := by
  unfold finishPickup
  simp only
  split <;> exact sameTips_of rfl

theorem sameTips_report (c : CellPart) (lc p : Nat) (present : Bool) (lock : Lock) (code : Option Code) (r : Replica) :
    SameTips r (reportPort c lc p present lock code r) := by
  have key : ∀ (st : PortState) (r1 : Replica), SameTips r1 (match st with
      | .reserved _ .deposit m => if lock = .locked then settleDeposit c lc p m present code r1 else r1
      | .reserved _ .pickup _ => if lock = .locked && !present then finishPickup r1 lc p else r1
      | _ => followReport c lc p present code r1) := by
    intro st r1
    split
    · split
      · exact sameTips_settle _ _ _ _ _ _ _
      · exact .refl _
    · split
      · exact sameTips_finish _ _ _
      · exact .refl _
    · exact sameTips_follow _ _ _ _ _ _
  unfold reportPort
  simp only
  have h0 : ∀ ps, SameTips r { r with ports := ps } := fun _ => sameTips_of rfl
  refine (h0 (set1 r.ports p { portEntry r p with
    presence := if present then .present else .absent, lock := lock, ident := code })).trans (SameTips.trans ?_ (sameTips_of rfl))
  exact key _ _

theorem sameTips_reserve {c : CellPart} {lc k p x : Nat} {purpose : Purpose} {r t : Replica} (h : reservePort c lc k p purpose x r = some t) :
    SameTips r t := by
  have key : ∀ b : Bool, (if b = true then
      some { r with ports := set1 r.ports p { portEntry r p with state := .reserved k purpose x, takeSeen := false, stamp := lc } } else none) = some t →
        SameTips r t := by
    intro b ht
    split at ht
    · cases ht; exact sameTips_of rfl
    · cases ht
  exact key _ h

theorem sameTips_deposit {lc k m p : Nat} {r t : Replica} (h : depositProbe lc k m p r = some t) : SameTips r t := by
  unfold depositProbe at h
  split at h
  · cases h; exact (sameTips_vacate r lc m _).trans (sameTips_custody _ _ _ _)
  · cases h

theorem sameTips_take {c : CellPart} {lc k t p : Nat} {code : Option Code} {r u : Replica} (h : takeProbe c lc k t p code r = some u) :
    SameTips r u := by
  have key : ∀ r1 : Replica, SameTips r1 (match probeByCode c code with
      | some x =>
        if x = t then placeAtStation r1 lc t k (some p)
        else makeLost (setSuspect (placeAtStation r1 lc x k (some p)) lc x) lc (some p) t
      | none => loseAll lc (some p) (probesWith (makeLost r1 lc (some p) t) (fun cu => cu == .station k)) (makeLost r1 lc (some p) t)) := by
    intro r1
    split
    · split
      · exact sameTips_atStation _ _ _ _ _
      · exact ((sameTips_atStation _ _ _ _ _).trans (sameTips_suspect _ _ _)).trans (sameTips_lost _ _ _ _)
    · exact (sameTips_lost _ _ _ _).trans (sameTips_loseAll _ _ _ _)
  have h0 : ∀ ps, SameTips r { r with ports := ps } := fun _ => sameTips_of rfl
  unfold takeProbe at h
  split at h
  · cases h
    exact (h0 _).trans ((key _).trans (sameTips_finish _ _ _))
  · cases h

theorem sameTips_abandon {lc k p : Nat} {inside : Bool} {r t : Replica} (h : abandonPort lc k p inside r = some t) : SameTips r t := by
  unfold abandonPort at h
  simp only at h
  split at h
  · split at h
    · split at h
      · split at h
        · cases h
          split
          · exact (sameTips_custody _ _ _ _).trans (sameTips_of rfl)
          · exact sameTips_of rfl
        · cases h; exact sameTips_of rfl
      · split at h
        · cases h
          split
          · exact (sameTips_custody _ _ _ _).trans (sameTips_of rfl)
          · exact sameTips_of rfl
        · split at h <;> cases h <;> exact sameTips_of rfl
    · cases h
  · cases h

theorem sameTips_mount (c : CellPart) (lc k : Nat) (code : Option Code) (r : Replica) : SameTips r (mountProbe c lc k code r) := by
  unfold mountProbe
  split
  · exact sameTips_atStation _ _ _ _ _
  · exact sameTips_loseAll _ _ _ _

theorem sameTips_by {c : CellPart} {lc x : Nat} {cu : Custody} {r t : Replica} (h : custodyBy c lc x cu r = some t) : SameTips r t := by
  unfold custodyBy at h
  split at h
  · cases h
  · split at h
    · split at h
      · cases h; exact (sameTips_atPort r lc x _).trans (sameTips_of rfl)
      · cases h
    · split at h
      · cases h; exact sameTips_atStation _ _ _ _ _
      · cases h
    · cases h; exact sameTips_lost _ _ _ _
    · cases h

theorem sameTips_drop (lc k p : Nat) (r : Replica) : SameTips r (dropReservation lc k p r) := by
  unfold dropReservation
  simp only
  split
  · split
    · split
      · split
        · exact (sameTips_custody _ _ _ _).trans (sameTips_of rfl)
        · exact sameTips_of rfl
      · split
        · split
          · exact (sameTips_custody _ _ _ _).trans (sameTips_of rfl)
          · exact sameTips_of rfl
        · exact sameTips_of rfl
    · exact .refl r
  · exact .refl r

theorem sameTips_leave (c : CellPart) (lc k : Nat) (r : Replica) : SameTips r (leavePorts c lc k r) := by
  unfold leavePorts
  split
  · exact SameTips.trans (sameTips_foldl _ (fun _ _ => sameTips_custody _ _ _ _) _ r) (sameTips_of rfl)
  · exact sameTips_foldl _ (fun _ _ => sameTips_drop _ _ _ _) _ r

theorem sameTips_stamp (r : Replica) (lc x : Nat) {e : ProbeRec} (h : e.tips.length = (probeRec r x).tips.length) :
    SameTips r (stampProbe r lc x e) := by
  unfold stampProbe
  simp only
  split
  · exact .refl r
  · exact sameTips_set h

theorem checkStale_tips (c : CellPart) (b : Option BoardEntry) (e : ProbeRec) : (checkStale c b e).tips.length = e.tips.length := by
  unfold checkStale
  split
  · split
    · split
      · rfl
      · split
        · exact List.length_map _
        · rfl
    · rfl
  · rfl

theorem countTouch_tips (c : CellPart) (e : ProbeRec) : (countTouch c e).tips.length = e.tips.length := by
  unfold countTouch
  split
  · rfl
  · simp only
    split
    · exact List.length_map _
    · rfl

/-- At most `n` tip entries to a probe. -/
def TipsAtMost (n : Nat) (r : Replica) : Prop := ∀ x, (probeRec r x).tips.length ≤ n

theorem SameTips.most {n : Nat} {r t : Replica} (h : SameTips r t) (k : TipsAtMost n r) : TipsAtMost n t := fun x => (h x).le.trans (k x)

/-! ### The thermal board -/

/-- The order of the board: by station and then by input. -/
def BoardBefore (a b : BoardEntry) : Prop := a.station < b.station ∨ (a.station = b.station ∧ a.input < b.input)

/-- What the board keeps (R98, R99). -/
structure BoardOk (c : CellPart) (b : List BoardEntry) : Prop where
  order : b.Pairwise BoardBefore
  range : ∀ e ∈ b, roleIn c e.station = .mc410 ∧ 1 ≤ e.input ∧ e.input ≤ 8

theorem BoardOk.exclude {c : CellPart} {b : List BoardEntry} (h : BoardOk c b) (lc k : Nat) : BoardOk c (excludeEntries lc k b) := by
  set f : BoardEntry → BoardEntry := fun e => if e.station = k ∧ e.excluded = false then { e with excluded := true, stamp := lc } else e with hf
  have hk : ∀ e, (f e).station = e.station ∧ (f e).input = e.input := by
    intro e; rw [hf]; simp only; split <;> exact ⟨rfl, rfl⟩
  refine ⟨?_, fun e he => ?_⟩
  · show (b.map f).Pairwise BoardBefore
    rw [List.pairwise_map]
    refine h.order.imp fun {x y} hxy => ?_
    unfold BoardBefore at *
    rw [(hk x).1, (hk x).2, (hk y).1, (hk y).2]
    exact hxy
  · obtain ⟨d, hd, rfl⟩ := List.mem_map.mp he
    show roleIn c (f d).station = _ ∧ 1 ≤ (f d).input ∧ (f d).input ≤ 8
    rw [(hk d).1, (hk d).2]
    exact h.range d hd

/-- A THERMAL's entry for one input, where it has one. -/
def boardEntry (lc k : Nat) (es : List ThermEntry) (i : Nat) : List BoardEntry :=
  match es.find? (fun e => e.input == i) with
  | none => []
  | some e => [⟨k, i, e.kind, e.value, e.state, false, lc⟩]

theorem mem_boardEntry {lc k i : Nat} {es : List ThermEntry} {e : BoardEntry} (h : e ∈ boardEntry lc k es i) : e.station = k ∧ e.input = i := by
  unfold boardEntry at h
  split at h
  · cases h
  · rw [List.mem_singleton.mp h]; exact ⟨rfl, rfl⟩

theorem boardEntries_order (lc k : Nat) (es : List ThermEntry) (l : List Nat) (hl : l.Pairwise (· < ·)) :
    (l.flatMap (boardEntry lc k es)).Pairwise BoardBefore := by
  rw [List.pairwise_flatMap]
  refine ⟨fun i _ => ?_, hl.imp fun {i j} hij => ?_⟩
  · unfold boardEntry
    split
    · exact .nil
    · exact List.pairwise_singleton _ _
  · intro x hx y hy
    obtain ⟨a1, a2⟩ := mem_boardEntry hx
    obtain ⟨b1, b2⟩ := mem_boardEntry hy
    exact .inr ⟨by rw [a1, b1], by rw [a2, b2]; exact hij⟩

theorem BoardOk.place {c : CellPart} {b : List BoardEntry} (h : BoardOk c b) (lc k : Nat) (es : List ThermEntry) (hr : roleIn c k = .mc410) :
    BoardOk c (placeThermal lc k es b) := by
  have hrange : ((List.range 8).map (· + 1)).Pairwise (· < ·) := by decide
  have hmem : ∀ e ∈ boardEntries lc k es, e.station = k ∧ 1 ≤ e.input ∧ e.input ≤ 8 := by
    intro e he
    obtain ⟨i, hi, hm⟩ := List.mem_flatMap.mp he
    obtain ⟨j, hj, rfl⟩ := List.mem_map.mp hi
    rw [List.mem_range] at hj
    obtain ⟨m1, m2⟩ := mem_boardEntry hm
    exact ⟨m1, by omega, by omega⟩
  refine ⟨?_, fun e he => ?_⟩
  · unfold placeThermal
    rw [List.pairwise_append]
    refine ⟨h.order.sublist List.filter_sublist, ?_, fun x hx y hy => ?_⟩
    · rw [List.pairwise_append]
      refine ⟨boardEntries_order lc k es _ hrange, h.order.sublist List.filter_sublist, fun x hx y hy => ?_⟩
      have h1 := (hmem x hx).1
      have h2 := of_decide_eq_true (List.mem_filter.mp hy).2
      exact .inl (by omega)
    · have h1 := of_decide_eq_true (List.mem_filter.mp hx).2
      rcases List.mem_append.mp hy with hy | hy
      · have h2 := (hmem y hy).1
        exact .inl (by omega)
      · have h2 := of_decide_eq_true (List.mem_filter.mp hy).2
        exact .inl (by omega)
  · unfold placeThermal at he
    rcases List.mem_append.mp he with he | he
    · exact h.range e (List.mem_filter.mp he).1
    · rcases List.mem_append.mp he with he | he
      · obtain ⟨m1, m2, m3⟩ := hmem e he
        exact ⟨by rw [m1]; exact hr, m2, m3⟩
      · exact h.range e (List.mem_filter.mp he).1

/-! ### The lists together -/

/-- The claim list with the roles of its claimants. -/
def ClaimsFor (c : CellPart) (zs : List ZoneEntry) (l : List Claim) : Prop := ClaimsIn zs l ∧ ∀ d ∈ l, roleIn c d.claimant = .mc410

theorem listsOk_iff (c : CellPart) (r : Replica) :
    ListsOk c r ↔ ClaimsFor c r.zones r.claims ∧ BoardOk c r.board ∧ TipsAtMost 6 r :=
  ⟨fun h => ⟨⟨⟨h.claimOrder, h.claimants, h.wanted, h.passed⟩, h.claimRole⟩, ⟨h.boardOrder, h.boardRange⟩, h.tips⟩,
   fun ⟨h1, h2, h3⟩ => ⟨h1.1.order, h1.1.one, h1.2, h1.1.wanted, h1.1.passed, h2.order, h2.range, h3⟩⟩

/-- An operation that leaves the claims, the zones and the board, and the number of tip entries, keeps the lists. -/
theorem lists_same {c : CellPart} {r t : Replica} (h : ListsOk c r) (h1 : t.claims = r.claims) (h2 : t.zones = r.zones)
    (h3 : t.board = r.board) (h4 : SameTips r t) : ListsOk c t := by
  rw [listsOk_iff] at *
  rw [h1, h2, h3]
  exact ⟨h.1, h.2.1, h4.most h.2.2⟩

theorem lists_ports {c : CellPart} {r t : Replica} (h : ListsOk c r) (hp : PortsOnly r t) (h4 : SameTips r t) : ListsOk c t := by
  unfold PortsOnly at hp
  refine lists_same h ?_ ?_ ?_ h4 <;> rw [hp]

theorem lists_claims {c : CellPart} {r t : Replica} (h : ListsOk c r) (h1 : ClaimsFor c t.zones t.claims) (h3 : t.board = r.board)
    (h4 : t.probes = r.probes) : ListsOk c t := by
  rw [listsOk_iff] at *
  rw [h3]
  exact ⟨h1, h.2.1, (sameTips_of h4).most h.2.2⟩

theorem lists_scan {c d : CellPart} {r : Replica} (h : ListsOk c r) (lc : Nat) : ListsOk c (scan d lc r).1 := by
  obtain ⟨h1, _, _⟩ := (listsOk_iff c r).mp h
  refine lists_claims h ⟨scan_claims d lc r h1.1, fun x hx => ?_⟩ rfl rfl
  obtain ⟨y, hy, e, _⟩ := (scanSteps_facts d.starve lc (r.claims.length + 1) r.claims r.zones).2 x hx
  rw [e]; exact h1.2 y hy

theorem lists_withScan {c d : CellPart} {r : Replica} (h : ListsOk c r) (lc : Nat) (fx : Fx) : ListsOk c (withScan d lc fx r).1 := lists_scan h lc

/-- Zones whose holders are no more than before, or more of a station whose claim is dropped. -/
theorem claims_setHold {c : CellPart} {zs : List ZoneEntry} {l : List Claim} (h : ClaimsFor c zs l) (p : Nat → ZoneEntry → Bool) (hd : ZoneHold)
    (lc : Nat) (hk : ∀ d ∈ l, hd ≠ .held d.claimant) : ClaimsFor c (setHold zs p hd lc) l := by
  refine ⟨h.1.zones fun d hd' z _ hh => ?_, h.2⟩
  by_cases hz : z < zs.length
  · rw [setHold_getD _ _ _ _ _ hz] at hh
    split at hh
    · exact absurd hh (hk d hd')
    · exact hh
  · rw [List.getD_eq_default _ _ (by rw [setHold_length]; omega)] at hh
    cases hh

theorem claims_drop {c : CellPart} {zs : List ZoneEntry} {l : List Claim} (h : ClaimsFor c zs l) (k : Nat) :
    ClaimsFor c zs (dropClaim l k) ∧ ∀ d ∈ dropClaim l k, d.claimant ≠ k :=
  ⟨⟨h.1.drop k, fun d hd => h.2 d (List.mem_filter.mp hd).1⟩, fun d hd => by simpa using (List.mem_filter.mp hd).2⟩

theorem lists_orphan {c d : CellPart} {r : Replica} (h : ListsOk c r) (lc k : Nat) : ListsOk c (orphanZones d lc k r) := by
  have h1 := ((listsOk_iff c r).mp h).1
  exact lists_claims h (claims_setHold (claims_drop h1 k).1 _ _ _ (fun _ _ => nofun)) rfl rfl

theorem lists_restore {c : CellPart} {r : Replica} (h : ListsOk c r) (lc k : Nat) : ListsOk c (restoreZones lc k r) := by
  have h1 := claims_drop ((listsOk_iff c r).mp h).1 k
  exact lists_claims h (claims_setHold h1.1 _ _ _ (fun e he hc => h1.2 e he (ZoneHold.held.inj hc).symm)) rfl rfl

theorem lists_release {c d : CellPart} {r : Replica} (h : ListsOk c r) (lc k : Nat) (mask : ZoneMask) (w : Bool) :
    ListsOk c (releaseZones d lc k mask w r) := by
  have h1 := ((listsOk_iff c r).mp h).1
  refine lists_claims h (claims_setHold ?_ _ _ _ (fun _ _ => nofun)) rfl rfl
  show ClaimsFor c r.zones (if w then dropClaim r.claims k else r.claims)
  split
  · exact (claims_drop h1 k).1
  · exact h1

theorem lists_force {c d : CellPart} {r : Replica} (h : ListsOk c r) (lc : Nat) (mask : ZoneMask) : ListsOk c (forceZones d lc mask r) := by
  have h1 := ((listsOk_iff c r).mp h).1
  exact lists_claims h (claims_setHold h1 _ _ _ (fun _ _ => nofun)) rfl rfl

theorem lists_record {c : CellPart} {r t : Replica} (h : ListsOk c r) {lc k : Nat} {mask : ZoneMask} {base : Prio} (hr : roleIn c k = .mc410)
    (ht : recordClaim c lc k mask base r = some t) : ListsOk c t := by
  have h1 := claims_drop ((listsOk_iff c r).mp h).1 k
  unfold recordClaim at ht
  split at ht
  · cases ht
  · simp only at ht
    split at ht
    · cases ht; exact lists_claims h h1.1 rfl rfl
    · cases ht
      refine lists_claims h ⟨h1.1.1.insert _ h1.2 (fun z hz hw => ?_) (Nat.zero_le _), fun d hd => ?_⟩ rfl rfl
      · intro hh
        have : (maskLess mask (heldMask r k)).getLsbD z = true := hw
        unfold maskLess heldMask at this
        rw [BitVec.getLsbD_and, BitVec.getLsbD_not, maskOf_getLsbD _ _ hz] at this
        have hb : ((zoneEntry r z).hold == ZoneHold.held k) = true := beq_iff_eq.mpr hh
        rw [hb] at this
        simp at this
      · rcases mem_insertClaim.mp hd with rfl | hd
        · exact hr
        · exact h1.1.2 d hd

theorem lists_roster {c : CellPart} {r : Replica} (h : ListsOk c r) (l : List RosterEntry) : ListsOk c { r with roster := l } :=
  lists_same h rfl rfl rfl (.refl _)

theorem lists_setRoster {c : CellPart} {r : Replica} (h : ListsOk c r) (lc k : Nat) (e : RosterEntry) : ListsOk c (setRoster r lc k e) := by
  unfold setRoster
  simp only
  split
  · exact h
  · exact lists_roster h _

theorem lists_emptyLatch {c : CellPart} {r : Replica} (h : ListsOk c r) (lc k : Nat) : ListsOk c (emptyLatch lc k r) := by
  unfold emptyLatch
  split
  · exact lists_same h rfl rfl rfl (sameTips_of rfl)
  · exact h

theorem lists_leave {c d : CellPart} {r : Replica} (h : ListsOk c r) (lc k : Nat) : ListsOk c (leaveTables d lc k r) := by
  unfold leaveTables
  simp only
  refine lists_roster ?_ _
  refine lists_ports ?_ (portsOnly_leavePorts _ _ _ _) (sameTips_leave _ _ _ _)
  refine lists_emptyLatch ?_ _ _
  rw [listsOk_iff] at *
  exact ⟨h.1, h.2.1.exclude lc k, (sameTips_of rfl : SameTips r _).most h.2.2⟩

theorem lists_join {c d : CellPart} {r : Replica} (h : ListsOk c r) (lc : Nat) (hd : Hdr) (cause : ResetCause) (jn : Nat) :
    ListsOk c (joinFormed d lc hd cause jn r).1 := by
  unfold joinFormed
  simp only
  have key : ∀ r1, ListsOk c r1 → ∀ (e : RosterEntry) (o : Option Nat) (f : Replica → Nat → RosterEntry),
      ListsOk c (match o with
        | none => endServices lc (fun _ v => v.1 == hd.sender) { r1 with roster := set1 r1.roster hd.sender e }
        | some j => setRoster (endServices lc (fun _ v => v.1 == hd.sender) { r1 with roster := set1 r1.roster hd.sender e }) lc j
            (f (endServices lc (fun _ v => v.1 == hd.sender) { r1 with roster := set1 r1.roster hd.sender e }) j)) := by
    intro r1 h1 e o f
    have h2 : ListsOk c (endServices lc (fun _ v => v.1 == hd.sender) { r1 with roster := set1 r1.roster hd.sender e }) :=
      lists_same h1 rfl rfl rfl (.refl _)
    cases o with
    | none => exact h2
    | some j => exact lists_setRoster h2 _ _ _
  split
  · exact lists_withScan (key _ (lists_leave (lists_restore h _ _) _ _) _ _ (fun r j => { rosterEntry r j with serving := some (hd.sender, jn) })) _ _
  · exact key _ h _ _ (fun r j => { rosterEntry r j with serving := some (hd.sender, jn) })

theorem lists_refused {c d : CellPart} {r : Replica} (h : ListsOk c r) (lc : Nat) (hd : Hdr) (cause : ResetCause) :
    ListsOk c (joinRefused d lc hd cause r).1 := by
  unfold joinRefused
  simp only
  split
  · refine lists_withScan ?_ _ _
    exact lists_same (lists_leave (lists_orphan h lc hd.sender) lc hd.sender) rfl rfl rfl (.refl _)
  · exact lists_same h rfl rfl rfl (.refl _)

theorem lists_silence {c d : CellPart} {r : Replica} (h : ListsOk c r) (lc k : Nat) (heard : Bool) : ListsOk c (silenceStation d lc k heard r).1 := by
  unfold silenceStation
  split
  · simp only
    exact lists_withScan (lists_leave (lists_orphan (lists_setRoster h _ _ _) _ _) _ _) _ _
  · exact h

theorem lists_orVoid {c : CellPart} {r : Replica} (h : ListsOk c r) {o : Option Replica} (ho : ∀ t, o = some t → ListsOk c t) :
    ListsOk c (orVoid r o).1 := by
  unfold orVoid
  split
  · exact h
  · exact ho _ rfl

theorem lists_if {c : CellPart} {o : Option Replica} {b : Bool} (ho : ∀ t, o = some t → ListsOk c t) :
    ∀ t, (if b = true then o else none) = some t → ListsOk c t := by
  intro t ht
  split at ht
  · exact ho t ht
  · cases ht

/-- Six tip entries at the most in what a QUAL_COMMIT of six parts at the most makes. -/
theorem commitTips_length {r : Replica} {k x n : Nat} {ts : List Tip} (h : commitTips r k x n = some ts) : ts.length = n := by
  unfold commitTips at h
  split at h
  · cases h
  · rename_i d _
    split at h
    · rename_i hd
      split at h
      · cases h
      · rename_i us hu
        split at h
        · cases h
          rw [List.length_map]
          unfold allParts at hu
          simp only at hu
          split at hu
          · rename_i hp
            cases hu
            have : ∀ l : List (Option Tip), l.all (·.isSome) = true → (l.filterMap id).length = l.length := by
              intro l
              induction l with
              | nil => intro _; rfl
              | cons a r ih =>
                intro ha
                rw [List.all_cons, Bool.and_eq_true] at ha
                cases a with
                | none => cases ha.1
                | some v => simpa using ih ha.2
            rw [this _ hp.2, hp.1, hd.2.1]
          · cases hu
        · cases h
    · cases h

/-- A kind applied keeps the lists where its sender may send it and its fields are in range. -/
theorem lists_kind {c : CellPart} {r : Replica} (h : ListsOk c r) (lc k : Nat) (heard : Bool) (dest : Nat) (b : Body)
    (hk : mayKind c k b = true) (hb : bodyGood c b = true) : ListsOk c (applyKind c lc k heard dest b r).1 := by
  have hrole : (∃ m p, b = .zoneClaim m p) ∨ (∃ es, b = .thermal es) → roleIn c k = .mc410 := by
    intro hx
    unfold mayKind at hk
    cases hr : roleIn c k <;> rw [hr] at hk <;> rcases hx with ⟨m, p, rfl⟩ | ⟨es, rfl⟩ <;> first | rfl | cases hk
  unfold applyKind
  split
  · exact lists_silence h _ _ _
  · exact lists_roster h _
  · split
    · exact h
    · rename_i hrc
      exact lists_withScan (lists_record h (hrole (.inl ⟨_, _, rfl⟩)) hrc) _ _
  · split
    · exact lists_withScan (lists_release h _ _ _ _) _ _
    · exact h
  · split
    · exact h
    · exact lists_withScan (lists_force h _ _) _ _
  · exact lists_orVoid h fun t ht => lists_ports h (portsOnly_reservePort _ _ _ _ _ _ _ t ht) (sameTips_reserve ht)
  · split
    · exact lists_ports h (portsOnly_reportPort _ _ _ _ _ _ _) (sameTips_report _ _ _ _ _ _ _)
    · exact h
  · exact lists_orVoid h (lists_if fun t ht => lists_ports h (portsOnly_abandonPort _ _ _ _ _ t ht) (sameTips_abandon ht))
  · exact lists_orVoid h (lists_if fun t ht => lists_ports h (portsOnly_depositProbe _ _ _ _ _ t ht) (sameTips_deposit ht))
  · exact lists_orVoid h (lists_if fun t ht => lists_ports h (portsOnly_takeProbe _ _ _ _ _ _ _ t ht) (sameTips_take ht))
  · exact lists_ports h (portsOnly_mountProbe _ _ _ _ _) (sameTips_mount _ _ _ _ _)
  · exact lists_orVoid h fun t ht => lists_ports h (portsOnly_custodyBy _ _ _ _ _ t ht) (sameTips_by ht)
  · refine lists_orVoid h fun t ht => ?_
    unfold stagePart at ht
    split at ht
    · cases ht
    · simp only at ht
      split at ht
      · cases ht; exact lists_same h rfl rfl rfl (sameTips_of rfl)
      · split at ht <;> cases ht <;> exact lists_same h rfl rfl rfl (sameTips_of rfl)
  · split
    · exact lists_emptyLatch h _ _
    · rename_i ts hts
      refine lists_emptyLatch ?_ _ _
      have hn : ts.length ≤ 6 := by
        rw [commitTips_length hts]
        simp only [bodyGood, Bool.and_eq_true, partNumber, decide_eq_true_eq] at hb
        omega
      rw [listsOk_iff] at *
      refine ⟨h.1, h.2.1, fun y => ?_⟩
      show (at1 (set1 r.probes _ _) _ y).tips.length ≤ 6
      rw [at1_set1]
      split
      · exact hn
      · exact h.2.2 y
  · refine lists_orVoid h fun t ht => ?_
    unfold markProbe at ht
    split at ht
    · cases ht
      unfold stampProbe
      simp only
      split
      · exact h
      · exact lists_same h rfl rfl rfl (sameTips_set rfl)
    · cases ht
  · rename_i es
    have h1 : ListsOk c { r with board := placeThermal lc k es r.board } := by
      rw [listsOk_iff] at *
      exact ⟨h.1, h.2.1.place lc k es (hrole (.inr ⟨_, rfl⟩)), (sameTips_of rfl : SameTips r _).most h.2.2⟩
    unfold staleCheck
    split
    · exact h1
    · unfold stampProbe
      simp only
      split
      · exact h1
      · exact lists_same h1 rfl rfl rfl (sameTips_set (checkStale_tips _ _ _))
  · refine lists_orVoid h fun t ht => ?_
    unfold touchProbe at ht
    split at ht
    · cases ht
      unfold stampProbe
      simp only
      split
      · exact h
      · exact lists_same h rfl rfl rfl (sameTips_set (countTouch_tips _ _))
    · cases ht
  · exact h

/-- The application of a well-formed frame keeps the lists. -/
theorem lists_applyFormed {c : CellPart} {r : Replica} (h : ListsOk c r) (lc : Nat) (heard : Bool) (f : Frame) (hg : formatGood c f = true) :
    ListsOk c (applyFormed c lc heard f r).1 := by
  simp only [formatGood, Bool.and_eq_true] at hg
  have hstep : ListsOk c (rosterStep lc f.h r) := by
    have hi : ∀ (p : Prop) [Decidable p] (e : RosterEntry), ListsOk c (if p then setRoster r lc f.h.sender e else r) := by
      intro p _ e
      split
      · exact lists_setRoster h _ _ _
      · exact h
    exact hi _ _
  have hderive : ∀ t, ListsOk c t → ListsOk c (derive c t) := fun t ht => lists_same ht rfl rfl rfl (sameTips_of rfl)
  have key : ∀ b, mayKind c f.h.sender b = true → bodyGood c b = true → ListsOk c (Prod.fst (α := Replica) (β := Fx) <| match b with
      | .join fp cause jn => if fp = r.cell.fingerprint then joinFormed c lc f.h cause jn r else joinRefused c lc f.h cause r
      | b =>
        if !passesRoster b then (r, Fx.void)
        else if roleIn c f.h.sender = .mc410 then
          let r1 := rosterStep lc f.h r
          if (rosterEntry r1 f.h.sender).state = .active then applyKind c lc f.h.sender heard f.h.dest b r1 else (r1, Fx.void)
        else applyKind c lc f.h.sender heard f.h.dest b r) := by
    intro b hm hb
    split
    · split
      · exact lists_join h _ _ _ _
      · exact lists_refused h _ _ _
    · split
      · exact h
      · split
        · simp only
          split
          · exact lists_kind hstep _ _ _ _ _ hm hb
          · exact hstep
        · exact lists_kind h _ _ _ _ _ hm hb
  exact hderive _ (key f.body hg.1.2 hg.2)

end Sys2Proof.Laws
end

