-- ==== Sys2Proof/Laws/Reports.lean ====
section
/-! SUPPORT. Zones, ports, probes, latches and the board as the frames of chapters 3, 5, 6 and 7 leave them. -/

namespace Sys2Proof.Laws

open Sys2Proof.Machine

theorem zoneEntry_congr {r t : Replica} (h : r.zones = t.zones) (z : Nat) : zoneEntry r z = zoneEntry t z := by unfold zoneEntry; rw [h]

theorem body_good {c : CellPart} {f : Frame} (hg : formatGood c f = true) : bodyGood c f.body = true := by
  simp only [formatGood, Bool.and_eq_true] at hg
  exact hg.2

theorem pe_derive (c : CellPart) (r : Replica) (p : Nat) : portEntry (derive c r) p = portEntry r p := rfl

theorem pr_derive (c : CellPart) (r : Replica) (p : Nat) : probeRec (derive c r) p = probeRec r p := rfl

theorem passed_port {c : CellPart} {lc : Nat} {h0 : Hdr} {r r1 : Replica} (h : Passed c lc h0 r r1) (p : Nat) : portEntry r1 p = portEntry r p := by
  unfold portEntry; rw [h.rest]

theorem passed_probe {c : CellPart} {lc : Nat} {h0 : Hdr} {r r1 : Replica} (h : Passed c lc h0 r r1) (p : Nat) : probeRec r1 p = probeRec r p := by
  unfold probeRec; rw [h.rest]

theorem passed_ports {c : CellPart} {lc : Nat} {h0 : Hdr} {r r1 : Replica} (h : Passed c lc h0 r r1) : r1.ports = r.ports := by rw [h.rest]

theorem passed_probes {c : CellPart} {lc : Nat} {h0 : Hdr} {r r1 : Replica} (h : Passed c lc h0 r r1) : r1.probes = r.probes := by rw [h.rest]

theorem probe_range {c : CellPart} {code : Option Code} {x : Nat} (h : probeByCode c code = some x) : 1 ≤ x ∧ x ≤ 24 := by
  unfold probeByCode at h
  cases code with
  | none => cases h
  | some v =>
    have := List.mem_of_find?_eq_some h
    obtain ⟨i, hi, rfl⟩ := List.mem_map.mp this
    rw [List.mem_range] at hi
    exact ⟨by omega, by omega⟩

theorem restamp_facts (r : Replica) (lc p : Nat) (old : PortEntry) (h1 : 1 ≤ p) (h2 : p ≤ r.ports.length) :
    (∃ st, portEntry (restamp r lc p old) p = { portEntry r p with stamp := st }) ∧
    (portEntry (restamp r lc p old) p = old ∨ (portEntry (restamp r lc p old) p).stamp = lc) ∧
    (∀ q, q ≠ p → portEntry (restamp r lc p old) q = portEntry r q) ∧ (restamp r lc p old).probes = r.probes := by
  have e : ∀ q, portEntry (restamp r lc p old) q = if q = p then { portEntry r p with stamp := if { portEntry r p with stamp := old.stamp } = old then old.stamp else lc } else portEntry r q := by
    intro q
    exact portEntry_set r p _ h1 h2 q
  refine ⟨⟨_, by rw [e, if_pos rfl]⟩, ?_, fun q hq => by rw [e, if_neg hq], rfl⟩
  rw [e, if_pos rfl]
  by_cases hs : { portEntry r p with stamp := old.stamp } = old
  · left; rw [if_pos hs]; exact hs
  · right; rw [if_neg hs]

/-- the report's fields written -/
theorem reported_facts (r : Replica) (p : Nat) (present : Bool) (lock : Lock) (code : Option Code) (h1 : 1 ≤ p) (h2 : p ≤ r.ports.length) :
  let r1 : Replica := { r with ports := set1 r.ports p { portEntry r p with presence := if present then .present else .absent, lock := lock, ident := code } }
  portEntry r1 p = { portEntry r p with presence := if present then .present else .absent, lock := lock, ident := code } ∧ (∀ q, q ≠ p → portEntry r1 q = portEntry r q) ∧ r1.ports.length = r.ports.length := by
  intro r1
  refine ⟨?_, fun q hq => ?_, set1_length _ _ _⟩
  · rw [show portEntry r1 p = _ from portEntry_set r p _ h1 h2 p, if_pos rfl]
  · rw [show portEntry r1 q = _ from portEntry_set r p _ h1 h2 q, if_neg hq]

theorem vacated_after {r r1 : Replica} {lc x q : Nat} (h1 : portEntry r1 q = portEntry r q) (h2 : r1.probes = r.probes) : vacatedIn r1 lc x q = vacatedIn r lc x q := by
  have e2 : probeRec r1 x = probeRec r x := by unfold probeRec; rw [h2]
  unfold vacatedIn
  rw [h1, e2]

theorem followReport_cases (c : CellPart) (lc p : Nat) (present : Bool) (code : Option Code) (r : Replica) :
    (∃ x, present = true ∧ probeByCode c code = some x ∧ (portEntry r p).state = .occupied x ∧ followReport c lc p present code r = r) ∨
    (∃ x, present = true ∧ probeByCode c code = some x ∧ (portEntry r p).state ≠ .occupied x ∧
      followReport c lc p present code r = setPortState (placeAtPort r lc x p) lc p (.occupied x)) ∨
    ((present = true → probeByCode c code = none) ∧ ∃ st, st = (if present then PortState.unknown else .empty) ∧
      ((∃ x, (portEntry r p).state = .occupied x ∧ followReport c lc p present code r = setPortState (makeLost r lc (some p) x) lc p st) ∨
       ((∀ x, (portEntry r p).state ≠ .occupied x) ∧ followReport c lc p present code r = setPortState r lc p st))) := by
  unfold followReport
  cases present with
  | true =>
    cases hc : probeByCode c code with
    | some x =>
      by_cases hx : (portEntry r p).state = .occupied x
      · left; exact ⟨x, rfl, rfl, hx, by simp [hx]⟩
      · right; left; exact ⟨x, rfl, rfl, hx, by simp [hx]⟩
    | none =>
      right; right
      refine ⟨fun _ => rfl, _, rfl, ?_⟩
      cases hs : (portEntry r p).state with
      | occupied x => left; exact ⟨x, rfl, by simp⟩
      | _ => right; exact ⟨by simp, by simp⟩
  | false =>
    right; right
    refine ⟨by simp, _, rfl, ?_⟩
    cases hs : (portEntry r p).state with
    | occupied x => left; exact ⟨x, rfl, by simp⟩
    | _ => right; exact ⟨by simp, by simp⟩

theorem setPortState_facts (lc p : Nat) (p1 : 1 ≤ p) (r : Replica) (st : PortState) (hl : p ≤ r.ports.length) :
    FieldsKept (portEntry r p) (portEntry (setPortState r lc p st) p) ∧ (portEntry (setPortState r lc p st) p).state = st ∧
      (∀ q, q ≠ p → portEntry (setPortState r lc p st) q = portEntry r q) ∧ (setPortState r lc p st).ports.length = r.ports.length := by
  have e := portEntry_setPortState r lc p st p1 hl
  refine ⟨?_, ?_, fun q hq => by rw [e, if_neg hq], set1_length _ _ _⟩
  · rw [e, if_pos rfl]; exact ⟨rfl, rfl, rfl, rfl⟩
  · rw [e, if_pos rfl]

theorem portEntry_set_any (r : Replica) (lc j : Nat) (st : PortState) (q : Nat) (hq : q ≠ j) : portEntry (setPortState r lc j st) q = portEntry r q := by
  by_cases hj : 1 ≤ j ∧ j ≤ r.ports.length
  · rw [portEntry_setPortState r lc j st hj.1 hj.2, if_neg hq]
  · rw [portEntry_setPortState_outside r lc j st hj]

theorem depositOf_eq {x : Nat} {st : PortState} (h : depositOf x st = true) : ∃ k, st = .reserved k .deposit x := by
  cases st with
  | reserved k pu y => cases pu with
    | deposit => simp [depositOf] at h; exact ⟨k, by rw [h]⟩
    | pickup => simp [depositOf] at h
  | _ => simp [depositOf] at h

theorem suspect_rec (r : Replica) (lc m : Nat) (m1 : 1 ≤ m) (hl : m ≤ r.probes.length) (y : Nat) :
    probeRec (setSuspect r lc m) y = if y = m then { probeRec r m with cond := .suspect, stamp := lc } else probeRec r y := by
  by_cases hy : y = m
  · subst hy; rw [if_pos rfl]; exact at1_set1_same _ _ _ _ m1 hl
  · rw [if_neg hy]; exact at1_set1_other _ _ _ _ _ hy

theorem la_derive (c : CellPart) (r : Replica) (p : Nat) : latchOf (derive c r) p = latchOf r p := rfl

theorem passed_latch {c : CellPart} {lc : Nat} {h0 : Hdr} {r r1 : Replica} (h : Passed c lc h0 r r1) (p : Nat) : latchOf r1 p = latchOf r p := by
  unfold latchOf; rw [h.rest]

theorem latch_set (r : Replica) (lc k : Nat) (d : Option LatchData) (h1 : 1 ≤ k) (h2 : k ≤ r.latches.length) (j : Nat) :
    latchOf (setLatch r lc k d) j = if j = k then ⟨d, lc⟩ else latchOf r j := by
  by_cases hj : j = k
  · subst hj; rw [if_pos rfl]; exact at1_set1_same _ _ _ _ h1 h2
  · rw [if_neg hj]; exact at1_set1_other _ _ _ _ _ hj

theorem parts_all {d : LatchData} {ts : List Tip} (h : d.parts.take d.n = ts.map some) (hl : ts.length = d.n) : allParts d = some ts := by
  unfold allParts
  simp only
  rw [h, if_pos]
  · congr 1
    induction ts with
    | nil => rfl
    | cons a r ih => simp
  · refine ⟨by simp [hl], by simp⟩

theorem all_parts {d : LatchData} {ts : List Tip} (h : allParts d = some ts) : d.parts.take d.n = ts.map some ∧ ts.length = d.n := by
  unfold allParts at h
  simp only at h
  split at h
  · rename_i hc
    have : ∀ l : List (Option Tip), l.all (·.isSome) = true → l = (l.filterMap id).map some := by
      intro l
      induction l with
      | nil => intro _; rfl
      | cons a r ih =>
        intro hl
        simp only [List.all_cons, Bool.and_eq_true] at hl
        cases a with
        | none => cases hl.1
        | some v => show some v :: r = some v :: List.map some (List.filterMap id r); rw [← ih hl.2]
    have e := this _ hc.2
    cases h
    refine ⟨e, ?_⟩
    have := congrArg List.length e
    rw [List.length_map, hc.1] at this
    exact this.symm
  · cases h

theorem stampProbe_rec (r : Replica) (lc x : Nat) (e : ProbeRec) (x1 : 1 ≤ x) (x2 : x ≤ r.probes.length) :
    (∀ y, y ≠ x → probeRec (stampProbe r lc x e) y = probeRec r y) ∧
    probeRec (stampProbe r lc x e) x = (if { e with stamp := (probeRec r x).stamp } = probeRec r x then probeRec r x else { e with stamp := lc }) ∧
    stampProbe r lc x e = { r with probes := (stampProbe r lc x e).probes } ∧ (stampProbe r lc x e).probes.length = r.probes.length := by
  unfold stampProbe
  simp only
  split
  · exact ⟨fun _ _ => rfl, rfl, rfl, rfl⟩
  · refine ⟨fun y hy => at1_set1_other _ _ _ _ _ hy, at1_set1_same _ _ _ _ x1 x2, rfl, set1_length _ _ _⟩

/-- restoreZones then leaveTables, or nothing -/
theorem rejoin_zones (c : CellPart) (lc k : Nat) (r : Replica) (hz : r.zones.length = 32) :
    let t := leaveTables c lc k (restoreZones lc k r)
    (∀ z < 32, (zoneEntry r z).hold = .orphaned k → zoneEntry t z = ⟨.held k, lc⟩) ∧
    (∀ z < 32, (zoneEntry r z).hold ≠ .orphaned k → zoneEntry t z = zoneEntry r z) ∧
    (∀ c ∈ t.claims, c.claimant ≠ k) := by
  have h := leaveTables_left c lc k (restoreZones lc k r)
  have e : ∀ z < 32, zoneEntry (leaveTables c lc k (restoreZones lc k r)) z =
      if (zoneEntry r z).hold == .orphaned k then ⟨.held k, lc⟩ else zoneEntry r z := by
    intro z hz2
    unfold zoneEntry
    rw [h.zones]
    exact setHold_getD _ _ _ _ _ (by omega) _
  refine ⟨fun z hz2 hh => ?_, fun z hz2 hh => ?_, ?_⟩
  · rw [e z hz2, hh]; simp
  · rw [e z hz2]; simp [hh]
  · rw [h.claims]
    intro c hc
    have := (List.mem_filter.mp hc).2
    simpa using this

theorem step_nonactive (c : CellPart) (lc : Nat) (h : Hdr) (r : Replica) (hr : roleIn c h.sender = .mc410) (hn : (rosterEntry r h.sender).state ≠ .active)
   (hj : (rosterEntry r h.sender).state ≠ .joining ∨ h.active = false) : Passed c lc h r (rosterStep lc h r) := by
  by_cases hst : (rosterEntry r h.sender).state = .joining
  · exact (rosterStep_flagged c lc h r (.inr ⟨hst, hj.resolve_left (fun x => x hst)⟩)).resolve_right (fun x => x hr)
  · have : rosterStep lc h r = r := by
      unfold rosterStep
      simp only
      rw [if_neg (show ¬ ((rosterEntry r h.sender).state = .joining ∧ h.active = true) from fun x => hst x.1)]
      rw [if_neg]
      rintro (x | x)
      · exact hst x
      · exact hn x
    rw [this]; exact Passed.same (.inr ⟨hn, hst⟩)

theorem isJoin_false {b : Body} (h : ∀ fp cause jn, b ≠ .join fp cause jn) : isJoin b = false := by
  cases b <;> first | rfl | exact absurd rfl (h _ _ _)

/-- the states of a roster are kept by every kind but silence -/
theorem applyKind_state (c : CellPart) (lc k dest : Nat) (hd : Bool) (b : Body) (r : Replica) (j : Nat)
    (hs : ∀ x count, b = .silence x count → x ≠ j) :
    (rosterEntry (applyKind c lc k hd dest b r).1 j).state = (rosterEntry r j).state := by
  have pe : ∀ t : Replica, t.roster = r.roster → (rosterEntry t j).state = (rosterEntry r j).state := by
    intro t ht; unfold rosterEntry; rw [ht]
  have po : ∀ o : Option Replica, portsOnlyOpt r o → (rosterEntry (orVoid r o).1 j).state = (rosterEntry r j).state := by
    intro o ho
    cases o with
    | none => rfl
    | some t => exact pe t (by rw [ho t rfl])
  have pif : ∀ (bb : Bool) (o : Option Replica), portsOnlyOpt r o → portsOnlyOpt r (if bb = true then o else none) := by
    intro bb o ho t ht
    split at ht
    · exact ho t ht
    · cases ht
  have sp : ∀ x e, (rosterEntry (stampProbe r lc x e) j).state = (rosterEntry r j).state := by
    intro x e
    unfold stampProbe; simp only; split
    · rfl
    · exact pe _ rfl
  unfold applyKind
  split
  case h_1 x count =>
    unfold silenceStation
    split
    · rw [withScan_tables]
      have hx := hs x count rfl
      have e1 := (leaveTables_left c lc x (orphanZones c lc x (setRoster r lc x { rosterEntry r x with state := .silent }))).keeps j
      have e2 : rosterEntry (scan c lc (leaveTables c lc x (orphanZones c lc x (setRoster r lc x { rosterEntry r x with state := .silent })))).1 j = rosterEntry (leaveTables c lc x (orphanZones c lc x (setRoster r lc x { rosterEntry r x with state := .silent }))) j := rfl
      rw [e2, e1]
      show (rosterEntry (setRoster r lc x _) j).state = _
      rw [(setRoster_facts _ _ _ _).2 j (Ne.symm hx)]
    · rfl
  case h_2 => exact (endServices_keeps _ _ _ _).1
  case h_3 =>
    split
    · rfl
    · rename_i r1 hr1
      rw [withScan_tables]
      refine pe _ ?_
      rw [scan_roster]
      unfold recordClaim at hr1
      simp only at hr1
      split at hr1
      · cases hr1
      · split at hr1 <;> (cases hr1; rfl)
  case h_4 => split <;> rfl
  case h_5 => split <;> rfl
  case h_6 => exact po _ (portsOnly_reservePort _ _ _ _ _ _ _)
  case h_7 =>
    split
    · exact pe _ (by rw [portsOnly_reportPort])
    · rfl
  case h_8 => exact po _ (pif _ _ (portsOnly_abandonPort _ _ _ _ _))
  case h_9 => exact po _ (pif _ _ (portsOnly_depositProbe _ _ _ _ _))
  case h_10 => exact po _ (pif _ _ (portsOnly_takeProbe _ _ _ _ _ _ _))
  case h_11 => exact pe _ (by rw [portsOnly_mountProbe])
  case h_12 => exact po _ (portsOnly_custodyBy _ _ _ _ _)
  case h_13 x i m t =>
    unfold stagePart
    simp only
    split
    · rfl
    · split
      · rfl
      · split <;> rfl
  case h_14 =>
    split
    · show (rosterEntry (emptyLatch _ _ _) j).state = _
      exact pe _ (by rw [(emptyLatch_latch _ _ _).2.1])
    · show (rosterEntry (emptyLatch _ _ _) j).state = _
      exact pe _ (by rw [(emptyLatch_latch _ _ _).2.1]; rfl)
  case h_15 =>
    unfold markProbe
    split
    · exact sp _ _
    · rfl
  case h_16 es =>
    show (rosterEntry (staleCheck _ _ _ _) j).state = _
    unfold staleCheck
    split
    · rfl
    · unfold stampProbe; simp only; split <;> rfl
  case h_17 p =>
    unfold touchProbe
    split
    · exact sp _ _
    · rfl
  case h_18 => rfl

theorem silences_named {k : Nat} {b : Body} (h : silencesMe k b = true) : ∃ count, b = .silence k count := by
  cases b <;> first | (simp [silencesMe] at h; done) | skip
  rename_i j count
  simp only [silencesMe, beq_iff_eq] at h
  exact ⟨count, by rw [h]⟩

theorem meets_iff (m n : ZoneMask) : meets m n = true ↔ ∃ z < 32, m.getLsbD z = true ∧ n.getLsbD z = true := by
  unfold meets
  rw [bne_iff_ne]
  constructor
  · intro h
    by_contra hc
    push Not at hc
    apply h
    apply BitVec.eq_of_getLsbD_eq
    intro i hi
    rw [BitVec.getLsbD_and, BitVec.getLsbD_zero]
    rcases hm : m.getLsbD i with _ | _
    · rfl
    · rw [Bool.true_and]; simpa using hc i hi hm
  · rintro ⟨z, hz, h1, h2⟩ hc
    have := congrArg (fun b : ZoneMask => b.getLsbD z) hc
    simp [h1, h2] at this

theorem wanted_bit (r : Replica) (k : Nat) (mask : ZoneMask) (z : Nat) (hz : z < 32) :
    (maskLess mask (heldMask r k)).getLsbD z = true ↔ mask.getLsbD z = true ∧ (zoneEntry r z).hold ≠ .held k := by
  unfold maskLess heldMask
  rw [BitVec.getLsbD_and, BitVec.getLsbD_not, maskOf_getLsbD _ _ hz]
  simp [hz]

theorem zero_bits {m : ZoneMask} (h : ∀ z < 32, m.getLsbD z = false) : m = 0#32 := by
  apply BitVec.eq_of_getLsbD_eq
  intro i hi
  rw [h i hi]; simp

/-- One claim, nobody else waiting -/
theorem scan_one (c : CellPart) (lc : Nat) (r : Replica) (a : Claim) (hc : r.claims = [a]) (hz : r.zones.length = 32) :
    (grantable r.zones [] a = true → (scan c lc r).1.claims = [] ∧ (scan c lc r).1.zones = setHold r.zones (fun z _ => a.wanted.getLsbD z) (.held a.claimant) lc) ∧
    (grantable r.zones [] a = false → a.urgent = false → a.passed < c.starve →
       (∀ z < 32, a.wanted.getLsbD z = true → (r.zones.getD z ⟨.free, 0⟩).hold ≠ .held a.claimant) →
       (scan c lc r).1.claims = [a] ∧ (scan c lc r).1.zones = r.zones) := by
  constructor
  · intro hg
    unfold scan
    rw [hc]
    have hw : walk lc [] [a] r.zones = ([], setHold r.zones (fun z _ => a.wanted.getLsbD z) (.held a.claimant) lc) := by
      simp [walk, hg]
    unfold scanSteps
    rw [hw]
    have : youngestOnCycle (setHold r.zones (fun z _ => a.wanted.getLsbD z) (.held a.claimant) lc) (escalate c.starve []) = none := rfl
    simp only
    rw [this]
    exact ⟨rfl, rfl⟩
  · intro hg hu hp hw
    have hwk : walk lc [] [a] r.zones = ([a], r.zones) := by
      simp [walk, hg]
    have he : escalate c.starve [a] = [a] := by
      unfold escalate
      have : ¬ c.starve ≤ a.passed := by omega
      simp [hu, this, orderClaims, insertClaim]
    have hy : youngestOnCycle r.zones [a] = none := by
      have hwait : waitsOn r.zones [a] a.claimant = [] := by
        unfold waitsOn
        simp only [List.find?_cons, beq_self_eq_true]
        have : (List.range 32).any (fun z => a.wanted.getLsbD z && (r.zones.getD z ⟨.free, 0⟩).hold == .held a.claimant) = false := by
          rw [List.any_eq_false]
          intro z hz2
          rw [List.mem_range] at hz2
          by_cases hb : a.wanted.getLsbD z = true
          · rw [hb]; simpa using hw z hz2 hb
          · simp [hb]
        simp only [List.filter_cons, this, hu, Bool.false_and, Bool.or_self]
        simp
      have hcy : onCycle r.zones [a] a.claimant = false := by
        unfold onCycle
        rw [hwait]
        simp [reach]
      unfold youngestOnCycle
      simp [hcy]
    unfold scan
    rw [hc]
    unfold scanSteps
    rw [hwk]
    simp only
    rw [he, hy]
    exact ⟨rfl, rfl⟩

theorem allFree_iff (zs : List ZoneEntry) (m : ZoneMask) : allFree zs m = true ↔ ∀ z < 32, m.getLsbD z = true → (zs.getD z ⟨.free, 0⟩).hold = .free := by
  unfold allFree
  rw [List.all_eq_true]
  constructor
  · intro h z hz hm
    have := h z (List.mem_range.mpr hz)
    rw [hm] at this; simpa using this
  · intro h z hz
    rw [List.mem_range] at hz
    by_cases hm : m.getLsbD z = true
    · rw [h z hz hm]; simp
    · simp [hm]

theorem abandon_values (lc k p : Nat) (inside : Bool) (r : Replica) (p1 : 1 ≤ p) (hp : p ≤ r.ports.length) (purpose : Purpose) (x : Nat) (hl : r.probes.length = 24)
    (hst : (portEntry r p).state = .reserved k purpose x) (x1 : 1 ≤ x) (x2 : x ≤ 24) :
    ∃ q st, abandonPort lc k p inside r = some q ∧ portEntry q p = { portEntry r p with takeSeen := false, stamp := lc, state := st } ∧
      (∀ j, j ≠ p → portEntry q j = portEntry r j) ∧ q.ports.length = r.ports.length ∧ q.probes.length = 24 ∧ PortsOnly r q ∧
      (∀ y, y ≠ x → probeRec q y = probeRec r y) ∧
      (purpose = .deposit → inside = true ∨ (probeRec r x).custody = .transfer p → st = .unknown ∧ 
        probeRec q x = if (probeRec r x).custody = .transfer p then placedRec (probeRec r x) .lost lc else probeRec r x) ∧
      (purpose = .deposit → inside = false → (probeRec r x).custody ≠ .transfer p → st = .empty ∧ probeRec q x = probeRec r x) ∧
      (purpose = .pickup → inside = true → st = .unknown ∧
        probeRec q x = if (portEntry r p).takeSeen = false ∧ (probeRec r x).custody = .port p then placedRec (probeRec r x) .lost lc else probeRec r x) ∧
      (purpose = .pickup → inside = false → (portEntry r p).takeSeen = true → st = (if (portEntry r p).presence = .absent then .empty else .unknown) ∧ probeRec q x = probeRec r x) ∧
      (purpose = .pickup → inside = false → (portEntry r p).takeSeen = false → st = .occupied x ∧ probeRec q x = probeRec r x) := by
  have E : ∀ (r' : Replica) st, r'.ports = r.ports → PortsOnly r r' → r'.probes.length = 24 → (∀ y, y ≠ x → probeRec r' y = probeRec r y) →
      portEntry (endReservation r' lc p st) p = { portEntry r p with takeSeen := false, stamp := lc, state := st } ∧ (∀ j, j ≠ p → portEntry (endReservation r' lc p st) j = portEntry r j) ∧
      (endReservation r' lc p st).ports.length = r.ports.length ∧ (endReservation r' lc p st).probes.length = 24 ∧ PortsOnly r (endReservation r' lc p st) ∧
      (∀ y, y ≠ x → probeRec (endReservation r' lc p st) y = probeRec r y) ∧ probeRec (endReservation r' lc p st) x = probeRec r' x := by
    intro r' st hpo hpp hpl hy
    have e := portEntry_endReservation r' lc p st p1 (by rw [hpo]; exact hp)
    have ee : ∀ j, portEntry r' j = portEntry r j := by intro j; unfold portEntry; rw [hpo]
    refine ⟨by rw [e, if_pos rfl, ee], fun j hj => by rw [e, if_neg hj, ee], ?_, hpl, hpp.trans (portsOnly_endReservation _ _ _ _), hy, rfl⟩
    show (set1 r'.ports p _).length = _
    rw [set1_length, hpo]
  have S : ∀ st, _ := fun st => E r st rfl (PortsOnly.refl r) hl (fun _ _ => rfl)
  have hsc := probeRec_setCustody r lc x .lost x1 (by rw [hl]; exact x2)
  have L : ∀ st, _ := fun st => E (setCustody r lc x .lost) st rfl (portsOnly_setCustody _ _ _ _) (by rw [(setCustody_lengths _ _ _ _).1, hl]) (fun y hy => by rw [hsc, if_neg hy])
  have hLx : probeRec (setCustody r lc x .lost) x = placedRec (probeRec r x) .lost lc := by rw [hsc, if_pos rfl]
  unfold abandonPort
  simp only [hst, if_true]
  cases purpose with
  | deposit =>
    simp only
    by_cases hc : (probeRec r x).custody = .transfer p
    · obtain ⟨a1, a2, a3, a4, a5, a6, a7⟩ := L .unknown
      rw [if_pos (by simp [hc]), if_pos hc]
      refine ⟨_, .unknown, rfl, a1, a2, a3, a4, a5, a6, fun _ _ => ⟨rfl, by rw [a7, hLx, if_pos hc]⟩, fun _ _ h => absurd hc h, by simp, by simp, by simp⟩
    · cases hin : inside with
      | true =>
        obtain ⟨a1, a2, a3, a4, a5, a6, a7⟩ := S .unknown
        simp only [Bool.true_or, if_true, if_neg hc]
        refine ⟨_, .unknown, rfl, a1, a2, a3, a4, a5, a6, fun _ _ => ⟨rfl, by rw [a7]⟩, by simp, by simp, by simp, by simp⟩
      | false =>
        obtain ⟨a1, a2, a3, a4, a5, a6, a7⟩ := S .empty
        rw [if_neg (by simp [hc])]
        refine ⟨_, .empty, rfl, a1, a2, a3, a4, a5, a6, fun _ h => ?_, fun _ _ _ => ⟨rfl, a7⟩, by simp, by simp, by simp⟩
        rcases h with h | h
        · cases h
        · exact absurd h hc
  | pickup =>
    simp only
    cases hin : inside with
    | true =>
      rw [if_pos rfl]
      by_cases hc : (portEntry r p).takeSeen = false ∧ (probeRec r x).custody = .port p
      · obtain ⟨a1, a2, a3, a4, a5, a6, a7⟩ := L .unknown
        rw [if_pos (by simp [hc.1, hc.2])]
        exact ⟨_, .unknown, rfl, a1, a2, a3, a4, a5, a6, by simp, by simp, fun _ _ => ⟨rfl, by rw [a7, hLx, if_pos hc]⟩, by simp, by simp⟩
      · obtain ⟨a1, a2, a3, a4, a5, a6, a7⟩ := S .unknown
        rw [if_neg (by intro h; simp at h; exact hc h)]
        exact ⟨_, .unknown, rfl, a1, a2, a3, a4, a5, a6, by simp, by simp, fun _ _ => ⟨rfl, by rw [a7, if_neg hc]⟩, by simp, by simp⟩
    | false =>
      rw [if_neg (by simp)]
      cases hts : (portEntry r p).takeSeen with
      | true =>
        obtain ⟨a1, a2, a3, a4, a5, a6, a7⟩ := S (if (portEntry r p).presence = .absent then .empty else .unknown)
        rw [if_pos rfl]
        exact ⟨_, _, rfl, a1, a2, a3, a4, a5, a6, by simp, by simp, by simp, fun _ _ _ => ⟨rfl, a7⟩, by simp⟩
      | false =>
        obtain ⟨a1, a2, a3, a4, a5, a6, a7⟩ := S (.occupied x)
        rw [if_neg (by simp)]
        exact ⟨_, _, rfl, a1, a2, a3, a4, a5, a6, by simp, by simp, by simp, by simp, fun _ _ _ => ⟨rfl, a7⟩⟩

theorem vacate_pickup (r : Replica) (lc x p : Nat) (keep : Option Nat) {k t : Nat} (p1 : 1 ≤ p) (p2 : p ≤ r.ports.length)
    (hs : (portEntry r p).state = .reserved k .pickup t) (hk : (probeRec r x).custody = .port p → keep = some p) :
    portEntry (vacate r lc x keep) p = portEntry r p := by
  unfold vacate
  split
  · rename_i q hc
    split
    · rfl
    · rename_i hne
      by_cases hq : p = q
      · subst hq; exact absurd (hk hc) hne
      · exact portEntry_set_any _ _ _ _ _ hq
  · rename_i q hc
    split
    · rename_i hd
      by_cases hq : p = q
      · subst hq; rw [hs] at hd; exact Bool.noConfusion hd.2
      · exact portEntry_set_any _ _ _ _ _ hq
    · rfl
  · rw [portEntry_setPortsWhere _ _ _ _ _ p1 p2, hs, if_neg (fun c => Bool.noConfusion c.2)]
  · rfl

theorem makeLost_pickup (r : Replica) (lc x p : Nat) (keep : Option Nat) {k t : Nat} (p1 : 1 ≤ p) (p2 : p ≤ r.ports.length)
    (hs : (portEntry r p).state = .reserved k .pickup t) (hk : (probeRec r x).custody = .port p → keep = some p) :
    portEntry (makeLost r lc keep x) p = portEntry r p := by
  unfold makeLost
  split
  · rfl
  · exact vacate_pickup r lc x p keep p1 p2 hs hk

theorem loseAll_pickup (lc p : Nat) (keep : Option Nat) {k t : Nat} (p1 : 1 ≤ p) (xs : List Nat) : ∀ (r : Replica), p ≤ r.ports.length →
    (portEntry r p).state = .reserved k .pickup t → (∀ x ∈ xs, 1 ≤ x ∧ x ≤ r.probes.length) → (∀ x ∈ xs, (probeRec r x).custody = .port p → keep = some p) →
    portEntry (loseAll lc keep xs r) p = portEntry r p := by
  induction xs with
  | nil => intro r _ _ _ _; rfl
  | cons a xs ih =>
    intro r p2 hs hr hk
    have ha := makeLost_pickup r lc a p keep p1 p2 hs (hk a List.mem_cons_self)
    have hl := makeLost_lengths r lc keep a
    show portEntry (loseAll lc keep xs (makeLost r lc keep a)) p = _
    rw [ih (makeLost r lc keep a) (by rw [hl.2]; exact p2) (by rw [ha]; exact hs) (fun x hx => by rw [hl.1]; exact hr x (List.mem_cons_of_mem _ hx)) ?_, ha]
    intro x hx hc
    rw [makeLost_rec r lc keep a (hr a List.mem_cons_self).1 (hr a List.mem_cons_self).2] at hc
    split at hc
    · cases hc
    · exact hk x (List.mem_cons_of_mem _ hx) hc

theorem placeAtStation_pickup (r : Replica) (lc x k p : Nat) {j t : Nat} (p1 : 1 ≤ p) (p2 : p ≤ r.ports.length) (hl : r.probes.length = 24)
    (hs : (portEntry r p).state = .reserved j .pickup t) :
    portEntry (placeAtStation r lc x k (some p)) p = portEntry r p := by
  have hv := vacate_pickup r lc x p (some p) p1 p2 hs (fun _ => rfl)
  unfold placeAtStation clearStation
  rw [portEntry_setCustody, loseAll_pickup lc p none (k := j) (t := t) p1 _ _ (by rw [vacate_ports]; exact p2) (by rw [hv]; exact hs) ?_ ?_, hv]
  · intro y hy
    obtain ⟨h1, h2, _⟩ := (probesWith_mem _ _ _).mp (List.mem_filter.mp hy).1
    exact ⟨h1, by rw [vacate_probes, hl]; exact h2⟩
  · intro y hy hc
    obtain ⟨h1, h2, h3⟩ := (probesWith_mem _ _ _).mp (List.mem_filter.mp hy).1
    rw [hc] at h3; cases h3

/-- a take's r2: port p unchanged, probes as said -/
theorem take_values (c : CellPart) (lc k x p : Nat) (code : Option Code) (r : Replica) (p1 : 1 ≤ p) (p2 : p ≤ r.ports.length) (hl : r.probes.length = 24) {t : Nat}
    (hs : (portEntry r p).state = .reserved k .pickup t) (x1 : 1 ≤ x) (x2 : x ≤ 24) :
    ∀ q, q = (match probeByCode c code with
      | some y => if y = x then placeAtStation r lc x k (some p)
        else makeLost (setSuspect (placeAtStation r lc y k (some p)) lc y) lc (some p) x
      | none => loseAll lc (some p) (probesWith (makeLost r lc (some p) x) (fun cu => cu == .station k)) (makeLost r lc (some p) x)) →
    portEntry q p = portEntry r p ∧ q.ports.length = r.ports.length ∧
      (probeByCode c code = some x → probeRec q x = placedRec (probeRec r x) (.station k) lc) ∧
      (∀ y, probeByCode c code = some y → y ≠ x → (probeRec q y).custody = .station k ∧ (probeRec q y).cond = .suspect ∧ (probeRec q x).custody = .lost) ∧
      (probeByCode c code = none → (probeRec q x).custody = .lost) ∧
      (∀ xs, (∃ y, probeByCode c code = some y ∧ xs = [y, x]) ∨ (probeByCode c code = none ∧ xs = [x]) ∨ (probeByCode c code = some x ∧ xs = [x]) →
        (∀ y, 1 ≤ y → y ≤ 24 → y ∉ xs → (probeRec r y).custody = .station k → (probeRec q y).custody = .lost) ∧
        (∀ y, y ∉ xs → (probeRec r y).custody ≠ .station k → probeRec q y = probeRec r y)) := by
  intro q hq
  cases hpc : probeByCode c code with
  | some y =>
    rw [hpc] at hq
    simp only at hq
    obtain ⟨y1, y2⟩ := probe_range hpc
    by_cases hyx : y = x
    · subst hyx
      have P := placeAtStation_placed r lc y k (some p) y1 y2 hl
      rw [if_pos rfl] at hq
      subst hq
      refine ⟨placeAtStation_pickup r lc y k p p1 p2 hl hs, P.portsLength, fun _ => P.own, fun z hz hne => absurd (Option.some.inj hz).symm hne, by simp, ?_⟩
      intro xs hxs
      have hm : ∀ z, z ∉ xs → z ≠ y := by
        rcases hxs with ⟨z, hz, e⟩ | ⟨h, _⟩ | ⟨_, e⟩
        · subst e; intro w hw; simp at hw; exact hw.2
        · cases h
        · subst e; intro w hw; simpa using hw
      exact ⟨fun z z1 z2 z3 z4 => by rw [P.gone z z1 z2 (hm z z3) z4]; rfl, fun z z3 z4 => P.kept z (hm z z3) z4⟩
    · have P := placeAtStation_placed r lc y k (some p) y1 y2 hl
      rw [if_neg hyx] at hq
      subst hq
      have hpl : (placeAtStation r lc y k (some p)).probes.length = 24 := by rw [P.probesLength, hl]
      have hsl : (setSuspect (placeAtStation r lc y k (some p)) lc y).probes.length = 24 := by rw [show (setSuspect (placeAtStation r lc y k (some p)) lc y).probes.length = _ from set1_length _ _ _, hpl]
      have hsu := suspect_rec (placeAtStation r lc y k (some p)) lc y y1 (by rw [hpl]; exact y2)
      have hml := makeLost_rec (setSuspect (placeAtStation r lc y k (some p)) lc y) lc (some p) x x1 (by rw [hsl]; exact x2)
      have hML := makeLost_lengths (setSuspect (placeAtStation r lc y k (some p)) lc y) lc (some p) x
      have hport := placeAtStation_pickup r lc y k p p1 p2 hl hs
      refine ⟨?_, ?_, fun h => absurd (Option.some.inj h) hyx, ?_, by simp, ?_⟩
      · rw [makeLost_pickup (setSuspect (placeAtStation r lc y k (some p)) lc y) lc x p (some p) (k := k) (t := t) p1 (by show p ≤ (placeAtStation r lc y k (some p)).ports.length; rw [P.portsLength]; exact p2) (by show (portEntry (placeAtStation r lc y k (some p)) p).state = _; rw [hport]; exact hs) (fun _ => rfl)]
        exact hport
      · rw [hML.2]; exact P.portsLength
      · intro z hz hne
        have : z = y := (Option.some.inj hz).symm
        subst this
        rw [hml z, if_neg (fun c => hne c.1), hsu z, if_pos rfl]
        refine ⟨?_, rfl, ?_⟩
        · show (probeRec (placeAtStation r lc z k (some p)) z).custody = _
          rw [P.own]; rfl
        · rw [hml x]
          by_cases hc : (probeRec (setSuspect (placeAtStation r lc z k (some p)) lc z) x).custody = .lost
          · rw [if_neg (fun c => c.2 hc)]; exact hc
          · rw [if_pos ⟨rfl, hc⟩]; rfl
      · intro xs hxs
        have hm : ∀ z, z ∉ xs → z ≠ y ∧ z ≠ x := by
          rcases hxs with ⟨z, hz, e⟩ | ⟨h, _⟩ | ⟨h, _⟩
          · cases hz; subst e; intro w hw; simpa using hw
          · cases h
          · exact absurd (Option.some.inj h) hyx
        refine ⟨fun z z1 z2 z3 z4 => ?_, fun z z3 z4 => ?_⟩
        · obtain ⟨a, b⟩ := hm z z3
          rw [hml z, if_neg (fun c => b c.1), hsu z, if_neg a, P.gone z z1 z2 a z4]; rfl
        · obtain ⟨a, b⟩ := hm z z3
          rw [hml z, if_neg (fun c => b c.1), hsu z, if_neg a, P.kept z a z4]
  | none =>
    rw [hpc] at hq
    simp only at hq
    have hML := makeLost_lengths r lc (some p) x
    have hml := makeLost_rec r lc (some p) x x1 (by rw [hl]; exact x2)
    have hport := makeLost_pickup r lc x p (some p) p1 p2 hs (fun _ => rfl)
    obtain ⟨xs, hxs⟩ : ∃ xs, xs = probesWith (makeLost r lc (some p) x) (fun cu => cu == .station k) := ⟨_, rfl⟩
    rw [← hxs] at hq
    subst hq
    have hmem : ∀ y, y ∈ xs ↔ 1 ≤ y ∧ y ≤ 24 ∧ (probeRec (makeLost r lc (some p) x) y).custody = .station k := by
      intro y; rw [hxs, probesWith_mem]; simp
    have hrng : ∀ y ∈ xs, 1 ≤ y ∧ y ≤ (makeLost r lc (some p) x).probes.length := fun y hy => by
      obtain ⟨a, b, _⟩ := (hmem y).mp hy; exact ⟨a, by rw [hML.1, hl]; exact b⟩
    have hla := loseAll_rec lc (some p) xs (makeLost r lc (some p) x) (by rw [hxs]; exact probesWith_nodup _ _) hrng
    have hxl : (probeRec (makeLost r lc (some p) x) x).custody = .lost := by
      rw [hml x]
      by_cases hc : (probeRec r x).custody = .lost
      · rw [if_neg (fun c => c.2 hc)]; exact hc
      · rw [if_pos ⟨rfl, hc⟩]; rfl
    refine ⟨?_, by rw [(loseAll_lengths _ _ _ _).2, hML.2], by simp, by simp, ?_, ?_⟩
    · rw [loseAll_pickup lc p (some p) (k := k) (t := t) p1 xs _ (by rw [hML.2]; exact p2) (by rw [hport]; exact hs) hrng (fun _ _ _ => rfl), hport]
    · intro _
      rw [hla x, if_neg (fun c => c.2 hxl)]; exact hxl
    · intro ys hys
      have hm : ∀ z, z ∉ ys → z ≠ x := by
        rcases hys with ⟨z, hz, e⟩ | ⟨h, e⟩ | ⟨h, _⟩
        · cases hz
        · subst e; intro w hw; simpa using hw
        · cases h
      refine ⟨fun z z1 z2 z3 z4 => ?_, fun z z3 z4 => ?_⟩
      · have a := hm z z3
        have e : probeRec (makeLost r lc (some p) x) z = probeRec r z := by rw [hml z, if_neg (fun c => a c.1)]
        rw [hla z, if_pos ⟨(hmem z).mpr ⟨z1, z2, by rw [e]; exact z4⟩, by rw [e, z4]; simp⟩]; rfl
      · have a := hm z z3
        have e : probeRec (makeLost r lc (some p) x) z = probeRec r z := by rw [hml z, if_neg (fun c => a c.1)]
        rw [hla z, if_neg (fun c => by
          have := ((hmem z).mp c.1).2.2
          rw [e] at this; exact z4 this), e]

theorem boardEntries_mem (lc k : Nat) (es : List ThermEntry) (hn : (es.map (·.input)).Nodup) (hr : ∀ e ∈ es, 1 ≤ e.input ∧ e.input ≤ 8) (b : BoardEntry) :
    b ∈ boardEntries lc k es ↔ ∃ x ∈ es, b = ⟨k, x.input, x.kind, x.value, x.state, false, lc⟩ := by
  unfold boardEntries
  rw [List.mem_flatMap]
  constructor
  · rintro ⟨i, _, hb⟩
    split at hb
    · cases hb
    · rename_i e he
      have h1 := List.mem_of_find?_eq_some he
      have h2 := List.find?_some he
      rw [List.mem_singleton] at hb
      simp only [beq_iff_eq] at h2
      exact ⟨e, h1, by rw [hb, h2]⟩
  · rintro ⟨x, hx, rfl⟩
    obtain ⟨a, b⟩ := hr x hx
    refine ⟨x.input, List.mem_map.mpr ⟨x.input - 1, List.mem_range.mpr (by omega), by omega⟩, ?_⟩
    have : es.find? (fun e => e.input == x.input) = some x := by
      rw [List.find?_eq_some_iff_append]
      obtain ⟨l1, l2, hl⟩ := List.append_of_mem hx
      refine ⟨by simp, l1, l2, hl, ?_⟩
      intro e he
      rw [hl, List.map_append, List.nodup_append] at hn
      have := hn.2.2 e.input (List.mem_map_of_mem he) x.input (by simp)
      simpa using this
    rw [this]
    simp

theorem spreads_iff (l : Nat) (vs : List Int) : spreads l vs = true ↔ ∃ u ∈ vs, ∃ v ∈ vs, (l : Int) < u - v := by
  unfold spreads
  simp only [List.any_eq_true, decide_eq_true_eq]

end Sys2Proof.Laws
end

