-- ==== Sys2Proof/Laws/Agree.lean ====
section
/-! SUPPORT. The agreement of custody and port table (R107) through the application of a frame. `AgreesBut p r cu` is the agreement of
every port but `p` with a custody of the probes, so that an operation around one port is judged at that port alone in the end. -/

namespace Sys2Proof.Laws

open Sys2Proof.Machine

/-- The custody of every probe. -/
def custodyIn (r : Replica) (x : Nat) : Custody := (probeRec r x).custody

/-- A probe made LOST in a custody of all. -/
def lose (x : Nat) (cu : Nat → Custody) (y : Nat) : Custody := if y = x then .lost else cu y

/-- The agreement of every port but `p` with a custody of the probes. -/
structure AgreesBut (p : Nat) (r : Replica) (cu : Nat → Custody) : Prop where
  occupied : ∀ q x, q ≠ p → (portEntry r q).state = .occupied x → cu x = .port q
  pickup : ∀ q k x, q ≠ p → (portEntry r q).state = .reserved k .pickup x → (portEntry r q).takeSeen = false → cu x = .port q
  deposit : ∀ q k x, q ≠ p → (portEntry r q).state = .reserved k .deposit x → cu x = .station k ∨ cu x = .transfer q
  atPort : ∀ q x, q ≠ p → cu x = .port q → (portEntry r q).state = .occupied x ∨
    ((∃ k, (portEntry r q).state = .reserved k .pickup x) ∧ (portEntry r q).takeSeen = false)
  inTransfer : ∀ q x, q ≠ p → cu x = .transfer q → ∃ k, (portEntry r q).state = .reserved k .deposit x
  oneStation : ∀ k x y, cu x = .station k → cu y = .station k → x = y

/-- The agreement at one port. -/
structure AgreesAt (p : Nat) (r : Replica) (cu : Nat → Custody) : Prop where
  occupied : ∀ x, (portEntry r p).state = .occupied x → cu x = .port p
  pickup : ∀ k x, (portEntry r p).state = .reserved k .pickup x → (portEntry r p).takeSeen = false → cu x = .port p
  deposit : ∀ k x, (portEntry r p).state = .reserved k .deposit x → cu x = .station k ∨ cu x = .transfer p
  atPort : ∀ x, cu x = .port p → (portEntry r p).state = .occupied x ∨
    ((∃ k, (portEntry r p).state = .reserved k .pickup x) ∧ (portEntry r p).takeSeen = false)
  inTransfer : ∀ x, cu x = .transfer p → ∃ k, (portEntry r p).state = .reserved k .deposit x

theorem agrees_but {r : Replica} (h : Agrees r) (p : Nat) : AgreesBut p r (custodyIn r) :=
  ⟨fun q x _ => h.occupied q x, fun q k x _ => h.pickup q k x, fun q k x _ => h.deposit q k x, fun q x _ => h.atPort q x,
   fun q x _ => h.inTransfer q x, h.oneStation⟩

theorem AgreesBut.agrees {p : Nat} {r : Replica} {cu : Nat → Custody} (h : AgreesBut p r cu) (k : AgreesAt p r cu) (hc : ∀ x, custodyIn r x = cu x) :
    Agrees r := by
  have hc' : ∀ x, (probeRec r x).custody = cu x := hc
  refine ⟨fun q x hs => ?_, fun q j x hs ht => ?_, fun q j x hs => ?_, fun q x hx => ?_, fun q x hx => ?_, fun j x y hx hy => ?_⟩
  · rw [hc']; by_cases hq : q = p
    · subst hq; exact k.occupied x hs
    · exact h.occupied q x hq hs
  · rw [hc']; by_cases hq : q = p
    · subst hq; exact k.pickup j x hs ht
    · exact h.pickup q j x hq hs ht
  · rw [hc']; by_cases hq : q = p
    · subst hq; exact k.deposit j x hs
    · exact h.deposit q j x hq hs
  · rw [hc'] at hx; by_cases hq : q = p
    · subst hq; exact k.atPort x hx
    · exact h.atPort q x hq hx
  · rw [hc'] at hx; by_cases hq : q = p
    · subst hq; exact k.inTransfer x hx
    · exact h.inTransfer q x hq hx
  · rw [hc'] at hx hy; exact h.oneStation j x y hx hy

/-- A port that nobody is at and that names nobody. -/
theorem agreesAt_free {p : Nat} {r : Replica} {cu : Nat → Custody} (hs : (portEntry r p).state = .empty ∨ (portEntry r p).state = .unknown)
    (h1 : ∀ x, cu x ≠ .port p) (h2 : ∀ x, cu x ≠ .transfer p) : AgreesAt p r cu := by
  refine ⟨fun x h => ?_, fun k x h => ?_, fun k x h => ?_, fun x h => absurd h (h1 x), fun x h => absurd h (h2 x)⟩ <;>
    rcases hs with hs | hs <;> rw [hs] at h <;> cases h

/-- A port OCCUPIED by the one probe at it. -/
theorem agreesAt_occupied {p x : Nat} {r : Replica} {cu : Nat → Custody} (hs : (portEntry r p).state = .occupied x) (hx : cu x = .port p)
    (h1 : ∀ y, y ≠ x → cu y ≠ .port p) (h2 : ∀ y, cu y ≠ .transfer p) : AgreesAt p r cu := by
  refine ⟨fun y h => ?_, fun k y h => ?_, fun k y h => ?_, fun y h => ?_, fun y h => absurd h (h2 y)⟩
  · rw [hs] at h; cases h; exact hx
  · rw [hs] at h; cases h
  · rw [hs] at h; cases h
  · by_cases hy : y = x
    · subst hy; exact .inl hs
    · exact absurd h (h1 y hy)

/-- No custody names a port that is EMPTY or UNKNOWN. -/
theorem agrees_nobody {r : Replica} (h : Agrees r) {p : Nat} (hs : (portEntry r p).state = .empty ∨ (portEntry r p).state = .unknown) :
    (∀ x, custodyIn r x ≠ .port p) ∧ ∀ x, custodyIn r x ≠ .transfer p := by
  refine ⟨fun x hx => ?_, fun x hx => ?_⟩
  · rcases h.atPort p x hx with e | ⟨⟨k, e⟩, _⟩ <;> rcases hs with hs | hs <;> rw [hs] at e <;> cases e
  · obtain ⟨k, e⟩ := h.inTransfer p x hx
    rcases hs with hs | hs <;> rw [hs] at e <;> cases e

/-- Who is at a port OCCUPIED, RESERVED for a deposit or RESERVED for a pickup. -/
theorem agrees_onlyAt {r : Replica} (h : Agrees r) {p x : Nat}
    (hs : (portEntry r p).state = .occupied x ∨ (∃ k pu, (portEntry r p).state = .reserved k pu x)) :
    (∀ y, custodyIn r y = .port p → y = x) ∧ ∀ y, custodyIn r y = .transfer p → y = x := by
  refine ⟨fun y hy => ?_, fun y hy => ?_⟩
  · rcases h.atPort p y hy with e | ⟨⟨k, e⟩, _⟩ <;> rcases hs with hs | ⟨j, pu, hs⟩ <;> rw [hs] at e <;> cases e <;> rfl
  · obtain ⟨k, e⟩ := h.inTransfer p y hy
    rcases hs with hs | ⟨j, pu, hs⟩ <;> rw [hs] at e <;> cases e; rfl

/-! ### Custody changed at the port left out -/

/-- Probes at the port left out that become LOST. -/
theorem AgreesBut.loseAt {p : Nat} {r : Replica} {cu cv : Nat → Custody} (h : AgreesBut p r cu)
    (hv : ∀ y, cv y = cu y ∨ (cv y = .lost ∧ (cu y = .port p ∨ cu y = .transfer p))) : AgreesBut p r cv := by
  have hq : ∀ y q, q ≠ p → cu y = .port q ∨ cu y = .transfer q ∨ (∃ k, cu y = .station k) → cv y = cu y := by
    intro y q hq hy
    rcases hv y with e | ⟨_, e | e⟩
    · exact e
    · exfalso; rw [e] at hy; rcases hy with h | h | ⟨k, h⟩ <;> cases h; exact hq rfl
    · exfalso; rw [e] at hy; rcases hy with h | h | ⟨k, h⟩ <;> cases h; exact hq rfl
  have hb : ∀ y c, c ≠ .lost → cv y = c → cu y = c := by
    intro y c hc hy
    rcases hv y with e | ⟨e, _⟩
    · rw [← e]; exact hy
    · exact absurd (e.symm.trans hy) (Ne.symm hc)
  refine ⟨fun q x hn hs => ?_, fun q k x hn hs ht => ?_, fun q k x hn hs => ?_, fun q x hn hx => ?_, fun q x hn hx => ?_, fun k x y hx hy => ?_⟩
  · have := h.occupied q x hn hs; rw [hq x q hn (.inl this)]; exact this
  · have := h.pickup q k x hn hs ht; rw [hq x q hn (.inl this)]; exact this
  · rcases h.deposit q k x hn hs with this | this
    · rw [hq x q hn (.inr (.inr ⟨k, this⟩))]; exact .inl this
    · rw [hq x q hn (.inr (.inl this))]; exact .inr this
  · exact h.atPort q x hn (hb x _ nofun hx)
  · exact h.inTransfer q x hn (hb x _ nofun hx)
  · exact h.oneStation k x y (hb x _ nofun hx) (hb y _ nofun hy)

/-- A LOST probe comes to the port left out. -/
theorem AgreesBut.comeAt {p x : Nat} {r : Replica} {cu cv : Nat → Custody} (h : AgreesBut p r cu) (hx : cu x = .lost)
    (hc : cv x = .port p ∨ cv x = .transfer p) (hv : ∀ y, y ≠ x → cv y = cu y) : AgreesBut p r cv := by
  have hn : ∀ y, cu y ≠ .lost → cv y = cu y := fun y hy => hv y fun e => hy (e ▸ hx)
  have hb : ∀ y c, c ≠ .port p → c ≠ .transfer p → cv y = c → cu y = c := by
    intro y c h1 h2 hy
    by_cases e : y = x
    · subst e
      rcases hc with hc | hc
      · exact absurd (hy.symm.trans hc) h1
      · exact absurd (hy.symm.trans hc) h2
    · rw [← hv y e]; exact hy
  refine ⟨fun q y hq hs => ?_, fun q k y hq hs ht => ?_, fun q k y hq hs => ?_, fun q y hq hy => ?_, fun q y hq hy => ?_, fun k y w hy hw => ?_⟩
  · have := h.occupied q y hq hs; rw [hn y (by rw [this]; exact nofun)]; exact this
  · have := h.pickup q k y hq hs ht; rw [hn y (by rw [this]; exact nofun)]; exact this
  · rcases h.deposit q k y hq hs with this | this <;> rw [hn y (by rw [this]; exact nofun)]
    · exact .inl this
    · exact .inr this
  · exact h.atPort q y hq (hb y _ (fun e => hq (Custody.port.inj e)) nofun hy)
  · exact h.inTransfer q y hq (hb y _ nofun (fun e => hq (Custody.transfer.inj e)) hy)
  · exact h.oneStation k y w (hb y _ nofun nofun hy) (hb w _ nofun nofun hw)

/-- A LOST probe comes to a station where no other is. -/
theorem AgreesBut.comeStation {p x k : Nat} {r : Replica} {cu cv : Nat → Custody} (h : AgreesBut p r cu) (hx : cu x = .lost)
    (hc : cv x = .station k) (hv : ∀ y, y ≠ x → cv y = cu y) (ho : ∀ y, y ≠ x → cu y ≠ .station k) : AgreesBut p r cv := by
  have hn : ∀ y, cu y ≠ .lost → cv y = cu y := fun y hy => hv y fun e => hy (e ▸ hx)
  have hb : ∀ y c, (∀ j, c ≠ .station j) → cv y = c → cu y = c := by
    intro y c h1 hy
    by_cases e : y = x
    · subst e; exact absurd (hy.symm.trans hc) (h1 k)
    · rw [← hv y e]; exact hy
  refine ⟨fun q y hq hs => ?_, fun q k y hq hs ht => ?_, fun q k y hq hs => ?_, fun q y hq hy => ?_, fun q y hq hy => ?_, fun j y w hy hw => ?_⟩
  · have := h.occupied q y hq hs; rw [hn y (by rw [this]; exact nofun)]; exact this
  · have := h.pickup q k y hq hs ht; rw [hn y (by rw [this]; exact nofun)]; exact this
  · rcases h.deposit q k y hq hs with this | this <;> rw [hn y (by rw [this]; exact nofun)]
    · exact .inl this
    · exact .inr this
  · exact h.atPort q y hq (hb y _ (fun _ => nofun) hy)
  · exact h.inTransfer q y hq (hb y _ (fun _ => nofun) hy)
  · by_cases e1 : y = x
    · by_cases e2 : w = x
      · rw [e1, e2]
      · rw [hv w e2] at hw; rw [e1, hc] at hy; cases hy
        exact absurd hw (ho w e2)
    · by_cases e2 : w = x
      · rw [hv y e1] at hy; rw [e2, hc] at hw; cases hw
        exact absurd hy (ho y e1)
      · rw [hv y e1] at hy; rw [hv w e2] at hw
        exact h.oneStation j y w hy hw

/-- Port entries that differ at the port left out alone, or in fields the agreement does not read. -/
theorem AgreesBut.ports {p : Nat} {r t : Replica} {cu : Nat → Custody} (h : AgreesBut p r cu)
    (hs : ∀ q, q ≠ p → (portEntry t q).state = (portEntry r q).state ∧ (portEntry t q).takeSeen = (portEntry r q).takeSeen) : AgreesBut p t cu := by
  refine ⟨fun q x hq => ?_, fun q k x hq => ?_, fun q k x hq => ?_, fun q x hq => ?_, fun q x hq => ?_, h.oneStation⟩
  · rw [(hs q hq).1]; exact h.occupied q x hq
  · rw [(hs q hq).1, (hs q hq).2]; exact h.pickup q k x hq
  · rw [(hs q hq).1]; exact h.deposit q k x hq
  · rw [(hs q hq).1, (hs q hq).2]; exact h.atPort q x hq
  · rw [(hs q hq).1]; exact h.inTransfer q x hq

/-! ### Vacating -/

/-- A probe vacated and LOST (R108): what names it elsewhere than at the port left out names it no more. -/
theorem AgreesBut.vacate {p x : Nat} {r : Replica} {cu : Nat → Custody} (h : AgreesBut p r cu) (hx : cu x = custodyIn r x) (lc : Nat)
    {keep : Option Nat} (hk : keep = none ∨ keep = some p) : AgreesBut p (vacate r lc x keep) (lose x cu) := by
  have hport : ∀ q, q ≠ p → 1 ≤ q ∧ q ≤ r.ports.length → portEntry (Machine.vacate r lc x keep) q = vacatedIn r lc x q := by
    intro q hq hin
    refine vacate_port r lc x keep q hin.1 hin.2 ?_
    rcases hk with rfl | rfl
    · exact nofun
    · exact fun e => hq (Option.some.inj e).symm
  have hout : ∀ q, ¬ (1 ≤ q ∧ q ≤ r.ports.length) → (portEntry (Machine.vacate r lc x keep) q).state = .empty ∧ (portEntry r q).state = .empty := by
    intro q hin
    refine ⟨?_, ?_⟩
    · unfold portEntry; rw [at1_outside _ _ _ (by rw [vacate_ports]; exact hin)]
    · unfold portEntry; rw [at1_outside _ _ _ hin]
  have hcu : (probeRec r x).custody = cu x := hx.symm
  -- the state of a port in the table after vacating: kept, or it named the probe
  have hst : ∀ q, q ≠ p →
      ((portEntry (Machine.vacate r lc x keep) q).state = (portEntry r q).state ∧
        (portEntry (Machine.vacate r lc x keep) q).takeSeen = (portEntry r q).takeSeen ∧ cu x ≠ .port q ∧
        (∀ k, (portEntry r q).state = .reserved k .deposit x → False)) ∨
      ((portEntry (Machine.vacate r lc x keep) q).state = .empty ∨ (portEntry (Machine.vacate r lc x keep) q).state = .unknown) ∧
        (cu x = .port q ∨ ∃ k, (portEntry r q).state = .reserved k .deposit x) := by
    intro q hq
    by_cases hin : 1 ≤ q ∧ q ≤ r.ports.length
    · rw [hport q hq hin]
      have hd : ∀ k, (portEntry r q).state = .reserved k .deposit x → depositOf x (portEntry r q).state = true := by
        intro k e; rw [e]; simp [depositOf]
      have hd' : depositOf x (portEntry r q).state = true → ∃ k, (portEntry r q).state = .reserved k .deposit x := by
        intro e
        cases hs : (portEntry r q).state with
        | reserved k pu y =>
          cases pu with
          | deposit => rw [hs] at e; exact ⟨k, by rw [beq_iff_eq.mp e]⟩
          | pickup => rw [hs] at e; cases e
        | _ => rw [hs] at e; cases e
      unfold vacatedIn
      simp only
      rw [hcu]
      cases hc : cu x with
      | port j =>
        simp only
        by_cases hj : j = q
        · rw [if_pos hj]; exact .inr ⟨.inr rfl, .inl (by rw [hj])⟩
        · rw [if_neg hj]
          refine .inl ⟨rfl, rfl, fun e => hj (Custody.port.inj e), fun k e => ?_⟩
          rcases h.deposit q k x hq e with e | e <;> rw [hc] at e <;> cases e
      | transfer j =>
        simp only
        by_cases hj : j = q ∧ depositOf x (portEntry r q).state = true
        · rw [if_pos hj]; exact .inr ⟨.inr rfl, .inr (hd' hj.2)⟩
        · rw [if_neg hj]
          refine .inl ⟨rfl, rfl, nofun, fun k e => ?_⟩
          rcases h.deposit q k x hq e with e2 | e2 <;> rw [hc] at e2 <;> cases e2
          exact hj ⟨rfl, hd k e⟩
      | station j =>
        simp only
        by_cases hj : depositOf x (portEntry r q).state = true
        · rw [if_pos hj]; exact .inr ⟨.inl rfl, .inr (hd' hj)⟩
        · rw [if_neg hj]
          exact .inl ⟨rfl, rfl, nofun, fun k e => hj (hd k e)⟩
      | lost =>
        refine .inl ⟨rfl, rfl, nofun, fun k e => ?_⟩
        rcases h.deposit q k x hq e with e2 | e2 <;> rw [hc] at e2 <;> cases e2
    · obtain ⟨h1, h2⟩ := hout q hin
      refine .inl ⟨h1.trans h2.symm, ?_, fun e => ?_, fun k e => by rw [h2] at e; cases e⟩
      · unfold portEntry; rw [at1_outside _ _ _ (by rw [vacate_ports]; exact hin), at1_outside _ _ _ hin]
      · rcases h.atPort q x hq e with e | ⟨⟨k, e⟩, _⟩ <;> rw [h2] at e <;> cases e
  have hl : ∀ y, y ≠ x → lose x cu y = cu y := fun y hy => if_neg hy
  have hlx : lose x cu x = .lost := if_pos rfl
  have hinv : ∀ y c, c ≠ .lost → lose x cu y = c → y ≠ x ∧ cu y = c := by
    intro y c hc hy
    have : y ≠ x := by intro e; rw [e, hlx] at hy; exact hc hy.symm
    exact ⟨this, by rw [← hl y this]; exact hy⟩
  refine ⟨fun q y hq hs => ?_, fun q k y hq hs ht => ?_, fun q k y hq hs => ?_, fun q y hq hy => ?_, fun q y hq hy => ?_, fun k y w hy hw => ?_⟩
  · rcases hst q hq with ⟨a, b, c, d⟩ | ⟨a | a, _⟩
    · rw [a] at hs
      have := h.occupied q y hq hs
      rw [hl y (fun e => c (e ▸ this))]; exact this
    all_goals rw [a] at hs; cases hs
  · rcases hst q hq with ⟨a, b, c, d⟩ | ⟨a | a, _⟩
    · rw [a] at hs; rw [b] at ht
      have := h.pickup q k y hq hs ht
      rw [hl y (fun e => c (e ▸ this))]; exact this
    all_goals rw [a] at hs; cases hs
  · rcases hst q hq with ⟨a, b, c, d⟩ | ⟨a | a, _⟩
    · rw [a] at hs
      have := h.deposit q k y hq hs
      rw [hl y (fun e => d k (e ▸ hs))]; exact this
    all_goals rw [a] at hs; cases hs
  · obtain ⟨hne, hcy⟩ := hinv y (.port q) nofun hy
    rcases hst q hq with ⟨a, b, c, d⟩ | ⟨_, e | ⟨k, e⟩⟩
    · rw [a, b]; exact h.atPort q y hq hcy
    · exfalso
      rcases h.atPort q y hq hcy with a | ⟨⟨k, a⟩, _⟩ <;> rcases h.atPort q x hq e with b | ⟨⟨j, b⟩, _⟩ <;> rw [a] at b <;> cases b <;> exact hne rfl
    · exfalso
      rcases h.atPort q y hq hcy with a | ⟨⟨k, a⟩, _⟩ <;> rw [a] at e <;> cases e
  · obtain ⟨hne, hcy⟩ := hinv y (.transfer q) nofun hy
    obtain ⟨k, hk2⟩ := h.inTransfer q y hq hcy
    rcases hst q hq with ⟨a, b, c, d⟩ | ⟨_, e | ⟨j, e⟩⟩
    · exact ⟨k, a.trans hk2⟩
    · exfalso
      rcases h.atPort q x hq e with b | ⟨⟨j, b⟩, _⟩ <;> rw [hk2] at b <;> cases b
    · exfalso
      rw [hk2] at e; cases e; exact hne rfl
  · obtain ⟨_, h1⟩ := hinv y (.station k) nofun hy
    obtain ⟨_, h2⟩ := hinv w (.station k) nofun hw
    exact h.oneStation k y w h1 h2

/-! ### Custody after each placing -/

theorem probeRec_outside {r : Replica} {x : Nat} (h : ¬ (1 ≤ x ∧ x ≤ r.probes.length)) : (probeRec r x).custody = .lost := by
  unfold probeRec; rw [at1_outside _ _ _ h]

theorem custody_makeLost (r : Replica) (lc : Nat) (keep : Option Nat) (x : Nat) : custodyIn (makeLost r lc keep x) = lose x (custodyIn r) := by
  funext y
  unfold custodyIn lose
  by_cases hx : 1 ≤ x ∧ x ≤ r.probes.length
  · rw [makeLost_rec r lc keep x hx.1 hx.2]
    by_cases hy : y = x
    · subst hy
      by_cases hc : (probeRec r y).custody = .lost
      · rw [if_neg (fun c => c.2 hc), if_pos rfl, hc]
      · rw [if_pos ⟨rfl, hc⟩, if_pos rfl]; rfl
    · rw [if_neg (fun c => hy c.1), if_neg hy]
  · have hl := probeRec_outside hx
    rw [show makeLost r lc keep x = r from if_pos hl]
    by_cases hy : y = x
    · rw [if_pos hy, hy, hl]
    · rw [if_neg hy]

/-- The probes of a list made LOST in a custody of all. -/
def loseThese (xs : List Nat) (cu : Nat → Custody) (y : Nat) : Custody := if y ∈ xs then .lost else cu y

theorem custody_loseAll (lc : Nat) (keep : Option Nat) (xs : List Nat) (r : Replica) :
    custodyIn (loseAll lc keep xs r) = loseThese xs (custodyIn r) := by
  induction xs generalizing r with
  | nil => funext y; simp [loseThese, loseAll]
  | cons a xs ih =>
    funext y
    rw [show loseAll lc keep (a :: xs) r = loseAll lc keep xs (makeLost r lc keep a) from rfl, ih, custody_makeLost]
    unfold loseThese lose
    by_cases hy : y ∈ xs
    · rw [if_pos hy, if_pos (List.mem_cons_of_mem _ hy)]
    · rw [if_neg hy]
      by_cases ha : y = a
      · rw [if_pos ha, if_pos (by rw [ha]; exact List.mem_cons_self)]
      · rw [if_neg ha, if_neg (by simp [ha, hy])]

theorem custody_placeAtPort (r : Replica) (lc x p : Nat) (h1 : 1 ≤ x) (h2 : x ≤ 24) (hl : r.probes.length = 24) (y : Nat) :
    custodyIn (placeAtPort r lc x p) y =
      if y = x then .port p else if custodyIn r y = .port p ∨ custodyIn r y = .transfer p then .lost else custodyIn r y := by
  have P := placeAtPort_placed r lc x p h1 h2 hl
  unfold custodyIn
  by_cases hy : y = x
  · subst hy; rw [if_pos rfl, P.own]; rfl
  · rw [if_neg hy]
    by_cases hc : (probeRec r y).custody = .port p ∨ (probeRec r y).custody = .transfer p
    · rw [if_pos hc]
      by_cases hin : 1 ≤ y ∧ y ≤ r.probes.length
      · rw [P.gone y hin.1 (hl ▸ hin.2) hy hc]; rfl
      · rw [probeRec_outside hin] at hc; rcases hc with hc | hc <;> cases hc
    · rw [if_neg hc, P.kept y hy (fun e => hc (.inl e)) (fun e => hc (.inr e))]

theorem custody_placeAtStation (r : Replica) (lc x k : Nat) (keep : Option Nat) (h1 : 1 ≤ x) (h2 : x ≤ 24) (hl : r.probes.length = 24) (y : Nat) :
    custodyIn (placeAtStation r lc x k keep) y =
      if y = x then .station k else if custodyIn r y = .station k then .lost else custodyIn r y := by
  have P := placeAtStation_placed r lc x k keep h1 h2 hl
  unfold custodyIn
  by_cases hy : y = x
  · subst hy; rw [if_pos rfl, P.own]; rfl
  · rw [if_neg hy]
    by_cases hc : (probeRec r y).custody = .station k
    · rw [if_pos hc]
      by_cases hin : 1 ≤ y ∧ y ≤ r.probes.length
      · rw [P.gone y hin.1 (hl ▸ hin.2) hy hc]; rfl
      · rw [probeRec_outside hin] at hc; cases hc
    · rw [if_neg hc, P.kept y hy hc]

theorem custody_set (r : Replica) (lc x : Nat) (cu : Custody) (h1 : 1 ≤ x) (h2 : x ≤ r.probes.length) (y : Nat) :
    custodyIn (setCustody r lc x cu) y = if y = x then cu else custodyIn r y := by
  unfold custodyIn
  rw [probeRec_setCustody r lc x cu h1 h2]
  split <;> rfl

theorem custody_suspect (r : Replica) (lc x : Nat) : custodyIn (setSuspect r lc x) = custodyIn r := by
  funext y
  unfold custodyIn setSuspect probeRec
  dsimp only
  rw [at1_set1]
  split
  · rename_i h; rw [h.1]
  · rfl

theorem custody_of_probes {r t : Replica} (h : t.probes = r.probes) : custodyIn t = custodyIn r := by
  funext y; unfold custodyIn probeRec; rw [h]

/-! ### The agreement but for one port, through each placing -/

theorem AgreesBut.samePorts {p : Nat} {r t : Replica} {cu : Nat → Custody} (h : AgreesBut p r cu) (hs : t.ports = r.ports) : AgreesBut p t cu :=
  h.ports fun q _ => by unfold portEntry; rw [hs]; exact ⟨rfl, rfl⟩

theorem AgreesBut.makeLost {p x : Nat} {r : Replica} {cu : Nat → Custody} (h : AgreesBut p r cu) (hx : cu x = custodyIn r x) (lc : Nat)
    {keep : Option Nat} (hk : keep = none ∨ keep = some p) : AgreesBut p (makeLost r lc keep x) (lose x cu) := by
  unfold Machine.makeLost
  split
  · rename_i hl
    have e : lose x cu = cu := by
      funext y; unfold lose; split
      · rename_i hy; rw [hy, hx]; exact hl.symm
      · rfl
    rw [e]; exact h
  · exact (h.vacate hx lc hk).samePorts rfl

theorem AgreesBut.loseAll {p : Nat} (lc : Nat) {keep : Option Nat} (hk : keep = none ∨ keep = some p) (xs : List Nat) :
    ∀ {r : Replica} {cu : Nat → Custody}, AgreesBut p r cu → (∀ x ∈ xs, cu x = custodyIn r x) → AgreesBut p (loseAll lc keep xs r) (loseThese xs cu) := by
  induction xs with
  | nil =>
    intro r cu h _
    have e : loseThese [] cu = cu := by funext y; simp [loseThese]
    rw [e]; exact h
  | cons a xs ih =>
    intro r cu h hx
    have e : loseThese (a :: xs) cu = loseThese xs (lose a cu) := by
      funext y
      unfold loseThese lose
      by_cases hy : y ∈ xs
      · rw [if_pos hy, if_pos (List.mem_cons_of_mem _ hy)]
      · rw [if_neg hy]
        by_cases ha : y = a
        · rw [if_pos ha, if_pos (by rw [ha]; exact List.mem_cons_self)]
        · rw [if_neg ha, if_neg (by simp [ha, hy])]
    rw [e]
    refine ih (h.makeLost (hx a List.mem_cons_self) lc hk) fun x hm => ?_
    rw [custody_makeLost]
    unfold lose
    split
    · rfl
    · exact hx x (List.mem_cons_of_mem _ hm)

theorem agrees_placeAtPort {r : Replica} (h : Agrees r) (lc : Nat) {x p : Nat} (h1 : 1 ≤ x) (h2 : x ≤ 24) (hl : r.probes.length = 24) :
    AgreesBut p (placeAtPort r lc x p) (custodyIn (placeAtPort r lc x p)) := by
  have hv := (agrees_but h p).vacate (x := x) rfl lc (keep := some p) (.inr rfl)
  have hw := hv.loseAt (cv := fun y => if y ≠ x ∧ (custodyIn r y = .port p ∨ custodyIn r y = .transfer p) then .lost else lose x (custodyIn r) y)
    (fun y => by
      by_cases hy : y ≠ x ∧ (custodyIn r y = .port p ∨ custodyIn r y = .transfer p)
      · rw [if_pos hy]; right; unfold lose; rw [if_neg hy.1]; exact ⟨rfl, hy.2⟩
      · rw [if_neg hy]; exact .inl rfl)
  have hc := hw.comeAt (cv := custodyIn (Machine.placeAtPort r lc x p)) (x := x) (by simp [lose])
    (.inl (by rw [custody_placeAtPort r lc x p h1 h2 hl, if_pos rfl]))
    (fun y hy => by
      rw [custody_placeAtPort r lc x p h1 h2 hl, if_neg hy]
      by_cases hc : custodyIn r y = .port p ∨ custodyIn r y = .transfer p
      · rw [if_pos hc, if_pos ⟨hy, hc⟩]
      · rw [if_neg hc, if_neg (fun a => hc a.2)]; unfold lose; rw [if_neg hy])
  exact hc.samePorts (clearPort_ports _ _ _ _)

theorem agrees_placeAtStation {p : Nat} {r : Replica} (h : AgreesBut p r (custodyIn r)) (lc : Nat) {x k : Nat} {keep : Option Nat}
    (hk : keep = none ∨ keep = some p) (h1 : 1 ≤ x) (h2 : x ≤ 24) (hl : r.probes.length = 24) :
    AgreesBut p (placeAtStation r lc x k keep) (custodyIn (placeAtStation r lc x k keep)) := by
  have hv := h.vacate (x := x) rfl lc hk
  have hcv : custodyIn (Machine.vacate r lc x keep) = custodyIn r := custody_of_probes (vacate_probes r lc x keep)
  have hm : ∀ y, y ∈ (probesWith (Machine.vacate r lc x keep) (fun c => c == .station k)).filter (fun y => y != x) →
      y ≠ x ∧ custodyIn r y = .station k := by
    intro y hy
    rw [List.mem_filter, probesWith_mem, vacate_rec] at hy
    simp only [beq_iff_eq, bne_iff_ne] at hy
    exact ⟨hy.2, hy.1.2.2⟩
  have hm' : ∀ y, y ≠ x → custodyIn r y = .station k →
      y ∈ (probesWith (Machine.vacate r lc x keep) (fun c => c == .station k)).filter (fun y => y != x) := by
    intro y hy hc
    rw [List.mem_filter, probesWith_mem, vacate_rec]
    have hin : 1 ≤ y ∧ y ≤ r.probes.length := by
      by_contra hin
      have : custodyIn r y = .lost := probeRec_outside hin
      rw [this] at hc; cases hc
    exact ⟨⟨hin.1, hl ▸ hin.2, beq_iff_eq.mpr hc⟩, bne_iff_ne.mpr hy⟩
  have hw := hv.loseAll (p := p) lc (keep := none) (.inl rfl)
    ((probesWith (Machine.vacate r lc x keep) (fun c => c == .station k)).filter (fun y => y != x))
    (fun y hy => by rw [hcv]; unfold lose; rw [if_neg (hm y hy).1])
  have hc := hw.comeStation (cv := custodyIn (Machine.placeAtStation r lc x k keep)) (x := x) (k := k)
    (by
      unfold loseThese
      split
      · rfl
      · simp [lose])
    (by rw [custody_placeAtStation r lc x k keep h1 h2 hl, if_pos rfl])
    (fun y hy => by
      rw [custody_placeAtStation r lc x k keep h1 h2 hl, if_neg hy]
      unfold loseThese
      by_cases hc : custodyIn r y = .station k
      · rw [if_pos hc, if_pos (hm' y hy hc)]
      · rw [if_neg hc, if_neg (fun a => hc (hm y a).2)]; unfold lose; rw [if_neg hy])
    (fun y hy => by
      unfold loseThese
      by_cases hc : custodyIn r y = .station k
      · rw [if_pos (hm' y hy hc)]; exact nofun
      · split
        · exact nofun
        · unfold lose; rw [if_neg hy]; exact hc)
  exact hc.samePorts rfl

/-! ### The agreement through the operations at one port -/

/-- Replicas with the same states, take-seen flags and custodies. -/
theorem agrees_same {r t : Replica} (h : Agrees r) (hc : custodyIn t = custodyIn r)
    (hs : ∀ q, (portEntry t q).state = (portEntry r q).state ∧ (portEntry t q).takeSeen = (portEntry r q).takeSeen) : Agrees t := by
  have e : ∀ x, (probeRec t x).custody = (probeRec r x).custody := fun x => congrFun hc x
  refine ⟨fun q x => ?_, fun q k x => ?_, fun q k x => ?_, fun q x => ?_, fun q x => ?_, fun k x y => ?_⟩
  · rw [(hs q).1, e]; exact h.occupied q x
  · rw [(hs q).1, (hs q).2, e]; exact h.pickup q k x
  · rw [(hs q).1, e]; exact h.deposit q k x
  · rw [(hs q).1, (hs q).2, e]; exact h.atPort q x
  · rw [(hs q).1, e]; exact h.inTransfer q x
  · rw [e, e]; exact h.oneStation k x y

/-- A port in the table given another entry. -/
theorem AgreesBut.setPort {p : Nat} {r : Replica} {cu : Nat → Custody} (h : AgreesBut p r cu) (e : PortEntry) :
    AgreesBut p { r with ports := set1 r.ports p e } cu :=
  h.ports fun q hq => by
    rw [show portEntry { r with ports := set1 r.ports p e } q = portEntry r q from at1_set1_other _ _ _ _ _ hq]
    exact ⟨rfl, rfl⟩

/-- A port in the table given another entry, and the agreement judged there. -/
theorem AgreesBut.close {p : Nat} {r : Replica} (h : AgreesBut p r (custodyIn r)) (e : PortEntry) (p1 : 1 ≤ p) (p2 : p ≤ r.ports.length)
    (hat : ∀ t : Replica, portEntry t p = e → AgreesAt p t (custodyIn r)) : Agrees { r with ports := set1 r.ports p e } :=
  (h.setPort e).agrees (hat _ (at1_set1_same _ _ _ _ p1 p2)) fun _ => rfl

theorem agrees_restamp {r : Replica} (h : Agrees r) (lc p : Nat) (old : PortEntry) : Agrees (restamp r lc p old) := by
  refine agrees_same h rfl fun q => ?_
  by_cases hq : q = p
  · subst hq
    by_cases hin : 1 ≤ q ∧ q ≤ r.ports.length
    · obtain ⟨⟨st, e⟩, _⟩ := restamp_facts r lc q old hin.1 hin.2
      rw [e]; exact ⟨rfl, rfl⟩
    · have e1 : portEntry (Machine.restamp r lc q old) q = portEntry r q := by
        unfold portEntry
        rw [at1_outside _ _ _ hin, at1_outside _ _ _ (by rw [show (Machine.restamp r lc q old).ports.length = r.ports.length from set1_length _ _ _]; exact hin)]
      rw [e1]; exact ⟨rfl, rfl⟩
  · have e1 : portEntry (Machine.restamp r lc p old) q = portEntry r q := at1_set1_other _ _ _ _ _ hq
    rw [e1]; exact ⟨rfl, rfl⟩

theorem agrees_reserve {c : CellPart} {lc k p x : Nat} {purpose : Purpose} {r t : Replica} (h : Agrees r) (hc : c.ports.length ≤ 12)
    (hp : r.ports.length = 12) (ht : reservePort c lc k p purpose x r = some t) : Agrees t := by
  have hin : ∀ b, (configured c p && inUse c x && b) = true → 1 ≤ p ∧ p ≤ r.ports.length ∧ b = true := by
    intro b hb
    simp only [Bool.and_eq_true, configured, decide_eq_true_eq] at hb
    exact ⟨hb.1.1.1, by omega, hb.2⟩
  unfold reservePort at ht
  cases purpose with
  | deposit =>
    simp only at ht
    split at ht
    · rename_i hok
      cases ht
      obtain ⟨p1, p2, hs⟩ := hin _ hok
      refine (agrees_but h p).close _ p1 p2 fun u hu => ?_
      have hs : (portEntry r p).state = .empty ∧ (probeRec r x).custody = .station k := by simpa using hs
      obtain ⟨n1, n2⟩ := agrees_nobody h (.inl hs.1)
      refine ⟨fun y hy => ?_, fun j y hy => ?_, fun j y hy => ?_, fun y hy => absurd hy (n1 y), fun y hy => absurd hy (n2 y)⟩ <;> rw [hu] at hy <;> cases hy
      exact .inl hs.2
    · cases ht
  | pickup =>
    simp only at ht
    split at ht
    · rename_i hok
      cases ht
      obtain ⟨p1, p2, hs⟩ := hin _ hok
      refine (agrees_but h p).close _ p1 p2 fun u hu => ?_
      have hs : (portEntry r p).state = .occupied x := by simpa using hs
      have ho := agrees_onlyAt h (.inl hs)
      have hx := h.occupied p x hs
      refine ⟨fun y hy => ?_, fun j y hy _ => ?_, fun j y hy => ?_, fun y hy => ?_, fun y hy => ?_⟩
      · rw [hu] at hy; cases hy
      · rw [hu] at hy; cases hy; exact hx
      · rw [hu] at hy; cases hy
      · have := ho.1 y hy; subst this
        rw [hu]; exact .inr ⟨⟨k, rfl⟩, rfl⟩
      · have := ho.2 y hy; subst this
        exact absurd (hx.symm.trans hy) nofun
    · cases ht

/-- The probe that was at a port becomes LOST and the port names nobody. -/
theorem agrees_loseAt {r : Replica} (h : Agrees r) {p x : Nat} (e : PortEntry) (p1 : 1 ≤ p) (p2 : p ≤ r.ports.length)
    (he : e.state = .empty ∨ e.state = .unknown)
    (hs : (portEntry r p).state = .occupied x ∨ (∃ k pu, (portEntry r p).state = .reserved k pu x)) {t : Replica}
    (ht : AgreesBut p t (custodyIn t)) (hc : custodyIn t = lose x (custodyIn r)) (hl : t.ports.length = r.ports.length) :
    Agrees { t with ports := set1 t.ports p e } := by
  refine ht.close e p1 (by rw [hl]; exact p2) fun u hu => ?_
  have ho := agrees_onlyAt h hs
  refine agreesAt_free (by rw [hu]; exact he) (fun y hy => ?_) (fun y hy => ?_) <;> rw [hc] at hy <;> unfold lose at hy <;> split at hy
  · cases hy
  · rename_i hn; exact hn (ho.1 y hy)
  · cases hy
  · rename_i hn; exact hn (ho.2 y hy)

theorem agrees_makeLostAt {r : Replica} (h : Agrees r) (lc p x : Nat) :
    AgreesBut p (makeLost r lc (some p) x) (custodyIn (makeLost r lc (some p) x)) := by
  rw [custody_makeLost]
  exact (agrees_but h p).makeLost rfl lc (.inr rfl)

theorem agrees_freePort {r : Replica} (h : Agrees r) {p : Nat} (e : PortEntry) (p1 : 1 ≤ p) (p2 : p ≤ r.ports.length)
    (he : e.state = .empty ∨ e.state = .unknown) (h1 : ∀ x, custodyIn r x ≠ .port p) (h2 : ∀ x, custodyIn r x ≠ .transfer p) :
    Agrees { r with ports := set1 r.ports p e } :=
  (agrees_but h p).close e p1 p2 fun _ hu => agreesAt_free (by rw [hu]; exact he) h1 h2

theorem agrees_occupyPort {r : Replica} (h : Agrees r) (lc : Nat) {p x : Nat} {t : Replica} (e : PortEntry) (p1 : 1 ≤ p) (p2 : p ≤ r.ports.length)
    (x1 : 1 ≤ x) (x2 : x ≤ 24) (hl : r.probes.length = 24) (he : e.state = .occupied x)
    (ht : t.ports = (Machine.placeAtPort r lc x p).ports) (hc : t.probes = (Machine.placeAtPort r lc x p).probes) :
    Agrees { t with ports := set1 t.ports p e } := by
  have hcu : custodyIn t = custodyIn (Machine.placeAtPort r lc x p) := custody_of_probes hc
  have hb : AgreesBut p t (custodyIn t) := by
    rw [hcu]; exact (agrees_placeAtPort h lc x1 x2 hl).samePorts ht
  have hval := custody_placeAtPort r lc x p x1 x2 hl
  refine hb.close e p1 (by rw [ht, (placeAtPort_placed r lc x p x1 x2 hl).portsLength]; exact p2) fun u hu => ?_
  rw [hcu]
  refine agreesAt_occupied (by rw [hu]; exact he) (by rw [hval, if_pos rfl]) (fun y hy => ?_) (fun y => ?_) <;> rw [hval]
  · rw [if_neg hy]
    split
    · exact nofun
    · rename_i hn; exact fun e => hn (.inl e)
  · split
    · exact nofun
    · split
      · exact nofun
      · rename_i hn; exact fun e => hn (.inr e)

theorem agrees_follow {c : CellPart} {lc p : Nat} {present : Bool} {code : Option Code} {r : Replica} (h : Agrees r)
    (hnr : ∀ k pu x, (portEntry r p).state ≠ .reserved k pu x) (p1 : 1 ≤ p) (p2 : p ≤ r.ports.length) (hl : r.probes.length = 24) :
    Agrees (followReport c lc p present code r) := by
  rcases followReport_cases c lc p present code r with ⟨x, _, _, _, e⟩ | ⟨x, _, hx, _, e⟩ | ⟨_, st, hst, ⟨x, hx, e⟩ | ⟨hx, e⟩⟩
  · rw [e]; exact h
  · rw [e]
    obtain ⟨x1, x2⟩ := probe_range hx
    exact agrees_occupyPort h lc _ p1 p2 x1 x2 hl rfl rfl rfl
  · rw [e]
    refine agrees_loseAt h _ p1 p2 ?_ (.inl hx) (agrees_makeLostAt h lc p x) (custody_makeLost _ _ _ _) (makeLost_lengths _ _ _ _).2
    subst hst; cases present
    · exact .inl rfl
    · exact .inr rfl
  · rw [e]
    obtain ⟨n1, n2⟩ : (∀ y, custodyIn r y ≠ .port p) ∧ ∀ y, custodyIn r y ≠ .transfer p := by
      refine ⟨fun y hy => ?_, fun y hy => ?_⟩
      · rcases h.atPort p y hy with a | ⟨⟨k, a⟩, _⟩
        · exact hx y a
        · exact hnr _ _ _ a
      · obtain ⟨k, a⟩ := h.inTransfer p y hy; exact hnr _ _ _ a
    refine agrees_freePort h _ p1 p2 ?_ n1 n2
    subst hst; cases present
    · exact .inl rfl
    · exact .inr rfl

theorem agrees_settle {c : CellPart} {lc p k m : Nat} {present : Bool} {code : Option Code} {r : Replica} (h : Agrees r)
    (hs : (portEntry r p).state = .reserved k .deposit m) (p1 : 1 ≤ p) (p2 : p ≤ r.ports.length) (hl : r.probes.length = 24) :
    Agrees (settleDeposit c lc p m present code r) := by
  unfold settleDeposit
  split
  · exact h
  · split
    · rename_i x hx
      obtain ⟨x1, x2⟩ := probe_range hx
      split
      · rename_i hxm
        subst hxm
        exact agrees_occupyPort h lc _ p1 p2 x1 x2 hl rfl rfl rfl
      · rename_i hxm
        have hval := custody_placeAtPort r lc x p x1 x2 hl
        have hb := (agrees_placeAtPort h lc x1 x2 hl (p := p)).makeLost (x := m) rfl lc (keep := some p) (.inr rfl)
        have hc : custodyIn (setSuspect (makeLost (placeAtPort r lc x p) lc (some p) m) lc m) = lose m (custodyIn (placeAtPort r lc x p)) := by
          rw [custody_suspect, custody_makeLost]
        have hb2 : AgreesBut p (setSuspect (makeLost (placeAtPort r lc x p) lc (some p) m) lc m)
            (custodyIn (setSuspect (makeLost (placeAtPort r lc x p) lc (some p) m) lc m)) := by
          rw [hc]; exact hb.samePorts rfl
        refine hb2.close _ p1 ?_ fun u hu => ?_
        · show p ≤ (makeLost (placeAtPort r lc x p) lc (some p) m).ports.length
          rw [(makeLost_lengths _ _ _ _).2, (placeAtPort_placed r lc x p x1 x2 hl).portsLength]; exact p2
        rw [hc]
        refine agreesAt_occupied (x := x) (by rw [hu]) (by unfold lose; rw [if_neg hxm, hval, if_pos rfl]) (fun y hy => ?_) (fun y => ?_) <;> unfold lose <;>
          split
        · exact nofun
        · rw [hval, if_neg hy]
          split
          · exact nofun
          · rename_i hn; exact fun e => hn (.inl e)
        · exact nofun
        · rw [hval]
          split
          · exact nofun
          · split
            · exact nofun
            · rename_i hn; exact fun e => hn (.inr e)
    · refine agrees_loseAt h _ p1 p2 (.inr rfl) (.inr ⟨k, .deposit, hs⟩) (t := setSuspect (makeLost r lc (some p) m) lc m) ?_ ?_ ?_
      · rw [custody_suspect]; exact (agrees_makeLostAt h lc p m).samePorts rfl
      · rw [custody_suspect]; exact custody_makeLost _ _ _ _
      · exact (makeLost_lengths _ _ _ _).2

theorem agrees_finish {lc p k x : Nat} {r : Replica} (h : Agrees r) (hs : (portEntry r p).state = .reserved k .pickup x) (p1 : 1 ≤ p)
    (p2 : p ≤ r.ports.length) : Agrees (finishPickup r lc p) := by
  unfold finishPickup
  simp only
  split
  · rename_i hc
    have ht : (portEntry r p).takeSeen = true := by
      simp only [Bool.and_eq_true] at hc; exact hc.1
    refine agrees_freePort h _ p1 p2 (.inl rfl) (fun y hy => ?_) (fun y hy => ?_)
    · rcases h.atPort p y hy with a | ⟨_, a⟩
      · rw [hs] at a; cases a
      · rw [ht] at a; cases a
    · obtain ⟨j, a⟩ := h.inTransfer p y hy
      rw [hs] at a; cases a
  · exact h

theorem agrees_report {c : CellPart} {lc p : Nat} {present : Bool} {lock : Lock} {code : Option Code} {r : Replica} (h : Agrees r)
    (p1 : 1 ≤ p) (p2 : p ≤ r.ports.length) (hl : r.probes.length = 24) : Agrees (reportPort c lc p present lock code r) := by
  unfold reportPort
  simp only
  refine agrees_restamp ?_ _ _ _
  obtain ⟨e1, e2, e3⟩ := reported_facts r p present lock code p1 p2
  generalize hr1 : ({ r with ports := set1 r.ports p { portEntry r p with presence := if present then .present else .absent, lock := lock, ident := code } } : Replica) = r1
  rw [hr1] at e1 e2 e3
  have hp1 : r1.probes = r.probes := by rw [← hr1]
  have h1 : Agrees r1 := agrees_same h (custody_of_probes hp1) fun q => by
    by_cases hq : q = p
    · subst hq; rw [e1]; exact ⟨rfl, rfl⟩
    · rw [e2 q hq]; exact ⟨rfl, rfl⟩
  have p2' : p ≤ r1.ports.length := by rw [e3]; exact p2
  have hl1 : r1.probes.length = 24 := by rw [hp1]; exact hl
  have hst : (portEntry r1 p).state = (portEntry r p).state := by rw [e1]
  split
  · rename_i k m hs
    split
    · exact agrees_settle h1 (by rw [hst, hs]) p1 p2' hl1
    · exact h1
  · rename_i k m hs
    split
    · exact agrees_finish h1 (by rw [hst, hs]) p1 p2'
    · exact h1
  · rename_i hd hpk
    refine agrees_follow h1 (fun k pu x hx => ?_) p1 p2' hl1
    rw [hst] at hx
    cases pu with
    | deposit => exact hd k x hx
    | pickup => exact hpk k x hx

theorem agrees_deposit {lc k m p : Nat} {r t : Replica} (h : Agrees r)
    (ht : depositProbe lc k m p r = some t) : Agrees t := by
  unfold depositProbe at ht
  split at ht
  · rename_i hs
    cases ht
    have hd := h.deposit p k m hs
    have hm : 1 ≤ m ∧ m ≤ r.probes.length := by
      by_contra hin
      rw [probeRec_outside hin] at hd; rcases hd with hd | hd <;> cases hd
    have hv := (agrees_but h p).vacate (x := m) rfl lc (keep := some p) (.inr rfl)
    have hcv : custodyIn (Machine.vacate r lc m (some p)) = custodyIn r := custody_of_probes (vacate_probes r lc m (some p))
    have hval : ∀ y, custodyIn (setCustody (Machine.vacate r lc m (some p)) lc m (.transfer p)) y = if y = m then .transfer p else custodyIn r y := by
      intro y
      rw [custody_set _ _ _ _ hm.1 (by rw [vacate_probes]; exact hm.2), hcv]
    have hb := hv.comeAt (cv := custodyIn (setCustody (Machine.vacate r lc m (some p)) lc m (.transfer p))) (x := m) (by simp [lose])
      (.inr (by rw [hval, if_pos rfl])) (fun y hy => by rw [hval, if_neg hy]; unfold lose; rw [if_neg hy])
    have he : portEntry (setCustody (Machine.vacate r lc m (some p)) lc m (.transfer p)) p = portEntry r p := vacate_kept r lc m p
    have ho := agrees_onlyAt h (.inr ⟨k, .deposit, hs⟩)
    refine AgreesBut.agrees (p := p) (r := setCustody (Machine.vacate r lc m (some p)) lc m (.transfer p)) (hb.samePorts rfl) ⟨fun y hy => ?_, fun j y hy => ?_, fun j y hy => ?_, fun y hy => ?_, fun y hy => ?_⟩ (fun _ => rfl)
    · rw [he, hs] at hy; cases hy
    · rw [he, hs] at hy; cases hy
    · rw [he, hs] at hy; cases hy; rw [hval, if_pos rfl]; exact .inr rfl
    · rw [hval] at hy
      split at hy
      · cases hy
      · rename_i hn; exact absurd (ho.1 y hy) hn
    · rw [hval] at hy
      rw [he, hs]
      split at hy
      · rename_i hn; rw [hn]; exact ⟨k, rfl⟩
      · rename_i hn; exact absurd (ho.2 y hy) hn
  · cases ht

/-- No probe at port 0, which no table has. -/
theorem agreesAt_zero {t : Replica} (h1 : ∀ y, custodyIn t y ≠ .port 0) (h2 : ∀ y, custodyIn t y ≠ .transfer 0) : AgreesAt 0 t (custodyIn t) :=
  agreesAt_free (.inl (by unfold portEntry; rw [at1_outside _ _ _ (by omega)])) h1 h2

theorem agrees_zero {r : Replica} (h : Agrees r) : (∀ y, custodyIn r y ≠ .port 0) ∧ ∀ y, custodyIn r y ≠ .transfer 0 :=
  agrees_nobody h (.inl (by unfold portEntry; rw [at1_outside _ _ _ (by omega)]))

theorem agrees_atStation {r : Replica} (h : Agrees r) (lc : Nat) {x : Nat} (k : Nat) (x1 : 1 ≤ x) (x2 : x ≤ 24) (hl : r.probes.length = 24) :
    Agrees (placeAtStation r lc x k none) := by
  obtain ⟨n1, n2⟩ := agrees_zero h
  have hval := custody_placeAtStation r lc x k none x1 x2 hl
  refine (agrees_placeAtStation (agrees_but h 0) lc (.inl rfl) x1 x2 hl).agrees (agreesAt_zero (fun y => ?_) (fun y => ?_)) (fun _ => rfl) <;>
    rw [hval] <;> split
  · exact nofun
  · split
    · exact nofun
    · exact n1 y
  · exact nofun
  · split
    · exact nofun
    · exact n2 y

theorem agrees_mount {c : CellPart} {lc k : Nat} {code : Option Code} {r : Replica} (h : Agrees r) (hl : r.probes.length = 24) :
    Agrees (mountProbe c lc k code r) := by
  unfold mountProbe
  split
  · rename_i x hx
    obtain ⟨x1, x2⟩ := probe_range hx
    exact agrees_atStation h lc k x1 x2 hl
  · obtain ⟨n1, n2⟩ := agrees_zero h
    have hval := custody_loseAll lc none (probesWith r (fun cu => cu == .station k)) r
    have hb := (agrees_but h 0).loseAll lc (keep := none) (.inl rfl) (probesWith r (fun cu => cu == .station k)) (fun _ _ => rfl)
    rw [← hval] at hb
    refine hb.agrees (agreesAt_zero (fun y => ?_) (fun y => ?_)) (fun _ => rfl) <;> rw [hval] <;> unfold loseThese <;> split
    · exact nofun
    · exact n1 y
    · exact nofun
    · exact n2 y

theorem agrees_lost {r : Replica} (h : Agrees r) (lc x : Nat) : Agrees (makeLost r lc none x) := by
  obtain ⟨n1, n2⟩ := agrees_zero h
  have hb := (agrees_but h 0).makeLost (x := x) rfl lc (keep := none) (.inl rfl)
  rw [← custody_makeLost r lc none x] at hb
  refine hb.agrees (agreesAt_zero (fun y => ?_) (fun y => ?_)) (fun _ => rfl) <;> rw [custody_makeLost] <;> unfold lose <;> split
  · exact nofun
  · exact n1 y
  · exact nofun
  · exact n2 y

theorem port_inside {r : Replica} {p : Nat} (h : (portEntry r p).state ≠ .empty) : 1 ≤ p ∧ p ≤ r.ports.length := by
  by_contra hin
  exact h (by unfold portEntry; rw [at1_outside _ _ _ hin])

theorem probe_inside {r : Replica} {x : Nat} (h : (probeRec r x).custody ≠ .lost) : 1 ≤ x ∧ x ≤ r.probes.length := by
  by_contra hin
  exact h (probeRec_outside hin)

/-- The probe at a port RESERVED for a pickup is taken from it, the port still RESERVED. -/
theorem agrees_taken {r t : Replica} (h : Agrees r) {p k x : Nat} (hs : (portEntry r p).state = .reserved k .pickup x)
    (hb : AgreesBut p t (custodyIn t)) (he : (portEntry t p).state = .reserved k .pickup x ∧ (portEntry t p).takeSeen = true)
    (hc : ∀ y, custodyIn t y = .port p ∨ custodyIn t y = .transfer p → y ≠ x ∧ custodyIn t y = custodyIn r y) : Agrees t := by
  have ho := agrees_onlyAt h (.inr ⟨k, .pickup, hs⟩)
  refine hb.agrees ⟨fun y hy => ?_, fun j y hy ht => ?_, fun j y hy => ?_, fun y hy => ?_, fun y hy => ?_⟩ fun _ => rfl
  · rw [he.1] at hy; cases hy
  · rw [he.2] at ht; cases ht
  · rw [he.1] at hy; cases hy
  · obtain ⟨a, b⟩ := hc y (.inl hy)
    exact absurd (ho.1 y (b.symm.trans hy)) a
  · obtain ⟨a, b⟩ := hc y (.inr hy)
    exact absurd (ho.2 y (b.symm.trans hy)) a

theorem agrees_take {c : CellPart} {lc k t p : Nat} {code : Option Code} {r u : Replica} (h : Agrees r) (hl : r.probes.length = 24)
    (hu : takeProbe c lc k t p code r = some u) : Agrees u := by
  unfold takeProbe at hu
  split at hu
  · rename_i hs
    simp only [Option.some.injEq] at hu
    subst hu
    obtain ⟨p1, p2⟩ := port_inside (r := r) (p := p) (by rw [hs]; exact nofun)
    generalize hr1 : ({ r with ports := set1 r.ports p { portEntry r p with takeSeen := true, stamp := lc } } : Replica) = r1
    have hp1 : r1.probes = r.probes := by rw [← hr1]
    have e1 : portEntry r1 p = { portEntry r p with takeSeen := true, stamp := lc } := by rw [← hr1]; exact at1_set1_same _ _ _ _ p1 p2
    have hl1 : r1.probes.length = 24 := by rw [hp1]; exact hl
    have p2' : p ≤ r1.ports.length := by rw [← hr1]; exact p2.trans (le_of_eq (set1_length _ _ _).symm)
    have hc1 : custodyIn r1 = custodyIn r := custody_of_probes hp1
    have hb1 : AgreesBut p r1 (custodyIn r1) := by rw [hc1, ← hr1]; exact (agrees_but h p).setPort _
    have hs1 : (portEntry r1 p).state = .reserved k .pickup t := by rw [e1]; exact hs
    have key : ∀ q : Replica, AgreesBut p q (custodyIn q) → portEntry q p = portEntry r1 p → q.ports.length = r1.ports.length →
        (∀ y, custodyIn q y = .port p ∨ custodyIn q y = .transfer p → y ≠ t ∧ custodyIn q y = custodyIn r1 y) → Agrees (finishPickup q lc p) := by
      intro q hb he hlen hc
      have hq : Agrees q := agrees_taken h hs hb (by rw [he, e1]; exact ⟨hs, rfl⟩) (by rw [← hc1]; exact hc)
      exact agrees_finish hq (by rw [he]; exact hs1) p1 (by rw [hlen]; exact p2')
    have hplace : ∀ x, 1 ≤ x → x ≤ 24 → ∀ y, custodyIn (placeAtStation r1 lc x k (some p)) y = .port p ∨
        custodyIn (placeAtStation r1 lc x k (some p)) y = .transfer p → y ≠ x ∧ custodyIn (placeAtStation r1 lc x k (some p)) y = custodyIn r1 y := by
      intro x x1 x2 y hy
      rw [custody_placeAtStation r1 lc x k (some p) x1 x2 hl1] at hy ⊢
      split at hy
      · rcases hy with hy | hy <;> cases hy
      · rename_i hn
        rw [if_neg hn]
        split at hy
        · rcases hy with hy | hy <;> cases hy
        · rename_i hn2; rw [if_neg hn2]; exact ⟨hn, rfl⟩
    split
    · rename_i x hx
      obtain ⟨x1, x2⟩ := probe_range hx
      have hb2 := agrees_placeAtStation hb1 lc (x := x) (k := k) (keep := some p) (.inr rfl) x1 x2 hl1
      have he2 := placeAtStation_pickup r1 lc x k p p1 p2' hl1 hs1
      have hlen := (placeAtStation_placed r1 lc x k (some p) x1 x2 hl1).portsLength
      split
      · rename_i hxt
        subst hxt
        exact key _ hb2 he2 hlen (hplace x x1 x2)
      · rename_i hxt
        have hc3 : custodyIn (makeLost (setSuspect (placeAtStation r1 lc x k (some p)) lc x) lc (some p) t) =
            lose t (custodyIn (placeAtStation r1 lc x k (some p))) := by rw [custody_makeLost, custody_suspect]
        have hb3 := (hb2.samePorts (t := setSuspect (placeAtStation r1 lc x k (some p)) lc x) rfl).makeLost (x := t) (by rw [custody_suspect]) lc (keep := some p) (.inr rfl)
        refine key _ (by rw [hc3]; exact hb3) ?_ ?_ ?_
        · rw [makeLost_pickup (setSuspect (placeAtStation r1 lc x k (some p)) lc x) lc t p (some p) (k := k) (t := t) p1 (hlen.symm ▸ p2')
            (by show (portEntry (placeAtStation r1 lc x k (some p)) p).state = _; rw [he2]; exact hs1) (fun _ => rfl)]
          exact he2
        · exact (makeLost_lengths _ _ _ _).2.trans hlen
        · intro y hy
          rw [hc3] at hy ⊢
          unfold lose at hy ⊢
          split at hy
          · rcases hy with hy | hy <;> cases hy
          · rename_i hn; rw [if_neg hn]; exact ⟨hn, (hplace x x1 x2 y hy).2⟩
    · have hc2 : custodyIn (makeLost r1 lc (some p) t) = lose t (custodyIn r1) := custody_makeLost _ _ _ _
      have hb2 : AgreesBut p (makeLost r1 lc (some p) t) (lose t (custodyIn r1)) := hb1.makeLost rfl lc (.inr rfl)
      have he2 := makeLost_pickup r1 lc t p (some p) p1 p2' hs1 (fun _ => rfl)
      have hlen := (makeLost_lengths r1 lc (some p) t)
      have hb3 := hb2.loseAll lc (keep := some p) (.inr rfl) (probesWith (makeLost r1 lc (some p) t) (fun cu => cu == .station k)) (fun _ _ => by rw [hc2])
      have hc3 : custodyIn (loseAll lc (some p) (probesWith (makeLost r1 lc (some p) t) (fun cu => cu == .station k)) (makeLost r1 lc (some p) t)) =
          loseThese (probesWith (makeLost r1 lc (some p) t) (fun cu => cu == .station k)) (lose t (custodyIn r1)) := by rw [custody_loseAll, hc2]
      refine key _ (by rw [hc3]; exact hb3) ?_ ?_ ?_
      · rw [loseAll_pickup lc p (some p) (k := k) (t := t) p1 _ _ (by rw [hlen.2]; exact p2') (by rw [he2]; exact hs1) ?_ (fun _ _ _ => rfl), he2]
        intro y hy
        obtain ⟨a, b, _⟩ := (probesWith_mem _ _ _).mp hy
        exact ⟨a, by rw [hlen.1, hl1]; exact b⟩
      · exact (loseAll_lengths _ _ _ _).2.trans hlen.2
      · intro y hy
        rw [hc3] at hy ⊢
        unfold loseThese lose at hy ⊢
        split at hy
        · rcases hy with hy | hy <;> cases hy
        · rename_i hm; rw [if_neg hm]
          split at hy
          · rcases hy with hy | hy <;> cases hy
          · rename_i hn; rw [if_neg hn]; exact ⟨hn, rfl⟩
  · cases hu

/-- The one probe at a port is made LOST there, not vacated, and the port is freed. -/
theorem agrees_lostThere {r : Replica} (h : Agrees r) (lc : Nat) {p k x : Nat} {pu : Purpose} (e : PortEntry)
    (hs : (portEntry r p).state = .reserved k pu x) (he : e.state = .empty ∨ e.state = .unknown)
    (hx : (probeRec r x).custody = .port p ∨ (probeRec r x).custody = .transfer p) :
    Agrees { setCustody r lc x .lost with ports := set1 (setCustody r lc x .lost).ports p e } := by
  obtain ⟨p1, p2⟩ := port_inside (r := r) (p := p) (by rw [hs]; exact nofun)
  obtain ⟨x1, x2⟩ := probe_inside (r := r) (x := x) (by rcases hx with hx | hx <;> rw [hx] <;> exact nofun)
  have hc : custodyIn (setCustody r lc x .lost) = lose x (custodyIn r) := by
    funext y; rw [custody_set r lc x .lost x1 x2]; rfl
  refine agrees_loseAt h e p1 p2 he (.inr ⟨k, pu, hs⟩) ?_ hc rfl
  refine ((agrees_but h p).loseAt fun y => ?_).samePorts rfl
  rw [hc]; unfold lose
  split
  · rename_i hy; subst hy; exact .inr ⟨rfl, hx⟩
  · exact .inl rfl

/-- A port RESERVED for a pickup that nobody has left is OCCUPIED again. -/
theorem agrees_backAt {r : Replica} (h : Agrees r) {p k x : Nat} (e : PortEntry) (hs : (portEntry r p).state = .reserved k .pickup x)
    (ht : (portEntry r p).takeSeen = false) (he : e.state = .occupied x) : Agrees { r with ports := set1 r.ports p e } := by
  obtain ⟨p1, p2⟩ := port_inside (r := r) (p := p) (by rw [hs]; exact nofun)
  have ho := agrees_onlyAt h (.inr ⟨k, .pickup, hs⟩)
  have hx := h.pickup p k x hs ht
  refine (agrees_but h p).close e p1 p2 fun u hu => agreesAt_occupied (x := x) (by rw [hu]; exact he) hx (fun y hy hc => hy (ho.1 y hc)) (fun y hc => ?_)
  have := ho.2 y hc; subst this
  exact absurd (hx.symm.trans hc) nofun

theorem agrees_abandon {lc k p : Nat} {inside : Bool} {r t : Replica} (h : Agrees r) (ht : abandonPort lc k p inside r = some t) : Agrees t := by
  unfold abandonPort at ht
  simp only at ht
  split at ht
  · rename_i j purpose x hs
    obtain ⟨p1, p2⟩ := port_inside (r := r) (p := p) (by rw [hs]; exact nofun)
    have ho := agrees_onlyAt h (.inr ⟨j, purpose, hs⟩)
    split at ht
    · cases purpose with
      | deposit =>
        simp only at ht
        have free : ∀ e : PortEntry, (e.state = .empty ∨ e.state = .unknown) → (probeRec r x).custody ≠ .transfer p →
            Agrees { r with ports := set1 r.ports p e } := by
          intro e he hn
          refine agrees_freePort h e p1 p2 he (fun y hy => ?_) (fun y hy => ?_)
          · have := ho.1 y hy; subst this
            rcases h.deposit p j y hs with a | a <;> exact absurd (a.symm.trans hy) nofun
          · have := ho.2 y hy; subst this; exact hn hy
        split at ht
        · cases ht
          split
          · rename_i hm
            exact agrees_lostThere h lc _ hs (.inr rfl) (.inr hm)
          · rename_i hm
            exact free _ (.inr rfl) hm
        · rename_i hm
          cases ht
          refine free _ (.inl rfl) fun e => hm ?_
          rw [e]; simp
      | pickup =>
        simp only at ht
        have free : ∀ e : PortEntry, (e.state = .empty ∨ e.state = .unknown) → ¬ ((portEntry r p).takeSeen = false ∧ (probeRec r x).custody = .port p) →
            Agrees { r with ports := set1 r.ports p e } := by
          intro e he hn
          refine agrees_freePort h e p1 p2 he (fun y hy => ?_) (fun y hy => ?_)
          · have := ho.1 y hy; subst this
            rcases h.atPort p y hy with a | ⟨_, a⟩
            · rw [hs] at a; cases a
            · exact hn ⟨a, hy⟩
          · obtain ⟨i, a⟩ := h.inTransfer p y hy; rw [hs] at a; cases a
        split at ht
        · cases ht
          split
          · rename_i hm
            have hm : (portEntry r p).takeSeen = false ∧ (probeRec r x).custody = .port p := by simpa using hm
            exact agrees_lostThere h lc _ hs (.inr rfl) (.inl hm.2)
          · rename_i hm
            exact free _ (.inr rfl) (by simpa using hm)
        · split at ht
          · rename_i hm
            cases ht
            refine free _ ?_ fun e => ?_
            · show (if _ then PortState.empty else .unknown) = .empty ∨ _ = _
              split
              · exact .inl rfl
              · exact .inr rfl
            · rw [e.1] at hm; cases hm
          · rename_i hm
            cases ht
            exact agrees_backAt h _ hs (by simpa using hm) rfl
    · cases ht
  · cases ht

theorem agrees_drop {r : Replica} (h : Agrees r) (lc k p : Nat) : Agrees (dropReservation lc k p r) := by
  unfold dropReservation
  simp only
  split
  · rename_i j purpose x hs
    obtain ⟨p1, p2⟩ := port_inside (r := r) (p := p) (by rw [hs]; exact nofun)
    have ho := agrees_onlyAt h (.inr ⟨j, purpose, hs⟩)
    split
    · cases purpose with
      | deposit =>
        simp only
        split
        · rename_i hm
          exact agrees_lostThere h lc _ hs (.inr rfl) (.inr hm)
        · rename_i hm
          refine agrees_freePort h _ p1 p2 (.inl rfl) (fun y hy => ?_) (fun y hy => ?_)
          · have := ho.1 y hy; subst this
            rcases h.deposit p j y hs with a | a <;> exact absurd (a.symm.trans hy) nofun
          · have := ho.2 y hy; subst this; exact hm hy
      | pickup =>
        simp only
        split
        · split
          · rename_i hm
            exact agrees_lostThere h lc _ hs (.inr rfl) (.inl hm)
          · rename_i hm
            refine agrees_freePort h _ p1 p2 (.inr rfl) (fun y hy => ?_) (fun y hy => ?_)
            · have := ho.1 y hy; subst this; exact hm hy
            · obtain ⟨i, a⟩ := h.inTransfer p y hy; rw [hs] at a; cases a
        · rename_i hm
          have ht : (portEntry r p).takeSeen = false := by
            simp only [Bool.or_eq_true, not_or, Bool.not_eq_true] at hm; exact hm.1
          exact agrees_backAt h _ hs ht rfl
    · exact h
  · exact h

theorem custody_foldLost (lc : Nat) (xs : List Nat) : ∀ r : Replica, (∀ x ∈ xs, 1 ≤ x ∧ x ≤ r.probes.length) →
    custodyIn (xs.foldl (fun r x => setCustody r lc x .lost) r) = loseThese xs (custodyIn r) ∧
      (xs.foldl (fun r x => setCustody r lc x .lost) r).ports = r.ports := by
  induction xs with
  | nil => intro r _; exact ⟨by funext y; simp [loseThese], rfl⟩
  | cons a xs ih =>
    intro r hr
    obtain ⟨h1, h2⟩ := ih (setCustody r lc a .lost) fun x hx => by
      rw [(setCustody_lengths _ _ _ _).1]; exact hr x (List.mem_cons_of_mem _ hx)
    refine ⟨?_, h2⟩
    funext y
    rw [List.foldl_cons, h1]
    unfold loseThese
    rw [custody_set r lc a .lost (hr a List.mem_cons_self).1 (hr a List.mem_cons_self).2]
    by_cases hy : y ∈ xs
    · rw [if_pos hy, if_pos (List.mem_cons_of_mem _ hy)]
    · rw [if_neg hy]
      by_cases ha : y = a
      · rw [if_pos ha, if_pos (by rw [ha]; exact List.mem_cons_self)]
      · rw [if_neg ha, if_neg (by simp [ha, hy])]

theorem agrees_rack {r : Replica} (h : Agrees r) (hl : r.probes.length = 24) (lc : Nat) : Agrees (rackLost lc r) := by
  unfold rackLost
  simp only
  generalize hxs : probesWith r (fun cu => match cu with
    | .port p => isReserved (portEntry r p).state
    | .transfer _ => true
    | _ => false) = xs
  have hm : ∀ x, x ∈ xs ↔ 1 ≤ x ∧ x ≤ 24 ∧ ((∃ p, (probeRec r x).custody = .port p ∧ isReserved (portEntry r p).state = true) ∨
      ∃ p, (probeRec r x).custody = .transfer p) := by
    intro x
    rw [← hxs, probesWith_mem]
    refine and_congr_right fun _ => and_congr_right fun _ => ?_
    cases (probeRec r x).custody <;> simp
  obtain ⟨h1, h2⟩ := custody_foldLost lc xs r fun x hx => ⟨((hm x).mp hx).1, by rw [hl]; exact ((hm x).mp hx).2.1⟩
  generalize xs.foldl (fun r x => setCustody r lc x .lost) r = r1 at h1 h2
  rw [h2]
  generalize hg : (fun e : PortEntry => if (if isReserved e.state = true then PortState.unknown else e.state) = e.state ∧ e.presence = .unreported then e
    else { e with state := if isReserved e.state = true then .unknown else e.state, presence := .unreported, stamp := lc }) = g
  have hgs : ∀ e, (g e).state = (if isReserved e.state = true then .unknown else e.state) ∧ (g e).takeSeen = e.takeSeen := by
    intro e
    rw [← hg]
    by_cases hh : (if isReserved e.state = true then PortState.unknown else e.state) = e.state ∧ e.presence = .unreported
    · dsimp only; rw [if_pos hh]; exact ⟨hh.1.symm, rfl⟩
    · dsimp only; rw [if_neg hh]; exact ⟨rfl, rfl⟩
  have hst : ∀ q, (portEntry { r1 with ports := r.ports.map g } q).state =
      (if isReserved (portEntry r q).state = true then .unknown else (portEntry r q).state) := by
    intro q
    by_cases hin : 1 ≤ q ∧ q ≤ r.ports.length
    · unfold portEntry
      rw [at1_map _ _ _ _ hin.1 hin.2]
      exact (hgs _).1
    · unfold portEntry
      rw [at1_outside _ _ _ hin, at1_outside _ _ _ (by rw [List.length_map]; exact hin)]
      rfl
  have hnot : ∀ q k pu x, (portEntry { r1 with ports := r.ports.map g } q).state ≠ .reserved k pu x := by
    intro q k pu x hx
    rw [hst] at hx
    split at hx
    · cases hx
    · rename_i hn; rw [hx] at hn; exact hn rfl
  have hcu : ∀ x, (probeRec { r1 with ports := r.ports.map g } x).custody = loseThese xs (custodyIn r) x := fun x => congrFun h1 x
  have hin : ∀ x c, c ≠ .lost → loseThese xs (custodyIn r) x = c → x ∉ xs ∧ (probeRec r x).custody = c := by
    intro x c hc hx
    unfold loseThese at hx
    split at hx
    · exact absurd hx.symm hc
    · rename_i hn; exact ⟨hn, hx⟩
  refine ⟨fun q x hs => ?_, fun q k x hs => absurd hs (hnot _ _ _ _), fun q k x hs => absurd hs (hnot _ _ _ _), fun q x hx => ?_, fun q x hx => ?_,
    fun k x y hx hy => ?_⟩
  · rw [hst] at hs
    split at hs
    · cases hs
    · have := h.occupied q x hs
      rw [hcu]
      unfold loseThese
      rw [if_neg]
      · exact this
      · intro hx
        rcases ((hm x).mp hx).2.2 with ⟨p, a, b⟩ | ⟨p, a⟩
        · rw [this] at a; cases a; rw [hs] at b; cases b
        · rw [this] at a; cases a
  · rw [hcu] at hx
    obtain ⟨hn, hx⟩ := hin x (.port q) nofun hx
    rcases h.atPort q x hx with a | ⟨⟨k, a⟩, _⟩
    · left; rw [hst, a]; rfl
    · exfalso
      obtain ⟨x1, x2⟩ := probe_inside (r := r) (x := x) (by rw [hx]; exact nofun)
      exact hn ((hm x).mpr ⟨x1, hl ▸ x2, .inl ⟨q, hx, by rw [a]; rfl⟩⟩)
  · rw [hcu] at hx
    obtain ⟨hn, hx⟩ := hin x (.transfer q) nofun hx
    obtain ⟨x1, x2⟩ := probe_inside (r := r) (x := x) (by rw [hx]; exact nofun)
    exact absurd ((hm x).mpr ⟨x1, hl ▸ x2, .inr ⟨q, hx⟩⟩) hn
  · rw [hcu] at hx hy
    exact h.oneStation k x y (hin x (.station k) nofun hx).2 (hin y (.station k) nofun hy).2

theorem agrees_leave {c : CellPart} {r : Replica} (h : Agrees r) (hl : r.probes.length = 24) (lc k : Nat) : Agrees (leavePorts c lc k r) := by
  unfold leavePorts
  split
  · exact agrees_rack h hl lc
  · generalize (List.range 12).map (· + 1) = l
    induction l generalizing r with
    | nil => exact h
    | cons a l ih =>
      refine ih (agrees_drop h lc k a) ?_
      unfold dropReservation
      simp only
      have hs : ∀ x, (setCustody r lc x .lost).probes.length = 24 := fun x => (setCustody_lengths _ _ _ _).1.trans hl
      split <;> (try split) <;> (try split) <;> (try split) <;> first | exact hl | exact hs _ | (split <;> first | exact hl | exact hs _)

theorem agrees_by {c : CellPart} {lc x : Nat} {cu : Custody} {r t : Replica} (h : Agrees r) (hc : c.ports.length ≤ 12) (hx : c.probes.length ≤ 24)
    (hp : r.ports.length = 12) (hl : r.probes.length = 24) (ht : custodyBy c lc x cu r = some t) : Agrees t := by
  unfold custodyBy at ht
  split at ht
  · cases ht
  · rename_i hu
    have hu : inUse c x = true := by simpa using hu
    have hxr : 1 ≤ x ∧ x ≤ c.probes.length := by
      by_contra hin
      unfold inUse probeCfg at hu
      rw [at1_outside _ _ _ hin] at hu; cases hu
    have x2 : x ≤ 24 := hxr.2.trans hx
    cases cu with
    | port p =>
      simp only at ht
      split at ht
      · rename_i hcf
        cases ht
        simp only [configured, Bool.and_eq_true, decide_eq_true_eq] at hcf
        exact agrees_restamp (agrees_occupyPort h lc _ hcf.1 (by omega) hxr.1 x2 hl rfl rfl rfl) lc p _
      · cases ht
    | station k =>
      simp only at ht
      split at ht
      · cases ht
        exact agrees_atStation h lc k hxr.1 x2 hl
      · cases ht
    | lost => cases ht; exact agrees_lost h lc x
    | transfer p => cases ht

/-! ### The agreement through the application of a frame -/

theorem agrees_eq {r t : Replica} (h : Agrees r) (h1 : t.ports = r.ports) (h2 : t.probes = r.probes) : Agrees t :=
  agrees_same h (custody_of_probes h2) fun q => by unfold portEntry; rw [h1]; exact ⟨rfl, rfl⟩

/-- A probe's record replaced by one of the same custody. -/
theorem agrees_probe {r : Replica} (h : Agrees r) (x : Nat) (e : ProbeRec) (he : e.custody = (probeRec r x).custody) :
    Agrees { r with probes := set1 r.probes x e } := by
  refine agrees_same h ?_ fun q => ⟨rfl, rfl⟩
  funext y
  unfold custodyIn probeRec
  dsimp only
  rw [at1_set1]
  split
  · rename_i hy; rw [hy.1, he]; rfl
  · rfl

theorem agrees_stamp {r : Replica} (h : Agrees r) (lc x : Nat) {e : ProbeRec} (he : e.custody = (probeRec r x).custody) :
    Agrees (stampProbe r lc x e) := by
  unfold stampProbe
  simp only
  split
  · exact h
  · exact agrees_probe h x _ he

theorem setRoster_ports (r : Replica) (lc k : Nat) (e : RosterEntry) : (setRoster r lc k e).ports = r.ports ∧ (setRoster r lc k e).probes = r.probes := by
  unfold setRoster; simp only; split <;> exact ⟨rfl, rfl⟩

theorem emptyLatch_ports (r : Replica) (lc k : Nat) : (emptyLatch lc k r).ports = r.ports ∧ (emptyLatch lc k r).probes = r.probes := by
  unfold emptyLatch; split <;> exact ⟨rfl, rfl⟩

theorem agrees_withScan {r : Replica} (h : Agrees r) (c : CellPart) (lc : Nat) (fx : Fx) : Agrees (withScan c lc fx r).1 :=
  agrees_eq h (show (scan c lc r).1.ports = r.ports from rfl) (show (scan c lc r).1.probes = r.probes from rfl)

theorem agrees_leaveTables {c : CellPart} {r : Replica} (h : Agrees r) (hl : r.probes.length = 24) (lc k : Nat) : Agrees (leaveTables c lc k r) := by
  unfold leaveTables
  simp only
  have hb := emptyLatch_ports { r with board := excludeEntries lc k r.board } lc k
  exact agrees_eq (agrees_leave (agrees_eq h hb.1 hb.2) (by rw [hb.2]; exact hl) lc k) rfl rfl

theorem agrees_joinFormed {c : CellPart} {r : Replica} (h : Agrees r) (hl : r.probes.length = 24) (lc : Nat) (hd : Hdr) (cause : ResetCause) (jn : Nat) :
    Agrees (joinFormed c lc hd cause jn r).1 := by
  unfold joinFormed
  simp only
  have key : ∀ r1, Agrees r1 → ∀ (e : RosterEntry) (o : Option Nat) (f : Replica → Nat → RosterEntry),
      Agrees (match o with
        | none => endServices lc (fun _ v => v.1 == hd.sender) { r1 with roster := set1 r1.roster hd.sender e }
        | some j => setRoster (endServices lc (fun _ v => v.1 == hd.sender) { r1 with roster := set1 r1.roster hd.sender e }) lc j
            (f (endServices lc (fun _ v => v.1 == hd.sender) { r1 with roster := set1 r1.roster hd.sender e }) j)) := by
    intro r1 h1 e o f
    cases o with
    | none => exact agrees_eq h1 rfl rfl
    | some j => exact agrees_eq h1 (setRoster_ports _ _ _ _).1 (setRoster_ports _ _ _ _).2
  split
  · exact agrees_withScan (key _ (agrees_leaveTables (r := restoreZones lc hd.sender r) (agrees_eq h rfl rfl) hl lc hd.sender) _ _
      (fun r j => { rosterEntry r j with serving := some (hd.sender, jn) })) _ _ _
  · exact key _ h _ _ (fun r j => { rosterEntry r j with serving := some (hd.sender, jn) })

theorem agrees_joinRefused {c : CellPart} {r : Replica} (h : Agrees r) (hl : r.probes.length = 24) (lc : Nat) (hd : Hdr) (cause : ResetCause) :
    Agrees (joinRefused c lc hd cause r).1 := by
  unfold joinRefused
  simp only
  split
  · refine agrees_withScan ?_ _ _ _
    exact agrees_eq (agrees_leaveTables (r := orphanZones c lc hd.sender r) (c := c) (agrees_eq h rfl rfl) hl lc hd.sender) rfl rfl
  · exact agrees_eq h rfl rfl

theorem agrees_silence {c : CellPart} {r : Replica} (h : Agrees r) (hl : r.probes.length = 24) (lc k : Nat) (heard : Bool) :
    Agrees (silenceStation c lc k heard r).1 := by
  unfold silenceStation
  split
  · simp only
    have hs := setRoster_ports r lc k { rosterEntry r k with state := .silent }
    refine agrees_withScan (agrees_leaveTables (r := orphanZones c lc k (setRoster r lc k { rosterEntry r k with state := .silent })) (c := c) ?_ ?_ lc k) _ _ _
    · exact agrees_eq h hs.1 hs.2
    · exact (congrArg List.length hs.2).trans hl
  · exact h

theorem agrees_orVoid {r : Replica} (h : Agrees r) {o : Option Replica} (ho : ∀ t, o = some t → Agrees t) : Agrees (orVoid r o).1 := by
  unfold orVoid
  split
  · exact h
  · exact ho _ rfl

theorem agrees_if {o : Option Replica} {b : Bool} (ho : ∀ t, o = some t → Agrees t) : ∀ t, (if b = true then o else none) = some t → Agrees t := by
  intro t ht
  split at ht
  · exact ho t ht
  · cases ht

theorem checkStale_custody (c : CellPart) (b : Option BoardEntry) (e : ProbeRec) : (checkStale c b e).custody = e.custody := by
  unfold checkStale
  split
  · split
    · split
      · rfl
      · split <;> rfl
    · rfl
  · rfl

theorem countTouch_custody (c : CellPart) (e : ProbeRec) : (countTouch c e).custody = e.custody := by
  unfold countTouch
  split
  · rfl
  · simp only
    split <;> rfl

theorem agrees_kind {c : CellPart} {r : Replica} (h : Agrees r) (hc : c.ports.length ≤ 12) (hx : c.probes.length ≤ 24) (hp : r.ports.length = 12)
    (hl : r.probes.length = 24) (lc k : Nat) (heard : Bool) (dest : Nat) (b : Body) : Agrees (applyKind c lc k heard dest b r).1 := by
  unfold applyKind
  split
  · exact agrees_silence h hl _ _ _
  · exact agrees_eq h rfl rfl
  · split
    · exact h
    · rename_i hrc
      refine agrees_withScan ?_ _ _ _
      unfold recordClaim at hrc
      split at hrc
      · cases hrc
      · simp only at hrc
        split at hrc <;> cases hrc <;> exact agrees_eq h rfl rfl
  · split
    · refine agrees_withScan ?_ _ _ _
      exact agrees_eq h rfl rfl
    · exact h
  · split
    · exact h
    · refine agrees_withScan ?_ _ _ _
      exact agrees_eq h rfl rfl
  · exact agrees_orVoid h fun t ht => agrees_reserve h hc hp ht
  · split
    · rename_i hcf
      simp only [configured, Bool.and_eq_true, decide_eq_true_eq] at hcf
      exact agrees_report h hcf.1 (by omega) hl
    · exact h
  · exact agrees_orVoid h (agrees_if fun t ht => agrees_abandon h ht)
  · exact agrees_orVoid h (agrees_if fun t ht => agrees_deposit h ht)
  · exact agrees_orVoid h (agrees_if fun t ht => agrees_take h hl ht)
  · exact agrees_mount h hl
  · exact agrees_orVoid h fun t ht => agrees_by h hc hx hp hl ht
  · refine agrees_orVoid h fun t ht => ?_
    unfold stagePart at ht
    split at ht
    · cases ht
    · simp only at ht
      split at ht
      · cases ht; exact agrees_eq h rfl rfl
      · split at ht <;> cases ht <;> exact agrees_eq h rfl rfl
  · split
    · exact agrees_eq h (emptyLatch_ports _ _ _).1 (emptyLatch_ports _ _ _).2
    · rename_i ts hts
      have hq : ∀ x temp, Agrees (commitProbe lc x ts temp r) := fun x temp => agrees_probe h x _ rfl
      exact agrees_eq (hq _ _) (emptyLatch_ports _ _ _).1 (emptyLatch_ports _ _ _).2
  · refine agrees_orVoid h fun t ht => ?_
    unfold markProbe at ht
    split at ht
    · cases ht
      exact agrees_stamp h _ _ rfl
    · cases ht
  · rename_i es
    have h1 : Agrees { r with board := placeThermal lc k es r.board } := agrees_eq h rfl rfl
    unfold staleCheck
    split
    · exact h1
    · exact agrees_stamp h1 _ _ (checkStale_custody _ _ _)
  · refine agrees_orVoid h fun t ht => ?_
    unfold touchProbe at ht
    split at ht
    · cases ht
      exact agrees_stamp h _ _ (countTouch_custody _ _)
    · cases ht
  · exact h

/-- The application of a frame keeps the agreement of custody and port table (R107). -/
theorem agrees_applyFormed {c : CellPart} {r : Replica} (h : Agrees r) (hc : c.ports.length ≤ 12) (hx : c.probes.length ≤ 24) (hp : r.ports.length = 12)
    (hl : r.probes.length = 24) (lc : Nat) (heard : Bool) (f : Frame) : Agrees (applyFormed c lc heard f r).1 := by
  have hrs : (rosterStep lc f.h r).ports = r.ports ∧ (rosterStep lc f.h r).probes = r.probes := by
    have hi : ∀ (p : Prop) [Decidable p] (e : RosterEntry), (if p then setRoster r lc f.h.sender e else r).ports = r.ports ∧
        (if p then setRoster r lc f.h.sender e else r).probes = r.probes := by
      intro p _ e
      split
      · exact setRoster_ports _ _ _ _
      · exact ⟨rfl, rfl⟩
    exact hi _ _
  have key : ∀ b : Body, Agrees (Prod.fst (α := Replica) (β := Fx) <| match b with
      | .join fp cause jn => if fp = r.cell.fingerprint then joinFormed c lc f.h cause jn r else joinRefused c lc f.h cause r
      | b =>
        if !passesRoster b then (r, Fx.void)
        else if roleIn c f.h.sender = .mc410 then
          let r1 := rosterStep lc f.h r
          if (rosterEntry r1 f.h.sender).state = .active then applyKind c lc f.h.sender heard f.h.dest b r1 else (r1, Fx.void)
        else applyKind c lc f.h.sender heard f.h.dest b r) := by
    intro b
    split
    · split
      · exact agrees_joinFormed h hl _ _ _ _
      · exact agrees_joinRefused h hl _ _ _
    · split
      · exact h
      · split
        · simp only
          split
          · exact agrees_kind (agrees_eq h hrs.1 hrs.2) hc hx (by rw [hrs.1]; exact hp) (by rw [hrs.2]; exact hl) _ _ _ _ _
          · exact agrees_eq h hrs.1 hrs.2
        · exact agrees_kind h hc hx hp hl _ _ _ _ _
  exact agrees_eq (key f.body) rfl rfl

end Sys2Proof.Laws
end

