-- ==== Sys2Proof/Laws/Channels.lean ====
section
/-! SUPPORT. The channels across the operations of the Motion Unit: a channel with nothing queued stays as it is, and the next acceptance
number changes only where a segment is accepted (R74, R75, R82). -/

namespace Sys2Proof.Laws

open Sys2Proof.Machine

/-- What the working units leave of the channels: the next acceptance number, and every channel with nothing queued. -/
structure Stays (s t : Station) : Prop where
  acc : t.motion.nextAcc = s.motion.nextAcc
  empty : ∀ c, (chan s c).queue = [] → chan t c = chan s c

theorem Stays.refl (s : Station) : Stays s s := ⟨rfl, fun _ _ => rfl⟩
theorem Stays.trans {s t u : Station} (h : Stays s t) (k : Stays t u) : Stays s u :=
  ⟨k.acc.trans h.acc, fun c hc => (k.empty c (by rw [h.empty c hc]; exact hc)).trans (h.empty c hc)⟩

/-- Operations that leave both channels and the next acceptance number. -/
structure NoChan (s t : Station) : Prop where
  acc : t.motion.nextAcc = s.motion.nextAcc
  arm : t.motion.arm = s.motion.arm
  head : t.motion.head = s.motion.head
theorem NoChan.refl (s : Station) : NoChan s s := ⟨rfl, rfl, rfl⟩
theorem NoChan.trans {s t u : Station} (h : NoChan s t) (k : NoChan t u) : NoChan s u := ⟨k.acc.trans h.acc, k.arm.trans h.arm, k.head.trans h.head⟩
theorem NoChan.chan {s t : Station} (h : NoChan s t) (c : ChanId) : Machine.chan t c = Machine.chan s c := by cases c; exact h.arm; exact h.head
theorem NoChan.stays {s t : Station} (h : NoChan s t) : Stays s t := ⟨h.acc, fun c _ => h.chan c⟩
theorem noChan_of {s t : Station} (h : t.motion = s.motion) : NoChan s t := ⟨by rw [h], by rw [h], by rw [h]⟩

theorem offerControl_motion (s : Station) (src : CtlSource) (d : Nat) (b : Body) : (offerControl s src d b).motion = s.motion := by
  unfold offerControl; split <;> rfl
theorem offerEventsFrom_motion (n : Nat) (s : Station) : (offerEventsFrom n s).motion = s.motion := by
  induction n generalizing s with
  | zero => rfl
  | succ n ih =>
    unfold offerEventsFrom
    split
    · rfl
    · simp only; split
      · rw [ih]
      · rfl
theorem giveEvent_motion (s : Station) (e : Event) : (giveEvent s e).motion = s.motion := offerEventsFrom_motion _ _
theorem tidyRelease_motion (s : Station) : (tidyRelease s).motion = s.motion := by
  unfold tidyRelease
  split
  · simp only; split <;> rfl
  · rfl
theorem noChan_out (s : Station) (o : Outstanding) : NoChan s (setOutstanding s o) := ⟨rfl, rfl, rfl⟩
theorem withdrawOffer_noChan (s : Station) : NoChan s (withdrawOffer s) := ⟨rfl, rfl, rfl⟩
theorem tidyMoment_noChan (s : Station) (left : Option ZoneMask) : NoChan s (tidyMoment s left) := by
  unfold tidyMoment
  split
  · exact noChan_of (tidyRelease_motion s)
  · split
    · exact noChan_of (tidyRelease_motion s)
    · exact (withdrawOffer_noChan s).trans (noChan_of (tidyRelease_motion _))
    · exact ⟨rfl, rfl, rfl⟩
theorem returnCredit_motion (s : Station) (g : Option Segment) : (returnCredit s g).motion = s.motion := by
  unfold returnCredit
  split
  · rfl
  · split <;> rfl
theorem setChan_same (s : Station) (c : ChanId) (v : Chan) : chan (setChan s c v) c = v := by cases c <;> rfl
theorem setChan_other (s : Station) (c d : ChanId) (v : Chan) (h : d ≠ c) : chan (setChan s c v) d = chan s d := by
  cases c <;> cases d <;> first | exact absurd rfl h | rfl
theorem setChan_acc (s : Station) (c : ChanId) (v : Chan) : (setChan s c v).motion.nextAcc = s.motion.nextAcc := by cases c <;> rfl
theorem setChan_stays (s : Station) (c : ChanId) (v : Chan) (h : (chan s c).queue ≠ []) : Stays s (setChan s c v) := by
  refine ⟨setChan_acc _ _ _, fun d hd => ?_⟩
  by_cases hdc : d = c
  · subst hdc; exact absurd hd h
  · exact setChan_other _ _ _ _ hdc

theorem headSeg_ne {s : Station} {c : ChanId} {g : Segment} (h : headSeg s c = some g) : (chan s c).queue ≠ [] := by
  intro hq; unfold headSeg at h; rw [hq] at h; cases h

theorem emptyChan_chan (s : Station) (c : ChanId) (st : ChanState) : chan (emptyChan s c st) c = { chan s c with state := st, queue := [] } := by
  unfold emptyChan
  rw [(noChan_of (returnCredit_motion _ _)).chan, setChan_same]
theorem emptyChan_other (s : Station) (c d : ChanId) (st : ChanState) (h : d ≠ c) : chan (emptyChan s c st) d = chan s d := by
  unfold emptyChan
  rw [(noChan_of (returnCredit_motion _ _)).chan, setChan_other _ _ _ _ h]
theorem emptyChan_acc (s : Station) (c : ChanId) (st : ChanState) : (emptyChan s c st).motion.nextAcc = s.motion.nextAcc := by
  unfold emptyChan
  rw [returnCredit_motion, setChan_acc]
theorem haltNow_chan (s : Station) (c : ChanId) (cause : HaltCause) : chan (haltNow s c cause) c = { chan s c with state := .halted, queue := [] } := by
  unfold haltNow
  simp only
  rw [(noChan_of (giveEvent_motion _ _)).chan, (tidyMoment_noChan _ _).chan, emptyChan_chan]
theorem haltNow_other (s : Station) (c d : ChanId) (cause : HaltCause) (h : d ≠ c) : chan (haltNow s c cause) d = chan s d := by
  unfold haltNow
  simp only
  rw [(noChan_of (giveEvent_motion _ _)).chan, (tidyMoment_noChan _ _).chan, emptyChan_other _ _ _ _ h]
theorem haltNow_acc (s : Station) (c : ChanId) (cause : HaltCause) : (haltNow s c cause).motion.nextAcc = s.motion.nextAcc := by
  unfold haltNow
  simp only
  rw [giveEvent_motion, (tidyMoment_noChan _ _).acc, emptyChan_acc]
theorem haltNow_stays (s : Station) (c : ChanId) (cause : HaltCause) (h : (chan s c).queue ≠ []) : Stays s (haltNow s c cause) := by
  refine ⟨haltNow_acc _ _ _, fun d hd => ?_⟩
  by_cases hdc : d = c
  · subst hdc; exact absurd hd h
  · exact haltNow_other _ _ _ _ hdc
theorem haltQuiet_stays (s : Station) (c : ChanId) (h : (chan s c).queue ≠ []) : Stays s (haltQuiet s c) := by
  unfold haltQuiet
  simp only
  refine ⟨by rw [(tidyMoment_noChan _ _).acc, emptyChan_acc], fun d hd => ?_⟩
  rw [(tidyMoment_noChan _ _).chan]
  by_cases hdc : d = c
  · subst hdc; exact absurd hd h
  · exact emptyChan_other _ _ _ _ hdc
theorem stopSequencer_stays (s : Station) (c : ChanId) : Stays s (stopSequencer s c) := by
  unfold stopSequencer
  split
  · exact Stays.refl s
  · rename_i g hg
    split
    · split
      · split
        · exact Stays.refl s
        · exact setChan_stays _ _ _ (headSeg_ne hg)
      · exact Stays.refl s
      · exact haltQuiet_stays _ _ (headSeg_ne hg)
    · exact Stays.refl s
theorem offerControl_noChan (s : Station) (src : CtlSource) (d : Nat) (b : Body) : NoChan s (offerControl s src d b) := noChan_of (offerControl_motion _ _ _ _)
theorem withdrawWaiting_noChan (s : Station) (p : Waiting → Bool) : NoChan s (withdrawWaiting s p) := ⟨rfl, rfl, rfl⟩
theorem idleChanger_noChan (s : Station) : NoChan s (idleChanger s) := ⟨rfl, rfl, rfl⟩
theorem meetFailure_noChan (s : Station) (cause : ChangeCause) : NoChan s (meetFailure s cause) := ⟨rfl, rfl, rfl⟩
theorem abandonByState_noChan (s : Station) : NoChan s (abandonByState s) := by
  unfold abandonByState
  simp only
  split
  · exact ⟨rfl, rfl, rfl⟩
  · split
    · exact (withdrawWaiting_noChan s _).trans (offerControl_noChan _ _ _ _)
    · exact ⟨rfl, rfl, rfl⟩
theorem foldl_noChan {α : Type} (f : Station → α → Station) (hf : ∀ s a, NoChan s (f s a)) (l : List α) (s : Station) : NoChan s (l.foldl f s) := by
  induction l generalizing s with
  | nil => exact NoChan.refl s
  | cons a r ih => exact (hf s a).trans (ih _)
theorem abandonHeld_noChan (s : Station) : NoChan s (abandonHeld s) := foldl_noChan _ (fun _ _ => offerControl_noChan _ _ _ _) _ s
theorem endFailure_noChan (s : Station) : NoChan s (endFailure s) := by
  unfold endFailure
  split
  · exact NoChan.refl s
  · split
    · exact NoChan.refl s
    · exact (idleChanger_noChan s).trans ((tidyMoment_noChan _ _).trans (noChan_of (giveEvent_motion _ _)))
theorem stopBoth_stays (s : Station) : Stays s (stopBoth s) := (stopSequencer_stays s _).trans (stopSequencer_stays _ _)
theorem dropWaiting_stays (s : Station) (c : ChanId) : Stays s (dropWaiting s c) := by
  unfold dropWaiting
  split
  · exact Stays.refl s
  · exact stopSequencer_stays s c
theorem dropBoth_stays (s : Station) : Stays s (dropBoth s) := (dropWaiting_stays s _).trans (dropWaiting_stays _ _)
theorem failWith_stays {stop : Station → Station} (hs : ∀ t, Stays t (stop t)) (s : Station) (cause : ChangeCause) (m : Bool) :
    Stays s (failWith stop s cause m) := by
  unfold failWith
  split
  · simp only
    have h : Stays s (stop (meetFailure (abandonByState s) cause)) :=
      (abandonByState_noChan s).stays.trans ((meetFailure_noChan _ _).stays.trans (hs _))
    refine Stays.trans ?_ (endFailure_noChan _).stays
    split
    · exact h.trans (offerControl_noChan _ _ _ _).stays
    · exact h
  · exact (endFailure_noChan s).stays
theorem failByMotion_stays (s : Station) (cause : ChangeCause) (m : Bool) : Stays s (failByMotion s cause m) :=
  failWith_stays stopBoth_stays s cause m
theorem failByRack_stays (s : Station) (cause : ChangeCause) : Stays s (failByRack s cause) := by
  unfold failByRack
  split
  · simp only
    have h : Stays s (stopBoth (meetFailure (abandonHeld s) cause)) :=
      (abandonHeld_noChan s).stays.trans ((meetFailure_noChan _ _).stays.trans (stopBoth_stays _))
    refine Stays.trans ?_ (endFailure_noChan _).stays
    split
    · exact h.trans (offerControl_noChan _ _ _ _).stays
    · exact h
  · exact Stays.refl s
theorem failByStall_stays (s : Station) (cause : StallCause) : Stays s (failByStall s cause) :=
  (withdrawWaiting_noChan s _).stays.trans (failWith_stays dropBoth_stays _ _ _)
theorem setHead_queue (s : Station) (c : ChanId) (g : Segment) (h : (chan s c).queue ≠ []) : (chan (setHead s c g) c).queue ≠ [] := by
  unfold setHead
  split
  · rename_i hq; exact absurd hq h
  · rw [setChan_same]; simp
theorem setHead_stays (s : Station) (c : ChanId) (g : Segment) : Stays s (setHead s c g) := by
  unfold setHead
  split
  · exact Stays.refl s
  · rename_i hq; exact setChan_stays _ _ _ (by rw [hq]; simp)
theorem setState_stays (s : Station) (c : ChanId) (st : ChanState) (h : (chan s c).queue ≠ []) : Stays s (setState s c st) := setChan_stays _ _ _ h
theorem reserveEntry_noChan (s : Station) : NoChan s (reserveEntry s) := ⟨rfl, rfl, rfl⟩
theorem creditStep_stays (s : Station) (c : ChanId) (g : Segment) (h : (chan s c).queue ≠ []) : ∀ r ∈ creditStep s c g, Stays s r.1 ∧ (chan r.1 c).queue ≠ [] := by
  intro r hr
  unfold creditStep at hr
  split at hr
  · split at hr
    · cases hr
      exact ⟨(reserveEntry_noChan s).stays.trans (setHead_stays _ _ _), setHead_queue _ _ _ h⟩
    · cases hr
  · cases hr; exact ⟨Stays.refl s, h⟩
theorem startMotion_stays (s : Station) (c : ChanId) (g : Segment) (h : (chan s c).queue ≠ []) : Stays s (startMotion s c g) := by
  have h1 : Stays s (setState (setHead s c { g with phase := .approach, marks := .all false }) c .running) :=
    (setHead_stays _ _ _).trans (setState_stays _ _ _ (setHead_queue _ _ _ h))
  unfold startMotion
  simp only
  split
  · exact h1.trans (NoChan.stays ⟨rfl, rfl, rfl⟩)
  · exact h1
/-- The station that a start sequence leaves where it waits or starts. -/
def outStays (s : Station) : StartOutcome → Prop
  | .waits t => Stays s t
  | .starts t => Stays s t
  | .fails _ => True
theorem offerClaim_noChan (s : Station) (g : Segment) (m : ZoneMask) : NoChan s (offerClaim s g m) :=
  NoChan.trans (t := { s with motion := { s.motion with claimFor := g.acc } }) ⟨rfl, rfl, rfl⟩
    ((offerControl_noChan _ _ _ _).trans (noChan_out _ _))
theorem claimIfClear_noChan (s : Station) (g : Segment) (m : ZoneMask) : NoChan s (claimIfClear s g m) := by
  unfold claimIfClear
  split
  · exact offerClaim_noChan s g m
  · exact NoChan.refl s
theorem zoneStep_stays (s : Station) (c : ChanId) (g : Segment) (h : (chan s c).queue ≠ []) : outStays s (zoneStep s c g) := by
  unfold zoneStep
  simp only
  split
  · trivial
  · split
    · exact startMotion_stays _ _ _ h
    · have h1 : Stays s (setState (setHead s c { g with zoneSet := some (zoneSetOf s g) }) c .waitZone) :=
        (setHead_stays _ _ _).trans (setState_stays _ _ _ (setHead_queue _ _ _ h))
      exact h1.trans (claimIfClear_noChan _ _ _).stays
theorem laterSteps_stays (s : Station) (c : ChanId) (g : Segment) (h : (chan s c).queue ≠ []) : outStays s (laterSteps s c g) := by
  unfold laterSteps
  split
  · exact zoneStep_stays _ _ _ h
  · split
    · trivial
    · simp only; split
      · exact zoneStep_stays _ _ _ h
      · trivial
theorem startSequence_stays (s : Station) (c : ChanId) (g : Segment) (h : (chan s c).queue ≠ []) : outStays s (startSequence s c g) := by
  unfold startSequence
  split
  · exact setState_stays _ _ _ h
  · rename_i s1 g1 hc
    obtain ⟨a, b⟩ := creditStep_stays s c g h (s1, g1) hc
    have := laterSteps_stays s1 c g1 b
    cases ho : laterSteps s1 c g1 with
    | waits t => rw [ho] at this; exact a.trans this
    | starts t => rw [ho] at this; exact a.trans this
    | fails c => trivial
theorem afterCredit_stays (s : Station) (c : ChanId) (g : Segment) (h : (chan s c).queue ≠ []) : Stays s (afterCredit s c g) ∧ (chan (afterCredit s c g) c).queue ≠ [] := by
  unfold afterCredit
  split
  · exact ⟨Stays.refl s, h⟩
  · rename_i s1 g1 hc
    exact creditStep_stays s c g h (s1, g1) hc
theorem leadSteps_stays (n : Nat) (s : Station) : Stays s (leadSteps n s) := by
  induction n generalizing s with
  | zero => exact Stays.refl s
  | succ n ih =>
    unfold leadSteps
    split
    · exact Stays.refl s
    · rename_i c _
      split
      · rename_i g _ hg
        have hw := startSequence_stays s c g (headSeg_ne hg)
        split
        · rename_i s1 h; rw [h] at hw; exact hw
        · rename_i s1 h; rw [h] at hw; exact hw
        · simp only
          obtain ⟨a, b⟩ := afterCredit_stays s c g (headSeg_ne hg)
          refine Stays.trans ?_ (ih _)
          split
          · exact (a.trans (haltNow_stays _ _ _ b)).trans (failByMotion_stays _ _ _)
          · exact a.trans (haltNow_stays _ _ _ b)
      · exact Stays.refl s
theorem chooseLead_stays (s : Station) : Stays s (chooseLead s) := leadSteps_stays 3 s

end Sys2Proof.Laws
end

