-- ==== Sys2Proof/Laws/Starting.lean ====
section
/-! SUPPORT. The leading segment and its start sequence (R75, R79, R80): when it is chosen, and what starting it comes to. -/

namespace Sys2Proof.Laws

open Sys2Proof.Machine

theorem leading_none {s : Station} (h : movingState s.motion.arm.state = true ∨ movingState s.motion.head.state = true) : leading s = none := by
  unfold leading
  rw [if_pos]
  simpa using h

theorem chooseLead_moving {s : Station} (h : movingState s.motion.arm.state = true ∨ movingState s.motion.head.state = true) : chooseLead s = s := by
  unfold chooseLead leadSteps
  rw [leading_none h]
theorem leading_empty {s : Station} (ha : s.motion.arm.queue = []) (hh : s.motion.head.queue = []) : leading s = none := by
  have h1 : headSeg s .arm = none := by unfold headSeg; rw [show chan s .arm = s.motion.arm from rfl, ha]; rfl
  have h2 : headSeg s .head = none := by unfold headSeg; rw [show chan s .head = s.motion.head from rfl, hh]; rfl
  unfold leading
  split
  · rfl
  · rw [h1, h2]

theorem chooseLead_empty {s : Station} (ha : s.motion.arm.queue = []) (hh : s.motion.head.queue = []) : chooseLead s = s := by
  unfold chooseLead leadSteps
  rw [leading_empty ha hh]

theorem headSeg_cons {s : Station} {c : ChanId} {g : Segment} {r : List Segment} (h : (chan s c).queue = g :: r) : headSeg s c = some g := by
  unfold headSeg; rw [h]; rfl

theorem headSeg_nil {s : Station} {c : ChanId} (h : (chan s c).queue = []) : headSeg s c = none := by
  unfold headSeg; rw [h]; rfl

/-- A channel leads: its head segment is there, nothing moves, and the other channel's head, if any, was accepted later. -/
theorem leading_of {s : Station} {c : ChanId} {g : Segment} {r : List Segment} (hq : (chan s c).queue = g :: r)
    (ha : movingState s.motion.arm.state = false) (hh : movingState s.motion.head.state = false)
    (ho : ∀ h ∈ (chan s (otherChan c)).queue, g.acc < h.acc ∨ (c = .arm ∧ g.acc ≤ h.acc)) : leading s = some c := by
  unfold leading
  rw [ha, hh]
  simp only [Bool.or_self, Bool.false_eq_true, if_false]
  cases c with
  | arm =>
    rw [headSeg_cons hq]
    cases hx : (chan s .head).queue with
    | nil => rw [headSeg_nil hx]
    | cons h t =>
      rw [headSeg_cons hx]
      have := ho h (by show h ∈ (chan s .head).queue; rw [hx]; exact List.mem_cons_self)
      simp only
      rw [if_pos]
      rcases this with h | h
      · exact Nat.le_of_lt h
      · exact h.2
  | head =>
    rw [headSeg_cons hq]
    cases hx : (chan s .arm).queue with
    | nil => rw [headSeg_nil hx]
    | cons h t =>
      rw [headSeg_cons hx]
      have := ho h (by show h ∈ (chan s .arm).queue; rw [hx]; exact List.mem_cons_self)
      simp only
      rw [if_neg]
      rcases this with h | h
      · exact Nat.not_le.mpr h
      · exact absurd h.1 (by decide)

/-- The leading segment's start sequence, where it waits or starts. -/
theorem chooseLead_of {s t : Station} {c : ChanId} {g : Segment} (hl : leading s = some c) (hs : (chan s c).state = .waitTurn)
    (hg : headSeg s c = some g) (ho : startSequence s c g = .waits t ∨ startSequence s c g = .starts t) : chooseLead s = t := by
  unfold chooseLead leadSteps
  rw [hl]
  simp only [hs, hg]
  rcases ho with h | h <;> rw [h]

/-! ### The steps of the sequence -/

theorem setHead_same {s : Station} {c : ChanId} {g : Segment} {r : List Segment} (h : (chan s c).queue = g :: r) (g' : Segment) :
    setHead s c g' = setChan s c { chan s c with queue := g' :: r } := by
  unfold setHead; rw [h]

/-- A segment in motion: its channel RUNNING with the segment at its head. -/
theorem startMotion_same {s : Station} {c : ChanId} {g : Segment} {r : List Segment} (h : (chan s c).queue = g :: r) (g' : Segment) :
    chan (startMotion s c g') c = { chan s c with state := .running, queue := { g' with phase := .approach, marks := .all false } :: r } := by
  unfold startMotion
  simp only
  rw [setHead_same h]
  split <;> cases c <;> rfl

theorem startMotion_other (s : Station) (c d : ChanId) (g : Segment) (h : d ≠ c) : chan (startMotion s c g) d = chan s d := by
  unfold startMotion setHead
  simp only
  split <;> split <;> cases c <;> cases d <;> first | exact absurd rfl h | rfl

theorem startMotion_line (s : Station) (c : ChanId) (g : Segment) :
    (startMotion s c g).line = s.line ∧ (startMotion s c g).touch = s.touch ∧ (startMotion s c g).request = s.request ∧
      (startMotion s c g).change = s.change ∧ (startMotion s c g).motion.outstanding = s.motion.outstanding := by
  unfold startMotion setHead
  simp only
  split <;> split <;> cases c <;> exact ⟨rfl, rfl, rfl, rfl, rfl⟩

theorem startMotion_homed (s : Station) (c : ChanId) (g : Segment) (h : isHomeSeg g = false) : (startMotion s c g).motion.homed = s.motion.homed := by
  unfold startMotion setHead
  simp only [h, Bool.false_eq_true, if_false]
  split <;> cases c <;> rfl

/-- A segment that waits for its zones: WAIT_ZONE, a claim offered where none is outstanding. -/
def waitsZone (s : Station) (c : ChanId) (g : Segment) (m : ZoneMask) : Station := claimIfClear (setState (setHead s c g) c .waitZone) g m

theorem waitsZone_same {s : Station} {c : ChanId} {g : Segment} {r : List Segment} (h : (chan s c).queue = g :: r) (g' : Segment) (m : ZoneMask) :
    chan (waitsZone s c g' m) c = { chan s c with state := .waitZone, queue := g' :: r } := by
  unfold waitsZone
  rw [(claimIfClear_noChan _ _ _).chan, setHead_same h]
  cases c <;> rfl

theorem waitsZone_other (s : Station) (c d : ChanId) (g : Segment) (m : ZoneMask) (h : d ≠ c) : chan (waitsZone s c g m) d = chan s d := by
  unfold waitsZone
  rw [(claimIfClear_noChan _ _ _).chan]
  unfold setState
  rw [setChan_other _ _ _ _ h]
  unfold setHead
  split
  · rfl
  · exact setChan_other _ _ _ _ h

/-- What waiting for zones leaves: the point list, events, the change, the REPORT queue, the homed flags. -/
theorem waitsZone_else (s : Station) (c : ChanId) (g : Segment) (m : ZoneMask) :
    (waitsZone s c g m).touch = s.touch ∧ (waitsZone s c g m).request = s.request ∧ (waitsZone s c g m).change = s.change ∧
      (waitsZone s c g m).line.report = s.line.report ∧ (waitsZone s c g m).motion.homed = s.motion.homed := by
  unfold waitsZone claimIfClear
  split
  · unfold offerClaim offerControl setHead
    simp only
    split <;> split <;> cases c <;> exact ⟨rfl, rfl, rfl, rfl, rfl⟩
  · unfold setHead
    split <;> cases c <;> exact ⟨rfl, rfl, rfl, rfl, rfl⟩

/-- The claim joins the CONTROL queue where a place is free and no claim is kept. -/
theorem waitsZone_taken (s : Station) (c : ChanId) (g : Segment) (m : ZoneMask) (h7 : controlHeld s.line < 7)
    (hw : ∀ w ∈ s.line.waiting, w.src ≠ .claim) (ho : s.motion.outstanding = .none) :
    (waitsZone s c g m).line = { s.line with control := s.line.control ++ [⟨0, .zoneClaim m (claimPrio g)⟩] } ∧
      (waitsZone s c g m).motion.outstanding = .taken := by
  have e1 : (setState (setHead s c g) c .waitZone).line = s.line := by unfold setHead; split <;> cases c <;> rfl
  have hn : s.line.waiting.any (fun w => w.src == .claim) = false := by
    rw [List.any_eq_false]; intro w hx; simpa using hw w hx
  have e3 : (setState (setHead s c g) c .waitZone).motion.outstanding = .none := by
    rw [← ho]; unfold setHead; split <;> cases c <;> rfl
  have e2 : offerControl { setState (setHead s c g) c .waitZone with
        motion := { (setState (setHead s c g) c .waitZone).motion with claimFor := g.acc } } .claim 0 (.zoneClaim m (claimPrio g)) =
      { setState (setHead s c g) c .waitZone with
        motion := { (setState (setHead s c g) c .waitZone).motion with claimFor := g.acc }
        line := { s.line with control := s.line.control ++ [⟨0, .zoneClaim m (claimPrio g)⟩] } } := by
    unfold offerControl
    rw [show ({ setState (setHead s c g) c .waitZone with
        motion := { (setState (setHead s c g) c .waitZone).motion with claimFor := g.acc } } : Station).line = s.line from e1,
      if_pos (by simp [hn, takesControl, h7])]
    rfl
  unfold waitsZone claimIfClear
  rw [if_pos e3]
  unfold offerClaim
  simp only
  rw [e2]
  refine ⟨rfl, ?_⟩
  unfold setOutstanding waitingAny
  simp only [hn, Bool.false_eq_true, if_false]

theorem zoneStep_held {s : Station} {c : ChanId} {g : Segment} (h : meets (zoneSetOf s g) (othersHomeMask (cellOf s) (me s)) = false)
    (hh : holdsAll s (zoneSetOf s g) = true) : zoneStep s c g = .starts (startMotion s c { g with zoneSet := some (zoneSetOf s g) }) := by
  unfold zoneStep
  simp only [h, hh, Bool.false_eq_true, if_false, if_true]

theorem zoneStep_wait {s : Station} {c : ChanId} {g : Segment} (h : meets (zoneSetOf s g) (othersHomeMask (cellOf s) (me s)) = false)
    (hh : holdsAll s (zoneSetOf s g) = false) :
    zoneStep s c g = .waits (waitsZone s c { g with zoneSet := some (zoneSetOf s g) } (zoneSetOf s g)) := by
  unfold zoneStep
  simp only [h, hh, Bool.false_eq_true, if_false]
  rfl

theorem laterSteps_pass {s : Station} {c : ChanId} {g : Segment} (hn : isHomeSeg g = false) (hh : allHomed s = true)
    (hl : limitsHold s (tipOffset s (headIndex s)) g.kind = true) :
    laterSteps s c g = zoneStep s c { g with axisTarget := commanded s (tipOffset s (headIndex s)) g.kind } := by
  unfold laterSteps
  simp only [hn, hh, hl, Bool.false_eq_true, if_false, if_true, Bool.not_true]

theorem startSequence_plain {s : Station} {c : ChanId} {g : Segment} (ht : isTouchSeg g = false) : startSequence s c g = laterSteps s c g := by
  unfold startSequence creditStep
  simp only [ht, Bool.false_and, Bool.false_eq_true, if_false]

/-- A channel that takes a segment while both are empty and idle starts it at once, where homing, limits and zones allow. -/
theorem take_idle {s : Station} {c : ChanId} {g : Segment} (hq : (chan s c).queue = [g]) (hs : (chan s c).state = .waitTurn)
    (ho : (chan s (otherChan c)).queue = []) (hm : movingState (chan s (otherChan c)).state = false) (ht : isTouchSeg g = false)
    (hn : isHomeSeg g = false) (hh : allHomed s = true) (hl : limitsHold s (tipOffset s (headIndex s)) g.kind = true)
    (hz : meets (zoneSetOf s g) (othersHomeMask (cellOf s) (me s)) = false) :
    chooseLead s =
      if holdsAll s (zoneSetOf s g) = true then
        startMotion s c { g with axisTarget := commanded s (tipOffset s (headIndex s)) g.kind, zoneSet := some (zoneSetOf s g) }
      else waitsZone s c { g with axisTarget := commanded s (tipOffset s (headIndex s)) g.kind, zoneSet := some (zoneSetOf s g) } (zoneSetOf s g) := by
  have hlead : leading s = some c := by
    have hmc : movingState (chan s c).state = false := by rw [hs]; rfl
    refine leading_of hq ?_ ?_ (by rw [ho]; intro h hx; cases hx)
    · cases c; exact hmc; exact hm
    · cases c; exact hm; exact hmc
  refine chooseLead_of hlead hs (headSeg_cons hq) ?_
  rw [startSequence_plain ht, laterSteps_pass hn hh hl]
  have e : zoneSetOf s { g with axisTarget := commanded s (tipOffset s (headIndex s)) g.kind } = zoneSetOf s g := rfl
  by_cases hx : holdsAll s (zoneSetOf s g) = true
  · rw [if_pos hx]; right
    exact zoneStep_held (g := { g with axisTarget := commanded s (tipOffset s (headIndex s)) g.kind }) (by rw [e]; exact hz) (by rw [e]; exact hx)
  · rw [if_neg hx]; left
    exact zoneStep_wait (g := { g with axisTarget := commanded s (tipOffset s (headIndex s)) g.kind }) (by rw [e]; exact hz) (by rw [e]; simpa using hx)

/-! ### With no change running, the start sequence touches no other channel and no change -/

theorem offerEventsFrom_change (n : Nat) (s : Station) : (offerEventsFrom n s).change = s.change := by
  induction n generalizing s with
  | zero => rfl
  | succ n ih =>
    unfold offerEventsFrom
    split
    · rfl
    · simp only; split
      · rw [ih]
      · rfl
theorem giveEvent_change (s : Station) (e : Event) : (giveEvent s e).change = s.change := offerEventsFrom_change _ _
theorem tidyRelease_change (s : Station) : (tidyRelease s).change = s.change := by
  unfold tidyRelease
  split
  · simp only; split <;> rfl
  · rfl
theorem tidyMoment_change (s : Station) (left : Option ZoneMask) : (tidyMoment s left).change = s.change := by
  unfold tidyMoment
  split
  · exact tidyRelease_change s
  · split
    · exact tidyRelease_change s
    · exact tidyRelease_change (withdrawOffer s)
    · rfl
theorem returnCredit_change (s : Station) (g : Option Segment) : (returnCredit s g).change = s.change := by
  unfold returnCredit
  split
  · rfl
  · split <;> rfl
theorem setChan_change (s : Station) (c : ChanId) (v : Chan) : (setChan s c v).change = s.change := by cases c <;> rfl
theorem setHead_change (s : Station) (c : ChanId) (g : Segment) : (setHead s c g).change = s.change := by
  unfold setHead; split
  · rfl
  · exact setChan_change _ _ _
theorem emptyChan_change (s : Station) (c : ChanId) (st : ChanState) : (emptyChan s c st).change = s.change := by
  unfold emptyChan; rw [returnCredit_change, setChan_change]
theorem haltNow_change (s : Station) (c : ChanId) (cause : HaltCause) : (haltNow s c cause).change = s.change := by
  unfold haltNow; simp only; rw [giveEvent_change, tidyMoment_change, emptyChan_change]
theorem offerControl_change (s : Station) (src : CtlSource) (d : Nat) (b : Body) : (offerControl s src d b).change = s.change := by
  unfold offerControl; split <;> rfl

/-- A failure met without a change does nothing. -/
theorem failWith_none {s : Station} (stop : Station → Station) (h1 : s.change.state = .idle) (h2 : s.change.failing = none)
    (cause : ChangeCause) (m : Bool) : failWith stop s cause m = s := by
  unfold failWith endFailure
  simp [changeRuns, h1, h2]

theorem failByMotion_none {s : Station} (h1 : s.change.state = .idle) (h2 : s.change.failing = none) (cause : ChangeCause) (m : Bool) :
    failByMotion s cause m = s := failWith_none _ h1 h2 cause m

theorem failByStart_none {s : Station} (h1 : s.change.state = .idle) (h2 : s.change.failing = none) (cause : HaltCause) : failByStart s cause = s :=
  failByMotion_none h1 h2 _ _

theorem setState_other (s : Station) (c d : ChanId) (st : ChanState) (h : d ≠ c) : chan (setState s c st) d = chan s d := setChan_other _ _ _ _ h
theorem setHead_other (s : Station) (c d : ChanId) (g : Segment) (h : d ≠ c) : chan (setHead s c g) d = chan s d := by
  unfold setHead; split
  · rfl
  · exact setChan_other _ _ _ _ h

/-- What a start sequence leaves of the other channel and of the change. -/
def outKeeps (s : Station) (c : ChanId) : StartOutcome → Prop
  | .waits t => (∀ d, d ≠ c → chan t d = chan s d) ∧ t.change = s.change
  | .starts t => (∀ d, d ≠ c → chan t d = chan s d) ∧ t.change = s.change
  | .fails _ => True

theorem zoneStep_keeps (s : Station) (c : ChanId) (g : Segment) : outKeeps s c (zoneStep s c g) := by
  unfold zoneStep
  simp only
  split
  · trivial
  · split
    · exact ⟨fun d hd => startMotion_other _ _ _ _ hd, (startMotion_line _ _ _).2.2.2.1⟩
    · exact ⟨fun d hd => waitsZone_other _ _ _ _ _ hd, (waitsZone_else _ _ _ _).2.2.1⟩

theorem laterSteps_keeps (s : Station) (c : ChanId) (g : Segment) : outKeeps s c (laterSteps s c g) := by
  unfold laterSteps
  split
  · exact zoneStep_keeps _ _ _
  · split
    · trivial
    · simp only; split
      · exact zoneStep_keeps _ _ _
      · trivial

theorem creditStep_keeps (s : Station) (c : ChanId) (g : Segment) :
    ∀ r ∈ creditStep s c g, (∀ d, d ≠ c → chan r.1 d = chan s d) ∧ r.1.change = s.change := by
  intro r hr
  unfold creditStep at hr
  split at hr
  · split at hr
    · cases hr
      exact ⟨fun d hd => setHead_other _ _ _ _ hd, setHead_change _ _ _⟩
    · cases hr
  · cases hr; exact ⟨fun _ _ => rfl, rfl⟩

theorem startSequence_keeps (s : Station) (c : ChanId) (g : Segment) : outKeeps s c (startSequence s c g) := by
  unfold startSequence
  split
  · exact ⟨fun d hd => setState_other _ _ _ _ hd, setChan_change _ _ _⟩
  · rename_i s1 g1 hc
    obtain ⟨a, b⟩ := creditStep_keeps s c g (s1, g1) hc
    have := laterSteps_keeps s1 c g1
    cases ho : laterSteps s1 c g1 with
    | waits t => rw [ho] at this; exact ⟨fun d hd => (this.1 d hd).trans (a d hd), this.2.trans b⟩
    | starts t => rw [ho] at this; exact ⟨fun d hd => (this.1 d hd).trans (a d hd), this.2.trans b⟩
    | fails c => trivial

theorem afterCredit_keeps (s : Station) (c : ChanId) (g : Segment) :
    (∀ d, d ≠ c → chan (afterCredit s c g) d = chan s d) ∧ (afterCredit s c g).change = s.change := by
  unfold afterCredit
  split
  · exact ⟨fun _ _ => rfl, rfl⟩
  · rename_i s1 g1 hc
    exact creditStep_keeps s c g (s1, g1) hc

/-- With no change running, choosing the leading segment leaves the change and every channel that is not WAIT_TURN. -/
theorem leadSteps_keeps (n : Nat) (s : Station) (h1 : s.change.state = .idle) (h2 : s.change.failing = none) :
    (leadSteps n s).change = s.change ∧ ∀ c, (chan s c).state ≠ .waitTurn → chan (leadSteps n s) c = chan s c := by
  induction n generalizing s with
  | zero => exact ⟨rfl, fun _ _ => rfl⟩
  | succ n ih =>
    unfold leadSteps
    split
    · exact ⟨rfl, fun _ _ => rfl⟩
    · rename_i c _
      split
      · rename_i g hst hg
        have hw := startSequence_keeps s c g
        have hne : ∀ d, (chan s d).state ≠ .waitTurn → d ≠ c := fun d hd hx => hd (by rw [hx]; exact hst)
        split
        · rename_i s1 h; rw [h] at hw; exact ⟨hw.2, fun d hd => hw.1 d (hne d hd)⟩
        · rename_i s1 h; rw [h] at hw; exact ⟨hw.2, fun d hd => hw.1 d (hne d hd)⟩
        · rename_i cause _
          simp only
          obtain ⟨a, b⟩ := afterCredit_keeps s c g
          have hc : (haltNow (afterCredit s c g) c cause).change = s.change := (haltNow_change _ _ _).trans b
          have he : (if fromSequencer g = true then failByStart (haltNow (afterCredit s c g) c cause) cause else haltNow (afterCredit s c g) c cause) = haltNow (afterCredit s c g) c cause := by
            split
            · exact failByStart_none (by rw [hc]; exact h1) (by rw [hc]; exact h2) _
            · rfl
          rw [he]
          obtain ⟨i1, i2⟩ := ih (haltNow (afterCredit s c g) c cause) (by rw [hc]; exact h1) (by rw [hc]; exact h2)
          refine ⟨i1.trans hc, fun d hd => ?_⟩
          have e := (haltNow_other (afterCredit s c g) c d cause (hne d hd)).trans (a d (hne d hd))
          exact (i2 d (by rw [e]; exact hd)).trans e
      · exact ⟨rfl, fun _ _ => rfl⟩

theorem chooseLead_change {s : Station} (h1 : s.change.state = .idle) (h2 : s.change.failing = none) : (chooseLead s).change = s.change :=
  (leadSteps_keeps 3 s h1 h2).1

theorem endFailure_idle {s : Station} (h : s.change.state = .idle) : (endFailure s).change.state = .idle := by
  unfold endFailure
  split
  · exact h
  · split
    · exact h
    · rw [giveEvent_change, tidyMoment_change]; rfl

theorem failByMotion_idle {s : Station} (h1 : s.change.state = .idle) (cause : ChangeCause) (m : Bool) :
    failByMotion s cause m = endFailure s := by
  unfold failByMotion failWith
  simp [changeRuns, h1]

theorem leadSteps_chan (n : Nat) (s : Station) (h1 : s.change.state = .idle) (c : ChanId) (hc : (chan s c).state ≠ .waitTurn) :
    chan (leadSteps n s) c = chan s c := by
  induction n generalizing s with
  | zero => rfl
  | succ n ih =>
    unfold leadSteps
    split
    · rfl
    · rename_i d _
      split
      · rename_i g hst hg
        have hw := startSequence_keeps s d g
        have hne : c ≠ d := fun hx => hc (by rw [hx]; exact hst)
        split
        · rename_i s1 h; rw [h] at hw; exact hw.1 c hne
        · rename_i s1 h; rw [h] at hw; exact hw.1 c hne
        · rename_i cause _
          simp only
          obtain ⟨a, b⟩ := afterCredit_keeps s d g
          have hcs : (haltNow (afterCredit s d g) d cause).change.state = .idle := by rw [haltNow_change, b]; exact h1
          have e := (haltNow_other (afterCredit s d g) d c cause hne).trans (a c hne)
          split
          · rw [show failByStart (haltNow (afterCredit s d g) d cause) cause = endFailure (haltNow (afterCredit s d g) d cause) from failByMotion_idle hcs _ _]
            have e2 := ((endFailure_noChan (haltNow (afterCredit s d g) d cause)).chan c).trans e
            rw [ih _ (endFailure_idle hcs) (by rw [e2]; exact hc)]
            exact e2
          · rw [ih _ hcs (by rw [e]; exact hc)]
            exact e
      · rfl

theorem chooseLead_chan {s : Station} {c : ChanId} (h1 : s.change.state = .idle) (hc : (chan s c).state ≠ .waitTurn) :
    chan (chooseLead s) c = chan s c := leadSteps_chan 3 s h1 c hc

/-! ### HALT and CLEAR on one channel -/

theorem haltChan_other (s : Station) (c d : ChanId) (h : d ≠ c) : chan (haltChan s c) d = chan s d := by
  unfold haltChan
  split
  · rfl
  · split
    · exact setChan_other _ _ _ _ h
    · split
      · rfl
      · exact haltNow_other _ _ _ _ h
    · exact haltNow_other _ _ _ _ h
    · split
      · rfl
      · exact haltNow_other _ _ _ _ h
    · rfl

theorem haltChan_change (s : Station) (c : ChanId) : (haltChan s c).change = s.change := by
  unfold haltChan
  split
  · rfl
  · split
    · exact setChan_change _ _ _
    · split
      · rfl
      · exact haltNow_change _ _ _
    · exact haltNow_change _ _ _
    · split
      · rfl
      · exact haltNow_change _ _ _
    · rfl

theorem clearChan_other (s : Station) (c d : ChanId) (h : d ≠ c) : chan (clearChan s c) d = chan s d := by
  unfold clearChan
  split
  · rw [(tidyMoment_noChan _ _).chan, setChan_other _ _ _ _ h]
  · split
    · rfl
    · simp only
      split
      · unfold offerMount
        split
        · unfold reportMount
          rw [(offerControl_noChan _ _ _ _).chan, (tidyMoment_noChan _ _).chan, setChan_other _ _ _ _ h]
        · rw [(tidyMoment_noChan _ _).chan, setChan_other _ _ _ _ h]
      · rw [(tidyMoment_noChan _ _).chan, setChan_other _ _ _ _ h]
  · rfl

/-- A CLEAR that its channel does not refuse, from HALTED or STALLED. -/
theorem clearChan_same (s : Station) (c : ChanId)
    (h : (chan s c).state = .halted ∨ ((chan s c).state = .stalled ∧ channelFault s c = false)) :
    chan (clearChan s c) c = ⟨.idle, [], none⟩ := by
  unfold clearChan
  rcases h with h | ⟨h, hf⟩
  · simp only [h]
    rw [(tidyMoment_noChan _ _).chan, setChan_same]
  · simp only [h, hf, Bool.false_eq_true, if_false]
    split
    · unfold offerMount
      split
      · unfold reportMount
        rw [(offerControl_noChan _ _ _ _).chan, (tidyMoment_noChan _ _).chan, setChan_same]
      · rw [(tidyMoment_noChan _ _).chan, setChan_same]
    · rw [(tidyMoment_noChan _ _).chan, setChan_same]

theorem clearChan_refused (s : Station) (c : ChanId)
    (h : (chan s c).state = .stopping ∨ ((chan s c).state = .stalled ∧ channelFault s c = true)) : clearChan s c = s := by
  unfold clearChan
  rcases h with h | ⟨h, hf⟩
  · simp only [h]
  · simp only [h, hf, if_true]

theorem clearChan_change (s : Station) (c : ChanId) : (clearChan s c).change = s.change := by
  unfold clearChan
  split
  · rw [tidyMoment_change, setChan_change]
  · split
    · rfl
    · simp only
      split
      · unfold offerMount
        split
        · unfold reportMount
          rw [offerControl_change, tidyMoment_change, setChan_change]
        · rw [tidyMoment_change, setChan_change]
      · rw [tidyMoment_change, setChan_change]
  · rfl

end Sys2Proof.Laws
end

