-- ==== Sys2Proof/Laws/Calm.lean ====
section
/-! SUPPORT. `Calm s t`: the operations that only offer, release or withdraw CONTROL frames; and what giving an event does (R11, R13, R57, R166). -/

namespace Sys2Proof.Laws

open Sys2Proof.Machine

/-- Only CONTROL frames and the outstanding claim have changed. -/
structure Calm (s t : Station) : Prop where
  motion : t.motion = { s.motion with outstanding := t.motion.outstanding }
  change : t.change = s.change
  touch : t.touch = s.touch
  request : t.request = s.request
  loader : t.loader = s.loader
  replica : t.replica = s.replica
  line : t.line = { s.line with control := t.line.control, waiting := t.line.waiting }

theorem Calm.refl (s : Station) : Calm s s := ⟨rfl, rfl, rfl, rfl, rfl, rfl, rfl⟩
theorem Calm.trans {s t u : Station} (h : Calm s t) (k : Calm t u) : Calm s u :=
  ⟨by rw [k.motion, h.motion], k.change.trans h.change, k.touch.trans h.touch, k.request.trans h.request, k.loader.trans h.loader,
   k.replica.trans h.replica, by rw [k.line, h.line]⟩
theorem Calm.homed {s t : Station} (h : Calm s t) : t.motion.homed = s.motion.homed := by rw [h.motion]
theorem Calm.chan {s t : Station} (h : Calm s t) (c : ChanId) : Machine.chan t c = Machine.chan s c := by
  cases c
  · show t.motion.arm = s.motion.arm; rw [h.motion]
  · show t.motion.head = s.motion.head; rw [h.motion]

theorem offerControl_calm (s : Station) (src : CtlSource) (d : Nat) (b : Body) : Calm s (offerControl s src d b) := by
  unfold offerControl
  split <;> exact ⟨rfl, rfl, rfl, rfl, rfl, rfl, rfl⟩
theorem withdrawWaiting_calm (s : Station) (p : Waiting → Bool) : Calm s (withdrawWaiting s p) := ⟨rfl, rfl, rfl, rfl, rfl, rfl, rfl⟩
theorem offerRelease_calm (s : Station) (m : ZoneMask) (w : Bool) : Calm s (offerRelease s m w) := by
  unfold offerRelease offerReleaseTo
  split <;> exact ⟨rfl, rfl, rfl, rfl, rfl, rfl, rfl⟩
theorem setOutstanding_calm (s : Station) (o : Outstanding) : Calm s (setOutstanding s o) := ⟨rfl, rfl, rfl, rfl, rfl, rfl, rfl⟩
theorem withdrawOffer_calm (s : Station) : Calm s (withdrawOffer s) := (withdrawWaiting_calm s _).trans (setOutstanding_calm _ _)
theorem tidyRelease_calm (s : Station) : Calm s (tidyRelease s) := by
  unfold tidyRelease
  split
  · simp only; split
    · exact Calm.refl s
    · exact offerRelease_calm _ _ _
  · exact Calm.refl s
theorem tidyMoment_calm (s : Station) (left : Option ZoneMask) : Calm s (tidyMoment s left) := by
  unfold tidyMoment
  split
  · exact tidyRelease_calm s
  · split
    · exact tidyRelease_calm s
    · exact (withdrawOffer_calm s).trans (tidyRelease_calm _)
    · exact (offerRelease_calm _ _ _).trans (setOutstanding_calm _ _)
theorem reportMount_calm (s : Station) (code : Option Code) : Calm s (reportMount s code) := offerControl_calm _ _ _ _
theorem offerMount_calm (s : Station) : Calm s (offerMount s) := by
  unfold offerMount
  split
  · exact reportMount_calm _ _
  · exact Calm.refl s

/-! ### Giving an event -/

theorem offerEventsFrom_next (n : Nat) (s : Station) : (offerEventsFrom n s).request.nextEvent = s.request.nextEvent := by
  induction n generalizing s with
  | zero => rfl
  | succ n ih =>
    unfold offerEventsFrom
    split
    · rfl
    · simp only; split
      · rw [ih]
      · rfl
theorem keepEvent_next (q : RequestUnit) (e : Event) : (keepEvent q e).nextEvent = (q.nextEvent + 1) % 65536 := by
  unfold keepEvent
  simp only
  split <;> rfl
theorem giveEvent_next (s : Station) (e : Event) : (giveEvent s e).request.nextEvent = (s.request.nextEvent + 1) % 65536 := by
  unfold giveEvent offerEvents
  rw [offerEventsFrom_next]
  exact keepEvent_next _ _
theorem offerEventsFrom_control (n : Nat) (s : Station) :
    (offerEventsFrom n s).line.control = s.line.control ∧ (offerEventsFrom n s).line.waiting = s.line.waiting ∧
      (offerEventsFrom n s).touch = s.touch := by
  induction n generalizing s with
  | zero => exact ⟨rfl, rfl, rfl⟩
  | succ n ih =>
    unfold offerEventsFrom
    split
    · exact ⟨rfl, rfl, rfl⟩
    · simp only; split
      · obtain ⟨a, b, c⟩ := ih { s with line := enqueueReport s.line ⟨reporter s, .event (eventBody _ _)⟩, request := { s.request with events := _ } }
        refine ⟨a.trans ?_, b.trans ?_, c⟩
        · show (updateDrain _).control = _; rw [updateDrain_control]
        · show (updateDrain _).waiting = _; rw [updateDrain_eq]
      · exact ⟨rfl, rfl, rfl⟩
theorem giveEvent_control (s : Station) (e : Event) : (giveEvent s e).line.control = s.line.control := (offerEventsFrom_control _ _).1
theorem giveEvent_waiting (s : Station) (e : Event) : (giveEvent s e).line.waiting = s.line.waiting := (offerEventsFrom_control _ _).2.1
theorem giveEvent_touch (s : Station) (e : Event) : (giveEvent s e).touch = s.touch := (offerEventsFrom_control _ _).2.2

/-- An event of the list is in the list or in the REPORT queue after the offers. -/
theorem offerEventsFrom_kept (n : Nat) (s : Station) (num : Nat) (e : Event)
    (h : (num, e) ∈ s.request.events ∨ ∃ d, (⟨d, .event (eventBody num e)⟩ : Outgoing) ∈ s.line.report) :
    (num, e) ∈ (offerEventsFrom n s).request.events ∨ ∃ d, (⟨d, .event (eventBody num e)⟩ : Outgoing) ∈ (offerEventsFrom n s).line.report := by
  induction n generalizing s with
  | zero => exact h
  | succ n ih =>
    unfold offerEventsFrom
    split
    · exact h
    · rename_i k f rest hev
      simp only; split
      · refine ih _ ?_
        rcases h with h | ⟨d, h⟩
        · rw [hev] at h
          rcases List.mem_cons.mp h with h | h
          · right
            refine ⟨reporter s, ?_⟩
            show _ ∈ (updateDrain _).report
            rw [updateDrain_report]
            injection h with h1 h2
            subst h1; subst h2
            exact List.mem_append_right _ List.mem_cons_self
          · exact Or.inl h
        · right
          refine ⟨d, ?_⟩
          show _ ∈ (updateDrain _).report
          rw [updateDrain_report]
          exact List.mem_append_left _ h
      · exact h

theorem giveEvent_kept (s : Station) (e : Event) (h : s.request.events.length < 8) :
    (s.request.nextEvent, e) ∈ (giveEvent s e).request.events ∨
      ∃ d, (⟨d, .event (eventBody s.request.nextEvent e)⟩ : Outgoing) ∈ (giveEvent s e).line.report := by
  unfold giveEvent offerEvents
  refine offerEventsFrom_kept _ _ _ _ (Or.inl ?_)
  show (s.request.nextEvent, e) ∈ (keepEvent s.request e).events
  unfold keepEvent
  simp only
  rw [if_pos h]
  exact List.mem_append_right _ List.mem_cons_self

end Sys2Proof.Laws
end

