-- ==== Sys2Proof/Laws/Sized.lean ====
section
/-! SUPPORT. `Same s t`: the tables, the image, the table sizes and whether there is a line count are the same in both. One lemma for each
operation that is not the application of a frame; and the sizes where a station starts afresh, joins or loads a snapshot. -/

namespace Sys2Proof.Laws

open Sys2Proof.Machine

structure Same (s t : Station) : Prop where
  image : t.loader.image = s.loader.image
  tables : t.replica.tables = s.replica.tables
  pendingRep : t.replica.pendingRep = s.replica.pendingRep
  noticed : t.replica.noticed.length = s.replica.noticed.length
  heard : t.line.heard = s.line.heard
  lineCount : t.line.lineCount.isSome = s.line.lineCount.isSome
  inputs : t.thermal.inputs.length = s.thermal.inputs.length
  rack : t.rack.length = s.rack.length
  presence : t.pins.presence.length = s.pins.presence.length
  portIdent : t.pins.portIdent.length = s.pins.portIdent.length

theorem Same.refl (s : Station) : Same s s := ⟨rfl, rfl, rfl, rfl, rfl, rfl, rfl, rfl, rfl, rfl⟩

theorem Same.trans {s t u : Station} (h : Same s t) (k : Same t u) : Same s u :=
  ⟨k.image.trans h.image, k.tables.trans h.tables, k.pendingRep.trans h.pendingRep, k.noticed.trans h.noticed, k.heard.trans h.heard,
   k.lineCount.trans h.lineCount, k.inputs.trans h.inputs, k.rack.trans h.rack, k.presence.trans h.presence,
   k.portIdent.trans h.portIdent⟩

theorem Same.sized {s t : Station} (h : Same s t) (k : Sized s) : Sized t :=
  ⟨by unfold tabs; rw [h.tables]; exact k.tables, by rw [h.pendingRep]; exact k.pending, h.noticed.trans k.noticed,
   by rw [h.heard]; exact k.heard, h.inputs.trans k.inputs, h.rack.trans k.rack, h.presence.trans k.presence,
   h.portIdent.trans k.portIdent⟩

theorem Works.same {s t : Station} (w : Works s t) : Same s t :=
  ⟨by rw [w.loader], by rw [w.replica], by rw [w.replica], by rw [w.replica], w.line.heard, by rw [w.line.lineCount], by rw [w.thermal],
   by rw [w.rack], by rw [w.pins], by rw [w.pins]⟩

theorem Reacts.same {s t : Station} (w : Reacts s t) : Same s t :=
  ⟨by rw [w.loader], w.tables, w.pendingRep, by rw [w.noticed], w.line.heard, by rw [w.line.lineCount], by rw [w.thermal], w.rack,
   by rw [w.pins], by rw [w.pins]⟩

theorem same_if {b : Bool} {s t u : Station} (h : Same s t) (k : Same s u) : Same s (if b = true then t else u) := by
  split
  · exact h
  · exact k

theorem same_line {s : Station} {lp : LinePort} (h : lp.heard = s.line.heard) (hl : lp.lineCount = s.line.lineCount) :
    Same s { s with line := lp } := ⟨rfl, rfl, rfl, rfl, h, by rw [hl], rfl, rfl, rfl, rfl⟩

theorem same_motion (s : Station) (m : MotionUnit) : Same s { s with motion := m } := ⟨rfl, rfl, rfl, rfl, rfl, rfl, rfl, rfl, rfl, rfl⟩
theorem same_touch (s : Station) (m : TouchUnit) : Same s { s with touch := m } := ⟨rfl, rfl, rfl, rfl, rfl, rfl, rfl, rfl, rfl, rfl⟩
theorem same_change (s : Station) (m : Changer) : Same s { s with change := m } := ⟨rfl, rfl, rfl, rfl, rfl, rfl, rfl, rfl, rfl, rfl⟩
theorem same_request (s : Station) (m : RequestUnit) : Same s { s with request := m } := ⟨rfl, rfl, rfl, rfl, rfl, rfl, rfl, rfl, rfl, rfl⟩
theorem same_now (s : Station) (n : Nat) : Same s { s with now := n } := ⟨rfl, rfl, rfl, rfl, rfl, rfl, rfl, rfl, rfl, rfl⟩
theorem same_free (s : Station) (n : Nat) : Same s { s with freeUsed := n } := ⟨rfl, rfl, rfl, rfl, rfl, rfl, rfl, rfl, rfl, rfl⟩
theorem same_pins {s : Station} {p : Pins} (h1 : p.presence.length = s.pins.presence.length)
    (h2 : p.portIdent.length = s.pins.portIdent.length) : Same s { s with pins := p } := ⟨rfl, rfl, rfl, rfl, rfl, rfl, rfl, rfl, h1, h2⟩
theorem same_loader {s : Station} {l : Loader} (h : l.image = s.loader.image) : Same s { s with loader := l } :=
  ⟨h, rfl, rfl, rfl, rfl, rfl, rfl, rfl, rfl, rfl⟩
theorem same_replica {s : Station} {r : ReplicaUnit} (h1 : r.tables = s.replica.tables) (h2 : r.pendingRep = s.replica.pendingRep)
    (h3 : r.noticed.length = s.replica.noticed.length) : Same s { s with replica := r } := ⟨rfl, h1, h2, h3, rfl, rfl, rfl, rfl, rfl, rfl⟩
theorem same_thermal {s : Station} {m : ThermalUnit} (h : m.inputs.length = s.thermal.inputs.length) : Same s { s with thermal := m } :=
  ⟨rfl, rfl, rfl, rfl, rfl, rfl, h, rfl, rfl, rfl⟩

theorem readEncoders_same (s : Station) (enc : Counts) : Same s (readEncoders s enc) := same_motion s _
theorem atDue_same (s : Station) (d : Nat) : Same s (atDue s d) := same_now s _
theorem setRackPort_same (s : Station) (p : Nat) (v : RackPort) : Same s (setRackPort s p v) :=
  ⟨rfl, rfl, rfl, rfl, rfl, rfl, rfl, set1_length _ _ _, rfl, rfl⟩

/-! ### The line -/

theorem beginContending_counts (lp : LinePort) (now : Nat) (c : FrameClass) :
    (beginContending lp now c).heard = lp.heard ∧ (beginContending lp now c).lineCount = lp.lineCount := by
  unfold beginContending
  cases c <;> simp only <;> split <;> exact ⟨rfl, rfl⟩

theorem contend_same (s : Station) : Same s (contend s) := by
  unfold contend
  split
  · split
    · exact Same.refl s
    · exact same_line (beginContending_counts _ _ _).1 (beginContending_counts _ _ _).2
  · exact Same.refl s

theorem requeueRelease_counts (lp : LinePort) (o : Outgoing) :
    (requeueRelease lp o).heard = lp.heard ∧ (requeueRelease lp o).lineCount = lp.lineCount := by
  unfold requeueRelease
  split
  · exact ⟨rfl, rfl⟩
  · split <;> exact ⟨rfl, rfl⟩

theorem requeue_counts (lp : LinePort) : (requeue lp).heard = lp.heard ∧ (requeue lp).lineCount = lp.lineCount := by
  unfold requeue
  split
  · exact ⟨rfl, rfl⟩
  · simp only
    split
    · split
      · exact requeueRelease_counts _ _
      · exact ⟨rfl, rfl⟩
    · unfold requeueThermal; split <;> exact ⟨rfl, rfl⟩
    · exact ⟨rfl, rfl⟩

theorem endPrefix_same (s : Station) (others : List (FrameClass × Nat)) : Same s (endPrefix s others) := by
  unfold endPrefix
  split
  · exact Same.refl s
  · split
    · split
      · exact same_line (requeue_counts _).1 (requeue_counts _).2
      · exact same_line rfl rfl
    · exact Same.refl s

theorem intoWindow_counts (lp : LinePort) : (intoWindow lp).heard = lp.heard ∧ (intoWindow lp).lineCount = lp.lineCount := by
  unfold intoWindow
  split
  · exact ⟨rfl, rfl⟩
  · split <;> exact ⟨rfl, rfl⟩

theorem receiveFrame_same (s : Station) (bytes : List Byte) : Same s (receiveFrame s bytes) := by
  obtain ⟨h1, h2⟩ := intoWindow_counts s.line
  unfold receiveFrame
  split
  · unfold openWindow
    simp only
    split
    · exact same_line h1 h2
    · exact same_line h1 h2
    · split
      · split
        · exact same_line h1 h2
        · exact same_line h1 h2
      · exact same_line h1 h2
  · exact Same.refl s

theorem afterVeto_counts (lp : LinePort) : (afterVeto lp).heard = lp.heard ∧ (afterVeto lp).lineCount = lp.lineCount := by
  unfold afterVeto
  rw [recordWindow_eq]
  exact ⟨rfl, rfl⟩

theorem closeVetoed_same (s : Station) : Same s (closeVetoed s) := by
  unfold closeVetoed
  split
  · exact same_line ((requeue_counts _).1.trans (afterVeto_counts _).1) ((requeue_counts _).2.trans (afterVeto_counts _).2)
  · exact same_line (afterVeto_counts _).1 (afterVeto_counts _).2

theorem closeClean_same (s : Station) : Same s (closeClean s) := by
  rw [closeClean_eq]
  exact same_line rfl rfl

theorem countFrame_same (s : Station) : Same s (countFrame s) :=
  ⟨rfl, rfl, rfl, rfl, rfl, by simp [countFrame], rfl, rfl, rfl, rfl⟩

theorem malformedFrame_same (s : Station) : Same s (malformedFrame s) := by
  unfold malformedFrame
  split
  · exact Same.refl s
  · exact (closeClean_same s).trans (countFrame_same _)

theorem thermalAged_same (s : Station) : Same s (thermalAged s) := by
  unfold thermalAged
  split
  · split
    · exact Same.refl s
    · exact same_now s _
  · exact Same.refl s

theorem reofferFrom_same (src : CtlSource) (n : Nat) (s : Station) : Same s (reofferFrom src n s) := by
  induction n generalizing s with
  | zero => exact Same.refl s
  | succ n ih =>
    unfold reofferFrom
    split
    · exact Same.refl s
    · split
      · simp only
        refine Same.trans ?_ (ih _)
        split
        · exact Same.trans (same_line (lp := { enqueueControl s.line _ with waiting := _ }) rfl rfl) (same_motion _ _)
        · exact same_line rfl rfl
      · exact Same.refl s

theorem silenceLimit_same (s : Station) (k : Nat) : Same s (silenceLimit s k) := by
  unfold silenceLimit
  simp only
  split
  · split
    · split
      · exact same_now s _
      · refine Same.trans ?_ (offerControl_works _ _ _ _ rfl rfl).same
        exact ⟨rfl, rfl, rfl, set1_length _ _ _, rfl, rfl, rfl, rfl, rfl, rfl⟩
    · exact Same.refl s
  · exact Same.refl s

theorem offerSnapshots_same (s : Station) : Same s (offerSnapshots s) := (offerSnapshots_reacts s).same

/-! ### Requests -/

theorem answer_same (s : Station) (src : Nat) (a : AnswerBody) : Same s (answer s src a) := by
  unfold answer answerInto
  exact same_line (updateDrain_works _).heard (updateDrain_works _).lineCount

theorem decide_same {s t : Station} (hst : Same s t) (src : Nat) (tag : Code) (code acc : Nat) (checks : List (Bool × Reason))
    (effect : Station → Station) (he : firstFailing checks = none → Same t (effect t)) :
    Same s (decideRequest t src tag code acc checks effect) := by
  unfold decideRequest
  split
  · exact hst.trans (answer_same _ _ _)
  · rename_i h
    exact hst.trans ((he h).trans (answer_same _ _ _))

theorem takeRequest_same (s : Station) : Same s (takeRequest s) := same_request s _

theorem disableChannels_same (s : Station) : Same s (disableChannels s) := (disableChannels_works s).same

theorem park_same (s : Station) : Same s (park s) := by
  unfold park
  simp only
  have h1 : Same s (disableChannels { s with loader := { s.loader with mode := .parked } }) :=
    (same_loader (s := s) (l := { s.loader with mode := .parked }) rfl).trans (disableChannels_works _).same
  refine Same.trans ?_ (giveEvent_works _ _).same
  split
  · exact h1
  · exact h1.trans (offerRelease_works _ _ _).same

theorem unpark_same (s : Station) : Same s (unpark s) := by
  unfold unpark
  exact ((((same_loader (s := s) (l := { s.loader with mode := .active }) rfl).trans (enableChannels_works _).same).trans
    (offerMount_works _).same).trans (tidyMoment_works _ _).same).trans (modeEvent_works _).same

theorem clearFold_same (cs : List ChanId) (s : Station) : Same s (chooseLead (cs.foldl clearChan s)) :=
  (foldl_works _ (fun s c => clearChan_works s c) cs s).same.trans (chooseLead_works _).same

/-! ### The pins, the rack and the timers -/

theorem assertTrigger_same (s : Station) (enc : Counts) : Same s (assertTrigger s enc) := by
  unfold assertTrigger
  split
  · exact Same.refl s
  · split
    · exact ⟨rfl, rfl, rfl, rfl, rfl, rfl, rfl, rfl, rfl, rfl⟩
    simp only
    have h1 : Same s { readEncoders s enc with
        pins := { (readEncoders s enc).pins with trigger := true }
        touch := { (readEncoders s enc).touch with latch := some (readEncoders s enc).motion.enc } } :=
      ⟨rfl, rfl, rfl, rfl, rfl, rfl, rfl, rfl, rfl, rfl⟩
    refine h1.trans ?_
    split
    · exact (collide_works _ _).same
    · split
      · split
        · exact Same.refl _
        · unfold armTrigger
          split
          · simp only
            refine Same.trans ?_ (setHead_works _ _ _).same
            split
            · exact same_touch _ _
            · exact Same.refl _
          · exact Same.refl _
          · exact (collide_works _ _).same
      · exact Same.refl _

theorem endApproach_same (s : Station) (enc : Counts) : Same s (endApproach s enc) := by
  unfold endApproach
  split
  · exact Same.refl s
  · split
    · refine (readEncoders_same s enc).trans ?_
      simp only
      split
      · exact (haltNow_works _ _ _).same.trans (chooseLead_works _).same
      · split
        · exact (collide_works _ _).same
        · exact (setHead_works _ _ _).same
    · exact Same.refl s

theorem missTouch_same (s : Station) (enc : Counts) : Same s (missTouch s enc) := by
  unfold missTouch
  split
  · exact Same.refl s
  · split
    · exact (readEncoders_same s enc).trans ((returnCredit_works _ _).same.trans ((setHead_works _ _ _).same.trans (giveEvent_works _ _).same))
    · exact Same.refl s

theorem segmentDone_same (s : Station) (c : ChanId) (enc : Counts) : Same s (segmentDone s c enc) := by
  unfold segmentDone
  split
  · exact Same.refl s
  · split
    · rename_i g _ _
      refine Same.trans ?_ (chooseLead_works _).same
      refine (readEncoders_same s enc).trans ((completeSegment_works (readEncoders s enc) c g).same.trans
        ((chooseLead_works (completeSegment (readEncoders s enc) c g)).same.trans ?_))
      split
      · exact (changeSegmentEnd_works _).same
      · exact Same.refl _
    · exact Same.refl s

theorem stopDone_same (s : Station) (c : ChanId) (enc : Counts) : Same s (stopDone s c enc) := by
  unfold stopDone
  split
  · exact Same.refl s
  · split
    · rename_i g _ _
      refine Same.trans ?_ (chooseLead_works _).same
      refine (readEncoders_same s enc).trans ((endStop_works (readEncoders s enc) c g).same.trans ?_)
      split
      · exact (changeSegmentEnd_works _).same
      · exact Same.refl _
    · exact Same.refl s

theorem findMark_same (s : Station) (ax : Axis) : Same s (findMark s ax) := by
  unfold findMark
  simp only
  split
  · exact Same.refl s
  · split
    · exact (same_motion s _).trans (setHead_works _ _ _).same
    · exact Same.refl s

theorem followingStall_same (s : Station) (ax : Axis) (enc : Counts) : Same s (followingStall s ax enc) := by
  unfold followingStall
  split
  · exact Same.refl s
  · exact (readEncoders_same s enc).trans (stall_works _ _ _).same

theorem quadratureError_same (s : Station) (ax : Axis) (enc : Counts) : Same s (quadratureError s ax enc) := by
  unfold quadratureError
  split
  · exact Same.refl s
  · exact (readEncoders_same s enc).trans ((same_motion _ _).trans (stall_works _ _ _).same)

theorem assertFault_same (s : Station) (ax : Axis) : Same s (assertFault s ax) := by
  unfold assertFault
  split
  · exact Same.refl s
  · simp only
    split
    · exact same_pins rfl rfl
    · exact ⟨rfl, rfl, rfl, rfl, rfl, rfl, rfl, rfl, rfl, rfl⟩

theorem countFault_same (s : Station) (ax : Axis) (enc : Counts) : Same s (countFault s ax enc) := by
  unfold countFault
  split
  · exact Same.refl s
  · rename_i t _
    have h1 : ∀ m, Same s { readEncoders (atDue s (t + (ownOf s).filter)) enc with motion := m } := fun _ =>
      ⟨rfl, rfl, rfl, rfl, rfl, rfl, rfl, rfl, rfl, rfl⟩
    simp only
    split
    · exact (h1 _).trans (stall_works _ _ _).same
    · exact h1 _

theorem presenceMoved_same (s : Station) (p : Nat) (present : Bool) (code : Option Code) : Same s (presenceMoved s p present code) := by
  unfold presenceMoved
  split
  · exact Same.refl s
  · simp only
    refine (same_pins (p := { s.pins with presence := set1 s.pins.presence p present, portIdent := set1 s.pins.portIdent p code })
      (set1_length _ _ _) (set1_length _ _ _)).trans ?_
    split
    · exact setRackPort_same _ _ _
    · exact Same.refl _

theorem lockDelayOver_same (s : Station) (p : Nat) : Same s (lockDelayOver s p) := by
  unfold lockDelayOver
  split
  · exact Same.refl s
  · rename_i due _
    have h1 : ∀ v, Same s (setRackPort (atDue s due) p v) := fun v => (atDue_same s due).trans (setRackPort_same _ p v)
    simp only
    split
    · exact (h1 _).trans ((setRackPort_same _ _ _).trans (reportRack_works _ _).same)
    · exact h1 _

theorem sensorMoved_same (s : Station) (held : Bool) (code : Option Code) : Same s (sensorMoved s held code) := by
  unfold sensorMoved
  simp only
  refine (same_pins (p := { s.pins with sensor := held, headIdent := code }) rfl rfl).trans ?_
  split
  · exact same_change _ _
  · split
    · exact Same.refl _
    · split
      · split
        · exact Same.refl _
        · exact (depositDone_works _).same
      · split
        · exact (engageDone_works _).same
        · exact Same.refl _
      · exact Same.refl _

theorem couplingOver_same (s : Station) : Same s (couplingOver s) := by
  unfold couplingOver
  split
  · exact Same.refl s
  · rename_i due _
    simp only
    split
    · exact Same.trans (t := { atDue s due with change := { (atDue s due).change with output := false } })
        ⟨rfl, rfl, rfl, rfl, rfl, rfl, rfl, rfl, rfl, rfl⟩ (failByRack_works _ _).same
    · exact (atDue_same s due).trans (failByRack_works _ _).same

theorem unlockOver_same (s : Station) : Same s (unlockOver s) := by
  unfold unlockOver
  split
  · exact Same.refl s
  · exact (atDue_same s _).trans (failByRack_works _ _).same

theorem confirmOver_same (s : Station) : Same s (confirmOver s) := by
  unfold confirmOver
  split
  · exact Same.refl s
  · exact (atDue_same s _).trans (failByRack_works _ _).same

theorem lateOver_same (s : Station) (seq : Nat) : Same s (lateOver s seq) := by
  unfold lateOver
  split
  · exact Same.refl s
  · exact (atDue_same s _).trans (closePoints_works _ _ _).same

theorem sampleNow_same (s : Station) (ohms : List Nat) : Same s (sampleNow s ohms) := by
  unfold sampleNow
  split
  · exact Same.refl s
  · exact ⟨rfl, rfl, rfl, rfl, rfl, rfl, by simp [sampleInputs, map1_length, atDue], rfl, rfl, rfl⟩

theorem composeThermal_same (s : Station) : Same s (composeThermal s) := by
  unfold composeThermal offerThermalTo
  split <;> exact ⟨rfl, rfl, rfl, rfl, rfl, rfl, rfl, rfl, rfl, rfl⟩

theorem periodOver_same (s : Station) : Same s (periodOver s) := by
  unfold periodOver
  split
  · exact Same.refl s
  · exact (atDue_same s _).trans (composeThermal_same _)

theorem formWaitOver_same (s : Station) : Same s (formWaitOver s) := by
  unfold formWaitOver
  split
  · exact Same.refl s
  · rename_i due _
    simp only
    have h1 : Same s { atDue s due with replica := { s.replica with formWait := none } } := (atDue_same s _).trans (same_replica rfl rfl rfl)
    split
    · exact h1.trans (offerControl_works _ _ _ _ rfl rfl).same
    · exact h1

/-! ### Starting, joining and leaving the line -/

theorem blank_sized : TablesSized Replica.blank := ⟨rfl, rfl, rfl, rfl, rfl⟩

/-- Sizes, where the tables and the pending replica are blank or gone. -/
theorem sized_leaveLine {s : Station} (h : Sized s) : Sized (leaveLine s) :=
  ⟨blank_sized, fun _ hp => (by cases hp), rfl, rfl, h.inputs, by simpa [leaveLine] using h.rack, h.presence, h.portIdent⟩

theorem sized_enterShut {s : Station} (h : Sized s) (r : ShutReason) : Sized (enterShut s r) := by
  have k := sized_leaveLine h
  exact ⟨k.tables, k.pending, k.noticed, k.heard, k.inputs, k.rack, k.presence, k.portIdent⟩

theorem sized_loader {s : Station} (h : Sized s) (l : Loader) : Sized { s with loader := l } :=
  ⟨h.tables, h.pending, h.noticed, h.heard, h.inputs, h.rack, h.presence, h.portIdent⟩

theorem sized_enterOut {s : Station} (h : Sized s) (c : OutCause) : Sized (enterOut s c) := by
  unfold enterOut
  simp only
  split
  · exact sized_enterShut (sized_loader h _) _
  · exact sized_loader (sized_leaveLine h) _

theorem sized_sampleStraps {s : Station} (h : Sized s) : Sized (sampleStraps s) := by
  unfold sampleStraps
  simp only
  split
  · exact sized_enterShut (sized_loader h _) _
  · exact sized_loader h _

theorem sized_restart {s : Station} (h : Sized s) (c : ResetCause) : Sized (restart s c) :=
  sized_sampleStraps ⟨blank_sized, fun _ hp => (by cases hp), rfl, rfl, rfl, rfl, h.presence, h.portIdent⟩

theorem sized_holdInReset {s : Station} (h : Sized s) : Sized (holdInReset s) :=
  ⟨blank_sized, fun _ hp => (by cases hp), rfl, rfl, rfl, rfl, h.presence, h.portIdent⟩

theorem sized_offerJoin {s : Station} (h : Sized s) : Sized (offerJoin s) := by
  unfold offerJoin
  refine (offerControl_works _ _ _ _ rfl rfl).same.sized ((withdrawWaiting_works _ _).same.sized ?_)
  exact ⟨h.tables, fun _ hp => (by cases hp), h.noticed, h.heard, h.inputs, h.rack, h.presence, h.portIdent⟩

theorem sized_enterJoining {s : Station} (h : Sized s) : Sized (enterJoining s) :=
  sized_offerJoin ⟨blank_sized, fun _ hp => (by cases hp), rfl, h.heard, rfl, h.rack, h.presence, h.portIdent⟩

theorem sized_loadImage {s : Station} (h : Sized s) (bytes : List Byte) : Sized (loadImage s bytes) := by
  unfold loadImage
  split
  · exact sized_enterShut (sized_loader h _) _
  · exact sized_enterJoining (sized_loader h _)

theorem sized_enterActive {s : Station} (h : Sized s) : Sized (enterActive s) := by
  unfold enterActive
  refine (modeEvent_works _).same.sized ((reportAll_works _).same.sized ((tidyMoment_works _ _).same.sized
    ((offerMount_works _).same.sized ((enableChannels_works _).same.sized ((composeThermal_same _).sized ?_)))))
  exact ⟨h.tables, fun _ hp => (by cases hp), rfl, h.heard, h.inputs, h.rack, h.presence, h.portIdent⟩

theorem sized_abandonAttempt {s : Station} (h : Sized s) : Sized (abandonAttempt s) := by
  have h1 : ∀ b, Sized { s with replica := { s.replica with service := none, pendingRep := none, catchUp := [], abandoned := b } } :=
    fun b => ⟨h.tables, fun _ hp => (by cases hp), h.noticed, h.heard, h.inputs, h.rack, h.presence, h.portIdent⟩
  have go : ∀ b : Bool, Sized (if b = true then
      offerJoin { s with replica := { s.replica with service := none, pendingRep := none, catchUp := [] } }
      else { s with replica := { s.replica with service := none, pendingRep := none, catchUp := [], abandoned := true } }) := by
    intro b
    split
    · exact sized_offerJoin (h1 s.replica.abandoned)
    · exact h1 true
  exact go _

theorem sized_tables {s : Station} (h : Sized s) {r : Replica} (hr : TablesSized r) : Sized (setTabs s r) :=
  ⟨hr, h.pending, h.noticed, h.heard, h.inputs, h.rack, h.presence, h.portIdent⟩

theorem TableStep.run {c : CellPart} {jc : Nat} {snap : List (Option Nat)} (l : List CatchItem) (r : Replica) :
    TableStep c r (replay c jc snap l r) := by
  induction l generalizing r with
  | nil => exact TableStep.refl c r
  | cons i l ih => exact (step_applyFormed _ _ _ _ _).trans (ih _)

/-- The tables that a load begins with and replays over (R38). -/
theorem load_step (c : CellPart) (p : Replica) (jc : Nat) (snap : List (Option Nat)) (l : List CatchItem) :
    TableStep c { p with cell := { p.cell with formed := true }, cellStamp := 0 }
      (replay c jc snap l (derive c { p with cell := { p.cell with formed := true }, cellStamp := 0 })) :=
  (step_derive c c _).trans (TableStep.run l _)

theorem sized_loadSnapshot {s : Station} (h : Sized s) (p : PendingReplica) (hp : TablesSized p.tables) (k : Nat) :
    Sized (loadSnapshot s p k) := by
  unfold loadSnapshot
  refine sized_enterActive ⟨?_, h.pending, h.noticed, ?_, h.inputs, h.rack, h.presence, h.portIdent⟩
  · exact (load_step (cellOf s) p.tables k p.heard s.replica.catchUp).sized ⟨hp.roster, hp.zones, hp.ports, hp.probes, hp.latches⟩
  · simp only [map1_length]; exact h.heard

theorem sized_loadEntry {p : PendingReplica} (h : TablesSized p.tables ∧ p.heard.length = 14) (c : SnapContent) :
    TablesSized (loadEntry p c).tables ∧ (loadEntry p c).heard.length = 14 := by
  obtain ⟨k, hh⟩ := h
  cases c
  case roster => exact ⟨⟨(set1_length _ _ _).trans k.roster, k.zones, k.ports, k.probes, k.latches⟩, (set1_length _ _ _).trans hh⟩
  case cell => exact ⟨⟨k.roster, k.zones, k.ports, k.probes, k.latches⟩, hh⟩
  case zone => exact ⟨⟨k.roster, List.length_set.trans k.zones, k.ports, k.probes, k.latches⟩, hh⟩
  case claim => exact ⟨⟨k.roster, k.zones, k.ports, k.probes, k.latches⟩, hh⟩
  case port => exact ⟨⟨k.roster, k.zones, (set1_length _ _ _).trans k.ports, k.probes, k.latches⟩, hh⟩
  case probe => exact ⟨⟨k.roster, k.zones, k.ports, (set1_length _ _ _).trans k.probes, k.latches⟩, hh⟩
  case tips => exact ⟨⟨k.roster, k.zones, k.ports, (set1_length _ _ _).trans k.probes, k.latches⟩, hh⟩
  case board => exact ⟨⟨k.roster, k.zones, k.ports, k.probes, k.latches⟩, hh⟩
  case latchFirst => exact ⟨⟨k.roster, k.zones, k.ports, k.probes, (set1_length _ _ _).trans k.latches⟩, hh⟩
  case latchSecond => exact ⟨⟨k.roster, k.zones, k.ports, k.probes, (set1_length _ _ _).trans k.latches⟩, hh⟩

theorem sized_takeEntry {s : Station} (h : Sized s) (hd : Hdr) (jn : Nat) (c : SnapContent) : Sized (takeEntry s hd jn c) := by
  unfold takeEntry
  split
  · rename_i hp
    split
    · refine ⟨h.tables, fun q hq => ?_, h.noticed, h.heard, h.inputs, h.rack, h.presence, h.portIdent⟩
      cases hq
      exact sized_loadEntry (h.pending _ hp) c
    · exact h
  · exact h

theorem sized_takeSnapEnd {s : Station} (h : Sized s) (hd : Hdr) (jn count : Nat) (fp : Print) : Sized (takeSnapEnd s hd jn count fp) := by
  unfold takeSnapEnd
  split
  · rename_i hp
    split
    · split
      · exact sized_enterShut h _
      · split
        · exact sized_abandonAttempt h
        · exact sized_loadSnapshot h _ (h.pending _ hp).1 _
    · exact h
  · exact h

theorem sized_takeSnapBegin {s : Station} (h : Sized s) (hd : Hdr) (purpose : SnapPurpose) (jn : Nat) (fp : Print) (entries : Nat) :
    Sized (takeSnapBegin s hd purpose jn fp entries) := by
  have h1 : Sized { s with replica := { s.replica with snapBeginSeen := true } } :=
    ⟨h.tables, h.pending, h.noticed, h.heard, h.inputs, h.rack, h.presence, h.portIdent⟩
  unfold takeSnapBegin
  split
  · exact h
  · simp only
    split
    · split
      · exact sized_enterShut h1 _
      · exact h1
    · split
      · refine ⟨h1.tables, fun q hq => ?_, h1.noticed, h1.heard, h1.inputs, h1.rack, h1.presence, h1.portIdent⟩
        cases hq
        exact ⟨blank_sized, rfl⟩
      · exact h1

theorem formed_sized (c : CellPart) (fp : Print) (mask : StationMask) : TablesSized (formedReplica c fp mask) :=
  ⟨by simp [formedReplica, map1_length], by simp [formedReplica, formedZones], rfl, rfl, rfl⟩

theorem sized_takeForm {s : Station} (h : Sized s) (hd : Hdr) (fp : Print) (mask : StationMask) : Sized (takeForm s hd fp mask) := by
  unfold takeForm
  split
  · exact h
  · simp only
    have h1 : Sized { setTabs s (formedReplica (cellOf s) fp mask) with
        line := { s.line with lineCount := some 0, heard := formHeard s.now mask s.line.heard } } :=
      ⟨formed_sized _ _ _, h.pending, h.noticed, by simp only [formHeard, map1_length]; exact h.heard, h.inputs, h.rack, h.presence, h.portIdent⟩
    split
    · exact sized_enterShut h1 _
    · split
      · exact sized_enterActive h1
      · exact sized_offerJoin ⟨blank_sized, h.pending, h.noticed, rfl, h.inputs, h.rack, h.presence, h.portIdent⟩

theorem sized_takeJoining {s : Station} (h : Sized s) (f : Frame) : Sized (takeJoining s f) := by
  unfold takeJoining
  split
  · exact sized_takeForm h _ _ _
  · simp only
    have h1 : ∀ fp cause, Sized (setTabs s (joinUnformed s.loader.fingerprint fp f.h cause (tabs s))) := fun fp cause =>
      sized_tables h ⟨(set1_length _ _ _).trans h.tables.roster, h.tables.zones, h.tables.ports, h.tables.probes, h.tables.latches⟩
    split
    · have k := h1 (by assumption) (by assumption)
      exact ⟨k.tables, k.pending, k.noticed, k.heard, k.inputs, k.rack, k.presence, k.portIdent⟩
    · split
      · exact sized_abandonAttempt (h1 _ _)
      · exact h1 _ _
  · split
    · exact sized_abandonAttempt h
    · exact h
  · exact sized_takeSnapBegin h _ _ _ _ _
  · exact sized_takeEntry h _ _ _
  · exact sized_takeSnapEnd h _ _ _ _
  · exact h

theorem sized_keepFrame {s : Station} (h : Sized s) (f : Frame) : Sized (keepFrame s f) := by
  unfold keepFrame
  split
  · split
    · exact ⟨h.tables, h.pending, h.noticed, h.heard, h.inputs, h.rack, h.presence, h.portIdent⟩
    · exact sized_abandonAttempt h
  · exact h

/-! ### Completed frames -/

theorem sized_takeCount {s : Station} (h : Sized s) (f : Frame) : Sized (takeCount s f) := by
  have h2 : Sized (if isOwnJoin s f = true then { countFrame s with line := restartOffsets (countFrame s).line } else countFrame s) := by
    split
    · exact ⟨h.tables, h.pending, h.noticed, (List.length_map _).trans h.heard, h.inputs, h.rack, h.presence, h.portIdent⟩
    · exact (countFrame_same s).sized h
  have h3 : ∀ t, Sized t → Sized (noteCell (heardAgain (recordHeard t f.h.sender) f.h.sender) f.h) := by
    intro t ht
    have h4 : Sized (heardAgain (recordHeard t f.h.sender) f.h.sender) :=
      ⟨ht.tables, ht.pending, ht.noticed, (set1_length _ _ _).trans ht.heard, ht.inputs, ht.rack, ht.presence, ht.portIdent⟩
    unfold noteCell
    split
    · exact ⟨h4.tables, h4.pending, h4.noticed, h4.heard, h4.inputs, h4.rack, h4.presence, h4.portIdent⟩
    · exact h4
  exact h3 _ h2

theorem deliver_same (s : Station) (w : Option Window) (hd : Hdr) (tag : Code) (r : ReqBody) : Same s (deliver s w hd tag r) := by
  unfold deliver
  split
  · exact Same.refl s
  · simp only
    split
    · split
      · exact same_request s _
      · exact Same.refl s
    · split
      · exact ⟨rfl, rfl, rfl, rfl, rfl, rfl, rfl, rfl, rfl, rfl⟩
      · exact Same.refl s

theorem sized_applyLive {s : Station} (h : Sized s) (f : Frame) : Sized (applyLive s f) := by
  have h1 : Sized (setTabs s (applyFormed (cellOf s) (lineCountOf s) (namesLastHeard s.line f.body) f (tabs s)).1) :=
    sized_tables h ((step_applyFormed _ _ _ _ _).sized h.tables)
  unfold applyLive
  simp only
  split
  · exact sized_enterOut h1 _
  · exact (react_reacts _ _ _ _).same.sized h1

theorem sized_handOn {s : Station} (h : Sized s) (w : Option Window) (f : Frame) : Sized (handOn s w f) := by
  unfold handOn
  split
  · exact (deliver_same _ _ _ _ _).sized h
  · split
    · exact sized_takeJoining (sized_keepFrame h f) f
    · split
      · exact sized_applyLive h f
      · exact h

/-- The removal of an own frame: what it leaves is `Same`, or a restart of it (R7, R154, R164). -/
theorem releaseOwn_cases (s : Station) (f : Frame) :
    ∃ t, (Same s t ∧ t.loader = s.loader) ∧ (releaseOwn s f = t ∨ releaseOwn s f = restart t .requested) := by
  unfold releaseOwn
  split
  · have base : Same s { s with line := removeCompleted s.line } :=
      same_line (removeCompleted_counts _).2 (removeCompleted_counts _).1
    have key : ∀ t, Same s t → t.loader = s.loader → ∃ u, (Same s u ∧ u.loader = s.loader) ∧
        ((if answersRestart t f.body = true then restart t .requested else t) = u ∨
          (if answersRestart t f.body = true then restart t .requested else t) = restart u .requested) := by
      intro t ht hl
      split
      · exact ⟨t, ⟨ht, hl⟩, .inr rfl⟩
      · exact ⟨t, ⟨ht, hl⟩, .inl rfl⟩
    simp only
    split
    · exact key _ (base.trans (same_touch _ _)) rfl
    · exact key _ base rfl
  · exact ⟨s, ⟨Same.refl s, rfl⟩, .inl rfl⟩

theorem sized_releaseOwn {s : Station} (h : Sized s) (f : Frame) : Sized (releaseOwn s f) := by
  obtain ⟨t, ⟨ht, _⟩, h1 | h1⟩ := releaseOwn_cases s f
  · rw [h1]; exact ht.sized h
  · rw [h1]; exact sized_restart (ht.sized h) _

theorem sized_completeFrame {s : Station} (h : Sized s) (f : Frame) : Sized (completeFrame s f) := by
  unfold completeFrame
  split
  · exact h
  · simp only
    have h1 := (closeClean_same s).sized h
    split
    · exact sized_releaseOwn (sized_handOn (sized_takeCount h1 f) _ f) f
    · exact (countFrame_same _).sized h1

theorem sized_windowVetoed {s : Station} (h : Sized s) : Sized (windowVetoed s) := by
  have h1 := (closeVetoed_same s).sized h
  unfold windowVetoed
  split
  · simp only
    split
    · exact sized_enterOut h1 _
    · split
      · exact sized_enterOut h1 _
      · exact h1
  · exact h

theorem sized_joinRetryOver {s : Station} (h : Sized s) : Sized (joinRetryOver s) := by
  unfold joinRetryOver
  split
  · exact h
  · rename_i due _
    simp only
    have h1 : Sized { atDue s due with replica := { s.replica with joinRetry := none } } :=
      ⟨h.tables, h.pending, h.noticed, h.heard, h.inputs, h.rack, h.presence, h.portIdent⟩
    split
    · exact h1
    · split
      · exact sized_offerJoin h1
      · split
        · exact h1
        · split
          · exact sized_offerJoin h1
          · exact ⟨h.tables, h.pending, h.noticed, h.heard, h.inputs, h.rack, h.presence, h.portIdent⟩

end Sys2Proof.Laws
end

