-- ==== Sys2Proof/Laws/Joins.lean ====
section
/-! SUPPORT. A completed frame at a JOINING station (R7, R9, R10, R24, R26): counting, recording and keeping it, and what entering ACTIVE
mode leaves as it is (R38, R88). -/

namespace Sys2Proof.Laws

open Sys2Proof.Machine

theorem joining_listening {s : Station} (h : joiningMode s = true) : listening s = true := by
  simp only [listening, joiningMode, Bool.and_eq_true, beq_iff_eq] at h ⊢
  rw [h.2]
  exact ⟨h.1, rfl⟩

theorem joining_not_serving {s : Station} (h : joiningMode s = true) : serving s = false := by
  simp only [serving, joiningMode, Bool.and_eq_true, Bool.and_eq_false_iff, beq_iff_eq] at h ⊢
  rw [h.2]
  exact .inr rfl

/-- A frame counted and recorded at a joining station: what that leaves as it is. -/
structure JoinCounted (s u : Station) (f : Frame) : Prop where
  now : u.now = s.now
  pins : u.pins = s.pins
  loader : u.loader = s.loader
  motion : u.motion = s.motion
  touch : u.touch = s.touch
  thermal : u.thermal = s.thermal
  change : u.change = s.change
  rack : u.rack = s.rack
  request : u.request = s.request
  replica : u.replica = { s.replica with cellExists := u.replica.cellExists }
  cellExists : u.replica.cellExists = (s.replica.cellExists || (f.h.active && roleIn (cellOf s) f.h.sender == .mc410))
  window : u.line.window = none
  flight : u.line.flight = s.line.flight
  lineCount : u.line.lineCount = s.line.lineCount.map (· + 1)
  joinOffset : u.line.joinOffset = if isOwnJoin s f then 0 else s.line.joinOffset + 1
  heard : u.line.heard.length = s.line.heard.length

theorem counted_joining {s : Station} (hj : joiningMode s = true) (f : Frame) : JoinCounted s (takeCount (closeClean s) f) f := by
  rw [closeClean_eq]
  generalize (recordWindow s.line false).vetoLog = log
  have hown : ∀ lp : LinePort, isOwnJoin { s with line := lp } f = isOwnJoin s f := fun _ => rfl
  have hcj : ∀ lp : LinePort, joiningMode { s with line := lp } = true := fun _ => hj
  have hc : countFrame { s with line := { s.line with vetoLog := log, window := none } } =
      { s with
        line := { s.line with
          vetoLog := log, window := none, lineCount := s.line.lineCount.map (· + 1), joinOffset := s.line.joinOffset + 1 } } := by
    unfold countFrame
    simp only [hcj, if_true]
  have base : ∀ lp : LinePort, ∀ u : Station, u = { s with line := lp } → lp.window = none → lp.flight = s.line.flight →
      lp.lineCount = s.line.lineCount.map (· + 1) → lp.joinOffset = (if isOwnJoin s f then 0 else s.line.joinOffset + 1) →
      lp.heard.length = s.line.heard.length →
      JoinCounted s (noteCell (heardAgain (recordHeard u f.h.sender) f.h.sender) f.h) f := by
    intro lp u hu h1 h2 h3 h4 h5
    subst hu
    have hn : ∀ v : Station, v.loader = s.loader → v.replica = s.replica →
        (noteCell v f.h).replica = { s.replica with cellExists := (noteCell v f.h).replica.cellExists } ∧
        (noteCell v f.h).replica.cellExists = (s.replica.cellExists || (f.h.active && roleIn (cellOf s) f.h.sender == .mc410)) ∧
        noteCell v f.h = { v with replica := (noteCell v f.h).replica } := by
      intro v hl hr
      have hvj : joiningMode v = true := by rw [← hj]; unfold joiningMode; rw [hl]
      have hvc : cellOf v = cellOf s := by unfold cellOf; rw [hl]
      unfold noteCell
      rw [hvj, hvc, Bool.true_and]
      split
      · rename_i h; rw [h, Bool.or_true]; exact ⟨by rw [hr], rfl, rfl⟩
      · rename_i h
        rw [Bool.not_eq_true] at h
        rw [h, Bool.or_false]; exact ⟨by rw [hr], by rw [hr], rfl⟩
    obtain ⟨k1, k2, k3⟩ := hn (heardAgain (recordHeard { s with line := lp } f.h.sender) f.h.sender) rfl rfl
    rw [k3]
    exact ⟨rfl, rfl, rfl, rfl, rfl, rfl, rfl, rfl, rfl, k1, k2, h1, h2, h3, h4, (set1_length _ _ _).trans h5⟩
  unfold takeCount
  simp only [hc, hown]
  by_cases ho : isOwnJoin s f = true
  · rw [if_pos ho]
    exact base _ _ rfl rfl rfl rfl (by simp [ho, restartOffsets]) (List.length_map _)
  · rw [if_neg ho]
    exact base _ _ rfl rfl rfl rfl (by simp [ho]) rfl

/-- A completed frame other than a REQUEST at a joining station (R7). -/
theorem completeFrame_joining {s : Station} (hj : joiningMode s = true) (hv : vetoedHere s = false) {f : Frame}
    (hg : formatGood (cellOf s) f = true) (hr : Body.isRequest f.body = false) :
    ∃ u, JoinCounted s u f ∧ completeFrame s f = releaseOwn (takeJoining (keepFrame u f) f) f := by
  refine ⟨_, counted_joining hj f, ?_⟩
  have hc := counted_joining hj f
  unfold completeFrame
  rw [joining_listening hj, hv]
  simp only [Bool.not_true, Bool.or_self, Bool.false_eq_true, if_false, hg, if_true]
  have hju : joiningMode (takeCount (closeClean s) f) = true := by rw [← hj]; unfold joiningMode; rw [hc.loader]
  congr 1
  unfold handOn
  split
  · rename_i hb; rw [hb] at hr; cases hr
  · rw [hju]; rfl

/-- A frame kept: the catch-up list alone changes while it has room. -/
theorem keepFrame_room {u : Station} (f : Frame) (h : u.replica.catchUp.length < 128) :
    keepFrame u f = { u with replica := { u.replica with catchUp := (keepFrame u f).replica.catchUp } } := by
  unfold keepFrame
  split
  · split
    · rfl
    · rfl
  · rfl

/-- An attempt abandoned: the tables, the loader and the counts of the line stay; service, pending replica and catch-up list are gone. -/
theorem abandon_facts (s : Station) :
    (abandonAttempt s).loader = s.loader ∧ (abandonAttempt s).replica.tables = s.replica.tables ∧ (abandonAttempt s).now = s.now ∧
    (abandonAttempt s).motion = s.motion ∧
      (abandonAttempt s).line.lineCount = s.line.lineCount ∧ (abandonAttempt s).line.heard = s.line.heard ∧
      (abandonAttempt s).replica.service = none ∧ (abandonAttempt s).replica.pendingRep = none ∧ (abandonAttempt s).replica.catchUp = [] ∧
      (abandonAttempt s).pins = s.pins ∧ (abandonAttempt s).replica.cellExists = s.replica.cellExists ∧
      (abandonAttempt s).replica.snapBeginSeen = s.replica.snapBeginSeen := by
  have oc : ∀ (v : Station) (d : Nat) (b : Body), (offerControl v .joining d b).motion = v.motion := by
    intro v d b; unfold offerControl; split <;> rfl
  have hw : ∀ v : Station, ∀ b, Body.cls b = .control → Body.isRelease b = false → Works v (offerControl (withdrawWaiting v (fun w => w.src == .joining)) .joining 0 b) :=
    fun v b h1 h2 => (withdrawWaiting_works v _).trans (offerControl_works _ _ _ _ h1 h2)
  have go : ∀ b : Bool, ∀ t, t = (if b = true then
      offerJoin { s with replica := { s.replica with service := none, pendingRep := none, catchUp := [] } }
      else { s with replica := { s.replica with service := none, pendingRep := none, catchUp := [], abandoned := true } }) →
      t.loader = s.loader ∧ t.replica.tables = s.replica.tables ∧ t.now = s.now ∧ t.motion = s.motion ∧
      t.line.lineCount = s.line.lineCount ∧ t.line.heard = s.line.heard ∧ t.replica.service = none ∧ t.replica.pendingRep = none ∧
      t.replica.catchUp = [] ∧ t.pins = s.pins ∧ t.replica.cellExists = s.replica.cellExists ∧
      t.replica.snapBeginSeen = s.replica.snapBeginSeen := by
    intro b t ht
    split at ht
    · subst ht
      unfold offerJoin
      simp only
      have w := hw { s with replica := { s.replica with
        service := none, pendingRep := none, catchUp := [], joinNumber := nextJoin s.replica.joinNumber, joinDone := false, abandoned := false } }
        (.join s.loader.fingerprint s.loader.cause (nextJoin s.replica.joinNumber)) rfl rfl
      refine ⟨w.loader, by rw [w.replica], w.now, oc _ _ _, w.line.lineCount, w.line.heard, by rw [w.replica], by rw [w.replica], by rw [w.replica],
        w.pins, by rw [w.replica], by rw [w.replica]⟩
    · subst ht; exact ⟨rfl, rfl, rfl, rfl, rfl, rfl, rfl, rfl, rfl, rfl, rfl, rfl⟩
  exact go _ _ rfl

/-- A frame kept, or the attempt abandoned for want of room: what stays either way (R26, R39). -/
theorem keepFrame_facts (u : Station) (f : Frame) :
    (keepFrame u f).loader = u.loader ∧ (keepFrame u f).replica.tables = u.replica.tables ∧ (keepFrame u f).now = u.now ∧
    (keepFrame u f).motion = u.motion ∧
      (keepFrame u f).line.lineCount = u.line.lineCount ∧ (keepFrame u f).line.heard = u.line.heard ∧
      (keepFrame u f).pins = u.pins ∧ (keepFrame u f).replica.cellExists = u.replica.cellExists ∧
      (keepFrame u f).replica.snapBeginSeen = u.replica.snapBeginSeen := by
  by_cases h : u.replica.catchUp.length < 128
  · rw [keepFrame_room f h]
    exact ⟨rfl, rfl, rfl, rfl, rfl, rfl, rfl, rfl, rfl⟩
  · obtain ⟨a1, a2, a3, a4, a5, a6, _, _, _, a7, a8, a9⟩ := abandon_facts u
    unfold keepFrame
    split
    · exact ⟨a1, a2, a3, a4, a5, a6, a7, a8, a9⟩
    · exact ⟨rfl, rfl, rfl, rfl, rfl, rfl, rfl, rfl, rfl⟩

/-! ### Entering ACTIVE mode (R38, R88) -/

/-- The station as it stands in ACTIVE mode before its units begin. -/
def beginActive (s : Station) : Station :=
  { s with
      loader := { s.loader with mode := .active }
      replica := endJoining s.replica
      line := { s.line with waiting := s.line.waiting.filter (fun w => w.src != .joining) } }

/-- The station that enters ACTIVE mode keeps its tables, its line count, its last-heard table and its encoder counts. -/
theorem enterActive_facts (s : Station) :
    (enterActive s).loader = { s.loader with mode := .active } ∧ (enterActive s).replica.tables = s.replica.tables ∧
      (enterActive s).line.lineCount = s.line.lineCount ∧ (enterActive s).line.heard = s.line.heard ∧ (enterActive s).now = s.now ∧
      (enterActive s).pins = s.pins ∧ (enterActive s).motion.enc = s.motion.enc ∧ (enterActive s).line.window = s.line.window := by
  have he : enterActive s =
      modeEvent (reportAll (tidyMoment (offerMount (enableChannels (composeThermal (beginActive s)))) none)) := rfl
  have key : ∀ v : Station, Works v (modeEvent (reportAll (tidyMoment (offerMount (enableChannels v)) none))) := fun v =>
    (enableChannels_works v).trans ((offerMount_works _).trans ((tidyMoment_works _ _).trans ((reportAll_works _).trans (modeEvent_works _))))
  have hc : ∀ v : Station, (composeThermal v).loader = v.loader ∧ (composeThermal v).replica = v.replica ∧
      (composeThermal v).line.lineCount = v.line.lineCount ∧ (composeThermal v).line.heard = v.line.heard ∧ (composeThermal v).now = v.now ∧
      (composeThermal v).pins = v.pins ∧ (composeThermal v).motion = v.motion ∧ (composeThermal v).line.window = v.line.window := by
    intro v; unfold composeThermal offerThermalTo; split <;> exact ⟨rfl, rfl, rfl, rfl, rfl, rfl, rfl, rfl⟩
  have w := key (composeThermal (beginActive s))
  obtain ⟨h1, h2, h3, h4, h5, h6, h7, h8⟩ := hc (beginActive s)
  rw [he]
  generalize modeEvent (reportAll (tidyMoment (offerMount (enableChannels (composeThermal (beginActive s)))) none)) = t at w ⊢
  exact ⟨w.loader.trans h1, by rw [w.replica, h2]; rfl, w.line.lineCount.trans h3, w.line.heard.trans h4, w.now.trans h5,
    w.pins.trans h6, by rw [w.enc, h7]; rfl, w.line.window.trans h8⟩

/-- The tables of a snapshot loaded: those of the pending replica, formed, the catch-up list applied to them (R38). -/
def loadedTables (s : Station) (p : PendingReplica) (joinCount : Nat) : Replica :=
  replay (cellOf s) joinCount p.heard s.replica.catchUp (derive (cellOf s) { p.tables with cell := { p.tables.cell with formed := true }, cellStamp := 0 })

/-- The station with its snapshot loaded, before it enters ACTIVE mode (R38). -/
def loadedStation (s : Station) (p : PendingReplica) (joinCount : Nat) : Station :=
  { s with
    line := { s.line with
      lineCount := some (joinCount + s.line.joinOffset)
      heard := map1 (fun k h => rebase joinCount s.now (at1 p.heard none k) h) s.line.heard }
    replica := { s.replica with tables := loadedTables s p joinCount } }

theorem loadSnapshot_eq (s : Station) (p : PendingReplica) (joinCount : Nat) :
    loadSnapshot s p joinCount = enterActive (loadedStation s p joinCount) := rfl

/-- A snapshot loaded (R38): ACTIVE mode, the JOIN's count and the frames since as line count, and the tables a step away from those of the
pending replica. -/
theorem loadSnapshot_facts (s : Station) (p : PendingReplica) (joinCount : Nat) :
    (loadSnapshot s p joinCount).loader = { s.loader with mode := .active } ∧
      (loadSnapshot s p joinCount).line.lineCount = some (joinCount + s.line.joinOffset) ∧
      TableStep (cellOf s) { p.tables with cell := { p.tables.cell with formed := true }, cellStamp := 0 } (tabs (loadSnapshot s p joinCount)) := by
  rw [loadSnapshot_eq]
  obtain ⟨h1, h2, h3, _⟩ := enterActive_facts (loadedStation s p joinCount)
  refine ⟨h1, h3, ?_⟩
  unfold tabs
  rw [h2]
  exact load_step (cellOf s) p.tables joinCount p.heard s.replica.catchUp

theorem tidy_motion (s : Station) : (tidyMoment s none).motion = s.motion := by
  show (tidyRelease s).motion = s.motion
  unfold tidyRelease
  split
  · simp only
    split
    · rfl
    · rfl
  · rfl

theorem offerMount_motion (s : Station) : (offerMount s).motion = s.motion := by
  unfold offerMount
  split
  · exact offerControl_motion _ _ _ _
  · rfl

theorem reportAll_motion (s : Station) : (reportAll s).motion = s.motion := by
  have hr : ∀ (v : Station) (p : Nat), (reportRack v p).motion = v.motion := fun v p => offerControl_motion _ _ _ _
  have hf : ∀ (l : List Nat) (v : Station), (l.foldl reportRack v).motion = v.motion := by
    intro l
    induction l with
    | nil => intro v; rfl
    | cons a l ih => intro v; rw [List.foldl_cons, ih, hr]
  unfold reportAll
  split
  · exact hf _ _
  · rfl

/-- Entering ACTIVE mode enables the channels and does nothing else to the Motion Unit (R88). -/
theorem enterActive_motion (s : Station) : ∃ v : Station, v.motion = s.motion ∧ v.loader.image = s.loader.image ∧
    (enterActive s).motion = (enableChannels v).motion := by
  refine ⟨composeThermal (beginActive s), rfl, rfl, ?_⟩
  have he : enterActive s =
      modeEvent (reportAll (tidyMoment (offerMount (enableChannels (composeThermal (beginActive s)))) none)) := rfl
  rw [he]
  unfold modeEvent
  rw [giveEvent_motion, reportAll_motion, tidy_motion, offerMount_motion]

/-- Channels with no counted drive fault are enabled IDLE (R88). -/
theorem enableChannels_idle (s : Station) (ha : (ownOf s).axes ≠ []) (hf : ∀ ax, s.motion.fault.get ax = false) :
    (enableChannels s).motion.arm = ⟨.idle, [], none⟩ ∧ (enableChannels s).motion.head = ⟨.idle, [], none⟩ := by
  have h0 : ¬ (ownOf s).axes.length = 0 := by simpa using ha
  have h1 : ∀ (v : Station) c, v.motion.fault = s.motion.fault → channelFault v c = false := by
    intro v c hv
    unfold channelFault
    rw [hv]
    simp [hf]
  unfold enableChannels
  rw [if_neg h0]
  have h2 : enableChan s .arm = setChan s .arm ⟨.idle, [], none⟩ := by unfold enableChan; rw [h1 s .arm rfl]; rfl
  have h3 : enableChan (enableChan s .arm) .head = setChan (enableChan s .arm) .head ⟨.idle, [], none⟩ := by
    rw [h2]; unfold enableChan; rw [h1 (setChan s .arm ⟨.idle, [], none⟩) .head rfl]; rfl
  rw [h3, h2]
  exact ⟨rfl, rfl⟩

end Sys2Proof.Laws
end

