-- ==== Sys2Proof/Laws/Closing.lean ====
section
/-! SUPPORT. What the end of a window, a reset and a completed frame leave of the Line Port and the units (R7, R18 to R20, R175). -/

namespace Sys2Proof.Laws

open Sys2Proof.Machine

theorem enterShut_request (s : Station) (r : ShutReason) : (enterShut s r).request = RequestUnit.reset := rfl

theorem enterOut_request (s : Station) (c : OutCause) : (enterOut s c).request = RequestUnit.reset := by
  unfold enterOut; simp only; split <;> rfl

theorem restart_cases (s : Station) (c : ResetCause) : ∃ s', restart s c = sampleStraps s' ∧ s'.line = LinePort.reset ∧ s'.request = RequestUnit.reset := ⟨_, rfl, rfl, rfl⟩

theorem rack_locked (l : List RackPort) (h : l = rackReset ∨ l = rackReset.map (fun p => { p with lockDue := none })) : ∀ p ∈ l, p.lock = .locked := by
  rcases h with rfl | rfl <;> decide

theorem straps_pos (s : Station) (h : s.pins.straps % 16 = 0 ∨ s.pins.straps % 16 = 15) :
    sampleStraps s = enterShut { s with loader := { s.loader with mode := .loading, number := s.pins.straps % 16 } } .strap := if_pos h

theorem straps_neg (s : Station) (h : ¬ (s.pins.straps % 16 = 0 ∨ s.pins.straps % 16 = 15)) :
    sampleStraps s = { s with loader := { s.loader with mode := .loading, number := s.pins.straps % 16 } } := if_neg h

theorem requeueRelease_rest (lp : LinePort) (o : Outgoing) :
    (requeueRelease lp o).flight = lp.flight ∧ (requeueRelease lp o).retry = lp.retry ∧ (requeueRelease lp o).vetoLog = lp.vetoLog := by
  unfold requeueRelease
  split
  · exact ⟨rfl, rfl, rfl⟩
  · split <;> exact ⟨rfl, rfl, rfl⟩

theorem requeue_rest (lp : LinePort) :
    (requeue lp).flight = none ∧ (requeue lp).retry = lp.retry ∧ (requeue lp).vetoLog = lp.vetoLog := by
  unfold requeue
  split
  · rename_i h; exact ⟨h, rfl, rfl⟩
  · simp only
    split
    · split
      · obtain ⟨h1, h2, h3⟩ := requeueRelease_rest { lp with flight := none } (by assumption : Flight).item
        exact ⟨h1, h2, h3⟩
      · exact ⟨rfl, rfl, rfl⟩
    · unfold requeueThermal; split <;> exact ⟨rfl, rfl, rfl⟩
    · exact ⟨rfl, rfl, rfl⟩

theorem afterVeto_facts (lp : LinePort) : (afterVeto lp).control = lp.control ∧ (afterVeto lp).report = lp.report ∧ (afterVeto lp).thermal = lp.thermal ∧ (afterVeto lp).flight = lp.flight ∧ (afterVeto lp).retry = lp.retry ∧ (afterVeto lp).joinOffset = lp.joinOffset ∧ (afterVeto lp).waiting = lp.waiting ∧ (afterVeto lp).window = none ∧ (afterVeto lp).reserved = lp.reserved - windowReserves lp.window ∧ (afterVeto lp).vetoLog = (recordWindow lp (checkVetoed lp.window)).vetoLog := by
  unfold afterVeto; rw [recordWindow_eq]; generalize (recordWindow lp (checkVetoed lp.window)).vetoLog = l; exact ⟨rfl, rfl, rfl, rfl, rfl, rfl, rfl, rfl, rfl, rfl⟩

theorem requeueRelease_more (lp : LinePort) (o : Outgoing) :
    (requeueRelease lp o).window = lp.window ∧ (requeueRelease lp o).reserved = lp.reserved ∧ (requeueRelease lp o).joinOffset = lp.joinOffset ∧ (requeueRelease lp o).waiting = lp.waiting := by
  unfold requeueRelease
  split
  · exact ⟨rfl, rfl, rfl, rfl⟩
  · split <;> exact ⟨rfl, rfl, rfl, rfl⟩

theorem requeue_more (lp : LinePort) :
    (requeue lp).window = lp.window ∧ (requeue lp).reserved = lp.reserved ∧ (requeue lp).joinOffset = lp.joinOffset ∧ (requeue lp).waiting = lp.waiting := by
  unfold requeue
  split
  · exact ⟨rfl, rfl, rfl, rfl⟩
  · simp only
    split
    · split
      · obtain ⟨h1, h2, h3⟩ := requeueRelease_more { lp with flight := none } (by assumption : Flight).item
        exact ⟨h1, h2, h3⟩
      · exact ⟨rfl, rfl, rfl, rfl⟩
    · unfold requeueThermal; split <;> exact ⟨rfl, rfl, rfl, rfl⟩
    · exact ⟨rfl, rfl, rfl, rfl⟩

theorem vetoCount_log {a b : LinePort} (h : a.vetoLog = b.vetoLog) : vetoCount a = vetoCount b := by unfold vetoCount; rw [h]

theorem closeVetoed_log (s : Station) : (closeVetoed s).line.vetoLog = (recordWindow s.line (checkVetoed s.line.window)).vetoLog := by
  obtain ⟨_, _, _, _, _, _, _, _, _, h⟩ := afterVeto_facts s.line
  unfold closeVetoed
  split
  · exact ((requeue_rest _).2.2).trans h
  · exact h

theorem zones_formed (c : CellPart) (fp : Print) (mask : StationMask) (z : Nat) (hz : z < 32) : zoneEntry (formedReplica c fp mask) z =
    if isHome c z then ⟨.held (zoneCfg c z).owner, 0⟩ else ⟨.free, 0⟩ := by
  simp [zoneEntry, formedReplica, formedZones, hz]

theorem homes_formed (c : CellPart) (fp : Print) (mask : StationMask) : HomesHeld c (formedReplica c fp mask) := by
  refine ⟨by simp [formedReplica, formedZones], fun z hz hi => ?_⟩
  rw [zones_formed c fp mask z hz, hi]; rfl

theorem rel_noans (s : Station) (f : Frame) (h : ∀ a, f.body ≠ .answer a) : Released s (releaseOwn s f) := by
  apply releaseOwn_released
  unfold answersRestart
  split
  · rename_i a hb; exact absurd hb (h a)
  · rfl

theorem roster_formed (c : CellPart) (fp : Print) (mask : StationMask) (k : Nat) (h1 : 1 ≤ k) (h2 : k ≤ 14) : (rosterEntry (formedReplica c fp mask) k).state = if inMask mask k then .active else .unseen := by
  unfold rosterEntry formedReplica
  simp only
  rw [at1_map1 _ _ _ _ h1 (by simpa using h2)]

theorem offerJoin_facts (v : Station) :
    (offerJoin v).loader = v.loader ∧ (offerJoin v).replica.tables = v.replica.tables ∧ (offerJoin v).line.lineCount = v.line.lineCount ∧
    (offerJoin v).replica.joinNumber = nextJoin v.replica.joinNumber := by
  unfold offerJoin
  simp only
  have w := (withdrawWaiting_works { v with replica := { v.replica with
    joinNumber := nextJoin v.replica.joinNumber, joinDone := false, catchUp := [], service := none, pendingRep := none, abandoned := false } } (fun w => w.src == .joining)).trans
    (offerControl_works _ .joining 0 (.join v.loader.fingerprint v.loader.cause (nextJoin v.replica.joinNumber)) rfl rfl)
  exact ⟨w.loader, by rw [w.replica], w.line.lineCount, by rw [w.replica]⟩

theorem enterShut_mode (s : Station) (r) : (enterShut s r).loader.mode = .shut ∧ (enterShut s r).loader.shutReason = some r := ⟨rfl, rfl⟩

theorem sender_range {c : CellPart} {f : Frame} (hg : formatGood c f = true) : 1 ≤ f.h.sender ∧ f.h.sender ≤ 14 := by
  simp only [formatGood, Bool.and_eq_true, stationNumber, decide_eq_true_eq] at hg
  exact ⟨hg.1.1.1.1, hg.1.1.1.2⟩

structure Plain (s u : Station) : Prop where
  lineCount : u.line.lineCount = s.line.lineCount.map (· + 1)
  window : u.line.window = none
  tabs : tabs u = tabs s
  loader : u.loader = s.loader
  motion : u.motion = s.motion
  request : u.request = s.request
  flight : u.line.flight = s.line.flight
  retry : u.line.retry = s.line.retry
  report : u.line.report = s.line.report
  control : u.line.control = s.line.control
  reserved : u.line.reserved = s.line.reserved
  pins : u.pins = s.pins
  now : u.now = s.now
  touch : u.touch = s.touch

theorem plain_count (s : Station) (f : Frame) (hj : ∀ fp c j, f.body ≠ .join fp c j) : Plain s (takeCount (closeClean s) f) := by
  obtain ⟨l, hl⟩ : ∃ l, closeClean s = { s with line := { s.line with vetoLog := l, window := none } } := ⟨_, closeClean_eq s⟩
  rw [hl]
  have ho : ∀ u, isOwnJoin u f = false := by
    intro u
    unfold isOwnJoin
    split
    · rename_i hb; exact absurd hb (hj _ _ _)
    · simp
  unfold takeCount
  simp only [ho, Bool.false_eq_true, if_false]
  unfold noteCell
  split <;> exact ⟨rfl, rfl, rfl, rfl, rfl, rfl, rfl, rfl, rfl, rfl, rfl, rfl, rfl, rfl⟩

theorem completeFrame_listening {s : Station} {f : Frame} (h1 : listening s = true) (h2 : vetoedHere s = false) (h3 : formatGood (cellOf s) f = true) :
    completeFrame s f = releaseOwn (handOn (takeCount (closeClean s) f) s.line.window f) f := by
  unfold completeFrame
  simp [h1, h2, h3]

theorem listening_cases {s : Station} (h : listening s = true) : joiningMode s = true ∨ (joiningMode s = false ∧ serving s = true) := by
  cases hm : s.loader.mode <;> simp_all [listening, joiningMode, serving]

theorem handOn_plain (u : Station) (w : Option Window) (f : Frame) (hb : (∃ a, f.body = .answer a) ∨ (∃ e, f.body = .event e)) : handOn u w f = u := by
  have hp : passesRoster f.body = false := by rcases hb with ⟨a, h⟩ | ⟨a, h⟩ <;> rw [h] <;> rfl
  have hk : keepFrame u f = u := by unfold keepFrame; rw [hp]; simp
  unfold handOn
  rcases hb with ⟨a, h⟩ | ⟨a, h⟩
  · simp only [h]
    split
    · rw [hk]; unfold takeJoining; rw [h]
    · rw [h] at hp; rw [hp]; simp
  · simp only [h]
    split
    · rw [hk]; unfold takeJoining; rw [h]
    · rw [h] at hp; rw [hp]; simp

theorem removeCompleted_facts (lp : LinePort) (v : Flight) (h : lp.flight = some v) : (removeCompleted lp).flight = none ∧ (removeCompleted lp).retry = 0 ∧ (removeCompleted lp).lineCount = lp.lineCount ∧ (removeCompleted lp).window = lp.window ∧ (removeCompleted lp).reserved = lp.reserved := by
  unfold removeCompleted
  rw [h]
  simp only
  split
  · exact ⟨rfl, rfl, rfl, rfl, rfl⟩
  · exact ⟨rfl, rfl, rfl, rfl, rfl⟩
  · rw [updateDrain_eq]
    split <;> exact ⟨rfl, rfl, rfl, rfl, rfl⟩

theorem ownFlight_plain {s u : Station} (f : Frame) (h : Plain s u) : ownFlight u f = ownFlight s f := by
  unfold ownFlight me
  rw [h.loader, h.flight]

theorem ownFlight_some {s : Station} {f : Frame} (h : ownFlight s f = true) : ∃ v, s.line.flight = some v := by
  unfold ownFlight at h
  cases hv : s.line.flight with
  | none => rw [hv] at h; simp at h
  | some v => exact ⟨v, rfl⟩

theorem restart_facts (s : Station) (c : ResetCause) : (restart s c).loader.cause = c ∧ (restart s c).line = LinePort.reset ∧ (restart s c).replica = ReplicaUnit.reset ∧
    (restart s c).motion.enc = s.motion.enc ∧ (restart s c).motion.homed = s.motion.homed ∧ (restart s c).loader.outRecord = s.loader.outRecord ∧ (restart s c).loader.number = s.pins.straps % 16 := by
  unfold restart sampleStraps
  simp only
  split
  · refine ⟨rfl, ?_, rfl, rfl, rfl, rfl, rfl⟩
    rfl
  · exact ⟨rfl, rfl, rfl, rfl, rfl, rfl, rfl⟩

theorem answersRestart_plain {s u : Station} (b : Body) (h : u.request = s.request) : answersRestart u b = answersRestart s b := by
  unfold answersRestart; rw [h]

end Sys2Proof.Laws
end

