-- ==== Sys2Proof/Laws/Codec.lean ====
section
/-! SUPPORT. Fields, bodies and headers read back as they were written (11.1, 11.2, 11.4, R176, R178). `Reads r b v`: the reader `r`
takes exactly the bytes `b` and gives `v`, whatever follows them. -/

namespace Sys2Proof.Laws

open Sys2Proof.Machine

def Reads {α : Type} (r : Rd α) (b : List Byte) (v : α) : Prop := ∀ tail, r (b ++ tail) = some (v, tail)

/-- The reader takes every byte there is and gives `v`. -/
def ReadsAll {α : Type} (r : Rd α) (b : List Byte) (v : α) : Prop := r b = some (v, [])

theorem Reads.all {α : Type} {r : Rd α} {b : List Byte} {v : α} (h : Reads r b v) : ReadsAll r b v := by
  have := h []
  rwa [List.append_nil] at this

theorem reads_pure {α : Type} (v : α) : Reads (pure v) [] v := fun _ => rfl

theorem readsAll_pure {α : Type} (v : α) : ReadsAll (pure v) [] v := rfl

theorem Reads.bind {α β : Type} {r : Rd α} {f : α → Rd β} {b c : List Byte} {v : α} {w : β} (h : Reads r b v)
    (k : Reads (f v) c w) : Reads (r >>= f) (b ++ c) w := by
  intro tail
  show (r (b ++ c ++ tail)).bind (fun p => f p.1 p.2) = _
  rw [List.append_assoc, h]
  exact k tail

/-- The last reading of a chain, with the value built from it. -/
theorem Reads.last {α β : Type} {r : Rd α} {f : α → Rd β} {b : List Byte} {v : α} {w : β} (h : Reads r b v)
    (k : Reads (f v) [] w) : Reads (r >>= f) b w := by
  have := h.bind k
  rwa [List.append_nil] at this

theorem Reads.bindAll {α β : Type} {r : Rd α} {f : α → Rd β} {b c : List Byte} {v : α} {w : β} (h : Reads r b v)
    (k : ReadsAll (f v) c w) : ReadsAll (r >>= f) (b ++ c) w := by
  show (r (b ++ c)).bind (fun p => f p.1 p.2) = _
  rw [h]
  exact k

theorem ReadsAll.last {α β : Type} {r : Rd α} {f : α → Rd β} {b : List Byte} {v : α} {w : β} (h : ReadsAll r b v)
    (k : ReadsAll (f v) [] w) : ReadsAll (r >>= f) b w := by
  show (r b).bind (fun p => f p.1 p.2) = _
  rw [show r b = some (v, []) from h]
  exact k

/-! ### Numbers -/

theorem natFits_lt {k n : Nat} (h : natFits k n = true) : n < 256 ^ k := by simpa [natFits] using h

theorem getByte_reads (b : Byte) : Reads getByte [b] b := fun _ => rfl

theorem getNatFrom_reads (k acc n : Nat) (h : n < 256 ^ k) : Reads (getNatFrom k acc) (putNat k n) (acc * 256 ^ k + n) := by
  induction k generalizing acc n with
  | zero =>
    have : n = 0 := by simpa using h
    subst this
    rw [show acc * 256 ^ 0 + 0 = acc by simp]
    exact reads_pure acc
  | succ k ih =>
    have hd : n / 256 ^ k < 256 := by
      rw [Nat.div_lt_iff_lt_mul (by positivity)]
      rw [Nat.pow_succ, Nat.mul_comm] at h
      exact h
    have hm : n % 256 ^ k < 256 ^ k := Nat.mod_lt _ (by positivity)
    have hput : putNat k n = putNat k (n % 256 ^ k) := by
      clear ih h hd hm
      have aux : ∀ j a b, j ≤ k → a % 256 ^ k = b % 256 ^ k → putNat j a = putNat j b := by
        intro j
        induction j with
        | zero => intros; rfl
        | succ j ih =>
          intro a b hj hab
          simp only [putNat]
          rw [ih a b (by omega) hab]
          have e : ∀ x : Nat, x / 256 ^ j % 256 = (x % 256 ^ k) / 256 ^ j % 256 := by
            intro x
            obtain ⟨d, rfl⟩ : ∃ d, k = j + 1 + d := ⟨k - (j + 1), by omega⟩
            have h1 : x % 256 ^ (j + 1) / 256 ^ j = x / 256 ^ j % 256 := by
              rw [Nat.pow_succ, Nat.mod_mul_right_div_self]
            have h2 : x % 256 ^ (j + 1 + d) % 256 ^ (j + 1) = x % 256 ^ (j + 1) :=
              Nat.mod_mod_of_dvd _ ⟨256 ^ d, by rw [Nat.pow_add]⟩
            have h3 : (x % 256 ^ (j + 1 + d)) % 256 ^ (j + 1) / 256 ^ j = (x % 256 ^ (j + 1 + d)) / 256 ^ j % 256 := by
              rw [Nat.pow_succ 256 j, Nat.mod_mul_right_div_self]
            rw [← h1, ← h2, h3]
          have : BitVec.ofNat 8 (a / 256 ^ j) = BitVec.ofNat 8 (b / 256 ^ j) := by
            apply BitVec.eq_of_toNat_eq
            simp only [BitVec.toNat_ofNat]
            show a / 256 ^ j % 256 = b / 256 ^ j % 256
            rw [e a, e b, hab]
          rw [this]
      exact aux k n (n % 256 ^ k) (Nat.le_refl _) (by simp)
    have step := ih (acc * 256 + n / 256 ^ k) (n % 256 ^ k) hm
    rw [← hput] at step
    have hv : (acc * 256 + n / 256 ^ k) * 256 ^ k + n % 256 ^ k = acc * 256 ^ (k + 1) + n := by
      rw [Nat.add_mul, Nat.pow_succ, Nat.mul_assoc, Nat.mul_comm 256 (256 ^ k), Nat.add_assoc, Nat.mul_comm (n / 256 ^ k),
        Nat.div_add_mod]
    rw [hv] at step
    show Reads (getByte >>= fun b => getNatFrom k (acc * 256 + b.toNat)) ([BitVec.ofNat 8 (n / 256 ^ k)] ++ putNat k n) _
    refine (getByte_reads _).bind ?_
    have hb : (BitVec.ofNat 8 (n / 256 ^ k)).toNat = n / 256 ^ k := by
      rw [BitVec.toNat_ofNat]; exact Nat.mod_eq_of_lt hd
    rw [hb]
    exact step

theorem getNat_reads (k n : Nat) (h : n < 256 ^ k) : Reads (getNat k) (putNat k n) n := by
  have := getNatFrom_reads k 0 n h
  rwa [Nat.zero_mul, Nat.zero_add] at this

theorem getNat_fits {k n : Nat} (h : natFits k n = true) : Reads (getNat k) (putNat k n) n := getNat_reads k n (natFits_lt h)

theorem signedOf_mod (k : Nat) (v : Int) (h : intFits k v = true) : signedOf k (v % (256 ^ k : Nat)).toNat = v := by
  simp only [intFits, Bool.and_eq_true, decide_eq_true_eq] at h
  have hp : (0 : Int) < (256 ^ k : Nat) := by positivity
  generalize hP : 256 ^ k = P at *
  unfold signedOf
  rw [hP]
  by_cases hv : 0 ≤ v
  · have e : v % (P : Int) = v := Int.emod_eq_of_lt hv (by omega)
    rw [e]
    split <;> omega
  · have e : v % (P : Int) = v + P := by
      rw [← Int.add_emod_right, Int.emod_eq_of_lt (by omega) (by omega)]
    rw [e]
    split <;> omega

theorem getInt_fits {k : Nat} {v : Int} (h : intFits k v = true) : Reads (getInt k) (putInt k v) v := by
  have hp : (0 : Int) < (256 ^ k : Nat) := by positivity
  have hlt : (v % (256 ^ k : Nat)).toNat < 256 ^ k := by
    have h1 := Int.emod_nonneg v (ne_of_gt hp)
    have h2 := Int.emod_lt_of_pos v hp
    omega
  have h1 := getNat_reads k _ hlt
  have h2 : Reads (pure (signedOf k (v % (256 ^ k : Nat)).toNat) : Rd Int) [] v := by
    rw [signedOf_mod k v h]; exact reads_pure v
  exact h1.last h2

theorem getVec_fits {v : Vec3} (h : vecFits 4 v = true) : Reads getVec (putVec v) v := by
  simp only [vecFits, Bool.and_eq_true] at h
  exact (getInt_fits h.1.1).bind ((getInt_fits h.1.2).bind ((getInt_fits h.2).last (reads_pure _)))

theorem getWord_reads (c : Code) : Reads getWord (putNat 2 c.toNat) c := by
  refine (getNat_reads 2 _ (by have := c.isLt; omega)).last ?_
  simp only [BitVec.ofNat_toNat, BitVec.setWidth_eq]
  exact reads_pure c

theorem getPrint_reads (p : Print) : Reads getPrint (putPrint p) p := by
  refine (getNat_reads 4 _ (by have := p.isLt; omega)).last ?_
  simp only [BitVec.ofNat_toNat, BitVec.setWidth_eq]
  exact reads_pure p

theorem getEnum_reads {α : Type} (f : Nat → Option α) (n : Nat) (v : α) (hn : n < 256) (hf : f n = some v) :
    Reads (getEnum f) (putNat 1 n) v := by
  intro tail
  unfold getEnum
  rw [getNat_reads 1 n hn tail]
  simp only [hf]

theorem getFlag_reads (b : Bool) : Reads getFlag (putFlag b) b := by
  cases b <;> exact getEnum_reads _ _ _ (by decide) rfl

theorem getTemp_fits {t : Option Int} (h : tempFits t = true) : Reads getTemp (putTemp t) t := by
  unfold putTemp
  cases t with
  | none => exact (getInt_fits (v := -32768) (by decide)).last (reads_pure _)
  | some v =>
    simp only [tempFits, Bool.and_eq_true, bne_iff_ne, ne_eq] at h
    refine (getInt_fits h.1).last ?_
    rw [if_neg h.2]
    exact reads_pure _

theorem getCode_reads (c : Option Code) : Reads getCode (putCode c) c := by
  unfold putCode
  refine (getFlag_reads _).bind ((getWord_reads _).last ?_)
  cases c <;> exact reads_pure _

/-! ### Enumerations -/

theorem getCause_reads (c : ResetCause) : Reads getCause (putNat 1 (causeCode c)) c := by
  cases c <;> exact getEnum_reads _ _ _ (by decide) rfl
theorem getPrio_reads (c : Prio) : Reads getPrio (putNat 1 (prioCode c)) c := by
  cases c <;> exact getEnum_reads _ _ _ (by decide) rfl
theorem getPurpose_reads (c : Purpose) : Reads getPurpose (putNat 1 (purposeCode c)) c := by
  cases c <;> exact getEnum_reads _ _ _ (by decide) rfl
theorem getSnapPurpose_reads (c : SnapPurpose) : Reads (getEnum snapPurposeOf) (putNat 1 (snapPurposeCode c)) c := by
  cases c <;> exact getEnum_reads _ _ _ (by decide) rfl
theorem getPresence_reads (c : Presence) : Reads (getEnum presenceOf) (putNat 1 (presenceCode c)) c := by
  cases c <;> exact getEnum_reads _ _ _ (by decide) rfl
theorem getLock_reads (c : Lock) : Reads getLock (putNat 1 (lockCode c)) c := by
  cases c <;> exact getEnum_reads _ _ _ (by decide) rfl
theorem getThermState_reads (c : ThermState) : Reads (getEnum thermStateOf) (putNat 1 (thermStateCode c)) c := by
  cases c <;> exact getEnum_reads _ _ _ (by decide) rfl
theorem getThermKind_reads (c : ThermKind) : Reads (getEnum thermKindOf) (putNat 1 (thermKindCode c)) c := by
  cases c <;> exact getEnum_reads _ _ _ (by decide) rfl
theorem getRosterState_reads (c : RosterState) : Reads (getEnum rosterStateOf) (putNat 1 (rosterStateCode c)) c := by
  cases c <;> exact getEnum_reads _ _ _ (by decide) rfl
theorem getCondition_reads (c : Condition) : Reads (getEnum conditionOf) (putNat 1 (conditionCode c)) c := by
  cases c <;> exact getEnum_reads _ _ _ (by decide) rfl
theorem getRole_reads (c : Role) : Reads (getEnum roleOf) (putNat 1 (roleCode c)) c := by
  cases c <;> exact getEnum_reads _ _ _ (by decide) rfl
theorem getMaybeCause_reads (c : Option ResetCause) : Reads (getEnum maybeCauseOf) (putNat 1 (maybeCauseCode c)) c := by
  rcases c with _ | c
  · exact getEnum_reads _ _ _ (by decide) rfl
  · cases c <;> exact getEnum_reads _ _ _ (by decide) rfl

theorem getVerdict_reads (b : Bool) : Reads (getEnum verdictOf) (putNat 1 (if b then 0 else 1)) b := by
  cases b <;> exact getEnum_reads _ _ _ (by decide) rfl

theorem custody_bounds {c : Custody} (h : custodyGood c = true) :
    custodyValue c < 256 ∧ custodyOf (custodyCode c) (custodyValue c) = some c := by
  cases c <;> simp only [custodyGood, portNumber, stationNumber, Bool.and_eq_true, decide_eq_true_eq] at h
  · exact ⟨by simp only [custodyValue]; omega, if_pos h⟩
  · exact ⟨by simp only [custodyValue]; omega, if_pos h⟩
  · exact ⟨by simp only [custodyValue]; omega, if_pos h⟩
  · exact ⟨by decide, rfl⟩

theorem getCustody_reads {c : Custody} (h : custodyGood c = true) :
    Reads getCustody (putNat 1 (custodyCode c) ++ putNat 1 (custodyValue c)) c := by
  obtain ⟨hv, hc⟩ := custody_bounds h
  intro tail
  unfold getCustody
  rw [List.append_assoc, getNat_reads 1 (custodyCode c) (by cases c <;> simp [custodyCode])]
  exact getEnum_reads _ _ _ hv hc tail

/-! ### Tip records -/

theorem tipKey_parts {t : Tip} (h : tipFits t = true) :
    tipKey t < 256 ^ 2 ∧ tipKey t / 8192 = t.tip ∧ tipKey t / 512 % 16 = t.a ∧ ((tipKey t / 8 % 64 : Nat) : Int) - 24 = t.b ∧
      (tipKey t % 2 == 1) = t.stale := by
  simp only [tipFits, Bool.and_eq_true, decide_eq_true_eq] at h
  obtain ⟨⟨⟨⟨⟨h1, h2⟩, h3⟩, h4⟩, _⟩, _⟩ := h
  obtain ⟨n, hn⟩ : ∃ n : Nat, t.b + 24 = n := ⟨(t.b + 24).toNat, by omega⟩
  have hb : t.b = n - 24 := by omega
  have hn2 : n ≤ 63 := by omega
  have key : ∀ d, d ≤ 1 → t.tip * 8192 + t.a * 512 + n * 8 + d < 256 ^ 2 ∧ (t.tip * 8192 + t.a * 512 + n * 8 + d) / 8192 = t.tip ∧
      (t.tip * 8192 + t.a * 512 + n * 8 + d) / 512 % 16 = t.a ∧ (t.tip * 8192 + t.a * 512 + n * 8 + d) / 8 % 64 = n ∧
      (t.tip * 8192 + t.a * 512 + n * 8 + d) % 2 = d := by
    intro d hd
    refine ⟨by omega, by omega, by omega, by omega, by omega⟩
  unfold tipKey
  rw [hn]
  simp only [Int.toNat_natCast]
  cases hs : t.stale
  · obtain ⟨k1, k2, k3, k4, k5⟩ := key 0 (by omega)
    simp only [Bool.false_eq_true, if_false]
    refine ⟨k1, k2, k3, ?_, ?_⟩
    · rw [k4]; omega
    · rw [k5]; rfl
  · obtain ⟨k1, k2, k3, k4, k5⟩ := key 1 (by omega)
    simp only [if_true]
    refine ⟨k1, k2, k3, ?_, ?_⟩
    · rw [k4]; omega
    · rw [k5]; rfl

theorem getTipRaw_fits {t : Tip} (h : tipFits t = true) : Reads getTipRaw (putTip t) t := by
  obtain ⟨k1, k2, k3, k4, k5⟩ := tipKey_parts h
  simp only [tipFits, Bool.and_eq_true] at h
  refine (getNat_reads 2 _ k1).bind ((getVec_fits h.1.2).bind ((getNat_fits h.2).last ?_))
  rw [k2, k3, k4, k5]
  exact reads_pure _

theorem slotOf_good {t : Tip} (h : tipGood t = true) : slotOf t = some (some t) := by
  simp only [tipGood, Bool.and_eq_true, decide_eq_true_eq] at h
  have h0 : t.tip ≠ 0 := by omega
  simp [slotOf, h.2, h0, h.1.2]

theorem getSlot_reads {o : Option Tip} (hf : slotFits o = true) (hg : slotGood o = true) : Reads getSlot (putSlot o) o := by
  intro tail
  unfold getSlot
  cases o with
  | none =>
    have e : putSlot none = putTip ⟨0, 0, -24, ⟨0, 0, 0⟩, 0, false⟩ := by decide
    rw [e, getTipRaw_fits (by decide) tail]
    rfl
  | some t =>
    show (match getTipRaw (putTip t ++ tail) with
      | none => none
      | some (t, r) => match slotOf t with
        | none => none
        | some o => some (o, r)) = _
    rw [getTipRaw_fits hf tail]
    simp only [slotOf_good hg]

/-! ### Records of bodies -/

theorem getTherm_reads {e : ThermEntry} (hi : e.input < 256) (hv : intFits 2 e.value = true) : Reads getTherm (putTherm e) e :=
  (getNat_reads 1 _ hi).bind ((getThermKind_reads _).bind ((getInt_fits hv).bind ((getThermState_reads _).last (reads_pure _))))

theorem getMany_reads {α : Type} {r : Rd α} {put : α → List Byte} (l : List α) (h : ∀ v ∈ l, Reads r (put v) v) :
    Reads (getMany r l.length) (l.flatMap put) l := by
  induction l with
  | nil => exact reads_pure _
  | cons v l ih =>
    rw [List.flatMap_cons]
    exact (h v (by simp)).bind ((ih fun w hw => h w (List.mem_cons_of_mem _ hw)).last (reads_pure _))

theorem flagsOf_flagsNat (f : PointFlags) : flagsNat f < 256 ∧ flagsOf (flagsNat f) = f := by
  obtain ⟨a, b, c, d, e, g⟩ := f
  revert a b c d e g
  decide

end Sys2Proof.Laws
end

