-- ==== Sys2Proof/Laws/CodecBodies.lean ====
section
/-! SUPPORT. Every body and every header reads back as it was written (11.1, 11.4). -/

namespace Sys2Proof.Laws

open Sys2Proof.Machine

/-! ### Lengths -/

theorem putNat_length (k n : Nat) : (putNat k n).length = k := by
  induction k with
  | zero => rfl
  | succ k ih => simp [putNat, ih]

theorem putInt_length (k : Nat) (v : Int) : (putInt k v).length = k := putNat_length _ _
theorem putFlag_length (b : Bool) : (putFlag b).length = 1 := putNat_length _ _
theorem putTemp_length (t : Option Int) : (putTemp t).length = 2 := putNat_length _ _
theorem putVec_length (v : Vec3) : (putVec v).length = 12 := by simp [putVec, putInt_length]
theorem putCode_length (c : Option Code) : (putCode c).length = 3 := by simp [putCode, putFlag_length, putNat_length]
theorem putPrint_length (p : Print) : (putPrint p).length = 4 := putNat_length _ _
theorem putTip_length (t : Tip) : (putTip t).length = 16 := by simp [putTip, putVec_length, putNat_length]
theorem putSlot_length (o : Option Tip) : (putSlot o).length = 16 := by
  cases o
  · rfl
  · exact putTip_length _
theorem putTherm_length (e : ThermEntry) : (putTherm e).length = 5 := by simp [putTherm, putNat_length, putInt_length]

theorem thermList_length (es : List ThermEntry) : (es.flatMap putTherm).length = 5 * es.length := by
  induction es with
  | nil => rfl
  | cons e r ih => simp only [List.flatMap_cons, List.length_append, List.length_cons, putTherm_length, ih]; omega

theorem putContent_length (c : SnapContent) : (putContent c).length ≤ 56 := by
  cases c <;> simp [putContent, putNat_length, putInt_length, putFlag_length, putTemp_length, putCode_length, putPrint_length, putSlot_length]

/-- A body of a well-formed frame has 60 bytes at the most (11.1). -/
theorem putBody_length {c : CellPart} {b : Body} (h : bodyGood c b = true) : (putBody b).length ≤ 60 := by
  cases b
  case snapEntry jn k =>
    have := putContent_length k
    simp only [putBody, List.length_append, putNat_length]
    omega
  case thermal es =>
    simp only [bodyGood, Bool.and_eq_true, decide_eq_true_eq] at h
    simp only [putBody, thermList_length]
    omega
  case request tag r =>
    cases r
    case unknown code args =>
      simp only [bodyGood, Bool.and_eq_true, decide_eq_true_eq] at h
      simp only [putBody, putArgs, List.length_append, putNat_length]
      omega
    all_goals simp [putBody, putArgs, putNat_length, putInt_length, putVec_length, putTip_length]
  case answer a =>
    simp only [bodyGood, List.contains_eq_mem, List.mem_cons, List.not_mem_nil, or_false, decide_eq_true_eq] at h
    simp only [putBody, putAnswer, List.length_append, putNat_length]
    omega
  case event e => simp [putBody, putEvent, putNat_length, putFlag_length]
  case point p => simp [putBody, putPoint, putNat_length, putInt_length, putVec_length, putTemp_length]
  all_goals simp [putBody, putNat_length, putInt_length, putFlag_length, putCode_length, putPrint_length, putTip_length]

/-! ### Records -/

theorem getPoint_reads {p : PointBody} (hb : p.probe < 256) (ht : p.tip < 256) (ha : p.a < 256) (hbb : intFits 1 p.b = true)
    (h : bodyFits (.point p) = true) : Reads getPointBody (putPoint p) p := by
  simp only [bodyFits, vecFits, Bool.and_eq_true] at h
  obtain ⟨⟨⟨⟨⟨⟨⟨⟨h1, h2⟩, h3⟩, h4⟩, h5⟩, h6⟩, h7⟩, h8⟩, h9⟩ := h
  refine (getNat_fits h1).bind ((getWord_reads _).bind ((getNat_reads 1 _ hb).bind ((getNat_reads 1 _ ht).bind ((getNat_reads 1 _ ha).bind
    ((getInt_fits hbb).bind ((getNat_fits h2).bind ((getVec_fits (by simpa only [vecFits, Bool.and_eq_true] using h3)).bind
    ((getInt_fits h4.1.1).bind ((getInt_fits h4.1.2).bind ((getInt_fits h4.2).bind ((getNat_fits h5).bind ((getTemp_fits h6).bind
    ((getTemp_fits h7).bind ((getTemp_fits h8).bind ((getTemp_fits h9).bind ((getNat_reads 1 _ (flagsOf_flagsNat _).1).last ?_))))))))))))))))
  rw [(flagsOf_flagsNat _).2]
  exact reads_pure _

theorem getEvent_reads {e : EventBody} (hk : e.kind < 256) (h : bodyFits (.event e) = true) : Reads getEvent (putEvent e) e := by
  simp only [bodyFits, Bool.and_eq_true] at h
  obtain ⟨⟨⟨⟨⟨⟨⟨h1, h2⟩, h3⟩, h4⟩, h5⟩, h6⟩, h7⟩, h8⟩ := h
  refine (getNat_fits h1).bind ((getNat_reads 1 _ hk).bind ((getNat_fits h2).bind ((getNat_fits h3).bind
    ((getFlag_reads _).bind ((getWord_reads _).bind ((getNat_fits h4).bind
    ((getNat_fits h5).bind ((getNat_fits h6).bind ((getNat_fits h7).bind ((getNat_fits h8).last (reads_pure _)))))))))))

theorem getAnswer_reads {a : AnswerBody} (h : bodyFits (.answer a) = true) : ReadsAll getAnswer (putAnswer a) a := by
  simp only [bodyFits, Bool.and_eq_true] at h
  exact (getWord_reads _).bindAll ((getNat_fits h.1.1).bindAll ((getVerdict_reads _).bindAll ((getNat_fits h.1.2).bindAll
    ((getNat_fits h.2).bindAll (ReadsAll.last (r := getRest) (rfl : ReadsAll getRest a.page a.page) (readsAll_pure _))))))

/-! ### Requests -/

theorem getArgs_reads {r : ReqBody} (h : argsFit r = true)
    (hu : ∀ code args, r = .unknown code args → code = 0 ∨ 13 ≤ code) : ReadsAll (getArgs (ReqBody.code r)) (putArgs r) r := by
  cases r <;> simp only [argsFit, vecFits, Bool.and_eq_true] at h
  case move t speed recovery =>
    exact Reads.all ((getVec_fits (by simpa only [vecFits, Bool.and_eq_true] using h.1.1)).bind ((getNat_fits h.1.2).bind
      ((getNat_fits h.2).last (reads_pure _))))
  case touch t =>
    obtain ⟨⟨⟨⟨⟨h1, h2⟩, h3⟩, h4⟩, h5⟩, h6⟩ := h
    exact Reads.all ((getVec_fits (by simpa only [vecFits, Bool.and_eq_true] using h1)).bind ((getInt_fits h2.1.1).bind
      ((getInt_fits h2.1.2).bind ((getInt_fits h2.2).bind ((getNat_fits h3).bind ((getNat_fits h4).bind ((getNat_fits h5).bind
      ((getNat_fits h6).last (reads_pure _)))))))))
  case home => exact Reads.all ((getNat_fits h).last (reads_pure _))
  case index => exact Reads.all ((getNat_fits h.1).bind ((getInt_fits h.2).last (reads_pure _)))
  case halt => exact Reads.all ((getNat_fits h).last (reads_pure _))
  case clear => exact Reads.all ((getNat_fits h).last (reads_pure _))
  case change => exact Reads.all ((getNat_fits h).last (reads_pure _))
  case qualify =>
    exact Reads.all ((getNat_fits h.1.1.1).bind ((getNat_fits h.1.1.2).bind ((getNat_fits h.1.2).bind
      ((getTipRaw_fits h.2).last (reads_pure _)))))
  case park => exact readsAll_pure _
  case unpark => exact readsAll_pure _
  case status => exact Reads.all ((getNat_fits h).last (reads_pure _))
  case restart => exact Reads.all ((getNat_fits h).last (reads_pure _))
  case unknown code args =>
    have hc := hu code args rfl
    have e : getArgs code = (do let args ← getRest; pure (.unknown code args)) := by
      unfold getArgs
      split <;> first | rfl | omega
    show ReadsAll (getArgs code) args _
    rw [e]
    exact ReadsAll.last (r := getRest) (rfl : ReadsAll getRest args args) (readsAll_pure _)

/-! ### Snapshot entries -/

theorem content_key_fits {c : SnapContent} (h : contentGood c = true) :
    (SnapContent.key c).1 < 256 ∧ (SnapContent.key c).2.1 < 256 ∧ (SnapContent.key c).2.2 < 256 := by
  cases c <;> simp only [contentGood, SnapContent.key, stationNumber, portNumber, probeNumber, Bool.and_eq_true, Bool.or_eq_true,
    decide_eq_true_eq, beq_iff_eq] at h ⊢ <;> omega

theorem getContent_reads {c : SnapContent} (hg : contentGood c = true) (h : contentFits c = true) :
    Reads (getContent (SnapContent.key c).1 (SnapContent.key c).2.1 (SnapContent.key c).2.2) (putContent c) c := by
  cases c
  case roster k role e heard =>
    obtain ⟨st, cause, homed, parked, serving, stamp, mark⟩ := e
    simp only [contentFits, Bool.and_eq_true, Bool.not_eq_true'] at h
    obtain ⟨⟨⟨h1, h2⟩, h3⟩, h4⟩ := h
    have hs : ((serving.getD (0, 0)).1 < 256 ∧ (serving.getD (0, 0)).2 < 256) ∧
        (if (serving.getD (0, 0)).1 = 0 then none else some ((serving.getD (0, 0)).1, (serving.getD (0, 0)).2)) = serving := by
      cases serving with
      | none => exact ⟨by decide, rfl⟩
      | some v =>
        obtain ⟨a, b⟩ := v
        simp only [Bool.and_eq_true, bne_iff_ne, ne_eq] at h4
        exact ⟨⟨natFits_lt h4.1.2, natFits_lt h4.2⟩, if_neg h4.1.1⟩
    refine (getRole_reads _).bind ((getRosterState_reads _).bind ((getMaybeCause_reads _).bind ((getFlag_reads _).bind
      ((getFlag_reads _).bind ((getNat_reads 1 _ hs.1.1).bind ((getNat_reads 1 _ hs.1.2).bind ((getNat_fits h1).bind
      ((getFlag_reads _).bind ((getNat_fits h2).last ?_)))))))))
    rw [hs.2]
    cases h3
    cases heard <;> exact reads_pure _
  case cell c =>
    refine (getFlag_reads _).bind ((getPrint_reads _).bind ((getNat_reads 2 _ (by have := c.members.isLt; omega)).last ?_))
    simp only [BitVec.ofNat_toNat, BitVec.setWidth_eq]
    exact reads_pure _
  case zone z e =>
    obtain ⟨hold, stamp⟩ := e
    simp only [contentFits, Bool.and_eq_true] at h
    refine (getNat_reads 1 _ (by cases hold <;> simp [holdFields])).bind ((getNat_fits h.2).bind ((getNat_fits h.1).last ?_))
    cases hold <;> exact reads_pure _
  case claim i c =>
    simp only [contentFits, Bool.and_eq_true] at h
    refine (getNat_fits h.1.1).bind ((getNat_reads 4 _ (by have := c.wanted.isLt; omega)).bind ((getPrio_reads _).bind
      ((getFlag_reads _).bind ((getNat_fits h.1.2).bind ((getNat_fits h.2).last ?_)))))
    simp only [BitVec.ofNat_toNat, BitVec.setWidth_eq]
    exact reads_pure _
  case port p e =>
    obtain ⟨st, presence, lock, ident, takeSeen, stamp⟩ := e
    simp only [contentFits, Bool.and_eq_true] at h
    obtain ⟨h1, h2⟩ := h
    have tailReads : ∀ st0 : PortState, Reads (do
        let presence ← getEnum presenceOf
        let lock ← getLock
        let ident ← getCode
        let takeSeen ← getFlag
        let stamp ← getNat 6
        pure (.port p ⟨st0, presence, lock, ident, takeSeen, stamp⟩) : Rd SnapContent)
        (putNat 1 (presenceCode presence) ++ (putNat 1 (lockCode lock) ++ (putCode ident ++ (putFlag takeSeen ++ putNat 6 stamp))))
        (.port p ⟨st0, presence, lock, ident, takeSeen, stamp⟩) := fun st0 =>
      (getPresence_reads _).bind ((getLock_reads _).bind ((getCode_reads _).bind ((getFlag_reads _).bind
        ((getNat_fits h1).last (reads_pure _)))))
    cases st with
    | empty =>
      exact (getNat_reads 1 0 (by decide)).bind ((getNat_reads 1 0 (by decide)).bind ((getPurpose_reads .deposit).bind
        ((getNat_reads 1 0 (by decide)).bind (tailReads .empty))))
    | occupied x =>
      exact (getNat_reads 1 1 (by decide)).bind ((getNat_reads 1 0 (by decide)).bind ((getPurpose_reads .deposit).bind
        ((getNat_fits h2).bind (tailReads (.occupied x)))))
    | reserved k purpose x =>
      simp only [portFits, Bool.and_eq_true] at h2
      exact (getNat_reads 1 2 (by decide)).bind ((getNat_fits h2.1).bind ((getPurpose_reads purpose).bind
        ((getNat_fits h2.2).bind (tailReads (.reserved k purpose x)))))
    | unknown =>
      exact (getNat_reads 1 3 (by decide)).bind ((getNat_reads 1 0 (by decide)).bind ((getPurpose_reads .deposit).bind
        ((getNat_reads 1 0 (by decide)).bind (tailReads .unknown))))
  case probe x custody cond touches staleRun qualTemp stamp =>
    simp only [contentFits, Bool.and_eq_true] at h
    simp only [contentGood, Bool.and_eq_true] at hg
    show Reads _ (putNat 1 (custodyCode custody) ++ (putNat 1 (custodyValue custody) ++ _)) _
    rw [← List.append_assoc]
    exact (getCustody_reads hg.2).bind ((getCondition_reads _).bind ((getNat_fits h.1.1.1).bind ((getNat_fits h.1.1.2).bind
      ((getTemp_fits h.1.2).bind ((getNat_fits h.2).last (reads_pure _))))))
  case tips x part t1 t2 t3 =>
    simp only [contentFits, Bool.and_eq_true] at h
    simp only [contentGood, Bool.and_eq_true] at hg
    exact (getSlot_reads h.1.1 hg.1.1.2).bind ((getSlot_reads h.1.2 hg.1.2).bind ((getSlot_reads h.2 hg.2).last (reads_pure _)))
  case board e =>
    simp only [contentFits, Bool.and_eq_true] at h
    exact (getThermKind_reads _).bind ((getInt_fits h.1).bind ((getThermState_reads _).bind ((getFlag_reads _).bind
      ((getNat_fits h.2).last (reads_pure _)))))
  case latchFirst k probe n stamp t1 t2 t3 =>
    simp only [contentFits, Bool.and_eq_true] at h
    simp only [contentGood, Bool.and_eq_true] at hg
    obtain ⟨⟨⟨⟨⟨h1, h2⟩, h3⟩, h4⟩, h5⟩, h6⟩ := h
    exact (getNat_fits h1).bind ((getNat_fits h2).bind ((getNat_fits h3).bind ((getSlot_reads h4 hg.1.1.2).bind
      ((getSlot_reads h5 hg.1.2).bind ((getSlot_reads h6 hg.2).last (reads_pure _))))))
  case latchSecond k t4 t5 t6 =>
    simp only [contentFits, Bool.and_eq_true] at h
    simp only [contentGood, Bool.and_eq_true] at hg
    exact (getSlot_reads h.1.1 hg.1.1.2).bind ((getSlot_reads h.1.2 hg.1.2).bind ((getSlot_reads h.2 hg.2).last (reads_pure _)))

/-! ### Bodies -/

theorem mask16 (m : StationMask) : m.toNat < 256 ^ 2 := by have := m.isLt; omega
theorem mask32 (m : ZoneMask) : m.toNat < 256 ^ 4 := by have := m.isLt; omega

/-- A well-formed body that fits its fields reads back as it was written, and takes every byte. -/
theorem getBody_reads {c : CellPart} {b : Body} (hg : bodyGood c b = true) (hf : bodyFits b = true) :
    ReadsAll (getBody (Body.kind b) (putBody b).length) (putBody b) b := by
  cases b
  case form fp mask =>
    refine Reads.all ((getPrint_reads _).bind ((getNat_reads 2 _ (mask16 mask)).last ?_))
    simp only [BitVec.ofNat_toNat, BitVec.setWidth_eq]
    exact reads_pure _
  case join fp cause jn =>
    simp only [bodyGood, joinNumberGood, Bool.and_eq_true, decide_eq_true_eq] at hg
    exact Reads.all ((getPrint_reads _).bind ((getCause_reads _).bind ((getNat_reads 1 _ (by omega)).last (reads_pure _))))
  case silence k count =>
    simp only [bodyGood, stationNumber, Bool.and_eq_true, decide_eq_true_eq] at hg
    exact Reads.all ((getNat_reads 1 _ (by omega)).bind ((getNat_fits hf).last (reads_pure _)))
  case snapBegin purpose jn fp entries =>
    simp only [bodyGood, joinNumberGood, Bool.and_eq_true, decide_eq_true_eq] at hg
    exact Reads.all ((getSnapPurpose_reads _).bind ((getNat_reads 1 _ (by omega)).bind ((getPrint_reads _).bind
      ((getNat_fits hf).last (reads_pure _)))))
  case snapEntry jn k =>
    simp only [bodyFits, Bool.and_eq_true] at hf
    obtain ⟨h1, h2, h3⟩ := content_key_fits hg
    exact Reads.all ((getNat_fits hf.1).bind ((getNat_reads 1 _ h1).bind ((getNat_reads 1 _ h2).bind ((getNat_reads 1 _ h3).bind
      ((getContent_reads hg hf.2).last (reads_pure _))))))
  case snapEnd jn count fp =>
    simp only [bodyGood, joinNumberGood, Bool.and_eq_true, decide_eq_true_eq] at hg
    exact Reads.all ((getNat_reads 1 _ (by omega)).bind ((getNat_fits hf).bind ((getPrint_reads _).last (reads_pure _))))
  case zoneClaim mask base =>
    refine Reads.all ((getNat_reads 4 _ (mask32 mask)).bind ((getPrio_reads _).last ?_))
    simp only [BitVec.ofNat_toNat, BitVec.setWidth_eq]
    exact reads_pure _
  case zoneRelease mask withdraw =>
    refine Reads.all ((getNat_reads 4 _ (mask32 mask)).bind ((getFlag_reads _).last ?_))
    simp only [BitVec.ofNat_toNat, BitVec.setWidth_eq]
    exact reads_pure _
  case forceRelease mask =>
    refine Reads.all ((getNat_reads 4 _ (mask32 mask)).last ?_)
    simp only [BitVec.ofNat_toNat, BitVec.setWidth_eq]
    exact reads_pure _
  case portReserve p purpose x =>
    simp only [bodyGood, portNumber, probeNumber, Bool.and_eq_true, decide_eq_true_eq] at hg
    exact Reads.all ((getNat_reads 1 _ (by omega)).bind ((getPurpose_reads _).bind ((getNat_reads 1 _ (by omega)).last (reads_pure _))))
  case portState p present lock code =>
    simp only [bodyGood, portNumber, Bool.and_eq_true, decide_eq_true_eq] at hg
    exact Reads.all ((getNat_reads 1 _ (by omega)).bind ((getFlag_reads _).bind ((getLock_reads _).bind
      ((getCode_reads _).last (reads_pure _)))))
  case portAbandon p inside =>
    simp only [bodyGood, portNumber, Bool.and_eq_true, decide_eq_true_eq] at hg
    exact Reads.all ((getNat_reads 1 _ (by omega)).bind ((getFlag_reads _).last (reads_pure _)))
  case probeDeposit m p =>
    simp only [bodyGood, portNumber, probeNumber, Bool.and_eq_true, decide_eq_true_eq] at hg
    exact Reads.all ((getNat_reads 1 _ (by omega)).bind ((getNat_reads 1 _ (by omega)).last (reads_pure _)))
  case probeTake t p code =>
    simp only [bodyGood, portNumber, probeNumber, Bool.and_eq_true, decide_eq_true_eq] at hg
    exact Reads.all ((getNat_reads 1 _ (by omega)).bind ((getNat_reads 1 _ (by omega)).bind ((getCode_reads _).last (reads_pure _))))
  case mountReport code => exact Reads.all ((getCode_reads _).last (reads_pure _))
  case custodySet x cu =>
    simp only [bodyGood, probeNumber, Bool.and_eq_true, decide_eq_true_eq] at hg
    exact Reads.all ((getNat_reads 1 _ (by omega)).bind ((getCustody_reads hg.2).last (reads_pure _)))
  case qualPart x i n t =>
    simp only [bodyGood, probeNumber, partNumber, Bool.and_eq_true, decide_eq_true_eq] at hg
    simp only [bodyFits, Bool.and_eq_true, Bool.not_eq_true'] at hf
    refine Reads.all ((getNat_reads 1 _ (by omega)).bind ((getNat_reads 1 _ (by omega)).bind ((getNat_reads 1 _ (by omega)).bind
      ((getTipRaw_fits hf.1).last ?_))))
    obtain ⟨_, _, _, _, _, stale⟩ := t
    simp only at hf
    rw [hf.2]
    exact reads_pure _
  case qualCommit x n temp =>
    simp only [bodyGood, probeNumber, partNumber, Bool.and_eq_true, decide_eq_true_eq] at hg
    exact Reads.all ((getNat_reads 1 _ (by omega)).bind ((getNat_reads 1 _ (by omega)).bind ((getInt_fits hf).last (reads_pure _))))
  case probeMark x =>
    simp only [bodyGood, probeNumber, Bool.and_eq_true, decide_eq_true_eq] at hg
    exact Reads.all ((getNat_reads 1 _ (by omega)).last (reads_pure _))
  case thermal es =>
    simp only [bodyGood, Bool.and_eq_true, List.all_eq_true, decide_eq_true_eq] at hg
    simp only [bodyFits, List.all_eq_true] at hf
    have hm := getMany_reads (r := getTherm) (put := putTherm) es
      (fun e he => getTherm_reads (by have := hg.2 e he; omega) (hf e he))
    have hl : (putBody (.thermal es)).length / 5 = es.length := by simp only [putBody, thermList_length]; omega
    show ReadsAll (getMany getTherm ((putBody (.thermal es)).length / 5) >>= fun es => pure (Body.thermal es)) (es.flatMap putTherm)
      (Body.thermal es)
    rw [hl]
    exact Reads.all (hm.last (reads_pure _))
  case point p =>
    simp only [bodyGood, probeNumber, Bool.and_eq_true, decide_eq_true_eq] at hg
    obtain ⟨⟨⟨⟨⟨g1, g2⟩, g3⟩, g4⟩, g5⟩, g6⟩ := hg
    refine Reads.all ((getPoint_reads (by omega) (by omega) (by omega) ?_ hf).last (reads_pure _))
    simp only [intFits, Bool.and_eq_true, decide_eq_true_eq]
    omega
  case request tag r =>
    refine (getWord_reads _).bindAll ((getNat_reads 1 (ReqBody.code r) ?_).bindAll ((getArgs_reads hf ?_).last (readsAll_pure _)))
    · cases r <;> simp only [ReqBody.code] <;> first | decide | exact natFits_lt hf
    · rintro code args rfl
      simp only [bodyGood, Bool.and_eq_true, Bool.or_eq_true, beq_iff_eq, decide_eq_true_eq] at hg
      exact hg.1
  case answer a => exact (getAnswer_reads hf).last (readsAll_pure _)
  case event e =>
    simp only [bodyGood, Bool.and_eq_true, decide_eq_true_eq] at hg
    exact Reads.all ((getEvent_reads (by omega) hf).last (reads_pure _))

/-! ### Headers -/

theorem hdrFlags_lt (h : Hdr) : hdrFlags h < 256 := by
  unfold hdrFlags
  split <;> split <;> split <;> split <;> split <;> omega

/-- The header reads back from its two bytes (11.1). -/
theorem hdrOf_put (h : Hdr) (hs : h.sender < 16) (hd : h.dest < 16) : hdrOf (h.sender * 16 + h.dest) (hdrFlags h) = h := by
  obtain ⟨sender, dest, a, b, c, d, e⟩ := h
  simp only at hs hd
  have h1 : (sender * 16 + dest) / 16 = sender := by omega
  have h2 : (sender * 16 + dest) % 16 = dest := by omega
  unfold hdrOf
  simp only [h1, h2]
  cases a <;> cases b <;> cases c <;> cases d <;> cases e <;> simp [hdrFlags]

theorem kind_lt (b : Body) : Body.kind b < 256 := by cases b <;> simp [Body.kind]

theorem putNat_one (n : Nat) : putNat 1 n = [BitVec.ofNat 8 n] := by simp [putNat]

/-- The bytes of a frame, one field after the other. -/
theorem putFront_eq (f : Frame) : putFront f =
    BitVec.ofNat 8 (Body.kind f.body) :: BitVec.ofNat 8 (f.h.sender * 16 + f.h.dest) :: BitVec.ofNat 8 (hdrFlags f.h) ::
      BitVec.ofNat 8 (putBody f.body).length :: putBody f.body := by
  simp [putFront, putNat_one]

end Sys2Proof.Laws
end

