-- ==== Sys2Proof/Laws/Stalls.lean ====
section
/-! SUPPORT. Stalls and collisions (R84, R85): what they leave of the channels, and the event they queue when no change runs. -/

namespace Sys2Proof.Laws

open Sys2Proof.Machine

theorem returnCredit_else (s : Station) (g : Option Segment) :
    (returnCredit s g).request = s.request ∧ (returnCredit s g).line = s.line ∧ (returnCredit s g).motion = s.motion ∧
      (returnCredit s g).change = s.change ∧ (returnCredit s g).loader = s.loader ∧ (returnCredit s g).replica = s.replica := by
  unfold returnCredit
  split
  · exact ⟨rfl, rfl, rfl, rfl, rfl, rfl⟩
  · split <;> exact ⟨rfl, rfl, rfl, rfl, rfl, rfl⟩

/-- The station as a stall leaves it before the event: an update of the calm kind over the flushed channel. -/
theorem stallCore_eq {s : Station} {c : ChanId} (cause : StallCause) (h : enabledState (chan s c).state = true) :
    ∃ u, Calm (returnCredit (setChan s c ⟨.stalled, [], some cause⟩) (headSeg s c)) u ∧
      (claimedSet s c = none → u = returnCredit (setChan s c ⟨.stalled, [], some cause⟩) (headSeg s c)) ∧
      stallCore s c cause = giveEvent u (.channelStalled c cause (tagOf (headSeg s c))) := by
  unfold stallCore
  simp only [h, if_true]
  cases hw : claimedSet s c with
  | none => exact ⟨_, Calm.refl _, fun _ => rfl, rfl⟩
  | some m =>
    simp only
    split
    · exact ⟨_, Calm.refl _, (fun hx => by cases hx), rfl⟩
    · exact ⟨_, withdrawOffer_calm _, (fun hx => by cases hx), rfl⟩
    · exact ⟨_, (offerRelease_calm _ _ _).trans (setOutstanding_calm _ _), (fun hx => by cases hx), rfl⟩

theorem stallCore_same {s : Station} {c : ChanId} (cause : StallCause) (h : enabledState (chan s c).state = true) :
    chan (stallCore s c cause) c = ⟨.stalled, [], some cause⟩ := by
  obtain ⟨u, hc, _, he⟩ := stallCore_eq cause h
  rw [he, (noChan_of (giveEvent_motion _ _)).chan, hc.chan, (noChan_of (returnCredit_motion _ _)).chan, setChan_same]

theorem stallCore_other {s : Station} {c d : ChanId} (cause : StallCause) (h : enabledState (chan s c).state = true) (hd : d ≠ c) :
    chan (stallCore s c cause) d = chan s d := by
  obtain ⟨u, hc, _, he⟩ := stallCore_eq cause h
  rw [he, (noChan_of (giveEvent_motion _ _)).chan, hc.chan, (noChan_of (returnCredit_motion _ _)).chan, setChan_other _ _ _ _ hd]

theorem stallCore_change {s : Station} {c : ChanId} (cause : StallCause) (h : enabledState (chan s c).state = true) :
    (stallCore s c cause).change = s.change ∧ (stallCore s c cause).motion.homed = s.motion.homed := by
  obtain ⟨u, hc, _, he⟩ := stallCore_eq cause h
  refine ⟨?_, ?_⟩
  · rw [he, giveEvent_change, hc.change, returnCredit_change, setChan_change]
  · rw [he, giveEvent_motion, hc.homed, returnCredit_motion]; cases c <;> rfl

theorem stall_same {s : Station} {c : ChanId} {cause : StallCause} (h : enabledState (chan s c).state = true) :
    chan (stall s c cause) c = ⟨.stalled, [], some cause⟩ := by
  unfold stall
  rw [if_pos h]
  have e := stallCore_same (s := s) cause h
  have q : (chan (stallCore s c cause) c).queue = [] := by rw [e]
  have st := (failByStall_stays (stallCore s c cause) cause).trans (chooseLead_stays _)
  rw [st.empty c q, e]

theorem stall_still {s : Station} {c : ChanId} {cause : StallCause} (h : enabledState (chan s c).state = false) : stall s c cause = s := by
  unfold stall; rw [h, if_neg (by decide)]

theorem stall_other {s : Station} {c d : ChanId} {cause : StallCause} (hd : d ≠ c) (hq : (chan s d).queue = []) :
    chan (stall s c cause) d = chan s d := by
  unfold stall
  split
  · rename_i h
    have e := stallCore_other cause h hd
    have st := (failByStall_stays (stallCore s c cause) cause).trans (chooseLead_stays _)
    rw [st.empty d (by rw [e]; exact hq), e]
  · rfl

/-- With no change running a stall only withdraws frames of the change that wait. -/
theorem failByStall_none {s : Station} (h1 : s.change.state = .idle) (h2 : s.change.failing = none) (cause : StallCause) :
    failByStall s cause = withdrawWaiting s (fun w => w.src == .change && isTakeFrame w.item.body) :=
  failWith_none (s := withdrawWaiting s (fun w => w.src == .change && isTakeFrame w.item.body)) _ h1 h2 _ _

theorem queues_empty {s : Station} {c : ChanId} (h1 : (chan s c).queue = []) (h2 : (chan s (otherChan c)).queue = []) :
    s.motion.arm.queue = [] ∧ s.motion.head.queue = [] := by
  cases c
  · exact ⟨h1, h2⟩
  · exact ⟨h2, h1⟩

theorem otherChan_ne (c : ChanId) : otherChan c ≠ c := by cases c <;> decide

/-- A stall with no change running and the other channel empty. -/
theorem stall_quiet {s : Station} {c : ChanId} {cause : StallCause} (h : enabledState (chan s c).state = true) (h1 : s.change.state = .idle)
    (h2 : s.change.failing = none) (hq : (chan s (otherChan c)).queue = []) :
    stall s c cause = withdrawWaiting (stallCore s c cause) (fun w => w.src == .change && isTakeFrame w.item.body) := by
  have hc := stallCore_change cause h
  unfold stall
  rw [if_pos h, failByStall_none (by rw [hc.1]; exact h1) (by rw [hc.1]; exact h2)]
  have e := stallCore_same cause h
  have o := stallCore_other cause h (otherChan_ne c)
  obtain ⟨a, b⟩ := queues_empty (s := stallCore s c cause) (c := c) (by rw [e]) (by rw [o]; exact hq)
  exact chooseLead_empty a b

/-- The mark of a collision (R85). -/
def markMounted (s : Station) : Station :=
  match mounted s with
  | none => s
  | some x => offerControl s .mark 0 (.probeMark x)

theorem markMounted_calm (s : Station) : Calm s (markMounted s) := by
  unfold markMounted
  split
  · exact Calm.refl s
  · exact offerControl_calm _ _ _ _

theorem collide_eq {s : Station} {c : ChanId} (h : enabledState (chan s c).state = true) :
    collide s c = chooseLead (failByStall (markMounted (stallCore s c .collision)) .collision) := by
  unfold collide
  rw [if_pos h]
  rfl

theorem collide_same {s : Station} {c : ChanId} (h : enabledState (chan s c).state = true) :
    chan (collide s c) c = ⟨.stalled, [], some .collision⟩ := by
  rw [collide_eq h]
  have e : chan (markMounted (stallCore s c .collision)) c = _ := ((markMounted_calm _).chan c).trans (stallCore_same .collision h)
  have st := (failByStall_stays (markMounted (stallCore s c .collision)) .collision).trans (chooseLead_stays _)
  rw [st.empty c (by rw [e]), e]

theorem collide_other {s : Station} {c d : ChanId} (hd : d ≠ c) (hq : (chan s d).queue = []) : chan (collide s c) d = chan s d := by
  by_cases h : enabledState (chan s c).state = true
  · rw [collide_eq h]
    have e : chan (markMounted (stallCore s c .collision)) d = _ := ((markMounted_calm _).chan d).trans (stallCore_other .collision h hd)
    have st := (failByStall_stays (markMounted (stallCore s c .collision)) .collision).trans (chooseLead_stays _)
    rw [st.empty d (by rw [e]; exact hq), e]
  · unfold collide; rw [if_neg h]

theorem collide_quiet {s : Station} {c : ChanId} (h : enabledState (chan s c).state = true) (h1 : s.change.state = .idle)
    (h2 : s.change.failing = none) (hq : (chan s (otherChan c)).queue = []) :
    collide s c = withdrawWaiting (markMounted (stallCore s c .collision)) (fun w => w.src == .change && isTakeFrame w.item.body) := by
  have hc := (markMounted_calm (stallCore s c .collision)).change.trans (stallCore_change .collision h).1
  rw [collide_eq h, failByStall_none (by rw [hc]; exact h1) (by rw [hc]; exact h2)]
  have e : chan (markMounted (stallCore s c .collision)) c = _ := ((markMounted_calm _).chan c).trans (stallCore_same .collision h)
  have o : chan (markMounted (stallCore s c .collision)) (otherChan c) = _ := ((markMounted_calm _).chan _).trans (stallCore_other .collision h (otherChan_ne c))
  obtain ⟨a, b⟩ := queues_empty (s := markMounted (stallCore s c .collision)) (c := c) (by rw [e]) (by rw [o]; exact hq)
  exact chooseLead_empty a b

theorem stallCore_request {s : Station} {c : ChanId} (cause : StallCause) (h : enabledState (chan s c).state = true) :
    ∃ u, u.request = s.request ∧ stallCore s c cause = giveEvent u (.channelStalled c cause (tagOf (headSeg s c))) ∧
      (claimedSet s c = none → u.line = s.line) := by
  obtain ⟨u, hc, hu, he⟩ := stallCore_eq cause h
  refine ⟨u, ?_, he, fun hw => ?_⟩
  · rw [hc.request, (returnCredit_else _ _).1]; cases c <;> rfl
  · rw [hu hw, (returnCredit_else _ _).2.1]; cases c <;> rfl

end Sys2Proof.Laws
end

