-- ==== Sys2Proof/Laws/Sending.lean ====
section
/-! SUPPORT. Segments of the Change Sequencer taken on an idle station, and the CONTROL frames that its steps offer (R11 to R13, R74, R123). -/

namespace Sys2Proof.Laws

open Sys2Proof.Machine

/-! ### CONTROL frames -/

theorem offerControl_line (s : Station) (src : CtlSource) (d : Nat) (b : Body) :
    offerControl s src d b = { s with line := (offerControl s src d b).line } := by
  unfold offerControl; split <;> rfl

theorem releasing_offer (s : Station) (src : CtlSource) (d : Nat) (b : Body) (h : releaseMaskOf b = 0#32) :
    releasing (offerControl s src d b) = releasing s := by
  unfold offerControl
  split
  · unfold releasing enqueueControl
    simp only [List.foldl_append, List.foldl_cons, List.foldl_nil, h]
    congr 1
    simp
  · rfl

theorem holdsAll_offer (s : Station) (src : CtlSource) (d : Nat) (b : Body) (h : releaseMaskOf b = 0#32) (m : ZoneMask) :
    holdsAll (offerControl s src d b) m = holdsAll s m := by
  have e : heldHere (offerControl s src d b) = heldHere s := by rw [offerControl_line]; rfl
  unfold holdsAll
  rw [releasing_offer s src d b h, e]

/-- A merge without withdrawal keeps every frame that is no release, and their number. -/
theorem mergeRelease_keeps (f : Body → Body) (l : List Outgoing) (o : Outgoing) (ho : o ∈ l) (hr : Body.isRelease o.body = false) :
    o ∈ mergeRelease f false l := by
  induction l with
  | nil => cases ho
  | cons x r ih =>
    unfold mergeRelease
    split
    · rename_i hx
      rcases List.mem_cons.mp ho with h | h
      · subst h; rw [hr] at hx; cases hx
      · exact List.mem_cons_of_mem _ h
    · rcases List.mem_cons.mp ho with h | h
      · subst h; exact List.mem_cons_self
      · exact List.mem_cons_of_mem _ (ih h)

theorem mergeRelease_count (m : ZoneMask) (w : Bool) (l : List Outgoing) :
    ((mergeRelease (uniteRelease m w) false l).filter (fun o => !Body.isRelease o.body)).length =
      (l.filter (fun o => !Body.isRelease o.body)).length := by
  induction l with
  | nil => rfl
  | cons x r ih =>
    unfold mergeRelease
    split
    · rename_i hx
      simp only [List.filter_cons, uniteRelease_isRelease, hx, Bool.not_true, Bool.false_eq_true, if_false]
    · rename_i hx
      simp only [List.filter_cons, hx, Bool.not_false, if_true, List.length_cons, ih]

theorem offerRelease_keeps (s : Station) (m : ZoneMask) :
    controlHeld (offerRelease s m false).line = controlHeld s.line ∧ (offerRelease s m false).line.waiting = s.line.waiting ∧
      ∀ o ∈ s.line.control, Body.isRelease o.body = false → o ∈ (offerRelease s m false).line.control := by
  unfold offerRelease offerReleaseTo
  split
  · refine ⟨?_, rfl, fun o ho hr => mergeRelease_keeps _ _ _ ho hr⟩
    unfold controlHeld
    simp only
    rw [mergeRelease_count]
  · refine ⟨?_, rfl, fun o ho _ => List.mem_append_left _ ho⟩
    unfold controlHeld
    simp only [List.filter_append, List.filter_cons, Body.isRelease, Bool.not_true, Bool.false_eq_true, if_false, List.filter_nil, List.append_nil]

theorem tidyMoment_keeps (s : Station) :
    controlHeld (tidyMoment s none).line = controlHeld s.line ∧ (tidyMoment s none).line.waiting = s.line.waiting ∧
      ∀ o ∈ s.line.control, Body.isRelease o.body = false → o ∈ (tidyMoment s none).line.control := by
  show controlHeld (tidyRelease s).line = _ ∧ _
  unfold tidyMoment tidyRelease
  split
  · simp only
    split
    · exact ⟨rfl, rfl, fun o ho _ => ho⟩
    · exact offerRelease_keeps _ _
  · exact ⟨rfl, rfl, fun o ho _ => ho⟩

theorem waitsZone_control (s : Station) (c : ChanId) (g : Segment) (m : ZoneMask) :
    (∀ o ∈ s.line.control, o ∈ (waitsZone s c g m).line.control) ∧ (∀ w ∈ s.line.waiting, w ∈ (waitsZone s c g m).line.waiting) := by
  have e : (setState (setHead s c g) c .waitZone).line = s.line := by unfold setHead; split <;> cases c <;> rfl
  unfold waitsZone claimIfClear
  split
  · unfold offerClaim offerControl
    simp only
    split
    · refine ⟨fun o ho => ?_, fun w hw => ?_⟩
      · show o ∈ (setState (setHead s c g) c .waitZone).line.control ++ _
        rw [e]; exact List.mem_append_left _ ho
      · show w ∈ (setState (setHead s c g) c .waitZone).line.waiting
        rw [e]; exact hw
    · refine ⟨fun o ho => ?_, fun w hw => ?_⟩
      · show o ∈ (setState (setHead s c g) c .waitZone).line.control
        rw [e]; exact ho
      · show w ∈ (setState (setHead s c g) c .waitZone).line.waiting ++ _
        rw [e]; exact List.mem_append_left _ hw
  · exact ⟨fun o ho => e ▸ ho, fun w hw => e ▸ hw⟩

/-! ### Segments taken on an idle station -/

/-- What giving a segment of the Change Sequencer to a channel of an idle station comes to. -/
structure Given (s t : Station) (c : ChanId) (kind : SegKind) (runOn : Bool) (speed : Nat) (m : ZoneMask) : Prop where
  queue : ∃ g, (chan t c).queue = [g] ∧ g.kind = kind ∧ g.origin = .sequencer runOn ∧ g.speed = speed
  state : (chan t c).state = if holdsAll s m = true then .running else .waitZone
  other : chan t (otherChan c) = chan s (otherChan c)
  change : t.change = s.change
  control : ∀ o ∈ s.line.control, o ∈ t.line.control
  waiting : ∀ w ∈ s.line.waiting, w ∈ t.line.waiting

theorem giveSegment_idle {s : Station} {c : ChanId} {kind : SegKind} {runOn : Bool} {speed : Nat} {m : ZoneMask}
    (h1 : (chan s c).state = .idle) (h2 : (chan s c).queue = []) (h3 : (chan s (otherChan c)).state = .idle)
    (h4 : (chan s (otherChan c)).queue = []) (ht : ∀ a, kind ≠ .touch a) (hn : kind ≠ .home) (hh : allHomed s = true)
    (hl : limitsHold s (tipOffset s (headIndex s)) kind = true)
    (hm : ∀ g : Segment, g.kind = kind → g.origin = .sequencer runOn → zoneSetOf s g = m)
    (hz : meets m (othersHomeMask (cellOf s) (me s)) = false) :
    Given s (giveSegment s c kind runOn speed) c kind runOn speed m := by
  obtain ⟨u, hu⟩ : ∃ u, u = enqueueSegment s c kind (.sequencer runOn) false speed := ⟨_, rfl⟩
  obtain ⟨g, hg⟩ : ∃ g, g = freshSegment s kind (.sequencer runOn) false speed := ⟨_, rfl⟩
  have hg0 : giveSegment s c kind runOn speed = chooseLead u := by
    unfold giveSegment
    rw [if_pos, hu]
    rw [h1, h2]; rfl
  have hgk : g.kind = kind := by rw [hg]; rfl
  have hgo : g.origin = .sequencer runOn := by rw [hg]; rfl
  have hgs : g.speed = speed := by rw [hg]; rfl
  have hch : chan u c = ⟨.waitTurn, [g], (chan s c).stall⟩ := by
    rw [hu, hg]
    unfold enqueueSegment
    simp only [h1, h2, if_true, List.nil_append]
    cases c <;> rfl
  have hoc : chan u (otherChan c) = chan s (otherChan c) := by rw [hu]; cases c <;> rfl
  have hln : u.line = s.line := by rw [hu]; cases c <;> rfl
  have hcn : u.change = s.change := by rw [hu]; cases c <;> rfl
  have hq : (chan u c).queue = [g] := by rw [hch]
  have hs : (chan u c).state = .waitTurn := by rw [hch]
  have htg : isTouchSeg g = false := by
    unfold isTouchSeg; rw [hgk]
    cases kind <;> first | rfl | exact absurd rfl (ht _)
  have hng : isHomeSeg g = false := by
    unfold isHomeSeg; rw [hgk]
    cases kind <;> first | rfl | exact absurd rfl hn
  have hzs : zoneSetOf u g = m := by
    rw [← hm g hgk hgo, hu]
    unfold zoneSetOf
    rw [hgo, hgk]
    cases kind <;> cases c <;> rfl
  have hho : holdsAll u (zoneSetOf u g) = holdsAll s m := by rw [hzs, hu]; cases c <;> rfl
  have hkey := take_idle (s := u) (c := c) (g := g) hq hs (by rw [hoc]; exact h4) (by rw [hoc, h3]; rfl) htg hng
    (by rw [hu]; cases c <;> exact hh) (by rw [hgk, hu]; rw [← hl]; cases c <;> cases kind <;> rfl)
    (by rw [hzs, hu]; cases c <;> exact hz)
  rw [hho] at hkey
  rw [hg0, hkey]
  by_cases hx : holdsAll s m = true
  · rw [if_pos hx]
    have e := startMotion_same hq { g with axisTarget := commanded u (tipOffset u (headIndex u)) g.kind, zoneSet := some (zoneSetOf u g) }
    obtain ⟨l1, _, _, l4, _⟩ := startMotion_line u c { g with axisTarget := commanded u (tipOffset u (headIndex u)) g.kind, zoneSet := some (zoneSetOf u g) }
    refine ⟨⟨_, congrArg Chan.queue e, hgk, hgo, hgs⟩, ?_, ?_, l4.trans hcn, fun o ho => ?_, fun w hw => ?_⟩
    · rw [if_pos hx]; exact congrArg Chan.state e
    · exact (startMotion_other u c _ _ (otherChan_ne c)).trans hoc
    · rw [l1, hln]; exact ho
    · rw [l1, hln]; exact hw
  · rw [if_neg hx]
    have e := waitsZone_same hq { g with axisTarget := commanded u (tipOffset u (headIndex u)) g.kind, zoneSet := some (zoneSetOf u g) } (zoneSetOf u g)
    obtain ⟨k1, k2⟩ := waitsZone_control u c { g with axisTarget := commanded u (tipOffset u (headIndex u)) g.kind, zoneSet := some (zoneSetOf u g) } (zoneSetOf u g)
    refine ⟨⟨_, congrArg Chan.queue e, hgk, hgo, hgs⟩, ?_, ?_, ((waitsZone_else _ _ _ _).2.2.1).trans hcn, fun o ho => ?_, fun w hw => ?_⟩
    · rw [if_neg hx]; exact congrArg Chan.state e
    · exact (waitsZone_other u c _ _ _ (otherChan_ne c)).trans hoc
    · exact k1 o (by rw [hln]; exact ho)
    · exact k2 w (by rw [hln]; exact hw)

/-- A TRAVERSE of the Change Sequencer on an idle station (R123). -/
theorem armTo_idle {s : Station} {v : Vec3} {runOn : Bool} (h1 : s.motion.arm.state = .idle) (h2 : s.motion.arm.queue = [])
    (h3 : s.motion.head.state = .idle) (h4 : s.motion.head.queue = []) (hh : allHomed s = true)
    (hl : limitsHold s ⟨0, 0, 0⟩ (.armTraverse v) = true)
    (hz : meets (zoneSetFrom s (currentTip s) (clearance s) (.armTraverse v)) (othersHomeMask (cellOf s) (me s)) = false) :
    Given s (armTo s v runOn) .arm (.armTraverse v) runOn (cellOf s).rackSpeed
      (zoneSetFrom s (currentTip s) (clearance s) (.armTraverse v)) :=
  giveSegment_idle (c := .arm) h1 h2 h3 h4 (fun a h => by cases h) (fun h => by cases h) hh hl
    (fun g hk ho => by unfold zoneSetOf; rw [ho, hk]) hz

/-! ### A failure met by an idle station -/

theorem stopBoth_idle {s : Station} (ha : s.motion.arm.queue = []) (hh : s.motion.head.queue = []) : stopBoth s = s := by
  have e : ∀ c, headSeg s c = none := by
    intro c; cases c
    · exact headSeg_nil (c := .arm) ha
    · exact headSeg_nil (c := .head) hh
  have one : ∀ c, stopSequencer s c = s := by
    intro c; unfold stopSequencer; rw [e c]
  unfold stopBoth
  rw [one .arm, one .head]

theorem foldl_calm {α : Type} (f : Station → α → Station) (hf : ∀ s a, Calm s (f s a)) (l : List α) (s : Station) : Calm s (l.foldl f s) := by
  induction l generalizing s with
  | nil => exact Calm.refl s
  | cons a r ih => exact (hf s a).trans (ih _)

theorem offerControl_mem (s : Station) (src : CtlSource) (d : Nat) (b : Body) :
    ((⟨d, b⟩ : Outgoing) ∈ (offerControl s src d b).line.control ∨ (⟨src, ⟨d, b⟩⟩ : Waiting) ∈ (offerControl s src d b).line.waiting) ∧
      (∀ o ∈ s.line.control, o ∈ (offerControl s src d b).line.control) ∧ (∀ w ∈ s.line.waiting, w ∈ (offerControl s src d b).line.waiting) := by
  unfold offerControl
  split
  · exact ⟨Or.inl (List.mem_append_right _ List.mem_cons_self), fun o ho => List.mem_append_left _ ho, fun _ hw => hw⟩
  · exact ⟨Or.inr (List.mem_append_right _ List.mem_cons_self), fun _ ho => ho, fun w hw => List.mem_append_left _ hw⟩

theorem foldl_offers (src : CtlSource) (f : Nat → Body) (l : List Nat) (s : Station) :
    (∀ p ∈ l, (⟨0, f p⟩ : Outgoing) ∈ (l.foldl (fun t p => offerControl t src 0 (f p)) s).line.control ∨
        (⟨src, ⟨0, f p⟩⟩ : Waiting) ∈ (l.foldl (fun t p => offerControl t src 0 (f p)) s).line.waiting) ∧
      (∀ o ∈ s.line.control, o ∈ (l.foldl (fun t p => offerControl t src 0 (f p)) s).line.control) ∧
      (∀ w ∈ s.line.waiting, w ∈ (l.foldl (fun t p => offerControl t src 0 (f p)) s).line.waiting) := by
  induction l generalizing s with
  | nil => exact ⟨(fun p hp => by cases hp), fun _ ho => ho, fun _ hw => hw⟩
  | cons a r ih =>
    obtain ⟨i1, i2, i3⟩ := ih (offerControl s src 0 (f a))
    obtain ⟨o1, o2, o3⟩ := offerControl_mem s src 0 (f a)
    refine ⟨fun p hp => ?_, fun o ho => i2 o (o2 o ho), fun w hw => i3 w (o3 w hw)⟩
    rcases List.mem_cons.mp hp with hp | hp
    · subst hp
      rcases o1 with h | h
      · exact Or.inl (i2 _ h)
      · exact Or.inr (i3 _ h)
    · exact i1 p hp

/-- Every port that the replica shows RESERVED by this station gets its PORT_ABANDON (R128 step 1). -/
theorem abandonHeld_offers (s : Station) (p : Nat) (h1 : 1 ≤ p) (h2 : p ≤ 12) (hr : reservedHere s p = true) :
    (⟨0, .portAbandon p (maybeInside s.change.state)⟩ : Outgoing) ∈ (abandonHeld s).line.control ∨
      (⟨.change, ⟨0, .portAbandon p (maybeInside s.change.state)⟩⟩ : Waiting) ∈ (abandonHeld s).line.waiting := by
  refine (foldl_offers .change (fun p => .portAbandon p (maybeInside s.change.state)) _ s).1 p ?_
  rw [List.mem_filter]
  refine ⟨?_, hr⟩
  rw [List.mem_map]
  exact ⟨p - 1, List.mem_range.mpr (by omega), by omega⟩

theorem abandonHeld_calm (s : Station) : Calm s (abandonHeld s) := foldl_calm _ (fun _ _ => offerControl_calm _ _ _ _) _ s

/-- A failure by the rack or the coupling on an idle station (R128). -/
theorem failByRack_idle {s : Station} {cause : ChangeCause} (hr : changeRuns s = true) (hf : s.change.failing = none) (hc : cause ≠ .rackLost)
    (ha : s.motion.arm.queue = []) (hh : s.motion.head.queue = []) :
    failByRack s cause =
      giveEvent (tidyMoment (idleChanger (meetFailure (abandonHeld s) cause)) none) (.changeFailed s.change.tag cause) := by
  have hcm := abandonHeld_calm s
  have ea : (meetFailure (abandonHeld s) cause).motion.arm.queue = [] := by show (abandonHeld s).motion.arm.queue = []; rw [hcm.motion]; exact ha
  have eh : (meetFailure (abandonHeld s) cause).motion.head.queue = [] := by show (abandonHeld s).motion.head.queue = []; rw [hcm.motion]; exact hh
  unfold failByRack
  rw [hr, hf]
  simp only [Option.isNone_none, Bool.and_self, if_true]
  rw [stopBoth_idle ea eh]
  have hb : (cause == ChangeCause.rackLost) = false := by simpa using hc
  rw [hb, Bool.and_false, if_neg (by decide)]
  unfold endFailure
  have hfail : (meetFailure (abandonHeld s) cause).change.failing = some cause := rfl
  rw [hfail]
  simp only
  have hsm : sequencerMoves (meetFailure (abandonHeld s) cause) = false := by
    unfold sequencerMoves
    rw [List.any_eq_false]
    intro c _
    have : headSeg (meetFailure (abandonHeld s) cause) c = none := by
      cases c
      · exact headSeg_nil (c := .arm) ea
      · exact headSeg_nil (c := .head) eh
    rw [this]; simp
  rw [hsm, if_neg (by decide)]
  have ht : (meetFailure (abandonHeld s) cause).change.tag = s.change.tag := by show (abandonHeld s).change.tag = _; rw [hcm.change]
  rw [ht]

end Sys2Proof.Laws
end

