-- ==== Sys2Proof/Laws/Releasing.lean ====
section
/-! SUPPORT. The zones that count as held (R49) bit by bit, and what a release offered, merged or gone back does to them (R13, R57). -/

namespace Sys2Proof.Laws

open Sys2Proof.Machine

theorem maskLess_bit (m n : ZoneMask) (i : Nat) : (maskLess m n).getLsbD i = (m.getLsbD i && !n.getLsbD i) := by
  unfold maskLess
  rw [BitVec.getLsbD_and, BitVec.getLsbD_not]
  by_cases h : i < 32
  · simp [h]
  · rw [BitVec.getLsbD_of_ge m i (by omega)]; simp

theorem zero_iff (m : ZoneMask) : m = 0#32 ↔ ∀ i < 32, m.getLsbD i = false := by
  constructor
  · intro h i _; rw [h]; simp
  · intro h
    refine BitVec.eq_of_getLsbD_eq fun i hi => ?_
    rw [h i hi]; simp

/-- Every zone of a set counts as held: HELD by this station, and in no release queued or in flight (R49). -/
theorem holdsAll_iff (s : Station) (m : ZoneMask) :
    holdsAll s m = true ↔ ∀ i < 32, m.getLsbD i = true → (heldHere s).getLsbD i = true ∧ (releasing s).getLsbD i = false := by
  unfold holdsAll
  rw [beq_iff_eq, zero_iff]
  refine forall_congr' fun i => forall_congr' fun _ => ?_
  rw [maskLess_bit, maskLess_bit]
  cases m.getLsbD i <;> cases (heldHere s).getLsbD i <;> cases (releasing s).getLsbD i <;> simp

/-- The zones of the releases of a queue. -/
def releaseMasks (l : List Outgoing) : ZoneMask := l.foldl (fun m o => m ||| releaseMaskOf o.body) 0#32

theorem releaseMasks_from (l : List Outgoing) (a : ZoneMask) : l.foldl (fun m o => m ||| releaseMaskOf o.body) a = a ||| releaseMasks l := by
  unfold releaseMasks
  induction l generalizing a with
  | nil => simp
  | cons x r ih =>
    simp only [List.foldl_cons]
    rw [ih, ih (0#32 ||| _)]
    simp [BitVec.or_assoc]

theorem releaseMasks_cons (x : Outgoing) (l : List Outgoing) : releaseMasks (x :: l) = releaseMaskOf x.body ||| releaseMasks l := by
  unfold releaseMasks
  rw [List.foldl_cons, releaseMasks_from]
  simp [releaseMasks]

theorem releaseMasks_append (l k : List Outgoing) : releaseMasks (l ++ k) = releaseMasks l ||| releaseMasks k := by
  induction l with
  | nil => simp [releaseMasks]
  | cons x r ih => rw [List.cons_append, releaseMasks_cons, releaseMasks_cons, ih, BitVec.or_assoc]

theorem releaseMask_claim (o : Outgoing) (h : Body.isClaim o.body = true) : releaseMaskOf o.body = 0#32 := by
  cases hb : o.body <;> rw [hb] at h <;> first | rfl | cases h

theorem releaseMasks_cut (l : List Outgoing) : releaseMasks (l.filter (fun q => !Body.isClaim q.body)) = releaseMasks l := by
  induction l with
  | nil => rfl
  | cons x r ih =>
    rw [List.filter_cons]
    split
    · rw [releaseMasks_cons, releaseMasks_cons, ih]
    · rename_i h
      rw [releaseMasks_cons, releaseMask_claim x (by simpa using h), ih]
      simp

theorem releaseMasks_merge (mask : ZoneMask) (w cut : Bool) (l : List Outgoing) (h : l.any (fun o => Body.isRelease o.body) = true) :
    releaseMasks (mergeRelease (uniteRelease mask w) cut l) = releaseMasks l ||| mask := by
  induction l with
  | nil => cases h
  | cons x r ih =>
    unfold mergeRelease
    split
    · rename_i hx
      have hu : releaseMaskOf (uniteRelease mask w x.body) = releaseMaskOf x.body ||| mask := by
        cases hb : x.body <;> rw [hb] at hx <;> first | rfl | cases hx
      rw [releaseMasks_cons, releaseMasks_cons, hu]
      have hc : releaseMasks (if cut = true then r.filter (fun q => !Body.isClaim q.body) else r) = releaseMasks r := by
        split
        · exact releaseMasks_cut r
        · rfl
      rw [hc, BitVec.or_assoc, BitVec.or_comm mask, ← BitVec.or_assoc]
    · rename_i hx
      rw [List.any_cons, Bool.or_eq_true] at h
      rw [releaseMasks_cons, releaseMasks_cons, ih (h.resolve_left hx), BitVec.or_assoc]

theorem releaseMasks_offer (lp : LinePort) (mask : ZoneMask) (w : Bool) :
    releaseMasks (offerReleaseTo lp mask w).control = releaseMasks lp.control ||| mask := by
  unfold offerReleaseTo
  split
  · rename_i h; exact releaseMasks_merge mask w w lp.control h
  · show releaseMasks (lp.control ++ _) = _
    rw [releaseMasks_append, releaseMasks_cons]
    simp [releaseMasks, releaseMaskOf]

theorem releasing_eq (s : Station) : releasing s = releaseMasks s.line.control ||| match s.line.flight with
    | none => 0#32
    | some f => releaseMaskOf f.item.body := rfl

theorem releasing_release (s : Station) (m : ZoneMask) (w : Bool) : releasing (offerRelease s m w) = releasing s ||| m := by
  have hf : (offerRelease s m w).line.flight = s.line.flight := by
    unfold offerRelease offerReleaseTo; dsimp only; split <;> rfl
  rw [releasing_eq, releasing_eq, hf, show (offerRelease s m w).line.control = (offerReleaseTo s.line m w).control from rfl, releaseMasks_offer,
    BitVec.or_assoc, BitVec.or_comm m, ← BitVec.or_assoc]

theorem heldHere_release (s : Station) (m : ZoneMask) (w : Bool) : heldHere (offerRelease s m w) = heldHere s := rfl

/-- A release leaves a set held whose zones it does not name, or names as zones that are not held anyway. -/
theorem holdsAll_release (s : Station) (m z : ZoneMask) (w : Bool)
    (h : ∀ i < 32, z.getLsbD i = true → (heldHere s).getLsbD i = true → m.getLsbD i = false) (hz : holdsAll s z = true) :
    holdsAll (offerRelease s m w) z = true := by
  rw [holdsAll_iff] at hz ⊢
  intro i hi hb
  obtain ⟨h1, h2⟩ := hz i hi hb
  refine ⟨h1, ?_⟩
  rw [releasing_release, BitVec.getLsbD_or, h2, h i hi hb h1]
  rfl

/-- What counts as held depends on the tables, the number and the image, the CONTROL queue and the frame in flight. -/
theorem holdsAll_congr {s t : Station} (h1 : heldHere t = heldHere s) (h2 : releasing t = releasing s) (m : ZoneMask) :
    holdsAll t m = holdsAll s m := by unfold holdsAll; rw [h1, h2]

theorem heldHere_congr {s t : Station} (h1 : t.replica = s.replica) (h2 : t.loader = s.loader) : heldHere t = heldHere s := by
  unfold heldHere tabs me; rw [h1, h2]

theorem releasing_congr {s t : Station} (h1 : t.line.control = s.line.control) (h2 : t.line.flight = s.line.flight) : releasing t = releasing s := by
  rw [releasing_eq, releasing_eq, h1, h2]

/-- The zones of a head segment's own set are kept (R59). -/
theorem headZones_keeps {s : Station} {c : ChanId} {g : Segment} (h : (chan s c).queue.head? = some g) (i : Nat)
    (hb : (g.zoneSet.getD 0#32).getLsbD i = true) : (keptZones s).getLsbD i = true := by
  have : (headZones s c).getLsbD i = true := by
    unfold headZones
    cases hq : (chan s c).queue with
    | nil => rw [hq] at h; cases h
    | cons a r =>
      rw [hq] at h; cases h
      simp only [BitVec.getLsbD_or, hb, Bool.true_or]
  unfold keptZones
  rw [BitVec.getLsbD_or, BitVec.getLsbD_or]
  cases c <;> simp [this]

theorem tidyMask_free {s : Station} {i : Nat} (h : (keptZones s).getLsbD i = true) : (tidyMask s).getLsbD i = false := by
  unfold tidyMask
  rw [maskLess_bit, BitVec.getLsbD_or, BitVec.getLsbD_or, h]
  simp

theorem withdrawMask_free {s : Station} {left : ZoneMask} {i : Nat} (h : (keptZones s).getLsbD i = true) (hh : (heldHere s).getLsbD i = true) :
    (withdrawMask s left).getLsbD i = false := by
  unfold withdrawMask
  split
  · rw [maskLess_bit, h]; simp
  · rw [maskLess_bit, hh]; simp

end Sys2Proof.Laws
end

