-- ==== Sys2Proof/Laws/Credits.lean ====
section
/-! SUPPORT. `Runs s t`: what the operations of the Motion Unit and the Change Sequencer do to the point list and the channels together. The
RESERVED entry goes with the credit of the segment at the head of the ARM queue (R79, R143, R144), and a segment is set in motion on zones held
(R56). -/

namespace Sys2Proof.Laws

open Sys2Proof.Machine

/-! ### The parts of `CreditsOk` -/

/-- The credit of a channel's head segment, as a number of entries. -/
def creditOf (v : Chan) : Nat := if v.queue.head?.any (·.credit) = true then 1 else 0

/-- What `CreditsOk` says about one channel. -/
structure ChanOk (c : ChanId) (v : Chan) : Prop where
  tail : ∀ g ∈ v.queue.drop 1, g.credit = false ∧ g.phase = .approach
  fresh : ∀ g, movingState v.state = false → v.queue.head? = some g → g.phase = .approach
  touch : ∀ g, v.queue.head? = some g → g.credit = true → isTouchSeg g = true ∧ ∀ b, g.phase ≠ .retract b
  empty : movingState v.state = false → waitingState v.state = false → v.queue = []
  head : c = .head → ∀ g ∈ v.queue, g.credit = false ∧ isTouchSeg g = false

theorem creditOf_head {v : Chan} (h : ChanOk .head v) : creditOf v = 0 := by
  unfold creditOf
  cases hq : v.queue with
  | nil => rfl
  | cons g r =>
    have := (h.head rfl g (by rw [hq]; exact List.mem_cons_self)).1
    simp [this]

theorem CreditsOk.chanOk {s : Station} (h : CreditsOk s) (c : ChanId) : ChanOk c (chan s c) := by
  refine ⟨h.tail c, h.fresh c, ?_, h.empty c, fun hc => by subst hc; exact h.head⟩
  cases c with
  | arm => exact h.touch
  | head =>
    intro g hg hc
    have := (h.head g (List.mem_of_mem_head? hg)).1
    rw [hc] at this; cases this

theorem CreditsOk.count {s : Station} (h : CreditsOk s) : reservedPoints s = creditOf (chan s .arm) + creditOf (chan s .head) := by
  rw [creditOf_head (CreditsOk.chanOk h .head), Nat.add_zero]
  exact h.reserved

theorem creditsOk_of {s : Station} (hc : ∀ c, ChanOk c (chan s c)) (hp : reservedPoints s = creditOf (chan s .arm) + creditOf (chan s .head))
    (hoff : working s = false ∨ (ownOf s).axes = [] → (chan s .arm).state = .disabled ∧ (chan s .head).state = .disabled) : CreditsOk s where
  reserved := by rw [hp, creditOf_head (hc .head)]; rfl
  head := (hc .head).head rfl
  tail := fun c => (hc c).tail
  fresh := fun c => (hc c).fresh
  touch := (hc .arm).touch
  empty := fun c => (hc c).empty
  off := hoff

/-- At most one entry of the point list is RESERVED (R143). -/
theorem CreditsOk.one {s : Station} (h : CreditsOk s) : reservedPoints s ≤ 1 := by
  rw [h.reserved]; split <;> omega

/-- A channel with a head segment is not DISABLED. -/
theorem CreditsOk.enabled {s : Station} (h : CreditsOk s) {c : ChanId} {g : Segment} (hg : headSeg s c = some g) : (chan s c).state ≠ .disabled := by
  intro hd
  have := h.empty c (by rw [hd]; rfl) (by rw [hd]; rfl)
  unfold headSeg at hg; rw [this] at hg; cases hg

theorem off_congr {s t : Station} (h1 : t.loader = s.loader) : (working t = false ∨ (ownOf t).axes = []) ↔ (working s = false ∨ (ownOf s).axes = []) := by
  unfold working ownOf; rw [h1]

/-- One channel has changed, and the RESERVED entries with it. -/
theorem credits_chan {s t : Station} (h : CreditsOk s) (c : ChanId) (hl : t.loader = s.loader) (ho : ∀ d, d ≠ c → chan t d = chan s d)
    (hv : ChanOk c (chan t c)) (hd : (chan s c).state = .disabled → (chan t c).state = .disabled)
    (hp : reservedPoints t + creditOf (chan s c) = reservedPoints s + creditOf (chan t c)) : CreditsOk t := by
  have hcount := CreditsOk.count h
  have hall : ∀ d, ChanOk d (chan t d) := fun d => by
    by_cases hdc : d = c
    · subst hdc; exact hv
    · rw [ho d hdc]; exact CreditsOk.chanOk h d
  have hdis : ∀ d, (chan s d).state = .disabled → (chan t d).state = .disabled := fun d hx => by
    by_cases hdc : d = c
    · subst hdc; exact hd hx
    · rw [ho d hdc]; exact hx
  refine creditsOk_of hall ?_ (fun hx => ?_)
  · cases c with
    | arm => rw [ho .head (by decide)]; omega
    | head => rw [ho .arm (by decide)]; omega
  · obtain ⟨h1, h2⟩ := h.off ((off_congr hl).mp hx)
    exact ⟨hdis .arm h1, hdis .head h2⟩

/-- Neither channel has changed, nor the RESERVED entries. -/
theorem credits_same {s t : Station} (h : CreditsOk s) (hoff : working t = false ∨ (ownOf t).axes = [] → working s = false ∨ (ownOf s).axes = [])
    (ha : t.motion.arm = s.motion.arm) (hh : t.motion.head = s.motion.head) (hp : reservedPoints t = reservedPoints s) : CreditsOk t := by
  have hc : ∀ c, chan t c = chan s c := fun c => by cases c; exact ha; exact hh
  refine creditsOk_of (fun c => by rw [hc]; exact CreditsOk.chanOk h c) ?_ (fun hx => ?_)
  · rw [hp, hc, hc]; exact CreditsOk.count h
  · rw [hc, hc]; exact h.off (hoff hx)

/-! ### Segments set in motion -/

/-- A segment that runs ran already, its zones staying held, or runs on zones held. -/
def Starts (s t : Station) : Prop :=
  ∀ c g, (chan t c).state = .running → (chan t c).queue.head? = some g →
    ((chan s c).state = .running ∧ ∃ h, (chan s c).queue.head? = some h ∧ h.acc = g.acc ∧ h.zoneSet = g.zoneSet ∧
      (holdsAll s (g.zoneSet.getD 0#32) = true → holdsAll t (g.zoneSet.getD 0#32) = true)) ∨ holdsAll t (g.zoneSet.getD 0#32) = true

theorem Starts.trans {s t u : Station} (h : Starts s t) (k : Starts t u) : Starts s u := by
  intro c g hr hg
  rcases k c g hr hg with ⟨h1, a, ha, h2, h3, h4⟩ | hz
  · rcases h c a h1 ha with ⟨k1, b, hb, k2, k3, k4⟩ | hz
    · rw [h3] at k3 k4
      exact .inl ⟨k1, b, hb, k2.trans h2, k3, fun x => h4 (k4 x)⟩
    · rw [h3] at hz; exact .inr (h4 hz)
  · exact .inr hz

theorem Starts.held {s t : Station} (h : Starts s t) : startsHeld s t := by
  intro c g hr hg
  rcases h c g hr hg with ⟨h1, a, ha, h2, h3, _⟩ | hz
  · exact .inl ⟨h1, a, ha, h2, h3⟩
  · exact .inr hz

/-- One channel has changed. -/
theorem starts_chan {s t : Station} (c : ChanId) (ho : ∀ d, d ≠ c → chan t d = chan s d) (hz : ∀ m, holdsAll s m = true → holdsAll t m = true)
    (hg : ∀ g, (chan t c).state = .running → (chan t c).queue.head? = some g →
      ((chan s c).state = .running ∧ ∃ h, (chan s c).queue.head? = some h ∧ h.acc = g.acc ∧ h.zoneSet = g.zoneSet) ∨
        holdsAll s (g.zoneSet.getD 0#32) = true) : Starts s t := by
  intro d g hr hq
  by_cases hdc : d = c
  · subst hdc
    rcases hg g hr hq with ⟨h1, h, h2, h3, h4⟩ | h
    · exact .inl ⟨h1, h, h2, h3, h4, hz _⟩
    · exact .inr (hz _ h)
  · rw [ho d hdc] at hr hq
    exact .inl ⟨hr, g, hq, rfl, rfl, hz _⟩

/-- Neither channel has changed. -/
theorem starts_same {s t : Station} (ha : t.motion.arm = s.motion.arm) (hh : t.motion.head = s.motion.head)
    (hz : ∀ c g, (chan s c).queue.head? = some g → holdsAll s (g.zoneSet.getD 0#32) = true → holdsAll t (g.zoneSet.getD 0#32) = true) :
    Starts s t := by
  have hc : ∀ c, chan t c = chan s c := fun c => by cases c; exact ha; exact hh
  intro c g hr hg
  rw [hc] at hr hg
  exact .inl ⟨hr, g, hg, rfl, rfl, hz c g hg⟩

/-! ### `Runs` -/

structure Runs (s t : Station) : Prop where
  credits : CreditsOk s → CreditsOk t
  starts : CreditsOk s → Starts s t

theorem Runs.refl (s : Station) : Runs s s := ⟨id, fun _ => starts_same rfl rfl fun _ _ _ h => h⟩
theorem Runs.trans {s t u : Station} (h : Runs s t) (k : Runs t u) : Runs s u :=
  ⟨fun x => k.credits (h.credits x), fun x => (h.starts x).trans (k.starts (h.credits x))⟩

/-- What leaves mode, image, tables, channels, points and the CONTROL frames' releases as they are. -/
theorem runs_still {s t : Station} (hl : t.loader = s.loader) (hr : t.replica.tables = s.replica.tables) (ha : t.motion.arm = s.motion.arm)
    (hh : t.motion.head = s.motion.head) (hp : reservedPoints t = reservedPoints s) (hz : releasing t = releasing s) : Runs s t := by
  have he : heldHere t = heldHere s := by unfold heldHere tabs me; rw [hr, hl]
  exact ⟨fun h => credits_same h (off_congr hl).mp ha hh hp, fun _ => starts_same ha hh fun _ _ _ x => by rw [holdsAll_congr he hz]; exact x⟩

theorem runs_calm {s t : Station} (h : Calm s t) (hz : releasing t = releasing s) : Runs s t :=
  runs_still h.loader (by rw [h.replica]) (by rw [h.motion]) (by rw [h.motion]) (by unfold reservedPoints; rw [h.touch]) hz

theorem offerControl_runs (s : Station) (src : CtlSource) (d : Nat) (b : Body) (h : releaseMaskOf b = 0#32) : Runs s (offerControl s src d b) :=
  runs_calm (offerControl_calm s src d b) (releasing_offer s src d b h)

theorem withdrawWaiting_runs (s : Station) (p : Waiting → Bool) : Runs s (withdrawWaiting s p) := runs_calm (withdrawWaiting_calm s p) rfl
theorem setOutstanding_runs (s : Station) (o : Outstanding) : Runs s (setOutstanding s o) := runs_calm (setOutstanding_calm s o) rfl
theorem withdrawOffer_runs (s : Station) : Runs s (withdrawOffer s) := runs_calm (withdrawOffer_calm s) rfl
theorem change_runs (s : Station) (c : Changer) : Runs s { s with change := c } := runs_still rfl rfl rfl rfl rfl rfl

theorem giveEvent_runs (s : Station) (e : Event) : Runs s (giveEvent s e) := by
  have w := giveEvent_works s e
  exact runs_still w.loader (by rw [w.replica]) (by rw [giveEvent_motion]) (by rw [giveEvent_motion])
    (by unfold reservedPoints; rw [giveEvent_touch]) (releasing_congr (giveEvent_control s e) w.line.flight)

theorem offerRelease_runs (s : Station) (m : ZoneMask) (w : Bool)
    (h : ∀ c g, (chan s c).queue.head? = some g → ∀ i < 32, (g.zoneSet.getD 0#32).getLsbD i = true → (heldHere s).getLsbD i = true →
      m.getLsbD i = false) : Runs s (offerRelease s m w) :=
  ⟨fun k => credits_same k (off_congr rfl).mp rfl rfl rfl, fun _ => starts_same rfl rfl fun c g hg => holdsAll_release s m _ w (h c g hg)⟩

theorem tidyRelease_runs (s : Station) : Runs s (tidyRelease s) := by
  unfold tidyRelease
  split
  · simp only; split
    · exact Runs.refl s
    · exact offerRelease_runs s _ _ fun c g hg i _ hb _ => tidyMask_free (headZones_keeps hg i hb)
  · exact Runs.refl s

theorem tidyMoment_runs (s : Station) (left : Option ZoneMask) : Runs s (tidyMoment s left) := by
  unfold tidyMoment
  split
  · exact tidyRelease_runs s
  · split
    · exact tidyRelease_runs s
    · exact (withdrawOffer_runs s).trans (tidyRelease_runs _)
    · exact (offerRelease_runs s _ _ fun c g hg i _ hb hh => withdrawMask_free (headZones_keeps hg i hb) hh).trans (setOutstanding_runs _ _)

/-! ### RESERVED entries -/

theorem reserved_upd_free (l : List PointEntry) (h : l.any isFree = true) :
    ((updFirst isFree .reserved l).filter isReservedEntry).length = (l.filter isReservedEntry).length + 1 := by
  induction l with
  | nil => cases h
  | cons e r ih =>
    unfold updFirst
    split
    · rename_i he
      have hx : isReservedEntry e = false := by cases e <;> first | rfl | cases he
      rw [List.filter_cons, List.filter_cons, hx]
      rfl
    · rename_i he
      rw [List.any_cons, Bool.or_eq_true] at h
      have := ih (h.resolve_left he)
      simp only [List.filter_cons]
      split <;> simp [this]

theorem reserved_upd_used (v : PointEntry) (hv : isReservedEntry v = false) (l : List PointEntry) :
    ((updFirst isReservedEntry v l).filter isReservedEntry).length = (l.filter isReservedEntry).length - 1 := by
  induction l with
  | nil => rfl
  | cons e r ih =>
    unfold updFirst
    split
    · rename_i he
      simp [hv, he]
    · rename_i he
      simp only [List.filter_cons]
      rw [if_neg he, if_neg he]; exact ih

theorem reserved_map (f : PointEntry → PointEntry) (hf : ∀ e, isReservedEntry (f e) = isReservedEntry e) (l : List PointEntry) :
    ((l.map f).filter isReservedEntry).length = (l.filter isReservedEntry).length := by
  induction l with
  | nil => rfl
  | cons e r ih =>
    simp only [List.map_cons, List.filter_cons, hf]
    split <;> simp [ih]

theorem reserved_queued (seq : Nat) (l : List PointEntry) : ((markQueued seq l).filter isReservedEntry).length = (l.filter isReservedEntry).length :=
  reserved_map _ (fun e => by cases e <;> first | rfl | (dsimp only; split <;> rfl)) l

theorem reserved_freed (seq : Nat) (l : List PointEntry) : ((freeQueued seq l).filter isReservedEntry).length = (l.filter isReservedEntry).length :=
  reserved_map _ (fun e => by cases e <;> first | rfl | (dsimp only; split <;> rfl)) l

theorem reserved_closed (s : Station) (late : Bool) (p : PointData → Bool) (l : List PointEntry) :
    ((closeWhere s late p l).filter isReservedEntry).length = (l.filter isReservedEntry).length :=
  reserved_map _ (fun e => by cases e <;> first | rfl | (dsimp only; split <;> rfl)) l

theorem offerPointsFrom_runs (n : Nat) (s : Station) : Runs s (offerPointsFrom n s) := by
  induction n generalizing s with
  | zero => exact Runs.refl s
  | succ n ih =>
    unfold offerPointsFrom
    split
    · exact Runs.refl s
    · simp only; split
      · rename_i d c _ _
        refine Runs.trans ?_ (ih _)
        refine runs_still rfl rfl rfl rfl (reserved_queued _ _) (releasing_congr ?_ ?_)
        · exact updateDrain_control _
        · show (updateDrain _).flight = _; rw [updateDrain_eq]
      · exact Runs.refl s

theorem offerPoints_runs (s : Station) : Runs s (offerPoints s) := offerPointsFrom_runs _ s

theorem closePoints_runs (s : Station) (late : Bool) (p : PointData → Bool) : Runs s (closePoints s late p) :=
  Runs.trans (t := setPoints s (closeWhere s late p s.touch.points)) (runs_still rfl rfl rfl rfl (reserved_closed s late p s.touch.points) rfl)
    (offerPoints_runs _)

/-! ### Channels -/

theorem setChan_loader (s : Station) (c : ChanId) (v : Chan) : (setChan s c v).loader = s.loader := by cases c <;> rfl
theorem setChan_holds (s : Station) (c : ChanId) (v : Chan) (m : ZoneMask) : holdsAll (setChan s c v) m = holdsAll s m := by cases c <;> rfl
theorem setChan_reserved (s : Station) (c : ChanId) (v : Chan) : reservedPoints (setChan s c v) = reservedPoints s := by cases c <;> rfl

theorem chanOk_nil (c : ChanId) {v : Chan} (h : v.queue = []) : ChanOk c v := by
  refine ⟨?_, ?_, ?_, fun _ _ => h, ?_⟩ <;> simp [h]

theorem creditOf_nil {v : Chan} (h : v.queue = []) : creditOf v = 0 := by unfold creditOf; rw [h]; rfl

theorem returnEntry_reserved (s : Station) : reservedPoints (returnEntry s) = reservedPoints s - 1 := reserved_upd_used .free rfl _

theorem returnCredit_reserved (s : Station) (c : ChanId) (v : Chan) (h : CreditsOk s) :
    reservedPoints (returnCredit (setChan s c v) (headSeg s c)) + creditOf (chan s c) = reservedPoints s := by
  have hcount := CreditsOk.count h
  have hle : creditOf (chan s c) ≤ reservedPoints s := by cases c <;> omega
  cases hq : (chan s c).queue with
  | nil =>
    rw [headSeg_nil hq, creditOf_nil hq]
    show reservedPoints (setChan s c v) + 0 = _
    rw [setChan_reserved]; rfl
  | cons g r =>
    rw [headSeg_cons hq]
    have hx : creditOf (chan s c) = if g.credit = true then 1 else 0 := by unfold creditOf; rw [hq]; rfl
    unfold returnCredit
    split
    · rename_i heq; cases heq
    · rename_i g' heq
      cases heq
      split
      · rename_i hc
        rw [hc] at hx
        rw [returnEntry_reserved, setChan_reserved, hx]
        simp only [if_true] at hx ⊢
        omega
      · rename_i hc
        rw [if_neg hc] at hx
        rw [setChan_reserved, hx]; rfl

theorem returnCredit_keeps (s : Station) (g : Option Segment) :
    (returnCredit s g).loader = s.loader ∧ (∀ m, holdsAll (returnCredit s g) m = holdsAll s m) ∧ ∀ c, chan (returnCredit s g) c = chan s c := by
  unfold returnCredit
  split
  · exact ⟨rfl, fun _ => rfl, fun _ => rfl⟩
  · split
    · exact ⟨rfl, fun _ => rfl, fun c => by cases c <;> rfl⟩
    · exact ⟨rfl, fun _ => rfl, fun _ => rfl⟩

/-- A channel's queue is emptied, and the credit of its head segment returned (R79). -/
theorem emptied_runs (s : Station) (c : ChanId) (v : Chan) (hq : v.queue = [])
    (hd : CreditsOk s → (chan s c).state = .disabled → v.state = .disabled) : Runs s (returnCredit (setChan s c v) (headSeg s c)) := by
  obtain ⟨k1, k2, k3⟩ := returnCredit_keeps (setChan s c v) (headSeg s c)
  have ho : ∀ d, d ≠ c → chan (returnCredit (setChan s c v) (headSeg s c)) d = chan s d := fun d hdc => by rw [k3, setChan_other _ _ _ _ hdc]
  have hv : chan (returnCredit (setChan s c v) (headSeg s c)) c = v := by rw [k3, setChan_same]
  refine ⟨fun h => credits_chan h c (k1.trans (setChan_loader _ _ _)) ho ?_ ?_ ?_, fun _ => starts_chan c ho ?_ ?_⟩
  · rw [hv]; exact chanOk_nil c hq
  · rw [hv]; exact hd h
  · rw [hv, creditOf_nil hq, returnCredit_reserved s c v h]; rfl
  · intro m hm; rw [k2, setChan_holds]; exact hm
  · intro g _ hg; rw [hv, hq] at hg; cases hg

theorem emptyChan_runs (s : Station) (c : ChanId) (st : ChanState) (h : headSeg s c ≠ none) : Runs s (emptyChan s c st) := by
  refine emptied_runs s c _ rfl fun k hd => ?_
  obtain ⟨g, hg⟩ := Option.ne_none_iff_exists'.mp h
  exact absurd hd (CreditsOk.enabled k hg)

theorem haltNow_runs (s : Station) (c : ChanId) (cause : HaltCause) (h : headSeg s c ≠ none) : Runs s (haltNow s c cause) :=
  (emptyChan_runs s c _ h).trans ((tidyMoment_runs _ _).trans (giveEvent_runs _ _))

theorem haltQuiet_runs (s : Station) (c : ChanId) (h : headSeg s c ≠ none) : Runs s (haltQuiet s c) :=
  (emptyChan_runs s c _ h).trans (tidyMoment_runs _ _)

/-- The head segment of a moving channel rewritten, the RESERVED entries following its credit. -/
theorem rehead_runs {s t : Station} {c : ChanId} {g g' : Segment} {r r' : List Segment} {st : ChanState}
    (hq : (chan s c).queue = g :: r) (hm : movingState (chan s c).state = true) (hst : movingState st = true) (hr : r' = r ∨ r' = [])
    (ht : chan t c = { chan s c with state := st, queue := g' :: r' }) (ho : ∀ d, d ≠ c → chan t d = chan s d) (hl : t.loader = s.loader)
    (hz : ∀ m, holdsAll t m = holdsAll s m) (hk : isTouchSeg g' = isTouchSeg g) (ha : g'.acc = g.acc) (hs : g'.zoneSet = g.zoneSet)
    (hrun : st = .running → (chan s c).state = .running)
    (hc : CreditsOk s → g'.credit = true → g.credit = true ∧ ∀ b, g'.phase ≠ .retract b)
    (hp : CreditsOk s → reservedPoints t + (if g.credit = true then 1 else 0) = reservedPoints s + if g'.credit = true then 1 else 0) : Runs s t := by
  have e1 : creditOf (chan s c) = if g.credit = true then 1 else 0 := by unfold creditOf; rw [hq]; rfl
  have e2 : creditOf (chan t c) = if g'.credit = true then 1 else 0 := by rw [ht]; rfl
  refine ⟨fun h => credits_chan h c hl ho ?_ ?_ ?_, fun _ => starts_chan c ho (fun m hm => by rw [hz]; exact hm) ?_⟩
  · have k := CreditsOk.chanOk h c
    rw [ht]
    refine ⟨?_, ?_, ?_, ?_, ?_⟩
    · intro b hb
      rcases hr with hr | hr
      · subst hr; exact k.tail b (by rw [hq]; exact hb)
      · subst hr; cases hb
    · intro b hb; rw [show ({ chan s c with state := st, queue := g' :: r' } : Chan).state = st from rfl, hst] at hb; cases hb
    · intro b hb hb'
      cases hb
      obtain ⟨x, y⟩ := hc h hb'
      refine ⟨?_, y⟩
      rw [hk]
      exact (k.touch g (by rw [hq]; rfl) x).1
    · intro hb; rw [show ({ chan s c with state := st, queue := g' :: r' } : Chan).state = st from rfl, hst] at hb; cases hb
    · intro hc' b hb
      have kh := k.head hc'
      rw [hq] at kh
      rcases List.mem_cons.mp hb with hb | hb
      · subst hb
        obtain ⟨x, y⟩ := kh g List.mem_cons_self
        refine ⟨?_, by rw [hk]; exact y⟩
        cases hcr : b.credit with
        | false => rfl
        | true => rw [(hc h hcr).1] at x; cases x
      · rcases hr with hr | hr
        · subst hr; exact kh b (List.mem_cons_of_mem _ hb)
        · subst hr; cases hb
  · intro hd; rw [hd] at hm; cases hm
  · rw [e1, e2]; exact hp h
  · intro b hb hb'
    rw [ht] at hb hb'
    cases hb'
    exact .inl ⟨hrun hb, g, by rw [hq]; rfl, ha.symm, hs.symm⟩

theorem beginStop_runs {s : Station} {c : ChanId} {g g' : Segment} (hg : headSeg s c = some g) (hs : (chan s c).state = .running)
    (h1 : isTouchSeg g' = isTouchSeg g) (h2 : g'.acc = g.acc) (h3 : g'.zoneSet = g.zoneSet) (h4 : g'.credit = g.credit) (h5 : g'.phase = g.phase) :
    Runs s (beginStop s c g') := by
  obtain ⟨r, hq⟩ : ∃ r, (chan s c).queue = g :: r := by
    unfold headSeg at hg
    cases hq : (chan s c).queue with
    | nil => rw [hq] at hg; cases hg
    | cons a r => rw [hq] at hg; cases hg; exact ⟨r, rfl⟩
  refine rehead_runs (g := g) (r := r) (g' := g') (r' := []) (st := .stopping) hq (by rw [hs]; rfl) rfl (.inr rfl) (setChan_same _ _ _)
    (fun d hd => setChan_other _ _ _ _ hd) (setChan_loader _ _ _) (setChan_holds _ _ _) h1 h2 h3 (fun h => by cases h) (fun k hc => ?_) (fun _ => ?_)
  · rw [h4] at hc
    exact ⟨hc, by rw [h5]; exact ((CreditsOk.chanOk k c).touch g (by rw [hq]; rfl) hc).2⟩
  · rw [h4]; exact congrArg (· + _) (setChan_reserved _ _ _)

theorem haltChan_runs (s : Station) (c : ChanId) : Runs s (haltChan s c) := by
  unfold haltChan
  split
  · exact Runs.refl s
  · rename_i g hg
    have hn : headSeg s c ≠ none := by rw [hg]; exact Option.some_ne_none g
    split
    · rename_i hst; exact beginStop_runs hg hst rfl rfl rfl rfl rfl
    · split
      · exact Runs.refl s
      · exact haltNow_runs _ _ _ hn
    · exact haltNow_runs _ _ _ hn
    · split
      · exact Runs.refl s
      · exact haltNow_runs _ _ _ hn
    · exact Runs.refl s

theorem stallCore_runs (s : Station) (c : ChanId) (cause : StallCause) : Runs s (stallCore s c cause) := by
  unfold stallCore
  split
  · rename_i hen
    simp only
    refine Runs.trans (emptied_runs s c ⟨.stalled, [], some cause⟩ rfl fun _ hd => by rw [hd] at hen; cases hen) (Runs.trans ?_ (giveEvent_runs _ _))
    split
    · exact Runs.refl _
    · split
      · exact Runs.refl _
      · exact withdrawOffer_runs _
      · refine Runs.trans (offerRelease_runs _ _ _ fun _ _ _ i _ _ hh => ?_) (setOutstanding_runs _ _)
        have e : heldHere (returnCredit (setChan s c ⟨.stalled, [], some cause⟩) (headSeg s c)) = heldHere s := by
          have w := Works.trans (works_setChan s c ⟨.stalled, [], some cause⟩ (fun _ => Nat.zero_le _)) (returnCredit_works _ (headSeg s c))
          exact heldHere_congr w.replica w.loader
        rw [e] at hh
        rw [maskLess_bit, hh]; simp
  · exact Runs.refl s

/-! ### Failures of a change -/

theorem foldl_runs {α : Type} (f : Station → α → Station) (hf : ∀ s a, Runs s (f s a)) (l : List α) (s : Station) : Runs s (l.foldl f s) := by
  induction l generalizing s with
  | nil => exact Runs.refl s
  | cons a r ih => exact Runs.trans (hf s a) (ih _)

theorem abandonByState_runs (s : Station) : Runs s (abandonByState s) := by
  unfold abandonByState
  simp only
  refine Runs.trans (withdrawWaiting_runs s (fun w => w.src == .change && isReserveFrame w.item.body)) ?_
  split
  · exact Runs.refl _
  · split
    · exact offerControl_runs _ _ _ _ rfl
    · exact Runs.refl _

theorem abandonHeld_runs (s : Station) : Runs s (abandonHeld s) := foldl_runs _ (fun _ _ => offerControl_runs _ _ _ _ rfl) _ s

theorem stopSequencer_runs (s : Station) (c : ChanId) : Runs s (stopSequencer s c) := by
  unfold stopSequencer
  split
  · exact Runs.refl s
  · rename_i g hg
    split
    · split
      · split
        · exact Runs.refl s
        · rename_i hst _; exact beginStop_runs hg hst rfl rfl rfl rfl rfl
      · exact Runs.refl s
      · exact haltQuiet_runs _ _ (by rw [hg]; exact Option.some_ne_none g)
    · exact Runs.refl s

theorem endFailure_runs (s : Station) : Runs s (endFailure s) := by
  unfold endFailure
  split
  · exact Runs.refl s
  · split
    · exact Runs.refl s
    · exact (change_runs s _).trans ((tidyMoment_runs _ _).trans (giveEvent_runs _ _))

theorem reportMount_runs (s : Station) (code : Option Code) : Runs s (reportMount s code) := offerControl_runs _ _ _ _ rfl
theorem stopBoth_runs (s : Station) : Runs s (stopBoth s) := (stopSequencer_runs s _).trans (stopSequencer_runs _ _)
theorem dropWaiting_runs (s : Station) (c : ChanId) : Runs s (dropWaiting s c) := by
  unfold dropWaiting
  split
  · exact Runs.refl s
  · exact stopSequencer_runs s c
theorem dropBoth_runs (s : Station) : Runs s (dropBoth s) := (dropWaiting_runs s _).trans (dropWaiting_runs _ _)

theorem failWith_runs {stop : Station → Station} (hs : ∀ t, Runs t (stop t)) (s : Station) (cause : ChangeCause) (mount : Bool) :
    Runs s (failWith stop s cause mount) := by
  unfold failWith
  split
  · simp only
    have h : Runs s (stop (meetFailure (abandonByState s) cause)) := (abandonByState_runs s).trans ((change_runs _ _).trans (hs _))
    refine Runs.trans ?_ (endFailure_runs _)
    split
    · exact h.trans (reportMount_runs _ _)
    · exact h
  · exact endFailure_runs s

theorem failByMotion_runs (s : Station) (cause : ChangeCause) (mount : Bool) : Runs s (failByMotion s cause mount) :=
  failWith_runs stopBoth_runs s cause mount
theorem failByStart_runs (s : Station) (cause : HaltCause) : Runs s (failByStart s cause) := failByMotion_runs _ _ _
theorem failByStall_runs (s : Station) (cause : StallCause) : Runs s (failByStall s cause) :=
  (withdrawWaiting_runs s _).trans (failWith_runs dropBoth_runs _ _ _)

theorem failByRack_runs (s : Station) (cause : ChangeCause) : Runs s (failByRack s cause) := by
  unfold failByRack
  split
  · simp only
    have h : Runs s (stopBoth (meetFailure (abandonHeld s) cause)) := (abandonHeld_runs s).trans ((change_runs _ _).trans (stopBoth_runs _))
    refine Runs.trans ?_ (endFailure_runs _)
    split
    · exact h.trans (reportMount_runs _ _)
    · exact h
  · exact Runs.refl s

end Sys2Proof.Laws
end

