-- ==== Sys2Proof/Laws/CreditsStart.lean ====
section
/-! SUPPORT. `Runs` through the start sequence (R75, R79, R80), completions, stops and stalls (R81 to R85), the Change Sequencer (R122 to R128) and
the reactions of the units to a frame. -/

namespace Sys2Proof.Laws

open Sys2Proof.Machine

theorem queue_of_head {s : Station} {c : ChanId} {g : Segment} (h : headSeg s c = some g) : ∃ r, (chan s c).queue = g :: r := by
  unfold headSeg at h
  cases hq : (chan s c).queue with
  | nil => rw [hq] at h; cases h
  | cons a r => rw [hq] at h; cases h; exact ⟨r, rfl⟩

theorem creditOf_cons {v : Chan} {g : Segment} {r : List Segment} (h : v.queue = g :: r) : creditOf v = if g.credit = true then 1 else 0 := by
  unfold creditOf; rw [h]; rfl

/-- A channel whose head segment waits or starts takes the state of a waiting or of a running one, its segment rewritten; where it starts, on
zones held. -/
theorem headed_runs {s t : Station} {c : ChanId} {g g' : Segment} {r : List Segment} {st : ChanState} (hq : (chan s c).queue = g :: r)
    (ht : chan t c = { chan s c with state := st, queue := g' :: r })
    (ho : ∀ d, d ≠ c → chan t d = chan s d) (hl : t.loader = s.loader) (hz : ∀ m, holdsAll t m = holdsAll s m)
    (hk : isTouchSeg g' = isTouchSeg g) (hph : CreditsOk s → g'.phase = .approach)
    (hst : waitingState st = true ∨ (st = .running ∧ holdsAll s (g'.zoneSet.getD 0#32) = true))
    (hc : CreditsOk s → g'.credit = true → isTouchSeg g = true)
    (hp : CreditsOk s → reservedPoints t + (if g.credit = true then 1 else 0) = reservedPoints s + if g'.credit = true then 1 else 0) : Runs s t := by
  have e1 := creditOf_cons hq
  have e2 : creditOf (chan t c) = if g'.credit = true then 1 else 0 := by rw [ht]; rfl
  refine ⟨fun h => credits_chan h c hl ho ?_ ?_ ?_, fun _ => starts_chan c ho (fun m hm => by rw [hz]; exact hm) ?_⟩
  · have k := CreditsOk.chanOk h c
    rw [ht]
    refine ⟨fun b hb => k.tail b (by rw [hq]; exact hb), ?_, ?_, ?_, ?_⟩
    · intro b _ hb; cases hb; exact hph h
    · intro b hb hb'; cases hb; exact ⟨by rw [hk]; exact hc h hb', fun b => by rw [hph h]; exact fun hx => by cases hx⟩
    · intro h1 h2
      rcases hst with hst | ⟨hst, _⟩
      · rw [show ({ chan s c with state := st, queue := g' :: r } : Chan).state = st from rfl, hst] at h2; cases h2
      · rw [show ({ chan s c with state := st, queue := g' :: r } : Chan).state = st from rfl, hst] at h1; cases h1
    · intro hc' b hb
      have kh := k.head hc'
      rw [hq] at kh
      rcases List.mem_cons.mp hb with hb | hb
      · subst hb
        obtain ⟨x, y⟩ := kh g List.mem_cons_self
        refine ⟨?_, by rw [hk]; exact y⟩
        cases hcr : b.credit with
        | false => rfl
        | true => rw [hc h hcr] at y; cases y
      · exact kh b (List.mem_cons_of_mem _ hb)
  · intro hd
    have := (CreditsOk.chanOk h c).empty (by rw [hd]; rfl) (by rw [hd]; rfl)
    rw [hq] at this; cases this
  · rw [e1, e2]; exact hp h
  · intro b hb hb'
    rw [ht] at hb hb'
    cases hb'
    rcases hst with hst | ⟨_, hx⟩
    · rw [show ({ chan s c with state := st, queue := g' :: r } : Chan).state = st from rfl] at hb; rw [hb] at hst; cases hst
    · exact .inr hx

theorem wait_not_moving {st : ChanState} (h : waitingState st = true) : movingState st = false := by cases st <;> first | rfl | cases h

theorem setHead_head {s : Station} {c : ChanId} {g : Segment} {r : List Segment} (h : (chan s c).queue = g :: r) (g' : Segment) :
    chan (setHead s c g') c = { chan s c with queue := g' :: r } := by
  unfold setHead; rw [h]; exact setChan_same _ _ _

theorem setHead_else (s : Station) (c : ChanId) (g : Segment) :
    (setHead s c g).loader = s.loader ∧ (∀ m, holdsAll (setHead s c g) m = holdsAll s m) ∧ reservedPoints (setHead s c g) = reservedPoints s ∧
      ∀ d, d ≠ c → chan (setHead s c g) d = chan s d := by
  unfold setHead
  split
  · exact ⟨rfl, fun _ => rfl, rfl, fun _ _ => rfl⟩
  · exact ⟨setChan_loader _ _ _, setChan_holds _ _ _, setChan_reserved _ _ _, fun d hd => setChan_other _ _ _ _ hd⟩

/-! ### The start sequence -/

/-- A waiting channel takes another waiting state. -/
theorem setState_runs {s : Station} {c : ChanId} {st : ChanState} {g : Segment} (hg : headSeg s c = some g) (hw : waitingState (chan s c).state = true)
    (hst : waitingState st = true) : Runs s (setState s c st) := by
  obtain ⟨r, hq⟩ := queue_of_head hg
  have hm := wait_not_moving hw
  exact headed_runs (g' := g) hq (by unfold setState; rw [setChan_same, ← hq]) (fun d hd => setChan_other _ _ _ _ hd) (setChan_loader _ _ _)
    (setChan_holds _ _ _) rfl (fun h => h.fresh c g hm (by rw [hq]; rfl)) (.inl hst)
    (fun h hc => ((CreditsOk.chanOk h c).touch g (by rw [hq]; rfl) hc).1) (fun _ => congrArg (· + _) (setChan_reserved _ _ _))

theorem startMotion_keeps (s : Station) (c : ChanId) (g : Segment) :
    (startMotion s c g).loader = s.loader ∧ (∀ m, holdsAll (startMotion s c g) m = holdsAll s m) ∧
      reservedPoints (startMotion s c g) = reservedPoints s := by
  obtain ⟨h1, h2, h3, _⟩ := setHead_else s c { g with phase := .approach, marks := .all false }
  unfold startMotion setState
  simp only
  split
  · exact ⟨(setChan_loader _ _ _).trans h1, fun m => (setChan_holds _ _ _ m).trans (h2 m), (setChan_reserved _ _ _).trans h3⟩
  · exact ⟨(setChan_loader _ _ _).trans h1, fun m => (setChan_holds _ _ _ m).trans (h2 m), (setChan_reserved _ _ _).trans h3⟩

/-- A segment that waits is set in motion on zones held (R56, R80). -/
theorem startMotion_runs {s : Station} {c : ChanId} {g g' : Segment} (hg : headSeg s c = some g)
    (hk : isTouchSeg g' = isTouchSeg g) (hc : g'.credit = g.credit) (hz : holdsAll s (g'.zoneSet.getD 0#32) = true) :
    Runs s (startMotion s c g') := by
  obtain ⟨r, hq⟩ := queue_of_head hg
  obtain ⟨k1, k2, k3⟩ := startMotion_keeps s c g'
  exact headed_runs (g' := { g' with phase := .approach, marks := .all false }) hq (startMotion_same hq g')
    (fun d hd => startMotion_other s c d g' hd) k1 k2 hk (fun _ => rfl) (.inr ⟨rfl, hz⟩)
    (fun h hx => ((CreditsOk.chanOk h c).touch g (by rw [hq]; rfl) (hc ▸ hx)).1) (fun _ => by rw [k3]; exact congrArg (reservedPoints s + ·) (by rw [← hc]))

theorem claimFor_runs (s : Station) (n : Nat) : Runs s { s with motion := { s.motion with claimFor := n } } := runs_still rfl rfl rfl rfl rfl rfl

theorem offerClaim_runs (s : Station) (g : Segment) (m : ZoneMask) : Runs s (offerClaim s g m) :=
  (claimFor_runs s g.acc).trans ((offerControl_runs _ _ _ _ rfl).trans (setOutstanding_runs _ _))

theorem claimIfClear_runs (s : Station) (g : Segment) (m : ZoneMask) : Runs s (claimIfClear s g m) := by
  unfold claimIfClear
  split
  · exact offerClaim_runs s g m
  · exact Runs.refl s

/-- The station that a start sequence leaves where it waits or starts. -/
def outcomeRuns (s : Station) : StartOutcome → Prop
  | .waits t => Runs s t
  | .starts t => Runs s t
  | .fails _ => True

theorem outcomeRuns_trans {s t : Station} (h : Runs s t) (o : StartOutcome) (k : outcomeRuns t o) : outcomeRuns s o := by
  cases o
  · exact h.trans k
  · trivial
  · exact h.trans k

theorem waitZone_runs {s : Station} {c : ChanId} {g g' : Segment} (hg : headSeg s c = some g)
    (hk : isTouchSeg g' = isTouchSeg g) (hc : g'.credit = g.credit) (hph : CreditsOk s → g'.phase = .approach) :
    Runs s (setState (setHead s c g') c .waitZone) := by
  obtain ⟨r, hq⟩ := queue_of_head hg
  obtain ⟨k1, k2, k3, k4⟩ := setHead_else s c g'
  refine headed_runs (g' := g') (st := .waitZone) hq ?_ ?_ ((setChan_loader _ _ _).trans k1) (fun m => (setChan_holds _ _ _ m).trans (k2 m)) hk hph
    (.inl rfl) (fun h hx => ((CreditsOk.chanOk h c).touch g (by rw [hq]; rfl) (hc ▸ hx)).1)
    (fun _ => by unfold setState; rw [setChan_reserved, k3]; exact congrArg (reservedPoints s + ·) (by rw [← hc]))
  · unfold setState; rw [setChan_same, setHead_head hq]
  · intro d hd; unfold setState; rw [setChan_other _ _ _ _ hd, k4 d hd]

theorem zoneStep_runs {s : Station} {c : ChanId} {g g' : Segment} (hg : headSeg s c = some g)
    (hk : isTouchSeg g' = isTouchSeg g) (hc : g'.credit = g.credit) (hph : CreditsOk s → g'.phase = .approach) : outcomeRuns s (zoneStep s c g') := by
  unfold zoneStep
  simp only
  split
  · trivial
  · split
    · rename_i hz; exact startMotion_runs hg hk hc hz
    · exact (waitZone_runs (g' := { g' with zoneSet := some (zoneSetOf s g') }) hg hk hc hph).trans (claimIfClear_runs _ _ _)

theorem laterSteps_runs {s : Station} {c : ChanId} {g : Segment} (hg : headSeg s c = some g) (hw : waitingState (chan s c).state = true) :
    outcomeRuns s (laterSteps s c g) := by
  obtain ⟨r, hq⟩ := queue_of_head hg
  have hph : CreditsOk s → g.phase = .approach := fun h => h.fresh c g (wait_not_moving hw) (by rw [hq]; rfl)
  unfold laterSteps
  split
  · exact zoneStep_runs hg rfl rfl hph
  · split
    · trivial
    · simp only
      split
      · exact zoneStep_runs (g' := { g with axisTarget := commanded s (tipOffset s (headIndex s)) g.kind }) hg rfl rfl hph
      · trivial

theorem creditStep_runs {s : Station} {c : ChanId} {g : Segment} (hg : headSeg s c = some g) (hw : waitingState (chan s c).state = true) :
    ∀ r ∈ creditStep s c g, Runs s r.1 ∧ headSeg r.1 c = some r.2 ∧ waitingState (chan r.1 c).state = true := by
  intro x hx
  obtain ⟨r, hq⟩ := queue_of_head hg
  have hm := wait_not_moving hw
  unfold creditStep at hx
  split at hx
  · rename_i ht
    simp only [Bool.and_eq_true, Bool.not_eq_true'] at ht
    split at hx
    · rename_i hf
      cases hx
      have hq' : (chan (reserveEntry s) c).queue = g :: r := by cases c <;> exact hq
      have hch : chan (setHead (reserveEntry s) c { g with credit := true }) c = { chan s c with queue := { g with credit := true } :: r } := by
        rw [setHead_head hq']; cases c <;> rfl
      obtain ⟨k1, k2, k3, k4⟩ := setHead_else (reserveEntry s) c { g with credit := true }
      have hst : waitingState (chan (setHead (reserveEntry s) c { g with credit := true }) c).state = true := by rw [hch]; exact hw
      refine ⟨headed_runs (g' := { g with credit := true }) (st := (chan s c).state) hq hch ?_ k1 k2 rfl
        (fun h => h.fresh c g hm (by rw [hq]; rfl)) (.inl hw) (fun _ _ => ht.1) (fun _ => ?_), headSeg_cons (by rw [hch]), hst⟩
      · intro d hd; rw [k4 d hd]; cases d <;> rfl
      · rw [k3, ht.2]
        show ((updFirst isFree .reserved s.touch.points).filter isReservedEntry).length + _ = _
        rw [reserved_upd_free _ hf]; rfl
    · cases hx
  · cases hx; exact ⟨Runs.refl s, hg, hw⟩

theorem startSequence_runs {s : Station} {c : ChanId} {g : Segment} (hg : headSeg s c = some g) (hw : waitingState (chan s c).state = true) :
    outcomeRuns s (startSequence s c g) := by
  unfold startSequence
  split
  · exact setState_runs hg hw rfl
  · rename_i s1 g1 h
    obtain ⟨k1, k2, k3⟩ := creditStep_runs hg hw (s1, g1) h
    exact outcomeRuns_trans k1 _ (laterSteps_runs k2 k3)

theorem afterCredit_runs {s : Station} {c : ChanId} {g : Segment} (hg : headSeg s c = some g) (hw : waitingState (chan s c).state = true) :
    Runs s (afterCredit s c g) ∧ headSeg (afterCredit s c g) c ≠ none := by
  unfold afterCredit
  split
  · exact ⟨Runs.refl s, by rw [hg]; exact Option.some_ne_none g⟩
  · rename_i s1 g1 h
    obtain ⟨k1, k2, _⟩ := creditStep_runs hg hw (s1, g1) h
    exact ⟨k1, by rw [k2]; exact Option.some_ne_none g1⟩

theorem leadSteps_runs (n : Nat) (s : Station) : Runs s (leadSteps n s) := by
  induction n generalizing s with
  | zero => exact Runs.refl s
  | succ n ih =>
    unfold leadSteps
    split
    · exact Runs.refl s
    · rename_i c _
      split
      · rename_i g hst hg
        have hw : waitingState (chan s c).state = true := by rw [hst]; rfl
        have hr := startSequence_runs hg hw
        split
        · rename_i s1 h; rw [h] at hr; exact hr
        · rename_i s1 h; rw [h] at hr; exact hr
        · simp only
          obtain ⟨k1, k2⟩ := afterCredit_runs hg hw
          refine Runs.trans ?_ (ih _)
          split
          · exact k1.trans ((haltNow_runs _ _ _ k2).trans (failByStart_runs _ _))
          · exact k1.trans (haltNow_runs _ _ _ k2)
      · exact Runs.refl s

theorem chooseLead_runs (s : Station) : Runs s (chooseLead s) := leadSteps_runs 3 s

/-- A segment accepted at the tail of a channel that takes segments (R74). -/
theorem enqueueSegment_runs (s : Station) (c : ChanId) (kind : SegKind) (origin : Origin) (recovery : Bool) (speed : Nat)
    (ht : takesSegment (chan s c).state = true) (hk : c = .head → ∀ a, kind ≠ .touch a) : Runs s (enqueueSegment s c kind origin recovery speed) := by
  have hch : chan (enqueueSegment s c kind origin recovery speed) c = { chan s c with
      queue := (chan s c).queue ++ [freshSegment s kind origin recovery speed]
      state := if (chan s c).state = .idle then .waitTurn else (chan s c).state } := by cases c <;> rfl
  have ho : ∀ d, d ≠ c → chan (enqueueSegment s c kind origin recovery speed) d = chan s d := by
    intro d hd; cases c <;> cases d <;> first | exact absurd rfl hd | rfl
  have hl : (enqueueSegment s c kind origin recovery speed).loader = s.loader := by cases c <;> rfl
  have hz : ∀ m, holdsAll (enqueueSegment s c kind origin recovery speed) m = holdsAll s m := fun m => by cases c <;> rfl
  have hp : reservedPoints (enqueueSegment s c kind origin recovery speed) = reservedPoints s := by cases c <;> rfl
  have hcr : creditOf (chan (enqueueSegment s c kind origin recovery speed) c) = creditOf (chan s c) := by
    rw [hch]
    unfold creditOf
    cases (chan s c).queue with
    | nil => rfl
    | cons a r => rfl
  refine ⟨fun h => credits_chan h c hl ho ?_ ?_ (by rw [hp, hcr]), fun h => starts_chan c ho (fun m hm => by rw [hz]; exact hm) ?_⟩
  · have k := CreditsOk.chanOk h c
    rw [hch]
    refine ⟨?_, ?_, ?_, ?_, ?_⟩
    · intro b hb
      cases hq : (chan s c).queue with
      | nil => simp [hq] at hb
      | cons a r =>
        simp only [hq, List.cons_append, List.drop_succ_cons, List.drop_zero] at hb
        rcases List.mem_append.mp hb with hb | hb
        · exact k.tail b (by rw [hq]; exact hb)
        · rw [List.mem_singleton.mp hb]; exact ⟨rfl, rfl⟩
    · intro b hm hb
      cases hq : (chan s c).queue with
      | nil => simp only [hq, List.nil_append, List.head?_cons, Option.some.injEq] at hb; rw [← hb]; rfl
      | cons a r =>
        refine k.fresh b ?_ (by simpa [hq] using hb)
        simp only at hm
        split at hm
        · rename_i hi; rw [hi]; rfl
        · exact hm
    · intro b hb hb'
      cases hq : (chan s c).queue with
      | nil => simp only [hq, List.nil_append, List.head?_cons, Option.some.injEq] at hb; rw [← hb] at hb'; cases hb'
      | cons a r => exact k.touch b (by simpa [hq] using hb) hb'
    · intro h1 h2
      simp only at h1 h2
      split at h1
      · rename_i hi; rw [if_pos hi] at h2; cases h2
      · rename_i hi; rw [if_neg hi] at h2
        cases hst : (chan s c).state <;> rw [hst] at ht h1 h2 hi <;> first | exact absurd rfl hi | (exact absurd ht (by decide)) | (exact absurd h1 (by decide)) | exact absurd h2 (by decide)
    · intro hc b hb
      simp only at hb
      rcases List.mem_append.mp hb with hb | hb
      · exact k.head hc b hb
      · rw [List.mem_singleton.mp hb]
        refine ⟨rfl, ?_⟩
        unfold isTouchSeg freshSegment
        simp only
        split
        · rename_i a hx; exact absurd rfl (hk hc a)
        · rfl
  · intro hd; rw [hd] at ht; cases ht
  · intro b hb hb'
    rw [hch] at hb hb'
    simp only at hb hb'
    split at hb
    · cases hb
    · cases hq : (chan s c).queue with
      | nil =>
        rw [hq] at hb'
        simp only [List.nil_append, List.head?_cons, Option.some.injEq] at hb'
        right
        rw [← hb', holdsAll_iff]
        intro i _ hi
        simp [freshSegment] at hi
      | cons a r =>
        rw [hq] at hb'
        simp only [List.cons_append, List.head?_cons, Option.some.injEq] at hb'
        exact .inl ⟨hb, a, rfl, by rw [hb'], by rw [hb']⟩

/-! ### Completions, stops and stalls -/

theorem homed_runs (s : Station) (h : PerAxis Bool) : Runs s { s with motion := { s.motion with homed := h } } := runs_still rfl rfl rfl rfl rfl rfl

/-- A segment whose credit is used leaves the head of its channel (R81). -/
theorem shift_runs {s : Station} {c : ChanId} {g : Segment} (hg : headSeg s c = some g) (hc : CreditsOk s → g.credit = false)
    {t : Station} (ht : chan t c = { chan s c with
      state := if ((chan s c).queue.drop 1).isEmpty = true then .idle else .waitTurn, queue := (chan s c).queue.drop 1 })
    (ho : ∀ d, d ≠ c → chan t d = chan s d) (hl : t.loader = s.loader) (hz : ∀ m, holdsAll t m = holdsAll s m)
    (hp : reservedPoints t = reservedPoints s) : Runs s t := by
  obtain ⟨r, hq⟩ := queue_of_head hg
  rw [hq] at ht
  simp only [List.drop_succ_cons, List.drop_zero] at ht
  refine ⟨fun h => credits_chan h c hl ho ?_ ?_ ?_, fun _ => starts_chan c ho (fun m hm => by rw [hz]; exact hm) ?_⟩
  · have k := CreditsOk.chanOk h c
    have kt : ∀ b ∈ r, b.credit = false ∧ b.phase = .approach := fun b hb => k.tail b (by rw [hq]; exact hb)
    rw [ht]
    refine ⟨fun b hb => kt b (List.mem_of_mem_drop hb), fun b _ hb => (kt b (List.mem_of_mem_head? hb)).2, fun b hb hb' => ?_, fun _ h2 => ?_, fun hc b hb => ?_⟩
    · rw [(kt b (List.mem_of_mem_head? hb)).1] at hb'; cases hb'
    · cases hr : r with
      | nil => rfl
      | cons a q => rw [hr] at h2; cases h2
    · exact k.head hc b (by rw [hq]; exact List.mem_cons_of_mem _ hb)
  · intro hd
    have := (CreditsOk.chanOk h c).empty (by rw [hd]; rfl) (by rw [hd]; rfl)
    rw [hq] at this; cases this
  · rw [hp, creditOf_cons hq, hc h, ht]
    have k := CreditsOk.chanOk h c
    unfold creditOf
    cases hr : r with
    | nil => rfl
    | cons a q =>
      have := (k.tail a (by rw [hq, hr]; exact List.mem_cons_self)).1
      simp [this]
  · intro b hb _
    rw [ht] at hb
    simp only at hb
    split at hb <;> cases hb

theorem completeSegment_runs {s : Station} {c : ChanId} {g : Segment} (hg : headSeg s c = some g) (hc : CreditsOk s → g.credit = false) :
    Runs s (completeSegment s c g) := by
  unfold completeSegment
  simp only
  have key : ∀ u : Station, (chan u c = { chan s c with
        state := if ((chan s c).queue.drop 1).isEmpty = true then .idle else .waitTurn, queue := (chan s c).queue.drop 1 }) →
      (∀ d, d ≠ c → chan u d = chan s d) → u.loader = s.loader → (∀ m, holdsAll u m = holdsAll s m) → reservedPoints u = reservedPoints s →
      Runs s (if (((chan s c).queue.drop 1).isEmpty && !fromSequencer g) = true then giveEvent (tidyMoment u none) (.channelIdle c) else tidyMoment u none) := by
    intro u h1 h2 h3 h4 h5
    have h := (shift_runs hg hc h1 h2 h3 h4 h5).trans (tidyMoment_runs u none)
    split
    · exact h.trans (giveEvent_runs _ _)
    · exact h
  refine key _ ?_ ?_ ?_ ?_ ?_
  · cases c <;> (split <;> rfl)
  · intro d hd
    cases c <;> cases d <;> first | exact absurd rfl hd | (split <;> rfl)
  · cases c <;> (split <;> rfl)
  · intro m
    cases c <;> (split <;> rfl)
  · cases c <;> (split <;> rfl)

theorem endStop_runs {s : Station} {c : ChanId} {g : Segment} (hg : headSeg s c = some g) : Runs s (endStop s c g) := by
  unfold endStop
  simp only
  have h : Runs s (tidyMoment (emptyChan s c .halted) (claimedSet s c)) :=
    (emptyChan_runs s c _ (by rw [hg]; exact Option.some_ne_none g)).trans (tidyMoment_runs _ _)
  split
  · exact h
  · exact h.trans (giveEvent_runs _ _)

theorem stall_runs (s : Station) (c : ChanId) (cause : StallCause) : Runs s (stall s c cause) := by
  unfold stall
  split
  · exact (stallCore_runs s c cause).trans ((failByStall_runs _ _).trans (chooseLead_runs _))
  · exact Runs.refl s

theorem collide_runs (s : Station) (c : ChanId) : Runs s (collide s c) := by
  unfold collide
  split
  · simp only
    refine Runs.trans ?_ ((failByStall_runs _ _).trans (chooseLead_runs _))
    refine (stallCore_runs s c .collision).trans ?_
    split
    · exact Runs.refl _
    · exact offerControl_runs _ _ _ _ rfl
  · exact Runs.refl s

theorem giveSegment_runs (s : Station) (c : ChanId) (kind : SegKind) (runOn : Bool) (speed : Nat) (hk : ∀ a, kind ≠ .touch a) :
    Runs s (giveSegment s c kind runOn speed) := by
  unfold giveSegment
  split
  · rename_i h
    simp only [Bool.and_eq_true, decide_eq_true_eq] at h
    exact (enqueueSegment_runs _ _ _ _ _ _ h.1 fun _ => hk).trans (chooseLead_runs _)
  · exact failByStart_runs _ _

/-! ### Enabling and clearing -/

/-- A channel with nothing queued takes a state in which nothing moves or waits. -/
theorem idled_runs {s : Station} {c : ChanId} {v : Chan} (hq : v.queue = []) (hs : CreditsOk s → (chan s c).queue = [])
    (hd : CreditsOk s → (chan s c).state = .disabled → v.state = .disabled) (hr : v.state ≠ .running) : Runs s (setChan s c v) := by
  refine ⟨fun h => credits_chan h c (setChan_loader _ _ _) (fun d hdc => setChan_other _ _ _ _ hdc) ?_ ?_ ?_, fun _ => starts_chan c
    (fun d hdc => setChan_other _ _ _ _ hdc) (fun m hm => by rw [setChan_holds]; exact hm) ?_⟩
  · rw [setChan_same]; exact chanOk_nil c hq
  · rw [setChan_same]; exact hd h
  · rw [setChan_reserved, setChan_same, creditOf_nil hq, creditOf_nil (hs h)]
  · intro g hg; rw [setChan_same] at hg; exact absurd hg hr

theorem offerMount_runs (s : Station) : Runs s (offerMount s) := by
  unfold offerMount
  split
  · exact reportMount_runs _ _
  · exact Runs.refl s

theorem clearChan_runs (s : Station) (c : ChanId) : Runs s (clearChan s c) := by
  have key : movingState (chan s c).state = false → waitingState (chan s c).state = false → (chan s c).state ≠ .disabled →
      Runs s (tidyMoment (setChan s c ⟨.idle, [], none⟩) none) := fun h1 h2 h3 =>
    (idled_runs (v := ⟨.idle, [], none⟩) rfl (fun h => h.empty c h1 h2) (fun _ h => absurd h h3) (by decide)).trans (tidyMoment_runs _ _)
  unfold clearChan
  split
  · rename_i hs
    exact key (by rw [hs]; rfl) (by rw [hs]; rfl) (by rw [hs]; decide)
  · rename_i hs
    split
    · exact Runs.refl s
    · simp only
      have := key (by rw [hs]; rfl) (by rw [hs]; rfl) (by rw [hs]; decide)
      split
      · exact this.trans (offerMount_runs _)
      · exact this
  · exact Runs.refl s

/-! ### The Change Sequencer -/

theorem armTo_runs (s : Station) (v : Vec3) (r : Bool) : Runs s (armTo s v r) := giveSegment_runs _ _ _ _ _ (fun a h => by cases h)
theorem enterState_runs (s : Station) (st : ChangeState) (l : Leg) : Runs s (enterState s st l) := change_runs s _
theorem setLeg_runs (s : Station) (l : Leg) : Runs s (setLeg s l) := change_runs s _

theorem enterReservePickup_runs (s : Station) : Runs s (enterReservePickup s) := by
  unfold enterReservePickup
  simp only
  refine (enterState_runs s .reservePickup .none).trans ?_
  split
  · exact offerControl_runs _ _ _ _ rfl
  · exact failByRack_runs _ _

theorem enterReserve_runs (s : Station) : Runs s (enterReserve s) := by
  unfold enterReserve
  split
  · exact enterReservePickup_runs s
  · simp only
    refine (enterState_runs s .reserveDeposit .none).trans ?_
    split
    · exact offerControl_runs _ _ _ _ rfl
    · exact failByRack_runs _ _

theorem depositDone_runs (s : Station) : Runs s (depositDone s) := by
  unfold depositDone
  split
  · exact Runs.refl s
  · exact (change_runs s _).trans ((offerControl_runs _ _ _ _ rfl).trans ((enterState_runs _ _ _).trans (armTo_runs _ _ _)))

theorem engageDone_runs (s : Station) : Runs s (engageDone s) := (change_runs s _).trans (armTo_runs _ _ _)

theorem seatReached_runs (s : Station) : Runs s (seatReached s) := by
  unfold seatReached
  simp only
  split
  · split
    · exact change_runs s _
    · exact (change_runs s _).trans (depositDone_runs _)
  · split
    · exact (change_runs s _).trans (engageDone_runs _)
    · exact change_runs s _

theorem judgeDeposit_runs (s : Station) : Runs s (judgeDeposit s) := by
  unfold judgeDeposit
  split
  · exact Runs.refl s
  · simp only
    split
    · split
      · exact (change_runs s _).trans (enterReservePickup_runs _)
      · exact Runs.refl s
    · split
      · exact Runs.refl s
      · exact failByRack_runs _ _

theorem offerTake_runs (s : Station) : Runs s (offerTake s) := (enterState_runs s _ _).trans (offerControl_runs _ _ _ _ rfl)

theorem changeSegmentEnd_runs (s : Station) : Runs s (changeSegmentEnd s) := by
  unfold changeSegmentEnd
  split
  · exact endFailure_runs s
  · split
    · exact enterReserve_runs s
    · split
      · exact Runs.refl s
      · exact (setLeg_runs s _).trans (armTo_runs _ _ _)
    · exact seatReached_runs s
    · exact (setLeg_runs s _).trans (judgeDeposit_runs _)
    · exact (setLeg_runs s _).trans (armTo_runs _ _ _)
    · exact seatReached_runs s
    · exact offerTake_runs s
    · exact Runs.refl s

theorem changeDone_runs (s : Station) : Runs s (changeDone s) := (change_runs s _).trans ((tidyMoment_runs _ _).trans (giveEvent_runs _ _))

theorem reserveApplied_runs (s : Station) (p : Nat) (took : Bool) : Runs s (reserveApplied s p took) := by
  unfold reserveApplied
  simp only
  split
  · exact Runs.refl s
  · split
    · split
      · exact (change_runs s _).trans (enterState_runs _ _ _)
      · exact failByRack_runs _ _
    · exact Runs.refl s

theorem unlockApplied_runs (s : Station) (p : Nat) : Runs s (unlockApplied s p) := by
  unfold unlockApplied
  split
  · simp only
    split
    · exact (change_runs s _).trans ((enterState_runs _ _ _).trans (armTo_runs _ _ _))
    · exact (change_runs s _).trans ((enterState_runs _ _ _).trans (armTo_runs _ _ _))
    · exact Runs.refl s
  · exact Runs.refl s

theorem depositApplied_runs (s : Station) (m p : Nat) (took : Bool) : Runs s (depositApplied s m p took) := by
  unfold depositApplied
  split
  · exact change_runs s _
  · exact Runs.refl s

theorem takeApplied_runs (s : Station) (t p : Nat) (took : Bool) : Runs s (takeApplied s t p took) := by
  unfold takeApplied
  split
  · split
    · refine Runs.trans ?_ (Runs.trans (change_runs _ _) (endFailure_runs _))
      split
      · exact Runs.refl s
      · exact reportMount_runs _ _
    · split
      · exact changeDone_runs s
      · exact failByRack_runs _ _
  · exact Runs.refl s

theorem watchReservation_runs (s : Station) : Runs s (watchReservation s) := by
  unfold watchReservation
  split
  · exact Runs.refl s
  · split
    · exact judgeDeposit_runs s
    · split
      · split
        · exact Runs.refl s
        · split
          · exact Runs.refl s
          · exact failByRack_runs _ _
      · exact Runs.refl s

theorem changeApplied_runs (s : Station) (f : Frame) (took : Bool) : Runs s (changeApplied s f took) := by
  unfold changeApplied
  split
  · exact Runs.refl s
  · simp only
    have key : ∀ u : Station, Runs s u → Runs s (if changeRuns u = true then watchReservation u else u) := fun u hu => by
      split
      · exact hu.trans (watchReservation_runs u)
      · exact hu
    refine key _ ?_
    split
    · split
      · exact reserveApplied_runs _ _ _
      · exact Runs.refl s
    · split
      · exact unlockApplied_runs _ _
      · exact Runs.refl s
    · split
      · exact depositApplied_runs _ _ _ _
      · exact Runs.refl s
    · split
      · exact takeApplied_runs _ _ _ _
      · exact Runs.refl s
    · exact Runs.refl s

theorem changeHalt_runs (s : Station) : Runs s (changeHalt s) := by
  unfold changeHalt
  split
  · exact Runs.refl s
  · split
    · exact change_runs s _
    · exact failByMotion_runs _ _ _

theorem startChange_runs (s : Station) (tag : Code) (t pt : Nat) (deposit : Option (Nat × Nat)) : Runs s (startChange s tag t pt deposit) :=
  (change_runs s _).trans (giveSegment_runs _ _ _ _ _ (fun a h => by cases h))

/-! ### The claim and the reactions to a frame -/

theorem deadlockHalt_runs (s : Station) : Runs s (deadlockHalt s) := by
  unfold deadlockHalt
  simp only
  refine (setOutstanding_runs s .none).trans ?_
  split
  · rename_i m g _ hg
    have hn : headSeg (setOutstanding s .none) (if (setOutstanding s .none).motion.arm.state = .waitZone then ChanId.arm else .head) ≠ none := by
      rw [hg]; exact Option.some_ne_none g
    refine Runs.trans ?_ (chooseLead_runs _)
    split
    · exact (haltNow_runs _ _ _ hn).trans (failByStart_runs _ _)
    · exact haltNow_runs _ _ _ hn
  · exact Runs.refl _

theorem offerOwed_runs (s : Station) (c : ChanId) : Runs s (offerOwed s c) := by
  unfold offerOwed
  split
  · split
    · exact Runs.refl s
    · exact claimIfClear_runs _ _ _
  · exact Runs.refl s

theorem claimApplied_runs (s : Station) (f : Frame) (fx : Fx) : Runs s (claimApplied s f fx) := by
  unfold claimApplied
  simp only
  split
  · refine Runs.trans ?_ ((offerOwed_runs _ _).trans (offerOwed_runs _ _))
    unfold claimSettled
    split
    · exact deadlockHalt_runs s
    · exact setOutstanding_runs _ _
  · exact Runs.refl s

theorem closingApplied_runs (s : Station) (f : Frame) (took : Bool) : Runs s (closingApplied s f took) := by
  unfold closingApplied
  split
  · split
    · exact closePoints_runs _ _ _
    · exact Runs.refl s
  · exact Runs.refl s

theorem mountApplied_runs (before : Replica) (s : Station) (f : Frame) (took : Bool) : Runs s (mountApplied before s f took) := by
  unfold mountApplied
  split
  · split
    · split
      · exact Runs.refl s
      · simp only
        split
        · exact Runs.refl s
        · exact offerControl_runs _ _ _ _ rfl
    · exact Runs.refl s
  · exact Runs.refl s

end Sys2Proof.Laws
end

