-- ==== Sys2Proof/Laws/CreditsCommands.lean ====
section
/-! SUPPORT. What each command does to the point list and the channels together (`Goes`): the RESERVED entry goes with the credit (R79, R143, R144), and
what runs ran already or runs on zones held (R56). -/

namespace Sys2Proof.Laws

open Sys2Proof.Machine

structure Goes (s t : Station) : Prop where
  credits : CreditsOk s → CreditsOk t
  starts : CreditsOk s → startsHeld s t

theorem Runs.goes {s t : Station} (h : Runs s t) : Goes s t := ⟨h.credits, fun k => (h.starts k).held⟩

/-- The channels, and how many entries are RESERVED, are as they were; the mode may be another in which the channels may be DISABLED. -/
theorem goes_chan {s t : Station} (hoff : working t = false ∨ (ownOf t).axes = [] → working s = false ∨ (ownOf s).axes = [])
    (ha : t.motion.arm = s.motion.arm) (hh : t.motion.head = s.motion.head) (hp : reservedPoints t = reservedPoints s) : Goes s t := by
  refine ⟨fun h => credits_same h hoff ha hh hp, fun _ c g hr hg => .inl ?_⟩
  have hc : chan t c = chan s c := by cases c; exact ha; exact hh
  rw [hc] at hr hg
  exact ⟨hr, g, hg, rfl, rfl⟩

theorem Goes.refl (s : Station) : Goes s s := goes_chan id rfl rfl rfl

/-- A command that leaves the channels and the points first, and then works the units. -/
theorem goes_then {s u t : Station} (h : Goes s u) (ha : u.motion.arm = s.motion.arm) (hh : u.motion.head = s.motion.head) (k : Runs u t) : Goes s t := by
  refine ⟨fun x => k.credits (h.credits x), fun x c g hr hg => ?_⟩
  have hc : chan u c = chan s c := by cases c; exact ha; exact hh
  rcases (k.starts (h.credits x)).held c g hr hg with ⟨h1, h2⟩ | h1
  · rw [hc] at h1 h2; exact .inl ⟨h1, h2⟩
  · exact .inr h1

/-- Both channels DISABLED and nothing RESERVED: how the units stand after a reset, a restart, or on entering OUT or SHUT. -/
theorem goes_off {s t : Station} (ha : t.motion.arm = .disabled) (hh : t.motion.head = .disabled) (hp : reservedPoints t = 0) : Goes s t := by
  have hc : ∀ c, chan t c = .disabled := fun c => by cases c; exact ha; exact hh
  refine ⟨fun _ => creditsOk_of (fun c => chanOk_nil c (by rw [hc]; rfl)) ?_ (fun _ => ⟨by rw [hc]; rfl, by rw [hc]; rfl⟩), fun _ c g hr => ?_⟩
  · rw [hp, creditOf_nil (by rw [hc]; rfl), creditOf_nil (by rw [hc]; rfl)]
  · rw [hc] at hr; cases hr

theorem enterShut_goes (s u : Station) (r : ShutReason) : Goes s (enterShut u r) := goes_off rfl rfl rfl
theorem enterOut_goes (s u : Station) (c : OutCause) : Goes s (enterOut u c) := by
  unfold enterOut
  simp only
  split
  · exact enterShut_goes _ _ _
  · exact goes_off rfl rfl rfl
theorem holdInReset_goes (s : Station) : Goes s (holdInReset s) := goes_off rfl rfl rfl
theorem restart_goes (s u : Station) (c : ResetCause) : Goes s (restart u c) := by
  unfold restart sampleStraps
  simp only
  split
  · exact enterShut_goes _ _ _
  · exact goes_off rfl rfl rfl
theorem releaseReset_goes (s : Station) (hm : s.loader.held = true) : Goes s (releaseReset s) := by
  unfold releaseReset sampleStraps
  simp only
  split
  · exact enterShut_goes _ _ _
  · exact goes_chan (fun _ => .inl (by simp [working, hm])) rfl rfl rfl

/-- What changes neither mode, image, channels, points nor tables, nor the releases that are on their way. -/
theorem still_runs {s t : Station} (hl : t.loader = s.loader) (hr : t.replica.tables = s.replica.tables) (hm : t.motion = s.motion)
    (ht : t.touch = s.touch) (hz : releasing t = releasing s) : Runs s t :=
  runs_still hl hr (by rw [hm]) (by rw [hm]) (by unfold reservedPoints; rw [ht]) hz

/-! ### Entering and leaving ACTIVE -/

/-- A channel with nothing queued is enabled at a working station with axes. -/
theorem enabled_runs {s : Station} {c : ChanId} {v : Chan} (hv : v.queue = []) (hr : v.state ≠ .running) (hw : working s = true)
    (hx : (ownOf s).axes ≠ []) (hq : (chan s c).queue = []) : Runs s (setChan s c v) := by
  refine ⟨fun h => ?_, fun _ => starts_chan c (fun d hdc => setChan_other _ _ _ _ hdc) (fun m hm => by rw [setChan_holds]; exact hm) ?_⟩
  · have hcount := CreditsOk.count h
    refine creditsOk_of (fun d => ?_) ?_ (fun ho => ?_)
    · by_cases hdc : d = c
      · subst hdc; rw [setChan_same]; exact chanOk_nil d hv
      · rw [setChan_other _ _ _ _ hdc]; exact CreditsOk.chanOk h d
    · rw [setChan_reserved]
      cases c with
      | arm => rw [setChan_same, setChan_other _ _ _ _ (by decide), creditOf_nil hv]; rw [creditOf_nil hq] at hcount; exact hcount
      | head => rw [setChan_same, setChan_other _ _ _ _ (by decide), creditOf_nil hv]; rw [creditOf_nil hq] at hcount; exact hcount
    · rw [off_congr (setChan_loader _ _ _)] at ho
      rcases ho with ho | ho
      · rw [hw] at ho; cases ho
      · exact absurd ho hx
  · intro g hg; rw [setChan_same] at hg; exact absurd hg hr

theorem enableChan_runs {s : Station} {c : ChanId} (hw : working s = true) (hx : (ownOf s).axes ≠ []) (hq : (chan s c).queue = []) :
    Runs s (enableChan s c) := by
  unfold enableChan
  split
  · exact (enabled_runs rfl (by decide) hw hx hq).trans (giveEvent_runs _ _)
  · exact enabled_runs rfl (by decide) hw hx hq

theorem enableChan_other (s : Station) (c d : ChanId) (h : d ≠ c) : chan (enableChan s c) d = chan s d := by
  unfold enableChan
  split
  · rw [(noChan_of (giveEvent_motion _ _)).chan, setChan_other _ _ _ _ h]
  · exact setChan_other _ _ _ _ h

theorem enableChannels_runs {s : Station} (hw : working s = true) (hq : ∀ c, (chan s c).queue = []) : Runs s (enableChannels s) := by
  unfold enableChannels
  split
  · exact Runs.refl s
  · rename_i hx
    have hx' : (ownOf s).axes ≠ [] := fun h => hx (by rw [h]; rfl)
    have w := enableChan_works s .arm
    refine (enableChan_runs hw hx' (hq .arm)).trans (enableChan_runs ?_ ?_ ?_)
    · unfold working; rw [w.loader]; exact hw
    · unfold ownOf; rw [w.loader]; exact hx'
    · rw [enableChan_other _ _ _ (by decide)]; exact hq .head

theorem modeEvent_runs (s : Station) : Runs s (modeEvent s) := giveEvent_runs _ _

theorem reportRack_runs (s : Station) (p : Nat) : Runs s (reportRack s p) := (withdrawWaiting_runs s _).trans (offerControl_runs _ _ _ _ rfl)

theorem setRackPort_runs (s : Station) (p : Nat) (v : RackPort) : Runs s (setRackPort s p v) := still_runs rfl rfl rfl rfl rfl

theorem reportAll_runs (s : Station) : Runs s (reportAll s) := by
  unfold reportAll
  split
  · exact foldl_runs _ reportRack_runs _ s
  · exact Runs.refl s

theorem composeThermal_runs (s : Station) : Runs s (composeThermal s) := by
  refine still_runs rfl rfl rfl rfl (releasing_congr ?_ ?_)
  · show (offerThermalTo _ _ _).control = _; unfold offerThermalTo; split <;> rfl
  · show (offerThermalTo _ _ _).flight = _; unfold offerThermalTo; split <;> rfl

/-- A station outside ACTIVE mode has nothing queued and nothing RESERVED. -/
theorem CreditsOk.idle {s : Station} (h : CreditsOk s) (hw : working s = false) (c : ChanId) : (chan s c).queue = [] := by
  obtain ⟨h1, h2⟩ := h.off (.inl hw)
  refine h.empty c ?_ ?_ <;> cases c <;> first | (show _ = false; rw [show (chan s .arm).state = .disabled from h1]; rfl) | (show _ = false; rw [show (chan s .head).state = .disabled from h2]; rfl)

/-- ACTIVE mode is entered: the mode is set, then the channels are enabled and the units offer. -/
theorem activate_goes {s u t : Station} (hw : working s = false)
    (ha : u.motion.arm = s.motion.arm) (hh : u.motion.head = s.motion.head) (hp : reservedPoints u = reservedPoints s)
    (ht : (∀ c, (chan u c).queue = []) → Runs u t) : Goes s t := by
  have hc : ∀ c, chan u c = chan s c := fun c => by cases c; exact ha; exact hh
  have hg : Goes s u := goes_chan (fun _ => .inl hw) ha hh hp
  refine ⟨fun h => ?_, fun h => ?_⟩
  · exact (goes_then hg ha hh (ht fun c => by rw [hc]; exact CreditsOk.idle h hw c)).credits h
  · exact (goes_then hg ha hh (ht fun c => by rw [hc]; exact CreditsOk.idle h hw c)).starts h

theorem unpark_goes {s : Station} (hs : s.loader.held = false) (hw : s.loader.mode ≠ .active) : Goes s (unpark s) := by
  have h0 : working s = false := by unfold working; cases hm : s.loader.mode <;> first | exact absurd hm hw | simp
  unfold unpark
  refine activate_goes (u := { s with loader := { s.loader with mode := .active } }) h0 rfl rfl rfl fun hq => ?_
  exact (enableChannels_runs (by simp [working, hs]) hq).trans ((offerMount_runs _).trans ((tidyMoment_runs _ _).trans (modeEvent_runs _)))

theorem enterActive_goes {s : Station} (hs : s.loader.held = false) (hw : s.loader.mode ≠ .active) : Goes s (enterActive s) := by
  have h0 : working s = false := by unfold working; cases hm : s.loader.mode <;> first | exact absurd hm hw | simp
  unfold enterActive
  simp only
  refine activate_goes (u := composeThermal { s with
      loader := { s.loader with mode := .active }, replica := endJoining s.replica
      line := { s.line with waiting := s.line.waiting.filter (fun w => w.src != .joining) } }) h0 rfl rfl rfl fun hq => ?_
  exact (enableChannels_runs (by simp [working, composeThermal, hs]) hq).trans
    ((offerMount_runs _).trans ((tidyMoment_runs _ _).trans ((reportAll_runs _).trans (modeEvent_runs _))))

theorem park_goes {s : Station} (h : CreditsOk s → ∀ c, (chan s c).queue = []) : Goes s (park s) := by
  have base : Goes s (disableChannels { s with loader := { s.loader with mode := .parked } }) := by
    refine ⟨fun k => ?_, fun _ c g hr => ?_⟩
    · refine creditsOk_of (fun c => chanOk_nil c (by cases c <;> rfl)) ?_ (fun _ => ⟨rfl, rfl⟩)
      have := CreditsOk.count k
      rw [creditOf_nil (h k .arm), creditOf_nil (h k .head)] at this
      exact this
    · cases c <;> cases hr
  have key : ∀ t, Runs (disableChannels { s with loader := { s.loader with mode := .parked } }) t →
      (∀ c, chan t c = .disabled) → Goes s t := by
    intro t ht hc
    refine ⟨fun k => ht.credits (base.credits k), fun _ c g hr => ?_⟩
    rw [hc] at hr; cases hr
  unfold park
  simp only
  split
  · refine key _ (modeEvent_runs _) fun c => ?_
    unfold modeEvent; rw [(noChan_of (giveEvent_motion _ _)).chan]; cases c <;> rfl
  · refine key _ (Runs.trans (offerRelease_runs _ _ _ ?_) (modeEvent_runs _)) fun c => ?_
    · intro c g hg; cases c <;> cases hg
    · unfold modeEvent; rw [(noChan_of (giveEvent_motion _ _)).chan, (offerRelease_calm _ _ _).chan]; cases c <;> rfl

/-! ### Signals -/

theorem readEncoders_runs (s : Station) (enc : Counts) : Runs s (readEncoders s enc) := runs_still rfl rfl rfl rfl rfl rfl
theorem atDue_runs (s : Station) (due : Nat) : Runs s (atDue s due) := runs_still rfl rfl rfl rfl rfl rfl

theorem leading_head {s : Station} {c : ChanId} (h : leading s = some c) : ∃ g, headSeg s c = some g := by
  unfold leading at h
  split at h
  · cases h
  · split at h
    · cases h
    · rename_i a ha _; cases h; exact ⟨a, ha⟩
    · rename_i a _ ha; cases h; exact ⟨a, ha⟩
    · rename_i a b ha hb
      split at h
      · cases h; exact ⟨a, ha⟩
      · cases h; exact ⟨b, hb⟩

theorem grantCredit_runs (s : Station) (enc : Counts) : Runs s (grantCredit s enc) := by
  unfold grantCredit
  split
  · exact Runs.refl s
  · rename_i c hc
    split
    · rename_i h
      obtain ⟨g, hg⟩ := leading_head hc
      have e : ∀ d, chan (readEncoders s enc) d = chan s d := fun d => by cases d <;> rfl
      refine (readEncoders_runs s enc).trans ((setState_runs (g := g) ?_ ?_ rfl).trans (chooseLead_runs _))
      · unfold headSeg at hg ⊢; rw [e]; exact hg
      · rw [e, h.1]; rfl
    · exact Runs.refl s

theorem startHeld_runs (s : Station) (c : ChanId) : Runs s (startHeld s c) := by
  unfold startHeld
  split
  · rename_i m g hm hg
    split
    · rename_i hz
      refine startMotion_runs hg rfl rfl ?_
      unfold waitingSet at hm
      rw [hg] at hm
      split at hm
      · cases hm; exact hz
      · cases hm
    · exact Runs.refl s
  · exact Runs.refl s

/-- The head segment of a moving channel rewritten by `setHead`. -/
theorem setHead_runs {s u : Station} {c : ChanId} {g g' : Segment} (hg : headSeg s c = some g) (hm : movingState (chan s c).state = true)
    (hu : ∀ d, chan u d = chan s d) (hl : u.loader = s.loader) (hz : ∀ m, holdsAll u m = holdsAll s m)
    (hk : isTouchSeg g' = isTouchSeg g) (ha : g'.acc = g.acc) (hs : g'.zoneSet = g.zoneSet)
    (hc : CreditsOk s → g'.credit = true → g.credit = true ∧ ∀ b, g'.phase ≠ .retract b)
    (hp : CreditsOk s → reservedPoints u + (if g.credit = true then 1 else 0) = reservedPoints s + if g'.credit = true then 1 else 0) :
    Runs s (setHead u c g') := by
  obtain ⟨r, hq⟩ := queue_of_head hg
  obtain ⟨k1, k2, k3, k4⟩ := setHead_else u c g'
  have hqu : (chan u c).queue = g :: r := by rw [hu]; exact hq
  refine rehead_runs (st := (chan s c).state) hq hm hm (.inl rfl) (by rw [setHead_head hqu, hu]) (fun d hd => by rw [k4 d hd, hu]) (k1.trans hl)
    (fun m => (k2 m).trans (hz m)) hk ha hs id hc fun h => by rw [k3]; exact hp h

theorem capturePoint_reserved (s : Station) (d : PointData) : reservedPoints (capturePoint s d) = reservedPoints s - 1 := reserved_upd_used (.pending d) rfl _

theorem credited {s : Station} (h : CreditsOk s) {c : ChanId} {g : Segment} (hg : headSeg s c = some g) (hc : g.credit = true) : 1 ≤ reservedPoints s := by
  obtain ⟨r, hq⟩ := queue_of_head hg
  have hcount := CreditsOk.count h
  have := creditOf_cons hq
  rw [hc] at this
  simp only [if_true] at this
  cases c <;> omega

theorem armTrigger_runs {s : Station} {g : Segment} (enc : Counts) (hg : headSeg s .arm = some g) (hm : movingState s.motion.arm.state = true) :
    Runs s (armTrigger s g enc) := by
  unfold armTrigger
  split
  · rename_i a _ _
    simp only
    split
    · rename_i hc
      refine setHead_runs hg hm (fun d => by cases d <;> rfl) rfl (fun _ => rfl) rfl rfl rfl (fun _ h => by cases h) fun h => ?_
      have := credited h hg hc
      rw [capturePoint_reserved, hc]
      show reservedPoints s - 1 + 1 = reservedPoints s + 0
      omega
    · rename_i hc
      refine setHead_runs hg hm (fun d => rfl) rfl (fun _ => rfl) rfl rfl rfl (fun _ h => by cases h) fun h => ?_
      rw [if_neg hc]; rfl
  · exact Runs.refl s
  · exact collide_runs s .arm

theorem assertTrigger_runs (s : Station) (enc : Counts) : Runs s (assertTrigger s enc) := by
  unfold assertTrigger
  split
  · exact Runs.refl s
  · split
    · exact still_runs rfl rfl rfl rfl rfl
    · simp only
      refine Runs.trans (t := { readEncoders s enc with
        pins := { (readEncoders s enc).pins with trigger := true }, touch := { (readEncoders s enc).touch with latch := some (readEncoders s enc).motion.enc } })
        (runs_still rfl rfl rfl rfl rfl rfl) ?_
      split
      · exact collide_runs _ _
      · split
        · rename_i hm
          split
          · exact Runs.refl _
          · rename_i g hg; exact armTrigger_runs _ hg hm
        · exact Runs.refl _

theorem endApproach_runs (s : Station) (enc : Counts) : Runs s (endApproach s enc) := by
  unfold endApproach
  split
  · exact Runs.refl s
  · rename_i g hg
    split
    · rename_i h
      simp only
      have hg' : headSeg (readEncoders s enc) .arm = some g := hg
      refine (readEncoders_runs s enc).trans ?_
      split
      · exact (haltNow_runs _ _ _ (by rw [hg']; exact Option.some_ne_none g)).trans (chooseLead_runs _)
      · split
        · exact collide_runs _ _
        · exact setHead_runs hg' (by show movingState s.motion.arm.state = true; rw [h.1]; rfl) (fun _ => rfl) rfl (fun _ => rfl) rfl rfl rfl
            (fun _ hc => ⟨hc, fun b hb => by cases hb⟩) (fun _ => rfl)
    · exact Runs.refl s

theorem missTouch_runs (s : Station) (enc : Counts) : Runs s (missTouch s enc) := by
  unfold missTouch
  split
  · exact Runs.refl s
  · rename_i g hg
    split
    · rename_i h
      simp only [Bool.and_eq_true] at h
      simp only
      have hg' : headSeg (readEncoders s enc) .arm = some g := hg
      refine (readEncoders_runs s enc).trans (Runs.trans ?_ (giveEvent_runs _ _))
      obtain ⟨k1, k2, k3⟩ := returnCredit_keeps (readEncoders s enc) (some g)
      refine setHead_runs hg' h.1.1 k3 k1 k2 rfl rfl rfl (fun _ hc => by cases hc) fun k => ?_
      unfold returnCredit
      simp only
      split
      · rename_i hc
        have := credited k hg' hc
        rw [returnEntry_reserved]
        show reservedPoints (readEncoders s enc) - 1 + 1 = reservedPoints (readEncoders s enc) + 0
        omega
      · rfl
    · exact Runs.refl s

theorem segmentDone_runs (s : Station) (c : ChanId) (enc : Counts) : Runs s (segmentDone s c enc) := by
  unfold segmentDone
  split
  · exact Runs.refl s
  · rename_i g hg
    split
    · rename_i h
      simp only
      have hg' : headSeg (readEncoders s enc) c = some g := by
        unfold headSeg at hg ⊢; rw [show chan (readEncoders s enc) c = chan s c by cases c <;> rfl]; exact hg
      have hc : CreditsOk (readEncoders s enc) → g.credit = false := by
        intro k
        obtain ⟨r, hq⟩ := queue_of_head hg'
        cases hcr : g.credit with
        | false => rfl
        | true =>
          obtain ⟨x, y⟩ := (CreditsOk.chanOk k c).touch g (by rw [hq]; rfl) hcr
          have he := h.2
          unfold segmentEnds at he
          unfold isTouchSeg at x
          cases hk : g.kind <;> rw [hk] at he x <;> try cases x
          cases hp : g.phase <;> rw [hp] at he <;> first | exact absurd hp (y _) | cases he
      refine (readEncoders_runs s enc).trans ((completeSegment_runs hg' hc).trans ((chooseLead_runs _).trans (Runs.trans ?_ (chooseLead_runs _))))
      split
      · exact changeSegmentEnd_runs _
      · exact Runs.refl _
    · exact Runs.refl s

theorem stopDone_runs (s : Station) (c : ChanId) (enc : Counts) : Runs s (stopDone s c enc) := by
  unfold stopDone
  split
  · exact Runs.refl s
  · rename_i g hg
    split
    · simp only
      have hg' : headSeg (readEncoders s enc) c = some g := by
        unfold headSeg at hg ⊢; rw [show chan (readEncoders s enc) c = chan s c by cases c <;> rfl]; exact hg
      refine (readEncoders_runs s enc).trans ((endStop_runs hg').trans (Runs.trans ?_ (chooseLead_runs _)))
      split
      · exact changeSegmentEnd_runs _
      · exact Runs.refl _
    · exact Runs.refl s

theorem findMark_runs (s : Station) (ax : Axis) : Runs s (findMark s ax) := by
  unfold findMark
  simp only
  split
  · exact Runs.refl s
  · rename_i g hg
    split
    · rename_i h
      refine setHead_runs hg (by rw [h.1]; rfl) (fun d => by cases d <;> rfl) rfl (fun _ => rfl) rfl rfl rfl (fun k hc => ⟨hc, ?_⟩) (fun _ => rfl)
      obtain ⟨r, hq⟩ := queue_of_head hg
      exact ((CreditsOk.chanOk k (chanOf ax)).touch g (by rw [hq]; rfl) hc).2
    · exact Runs.refl s

theorem followingStall_runs (s : Station) (ax : Axis) (enc : Counts) : Runs s (followingStall s ax enc) := by
  unfold followingStall
  split
  · exact Runs.refl s
  · exact (readEncoders_runs s enc).trans (stall_runs _ _ _)

theorem quadratureError_runs (s : Station) (ax : Axis) (enc : Counts) : Runs s (quadratureError s ax enc) := by
  unfold quadratureError
  split
  · exact Runs.refl s
  · exact (readEncoders_runs s enc).trans ((homed_runs _ _).trans (stall_runs _ _ _))

theorem countFault_runs (s : Station) (ax : Axis) (enc : Counts) : Runs s (countFault s ax enc) := by
  unfold countFault
  split
  · exact Runs.refl s
  · rename_i t _
    simp only
    have h : Runs s { readEncoders (atDue s (t + (ownOf s).filter)) enc with
        motion := { (readEncoders (atDue s (t + (ownOf s).filter)) enc).motion with
          fault := (readEncoders (atDue s (t + (ownOf s).filter)) enc).motion.fault.set true ax
          filter := (readEncoders (atDue s (t + (ownOf s).filter)) enc).motion.filter.set none ax } } := runs_still rfl rfl rfl rfl rfl rfl
    split
    · exact h.trans (stall_runs _ _ _)
    · exact h

theorem sensorMoved_runs (s : Station) (held : Bool) (code : Option Code) : Runs s (sensorMoved s held code) := by
  unfold sensorMoved
  simp only
  have h : Runs s { s with pins := { s.pins with sensor := held, headIdent := code } } := still_runs rfl rfl rfl rfl rfl
  split
  · exact h.trans (change_runs _ _)
  · split
    · exact h
    · split
      · split
        · exact h
        · exact h.trans (depositDone_runs _)
      · split
        · exact h.trans (engageDone_runs _)
        · exact h
      · exact h

theorem couplingOver_runs (s : Station) : Runs s (couplingOver s) := by
  unfold couplingOver
  split
  · exact Runs.refl s
  · rename_i due _
    simp only
    refine Runs.trans (t := if (atDue s due).change.state = .engage then
      { atDue s due with change := { (atDue s due).change with output := false } } else atDue s due) ?_ (failByRack_runs _ _)
    split
    · exact (atDue_runs s due).trans (change_runs _ _)
    · exact atDue_runs s due

theorem unlockOver_runs (s : Station) : Runs s (unlockOver s) := by
  unfold unlockOver
  split
  · exact Runs.refl s
  · exact (atDue_runs s _).trans (failByRack_runs _ _)

theorem confirmOver_runs (s : Station) : Runs s (confirmOver s) := by
  unfold confirmOver
  split
  · exact Runs.refl s
  · exact (atDue_runs s _).trans (failByRack_runs _ _)

theorem lateOver_runs (s : Station) (seq : Nat) : Runs s (lateOver s seq) := by
  unfold lateOver
  split
  · exact Runs.refl s
  · exact (atDue_runs s _).trans (closePoints_runs _ _ _)

/-! ### Requests -/

theorem answer_runs (s : Station) (src : Nat) (a : AnswerBody) : Runs s (answer s src a) := by
  refine still_runs rfl rfl rfl rfl (releasing_congr ?_ ?_)
  · exact updateDrain_control _
  · show (updateDrain _).flight = _; rw [updateDrain_eq]

theorem decide_runs {s t : Station} (h : Runs s t) (src : Nat) (tag : Code) (code acc : Nat) (checks : List (Bool × Reason))
    (effect : Station → Station) (he : firstFailing checks = none → Runs t (effect t)) : Runs s (decideRequest t src tag code acc checks effect) := by
  unfold decideRequest
  split
  · exact h.trans (answer_runs _ _ _)
  · rename_i hx; exact (h.trans (he hx)).trans (answer_runs _ _ _)

theorem haltAll_runs (s : Station) (cs : List ChanId) : Runs s (haltAll s cs) := by
  unfold haltAll
  simp only
  refine Runs.trans ?_ ((changeHalt_runs _).trans (chooseLead_runs _))
  have h1 : ∀ (b : Bool) (u : Station) (c : ChanId), Runs u (if b = true then haltChan u c else u) := fun b u c => by
    split
    · exact haltChan_runs u c
    · exact Runs.refl u
  exact (h1 _ s .arm).trans (h1 _ _ .head)

/-! ### Completed frames -/

/-- The mode, the image, the channels and the points stay. -/
theorem goes_keep {s t : Station} (hl : t.loader = s.loader) (hm : t.motion = s.motion) (ht : t.touch = s.touch) : Goes s t :=
  goes_chan (off_congr hl).mp (by rw [hm]) (by rw [hm]) (by unfold reservedPoints; rw [ht])

theorem goes_after {s u t : Station} (hl : u.loader = s.loader) (hm : u.motion = s.motion) (ht : u.touch = s.touch) (k : Goes u t) : Goes s t := by
  have h := goes_keep hl hm ht
  refine ⟨fun x => k.credits (h.credits x), fun x c g hr hg => ?_⟩
  have hc : chan u c = chan s c := by cases c <;> (unfold chan; rw [hm])
  rcases k.starts (h.credits x) c g hr hg with ⟨h1, h2⟩ | h1
  · rw [hc] at h1 h2; exact .inl ⟨h1, h2⟩
  · exact .inr h1

theorem offerNotices_runs (n : Nat) (s : Station) : Runs s (offerNotices n s) := by
  induction n generalizing s with
  | zero => exact Runs.refl s
  | succ n ih =>
    unfold offerNotices
    split
    · exact Runs.refl s
    · simp only; split
      · refine Runs.trans ?_ (ih _)
        refine still_runs rfl rfl rfl rfl (releasing_congr ?_ ?_)
        · exact updateDrain_control _
        · show (updateDrain _).flight = _; rw [updateDrain_eq]
      · exact Runs.refl s

theorem offerShadow_runs (n : Nat) (s : Station) : Runs s (offerShadow n s) := by
  induction n generalizing s with
  | zero => exact Runs.refl s
  | succ n ih =>
    unfold offerShadow
    split
    · exact Runs.refl s
    · split
      · exact Runs.refl s
      · split
        · refine Runs.trans ?_ (ih _)
          refine still_runs rfl rfl rfl rfl (releasing_congr ?_ ?_)
          · exact updateDrain_control _
          · show (updateDrain _).flight = _; rw [updateDrain_eq]
        · exact Runs.refl s

theorem offerSnapshots_runs (s : Station) : Runs s (offerSnapshots s) := by
  unfold offerSnapshots
  simp only
  split
  · exact (offerNotices_runs _ _).trans (offerShadow_runs _ _)
  · exact offerNotices_runs _ _

theorem servingApplied_runs (s : Station) (f : Frame) (fx : Fx) : Runs s (servingApplied s f fx) := by
  unfold servingApplied
  simp only
  refine Runs.trans ?_ (offerSnapshots_runs _)
  exact still_runs rfl rfl rfl rfl rfl

theorem rackPortApplied_runs (before : Replica) (f : Frame) (took : Bool) (s : Station) (p : Nat) : Runs s (rackPortApplied before f took s p) := by
  have key : ∀ a b c : Bool, Runs s (if a = true then reportRack (setLock s p .unlocked) p else if b = true then reportRack (setLock s p .locked) p
      else if c = true then reportRack s p else s) := by
    intro a b c
    cases a
    · cases b
      · cases c
        · exact Runs.refl s
        · exact reportRack_runs _ _
      · exact (setRackPort_runs _ _ _).trans (reportRack_runs _ _)
    · exact (setRackPort_runs _ _ _).trans (reportRack_runs _ _)
  unfold rackPortApplied
  exact key _ _ _

theorem rackApplied_runs (before : Replica) (s : Station) (f : Frame) (took : Bool) : Runs s (rackApplied before s f took) := by
  unfold rackApplied
  split
  · exact foldl_runs _ (rackPortApplied_runs before f took) _ s
  · exact Runs.refl s

theorem react_runs (before : Replica) (s : Station) (f : Frame) (fx : Fx) : Runs s (react before s f fx) := by
  unfold react
  simp only
  exact (servingApplied_runs s f fx).trans ((withdrawWaiting_runs _ _).trans ((claimApplied_runs _ _ _).trans ((rackApplied_runs _ _ _ _).trans
    ((changeApplied_runs _ _ _).trans ((closingApplied_runs _ _ _).trans ((mountApplied_runs _ _ _ _).trans
      (foldl_runs _ (fun _ _ => giveEvent_runs _ _) _ _)))))))

/-- The releases on their way have become fewer; channels and points are as they were. -/
theorem goes_fewer {s u v : Station} (h : Goes s u) (hl : v.loader = u.loader) (ha : v.motion.arm = u.motion.arm) (hh : v.motion.head = u.motion.head)
    (hp : reservedPoints v = reservedPoints u) (hz : ∀ m, holdsAll u m = true → holdsAll v m = true) : Goes s v := by
  have hc : ∀ c, chan v c = chan u c := fun c => by cases c; exact ha; exact hh
  refine ⟨fun k => credits_same (h.credits k) (off_congr hl).mp ha hh hp, fun k c g hr hg => ?_⟩
  rw [hc] at hr hg
  exact (h.starts k c g hr hg).imp id (hz _)

/-- The own frame that has completed is removed: a release on its way is none any more. -/
theorem removeCompleted_holds (u : Station) (m : ZoneMask) (h : holdsAll u m = true) : holdsAll { u with line := removeCompleted u.line } m = true := by
  have h3 : (removeCompleted u.line).control = u.line.control := by
    unfold removeCompleted
    split
    · rfl
    · simp only
      split
      · rfl
      · rfl
      · rw [updateDrain_control]; split <;> rfl
  have h4 : (removeCompleted u.line).flight = none := by
    unfold removeCompleted
    split
    · assumption
    · simp only
      split
      · rfl
      · rfl
      · rw [updateDrain_eq]; split <;> rfl
  have h5 : releasing { u with line := removeCompleted u.line } = releaseMasks u.line.control := by
    rw [releasing_eq]
    show releaseMasks (removeCompleted u.line).control ||| (match (removeCompleted u.line).flight with
      | none => 0#32
      | some f => releaseMaskOf f.item.body) = _
    rw [h3, h4]; simp
  rw [holdsAll_iff] at h ⊢
  intro i hi hb
  obtain ⟨h1, h2⟩ := h i hi hb
  refine ⟨h1, ?_⟩
  rw [h5]
  rw [releasing_eq, BitVec.getLsbD_or, Bool.or_eq_false_iff] at h2
  exact h2.1

theorem releaseOwn_goes {s u : Station} (f : Frame) (h : Goes s u) : Goes s (releaseOwn u f) := by
  unfold releaseOwn
  split
  · have base : Goes s { u with line := removeCompleted u.line } := goes_fewer h rfl rfl rfl rfl (removeCompleted_holds u)
    have key : ∀ v, Goes s v → Goes s (if answersRestart v f.body = true then restart v .requested else v) := by
      intro v hv
      split
      · exact restart_goes _ _ _
      · exact hv
    simp only
    split
    · rename_i p _
      exact key _ (goes_fewer base rfl rfl rfl (reserved_freed _ _) fun _ => id)
    · exact key _ base
  · exact h

theorem offerJoin_keep (s : Station) : (offerJoin s).loader = s.loader ∧ (offerJoin s).motion = s.motion ∧ (offerJoin s).touch = s.touch := by
  unfold offerJoin
  simp only
  unfold offerControl
  split <;> exact ⟨rfl, rfl, rfl⟩

theorem abandonAttempt_keep (s : Station) :
    (abandonAttempt s).loader = s.loader ∧ (abandonAttempt s).motion = s.motion ∧ (abandonAttempt s).touch = s.touch := by
  unfold abandonAttempt
  simp only
  have key : ∀ b : Bool, ∀ u v : Station, (u.loader = s.loader ∧ u.motion = s.motion ∧ u.touch = s.touch) →
      (v.loader = s.loader ∧ v.motion = s.motion ∧ v.touch = s.touch) → (if b = true then u else v).loader = s.loader ∧
        (if b = true then u else v).motion = s.motion ∧ (if b = true then u else v).touch = s.touch := by
    intro b u v hu hv
    cases b
    · exact hv
    · exact hu
  exact key _ _ _ (offerJoin_keep _) ⟨rfl, rfl, rfl⟩

/-- What a completed frame does at a joining station: it stays as it is for the channels and the points, or it enters ACTIVE or SHUT. -/
theorem takeJoining_goes {s : Station} (f : Frame) (hs : s.loader.held = false) (hm : s.loader.mode ≠ .active) : Goes s (takeJoining s f) := by
  have keep : ∀ {u : Station}, (u.loader = s.loader ∧ u.motion = s.motion ∧ u.touch = s.touch) → Goes s u := fun h => goes_keep h.1 h.2.1 h.2.2
  have active : ∀ {u : Station}, u.loader = s.loader → u.motion = s.motion → u.touch = s.touch → Goes s (enterActive u) := fun h1 h2 h3 =>
    goes_after h1 h2 h3 (enterActive_goes (by rw [h1]; exact hs) (by rw [h1]; exact hm))
  have ab : ∀ u : Station, u.loader = s.loader → u.motion = s.motion → u.touch = s.touch → Goes s (abandonAttempt u) := fun u h1 h2 h3 =>
    goes_keep ((abandonAttempt_keep u).1.trans h1) ((abandonAttempt_keep u).2.1.trans h2) ((abandonAttempt_keep u).2.2.trans h3)
  unfold takeJoining
  split
  · unfold takeForm
    split
    · exact Goes.refl s
    · simp only
      split
      · exact enterShut_goes _ _ _
      · split
        · exact active rfl rfl rfl
        · exact keep (offerJoin_keep _)
  · simp only
    split
    · exact keep ⟨rfl, rfl, rfl⟩
    · split
      · exact ab _ rfl rfl rfl
      · exact keep ⟨rfl, rfl, rfl⟩
  · split
    · exact ab _ rfl rfl rfl
    · exact Goes.refl s
  · unfold takeSnapBegin
    split
    · exact Goes.refl s
    · simp only
      split
      · split
        · exact enterShut_goes _ _ _
        · exact keep ⟨rfl, rfl, rfl⟩
      · split
        · exact keep ⟨rfl, rfl, rfl⟩
        · exact keep ⟨rfl, rfl, rfl⟩
  · unfold takeEntry
    split
    · split
      · exact keep ⟨rfl, rfl, rfl⟩
      · exact Goes.refl s
    · exact Goes.refl s
  · unfold takeSnapEnd
    split
    · split
      · split
        · exact enterShut_goes _ _ _
        · split
          · exact ab _ rfl rfl rfl
          · unfold loadSnapshot; exact active rfl rfl rfl
      · exact Goes.refl s
    · exact Goes.refl s
  · exact Goes.refl s

theorem keepFrame_keep (s : Station) (f : Frame) :
    (keepFrame s f).loader = s.loader ∧ (keepFrame s f).motion = s.motion ∧ (keepFrame s f).touch = s.touch := by
  unfold keepFrame
  split
  · split
    · exact ⟨rfl, rfl, rfl⟩
    · exact abandonAttempt_keep s
  · exact ⟨rfl, rfl, rfl⟩

theorem deliver_runs (s : Station) (w : Option Window) (h : Hdr) (tag : Code) (r : ReqBody) : Runs s (deliver s w h tag r) := by
  unfold deliver
  split
  · exact Runs.refl s
  · simp only
    split
    · split
      · exact still_runs rfl rfl rfl rfl rfl
      · exact Runs.refl s
    · split
      · exact still_runs rfl rfl rfl rfl rfl
      · exact Runs.refl s

theorem setTabs_goes (s : Station) (r : Replica) : Goes s (setTabs s r) := goes_keep rfl rfl rfl

theorem handOn_goes (s : Station) (w : Option Window) (f : Frame) : Goes s (handOn s w f) := by
  unfold handOn
  split
  · exact (deliver_runs _ _ _ _ _).goes
  · split
    · rename_i hj
      have h1 : s.loader.held = false ∧ s.loader.mode ≠ .active := by
        unfold joiningMode at hj
        simp only [Bool.and_eq_true, Bool.not_eq_true', beq_iff_eq] at hj
        exact ⟨hj.1, by rw [hj.2]; decide⟩
      obtain ⟨k1, k2, k3⟩ := keepFrame_keep s f
      exact goes_after k1 k2 k3 (takeJoining_goes f (by rw [k1]; exact h1.1) (by rw [k1]; exact h1.2))
    · split
      · unfold applyLive
        simp only
        generalize applyFormed (cellOf s) (lineCountOf s) (namesLastHeard s.line f.body) f (tabs s) = out
        split
        · exact enterOut_goes _ _ _
        · exact goes_then (setTabs_goes s out.1) rfl rfl (react_runs _ _ _ _)
      · exact Goes.refl s

theorem takeCount_keep (s : Station) (f : Frame) :
    (takeCount s f).loader = s.loader ∧ (takeCount s f).motion = s.motion ∧ (takeCount s f).touch = s.touch := by
  have note : ∀ (u : Station) (h : Hdr), (noteCell u h).loader = u.loader ∧ (noteCell u h).motion = u.motion ∧ (noteCell u h).touch = u.touch := by
    intro u h
    unfold noteCell
    generalize (joiningMode u && h.active && roleIn (cellOf u) h.sender == .mc410) = b
    cases b <;> exact ⟨rfl, rfl, rfl⟩
  unfold takeCount
  simp only
  obtain ⟨h1, h2, h3⟩ := note (heardAgain (recordHeard (if isOwnJoin s f = true then { countFrame s with line := restartOffsets (countFrame s).line }
    else countFrame s) f.h.sender) f.h.sender) f.h
  rw [h1, h2, h3]
  generalize isOwnJoin s f = b
  cases b <;> exact ⟨rfl, rfl, rfl⟩

theorem closeClean_keep (s : Station) : (closeClean s).loader = s.loader ∧ (closeClean s).motion = s.motion ∧ (closeClean s).touch = s.touch := by
  unfold closeClean
  generalize recordWindow s.line false = lp
  exact ⟨rfl, rfl, rfl⟩

theorem countFrame_keep (s : Station) : (countFrame s).loader = s.loader ∧ (countFrame s).motion = s.motion ∧ (countFrame s).touch = s.touch :=
  ⟨rfl, rfl, rfl⟩

theorem completeFrame_goes (s : Station) (f : Frame) : Goes s (completeFrame s f) := by
  unfold completeFrame
  split
  · exact Goes.refl s
  · simp only
    split
    · obtain ⟨h1, h2, h3⟩ := takeCount_keep (closeClean s) f
      obtain ⟨k1, k2, k3⟩ := closeClean_keep s
      exact releaseOwn_goes f (goes_after (h1.trans k1) (h2.trans k2) (h3.trans k3) (handOn_goes _ _ f))
    · obtain ⟨h1, h2, h3⟩ := countFrame_keep (closeClean s)
      obtain ⟨k1, k2, k3⟩ := closeClean_keep s
      exact goes_keep (h1.trans k1) (h2.trans k2) (h3.trans k3)

theorem countsForStart_frame (s : Station) (f : Frame) (enc : Counts) : Goes s (completeFrame (countsForStart s f enc) f) := by
  have h : Runs s (countsForStart s f enc) := by
    unfold countsForStart
    split
    · exact readEncoders_runs s enc
    · exact Runs.refl s
  have k := completeFrame_goes (countsForStart s f enc) f
  have hc : ∀ c, chan (countsForStart s f enc) c = chan s c := fun c => by unfold countsForStart; split <;> cases c <;> rfl
  refine ⟨fun x => k.credits (h.credits x), fun x c g hr hg => ?_⟩
  rcases k.starts (h.credits x) c g hr hg with ⟨h1, h2⟩ | h1
  · rw [hc] at h1 h2; exact .inl ⟨h1, h2⟩
  · exact .inr h1

theorem strapsForRestart_frame (s : Station) (f : Frame) (straps : Nat) : Goes s (completeFrame (strapsForRestart s f straps) f) := by
  have key : ∀ b : Bool, (if b = true then setStraps s straps else s).loader = s.loader ∧ (if b = true then setStraps s straps else s).motion = s.motion ∧
      (if b = true then setStraps s straps else s).touch = s.touch := fun b => by cases b <;> exact ⟨rfl, rfl, rfl⟩
  obtain ⟨h1, h2, h3⟩ := key (taken s f && ownFlight s f && answersRestart s f.body)
  exact goes_after h1 h2 h3 (completeFrame_goes _ f)

end Sys2Proof.Laws
end

