-- ==== Sys2Proof/Laws/Deadlock.lean ====
section
/-! SUPPORT. The deadlock check of a grant scan (R61, R62): the model's search finds exactly the claimants on a cycle of waits, the claim
it withdraws is the youngest of those, and the bound on its rounds is never reached. -/

namespace Sys2Proof.Laws

open Sys2Proof.Machine

/-! ### Waits -/

theorem find_claimant {l : List Claim} (h : (l.map (·.claimant)).Nodup) {c : Claim} (hc : c ∈ l) :
    l.find? (fun d => d.claimant == c.claimant) = some c := by
  induction l with
  | nil => cases hc
  | cons a r ih =>
    rw [List.map_cons, List.nodup_cons] at h
    rcases List.mem_cons.mp hc with rfl | hc
    · simp
    · have hne : a.claimant ≠ c.claimant := fun e => h.1 (e ▸ List.mem_map_of_mem hc)
      rw [List.find?_cons_of_neg (by simpa using hne)]
      exact ih h.2 hc

theorem mem_aheadOf {l : List Claim} (h : (l.map (·.claimant)).Nodup) {c d : Claim} (hc : c ∈ l) :
    (d ∈ aheadOf l c.claimant ↔ ∃ pre mid post, l = pre ++ d :: (mid ++ c :: post)) := by
  induction l with
  | nil => cases hc
  | cons a r ih =>
    rw [List.map_cons, List.nodup_cons] at h
    by_cases he : a.claimant = c.claimant
    · have hac : a = c := by
        rcases List.mem_cons.mp hc with rfl | hc
        · rfl
        · exact absurd (he ▸ List.mem_map_of_mem hc) h.1
      subst hac
      have h0 : aheadOf (a :: r) a.claimant = [] := by simp [aheadOf]
      rw [h0]
      refine ⟨fun x => (nomatch x), fun ⟨pre, mid, post, e⟩ => ?_⟩
      exfalso
      apply h.1
      cases pre with
      | nil =>
        injection e with e1 e2
        rw [e2, ← List.singleton_append, List.map_append, List.map_append]
        simp
      | cons b pre =>
        injection e with e1 e2
        rw [e2]
        simp
    · have hcr : c ∈ r := (List.mem_cons.mp hc).resolve_left (fun x => he (by rw [x]))
      have h0 : aheadOf (a :: r) c.claimant = a :: aheadOf r c.claimant := by
        unfold aheadOf
        rw [List.takeWhile_cons_of_pos (by simpa using he)]
      rw [h0, List.mem_cons, ih h.2 hcr]
      constructor
      · rintro (rfl | ⟨pre, mid, post, e⟩)
        · obtain ⟨mid, post, e⟩ := List.append_of_mem hcr
          exact ⟨[], mid, post, by rw [e]; rfl⟩
        · exact ⟨a :: pre, mid, post, by rw [e]; rfl⟩
      · rintro ⟨pre, mid, post, e⟩
        cases pre with
        | nil => injection e with e1 e2; exact .inl e1.symm
        | cons b pre => injection e with e1 e2; exact .inr ⟨pre, mid, post, e2⟩

theorem meets_bits (m n : ZoneMask) : meets m n = true ↔ ∃ z < 32, m.getLsbD z = true ∧ n.getLsbD z = true := by
  unfold meets
  rw [bne_iff_ne]
  constructor
  · intro h
    by_contra hc
    push Not at hc
    apply h
    apply BitVec.eq_of_getLsbD_eq
    intro i hi
    rw [BitVec.getLsbD_and, BitVec.getLsbD_zero]
    rcases hm : m.getLsbD i with _ | _
    · rfl
    · rw [Bool.true_and]; simpa using hc i hi hm
  · rintro ⟨z, hz, h1, h2⟩ hc
    have := congrArg (fun b : ZoneMask => b.getLsbD z) hc
    simp [h1, h2] at this

/-- The waits of the model are those of R61. -/
theorem mem_waitsOn {zs : List ZoneEntry} {l : List Claim} (h : (l.map (·.claimant)).Nodup) (a b : Nat) :
    b ∈ waitsOn zs l a ↔ waitsFor zs l a b := by
  unfold waitsOn
  constructor
  · intro hb
    cases hf : l.find? (fun c => c.claimant == a) with
    | none => rw [hf] at hb; cases hb
    | some c =>
      rw [hf] at hb
      have hc := List.mem_of_find?_eq_some hf
      have hca : c.claimant = a := by simpa using List.find?_some hf
      obtain ⟨d, hd, rfl⟩ := List.mem_map.mp hb
      obtain ⟨hd, hw⟩ := List.mem_filter.mp hd
      refine ⟨c, hc, d, hd, hca, rfl, ?_⟩
      rw [Bool.or_eq_true] at hw
      rcases hw with hw | hw
      · rw [List.any_eq_true] at hw
        obtain ⟨z, hz, hw⟩ := hw
        rw [Bool.and_eq_true, beq_iff_eq] at hw
        exact .inl ⟨z, List.mem_range.mp hz, hw.1, hw.2⟩
      · simp only [Bool.and_eq_true, List.any_eq_true, beq_iff_eq] at hw
        obtain ⟨⟨h1, ⟨e, he, hed⟩⟩, h3⟩ := hw
        right
        rw [← hca] at he
        have hel : e ∈ l := (List.takeWhile_sublist _).subset he
        have : e = d := by
          have e1 := find_claimant h hel
          have e2 := find_claimant h hd
          rw [hed] at e1
          exact Option.some.inj (e1.symm.trans e2)
        subst this
        exact ⟨h1, (mem_aheadOf h hc).mp he, (meets_bits _ _).mp h3⟩
  · rintro ⟨c, hc, d, hd, rfl, rfl, hw⟩
    rw [find_claimant h hc]
    refine List.mem_map.mpr ⟨d, List.mem_filter.mpr ⟨hd, ?_⟩, rfl⟩
    rw [Bool.or_eq_true]
    rcases hw with ⟨z, hz, h1, h2⟩ | ⟨h1, h2, h3⟩
    · left
      rw [List.any_eq_true]
      exact ⟨z, List.mem_range.mpr hz, by rw [Bool.and_eq_true, beq_iff_eq]; exact ⟨h1, h2⟩⟩
    · right
      simp only [Bool.and_eq_true, List.any_eq_true, beq_iff_eq]
      exact ⟨⟨h1, ⟨d, (mem_aheadOf h hc).mpr h2, rfl⟩⟩, (meets_bits _ _).mpr h3⟩

/-! ### The search -/

/-- One further wait from a set of claimants. -/
def reachStep (zs : List ZoneEntry) (l : List Claim) (ks : List Nat) : List Nat :=
  (l.map (·.claimant)).filter (fun j => ks.contains j || ks.any (fun k => (waitsOn zs l k).contains j))

theorem reach_iterate (zs : List ZoneEntry) (l : List Claim) (n : Nat) (ks : List Nat) : reach zs l n ks = (reachStep zs l)^[n] ks := by
  induction n generalizing ks with
  | zero => rfl
  | succ n ih => exact ih _

theorem mem_reachStep {zs : List ZoneEntry} {l : List Claim} {ks : List Nat} {j : Nat} :
    j ∈ reachStep zs l ks ↔ j ∈ l.map (·.claimant) ∧ (j ∈ ks ∨ ∃ k ∈ ks, j ∈ waitsOn zs l k) := by
  unfold reachStep
  rw [List.mem_filter]
  simp

theorem waitsOn_claimants {zs : List ZoneEntry} {l : List Claim} {k j : Nat} (h : j ∈ waitsOn zs l k) : j ∈ l.map (·.claimant) := by
  unfold waitsOn at h
  split at h
  · cases h
  · obtain ⟨d, hd, rfl⟩ := List.mem_map.mp h
    exact List.mem_map_of_mem (List.mem_filter.mp hd).1

/-- After as many rounds as there are claims the search adds nothing more. -/
theorem reach_closed (zs : List ZoneEntry) (l : List Claim) (ks : List Nat) (hks : ∀ k ∈ ks, k ∈ l.map (·.claimant)) :
    ∀ j, j ∈ (reachStep zs l)^[l.length + 1] ks → j ∈ (reachStep zs l)^[l.length] ks := by
  set f := reachStep zs l with hf
  have hsub : ∀ n, ∀ k ∈ f^[n] ks, k ∈ l.map (·.claimant) := by
    intro n
    cases n with
    | zero => exact hks
    | succ n =>
      intro k hk
      rw [Function.iterate_succ_apply'] at hk
      exact (mem_reachStep.mp hk).1
  have hmono : ∀ n, ∀ k ∈ f^[n] ks, k ∈ f^[n + 1] ks := by
    intro n k hk
    rw [Function.iterate_succ_apply']
    exact mem_reachStep.mpr ⟨hsub n k hk, .inl hk⟩
  have hstay : ∀ n, (∀ j ∈ f^[n + 1] ks, j ∈ f^[n] ks) → ∀ m, ∀ j ∈ f^[n + m] ks, j ∈ f^[n] ks := by
    intro n hn m
    induction m with
    | zero => intro j hj; exact hj
    | succ m ih =>
      intro j hj
      rw [← Nat.add_assoc, Function.iterate_succ_apply'] at hj
      obtain ⟨h1, h2⟩ := mem_reachStep.mp hj
      apply hn
      rw [Function.iterate_succ_apply']
      refine mem_reachStep.mpr ⟨h1, ?_⟩
      rcases h2 with h2 | ⟨k, hk, h2⟩
      · exact .inl (ih j h2)
      · exact .inr ⟨k, ih k hk, h2⟩
  by_cases hex : ∃ n ≤ l.length, ∀ j ∈ f^[n + 1] ks, j ∈ f^[n] ks
  · obtain ⟨n, hn, hc⟩ := hex
    intro j hj
    obtain ⟨m, hm⟩ : ∃ m, l.length = n + m := ⟨l.length - n, by omega⟩
    rw [hm] at hj ⊢
    have h1 := hstay n hc (m + 1) j (by rw [← Nat.add_assoc]; exact hj)
    have hup : ∀ m, ∀ k ∈ f^[n] ks, k ∈ f^[n + m] ks := by
      intro m
      induction m with
      | zero => intro k hk; exact hk
      | succ m ih => intro k hk; exact hmono _ k (ih k hk)
    exact hup m j h1
  · push Not at hex
    exfalso
    have hcard : ∀ n ≤ l.length + 1, n ≤ (f^[n] ks).toFinset.card := by
      intro n
      induction n with
      | zero => intro _; exact Nat.zero_le _
      | succ n ih =>
        intro hn
        obtain ⟨j, hj1, hj2⟩ := hex n (by omega)
        have hlt : (f^[n] ks).toFinset ⊂ (f^[n + 1] ks).toFinset := by
          refine Finset.ssubset_iff_subset_ne.mpr ⟨fun k hk => ?_, fun he => ?_⟩
          · rw [List.mem_toFinset] at hk ⊢; exact hmono n k hk
          · exact hj2 (List.mem_toFinset.mp (he ▸ List.mem_toFinset.mpr hj1))
        exact Nat.lt_of_le_of_lt (ih (by omega)) (Finset.card_lt_card hlt)
    have h1 := hcard (l.length + 1) le_rfl
    have h2 : (f^[l.length + 1] ks).toFinset ⊆ (l.map (·.claimant)).toFinset := by
      intro k hk
      rw [List.mem_toFinset] at hk ⊢
      exact hsub _ k hk
    have h3 := Finset.card_le_card h2
    have h4 := List.toFinset_card_le (l.map (·.claimant))
    rw [List.length_map] at h4
    omega

/-- The model's test is the cycle of R61. -/
theorem onCycle_iff {zs : List ZoneEntry} {l : List Claim} (h : (l.map (·.claimant)).Nodup) (k : Nat) :
    onCycle zs l k = true ↔ Deadlocked zs l k := by
  have hks : ∀ j ∈ waitsOn zs l k, j ∈ l.map (·.claimant) := fun j hj => waitsOn_claimants hj
  unfold onCycle Deadlocked
  rw [List.contains_iff_mem, reach_iterate]
  constructor
  · have hsound : ∀ n, ∀ j ∈ (reachStep zs l)^[n] (waitsOn zs l k), Relation.TransGen (waitsFor zs l) k j := by
      intro n
      induction n with
      | zero => intro j hj; exact .single ((mem_waitsOn h k j).mp hj)
      | succ n ih =>
        intro j hj
        rw [Function.iterate_succ_apply'] at hj
        rcases (mem_reachStep.mp hj).2 with hj | ⟨i, hi, hj⟩
        · exact ih j hj
        · exact .tail (ih i hi) ((mem_waitsOn h i j).mp hj)
    exact hsound _ k
  · intro ht
    have hall : ∀ j, Relation.TransGen (waitsFor zs l) k j → j ∈ (reachStep zs l)^[l.length] (waitsOn zs l k) := by
      have hup : ∀ n, ∀ j ∈ waitsOn zs l k, j ∈ (reachStep zs l)^[n] (waitsOn zs l k) := by
        intro n
        induction n with
        | zero => intro j hj; exact hj
        | succ n ih =>
          intro j hj
          rw [Function.iterate_succ_apply']
          exact mem_reachStep.mpr ⟨hks j hj, .inl (ih j hj)⟩
      intro j hj
      induction hj with
      | single hw => exact hup _ _ ((mem_waitsOn h _ _).mpr hw)
      | tail _ hw ih =>
        apply reach_closed zs l _ hks
        rw [Function.iterate_succ_apply']
        have hm := (mem_waitsOn h _ _).mpr hw
        exact mem_reachStep.mpr ⟨waitsOn_claimants hm, .inr ⟨_, ih, hm⟩⟩
    exact hall k ht

/-! ### The claim withdrawn -/

theorem youngest_fold (l : List Claim) : ∀ best : Option Claim,
    let o := l.foldl (fun best c => match best with
      | none => some c
      | some b => if b.count < c.count then some c else some b) best
    (o = none ↔ best = none ∧ l = []) ∧ (∀ c, o = some c → (best = some c ∨ c ∈ l) ∧ (∀ b, best = some b → b.count ≤ c.count) ∧
      ∀ d ∈ l, d.count ≤ c.count) := by
  induction l with
  | nil =>
    intro best
    refine ⟨by simp, fun c hc => ⟨.inl hc, fun b hb => ?_, fun d hd => (nomatch hd)⟩⟩
    rw [List.foldl_nil] at hc
    rw [hb] at hc; cases hc; exact le_rfl
  | cons a r ih =>
    intro best
    simp only [List.foldl_cons]
    cases best with
    | none =>
      obtain ⟨h1, h2⟩ := ih (some a)
      refine ⟨by simp [h1], fun c hc => ?_⟩
      obtain ⟨k1, k2, k3⟩ := h2 c hc
      refine ⟨.inr ?_, fun b hb => (nomatch hb), fun d hd => ?_⟩
      · rcases k1 with k1 | k1
        · cases k1; exact List.mem_cons_self
        · exact List.mem_cons_of_mem _ k1
      · rcases List.mem_cons.mp hd with rfl | hd
        · exact k2 _ rfl
        · exact k3 d hd
    | some b =>
      simp only
      obtain ⟨h1, h2⟩ := ih (if b.count < a.count then some a else some b)
      refine ⟨by constructor <;> intro hh <;> first | (rw [h1] at hh; split at hh <;> simp at hh) | (simp at hh), fun c hc => ?_⟩
      obtain ⟨k1, k2, k3⟩ := h2 c hc
      by_cases hlt : b.count < a.count
      · rw [if_pos hlt] at k1 k2
        have := k2 a rfl
        refine ⟨.inr ?_, fun e he => ?_, fun d hd => ?_⟩
        · rcases k1 with k1 | k1
          · cases k1; exact List.mem_cons_self
          · exact List.mem_cons_of_mem _ k1
        · cases he; omega
        · rcases List.mem_cons.mp hd with rfl | hd
          · exact this
          · exact k3 d hd
      · rw [if_neg hlt] at k1 k2
        have := k2 b rfl
        refine ⟨k1.imp_right (List.mem_cons_of_mem _), fun e he => ?_, fun d hd => ?_⟩
        · cases he; exact this
        · rcases List.mem_cons.mp hd with rfl | hd
          · omega
          · exact k3 d hd

/-- The claim withdrawn is the one with the highest count of those on a cycle, and none is where there is no cycle (R62). -/
theorem youngest_spec {zs : List ZoneEntry} {l : List Claim} (h : (l.map (·.claimant)).Nodup) :
    (youngestOnCycle zs l = none ↔ ∀ c ∈ l, ¬ Deadlocked zs l c.claimant) ∧
    (∀ c, youngestOnCycle zs l = some c → c ∈ l ∧ Deadlocked zs l c.claimant ∧
      ∀ d ∈ l, Deadlocked zs l d.claimant → d.count ≤ c.count) := by
  obtain ⟨h1, h2⟩ := youngest_fold (l.filter (fun c => onCycle zs l c.claimant)) none
  unfold youngestOnCycle
  refine ⟨h1.trans ?_, fun c hc => ?_⟩
  · simp only [List.filter_eq_nil_iff, true_and]
    exact ⟨fun hh c hc hd => hh c hc ((onCycle_iff h _).mpr hd), fun hh c hc hd => hh c hc ((onCycle_iff h _).mp hd)⟩
  · obtain ⟨k1, k2, k3⟩ := h2 c hc
    obtain ⟨m1, m2⟩ := List.mem_filter.mp (k1.resolve_left nofun)
    exact ⟨m1, (onCycle_iff h _).mp m2, fun d hd hdd => k3 d (List.mem_filter.mpr ⟨hd, (onCycle_iff h _).mpr hdd⟩)⟩

/-! ### The rounds of a scan -/

theorem walk_length (lc : Nat) (rest : List Claim) : ∀ (ahead : List Claim) (zs : List ZoneEntry),
    (walk lc ahead rest zs).1.length ≤ ahead.length + rest.length := by
  induction rest with
  | nil => intro ahead zs; exact le_rfl
  | cons a rest ih =>
    intro ahead zs
    unfold walk
    split
    · refine (ih _ _).trans ?_
      rw [List.length_map, List.length_cons]; omega
    · refine (ih _ _).trans ?_
      rw [List.length_append, List.length_cons, List.length_cons, List.length_nil]; omega

theorem escalate_length (starve : Nat) (l : List Claim) : (escalate starve l).length = l.length :=
  (orderClaims_perm _).length_eq.trans (List.length_map _)

theorem youngest_mem {zs : List ZoneEntry} {l : List Claim} {c : Claim} (h : youngestOnCycle zs l = some c) : c ∈ l := by
  unfold youngestOnCycle at h
  exact (List.mem_filter.mp (((youngest_fold _ none).2 c h).1.resolve_left nofun)).1

theorem dropClaim_shorter {l : List Claim} {c : Claim} (h : c ∈ l) : (dropClaim l c.claimant).length < l.length := by
  have h2 : dropClaim l c.claimant ≠ l := by
    intro he
    have := (List.mem_filter.mp (he.symm ▸ h : c ∈ dropClaim l c.claimant)).2
    simp at this
  exact Nat.lt_of_le_of_ne (List.length_filter_le _ _) fun e => h2 (List.filter_sublist.eq_of_length e)

/-- The bound on the rounds of a scan is never reached. -/
theorem scanSteps_fuel (starve lc : Nat) : ∀ (n m : Nat) (l : List Claim) (zs : List ZoneEntry), l.length < n → l.length < m →
    scanSteps starve lc n l zs = scanSteps starve lc m l zs := by
  intro n
  induction n with
  | zero => intro m l zs h; omega
  | succ n ih =>
    intro m l zs hn hm
    cases m with
    | zero => omega
    | succ m =>
      unfold scanSteps
      simp only
      have h1 : (escalate starve (walk lc [] l zs).1).length ≤ l.length := by
        rw [escalate_length]
        simpa using walk_length lc l [] zs
      cases hy : youngestOnCycle (walk lc [] l zs).2 (escalate starve (walk lc [] l zs).1) with
      | none => rfl
      | some c =>
        have h2 := dropClaim_shorter (youngest_mem hy)
        simp only
        rw [ih m _ _ (by omega) (by omega)]

/-- One round of a scan, and another after each withdrawal (R62). -/
theorem scan_round (c : CellPart) (lc : Nat) (r : Replica) :
    scan c lc r =
      (let w := walk lc [] r.claims r.zones
       let l1 := escalate c.starve w.1
       match youngestOnCycle w.2 l1 with
       | none => ({ r with claims := l1, zones := w.2 }, [])
       | some d =>
         let more := scan c lc { r with claims := dropClaim l1 d.claimant, zones := w.2 }
         (more.1, d.claimant :: more.2)) := by
  conv_lhs => unfold scan
  rw [scanSteps]
  simp only
  cases hy : youngestOnCycle (walk lc [] r.claims r.zones).2 (escalate c.starve (walk lc [] r.claims r.zones).1) with
  | none => rfl
  | some d =>
    simp only
    unfold scan
    simp only
    have h1 : (escalate c.starve (walk lc [] r.claims r.zones).1).length ≤ r.claims.length := by
      rw [escalate_length]
      simpa using walk_length lc r.claims [] r.zones
    have h2 := dropClaim_shorter (youngest_mem hy)
    rw [scanSteps_fuel c.starve lc r.claims.length ((dropClaim (escalate c.starve (walk lc [] r.claims r.zones).1) d.claimant).length + 1) _ _
      (by omega) (by omega)]

/-! ### The scan of the rules -/

theorem noLater_iff (a b : Claim) : noLater a b ↔ NotAfter a b := by
  rw [notAfter_iff]
  unfold noLater claimRank
  cases a.urgent <;> cases b.urgent <;> cases a.base <;> cases b.base <;> simp [prioRank]

theorem grantable_iff (zs : List ZoneEntry) (front : List Claim) (c : Claim) : grantable zs front c = true ↔ mayBeGranted zs front c := by
  unfold grantable mayBeGranted allFree
  rw [Bool.and_eq_true, List.all_eq_true, Bool.not_eq_true', List.any_eq_false]
  refine and_congr ⟨fun h z hz hw => ?_, fun h z hz => ?_⟩ ⟨fun h a ha hu z hz hb => ?_, fun h a ha hb => ?_⟩
  · have := h z (List.mem_range.mpr hz)
    rw [hw] at this
    simpa using this
  · cases hw : c.wanted.getLsbD z with
    | false => rfl
    | true => simpa using h z (List.mem_range.mp hz) hw
  · exact h a ha (by rw [Bool.and_eq_true]; exact ⟨hu, (meets_bits _ _).mpr ⟨z, hz, hb⟩⟩)
  · rw [Bool.and_eq_true, meets_bits] at hb
    obtain ⟨hu, z, hz, hw⟩ := hb
    exact h a ha hu z hz hw

/-- The model's walk is the walk of R53 and R54. -/
theorem walk_walks (lc : Nat) (rest : List Claim) : ∀ (front : List Claim) (zs : List ZoneEntry),
    Walks lc front rest zs (walk lc front rest zs).1 (walk lc front rest zs).2 := by
  induction rest with
  | nil => intro front zs; exact .done front zs
  | cons c rest ih =>
    intro front zs
    unfold walk
    by_cases hg : grantable zs front c = true
    · rw [if_pos hg]
      refine .grant front rest _ c zs (setHold zs (fun z _ => c.wanted.getLsbD z) (.held c.claimant) lc) _ ((grantable_iff _ _ _).mp hg)
        (setHold_length _ _ _ _) (fun z hz => setHold_getD _ _ _ _ _ hz _) (ih _ _)
    · rw [if_neg hg]
      exact .wait front rest _ c zs _ (fun h => hg ((grantable_iff _ _ _).mpr h)) (ih _ _)

theorem escalate_perm (starve : Nat) (l : List Claim) :
    (escalate starve l).Perm (l.map fun c => { c with urgent := c.urgent || decide (starve ≤ c.passed) }) := by
  have e : (fun c : Claim => if !c.urgent && decide (starve ≤ c.passed) then { c with urgent := true } else c) =
      fun c => { c with urgent := c.urgent || decide (starve ≤ c.passed) } := by
    funext c
    cases hu : c.urgent <;> by_cases hs : starve ≤ c.passed <;> simp [hs, ← hu]
  unfold escalate
  rw [e]
  exact orderClaims_perm _

theorem escalate_ordered (starve : Nat) (l : List Claim) : (escalate starve l).Pairwise noLater :=
  (orderClaims_order _).imp fun h => (noLater_iff _ _).mpr h

/-- The model's scan is the scan of the rules, on a list with one claim for each claimant. -/
theorem scan_scans (c : CellPart) (lc : Nat) (r : Replica) (h : ClaimsIn r.zones r.claims) :
    Scans c.starve lc r.claims r.zones (scan c lc r).1.claims (scan c lc r).1.zones (scan c lc r).2 := by
  generalize hn : r.claims.length = n
  induction n using Nat.strong_induction_on generalizing r with
  | _ n ih =>
    subst hn
    have hw := walk_walks lc r.claims [] r.zones
    have hc := (escalate_claims c.starve (walk_claims lc r.claims [] r.zones h)).1
    obtain ⟨y1, y2⟩ := youngest_spec (zs := (walk lc [] r.claims r.zones).2) hc.one
    rw [scan_round]
    simp only
    cases hy : youngestOnCycle (walk lc [] r.claims r.zones).2 (escalate c.starve (walk lc [] r.claims r.zones).1) with
    | none => exact .settled _ _ _ _ _ hw (escalate_perm _ _) (escalate_ordered _ _) (y1.mp hy)
    | some d =>
      obtain ⟨k1, k2, k3⟩ := y2 d hy
      have hlen : (dropClaim (escalate c.starve (walk lc [] r.claims r.zones).1) d.claimant).length < r.claims.length :=
        lt_of_lt_of_le (dropClaim_shorter k1) (by rw [escalate_length]; simpa using walk_length lc r.claims [] r.zones)
      have e : dropClaim (escalate c.starve (walk lc [] r.claims r.zones).1) d.claimant =
          (escalate c.starve (walk lc [] r.claims r.zones).1).filter fun c => decide (c.claimant ≠ d.claimant) := by
        unfold dropClaim
        congr 1
        funext x
        by_cases hx : x.claimant = d.claimant <;> simp [hx]
      refine .withdraws _ _ _ _ d _ _ _ _ hw (escalate_perm _ _) (escalate_ordered _ _) k1 k2 k3 ?_
      rw [← e]
      exact ih _ hlen { r with claims := dropClaim (escalate c.starve (walk lc [] r.claims r.zones).1) d.claimant, zones := (walk lc [] r.claims r.zones).2 }
        (hc.drop d.claimant) rfl

end Sys2Proof.Laws
end

