-- ==== Sys2Proof/Laws/Points.lean ====
section
/-! SUPPORT. The point list and the REPORT queue: what offers and closings keep (R147, R153, R166). -/

namespace Sys2Proof.Laws

open Sys2Proof.Machine

theorem reofferFrom_app (src : CtlSource) (n : Nat) (s : Station) :
    (∃ rest, (reofferFrom src n s).line.control = s.line.control ++ rest) ∧ (reofferFrom src n s).line.report = s.line.report ∧ tabs (reofferFrom src n s) = tabs s := by
  induction n generalizing s with
  | zero => exact ⟨⟨[], by simp [reofferFrom]⟩, rfl, rfl⟩
  | succ n ih =>
    unfold reofferFrom
    split
    · exact ⟨⟨[], by simp⟩, rfl, rfl⟩
    · rename_i w _
      split
      · have key : ∀ u : Station, u.line.control = s.line.control ++ [w.item] → u.line.report = s.line.report → tabs u = tabs s →
            (∃ rest, (reofferFrom src n u).line.control = s.line.control ++ rest) ∧ (reofferFrom src n u).line.report = s.line.report ∧ tabs (reofferFrom src n u) = tabs s := by
          intro u h1 h2 h3
          obtain ⟨⟨r, k1⟩, k2, k3⟩ := ih u
          exact ⟨⟨w.item :: r, by rw [k1, h1]; simp⟩, k2.trans h2, k3.trans h3⟩
        simp only
        split
        · exact key _ rfl rfl rfl
        · exact key _ rfl rfl rfl
      · exact ⟨⟨[], by simp⟩, rfl, rfl⟩

theorem offerPointsFrom_app (n : Nat) (s : Station) : ∃ rest, (offerPointsFrom n s).line.report = s.line.report ++ rest := by
  induction n generalizing s with
  | zero => exact ⟨[], by simp [offerPointsFrom]⟩
  | succ n ih =>
    unfold offerPointsFrom
    split
    · exact ⟨[], by simp⟩
    · simp only
      split
      · obtain ⟨r, h⟩ := ih { s with line := enqueueReport s.line ⟨reporter s, .point (pointBody _ _)⟩, touch := { s.touch with points := markQueued _ s.touch.points } }
        exact ⟨_, by rw [h, enqueueReport_report, List.append_assoc]⟩
      · exact ⟨[], by simp⟩

theorem offerEventsFrom_app (n : Nat) (s : Station) : ∃ rest, (offerEventsFrom n s).line.report = s.line.report ++ rest := by
  induction n generalizing s with
  | zero => exact ⟨[], by simp [offerEventsFrom]⟩
  | succ n ih =>
    unfold offerEventsFrom
    split
    · exact ⟨[], by simp⟩
    · simp only
      split
      · rename_i num e rest _ _
        obtain ⟨r, h⟩ := ih { s with line := enqueueReport s.line ⟨reporter s, .event (eventBody num e)⟩, request := { s.request with events := rest } }
        exact ⟨_, by rw [h, enqueueReport_report, List.append_assoc]⟩
      · exact ⟨[], by simp⟩

theorem offerNotices_app (n : Nat) (s : Station) : ∃ rest, (offerNotices n s).line.report = s.line.report ++ rest := by
  induction n generalizing s with
  | zero => exact ⟨[], by simp [offerNotices]⟩
  | succ n ih =>
    unfold offerNotices
    split
    · exact ⟨[], by simp⟩
    · simp only
      split
      · rename_i k jn rest _ _
        obtain ⟨r, h⟩ := ih { s with line := enqueueReport s.line ⟨k, .snapBegin .refuse jn (tabs s).cell.fingerprint 0⟩, replica := { s.replica with notices := rest } }
        exact ⟨_, by rw [h, enqueueReport_report, List.append_assoc]⟩
      · exact ⟨[], by simp⟩

theorem offerShadow_app (n : Nat) (s : Station) : ∃ rest, (offerShadow n s).line.report = s.line.report ++ rest := by
  induction n generalizing s with
  | zero => exact ⟨[], by simp [offerShadow]⟩
  | succ n ih =>
    unfold offerShadow
    split
    · exact ⟨[], by simp⟩
    · split
      · exact ⟨[], by simp⟩
      · rename_i sh _ _ b _
        split
        · obtain ⟨r, h⟩ := ih { s with line := enqueueReport s.line ⟨sh.joiner, b⟩, replica := { s.replica with shadow := some { sh with next := sh.next + 1 } } }
          exact ⟨_, by rw [h, enqueueReport_report, List.append_assoc]⟩
        · exact ⟨[], by simp⟩

theorem oldestReady_nil (n : Nat) : oldestReady n [] = none := rfl

/-- What offering points changes. -/
structure PointsOnly (s t : Station) : Prop where
  line : t = { s with line := t.line, touch := { s.touch with points := t.touch.points } }
  pend : ∀ d, PointEntry.pending d ∈ t.touch.points ↔ PointEntry.pending d ∈ s.touch.points
  ready : ∀ d k, (PointEntry.ready d k ∈ s.touch.points ∨ PointEntry.queued d k ∈ s.touch.points) → (PointEntry.ready d k ∈ t.touch.points ∨ PointEntry.queued d k ∈ t.touch.points)

theorem PointsOnly.refl (s : Station) : PointsOnly s s := ⟨rfl, fun _ => Iff.rfl, fun _ _ h => h⟩

theorem PointsOnly.trans {s t u : Station} (h : PointsOnly s t) (k : PointsOnly t u) : PointsOnly s u :=
  ⟨by rw [k.line, h.line], fun d => (k.pend d).trans (h.pend d), fun d c x => k.ready d c (h.ready d c x)⟩

theorem markQueued_pend (seq : Nat) (l : List PointEntry) (d : PointData) : PointEntry.pending d ∈ markQueued seq l ↔ PointEntry.pending d ∈ l := by
  unfold markQueued
  rw [List.mem_map]
  constructor
  · rintro ⟨e, he, hx⟩
    cases e with
    | ready a b => simp only at hx; split at hx <;> cases hx
    | _ => first | (cases hx; exact he) | cases hx
  · intro h; exact ⟨_, h, rfl⟩

theorem markQueued_ready (seq : Nat) (l : List PointEntry) (d : PointData) (k : Correction) (h : PointEntry.ready d k ∈ l ∨ PointEntry.queued d k ∈ l) :
    PointEntry.ready d k ∈ markQueued seq l ∨ PointEntry.queued d k ∈ markQueued seq l := by
  unfold markQueued
  rcases h with h | h
  · by_cases hs : d.seq = seq
    · right; exact List.mem_map.mpr ⟨_, h, by simp [hs]⟩
    · left; exact List.mem_map.mpr ⟨_, h, by simp [hs]⟩
  · right; exact List.mem_map.mpr ⟨_, h, rfl⟩

theorem offerPointsFrom_only (n : Nat) (s : Station) : PointsOnly s (offerPointsFrom n s) := by
  induction n generalizing s with
  | zero => exact PointsOnly.refl s
  | succ n ih =>
    unfold offerPointsFrom
    split
    · exact PointsOnly.refl s
    · simp only; split
      · exact PointsOnly.trans ⟨rfl, fun d => markQueued_pend _ _ _, fun d k h => markQueued_ready _ _ _ _ h⟩ (ih _)
      · exact PointsOnly.refl s

theorem findSome_pending (l : List PointEntry) (seq : Nat) (d : PointData) (hd : PointEntry.pending d ∈ l) (hs : d.seq = seq)
    (hu : ∀ e, PointEntry.pending e ∈ l → e.seq = seq → e = d) :
    l.findSome? (pendingDue seq) = some d.lateDue := by
  induction l with
  | nil => cases hd
  | cons a r ih =>
    rw [List.findSome?_cons]
    cases a with
    | pending e =>
      simp only [pendingDue]
      by_cases he : e.seq = seq
      · rw [if_pos he, hu e List.mem_cons_self he]
      · rw [if_neg he]
        refine ih ?_ (fun x hx => hu x (List.mem_cons_of_mem _ hx))
        rcases List.mem_cons.mp hd with h | h
        · cases h; exact absurd hs he
        · exact h
    | _ =>
      refine ih ?_ (fun x hx => hu x (List.mem_cons_of_mem _ hx))
      rcases List.mem_cons.mp hd with h | h
      · cases h
      · exact h

theorem findSome_none (l : List PointEntry) (seq : Nat) (h : ∀ e, PointEntry.pending e ∈ l → e.seq ≠ seq) :
    l.findSome? (pendingDue seq) = none := by
  rw [List.findSome?_eq_none_iff]
  intro x hx
  cases x with
  | pending e => simp only [pendingDue]; rw [if_neg (h e hx)]
  | _ => rfl

end Sys2Proof.Laws
end

