-- ==== Sys2Proof/Laws/Rack.lean ====
section
/-! SUPPORT. The Rack Port Unit after an application (R111): which lock outputs it drives, and what else stays. -/

namespace Sys2Proof.Laws

open Sys2Proof.Machine

theorem offerNotices_eq (k : Nat) (s : Station) :
    offerNotices k s = { s with line := (offerNotices k s).line, replica := (offerNotices k s).replica } := by
  induction k generalizing s with
  | zero => rfl
  | succ k ih =>
    unfold offerNotices
    split
    · rfl
    · simp only
      split
      · rw [ih]
      · rfl

theorem offerShadow_eq (k : Nat) (s : Station) :
    offerShadow k s = { s with line := (offerShadow k s).line, replica := (offerShadow k s).replica } := by
  induction k generalizing s with
  | zero => rfl
  | succ k ih =>
    unfold offerShadow
    split
    · rfl
    · split
      · rfl
      · split
        · rw [ih]
        · rfl

/-- The Replica Unit's work after an application stays within the line and the Replica Unit (R33 to R35). -/
theorem servingApplied_eq (s : Station) (f : Frame) (fx : Fx) :
    servingApplied s f fx = { s with line := (servingApplied s f fx).line, replica := (servingApplied s f fx).replica } := by
  have h : ∀ t : Station, offerSnapshots t = { t with line := (offerSnapshots t).line, replica := (offerSnapshots t).replica } := by
    intro t
    unfold offerSnapshots
    simp only
    split
    · rw [offerShadow_eq, offerNotices_eq]
    · exact offerNotices_eq _ _
  have h2 := fun r : ReplicaUnit => h { s with replica := r }
  unfold servingApplied
  exact h2 _

/-- The reservation or abandonment test of one port, and the lock it leads to (R111). -/
def lockAfter (r : Replica) (f : Frame) (took : Bool) (p : Nat) (old : Lock) : Lock :=
  if took && isReserveOf p f.body then .unlocked
  else if (old == .unlocked && !isReserved (portEntry r p).state) || (took && match f.body with
      | .portAbandon q _ => q == p
      | _ => false) then .locked
  else old

theorem rackPort_setRackPort (s : Station) (p : Nat) (v : RackPort) (q : Nat) :
    rackPort (setRackPort s p v) q = if q = p ∧ 1 ≤ p ∧ p ≤ s.rack.length then v else rackPort s q := by
  by_cases h : q = p
  · subst h
    by_cases hr : 1 ≤ q ∧ q ≤ s.rack.length
    · rw [if_pos ⟨rfl, hr⟩]
      exact at1_set1_same _ _ _ _ hr.1 hr.2
    · rw [if_neg (fun x => hr x.2)]
      have e : ∀ l : List RackPort, l.length = s.rack.length → at1 l ⟨.locked, none⟩ q = ⟨.locked, none⟩ := by
        intro l hl
        by_contra hc
        have := at1_range l _ q hc
        rw [hl] at this
        exact hr this
      show at1 (set1 s.rack q v) _ q = at1 s.rack _ q
      rw [e _ (set1_length _ _ _), e _ rfl]
  · rw [if_neg (fun x => h x.1)]
    exact at1_set1_other _ _ _ _ _ h

/-- One port after an application: its lock output, and every other port as it was (R111). -/
theorem rackPortApplied_locks (before : Replica) (f : Frame) (took : Bool) (s : Station) (p : Nat) (h1 : 1 ≤ p) (h2 : p ≤ s.rack.length) :
    (rackPort (rackPortApplied before f took s p) p).lock = lockAfter (tabs s) f took p (rackPort s p).lock ∧
      (∀ q, q ≠ p → rackPort (rackPortApplied before f took s p) q = rackPort s q) := by
  have hrep : ∀ t : Station, ∀ q, rackPort (reportRack t p) q = rackPort t q := by
    intro t q; unfold rackPort; rw [(reportRack_works t p).rack]
  have hset : ∀ l q, rackPort (reportRack (setLock s p l) p) q = if q = p then { rackPort s p with lock := l } else rackPort s q := by
    intro l q
    rw [hrep]
    unfold setLock
    rw [rackPort_setRackPort]
    by_cases hq : q = p
    · rw [if_pos ⟨hq, h1, h2⟩, if_pos hq]
    · rw [if_neg (fun x => hq x.1), if_neg hq]
  have key : ∀ (a b c : Bool) (t : Station), t = (if a = true then reportRack (setLock s p .unlocked) p
      else if b = true then reportRack (setLock s p .locked) p else if c = true then reportRack s p else s) →
      (rackPort t p).lock = (if a = true then Lock.unlocked else if b = true then .locked else (rackPort s p).lock) ∧
        (∀ q, q ≠ p → rackPort t q = rackPort s q) := by
    intro a b c t ht
    subst ht
    cases a <;> cases b <;> cases c <;> exact ⟨by simp [hset, hrep], fun q hq => by simp [hset, hrep, hq]⟩
  exact key _ _ _ _ rfl

/-- Every port of a list visited once: its lock output is driven by the rules of R111, the other ports stay. -/
theorem rackFold_locks (before : Replica) (f : Frame) (took : Bool) (l : List Nat) : ∀ (s : Station), l.Nodup →
    (∀ p ∈ l, 1 ≤ p ∧ p ≤ s.rack.length) →
    (∀ p ∈ l, (rackPort (l.foldl (rackPortApplied before f took) s) p).lock = lockAfter (tabs s) f took p (rackPort s p).lock) ∧
      (∀ q, q ∉ l → rackPort (l.foldl (rackPortApplied before f took) s) q = rackPort s q) := by
  induction l with
  | nil => intro s _ _; exact ⟨fun p hp => (by cases hp), fun q _ => rfl⟩
  | cons a l ih =>
    intro s hn hr
    have hr1 := rackPortApplied_reacts before f took s a
    obtain ⟨k1, k2⟩ := rackPortApplied_locks before f took s a (hr a List.mem_cons_self).1 (hr a List.mem_cons_self).2
    have ht : tabs (rackPortApplied before f took s a) = tabs s := hr1.tables
    obtain ⟨i1, i2⟩ := ih (rackPortApplied before f took s a) (List.nodup_cons.mp hn).2
      (fun p hp => by rw [hr1.rack]; exact hr p (List.mem_cons_of_mem _ hp))
    have hna := (List.nodup_cons.mp hn).1
    rw [List.foldl_cons]
    refine ⟨fun p hp => ?_, fun q hq => ?_⟩
    · rcases List.mem_cons.mp hp with rfl | hp
      · rw [i2 _ hna, k1]
      · rw [i1 p hp, ht, k2 p (fun e => hna (e ▸ hp))]
    · rw [i2 q (fun x => hq (List.mem_cons_of_mem _ x)), k2 q (fun e => hq (e ▸ List.mem_cons_self))]

/-- The ports that the image of the rack station configures, within its twelve. -/
theorem rackApplied_locks (before : Replica) (s : Station) (f : Frame) (took : Bool) (hw : rackWorks s = true)
    (hl : (cellOf s).ports.length ≤ s.rack.length) (p : Nat) (hc : configured (cellOf s) p = true) :
    (rackPort (rackApplied before s f took) p).lock = lockAfter (tabs s) f took p (rackPort s p).lock := by
  simp only [configured, Bool.and_eq_true, decide_eq_true_eq] at hc
  unfold rackApplied
  rw [if_pos hw]
  refine (rackFold_locks before f took _ s ?_ ?_).1 p ?_
  · exact (List.nodup_map_iff (fun a b h => by simpa using h)).mpr List.nodup_range
  · intro q hq
    obtain ⟨i, hi, rfl⟩ := List.mem_map.mp hq
    rw [List.mem_range] at hi
    exact ⟨by omega, by omega⟩
  · exact List.mem_map.mpr ⟨p - 1, List.mem_range.mpr (by omega), by omega⟩

/-- The Rack Port Unit's ports after an application are those its own step leaves (log 15). -/
theorem react_rack (before : Replica) (s : Station) (f : Frame) (fx : Fx) :
    ∃ u, u.loader = s.loader ∧ u.rack = s.rack ∧ tabs u = tabs s ∧
      (react before s f fx).rack = (rackApplied before u f fx.took).rack := by
  refine ⟨claimApplied (withdrawStale (servingApplied s f fx)) f fx, ?_, ?_, ?_, ?_⟩
  · rw [(claimApplied_works _ _ _).loader, (withdrawStale_works _).loader, servingApplied_eq]
  · rw [(claimApplied_works _ _ _).rack, (withdrawStale_works _).rack, servingApplied_eq]
  · unfold tabs
    rw [(claimApplied_works _ _ _).replica, (withdrawStale_works _).replica, (servingApplied_reacts s f fx).tables]
  · unfold react
    simp only
    rw [(foldl_works _ reportCondition_works _ _).rack, (mountApplied_works _ _ _ _).rack, (closingApplied_works _ _ _).rack,
      (changeApplied_works _ _ _).rack]

end Sys2Proof.Laws
end

