-- ==== Sys2Proof/Laws/Requests.lean ====
section
/-! SUPPORT. The Request Unit's checks: what taking a request off its list leaves of them, and how a list of checks decides (R158 to R162). -/

namespace Sys2Proof.Laws

open Sys2Proof.Machine

/-! ### Deciding -/

theorem answer_line (u : Station) (src : Nat) (a : AnswerBody) :
    (answer u src a).line = { u.line with report := u.line.report ++ [⟨src, .answer a⟩], reserved := u.line.reserved - 1, drain := (answer u src a).line.drain, runCount := (answer u src a).line.runCount } := by
  unfold answer answerInto
  simp only
  rw [updateDrain_eq]

theorem decide_none {s : Station} {src : Nat} {tag : Code} {code acc : Nat} {cs : List (Bool × Reason)} {eff : Station → Station} (h : firstFailing cs = none) :
    decideRequest s src tag code acc cs eff = accept (eff s) src tag code acc := by
  unfold decideRequest; rw [h]

theorem decide_some {s : Station} {src : Nat} {tag : Code} {code acc : Nat} {cs : List (Bool × Reason)} {eff : Station → Station} {r : Reason} (h : firstFailing cs = some r) :
    decideRequest s src tag code acc cs eff = refuse s src tag code r := by
  unfold decideRequest; rw [h]

theorem firstFailing_all {cs : List (Bool × Reason)} (h : ∀ x ∈ cs, x.1 = true) : firstFailing cs = none := by
  induction cs with
  | nil => rfl
  | cons a r ih =>
    obtain ⟨b, w⟩ := a
    have hb : b = true := h _ List.mem_cons_self
    subst hb
    simp only [firstFailing, if_true]
    exact ih fun x hx => h x (List.mem_cons_of_mem _ hx)

theorem firstFailing_append (a b : List (Bool × Reason)) (h : ∀ x ∈ a, x.1 = true) : firstFailing (a ++ b) = firstFailing b := by
  induction a with
  | nil => rfl
  | cons x r ih =>
    obtain ⟨v, w⟩ := x
    have hb : v = true := h _ List.mem_cons_self
    subst hb
    simp only [List.cons_append, firstFailing, if_true]
    exact ih fun y hy => h y (List.mem_cons_of_mem _ hy)

theorem hasAxes_arm {s : Station} (h : (ownOf s).axes ≠ []) : hasAxes s .arm = true := by
  unfold hasAxes chanAxes axesOf
  cases hl : (ownOf s).axes with
  | nil => exact absurd hl h
  | cons a r => simp [axesUpTo, chanOf]

/-! ### The checks do not read the list of requests -/

theorem currentTip_take (s : Station) : currentTip (takeRequest s) = currentTip s := rfl
theorem headIndex_take (s : Station) : headIndex (takeRequest s) = headIndex s := rfl
theorem endPosition_take (s : Station) (l : List Segment) : endPosition (takeRequest s) l = endPosition s l := by
  induction l with
  | nil => rfl
  | cons g r ih =>
    unfold endPosition
    cases g.kind <;> first | rfl | exact ih
theorem endIndex_take (s : Station) (l : List Segment) : endIndex (takeRequest s) l = endIndex s l := by
  induction l with
  | nil => rfl
  | cons g r ih =>
    unfold endIndex
    cases g.kind <;> first | rfl | exact ih
theorem startFooting_take (s : Station) : startFooting (takeRequest s) = startFooting s := endPosition_take _ _
theorem indexFooting_take (s : Station) : indexFooting (takeRequest s) = indexFooting s := endIndex_take _ _
theorem tipOffset_take (s : Station) (ab : Option (Int × Int)) : tipOffset (takeRequest s) ab = tipOffset s ab := rfl
theorem limitsHold_take (s : Station) (off : Vec3) (k : SegKind) : limitsHold (takeRequest s) off k = limitsHold s off k := by cases k <;> rfl
theorem zoneSetFrom_take (s : Station) (v : Vec3) (n : Nat) (k : SegKind) : zoneSetFrom (takeRequest s) v n k = zoneSetFrom s v n k := by cases k <;> rfl
theorem clearance_take (s : Station) : clearance (takeRequest s) = clearance s := rfl
theorem zonesAllowed_take (s : Station) (k : SegKind) : zonesAllowed (takeRequest s) k = zonesAllowed s k := by
  unfold zonesAllowed
  rw [startFooting_take, zoneSetFrom_take, clearance_take]
  rfl
theorem gateChecks_take (s : Station) : gateChecks (takeRequest s) = gateChecks s := rfl
theorem queueChecks_take (s : Station) (c : ChanId) : queueChecks (takeRequest s) c = queueChecks s c := by cases c <;> rfl
theorem targetChecks_take (s : Station) (k : SegKind) : targetChecks (takeRequest s) k = targetChecks s k := by
  unfold targetChecks
  rw [indexFooting_take, tipOffset_take, limitsHold_take, zonesAllowed_take]
theorem probeChecks_take (s : Station) : probeChecks (takeRequest s) = probeChecks s := by
  unfold probeChecks
  rw [indexFooting_take]
  rfl
theorem allHomed_take (s : Station) : allHomed (takeRequest s) = allHomed s := rfl
theorem moveChecks_take (s : Station) (t : Vec3) (a b : Nat) : moveChecks (takeRequest s) t a b = moveChecks s t a b := by
  unfold moveChecks; rw [gateChecks_take, queueChecks_take, targetChecks_take, allHomed_take]; rfl
theorem touchChecks_take (s : Station) (t : TouchArgs) : touchChecks (takeRequest s) t = touchChecks s t := by
  unfold touchChecks; rw [gateChecks_take, queueChecks_take, targetChecks_take, allHomed_take, probeChecks_take]; rfl
theorem hasAxes_take (s : Station) (c : ChanId) : hasAxes (takeRequest s) c = hasAxes s c := by cases c <;> rfl
theorem homeChecks_take (s : Station) (c : Option ChanId) : homeChecks (takeRequest s) c = homeChecks s c := by
  unfold homeChecks
  split
  · rw [gateChecks_take]
  · rw [gateChecks_take, queueChecks_take, hasAxes_take]
theorem indexChecks_take (s : Station) (a : Nat) (b : Int) : indexChecks (takeRequest s) a b = indexChecks s a b := by
  unfold indexChecks; rw [gateChecks_take, queueChecks_take, targetChecks_take, allHomed_take]; rfl
theorem routeSet_take (s : Station) (d : Option (Nat × Nat)) (a b : Nat) : routeSet (takeRequest s) d a b = routeSet s d a b := by cases d <;> rfl
theorem changeChecks_take (s : Station) (x : Nat) : changeChecks (takeRequest s) x = changeChecks s x := by
  unfold changeChecks
  simp only
  rw [routeSet_take]
  rfl
theorem qualifyChecks_take (s : Station) (x i n : Nat) (t : Tip) : qualifyChecks (takeRequest s) x i n t = qualifyChecks s x i n t := by
  unfold qualifyChecks
  rfl
theorem parkChecks_take (s : Station) : parkChecks (takeRequest s) = parkChecks s := rfl

end Sys2Proof.Laws
end

