-- ==== Sys2Proof/Laws/Segments.lean ====
section
/-! SUPPORT. Segments of both channels: enqueued, completed, stopped, halted (R69, R74, R81 to R87). -/

namespace Sys2Proof.Laws

open Sys2Proof.Machine

theorem enq_facts (s : Station) (c : ChanId) (kind : SegKind) (origin : Origin) (recovery : Bool) (speed : Nat) :
    (chan (enqueueSegment s c kind origin recovery speed) c).queue = (chan s c).queue ++ [freshSegment s kind origin recovery speed] ∧
    (chan (enqueueSegment s c kind origin recovery speed) c).state = (if (chan s c).state = .idle then .waitTurn else (chan s c).state) ∧
    (enqueueSegment s c kind origin recovery speed).motion.nextAcc = s.motion.nextAcc + 1 ∧
    (∀ d, d ≠ c → chan (enqueueSegment s c kind origin recovery speed) d = chan s d) := by
  cases c
  · refine ⟨rfl, rfl, rfl, fun d hd => ?_⟩; cases d; exact absurd rfl hd; rfl
  · refine ⟨rfl, rfl, rfl, fun d hd => ?_⟩; cases d; rfl; exact absurd rfl hd

theorem moving_idle {st : ChanState} (h : movingState st = true) : (if st = .idle then ChanState.waitTurn else st) = st := by
  cases st <;> first | rfl | cases h

theorem not_gate {s : Station} (h : ¬ (serving s = true ∧ (rosterEntry (tabs s) (me s)).state = .active)) (l : List (Bool × Reason)) :
    firstFailing (gateChecks s ++ l) = some .notActive := by
  have : (serving s && ownActive s) = false := by
    by_cases h1 : serving s = true
    · have h2 : (rosterEntry (tabs s) (me s)).state ≠ .active := fun h2 => h ⟨h1, h2⟩
      have : ownActive s = false := beq_eq_false_iff_ne.mpr h2
      rw [this]; simp
    · simp only [Bool.not_eq_true] at h1; rw [h1]; rfl
  unfold gateChecks
  simp only [List.cons_append, List.nil_append, firstFailing]
  rw [this]; rfl

theorem gate_parked {s : Station} (h1 : serving s = true) (h2 : (rosterEntry (tabs s) (me s)).state = .active) (h3 : s.loader.mode = .parked) (l : List (Bool × Reason)) :
    firstFailing (gateChecks s ++ l) = some .parked := by
  have : (serving s && ownActive s) = true := by simp [h1, ownActive, rosterState]; exact h2
  unfold gateChecks
  simp only [List.cons_append, List.nil_append, firstFailing]
  rw [this]; simp [parkedMode, h3]

theorem gate_busy {s : Station} (h1 : serving s = true) (h2 : (rosterEntry (tabs s) (me s)).state = .active) (h3 : s.loader.mode ≠ .parked)
    (h4 : s.change.state ≠ .idle ∨ s.request.restartPending = true) (l : List (Bool × Reason)) :
    firstFailing (gateChecks s ++ l) = some .busy := by
  have a : (serving s && ownActive s) = true := by simp [h1, ownActive, rosterState]; exact h2
  have b : (!parkedMode s) = true := by simp [parkedMode, h3]
  have c : (!changeRuns s && !s.request.restartPending) = false := by
    rcases h4 with h4 | h4
    · simp [changeRuns, h4]
    · simp [h4]
  unfold gateChecks
  simp only [List.cons_append, List.nil_append, firstFailing]
  rw [a, b, c]; rfl

theorem selected_nil {n : Nat} (h : n = 0 ∨ 4 ≤ n) : selected n = [] := by
  rcases h with rfl | h
  · rfl
  · unfold selected
    split <;> first | omega | rfl

theorem selected_ne {n : Nat} (h1 : 1 ≤ n) (h2 : n ≤ 3) : (selected n).isEmpty = false := by
  have : n = 1 ∨ n = 2 ∨ n = 3 := by omega
  rcases this with rfl | rfl | rfl <;> rfl

/-- The channels a HALT stops while no change runs. -/
theorem haltAll_idle (s : Station) (cs : List ChanId) (h : s.change.state = .idle) :
    haltAll s cs = chooseLead (if cs.contains .head then haltChan (if cs.contains .arm then haltChan s .arm else s) .head else (if cs.contains .arm then haltChan s .arm else s)) := by
  unfold haltAll
  simp only [show changeRuns s = false from by simp [changeRuns, h], Bool.false_and, Bool.or_false]
  congr 1
  have key : ∀ u : Station, u.change.state = .idle → changeHalt u = u := by
    intro u hu
    unfold changeHalt
    simp [changeRuns, hu]
  apply key
  split <;> split <;> simp only [haltChan_change, h]

theorem haltChan_cong {s u : Station} {c : ChanId} (e : chan u c = chan s c) : chan (haltChan u c) c = chan (haltChan s c) c := by
  have hs : headSeg u c = headSeg s c := by unfold headSeg; rw [e]
  unfold haltChan
  rw [hs, e]
  cases headSeg s c with
  | none => exact e
  | some g =>
    simp only
    cases (chan s c).state <;> simp only
    · exact e
    · exact e
    · split
      · exact e
      · rw [haltNow_chan, haltNow_chan, e]
    · rw [haltNow_chan, haltNow_chan, e]
    · split
      · exact e
      · rw [haltNow_chan, haltNow_chan, e]
    · unfold beginStop; rw [setChan_same, setChan_same, e]
    · exact e
    · exact e
    · exact e

theorem haltMid_chan (s : Station) (a b : Bool) (c : ChanId) (hc : (c = .arm ∧ a = true) ∨ (c = .head ∧ b = true)) :
    chan (if b then haltChan (if a then haltChan s .arm else s) .head else (if a then haltChan s .arm else s)) c = chan (haltChan s c) c := by
  rcases hc with ⟨rfl, rfl⟩ | ⟨rfl, rfl⟩
  · cases b
    · rfl
    · exact haltChan_other _ _ _ (by decide)
  · cases a
    · rfl
    · exact haltChan_cong (haltChan_other _ _ _ (by decide))

theorem haltMid_not (s : Station) (a b : Bool) (c : ChanId) (hc : (c = .arm ∧ a = false) ∨ (c = .head ∧ b = false)) :
    chan (if b then haltChan (if a then haltChan s .arm else s) .head else (if a then haltChan s .arm else s)) c = chan s c := by
  rcases hc with ⟨rfl, rfl⟩ | ⟨rfl, rfl⟩
  · cases b
    · rfl
    · exact haltChan_other _ _ _ (by decide)
  · cases a
    · rfl
    · exact haltChan_other _ _ _ (by decide)

theorem haltMid_change (s : Station) (a b : Bool) :
    (if b then haltChan (if a then haltChan s .arm else s) .head else (if a then haltChan s .arm else s)).change = s.change := by
  split <;> split <;> simp only [haltChan_change]

theorem haltChan_running {s : Station} {c : ChanId} {g : Segment} {r : List Segment} (hq : (chan s c).queue = g :: r) (hr : (chan s c).state = .running) :
    chan (haltChan s c) c = { chan s c with state := .stopping, queue := [{ g with haltSeen := true }] } := by
  unfold haltChan
  rw [headSeg_cons hq, hr]
  simp only [beginStop]
  exact setChan_same _ _ _

theorem haltChan_waiting {s : Station} {c : ChanId} {g : Segment} {r : List Segment} (hq : (chan s c).queue = g :: r) (hf : fromSequencer g = false) (hr : waitingState (chan s c).state = true) :
    chan (haltChan s c) c = { chan s c with state := .halted, queue := [] } := by
  have hro : isRunOn g = false := by
    unfold isRunOn; unfold fromSequencer at hf
    cases ho : g.origin with
    | request t => rfl
    | sequencer r => rw [ho] at hf; cases hf
  unfold haltChan
  rw [headSeg_cons hq]
  cases hs : (chan s c).state <;> rw [hs] at hr <;> first | (cases hr; done) | skip
  · simp only [hro, Bool.false_eq_true, if_false]; exact haltNow_chan _ _ _
  · exact haltNow_chan _ _ _
  · simp only [hro, Bool.false_eq_true, if_false]; exact haltNow_chan _ _ _

theorem haltChan_still {s : Station} {c : ChanId} (hn : (chan s c).state ≠ .running) (hr : waitingState (chan s c).state = false) : haltChan s c = s := by
  unfold haltChan
  cases headSeg s c with
  | none => rfl
  | some g =>
    simp only
    cases hs : (chan s c).state <;> rw [hs] at hr hn <;> first | rfl | (cases hr; done) | exact absurd rfl hn

theorem depositPlan_take (s : Station) : depositPlan (takeRequest s) = depositPlan s := rfl

theorem enableChan_homed (s : Station) (c : ChanId) : (enableChan s c).motion.homed = s.motion.homed := by
  unfold enableChan
  split
  · rw [giveEvent_motion]; cases c <;> rfl
  · cases c <;> rfl

theorem enableChannels_homed (s : Station) : (enableChannels s).motion.homed = s.motion.homed := by
  unfold enableChannels
  split
  · rfl
  · rw [enableChan_homed, enableChan_homed]

theorem unpark_homed (s : Station) : (unpark s).motion.homed = s.motion.homed := by
  unfold unpark modeEvent
  rw [giveEvent_motion, (tidyMoment_calm _ _).homed, (offerMount_calm _).homed, enableChannels_homed]

theorem accept_control (s : Station) (src : Nat) (tag : Code) (code acc : Nat) : (accept s src tag code acc).line.control = s.line.control := by
  unfold accept; rw [answer_line]

theorem mode_of_serving {s : Station} (h : serving s = true) : s.loader.mode = .active ∨ s.loader.mode = .parked := by
  unfold serving at h
  simp only [Bool.and_eq_true] at h
  cases hm : s.loader.mode <;> rw [hm] at h <;> first | (left; rfl) | (right; rfl) | (exact absurd h.2 (by decide))

theorem accept_chan (u : Station) (src : Nat) (tag : Code) (code acc : Nat) (c : ChanId) : chan (accept u src tag code acc) c = chan u c := by cases c <;> rfl

theorem works_losses (s : Station) : Works s (clearLosses s) :=
  ⟨rfl, rfl, rfl, rfl, rfl, rfl, rfl, rfl, rfl, rfl, rfl, rfl, rfl, rfl, LineWorks.refl _, id, rfl, id⟩

theorem answer_control (s : Station) (src : Nat) (a : AnswerBody) : (answer s src a).line.control = s.line.control := by
  rw [answer_line]

theorem pageStation_eq {s u : Station} (n : Nat) (h1 : u.loader = s.loader) (h2 : u.replica = s.replica) (h3 : u.line = s.line)
    (h4 : u.request.nextEvent = s.request.nextEvent) (h5 : u.request.overflow = s.request.overflow) (h6 : u.request.discards = s.request.discards) :
    pageStation u n = pageStation s n := by
  unfold pageStation lossBytes parkedMode tabs
  rw [h1, h2, h3, h4, h5, h6]

theorem perAxis_set {α : Type} (t : PerAxis α) (v : α) (ax : Axis) : (t.set v ax).get ax = v := by cases ax <;> rfl

theorem haltNow_quiet {s : Station} {c : ChanId} {cause : HaltCause} (hq : (chan s (otherChan c)).queue = []) : chooseLead (haltNow s c cause) = haltNow s c cause := by
  have e := haltNow_chan s c cause
  have o := haltNow_other s c (otherChan c) cause (otherChan_ne c)
  obtain ⟨a, b⟩ := queues_empty (s := haltNow s c cause) (c := c) (by rw [e]) (by rw [o]; exact hq)
  exact chooseLead_empty a b

theorem armTrigger_capture (v : Station) {g : Segment} {a : TouchArgs} {enc : Counts} (hk : g.kind = .touch a) (hp : g.phase = .probing) (hc : g.credit = true) :
    armTrigger v g enc = setHead (capturePoint v (capturedPoint v g a.dir ((tagOf (some g)).getD 0) enc)) .arm { g with credit := false, phase := .retract true, axisTarget := some (retractCounts v a enc) } := by
  obtain ⟨a1, a2, a3, a4, a5, a6, a7, a8, a9, b1, b2, b3, b4⟩ := g
  simp only at hk hp hc
  subst hk; subst hp; subst hc
  rfl

theorem perAxis_set_ne {α : Type} (t : PerAxis α) (v : α) (ax bx : Axis) (h : bx ≠ ax) : (t.set v ax).get bx = t.get bx := by
  cases ax <;> cases bx <;> first | exact absurd rfl h | rfl

theorem foldSet (l : List Axis) (t : PerAxis Bool) (ax : Axis) (h : ax ∈ l ∨ t.get ax = true) : (l.foldl (fun t ax => t.set true ax) t).get ax = true := by
  induction l generalizing t with
  | nil => rcases h with h | h; cases h; exact h
  | cons b r ih =>
    refine ih _ ?_
    by_cases hb : ax = b
    · subst hb; right; exact perAxis_set _ _ _
    · rcases h with h | h
      · rcases List.mem_cons.mp h with h | h
        · exact absurd h hb
        · exact Or.inl h
      · right; rw [perAxis_set_ne _ _ _ _ hb]; exact h

theorem anyFree_of {s : Station} (h : ∃ e ∈ s.touch.points, e = .free) : anyFree s = true := by
  obtain ⟨e, he, rfl⟩ := h
  exact List.any_eq_true.mpr ⟨_, he, rfl⟩

theorem zoneSetOf_touch {s : Station} {g : Segment} (h : isTouchSeg g = true) : zoneSetOf s g = zoneSetFrom s (currentTip s) (clearance s) g.kind := by
  unfold isTouchSeg at h
  unfold zoneSetOf
  cases hk : g.kind <;> rw [hk] at h <;> first | (cases h; done) | skip
  cases g.origin <;> rfl

theorem home_touch {g : Segment} (h : isTouchSeg g = true) : isHomeSeg g = false := by
  unfold isTouchSeg at h
  unfold isHomeSeg
  cases hk : g.kind <;> rw [hk] at h <;> first | rfl | cases h

theorem fromRequest {g : Segment} {tag : Code} (h : g.origin = .request tag) : fromSequencer g = false := by unfold fromSequencer; rw [h]

theorem completeSegment_chan (s : Station) (c : ChanId) (g : Segment) :
    (chan (completeSegment s c g) c).queue = (chan s c).queue.drop 1 ∧
    (chan (completeSegment s c g) c).state = (if ((chan s c).queue.drop 1).isEmpty then .idle else .waitTurn) ∧
    chan (completeSegment s c g) (otherChan c) = chan s (otherChan c) := by
  obtain ⟨w, hw⟩ : ∃ w, w = (if isHomeSeg g then { setChan s c { chan s c with queue := (chan s c).queue.drop 1 } with motion := { (setChan s c { chan s c with queue := (chan s c).queue.drop 1 }).motion with homed := setForChan (setChan s c { chan s c with queue := (chan s c).queue.drop 1 }) c true (setChan s c { chan s c with queue := (chan s c).queue.drop 1 }).motion.homed } } else setChan s c { chan s c with queue := (chan s c).queue.drop 1 }) := ⟨_, rfl⟩
  have hwc : chan w c = { chan s c with queue := (chan s c).queue.drop 1 } := by rw [hw]; split <;> cases c <;> rfl
  have hwo : chan w (otherChan c) = chan s (otherChan c) := by rw [hw]; split <;> cases c <;> rfl
  obtain ⟨v, hv⟩ : ∃ v, v = tidyMoment (setState w c (if ((chan s c).queue.drop 1).isEmpty then .idle else .waitTurn)) none := ⟨_, rfl⟩
  have hvc : chan v c = ⟨(if ((chan s c).queue.drop 1).isEmpty then .idle else .waitTurn), (chan s c).queue.drop 1, (chan s c).stall⟩ := by
    rw [hv, (tidyMoment_noChan _ _).chan]
    unfold setState
    rw [setChan_same, hwc]
  have hvo : chan v (otherChan c) = chan s (otherChan c) := by
    rw [hv, (tidyMoment_noChan _ _).chan, setState_other _ _ _ _ (otherChan_ne c), hwo]
  have hcs : completeSegment s c g = if ((chan s c).queue.drop 1).isEmpty && !fromSequencer g then giveEvent v (.channelIdle c) else v := by
    rw [hv, hw]; rfl
  rw [hcs]
  split
  · rw [(noChan_of (giveEvent_motion _ _)).chan, (noChan_of (giveEvent_motion _ _)).chan, hvc, hvo]; exact ⟨rfl, rfl, rfl⟩
  · rw [hvc, hvo]; exact ⟨rfl, rfl, rfl⟩

theorem set1_set1 {α : Type} (l : List α) (n : Nat) (a b : α) : set1 (set1 l n a) n b = set1 l n b := by
  unfold set1
  split
  · rfl
  · rw [List.set_set]

theorem complete_seq {u : Station} {c : ChanId} {g : Segment} (hq : (chan u c).queue = [g]) (ho : ∃ r, g.origin = .sequencer r) (hh : isHomeSeg g = false) :
    completeSegment u c g = tidyMoment (setChan u c { chan u c with queue := [], state := .idle }) none := by
  obtain ⟨r, ho⟩ := ho
  have hf : fromSequencer g = true := by unfold fromSequencer; rw [ho]
  unfold completeSegment
  simp only [hq, List.drop_succ_cons, List.drop_zero, hh, hf, List.isEmpty_nil, Bool.not_true, Bool.and_false, Bool.false_eq_true, if_false, if_true]
  cases c <;> rfl

/-- A sequencer's only segment has completed on a station whose other channel is empty. -/
theorem segmentDone_seq {s u : Station} {c : ChanId} {enc : Counts} {g : Segment} (hu : u = readEncoders s enc) (hq : (chan s c).queue = [g]) (hst : (chan s c).state = .running)
    (ho : ∃ r, g.origin = .sequencer r) (ht : isTouchSeg g = false) (hh : isHomeSeg g = false) (hoq : (chan s (otherChan c)).queue = []) :
    ∃ v, segmentDone s c enc = chooseLead (changeSegmentEnd v) ∧ v.change = s.change ∧ v.replica = s.replica ∧ v.loader = s.loader ∧
      (chan v c).queue = [] ∧ (chan v c).state = .idle ∧ (chan v (otherChan c)).queue = [] ∧
      controlHeld v.line = controlHeld s.line ∧ v.line.waiting = s.line.waiting := by
  have huq : (chan u c).queue = [g] := by rw [hu]; cases c <;> exact hq
  have huo : (chan u (otherChan c)).queue = [] := by rw [hu]; cases c <;> exact hoq
  obtain ⟨w, hw⟩ : ∃ w, w = setChan u c { chan u c with queue := [], state := .idle } := ⟨_, rfl⟩
  have hcs := complete_seq huq ho hh
  rw [← hw] at hcs
  have tc := tidyMoment_calm w none
  have hv1 : (chan (tidyMoment w none) c).queue = [] := by rw [tc.chan, hw, setChan_same]
  have hv2 : (chan (tidyMoment w none) c).state = .idle := by rw [tc.chan, hw, setChan_same]
  have hv3 : (chan (tidyMoment w none) (otherChan c)).queue = [] := by rw [tc.chan, hw, setChan_other _ _ _ _ (otherChan_ne c)]; exact huo
  obtain ⟨a, b⟩ := queues_empty hv1 hv3
  have hse : segmentEnds s c g = true := by
    unfold segmentEnds
    unfold isTouchSeg at ht
    unfold isHomeSeg at hh
    cases hk : g.kind <;> rw [hk] at ht hh <;> first | rfl | (cases ht; done) | (exact absurd hh (by simp))
  have hf : fromSequencer g = true := by obtain ⟨r, ho⟩ := ho; unfold fromSequencer; rw [ho]
  have hwe : w.change = s.change ∧ w.replica = s.replica ∧ w.loader = s.loader ∧ w.line = s.line := by
    rw [hw, hu]; cases c <;> exact ⟨rfl, rfl, rfl, rfl⟩
  obtain ⟨k1, k2, _⟩ := tidyMoment_keeps w
  refine ⟨tidyMoment w none, ?_, tc.change.trans hwe.1, tc.replica.trans hwe.2.1, tc.loader.trans hwe.2.2.1, hv1, hv2, hv3, ?_, ?_⟩
  · unfold segmentDone
    rw [headSeg_cons hq]
    simp only
    rw [if_pos ⟨hst, hse⟩, hf, if_pos rfl, ← hu, hcs, chooseLead_empty a b]
  · rw [k1, hwe.2.2.2]
  · rw [k2, hwe.2.2.2]

end Sys2Proof.Laws
end

