-- ==== Sys2Proof/Laws/State.lean ====
section
/-! SUPPORT. What each named update of the station leaves in every field: `<field>_<update>`, one lemma per field of `Station`,
true by definition, so that a proof never unfolds a record update. -/

namespace Sys2Proof.Machine

section
variable (s : Station)

@[simp] theorem now_setTabs (r : Replica) : (setTabs s r).now = s.now := rfl
@[simp] theorem pins_setTabs (r : Replica) : (setTabs s r).pins = s.pins := rfl
@[simp] theorem loader_setTabs (r : Replica) : (setTabs s r).loader = s.loader := rfl
@[simp] theorem line_setTabs (r : Replica) : (setTabs s r).line = s.line := rfl
@[simp] theorem replica_setTabs (r : Replica) : (setTabs s r).replica = { s.replica with tables := r } := rfl
@[simp] theorem motion_setTabs (r : Replica) : (setTabs s r).motion = s.motion := rfl
@[simp] theorem touch_setTabs (r : Replica) : (setTabs s r).touch = s.touch := rfl
@[simp] theorem thermal_setTabs (r : Replica) : (setTabs s r).thermal = s.thermal := rfl
@[simp] theorem change_setTabs (r : Replica) : (setTabs s r).change = s.change := rfl
@[simp] theorem rack_setTabs (r : Replica) : (setTabs s r).rack = s.rack := rfl
@[simp] theorem request_setTabs (r : Replica) : (setTabs s r).request = s.request := rfl
@[simp] theorem freeUsed_setTabs (r : Replica) : (setTabs s r).freeUsed = s.freeUsed := rfl

@[simp] theorem now_setPoints (l : List PointEntry) : (setPoints s l).now = s.now := rfl
@[simp] theorem pins_setPoints (l : List PointEntry) : (setPoints s l).pins = s.pins := rfl
@[simp] theorem loader_setPoints (l : List PointEntry) : (setPoints s l).loader = s.loader := rfl
@[simp] theorem line_setPoints (l : List PointEntry) : (setPoints s l).line = s.line := rfl
@[simp] theorem replica_setPoints (l : List PointEntry) : (setPoints s l).replica = s.replica := rfl
@[simp] theorem motion_setPoints (l : List PointEntry) : (setPoints s l).motion = s.motion := rfl
@[simp] theorem touch_setPoints (l : List PointEntry) : (setPoints s l).touch = { s.touch with points := l } := rfl
@[simp] theorem thermal_setPoints (l : List PointEntry) : (setPoints s l).thermal = s.thermal := rfl
@[simp] theorem change_setPoints (l : List PointEntry) : (setPoints s l).change = s.change := rfl
@[simp] theorem rack_setPoints (l : List PointEntry) : (setPoints s l).rack = s.rack := rfl
@[simp] theorem request_setPoints (l : List PointEntry) : (setPoints s l).request = s.request := rfl
@[simp] theorem freeUsed_setPoints (l : List PointEntry) : (setPoints s l).freeUsed = s.freeUsed := rfl

@[simp] theorem now_setOutstanding (o : Outstanding) : (setOutstanding s o).now = s.now := rfl
@[simp] theorem pins_setOutstanding (o : Outstanding) : (setOutstanding s o).pins = s.pins := rfl
@[simp] theorem loader_setOutstanding (o : Outstanding) : (setOutstanding s o).loader = s.loader := rfl
@[simp] theorem line_setOutstanding (o : Outstanding) : (setOutstanding s o).line = s.line := rfl
@[simp] theorem replica_setOutstanding (o : Outstanding) : (setOutstanding s o).replica = s.replica := rfl
@[simp] theorem motion_setOutstanding (o : Outstanding) : (setOutstanding s o).motion = { s.motion with outstanding := o } := rfl
@[simp] theorem touch_setOutstanding (o : Outstanding) : (setOutstanding s o).touch = s.touch := rfl
@[simp] theorem thermal_setOutstanding (o : Outstanding) : (setOutstanding s o).thermal = s.thermal := rfl
@[simp] theorem change_setOutstanding (o : Outstanding) : (setOutstanding s o).change = s.change := rfl
@[simp] theorem rack_setOutstanding (o : Outstanding) : (setOutstanding s o).rack = s.rack := rfl
@[simp] theorem request_setOutstanding (o : Outstanding) : (setOutstanding s o).request = s.request := rfl
@[simp] theorem freeUsed_setOutstanding (o : Outstanding) : (setOutstanding s o).freeUsed = s.freeUsed := rfl

@[simp] theorem now_readEncoders (e : Counts) : (readEncoders s e).now = s.now := rfl
@[simp] theorem pins_readEncoders (e : Counts) : (readEncoders s e).pins = s.pins := rfl
@[simp] theorem loader_readEncoders (e : Counts) : (readEncoders s e).loader = s.loader := rfl
@[simp] theorem line_readEncoders (e : Counts) : (readEncoders s e).line = s.line := rfl
@[simp] theorem replica_readEncoders (e : Counts) : (readEncoders s e).replica = s.replica := rfl
@[simp] theorem touch_readEncoders (e : Counts) : (readEncoders s e).touch = s.touch := rfl
@[simp] theorem thermal_readEncoders (e : Counts) : (readEncoders s e).thermal = s.thermal := rfl
@[simp] theorem change_readEncoders (e : Counts) : (readEncoders s e).change = s.change := rfl
@[simp] theorem rack_readEncoders (e : Counts) : (readEncoders s e).rack = s.rack := rfl
@[simp] theorem request_readEncoders (e : Counts) : (readEncoders s e).request = s.request := rfl
@[simp] theorem freeUsed_readEncoders (e : Counts) : (readEncoders s e).freeUsed = s.freeUsed := rfl

@[simp] theorem now_disableChannels : (disableChannels s).now = s.now := rfl
@[simp] theorem pins_disableChannels : (disableChannels s).pins = s.pins := rfl
@[simp] theorem loader_disableChannels : (disableChannels s).loader = s.loader := rfl
@[simp] theorem line_disableChannels : (disableChannels s).line = s.line := rfl
@[simp] theorem replica_disableChannels : (disableChannels s).replica = s.replica := rfl
@[simp] theorem motion_disableChannels : (disableChannels s).motion = { s.motion with arm := .disabled, head := .disabled } := rfl
@[simp] theorem touch_disableChannels : (disableChannels s).touch = s.touch := rfl
@[simp] theorem thermal_disableChannels : (disableChannels s).thermal = s.thermal := rfl
@[simp] theorem change_disableChannels : (disableChannels s).change = s.change := rfl
@[simp] theorem rack_disableChannels : (disableChannels s).rack = s.rack := rfl
@[simp] theorem request_disableChannels : (disableChannels s).request = s.request := rfl
@[simp] theorem freeUsed_disableChannels : (disableChannels s).freeUsed = s.freeUsed := rfl

@[simp] theorem now_setChange (c : Changer) : (setChange s c).now = s.now := rfl
@[simp] theorem pins_setChange (c : Changer) : (setChange s c).pins = s.pins := rfl
@[simp] theorem loader_setChange (c : Changer) : (setChange s c).loader = s.loader := rfl
@[simp] theorem line_setChange (c : Changer) : (setChange s c).line = s.line := rfl
@[simp] theorem replica_setChange (c : Changer) : (setChange s c).replica = s.replica := rfl
@[simp] theorem motion_setChange (c : Changer) : (setChange s c).motion = s.motion := rfl
@[simp] theorem touch_setChange (c : Changer) : (setChange s c).touch = s.touch := rfl
@[simp] theorem thermal_setChange (c : Changer) : (setChange s c).thermal = s.thermal := rfl
@[simp] theorem change_setChange (c : Changer) : (setChange s c).change = c := rfl
@[simp] theorem rack_setChange (c : Changer) : (setChange s c).rack = s.rack := rfl
@[simp] theorem request_setChange (c : Changer) : (setChange s c).request = s.request := rfl
@[simp] theorem freeUsed_setChange (c : Changer) : (setChange s c).freeUsed = s.freeUsed := rfl

@[simp] theorem now_setLeg (l : Leg) : (setLeg s l).now = s.now := rfl
@[simp] theorem pins_setLeg (l : Leg) : (setLeg s l).pins = s.pins := rfl
@[simp] theorem loader_setLeg (l : Leg) : (setLeg s l).loader = s.loader := rfl
@[simp] theorem line_setLeg (l : Leg) : (setLeg s l).line = s.line := rfl
@[simp] theorem replica_setLeg (l : Leg) : (setLeg s l).replica = s.replica := rfl
@[simp] theorem motion_setLeg (l : Leg) : (setLeg s l).motion = s.motion := rfl
@[simp] theorem touch_setLeg (l : Leg) : (setLeg s l).touch = s.touch := rfl
@[simp] theorem thermal_setLeg (l : Leg) : (setLeg s l).thermal = s.thermal := rfl
@[simp] theorem change_setLeg (l : Leg) : (setLeg s l).change = { s.change with leg := l } := rfl
@[simp] theorem rack_setLeg (l : Leg) : (setLeg s l).rack = s.rack := rfl
@[simp] theorem request_setLeg (l : Leg) : (setLeg s l).request = s.request := rfl
@[simp] theorem freeUsed_setLeg (l : Leg) : (setLeg s l).freeUsed = s.freeUsed := rfl

@[simp] theorem now_enterState (st : ChangeState) (l : Leg) : (enterState s st l).now = s.now := rfl
@[simp] theorem pins_enterState (st : ChangeState) (l : Leg) : (enterState s st l).pins = s.pins := rfl
@[simp] theorem loader_enterState (st : ChangeState) (l : Leg) : (enterState s st l).loader = s.loader := rfl
@[simp] theorem line_enterState (st : ChangeState) (l : Leg) : (enterState s st l).line = s.line := rfl
@[simp] theorem replica_enterState (st : ChangeState) (l : Leg) : (enterState s st l).replica = s.replica := rfl
@[simp] theorem motion_enterState (st : ChangeState) (l : Leg) : (enterState s st l).motion = s.motion := rfl
@[simp] theorem touch_enterState (st : ChangeState) (l : Leg) : (enterState s st l).touch = s.touch := rfl
@[simp] theorem thermal_enterState (st : ChangeState) (l : Leg) : (enterState s st l).thermal = s.thermal := rfl
@[simp] theorem change_enterState (st : ChangeState) (l : Leg) : (enterState s st l).change = { s.change with state := st, leg := l } := rfl
@[simp] theorem rack_enterState (st : ChangeState) (l : Leg) : (enterState s st l).rack = s.rack := rfl
@[simp] theorem request_enterState (st : ChangeState) (l : Leg) : (enterState s st l).request = s.request := rfl
@[simp] theorem freeUsed_enterState (st : ChangeState) (l : Leg) : (enterState s st l).freeUsed = s.freeUsed := rfl

@[simp] theorem now_idleChanger : (idleChanger s).now = s.now := rfl
@[simp] theorem pins_idleChanger : (idleChanger s).pins = s.pins := rfl
@[simp] theorem loader_idleChanger : (idleChanger s).loader = s.loader := rfl
@[simp] theorem line_idleChanger : (idleChanger s).line = s.line := rfl
@[simp] theorem replica_idleChanger : (idleChanger s).replica = s.replica := rfl
@[simp] theorem motion_idleChanger : (idleChanger s).motion = s.motion := rfl
@[simp] theorem touch_idleChanger : (idleChanger s).touch = s.touch := rfl
@[simp] theorem thermal_idleChanger : (idleChanger s).thermal = s.thermal := rfl
@[simp] theorem change_idleChanger : (idleChanger s).change = Changer.idleWith s.change.output s.change.lastFailure := rfl
@[simp] theorem rack_idleChanger : (idleChanger s).rack = s.rack := rfl
@[simp] theorem request_idleChanger : (idleChanger s).request = s.request := rfl
@[simp] theorem freeUsed_idleChanger : (idleChanger s).freeUsed = s.freeUsed := rfl

@[simp] theorem now_meetFailure (c : ChangeCause) : (meetFailure s c).now = s.now := rfl
@[simp] theorem pins_meetFailure (c : ChangeCause) : (meetFailure s c).pins = s.pins := rfl
@[simp] theorem loader_meetFailure (c : ChangeCause) : (meetFailure s c).loader = s.loader := rfl
@[simp] theorem line_meetFailure (c : ChangeCause) : (meetFailure s c).line = s.line := rfl
@[simp] theorem replica_meetFailure (c : ChangeCause) : (meetFailure s c).replica = s.replica := rfl
@[simp] theorem motion_meetFailure (c : ChangeCause) : (meetFailure s c).motion = s.motion := rfl
@[simp] theorem touch_meetFailure (c : ChangeCause) : (meetFailure s c).touch = s.touch := rfl
@[simp] theorem thermal_meetFailure (c : ChangeCause) : (meetFailure s c).thermal = s.thermal := rfl
@[simp] theorem rack_meetFailure (c : ChangeCause) : (meetFailure s c).rack = s.rack := rfl
@[simp] theorem request_meetFailure (c : ChangeCause) : (meetFailure s c).request = s.request := rfl
@[simp] theorem freeUsed_meetFailure (c : ChangeCause) : (meetFailure s c).freeUsed = s.freeUsed := rfl

@[simp] theorem now_setRackPort (p : Nat) (v : RackPort) : (setRackPort s p v).now = s.now := rfl
@[simp] theorem pins_setRackPort (p : Nat) (v : RackPort) : (setRackPort s p v).pins = s.pins := rfl
@[simp] theorem loader_setRackPort (p : Nat) (v : RackPort) : (setRackPort s p v).loader = s.loader := rfl
@[simp] theorem line_setRackPort (p : Nat) (v : RackPort) : (setRackPort s p v).line = s.line := rfl
@[simp] theorem replica_setRackPort (p : Nat) (v : RackPort) : (setRackPort s p v).replica = s.replica := rfl
@[simp] theorem motion_setRackPort (p : Nat) (v : RackPort) : (setRackPort s p v).motion = s.motion := rfl
@[simp] theorem touch_setRackPort (p : Nat) (v : RackPort) : (setRackPort s p v).touch = s.touch := rfl
@[simp] theorem thermal_setRackPort (p : Nat) (v : RackPort) : (setRackPort s p v).thermal = s.thermal := rfl
@[simp] theorem change_setRackPort (p : Nat) (v : RackPort) : (setRackPort s p v).change = s.change := rfl
@[simp] theorem rack_setRackPort (p : Nat) (v : RackPort) : (setRackPort s p v).rack = set1 s.rack p v := rfl
@[simp] theorem request_setRackPort (p : Nat) (v : RackPort) : (setRackPort s p v).request = s.request := rfl
@[simp] theorem freeUsed_setRackPort (p : Nat) (v : RackPort) : (setRackPort s p v).freeUsed = s.freeUsed := rfl

@[simp] theorem now_setLock (p : Nat) (l : Lock) : (setLock s p l).now = s.now := rfl
@[simp] theorem pins_setLock (p : Nat) (l : Lock) : (setLock s p l).pins = s.pins := rfl
@[simp] theorem loader_setLock (p : Nat) (l : Lock) : (setLock s p l).loader = s.loader := rfl
@[simp] theorem line_setLock (p : Nat) (l : Lock) : (setLock s p l).line = s.line := rfl
@[simp] theorem replica_setLock (p : Nat) (l : Lock) : (setLock s p l).replica = s.replica := rfl
@[simp] theorem motion_setLock (p : Nat) (l : Lock) : (setLock s p l).motion = s.motion := rfl
@[simp] theorem touch_setLock (p : Nat) (l : Lock) : (setLock s p l).touch = s.touch := rfl
@[simp] theorem thermal_setLock (p : Nat) (l : Lock) : (setLock s p l).thermal = s.thermal := rfl
@[simp] theorem change_setLock (p : Nat) (l : Lock) : (setLock s p l).change = s.change := rfl
@[simp] theorem rack_setLock (p : Nat) (l : Lock) : (setLock s p l).rack = set1 s.rack p { rackPort s p with lock := l } := rfl
@[simp] theorem request_setLock (p : Nat) (l : Lock) : (setLock s p l).request = s.request := rfl
@[simp] theorem freeUsed_setLock (p : Nat) (l : Lock) : (setLock s p l).freeUsed = s.freeUsed := rfl

@[simp] theorem now_atDue (d : Nat) : (atDue s d).now = max s.now d := rfl
@[simp] theorem pins_atDue (d : Nat) : (atDue s d).pins = s.pins := rfl
@[simp] theorem loader_atDue (d : Nat) : (atDue s d).loader = s.loader := rfl
@[simp] theorem line_atDue (d : Nat) : (atDue s d).line = s.line := rfl
@[simp] theorem replica_atDue (d : Nat) : (atDue s d).replica = s.replica := rfl
@[simp] theorem motion_atDue (d : Nat) : (atDue s d).motion = s.motion := rfl
@[simp] theorem touch_atDue (d : Nat) : (atDue s d).touch = s.touch := rfl
@[simp] theorem thermal_atDue (d : Nat) : (atDue s d).thermal = s.thermal := rfl
@[simp] theorem change_atDue (d : Nat) : (atDue s d).change = s.change := rfl
@[simp] theorem rack_atDue (d : Nat) : (atDue s d).rack = s.rack := rfl
@[simp] theorem request_atDue (d : Nat) : (atDue s d).request = s.request := rfl
@[simp] theorem freeUsed_atDue (d : Nat) : (atDue s d).freeUsed = s.freeUsed := rfl

@[simp] theorem now_takeRequest : (takeRequest s).now = s.now := rfl
@[simp] theorem pins_takeRequest : (takeRequest s).pins = s.pins := rfl
@[simp] theorem loader_takeRequest : (takeRequest s).loader = s.loader := rfl
@[simp] theorem line_takeRequest : (takeRequest s).line = s.line := rfl
@[simp] theorem replica_takeRequest : (takeRequest s).replica = s.replica := rfl
@[simp] theorem motion_takeRequest : (takeRequest s).motion = s.motion := rfl
@[simp] theorem touch_takeRequest : (takeRequest s).touch = s.touch := rfl
@[simp] theorem thermal_takeRequest : (takeRequest s).thermal = s.thermal := rfl
@[simp] theorem change_takeRequest : (takeRequest s).change = s.change := rfl
@[simp] theorem rack_takeRequest : (takeRequest s).rack = s.rack := rfl
@[simp] theorem request_takeRequest : (takeRequest s).request = { s.request with delivered := s.request.delivered.drop 1 } := rfl
@[simp] theorem freeUsed_takeRequest : (takeRequest s).freeUsed = s.freeUsed := rfl

@[simp] theorem now_clearLosses : (clearLosses s).now = s.now := rfl
@[simp] theorem pins_clearLosses : (clearLosses s).pins = s.pins := rfl
@[simp] theorem loader_clearLosses : (clearLosses s).loader = s.loader := rfl
@[simp] theorem line_clearLosses : (clearLosses s).line = s.line := rfl
@[simp] theorem replica_clearLosses : (clearLosses s).replica = s.replica := rfl
@[simp] theorem motion_clearLosses : (clearLosses s).motion = s.motion := rfl
@[simp] theorem touch_clearLosses : (clearLosses s).touch = s.touch := rfl
@[simp] theorem thermal_clearLosses : (clearLosses s).thermal = s.thermal := rfl
@[simp] theorem change_clearLosses : (clearLosses s).change = s.change := rfl
@[simp] theorem rack_clearLosses : (clearLosses s).rack = s.rack := rfl
@[simp] theorem request_clearLosses : (clearLosses s).request = { s.request with overflow := false, discards := 0 } := rfl
@[simp] theorem freeUsed_clearLosses : (clearLosses s).freeUsed = s.freeUsed := rfl

@[simp] theorem now_withdrawWaiting (p : Waiting → Bool) : (withdrawWaiting s p).now = s.now := rfl
@[simp] theorem pins_withdrawWaiting (p : Waiting → Bool) : (withdrawWaiting s p).pins = s.pins := rfl
@[simp] theorem loader_withdrawWaiting (p : Waiting → Bool) : (withdrawWaiting s p).loader = s.loader := rfl
@[simp] theorem line_withdrawWaiting (p : Waiting → Bool) : (withdrawWaiting s p).line = { s.line with waiting := s.line.waiting.filter (fun w => !p w) } := rfl
@[simp] theorem replica_withdrawWaiting (p : Waiting → Bool) : (withdrawWaiting s p).replica = s.replica := rfl
@[simp] theorem motion_withdrawWaiting (p : Waiting → Bool) : (withdrawWaiting s p).motion = s.motion := rfl
@[simp] theorem touch_withdrawWaiting (p : Waiting → Bool) : (withdrawWaiting s p).touch = s.touch := rfl
@[simp] theorem thermal_withdrawWaiting (p : Waiting → Bool) : (withdrawWaiting s p).thermal = s.thermal := rfl
@[simp] theorem change_withdrawWaiting (p : Waiting → Bool) : (withdrawWaiting s p).change = s.change := rfl
@[simp] theorem rack_withdrawWaiting (p : Waiting → Bool) : (withdrawWaiting s p).rack = s.rack := rfl
@[simp] theorem request_withdrawWaiting (p : Waiting → Bool) : (withdrawWaiting s p).request = s.request := rfl
@[simp] theorem freeUsed_withdrawWaiting (p : Waiting → Bool) : (withdrawWaiting s p).freeUsed = s.freeUsed := rfl

@[simp] theorem now_offerRelease (m : ZoneMask) (w : Bool) : (offerRelease s m w).now = s.now := rfl
@[simp] theorem pins_offerRelease (m : ZoneMask) (w : Bool) : (offerRelease s m w).pins = s.pins := rfl
@[simp] theorem loader_offerRelease (m : ZoneMask) (w : Bool) : (offerRelease s m w).loader = s.loader := rfl
@[simp] theorem line_offerRelease (m : ZoneMask) (w : Bool) : (offerRelease s m w).line = offerReleaseTo s.line m w := rfl
@[simp] theorem replica_offerRelease (m : ZoneMask) (w : Bool) : (offerRelease s m w).replica = s.replica := rfl
@[simp] theorem motion_offerRelease (m : ZoneMask) (w : Bool) : (offerRelease s m w).motion = s.motion := rfl
@[simp] theorem touch_offerRelease (m : ZoneMask) (w : Bool) : (offerRelease s m w).touch = s.touch := rfl
@[simp] theorem thermal_offerRelease (m : ZoneMask) (w : Bool) : (offerRelease s m w).thermal = s.thermal := rfl
@[simp] theorem change_offerRelease (m : ZoneMask) (w : Bool) : (offerRelease s m w).change = s.change := rfl
@[simp] theorem rack_offerRelease (m : ZoneMask) (w : Bool) : (offerRelease s m w).rack = s.rack := rfl
@[simp] theorem request_offerRelease (m : ZoneMask) (w : Bool) : (offerRelease s m w).request = s.request := rfl
@[simp] theorem freeUsed_offerRelease (m : ZoneMask) (w : Bool) : (offerRelease s m w).freeUsed = s.freeUsed := rfl

@[simp] theorem now_answer (src : Nat) (a : AnswerBody) : (answer s src a).now = s.now := rfl
@[simp] theorem pins_answer (src : Nat) (a : AnswerBody) : (answer s src a).pins = s.pins := rfl
@[simp] theorem loader_answer (src : Nat) (a : AnswerBody) : (answer s src a).loader = s.loader := rfl
@[simp] theorem line_answer (src : Nat) (a : AnswerBody) : (answer s src a).line = answerInto s.line ⟨src, .answer a⟩ := rfl
@[simp] theorem replica_answer (src : Nat) (a : AnswerBody) : (answer s src a).replica = s.replica := rfl
@[simp] theorem motion_answer (src : Nat) (a : AnswerBody) : (answer s src a).motion = s.motion := rfl
@[simp] theorem touch_answer (src : Nat) (a : AnswerBody) : (answer s src a).touch = s.touch := rfl
@[simp] theorem thermal_answer (src : Nat) (a : AnswerBody) : (answer s src a).thermal = s.thermal := rfl
@[simp] theorem change_answer (src : Nat) (a : AnswerBody) : (answer s src a).change = s.change := rfl
@[simp] theorem rack_answer (src : Nat) (a : AnswerBody) : (answer s src a).rack = s.rack := rfl
@[simp] theorem request_answer (src : Nat) (a : AnswerBody) : (answer s src a).request = s.request := rfl
@[simp] theorem freeUsed_answer (src : Nat) (a : AnswerBody) : (answer s src a).freeUsed = s.freeUsed := rfl

@[simp] theorem now_releaseTrigger : (releaseTrigger s).now = s.now := rfl
@[simp] theorem pins_releaseTrigger : (releaseTrigger s).pins = { s.pins with trigger := false } := rfl
@[simp] theorem loader_releaseTrigger : (releaseTrigger s).loader = s.loader := rfl
@[simp] theorem line_releaseTrigger : (releaseTrigger s).line = s.line := rfl
@[simp] theorem replica_releaseTrigger : (releaseTrigger s).replica = s.replica := rfl
@[simp] theorem motion_releaseTrigger : (releaseTrigger s).motion = s.motion := rfl
@[simp] theorem touch_releaseTrigger : (releaseTrigger s).touch = s.touch := rfl
@[simp] theorem thermal_releaseTrigger : (releaseTrigger s).thermal = s.thermal := rfl
@[simp] theorem change_releaseTrigger : (releaseTrigger s).change = s.change := rfl
@[simp] theorem rack_releaseTrigger : (releaseTrigger s).rack = s.rack := rfl
@[simp] theorem request_releaseTrigger : (releaseTrigger s).request = s.request := rfl
@[simp] theorem freeUsed_releaseTrigger : (releaseTrigger s).freeUsed = s.freeUsed := rfl

@[simp] theorem now_releaseFault (ax : Axis) : (releaseFault s ax).now = s.now := rfl
@[simp] theorem pins_releaseFault (ax : Axis) : (releaseFault s ax).pins = { s.pins with driveFault := s.pins.driveFault.set false ax } := rfl
@[simp] theorem loader_releaseFault (ax : Axis) : (releaseFault s ax).loader = s.loader := rfl
@[simp] theorem line_releaseFault (ax : Axis) : (releaseFault s ax).line = s.line := rfl
@[simp] theorem replica_releaseFault (ax : Axis) : (releaseFault s ax).replica = s.replica := rfl
@[simp] theorem touch_releaseFault (ax : Axis) : (releaseFault s ax).touch = s.touch := rfl
@[simp] theorem thermal_releaseFault (ax : Axis) : (releaseFault s ax).thermal = s.thermal := rfl
@[simp] theorem change_releaseFault (ax : Axis) : (releaseFault s ax).change = s.change := rfl
@[simp] theorem rack_releaseFault (ax : Axis) : (releaseFault s ax).rack = s.rack := rfl
@[simp] theorem request_releaseFault (ax : Axis) : (releaseFault s ax).request = s.request := rfl
@[simp] theorem freeUsed_releaseFault (ax : Axis) : (releaseFault s ax).freeUsed = s.freeUsed := rfl

@[simp] theorem now_setChan (c : ChanId) (v : Chan) : (setChan s c v).now = s.now := by cases c <;> rfl
@[simp] theorem pins_setChan (c : ChanId) (v : Chan) : (setChan s c v).pins = s.pins := by cases c <;> rfl
@[simp] theorem loader_setChan (c : ChanId) (v : Chan) : (setChan s c v).loader = s.loader := by cases c <;> rfl
@[simp] theorem line_setChan (c : ChanId) (v : Chan) : (setChan s c v).line = s.line := by cases c <;> rfl
@[simp] theorem replica_setChan (c : ChanId) (v : Chan) : (setChan s c v).replica = s.replica := by cases c <;> rfl
@[simp] theorem touch_setChan (c : ChanId) (v : Chan) : (setChan s c v).touch = s.touch := by cases c <;> rfl
@[simp] theorem thermal_setChan (c : ChanId) (v : Chan) : (setChan s c v).thermal = s.thermal := by cases c <;> rfl
@[simp] theorem change_setChan (c : ChanId) (v : Chan) : (setChan s c v).change = s.change := by cases c <;> rfl
@[simp] theorem rack_setChan (c : ChanId) (v : Chan) : (setChan s c v).rack = s.rack := by cases c <;> rfl
@[simp] theorem request_setChan (c : ChanId) (v : Chan) : (setChan s c v).request = s.request := by cases c <;> rfl
@[simp] theorem freeUsed_setChan (c : ChanId) (v : Chan) : (setChan s c v).freeUsed = s.freeUsed := by cases c <;> rfl
@[simp] theorem enc_setChan (c : ChanId) (v : Chan) : (setChan s c v).motion.enc = s.motion.enc := by cases c <;> rfl
@[simp] theorem homed_setChan (c : ChanId) (v : Chan) : (setChan s c v).motion.homed = s.motion.homed := by cases c <;> rfl
@[simp] theorem fault_setChan (c : ChanId) (v : Chan) : (setChan s c v).motion.fault = s.motion.fault := by cases c <;> rfl
@[simp] theorem filter_setChan (c : ChanId) (v : Chan) : (setChan s c v).motion.filter = s.motion.filter := by cases c <;> rfl
@[simp] theorem nextAcc_setChan (c : ChanId) (v : Chan) : (setChan s c v).motion.nextAcc = s.motion.nextAcc := by cases c <;> rfl
@[simp] theorem outstanding_setChan (c : ChanId) (v : Chan) : (setChan s c v).motion.outstanding = s.motion.outstanding := by cases c <;> rfl
@[simp] theorem tabs_setTabs (r : Replica) : tabs (setTabs s r) = r := rfl

/-- A channel reads as written. -/
@[simp] theorem chan_setChan (c : ChanId) (v : Chan) : chan (setChan s c v) c = v := by cases c <;> rfl

end

end Sys2Proof.Machine
end

