-- ==== Sys2Proof/Laws/Step.lean ====
section
/-! SUPPORT. What the small definitions about the queue do: no word of the table spells a command, so putting a word in front of the
queue changes nothing; and what one millisecond of idling leaves. -/

namespace Sys2Proof.Machine

@[simp] theorem decodeTableWord_none (nbits w : Nat) : decodeTableWord nbits w = none := rfl

@[simp] theorem withFetchWord_same (s : State) (nbits w : Nat) : s.withFetchWord nbits w = s := rfl

@[simp] theorem now_idle (s : State) : (idle s).stn.now = s.stn.now + 1 := rfl
@[simp] theorem pending_idle (s : State) : (idle s).pending = s.pending := rfl
@[simp] theorem line_idle (s : State) : (idle s).stn.line = s.stn.line := rfl
@[simp] theorem replica_idle (s : State) : (idle s).stn.replica = s.stn.replica := rfl
@[simp] theorem motion_idle (s : State) : (idle s).stn.motion = s.stn.motion := rfl

end Sys2Proof.Machine
end

