-- ==== Sys2Proof/WellFormed.lean ====
section
/-! DEFINITION. Well-formed commands: every operand lies in the range that the pins, the wire or the numbering of 00_scope.md
(section 7) can give it. The meanings are total and do not ask for this; it says which terms stand for an event at all. -/

namespace Sys2Proof.WellFormed

open Sys2Proof.Machine

/-- The header's two numbers have four bits each (11.1). -/
def hdr (h : Hdr) : Bool := decide (h.sender < 16) && decide (h.dest < 16)

/-- The one-byte numbers of a SNAP_ENTRY's contents (11.4). -/
def contentOctets : SnapContent → Bool
  | .roster k .. => natFits 1 k
  | .cell _ => true
  | .zone z _ => natFits 1 z
  | .claim place _ => natFits 1 place
  | .port p _ => natFits 1 p
  | .probe x .. => natFits 1 x
  | .tips x part .. => natFits 1 x && natFits 1 part
  | .board e => natFits 1 e.station && natFits 1 e.input
  | .latchFirst k .. => natFits 1 k
  | .latchSecond k .. => natFits 1 k

/-- The one-byte fields that `bodyFits` leaves to the format ranges (11.4). -/
def octets : Body → Bool
  | .join _ _ jn => natFits 1 jn
  | .silence k _ => natFits 1 k
  | .snapBegin _ jn _ _ => natFits 1 jn
  | .snapEntry _ c => contentOctets c
  | .snapEnd jn _ _ => natFits 1 jn
  | .portReserve p _ x => natFits 1 p && natFits 1 x
  | .portState p .. => natFits 1 p
  | .portAbandon p _ => natFits 1 p
  | .probeDeposit m p => natFits 1 m && natFits 1 p
  | .probeTake t p _ => natFits 1 t && natFits 1 p
  | .custodySet x c => natFits 1 x && natFits 1 (custodyValue c)
  | .qualPart x i n _ => natFits 1 x && natFits 1 i && natFits 1 n
  | .qualCommit x n _ => natFits 1 x && natFits 1 n
  | .probeMark x => natFits 1 x
  | .thermal es => es.all (fun e => natFits 1 e.input)
  | .point p => natFits 1 p.probe && natFits 1 p.tip && natFits 1 p.a && intFits 1 p.b
  | .event e => natFits 1 e.kind
  | _ => true

/-- A completed frame whose numbers fit their fields and whose body fits 60 bytes (11.1, 11.4). -/
def frame (h : Hdr) (b : Body) : Bool := hdr h && bodyFits b && octets b && decide ((putBody b).length ≤ 60)

/-- A request as it was sent: a station's number and arguments that fit their fields. -/
def request (src : Nat) (r : ReqBody) : Bool := stationNumber src && argsFit r

/-- Encoder counts are signed 32-bit numbers (R68). -/
def counts (c : Counts) : Bool := intFits 4 c.x && intFits 4 c.y && intFits 4 c.z && intFits 4 c.a && intFits 4 c.b

/-- A unit that keeps frames; the Rack Port Unit keeps them by port (R110). -/
def source : CtlSource → Bool
  | .rack p => portNumber p
  | _ => true

end Sys2Proof.WellFormed

namespace Sys2Proof

open Sys2Proof.Machine

/-- The check of a command. -/
def wellFormed : Instr → Bool
  | .resetAssert => true
  | .resetRelease straps => decide (straps < 16)
  | .imageReadComplete _ => true
  | .quietMomentContend => true
  | .accessPrefixEnd others => others.all (fun o => stationNumber o.2)
  | .frameReceived _ => true
  | .vetoWindowVetoed => true
  | .frameMalformed => true
  | .form h fp mask enc => WellFormed.frame h (.form fp mask) && WellFormed.counts enc
  | .join h fp cause jn => WellFormed.frame h (.join fp cause jn)
  | .silence h k count => WellFormed.frame h (.silence k count)
  | .snapBegin h purpose jn fp entries => WellFormed.frame h (.snapBegin purpose jn fp entries)
  | .snapEntry h jn c => WellFormed.frame h (.snapEntry jn c)
  | .snapEnd h jn count fp enc => WellFormed.frame h (.snapEnd jn count fp) && WellFormed.counts enc
  | .zoneClaim h mask base => WellFormed.frame h (.zoneClaim mask base)
  | .zoneRelease h mask withdraw => WellFormed.frame h (.zoneRelease mask withdraw)
  | .forceRelease h mask => WellFormed.frame h (.forceRelease mask)
  | .portReserve h p purpose x => WellFormed.frame h (.portReserve p purpose x)
  | .portState h p present lock code => WellFormed.frame h (.portState p present lock code)
  | .portAbandon h p inside => WellFormed.frame h (.portAbandon p inside)
  | .probeDeposit h m p => WellFormed.frame h (.probeDeposit m p)
  | .probeTake h t p code => WellFormed.frame h (.probeTake t p code)
  | .mountReport h code => WellFormed.frame h (.mountReport code)
  | .custodySet h x c => WellFormed.frame h (.custodySet x c)
  | .qualPart h x i n tip => WellFormed.frame h (.qualPart x i n tip)
  | .qualCommit h x n temp => WellFormed.frame h (.qualCommit x n temp)
  | .probeMark h x => WellFormed.frame h (.probeMark x)
  | .thermal h es => WellFormed.frame h (.thermal es)
  | .point h p => WellFormed.frame h (.point p)
  | .request h tag r => WellFormed.frame h (.request tag r)
  | .answer h a straps => WellFormed.frame h (.answer a) && decide (straps < 16)
  | .event h e => WellFormed.frame h (.event e)
  | .move src _ target speed recovery enc => WellFormed.request src (.move target speed recovery) && WellFormed.counts enc
  | .touch src _ t enc => WellFormed.request src (.touch t) && WellFormed.counts enc
  | .home src _ channel enc => WellFormed.request src (.home channel) && WellFormed.counts enc
  | .index src _ a b enc => WellFormed.request src (.index a b) && WellFormed.counts enc
  | .halt src _ sel enc => WellFormed.request src (.halt sel) && WellFormed.counts enc
  | .clear src _ sel enc => WellFormed.request src (.clear sel) && WellFormed.counts enc
  | .change src _ probe enc => WellFormed.request src (.change probe) && WellFormed.counts enc
  | .qualify src _ probe i n tip => WellFormed.request src (.qualify probe i n tip)
  | .park src _ enc => WellFormed.request src .park && WellFormed.counts enc
  | .unpark src _ enc => WellFormed.request src .unpark && WellFormed.counts enc
  | .status src _ page => WellFormed.request src (.status page)
  | .restart src _ guardCode => WellFormed.request src (.restart guardCode)
  | .unknownRequest src _ code args =>
    WellFormed.request src (.unknown code args) && (code == 0 || decide (13 ≤ code)) && decide (args.length ≤ 57)
  | .controlFrameReoffer src => WellFormed.source src
  | .pointFrameOffer => true
  | .eventFrameOffer => true
  | .snapFrameOffer => true
  | .creditReserve enc => WellFormed.counts enc
  | .zonesHeldStart _ => true
  | .triggerAssertion enc => WellFormed.counts enc
  | .approachEnd enc => WellFormed.counts enc
  | .touchMiss enc => WellFormed.counts enc
  | .segmentComplete _ enc => WellFormed.counts enc
  | .stopEnd _ enc => WellFormed.counts enc
  | .homeMarkFound _ => true
  | .followingError _ enc => WellFormed.counts enc
  | .encoderQuadratureError _ enc => WellFormed.counts enc
  | .driveFaultCounted _ enc => WellFormed.counts enc
  | .driveFaultReleased _ => true
  | .presenceChange p _ _ => portNumber p
  | .lockDelayExpiry p => portNumber p
  | .couplingSensorChange _ _ => true
  | .couplingWaitExpiry => true
  | .unlockWaitExpiry => true
  | .confirmWaitExpiry => true
  | .lateTimerExpiry seq => natFits 2 seq
  | .thermalSample ohms => decide (ohms.length = 8)
  | .thermalPeriodExpiry => true
  | .thermalAgeReached => true
  | .formWaitExpiry => true
  | .joinRetryExpiry => true
  | .silenceLimitReached k => stationNumber k
  | .outHoldOffExpiry straps => decide (straps < 16)
  | .triggerRelease => true
  | .driveFaultAssertion _ => true

end Sys2Proof
end

