-- ==== Sys2Proof/Tests/Slice0.lean ====
section
/-! SUPPORT. Tests. First a small cell: station 1 the rack station, 3 the arm station under test, 6 another arm station, 13 the program
station. Then what one command of each row does to it, terms that the check of well-formedness refuses, a state and operands that meet
the hypotheses of each statement for the provers, and figures of the chapters' worked sequences. -/

namespace Sys2Proof.Tests

open Sys2Proof.Machine

set_option Elab.async false

/-! ### The cell -/

/-- A cube around a point, the half side given. -/
def cube (x : Int) (n : Nat) : Box := ⟨⟨x - n, -n, -n⟩, ⟨x + n, n, n⟩⟩

/-- Zones: 0 the RACK, 1 to 3 the HOME zones of stations 1, 3 and 6, 4 and 5 OPEN on the way to the rack, the rest empty. -/
def cellZones : List ZoneCfg :=
  [⟨.rack, 0, cube 25000000 5000000⟩, ⟨.home, 1, cube 50000000 2000000⟩, ⟨.home, 3, cube 0 2000000⟩, ⟨.home, 6, cube (-50000000) 2000000⟩,
    ⟨.openZone, 0, cube 7000000 2000000⟩, ⟨.openZone, 0, cube 14000000 2000000⟩] ++
    List.replicate 26 ⟨.openZone, 0, ⟨⟨1, 1, 1⟩, ⟨0, 0, 0⟩⟩⟩

def testCell : CellPart where
  roles := [.mc410, .unused, .mc410, .unused, .unused, .mc410] ++ List.replicate 6 .unused ++ [.program, .unused]
  reporting := [13, 0, 13, 0, 0, 13] ++ List.replicate 8 0
  rackStation := 1
  period := 250
  starve := 4
  plausible := 4000
  staleBand := 100
  gradient := 200
  touchLimit := 500
  bareClearance := 10000
  partAlpha := 1100
  partRef := ⟨0, 0, 0⟩
  rackA := 0
  rackB := 0
  rackSpeed := 100
  zones := cellZones
  ports := [⟨⟨22000000, 0, 0⟩, ⟨0, 0, 2000000⟩⟩, ⟨⟨24000000, 0, 0⟩, ⟨0, 0, 2000000⟩⟩]
  probes := [⟨true, 0x1111, 2, 20000⟩, ⟨true, 0x2222, 1, 20000⟩, ⟨true, 0x3333, 2, 20000⟩] ++ List.replicate 21 ⟨false, 0, 1, 0⟩

def linAxis : AxisCfg := ⟨1, 0, 1200, -60000000, 60000000, 5000, 250, 0, 50, 1000000⟩

def testOwn : StationPart where
  axes := [linAxis, linAxis, linAxis, ⟨1, 0, 0, 0, 14, 1, 2, 0, 1, 15⟩, ⟨1, 0, 0, -24, 24, 1, 0, 0, 1, 49⟩]
  filter := 4
  inputs := [some .scaleX, some .scaleY, some .scaleZ, some .head, some .part, none, none, none]
  activeTip := 1
  indexRate := 5

def testImage : Image := ⟨testCell, testOwn⟩

def testPrint : Print := 0xABCD1234

/-! ### The station under test -/

def arrived (st : RosterState) : RosterEntry := ⟨st, some .powerOn, true, false, none, 0, true⟩
def absent : RosterEntry := ⟨.unseen, none, false, false, none, 0, false⟩

def testTip : Tip := ⟨1, 0, 0, ⟨0, 0, -1000000⟩, 20000, false⟩
def lostProbe : ProbeRec := ⟨.lost, .usable, 0, 0, none, [], 0⟩
def emptyPort : PortEntry := ⟨.empty, .absent, .locked, none, false, 0⟩

/-- Probe 1 on station 3, probe 2 in port 1, probe 3 LOST; port 2, the home of probe 1, EMPTY. -/
def testTables : Replica where
  roster := [arrived .active, absent, arrived .active, absent, absent, arrived .active] ++ List.replicate 8 absent
  cell := ⟨true, testPrint, 0x4A⟩
  zones := formedZones testCell
  claims := []
  ports := [⟨.occupied 2, .present, .locked, some 0x2222, false, 0⟩, emptyPort] ++ List.replicate 10 ⟨.empty, .unreported, .locked, none, false, 0⟩
  probes := [⟨.station 3, .usable, 10, 0, some 500, [testTip], 0⟩, ⟨.port 1, .usable, 0, 0, none, [], 0⟩] ++ List.replicate 22 lostProbe
  board := [⟨3, 4, .head, 510, .valid, false, 90⟩, ⟨6, 5, .part, 100, .valid, false, 91⟩]
  partTemp := some 100
  gradient := false
  latches := List.replicate 14 ⟨none, 0⟩
  cellStamp := 0

def idleChan : Chan := ⟨.idle, [], none⟩

/-- Station 3 ACTIVE in its cell at line count 100, both channels idle, every axis homed. -/
def act : Station :=
  { Station.reset with
    now := 10000
    loader := { Loader.reset with mode := .active, held := false, number := 3, image := testImage, fingerprint := testPrint }
    line := { LinePort.reset with lineCount := some 100, heard := List.replicate 14 ⟨.abs 40, 9000⟩ }
    replica := { ReplicaUnit.reset with tables := testTables, joinNumber := 1, joinDone := true }
    motion := { MotionUnit.reset with homed := .all true, arm := idleChan, head := idleChan }
    thermal := { ThermalUnit.reset with sampleDue := some 10050, periodDue := some 10200 } }

/-- The same station while it joins: its tables empty, its JOIN number 1 done. -/
def joiningStn : Station :=
  { act with
    loader := { act.loader with mode := .joining }
    line := { LinePort.reset with heard := List.replicate 14 ⟨.none, 0⟩ }
    replica := { ReplicaUnit.reset with joinNumber := 1, joinDone := true }
    motion := { act.motion with arm := Chan.disabled, head := Chan.disabled } }

/-! ### Changes to it -/

def withLine (f : LinePort → LinePort) (s : Station) : Station := { s with line := f s.line }
def withTabs (f : Replica → Replica) (s : Station) : Station := setTabs s (f (tabs s))
def withReq (f : RequestUnit → RequestUnit) (s : Station) : Station := { s with request := f s.request }
def withChange (f : Changer → Changer) (s : Station) : Station := { s with change := f s.change }
def withMotion (f : MotionUnit → MotionUnit) (s : Station) : Station := { s with motion := f s.motion }

/-- A request stands delivered with its reservation. -/
def asked (src : Nat) (tag : Code) (b : ReqBody) (s : Station) : Station :=
  { s with request := { s.request with delivered := [⟨src, tag, b⟩] }, line := { s.line with reserved := 1 } }

/-- The channels hold the queues given, in the states given. -/
def running (c : ChanId) (st : ChanState) (q : List Segment) (s : Station) : Station := setChan s c ⟨st, q, none⟩

/-- The tables with a port, a probe, a roster or a zone entry replaced. -/
def port (p : Nat) (e : PortEntry) (r : Replica) : Replica := { r with ports := set1 r.ports p e }
def probe (x : Nat) (e : ProbeRec) (r : Replica) : Replica := { r with probes := set1 r.probes x e }
def seat (k : Nat) (e : RosterEntry) (r : Replica) : Replica := { r with roster := set1 r.roster k e }
def zone (z : Nat) (h : ZoneHold) (r : Replica) : Replica := { r with zones := r.zones.set z ⟨h, 50⟩ }

/-- Header of a frame of a station ACTIVE and homed. -/
def hd (k : Nat) : Hdr := ⟨k, 0, true, false, true, k == 1, false⟩
/-- Header of a frame of a station that joins. -/
def jn (k : Nat) : Hdr := ⟨k, 0, false, false, true, k == 1, true⟩
/-- Header of a program station's frame, to station `d`. -/
def pg (d : Nat) : Hdr := ⟨13, d, false, false, false, false, false⟩

def touch0 : TouchArgs := ⟨⟨1000000, 0, 0⟩, ⟨1, 0, 0⟩, 100, 200, 10, 50⟩

def seg (acc : Nat) (k : SegKind) : Segment where
  acc := acc
  kind := k
  origin := .request 0x77
  recovery := false
  speed := 100
  phase := .approach
  zoneSet := none
  axisTarget := none
  credit := false
  haltSeen := false
  quietStop := false
  marks := .all false
  checked := none

def auto (runOn : Bool) (k : SegKind) : Segment := { seg 9 k with origin := .sequencer runOn }

def move1 : Segment := seg 1 (.traverse ⟨1000000, 0, 0⟩)
def touch1 : Segment := seg 1 (.touch touch0)

def contending (o : Outgoing) : Flight := ⟨o, .contending, 9990, []⟩
def onLine (o : Outgoing) : Flight := ⟨o, .inWindow, 9990, []⟩

def answer0 : AnswerBody := ⟨0x77, 1, true, 0, 1, []⟩
def event0 : EventBody := ⟨0, 1, 0, 0, false, 0, 0, 0, 0, 0, 0⟩

/-- A test of the station that a command leaves. -/
def after (c : Instr) (s : Station) (p : Station → Bool) : Bool :=
  match exec c ⟨s, []⟩ with
  | .next t => p t.stn
  | _ => false

/-- A table of the right sizes. -/
theorem sizes (r : Replica) (h : r.roster.length = 14 ∧ r.zones.length = 32 ∧ r.ports.length = 12 ∧ r.probes.length = 24 ∧
    r.latches.length = 14) : TablesSized r := ⟨h.1, h.2.1, h.2.2.1, h.2.2.2.1, h.2.2.2.2⟩

/-! ### The configuration image (11.5, R170, R171) -/

theorem test_image_sizes : (putImage testImage).length = 1062 + 24 * 2 + 30 * 5 := by decide +kernel

theorem test_image_reads_back : readImage (memory (putImage testImage)) = some testImage := by decide +kernel

theorem test_image_in_range : rangeGood testImage 3 = true := by decide +kernel

/-- R170: the image check is the check of R176 over every byte before it. -/
theorem test_check_of_digits : check32 [0x31, 0x32, 0x33, 0x34, 0x35, 0x36, 0x37, 0x38, 0x39] = 0xE3069283 := by decide +kernel

set_option maxRecDepth 1000000 in
/-- The judgement of the whole memory: the image, with the check of its cell part as the fingerprint. -/
theorem test_image_good : judgeImage (putImage testImage) 3 = .good testImage (check32 (cellBytes (memory (putImage testImage)))) := by
  decide +kernel

/-! ### Reset and loading -/

theorem test_reset_assert : after .resetAssert act (fun t => t.loader.held && t.line == LinePort.reset && t.now == 10000) = true := by
  decide +kernel

theorem test_reset_release : after (.resetRelease 3) Station.reset (fun t => !t.loader.held && t.loader.number == 3 &&
    t.loader.mode == .loading && t.loader.cause == .powerOn) = true := by decide +kernel

theorem test_reset_release_strap : after (.resetRelease 15) Station.reset (fun t => t.loader.mode == .shut &&
    t.loader.shutReason == some .strap) = true := by decide +kernel

/-- The station loading with strap number 3. -/
def loadingStn : Station := { Station.reset with loader := { Loader.reset with held := false, number := 3 } }

set_option maxRecDepth 1000000 in
theorem test_image_joins : after (.imageReadComplete (putImage testImage)) loadingStn (fun t => t.loader.mode == .joining &&
    t.loader.image == testImage && t.line.control.length == 1 && t.replica.joinNumber == 1) = true := by decide +kernel

theorem test_image_missing : after (.imageReadComplete []) loadingStn (fun t => t.loader.mode == .shut &&
    t.loader.shutReason == some .image) = true := by decide +kernel

/-- An OUT station whose hold-off runs out at 15 s, its straps sampled as 5. -/
def outStn : Station := { act with
  loader := { act.loader with mode := .out, holdOff := some 15000, outRecord := [10000] }, pins := { act.pins with straps := 5 } }

theorem test_out_hold_off : after (.outHoldOffExpiry 3) outStn (fun t => t.loader.mode == .loading && t.loader.number == 3 && t.loader.cause == .self &&
    t.now == 15000 && t.loader.outRecord == [10000] && t.motion.homed == .all true) = true := by decide +kernel

/-- R169: the straps as they stand at the restart count. -/
theorem test_out_hold_off_strap : after (.outHoldOffExpiry 15) outStn (fun t => t.loader.mode == .shut && t.loader.shutReason == some .strap) =
    true := by decide +kernel

/-! ### The line -/

/-- A CONTROL, a THERMAL and a REPORT frame wait. -/
def queued : Station := withLine (fun l => { l with
  control := [⟨0, .zoneClaim 0x10 .routine⟩], thermal := some ⟨⟨0, .thermal []⟩, 9900⟩, report := [⟨13, .answer answer0⟩] }) act

theorem test_contend_control : after .quietMomentContend queued (fun t => t.line.control.isEmpty &&
    t.line.flight == some ⟨⟨0, .zoneClaim 0x10 .routine⟩, .contending, 10000, []⟩) = true := by decide +kernel

theorem test_contend_aged_thermal : after .quietMomentContend { queued with now := 10150 } (fun t => t.line.thermal.isNone &&
    t.line.flight == some ⟨⟨0, .thermal []⟩, .contending, 9900, []⟩) = true := by decide +kernel

def contender : Station := withLine (fun l => { l with flight := some (contending ⟨0, .zoneClaim 0x10 .routine⟩) }) act

/-- R2: a CONTROL frame of a lower number goes ahead; a THERMAL does not. -/
theorem test_access_lost : after (.accessPrefixEnd [(.control, 2)]) contender (fun t => t.line.flight.isNone &&
    t.line.control == [⟨0, .zoneClaim 0x10 .routine⟩]) = true := by decide +kernel

theorem test_access_won : after (.accessPrefixEnd [(.thermal, 1), (.control, 6)]) contender (fun t =>
    t.line.flight == some ⟨⟨0, .zoneClaim 0x10 .routine⟩, .sending, 9990, putFrame ⟨hd 3, .zoneClaim 0x10 .routine⟩⟩) = true := by
  decide +kernel

/-- The bytes of a STATUS request of station 13 to station 3. -/
def statusFrame : Frame := ⟨pg 3, .request 0x77 (.status 0)⟩

theorem test_received_request : after (.frameReceived (putFrame statusFrame)) act (fun t => t.line.reserved == 1 &&
    t.line.window == some ⟨some statusFrame, none, true⟩) = true := by decide +kernel

theorem test_received_broken : after (.frameReceived (0xFF :: putFrame statusFrame)) act (fun t =>
    t.line.window == some ⟨none, some .check, false⟩) = true := by decide +kernel

/-- The bytes with their check after them. -/
def checked (l : List Byte) : List Byte := l ++ putPrint (check32 l)

def cellEntry : Frame := ⟨{ hd 1 with dest := 3 }, .snapEntry 1 (.cell testTables.cell)⟩
def eventFrame : Frame := ⟨{ hd 3 with dest := 13 }, .event event0⟩

/-- 11.2, R177: an entry of the cell record has index 0; R178: a flag is 0 or 1. -/
theorem test_malformed_bytes : receive testCell (putFrame cellEntry) = .good cellEntry ∧
    receive testCell (checked (((putFrame cellEntry).dropLast.dropLast.dropLast.dropLast).set 6 1)) = .malformed ∧
    receive testCell (putFrame eventFrame) = .good eventFrame ∧
    receive testCell (checked (((putFrame eventFrame).dropLast.dropLast.dropLast.dropLast).set 9 2)) = .malformed := by decide +kernel

theorem test_vetoed : after .vetoWindowVetoed (withLine (fun l => { l with flight := some (onLine ⟨0, .probeMark 1⟩), retry := 6 }) act)
    (fun t => t.line.retry == 7 && t.line.flight.isNone && t.line.control == [⟨0, .probeMark 1⟩] && t.line.lineCount == some 100) = true := by
  decide +kernel

theorem test_vetoed_eighth : after .vetoWindowVetoed
    (withLine (fun l => { l with flight := some (onLine ⟨0, .probeMark 1⟩), retry := 7 }) act)
    (fun t => t.loader.mode == .out && t.loader.outCause == some .lineFault && t.loader.holdOff == some 15000) = true := by
  decide +kernel

theorem test_malformed : after .frameMalformed act (fun t => t.line.lineCount == some 101 && t.line.heard == act.line.heard) = true := by
  decide +kernel

theorem test_thermal_age : after .thermalAgeReached queued (fun t => t.now == 10150) = true := by decide +kernel

/-! ### Joining (chapter 2) -/

theorem test_form : after (.form (jn 6) testPrint 0x4A (.all 7)) { joiningStn with now := 500 } (fun t => t.loader.mode == .active &&
    t.motion.enc == .all 7 &&
    t.line.lineCount == some 0 && (tabs t).cell.formed && zoneEntry (tabs t) 2 == ⟨.held 3, 0⟩ && rosterState (tabs t) 6 == .active) =
      true := by decide +kernel

theorem test_form_mismatch : after (.form (jn 6) 0 0x4A) joiningStn (fun t => t.loader.mode == .shut &&
    t.loader.shutReason == some .mismatch) = true := by decide +kernel

theorem test_join_rejoin : after (.join (jn 6) testPrint .powerOn 4)
    (withTabs (fun r => zone 4 (.orphaned 6) (seat 6 (arrived .silent) r)) act)
    (fun t => rosterState (tabs t) 6 == .joining && zoneEntry (tabs t) 4 == ⟨.held 6, 101⟩ &&
      (rosterEntry (tabs t) 1).serving == some (6, 4)) = true := by decide +kernel

theorem test_join_refused : after (.join (jn 6) 0 .powerOn 4) act (fun t =>
    rosterState (tabs t) 6 == .refused) = true := by decide +kernel

theorem test_silence : after (.silence (hd 1) 6 40) (withTabs (zone 4 (.held 6)) act) (fun t => rosterState (tabs t) 6 == .silent &&
    zoneEntry (tabs t) 4 == ⟨.orphaned 6, 101⟩ && zoneEntry (tabs t) 3 == zoneEntry (tabs act) 3) = true := by decide +kernel

theorem test_silence_stale : after (.silence (hd 1) 6 39) act (fun t => rosterState (tabs t) 6 == .active) = true := by decide +kernel

theorem test_snap_begin : after (.snapBegin { hd 1 with dest := 3 } .serve 1 testPrint 12) joiningStn (fun t =>
    t.replica.service == some ⟨1, 1, 12, 0⟩) = true := by decide +kernel

/-- A joiner that station 1 serves with two entries, one received. -/
def served : Station := { joiningStn with
  replica := { joiningStn.replica with
    service := some ⟨1, 1, 2, 1⟩, snapBeginSeen := true, pendingRep := some ⟨testTables, List.replicate 14 none⟩ } }

theorem test_snap_entry : after (.snapEntry { hd 1 with dest := 3 } 1 (.zone 4 ⟨.held 6, 70⟩)) served (fun t =>
    t.replica.service == some ⟨1, 1, 2, 2⟩ && t.replica.pendingRep.any (fun p => zoneEntry p.tables 4 == ⟨.held 6, 70⟩)) = true := by
  decide +kernel

theorem test_snap_end : after (.snapEnd { hd 1 with dest := 3 } 1 200 testPrint)
    { served with replica := { served.replica with service := some ⟨1, 1, 2, 2⟩ } }
    (fun t => t.loader.mode == .active && t.line.lineCount == some 201 && (tabs t).cell.formed) = true := by decide +kernel

theorem test_snap_end_short : after (.snapEnd { hd 1 with dest := 3 } 1 200 testPrint) served (fun t =>
    t.loader.mode == .joining && t.replica.service.isNone) = true := by decide +kernel

/-! ### Zones (chapter 3) -/

theorem test_zone_claim : after (.zoneClaim (hd 6) 0x10 .routine) act (fun t => zoneEntry (tabs t) 4 == ⟨.held 6, 101⟩ &&
    (tabs t).claims.isEmpty) = true := by decide +kernel

theorem test_zone_claim_waits : after (.zoneClaim (hd 6) 0x30 .change) (withTabs (zone 4 (.held 3)) act) (fun t =>
    (tabs t).claims == [⟨6, 0x30, .change, false, 0, 101⟩] && zoneEntry (tabs t) 5 == zoneEntry (tabs act) 5) = true := by decide +kernel

theorem test_zone_release : after (.zoneRelease (hd 6) 0x18 false) (withTabs (fun r =>
    { zone 4 (.held 6) r with claims := [⟨1, 0x10, .routine, false, 0, 60⟩] }) act)
    (fun t => zoneEntry (tabs t) 4 == ⟨.held 1, 101⟩ && (zoneEntry (tabs t) 3).hold == .held 6 && (tabs t).claims.isEmpty) = true := by
  decide +kernel

theorem test_force_release : after (.forceRelease (pg 0) 0x30) (withTabs (fun r => zone 4 (.orphaned 6) (zone 5 (.held 6) r)) act)
    (fun t => zoneEntry (tabs t) 4 == ⟨.free, 101⟩ && (zoneEntry (tabs t) 5).hold == .held 6) = true := by decide +kernel

/-! ### Ports and probes (chapters 6 and 7) -/

/-- Port 1 RESERVED by station 6 for the pickup of probe 2; port 2 RESERVED by station 3 for the deposit of probe 1. -/
def reserved6 : Station := withTabs (fun r => port 2 { emptyPort with state := .reserved 3 .deposit 1 }
  (port 1 ⟨.reserved 6 .pickup 2, .present, .unlocked, some 0x2222, false, 0⟩ r)) act

theorem test_port_reserve : after (.portReserve (hd 6) 1 .pickup 2) act (fun t =>
    (portEntry (tabs t) 1).state == .reserved 6 .pickup 2) = true := by decide +kernel

theorem test_port_state : after (.portState (hd 1) 2 true .locked (some 0x3333)) act (fun t =>
    portEntry (tabs t) 2 == ⟨.occupied 3, .present, .locked, some 0x3333, false, 101⟩ && (probeRec (tabs t) 3).custody == .port 2) = true := by
  decide +kernel

theorem test_port_abandon : after (.portAbandon (hd 6) 1 false) reserved6 (fun t => (portEntry (tabs t) 1).state == .occupied 2) = true := by
  decide +kernel

theorem test_probe_deposit : after (.probeDeposit (hd 3) 1 2) reserved6 (fun t => (probeRec (tabs t) 1).custody == .transfer 2) = true := by
  decide +kernel

/-- R108, R115: a second port reserved for the deposit of the same probe is EMPTY again. -/
theorem test_deposit_vacates : after (.probeDeposit (hd 3) 1 2)
    (withTabs (port 12 { emptyPort with state := .reserved 3 .deposit 1 }) reserved6) (fun t =>
      (probeRec (tabs t) 1).custody == .transfer 2 && (portEntry (tabs t) 2).state == .reserved 3 .deposit 1 &&
      (portEntry (tabs t) 12).state == .empty) = true := by decide +kernel

theorem test_probe_take : after (.probeTake (hd 6) 2 1 (some 0x2222)) reserved6 (fun t => (probeRec (tabs t) 2).custody == .station 6 &&
    (portEntry (tabs t) 1).takeSeen) = true := by decide +kernel

theorem test_probe_take_wrong : after (.probeTake (hd 6) 2 1 (some 0x3333)) reserved6 (fun t =>
    (probeRec (tabs t) 3).custody == .station 6 && (probeRec (tabs t) 3).cond == .suspect && (probeRec (tabs t) 2).custody == .lost) = true := by
  decide +kernel

theorem test_mount_report : after (.mountReport (hd 3) (some 0x3333)) act (fun t => (probeRec (tabs t) 3).custody == .station 3 &&
    (probeRec (tabs t) 1).custody == .lost) = true := by decide +kernel

theorem test_custody_set : after (.custodySet (pg 0) 3 (.port 2)) act (fun t => (probeRec (tabs t) 3).custody == .port 2 &&
    (portEntry (tabs t) 2).state == .occupied 3) = true := by decide +kernel

theorem test_qual_part : after (.qualPart (hd 3) 1 1 2 testTip) act (fun t => latchOf (tabs t) 3 ==
    ⟨some ⟨1, 2, [some testTip, none, none, none, none, none]⟩, 101⟩) = true := by decide +kernel

/-- The latch of station 3 holds the one part of probe 1. -/
def staged : Station := withTabs (fun r => { r with
  latches := set1 r.latches 3 ⟨some ⟨1, 1, [some { testTip with radius := 30000 }, none, none, none, none, none]⟩, 60⟩ }) act

theorem test_qual_commit : after (.qualCommit (hd 3) 1 1 700) staged (fun t => (latchOf (tabs t) 3).data.isNone &&
    probeRec (tabs t) 1 == ⟨.station 3, .usable, 0, 0, some 700, [{ testTip with radius := 30000 }], 101⟩) = true := by decide +kernel

theorem test_probe_mark : after (.probeMark (hd 3) 1) act (fun t => (probeRec (tabs t) 1).cond == .suspect) = true := by decide +kernel

/-! ### The board, points, requests and their answers -/

theorem test_thermal : after (.thermal (hd 6) [⟨5, .part, 301, .valid⟩]) act (fun t =>
    (tabs t).board == [⟨3, 4, .head, 510, .valid, false, 90⟩, ⟨6, 5, .part, 301, .valid, false, 101⟩] && (tabs t).partTemp == some 301) =
      true := by decide +kernel

/-- R136: the third reading in a row outside the stale band turns the entries STALE. -/
theorem test_thermal_stale : after (.thermal (hd 3) [⟨4, .head, 601, .valid⟩])
    (withTabs (fun r => probe 1 { probeRec r 1 with staleRun := 2 } r) act)
    (fun t => (probeRec (tabs t) 1).tips == [{ testTip with stale := true }]) = true := by decide +kernel

def pointBody0 : PointBody := ⟨5, 0x77, 1, 1, 0, 0, 90, ⟨1, 2, 3⟩, ⟨1, 0, 0⟩, 20000, none, none, none, none, ⟨true, true, false, false, false, false⟩⟩

theorem test_point : after (.point { hd 3 with dest := 13 } pointBody0) act (fun t => (probeRec (tabs t) 1).touches == 11) = true := by decide +kernel

/-- The request heard, its reservation made. -/
def heardRequest : Station := withLine (fun l => { l with window := some ⟨some statusFrame, none, true⟩, reserved := 1 }) act

theorem test_request : after (.request (pg 3) 0x77 (.status 0)) heardRequest (fun t =>
    t.request.delivered == [⟨13, 0x77, .status 0⟩] && t.line.reserved == 1 && t.line.lineCount == some 101) = true := by decide +kernel

theorem test_answer : after (.answer { hd 3 with dest := 13 } answer0)
    (withLine (fun l => { l with flight := some (onLine ⟨13, .answer answer0⟩), retry := 2 }) act)
    (fun t => t.line.flight.isNone && t.line.retry == 0 && t.line.lineCount == some 101) = true := by decide +kernel

theorem test_answer_restart : after (.answer { hd 3 with dest := 13 } ⟨0x77, 12, true, 0, 0, []⟩ 3)
    (withReq (fun r => { r with restartPending := true })
      (withLine (fun l => { l with flight := some (onLine ⟨13, .answer ⟨0x77, 12, true, 0, 0, []⟩⟩) }) act))
    (fun t => t.loader.mode == .loading && t.loader.number == 3 && t.loader.cause == .requested && t.motion.homed == .all true) = true := by decide +kernel

theorem test_event : after (.event { hd 3 with dest := 13 } event0) (withLine (fun l => { l with flight := some (onLine ⟨13, .event event0⟩) }) act)
    (fun t => t.line.flight.isNone && t.line.lineCount == some 101) = true := by decide +kernel

/-! ### Requests (chapter 9) -/

/-- The request at hand, asked of the station and run; a test of what it leaves. -/
def ask (c : Instr) (b : ReqBody) (s : Station) (p : Station → Bool) : Bool := after c (asked 13 0x77 b s) p

/-- The last REPORT frame is the ANSWER to request code `k`: accepted with a number, or refused with a reason. -/
def accepted (k acc : Nat) (t : Station) : Bool := t.line.report.getLast? == some ⟨13, .answer ⟨0x77, k, true, 0, acc, []⟩⟩ && t.line.reserved == 0
def refusedWith (k r : Nat) (t : Station) : Bool := t.line.report.getLast? == some ⟨13, .answer ⟨0x77, k, false, r, 0, []⟩⟩ && t.line.reserved == 0

def home1 : Vec3 := ⟨1000000, 0, 0⟩
def far1 : Vec3 := ⟨6000000, 0, 0⟩

/-- R76: the axis positions that bring the tip, 0.1 m below the arm, to the target. -/
theorem test_move : ask (.move 13 0x77 home1 100 0) (.move home1 100 0) act (fun t => accepted 1 1 t && t.motion.arm.state == .running &&
    t.motion.arm.queue.map (·.axisTarget) == [some ⟨1000000, 0, 1000000, 0, 0⟩]) = true := by decide +kernel

theorem test_move_waits : ask (.move 13 0x77 far1 100 1) (.move far1 100 1) act (fun t => accepted 1 1 t && t.motion.arm.state == .waitZone &&
    t.line.control == [⟨0, .zoneClaim 0x14 .recovery⟩] && t.motion.outstanding == .taken) = true := by decide +kernel

theorem test_touch : ask (.touch 13 0x77 touch0) (.touch touch0) act (fun t => accepted 2 1 t && t.motion.arm.state == .running &&
    t.motion.arm.queue.map (·.credit) == [true] && t.touch.points.head? == some .reserved) = true := by decide +kernel

theorem test_home : ask (.home 13 0x77 0) (.home 0) act (fun t => accepted 3 1 t && t.motion.arm.state == .running) = true := by decide +kernel

theorem test_index : ask (.index 13 0x77 15 0) (.index 15 0) act (refusedWith 4 5) = true ∧
    ask (.index 13 0x77 14 (-24)) (.index 14 (-24)) act (fun t => accepted 4 1 t && t.motion.head.state == .running) = true := by decide +kernel

theorem test_halt : ask (.halt 13 0x77 1) (.halt 1) (running .arm .running [move1, move1] act) (fun t => accepted 5 0 t &&
    t.motion.arm.state == .stopping && t.motion.arm.queue == [{ move1 with haltSeen := true }]) = true := by decide +kernel

theorem test_clear : ask (.clear 13 0x77 3) (.clear 3) (running .arm .halted [] act) (fun t => accepted 6 0 t && t.motion.arm == idleChan) = true := by
  decide +kernel

theorem test_change : ask (.change 13 0x77 2) (.change 2) act (fun t => accepted 7 0 t && t.change.state == .claiming && t.change.pt == 1 &&
    t.change.deposit == some (1, 2) && t.motion.head.state == .waitZone && t.change.route == 0x35) = true := by decide +kernel

theorem test_change_refused : ask (.change 13 0x77 3) (.change 3) act (refusedWith 7 13) = true := by decide +kernel

theorem test_qualify : ask (.qualify 13 0x77 1 1 1 testTip) (.qualify 1 1 1 testTip) act (fun t => accepted 8 0 t &&
    t.line.control == [⟨0, .qualPart 1 1 1 testTip⟩, ⟨0, .qualCommit 1 1 510⟩]) = true := by decide +kernel

theorem test_park : ask (.park 13 0x77) .park (withTabs (zone 4 (.held 3)) act) (fun t => t.loader.mode == .parked &&
    t.line.control == [⟨0, .zoneRelease 0x10 false⟩] && t.motion.arm.state == .disabled && !driveEnable t) = true := by decide +kernel

def parkedStn : Station := { act with
  loader := { act.loader with mode := .parked }, motion := { act.motion with arm := Chan.disabled, head := Chan.disabled } }

theorem test_unpark : ask (.unpark 13 0x77) .unpark parkedStn (fun t => t.loader.mode == .active && t.motion.arm == idleChan) = true := by
  decide +kernel

theorem test_status : ask (.status 13 0x77 0) (.status 0) act (fun t => t.line.report.map (·.body) ==
    [.answer ⟨0x77, 11, true, 0, 0, pageStation (asked 13 0x77 (.status 0) act) 100⟩]) = true := by decide +kernel

theorem test_restart : ask (.restart 13 0x77 0x6C39) (.restart 0x6C39) act (fun t => accepted 12 0 t && t.request.restartPending) = true ∧
    ask (.restart 13 0x77 0x6C38) (.restart 0x6C38) act (refusedWith 12 15) = true := by decide +kernel

theorem test_unknown_request : ask (.unknownRequest 13 0x77 13 []) (.unknown 13 []) act (refusedWith 13 16) = true := by decide +kernel

/-! ### Offers made again -/

theorem test_reoffer : after (.controlFrameReoffer .mark) (withLine (fun l => { l with waiting := [⟨.mark, ⟨0, .probeMark 1⟩⟩] }) act)
    (fun t => t.line.waiting.isEmpty && t.line.control == [⟨0, .probeMark 1⟩]) = true := by decide +kernel

def data0 : PointData := ⟨0, 0x77, 95, ⟨10, 20, 30, 0, 0⟩, 1, 1, 0, 0, testTip, ⟨1, 0, 0⟩, false, 10750⟩
def corr0 : Correction := ⟨⟨10, 20, 30⟩, none, none, none, none, ⟨true, true, false, false, false, false⟩⟩

def readyStn : Station := { act with touch := { act.touch with points := .ready data0 corr0 :: List.replicate 23 .free, nextSeq := 1 } }

theorem test_point_offer : after .pointFrameOffer readyStn (fun t => t.line.report == [⟨13, .point (pointBody data0 corr0)⟩] &&
    t.touch.points.head? == some (.queued data0 corr0)) = true := by decide +kernel

theorem test_event_offer : after .eventFrameOffer (withReq (fun r => { r with events := [(4, .channelIdle .arm)] }) act) (fun t =>
    t.request.events.isEmpty && t.line.report == [⟨13, .event (eventBody 4 (.channelIdle .arm))⟩]) = true := by decide +kernel

/-- A refusal notice for station 6 is owed. -/
def owing : Station := { act with replica := { act.replica with notices := [(6, 4)] } }

theorem test_snap_offer : after .snapFrameOffer owing (fun t => t.replica.notices.isEmpty &&
    t.line.report == [⟨6, .snapBegin .refuse 4 testPrint 0⟩]) = true := by decide +kernel

/-! ### Motion (chapters 4 and 8) -/

theorem test_credit : after .creditReserve (running .arm .waitCredit [touch1] act) (fun t => t.motion.arm.state == .running &&
    t.touch.points.head? == some .reserved) = true := by decide +kernel

theorem test_zones_held : after (.zonesHeldStart .arm) (running .arm .waitZone [{ move1 with zoneSet := some 4 }] act)
    (fun t => t.motion.arm.state == .running) = true := by decide +kernel

/-- A TOUCH in its PROBING phase, its entry reserved. -/
def probing1 : Segment := { touch1 with phase := .probing, credit := true, checked := some (1, testTip), zoneSet := some 4 }
def probingStn : Station := { running .arm .running [probing1] act with touch := { act.touch with points := .reserved :: List.replicate 23 .free } }

def atStop : Counts := ⟨990000, 5, 1000000, 0, 0⟩

theorem test_trigger : after (.triggerAssertion atStop) probingStn (fun t => t.pins.trigger && t.touch.latch == some atStop &&
    t.touch.nextSeq == 1 && t.touch.points.head? == some (.pending ⟨0, 0x77, 100, atStop, 1, 1, 0, 0, testTip, ⟨1, 0, 0⟩, false, 10750⟩) &&
    t.motion.arm.queue.map (·.phase) == [.retract true]) = true := by decide +kernel

/-- R85: an assertion while a MOVE runs is a collision. -/
theorem test_trigger_collision : after (.triggerAssertion atStop) (running .arm .running [move1] act) (fun t =>
    t.motion.arm == ⟨.stalled, [], some .collision⟩ && t.line.control == [⟨0, .probeMark 1⟩]) = true := by decide +kernel

theorem test_trigger_release : after .triggerRelease { act with pins := { act.pins with trigger := true } } (fun t => t == act) = true := by
  decide +kernel

def approaching : Station := running .arm .running [{ touch1 with credit := true, zoneSet := some 4 }] act

theorem test_approach_end : after (.approachEnd atStop) approaching (fun t => t.motion.arm.queue.map (·.phase) == [.probing] &&
    t.motion.arm.queue.map (·.checked) == [some (1, testTip)]) = true := by decide +kernel

theorem test_approach_unusable : after (.approachEnd atStop) (withTabs (fun r => probe 1 { probeRec r 1 with cond := .suspect } r) approaching)
    (fun t => t.motion.arm.state == .halted && t.line.report.map (·.body) ==
      [.event (eventBody 0 (.channelHalted .arm .probeUnusable (some 0x77)))]) = true := by decide +kernel

theorem test_touch_miss : after (.touchMiss atStop) probingStn (fun t => t.touch.points.head? == some .free &&
    t.motion.arm.queue.map (·.phase) == [.retract false] && t.line.report.map (·.body) == [.event (eventBody 0 (.touchMissed 0x77))]) = true := by
  decide +kernel

theorem test_segment_complete : after (.segmentComplete .arm atStop) (running .arm .running [{ move1 with zoneSet := some 4 }] act) (fun t =>
    t.motion.arm == idleChan && t.motion.enc == atStop && t.line.report.map (·.body) == [.event (eventBody 0 (.channelIdle .arm))]) = true := by
  decide +kernel

theorem test_stop_end : after (.stopEnd .arm atStop) (running .arm .stopping [{ move1 with zoneSet := some 4, haltSeen := true }] act)
    (fun t => t.motion.arm == ⟨.halted, [], none⟩ && t.line.report.map (·.body) ==
      [.event (eventBody 0 (.channelHalted .arm .requested (some 0x77)))]) = true := by decide +kernel

def homingStn : Station := running .arm .running [{ seg 1 .home with zoneSet := some 4 }] act

theorem test_home_mark : after (.homeMarkFound .y) homingStn (fun t => t.motion.enc == ⟨0, 250, 0, 0, 0⟩ &&
    t.motion.arm.queue.map (fun g => g.marks.y) == [true]) = true := by decide +kernel

theorem test_following_error : after (.followingError .b (.all 0)) (running .head .running [seg 1 (.index 3 0)] act) (fun t =>
    t.motion.head == ⟨.stalled, [], some .following⟩ && t.motion.arm == idleChan) = true := by decide +kernel

theorem test_quadrature_error : after (.encoderQuadratureError .x (.all 0)) parkedStn (fun t => t.motion.homed == ⟨false, true, true, true, true⟩ &&
    t.motion.arm == Chan.disabled) = true := by decide +kernel

theorem test_drive_fault : after (.driveFaultAssertion .x) act (fun t => t.motion.filter.x == some 10000 && t.pins.driveFault.x &&
    t.motion.arm == idleChan) = true := by decide +kernel

/-- The line of axis X has stood asserted since 9999 ms; the filter time is 4 ms. -/
def faultStn : Station := { act with
  pins := { act.pins with driveFault := ⟨true, false, false, false, false⟩ },
  motion := { act.motion with filter := ⟨some 9999, none, none, none, none⟩ } }

theorem test_drive_fault_counted : after (.driveFaultCounted .x (.all 0)) faultStn (fun t => t.motion.fault.x && t.now == 10003 &&
    t.motion.arm == ⟨.stalled, [], some .driveFault⟩) = true := by decide +kernel

theorem test_drive_fault_released : after (.driveFaultReleased .x) (withMotion (fun m => { m with fault := .all true }) faultStn)
    (fun t => !t.motion.fault.x && t.motion.fault.y && t.motion.filter.x.isNone && !t.pins.driveFault.x) = true := by decide +kernel

/-! ### The rack and the coupling (chapter 6) -/

/-- The rack station: the same cell seen by station 1, which has no axes. -/
def rackStn : Station := { act with
  loader := { act.loader with number := 1, image := ⟨testCell, { testOwn with axes := [], inputs := List.replicate 8 none }⟩ }
  motion := { act.motion with arm := Chan.disabled, head := Chan.disabled } }

theorem test_presence : after (.presenceChange 2 true (some 0x3333)) rackStn (fun t => rackPort t 2 == ⟨.locked, some 10200⟩ &&
    t.line.control.isEmpty) = true := by decide +kernel

/-- The presence of port 2 has stood for the lock delay. -/
def lockingStn : Station := { rackStn with
  pins := { act.pins with presence := set1 act.pins.presence 2 true, portIdent := set1 act.pins.portIdent 2 (some 0x3333) }
  rack := set1 rackStn.rack 2 ⟨.unlocked, some 10200⟩ }

theorem test_lock_delay : after (.lockDelayExpiry 2) lockingStn (fun t => t.now == 10200 && rackPort t 2 == ⟨.locked, none⟩ &&
    t.line.control == [⟨0, .portState 2 true .locked (some 0x3333)⟩]) = true := by decide +kernel

/-- The change of probe 1, at home in port 2, for probe 2 in port 1, in a state and leg. -/
def changing (st : ChangeState) (leg : Leg) : Station := withChange (fun c => { c with
  state := st, tag := 0x77, t := 2, pt := 1, deposit := some (1, 2), route := 0x35, leg := leg, output := true })
    (withTabs (fun r => zone 0 (.held 3) (zone 4 (.held 3) (zone 5 (.held 3) r))) act)

def inserting : Station := withChange (fun c => { c with couplingWait := some 10500 })
  (withTabs (port 2 { emptyPort with state := .reserved 3 .deposit 1 }) (changing .insert .coupling))

theorem test_coupling_sensor : after (.couplingSensorChange false none) inserting (fun t => t.change.state == .confirmDeposit &&
    t.line.control == [⟨0, .probeDeposit 1 2⟩] && t.motion.arm.state == .running) = true := by decide +kernel

theorem test_coupling_wait : after .couplingWaitExpiry inserting (fun t => t.now == 10500 && t.change.state == .idle &&
    t.change.lastFailure == some .coupling && t.line.control.head? == some ⟨0, .portAbandon 2 true⟩) = true := by decide +kernel

def unlocking : Station := withChange (fun c => { c with unlockWait := some 11000 })
  (withTabs (port 1 ⟨.reserved 3 .pickup 2, .present, .locked, some 0x2222, false, 0⟩) (changing .unlockPickup .none))

theorem test_unlock_wait : after .unlockWaitExpiry unlocking (fun t => t.now == 11000 && t.change.lastFailure == some .rackTimeout &&
    t.line.control.head? == some ⟨0, .portAbandon 1 true⟩) = true := by decide +kernel

def confirming : Station := withChange (fun c => { c with confirmWait := some 11000 })
  (withTabs (port 2 { emptyPort with state := .reserved 3 .deposit 1, lock := .unlocked }) (changing .confirmDeposit .done))

theorem test_confirm_wait : after .confirmWaitExpiry confirming (fun t => t.change.lastFailure == some .depositUnconfirmed &&
    t.change.state == .idle) = true := by decide +kernel

/-! ### Timers -/

def pendingStn : Station := { act with touch := { act.touch with points := .pending data0 :: List.replicate 23 .free, nextSeq := 1 } }

theorem test_late_timer : after (.lateTimerExpiry 0) pendingStn (fun t => t.now == 10750 && t.line.report.length == 1 &&
    t.touch.points.all (fun e => match e with
      | .free => true
      | .queued d c => d == data0 && c.flags.thermalLate
      | _ => false)) = true := by decide +kernel

/-- R92: at 20 degrees the sensor stands at 1077.935 ohms. -/
theorem test_thermal_sample : after (.thermalSample (List.replicate 8 1077935000)) act (fun t => t.now == 10050 &&
    t.thermal.sampleDue == some 10150 && t.thermal.inputs.map (·.window.length) == [1, 1, 1, 1, 1, 0, 0, 0]) = true := by decide +kernel

theorem test_thermal_period : after .thermalPeriodExpiry act (fun t => t.now == 10200 && t.thermal.periodDue == some 10450 &&
    t.line.thermal.isSome) = true := by decide +kernel

/-- A joiner whose form wait and join retry run out at 11 s; station 6 joins too. -/
def waitingStn : Station := withTabs (fun r => seat 3 (arrived .joining) (seat 6 (arrived .joining) r))
  { joiningStn with replica := { joiningStn.replica with formWait := some 11000, joinRetry := some 11500, joinMoment := some 10500 } }

theorem test_form_wait : after .formWaitExpiry waitingStn (fun t => t.now == 11000 && t.line.control == [⟨0, .form testPrint 0x48⟩]) = true := by
  decide +kernel

theorem test_join_retry : after .joinRetryExpiry { waitingStn with replica := { waitingStn.replica with cellExists := true } } (fun t =>
    t.now == 11500 && t.replica.joinNumber == 2 && t.line.control == [⟨0, .join testPrint .powerOn 2⟩]) = true := by decide +kernel

theorem test_silence_limit : after (.silenceLimitReached 6) act (fun t => t.now == 10000 && t.line.control == [⟨0, .silence 6 40⟩]) = true := by
  decide +kernel

/-! ### The step -/

theorem test_step_takes_the_front : (match step ⟨act, [.triggerRelease, .frameMalformed]⟩ with
    | .next t => t.pending == [.frameMalformed] && t.stn.line.lineCount == some 100
    | _ => false) = true := by decide +kernel

theorem test_no_word_spells_a_command : (State.reset.withFetchWord 16 0).pending = [] := by decide +kernel

/-! ### Well-formed commands: an ill-formed term for each check -/

/-- Refused, every one of them. -/
def refusedAll (l : List Instr) : Bool := l.all (fun c => !wellFormed c)

theorem test_wellFormed_header : refusedAll [.form (hd 16) 0 0, .form { hd 3 with dest := 16 } 0 0] = true := by decide +kernel

theorem test_wellFormed_pins : refusedAll [.resetRelease 16, .accessPrefixEnd [(.control, 0)], .accessPrefixEnd [(.report, 15)],
    .presenceChange 0 true none, .presenceChange 13 true none, .lockDelayExpiry 13, .lateTimerExpiry 65536, .thermalSample [],
    .silenceLimitReached 0, .silenceLimitReached 15, .controlFrameReoffer (.rack 13)] = true := by decide +kernel

theorem test_wellFormed_counts : refusedAll [.triggerAssertion (.all (2 ^ 31)), .approachEnd ⟨0, -(2 ^ 31) - 1, 0, 0, 0⟩,
    .touchMiss ⟨0, 0, 2 ^ 31, 0, 0⟩, .segmentComplete .arm ⟨0, 0, 0, 2 ^ 31, 0⟩, .stopEnd .head ⟨0, 0, 0, 0, 2 ^ 31⟩,
    .followingError .x (.all (2 ^ 31)), .encoderQuadratureError .x (.all (2 ^ 31)), .driveFaultCounted .x (.all (2 ^ 31))] = true := by
  decide +kernel

theorem test_wellFormed_joining_frames : refusedAll [.join (hd 3) 0 .powerOn 256, .silence (hd 3) 256 0, .silence (hd 3) 1 (2 ^ 48),
    .snapBegin (hd 3) .serve 256 0 0, .snapBegin (hd 3) .serve 1 0 65536, .snapEntry (hd 3) 1 (.zone 256 ⟨.free, 0⟩),
    .snapEntry (hd 3) 1 (.zone 0 ⟨.free, 2 ^ 48⟩), .snapEnd (hd 3) 256 0 0, .snapEnd (hd 3) 1 (2 ^ 48) 0] = true := by decide +kernel

theorem test_wellFormed_zone_frames : refusedAll [.zoneClaim (hd 16) 0 .routine, .zoneRelease (hd 16) 0 false, .forceRelease (hd 16) 0] = true := by
  decide +kernel

theorem test_wellFormed_port_frames : refusedAll [.portReserve (hd 3) 256 .deposit 1, .portReserve (hd 3) 1 .deposit 256,
    .portState (hd 1) 256 true .locked none, .portAbandon (hd 3) 256 true, .probeDeposit (hd 3) 256 1, .probeDeposit (hd 3) 1 256,
    .probeTake (hd 3) 256 1 none, .probeTake (hd 3) 1 256 none, .mountReport (hd 16) none, .custodySet (pg 0) 256 .lost,
    .custodySet (pg 0) 1 (.port 256)] = true := by decide +kernel

theorem test_wellFormed_probe_frames : refusedAll [.qualPart (hd 3) 256 1 1 testTip, .qualPart (hd 3) 1 256 1 testTip,
    .qualPart (hd 3) 1 1 256 testTip, .qualPart (hd 3) 1 1 1 { testTip with radius := 65536 }, .qualCommit (hd 3) 256 1 0,
    .qualCommit (hd 3) 1 256 0, .qualCommit (hd 3) 1 1 32768, .probeMark (hd 3) 256, .thermal (hd 3) [⟨256, .part, 0, .valid⟩],
    .thermal (hd 3) [⟨1, .part, 32768, .valid⟩]] = true := by decide +kernel

theorem test_wellFormed_report_frames : refusedAll [.point (hd 3) { pointBody0 with probe := 256 }, .point (hd 3) { pointBody0 with seq := 65536 },
    .request (pg 3) 0 (.status 256), .answer (hd 3) { answer0 with code := 256 }, .event (hd 3) { event0 with kind := 256 },
    .event (hd 3) { event0 with number := 65536 }] = true := by decide +kernel

/-- A body longer than 60 bytes is no frame (11.1). -/
theorem test_wellFormed_length : refusedAll [.answer (hd 3) { answer0 with page := List.replicate 61 0 }] = true := by decide +kernel

theorem test_wellFormed_requests : refusedAll [.move 0 0 home1 1 0, .move 13 0 home1 65536 0, .move 13 0 ⟨2 ^ 31, 0, 0⟩ 1 0,
    .touch 13 0 { touch0 with probing := 65536 }, .home 13 0 256, .index 13 0 256 0, .index 13 0 0 128, .halt 13 0 256, .clear 13 0 256,
    .change 13 0 256, .qualify 13 0 256 1 1 testTip, .park 15 0, .unpark 0 0, .status 13 0 256, .restart 13 0 65536,
    .unknownRequest 13 0 256 [], .unknownRequest 13 0 12 [], .unknownRequest 13 0 13 (List.replicate 58 0)] = true := by decide +kernel

theorem test_wellFormed_good : [Instr.resetRelease 15, .form (hd 1) 0 0, .silence (hd 1) 6 (2 ^ 48 - 1), .point (hd 3) pointBody0,
    .move 13 0 home1 65535 255, .unknownRequest 13 0 13 [], .presenceChange 12 true none].all wellFormed = true := by decide +kernel

/-! ### Each statement's hypotheses are met: the step, reset and the modes -/

/-- What holds of the value of an option. -/
theorem forSome {α : Type} {o : Option α} {p : α → Prop} [DecidablePred p]
    (h : (match o with | none => true | some v => decide (p v)) = true) : ∀ v, o = some v → p v := by
  intro v hv
  subst hv
  exact of_decide_eq_true h

theorem test_witness_StepIdlesOnEmptyQueue : State.reset.pending = [] := rfl

theorem test_lineOk : LineOk act.line where
  control := by decide +kernel
  release := by decide +kernel
  report := by decide +kernel
  points := by decide +kernel
  vetoLog := by decide +kernel
  controlClass := by decide +kernel
  reportClass := by decide +kernel
  thermalClass := fun v h => nomatch h
  waitingClass := by decide +kernel

theorem test_creditsOk : CreditsOk act where
  reserved := by decide +kernel
  head := by decide +kernel
  tail := fun c => by cases c <;> decide +kernel
  fresh := fun c g _ h => by cases c <;> exact nomatch h
  touch := fun g h => nomatch h
  empty := fun c => by cases c <;> decide +kernel
  off := by decide +kernel

/-- A probe number beyond the directory reads as a probe that is LOST. -/
theorem test_probes (x : Nat) : (probeRec testTables x).custody = (if x = 1 then .station 3 else if x = 2 then .port 1 else .lost) ∧
    (probeRec testTables x).tips.length ≤ 6 := by
  rcases x with _ | _ | _ | x
  · decide +kernel
  · decide +kernel
  · decide +kernel
  · have h : ∀ y < 22, (probeRec testTables (y + 3)).custody = .lost ∧ (probeRec testTables (y + 3)).tips.length ≤ 6 := by decide +kernel
    have hx : (probeRec testTables (x + 3)).custody = .lost ∧ (probeRec testTables (x + 3)).tips.length ≤ 6 := by
      by_cases hx : x < 22
      · exact h x hx
      · have hl : testTables.probes.length ≤ x + 2 := by
          have : testTables.probes.length = 24 := by decide +kernel
          omega
        simp only [probeRec, at1, List.getD_eq_getElem?_getD, List.getElem?_eq_none hl, Option.getD_none]
        decide
    simpa using hx

/-- Port 1 holds probe 2; the others, beyond the twelve too, are EMPTY. -/
theorem test_ports (p : Nat) : (portEntry testTables p).state = if p = 1 then .occupied 2 else .empty := by
  rcases p with _ | _ | p
  · decide +kernel
  · decide +kernel
  · have h : ∀ y < 11, (portEntry testTables (y + 2)).state = .empty := by decide +kernel
    have hp : (portEntry testTables (p + 2)).state = .empty := by
      by_cases hp : p < 11
      · exact h p hp
      · have hl : testTables.ports.length ≤ p + 1 := by
          have : testTables.ports.length = 12 := by decide +kernel
          omega
        simp only [portEntry, at1, List.getD_eq_getElem?_getD, List.getElem?_eq_none hl, Option.getD_none]
    simpa using hp

theorem test_listsOk : ListsOk testCell testTables where
  claimOrder := by decide +kernel
  claimants := by decide +kernel
  claimRole := by decide +kernel
  wanted := by decide +kernel
  passed := by decide +kernel
  boardOrder := by decide +kernel
  boardRange := by decide +kernel
  tips := fun x => (test_probes x).2

theorem test_agrees : Agrees testTables := by
  constructor <;> intro a b <;> simp only [test_ports, fun x => (test_probes x).1]
  · split
    · intro h
      cases h
      simp_all
    · simp
  · intro x; split <;> simp
  · intro x; split <;> simp
  · intro h
    split at h
    · simp at h
    · split at h
      · cases h
        simp_all
      · simp at h
  · intro h
    split at h
    · simp at h
    · split at h <;> simp at h
  · intro y hb hy
    split at hb
    · split at hy
      · simp_all
      · split at hy <;> simp at hy
    · split at hb <;> simp at hb

theorem test_stationsOk : StationsOk testCell := by unfold StationsOk; decide +kernel

theorem test_witness_StepKeepsBounds : (Bounded act ∧ ∃ t, step ⟨act, [.frameMalformed]⟩ = .next t) ∧ CreditsOk act ∧
    (serving act = true ∧ ListsOk (cellOf act) (tabs act)) ∧ StationsOk (cellOf act) :=
  ⟨⟨⟨test_lineOk, by decide +kernel, by decide +kernel, ⟨by decide +kernel, by decide +kernel⟩, by decide +kernel, by decide +kernel,
    by decide +kernel, by decide +kernel⟩, ⟨_, rfl⟩⟩, test_creditsOk, ⟨by decide +kernel, test_listsOk⟩, test_stationsOk⟩

theorem test_witness_StepKeepsTableSizes : Sized act ∧ ∃ t, step ⟨act, [.frameMalformed]⟩ = .next t :=
  ⟨⟨sizes _ (by decide +kernel), (fun p h => nomatch h), by decide +kernel, by decide +kernel, by decide +kernel, by decide +kernel,
    by decide +kernel, by decide +kernel⟩, ⟨_, rfl⟩⟩

/-- The step meant goes on serving. -/
theorem test_witness_StepKeepsServing : (serving act = true ∧ Serves act) ∧
    ((cellOf act).ports.length ≤ 12 ∧ (cellOf act).probes.length ≤ 24 ∧ Agrees (tabs act)) ∧
    ∃ t, step ⟨act, [.frameMalformed]⟩ = .next t ∧ serving t.stn = true :=
  ⟨⟨by decide +kernel, fun _ => ⟨by decide +kernel, by decide +kernel, by unfold HomesHeld; decide +kernel⟩⟩,
    ⟨by decide +kernel, by decide +kernel, test_agrees⟩, _, rfl, by decide +kernel⟩

/-- Straps 0, 1, 14 and 15, held and not. -/
theorem test_witness_ResetReleaseSamplesStraps : (∀ n ∈ [0, 1, 14, 15], n < 16) ∧ Station.reset.loader.held = true ∧ act.loader.held = false := by
  decide +kernel

set_option maxRecDepth 1000000 in
theorem test_witness_GoodImageStartsJoining : loadingStn.loader.held = false ∧ loadingStn.loader.mode = .loading ∧
    loadingStn.line = LinePort.reset ∧ loadingStn.replica = ReplicaUnit.reset ∧
    judgeImage (putImage testImage) loadingStn.loader.number = .good testImage (check32 (cellBytes (memory (putImage testImage)))) := by
  decide +kernel

/-- An image whose thermal period is none of the four. -/
def oddImage : Image := ⟨{ testCell with period := 300 }, testOwn⟩

theorem test_odd_image_reads : readImage (memory (putImage oddImage)) = some oddImage := by decide +kernel

set_option maxRecDepth 1000000 in
theorem test_witness_RefusedImageShuts : (loadingStn.loader.held = false ∧ loadingStn.loader.mode = .loading) ∧
    imageGood (memory []) = false ∧
    (imageGood (memory (putImage testImage)) = true ∧ roleGood (memory (putImage testImage)) 2 = false) ∧
    (imageGood (memory (putImage oddImage)) = true ∧ roleGood (memory (putImage oddImage)) 3 = true ∧
      ∀ im ∈ readImage (memory (putImage oddImage)), rangeGood im 3 = false) :=
  ⟨by decide +kernel, by decide +kernel, by decide +kernel, by decide +kernel, by decide +kernel, fun im h => by
    rw [test_odd_image_reads] at h
    cases h
    decide +kernel⟩

theorem test_witness_HoldOffRestarts : outStn.loader.mode = .out ∧ outStn.loader.held = false ∧ outStn.loader.holdOff = some 15000 := by
  decide +kernel

/-! ### The line -/

/-- Nothing contends at a station with queues as given. -/
def idleLine (s : Station) : Bool := listening s && s.line.flight.isNone && s.line.window.isNone

theorem test_idleLine (s : Station) (h : idleLine s = true) : listening s = true ∧ s.line.flight = none ∧ s.line.window = none := by
  simpa [idleLine, and_assoc] using h

def control1 : Outgoing := ⟨0, .zoneClaim 0x10 .routine⟩
def report1 : Outgoing := ⟨13, .answer answer0⟩
def slot1 : Slot := ⟨⟨0, .thermal []⟩, 9900⟩

/-- A station with the queues, drain flag and run count given. -/
def lined (c : List Outgoing) (th : Option Slot) (r : List Outgoing) (drain : Bool) (run : Nat) : Station :=
  withLine (fun l => { l with control := c, thermal := th, report := r, drain := drain, runCount := run }) act

/-- A THERMAL of just the age, and of 1 ms less; every queue alone and beside the later ones; run counts 3 and 4; no frame at all. -/
theorem test_witness_ArbiterOrder :
    (idleLine { queued with now := 10150 } = true ∧ slot1.since + testCell.period ≤ 10150) ∧
    (∀ s ∈ [lined [control1] (some slot1) [report1] false 0, lined [] (some slot1) [report1] false 0, lined [] none [report1] false 0,
      lined [control1] (some slot1) [report1] true 4, lined [control1] (some slot1) [report1] true 3, lined [] (some slot1) [report1] true 4,
      lined [control1] (some slot1) [] true 0, lined [] (some slot1) [] true 0, lined [] none [] false 0],
      idleLine s = true ∧ Says.noAge s) ∧ Says.noAge { queued with now := 10149 } := by
  refine ⟨by decide +kernel, ?_, forSome (by decide +kernel)⟩
  intro s hs
  fin_cases hs <;> exact ⟨by decide +kernel, forSome (by decide +kernel)⟩

/-- Frames of each class in flight; contenders of a lower class, of the same class and a lower number, and of neither. -/
theorem test_witness_PrefixDecides :
    (∀ o ∈ [control1, ⟨0, .thermal []⟩, report1], listening (withLine (fun l => { l with flight := some (contending o) }) act) = true) ∧
    (∃ o ∈ [(FrameClass.control, 2)], Says.ahead o (FrameClass.control, me act)) ∧
    (∃ o ∈ [(FrameClass.control, 14)], Says.ahead o (FrameClass.thermal, me act)) ∧
    (∃ o ∈ [(FrameClass.thermal, 6)], Says.ahead o (FrameClass.report, me act)) ∧
    (∀ o ∈ [(FrameClass.control, 6), (FrameClass.thermal, 1)], ¬ Says.ahead o (FrameClass.control, me act)) := by
  unfold Says.ahead; decide +kernel

/-- A release for zone 5, and a withdrawing one for zone 4 that waits in the queue between two claims. -/
def release5 : Outgoing := ⟨0, .zoneRelease 0x20 false⟩
def withRelease : List Outgoing := [control1, ⟨0, .zoneRelease 0x10 true⟩, control1]

/-- R13: a release back to the queue, a withdrawn one; a release offered while another is queued. -/
theorem test_witness_releases :
    (Body.isRelease release5.body = true ∧ listening (withLine (fun l => { l with flight := some (contending release5) }) act) = true ∧
      (withRelease.take 1).all (fun b => !Body.isRelease b.body) = true) ∧
    after (.accessPrefixEnd [(.control, 2)]) (withLine (fun l => { l with flight := some (contending release5), control := withRelease }) act)
      (fun t => t.line.control == [⟨0, .zoneRelease 0x30 true⟩, control1]) = true ∧
    (offerReleaseTo (lined withRelease none [] false 0).line 0x20 true).control =
      [control1, ⟨0, .zoneRelease 0x30 true⟩] := by decide +kernel

def full : Station := lined [] none (List.replicate 16 report1) true 0

/-- R176: the reception of a header alone, of a wrong check, and of a header that breaks the format with the check right. -/
theorem test_witness_receptions :
    (∀ head ∈ [[0x10, 0xF0, 0, 0], [0x12, 0x30, 0, 0], [0x10, 0x30, 0, 61], [0x10, 0x3F, 0, 0], [0x10, 0x20, 0, 0]].map
      (fun l => l.map (BitVec.ofNat 8)), Says.headerBroken testCell head) ∧
    (∀ head ∈ [[0x10, 0xF0, 0, 0], [0x12, 0x30, 0, 0], [0x10, 0x3F, 0, 0], [0x10, 0x20, 0, 0]].map (fun l => l.map (BitVec.ofNat 8)),
      receive testCell (checked head) = .malformed ∧ receive testCell (head ++ [0, 0, 0, 0]) = .bad ∧ receive testCell head = .bad) := by
  unfold Says.headerBroken; decide +kernel

theorem test_witness_ReceptionOpensWindow : idleLine act = true ∧ receive testCell [] = .bad ∧
    receive testCell (putFrame ⟨pg 3, .probeMark 1⟩) = .malformed ∧ receive testCell (putFrame statusFrame) = .good statusFrame ∧
    (Body.isRequest statusFrame.body = true ∧ statusFrame.h.dest = me act) ∧ 1 ≤ reportFree act.line ∧ reportFree full.line = 0 ∧
    receive testCell (putFrame ⟨hd 6, .probeMark 1⟩) = .good ⟨hd 6, .probeMark 1⟩ ∧
    receive testCell (putFrame ⟨pg 6, .request 0x77 .park⟩) = .good ⟨pg 6, .request 0x77 .park⟩ := by decide +kernel

/-- A station whose own frame stands in its window, with retries and the receiver veto record given. -/
def flying (o : Outgoing) (retry marks : Nat) : Station :=
  withLine (fun l => { l with flight := some (onLine o), retry := retry, vetoLog := List.replicate marks true }) act

/-- A foreign frame vetoed here. -/
def vetoing (marks : Nat) : Station :=
  withLine (fun l => { l with window := some ⟨none, some .check, false⟩, vetoLog := List.replicate marks true }) act

theorem test_witness_VetoedFrameIsDiscarded :
    (∀ s ∈ [flying control1 6 15, flying report1 0 0, vetoing 14, heardRequest], listening s = true ∧
      (ownOnLine s = true → s.line.retry < 7) ∧ vetoCount (recordWindow s.line (checkVetoed s.line.window)) < 16) ∧
    ownOnLine (flying control1 6 15) = true ∧ ownOnLine (vetoing 14) = false := by decide +kernel

/-- With no OUT before, with one, and with two within 600 s; one of them 600 001 ms ago. -/
theorem test_witness_VetoLimitsEndInOut :
    (listening (flying control1 7 0) = true ∧ ownOnLine (flying control1 7 0) = true) ∧
    (listening (vetoing 15) = true ∧ ownOnLine (vetoing 15) = false ∧
      16 ≤ vetoCount (recordWindow (vetoing 15).line (checkVetoed (vetoing 15).line.window))) ∧
    ([].filter (fun m => decide (act.now ≤ m + 600000))).length < 2 ∧
    2 ≤ ([0, 9000].filter (fun m => decide (600000 ≤ m + 600000))).length ∧
    ([0, 9000].filter (fun m => decide (600001 ≤ m + 600000))).length < 2 := by decide +kernel

theorem test_witness_MalformedFrameIsOnlyCounted : listening act = true ∧ vetoedHere act = false ∧
    ∃ f, Says.frameOf (.probeMark (pg 0) 1) = some f ∧ formatGood (cellOf act) f = false :=
  ⟨by decide +kernel, by decide +kernel, _, rfl, by decide +kernel⟩

theorem test_witness_AgedThermalIsPicked : listening queued = true ∧ queued.line.thermal = some slot1 := by decide +kernel

/-- A PROBE_MARK kept, with `n` frames before it. -/
def keeping (n : Nat) : Station :=
  withLine (fun l => { l with control := List.replicate n control1, waiting := [⟨.mark, ⟨0, .probeMark 1⟩⟩] }) act

theorem test_witness_KeptControlFrameIsTaken :
    (∀ n ∈ [6, 7], (keeping n).line.waiting.find? (fun w => w.src == .mark) = some ⟨.mark, ⟨0, .probeMark 1⟩⟩) ∧
    controlHeld (keeping 6).line < 7 ∧ 7 ≤ controlHeld (keeping 7).line := by decide +kernel

/-- A snapshot of station 6 being given, its first frame next. -/
def giving : Station := { act with replica := { act.replica with shadow := some ⟨testTables, List.replicate 14 none, 6, 4, 90, 0⟩ } }

theorem test_witness_KeptReportFrameIsTaken :
    oldestReady readyStn.touch.nextSeq readyStn.touch.points = some (data0, corr0) ∧
    owing.replica.notices = [(6, 4)] ∧ (∃ b, (snapFrames testCell ⟨testTables, List.replicate 14 none, 6, 4, 90, 0⟩)[0]? = some b) ∧
    giving.replica.notices = [] ∧
    (1 ≤ reportFree (lined [] none (List.replicate 15 report1) true 0).line ∧ reportFree full.line = 0) ∧
    (2 ≤ reportFree (lined [] none (List.replicate 14 report1) true 0).line ∧
      reportFree (lined [] none (List.replicate 15 report1) true 0).line < 2) ∧
    12 ≤ pointsHeld (lined [] none (List.replicate 12 ⟨13, .point pointBody0⟩) true 0).line :=
  ⟨by decide +kernel, by decide +kernel, ⟨_, rfl⟩, by decide +kernel, by decide +kernel, by decide +kernel, by decide +kernel⟩

theorem test_witness_SilenceIsNoticedOnce : serving act = true ∧ 6 ≠ me act ∧ roleIn (cellOf act) 6 = .mc410 ∧
    rosterState (tabs act) 6 = .active ∧ at1 act.line.heard ⟨.none, 0⟩ 6 = ⟨.abs 40, 9000⟩ ∧ at1 act.replica.noticed none 6 ≠ some 40 ∧
    controlHeld act.line < 7 := by decide +kernel

theorem test_witness_FramesReadBack : formatGood testCell ⟨{ hd 3 with dest := 13 }, .point pointBody0⟩ = true ∧
    bodyFits (.point pointBody0) = true ∧ formatGood testCell ⟨pg 3, .request 0x77 (.unknown 255 [])⟩ = true := by decide +kernel

/-! ### Formation, joining and silence -/

theorem test_witness_FormationMakesCell : joiningMode joiningStn = true ∧ vetoedHere joiningStn = false ∧
    formatGood (cellOf joiningStn) ⟨jn 6, .form testPrint 0x4A⟩ = true ∧ (tabs joiningStn).cell.formed = false ∧ inMask 0x4A 6 = true ∧
    inMask 0x4A (me joiningStn) = true ∧ testPrint = joiningStn.loader.fingerprint ∧ joiningStn.replica.cellExists = false ∧
    (jn 6).active = false ∧ joiningStn.replica.snapBeginSeen = false ∧ joiningStn.line.heard.length = 14 ∧ (ownOf joiningStn).axes ≠ [] ∧
    (∀ ax ∈ [Axis.x, .y, .z, .a, .b], joiningStn.motion.fault.get ax = false) := by decide +kernel

/-- A joiner that knows of a cell, its JOIN offered and not done, and one whose JOIN is done. -/
def hopeful : Station := { joiningStn with replica := { joiningStn.replica with cellExists := true, joinDone := false } }
def knowing : Station := { joiningStn with replica := { joiningStn.replica with cellExists := true } }

theorem test_witness_FormElsewhere :
    (formatGood testCell ⟨jn 6, .form 0 0x4A⟩ = true ∧ formatGood testCell ⟨jn 6, .form testPrint 0x42⟩ = true ∧
      vetoedHere joiningStn = false ∧ joiningMode joiningStn = true ∧ (tabs joiningStn).cell.formed = false ∧
      inMask 0x42 6 = true ∧ joiningStn.replica.cellExists = false ∧ (jn 6).active = false ∧ joiningStn.replica.snapBeginSeen = false ∧
      joiningStn.replica.catchUp.length < 128 ∧ 0 ≠ joiningStn.loader.fingerprint ∧ inMask 0x42 (me joiningStn) = false) ∧
    (joiningMode hopeful = true ∧ hopeful.replica.cellExists = true ∧ hopeful.replica.joinDone = false) ∧
    (knowing.replica.cellExists = true ∧ knowing.replica.joinDone = true ∧ knowing.replica.catchUp.length < 128) ∧
    (served.replica.snapBeginSeen = true ∧ served.replica.joinDone = true ∧ formatGood testCell ⟨jn 1, .form testPrint 0x48⟩ = true ∧
      inMask 0x48 1 = false) ∧
    (serving act = true ∧ act.line.lineCount = some 100 ∧ formatGood testCell ⟨hd 6, .form testPrint 0x4A⟩ = true ∧
      Says.passes act (hd 6)) := by
  unfold Says.passes; decide +kernel

theorem test_witness_JoinInUnformedReplica :
    (∀ s ∈ [joiningStn, served], joiningMode s = true ∧ vetoedHere s = false ∧ s.replica.catchUp.length < 128) ∧
    TablesSized (tabs joiningStn) ∧ TablesSized (tabs served) ∧
    (∀ k ∈ [1, 3, 6], formatGood testCell ⟨jn k, .join testPrint .powerOn 4⟩ = true) ∧ me joiningStn = 3 ∧
    servedBy joiningStn 6 = false ∧ servedBy served 1 = true :=
  ⟨by decide +kernel, sizes _ (by decide +kernel), sizes _ (by decide +kernel), by decide +kernel, by decide +kernel, by decide +kernel,
    by decide +kernel⟩

/-- Station 1 has not been seen, so this station serves; station 6 is new. -/
def alone : Station := withTabs (fun r => seat 1 absent (seat 6 absent r)) act

theorem test_witness_JoinInFormedReplica :
    (Says.takes act ⟨jn 6, .join testPrint .powerOn 4⟩ 100 ∧ TablesSized (tabs act) ∧ testPrint = (tabs act).cell.fingerprint ∧
      Says.mayServe act 6 1 ∧ (∀ i < 1, ¬ Says.mayServe act 6 i) ∧ Says.rejoins act 6) ∧
    (Says.takes alone ⟨jn 6, .join testPrint .powerOn 4⟩ 100 ∧ TablesSized (tabs alone) ∧ Says.mayServe alone 6 3 ∧ me alone = 3 ∧
      (∀ i < 3, ¬ Says.mayServe alone 6 i) ∧ ¬ Says.rejoins alone 6) :=
  ⟨⟨by unfold Says.takes; decide +kernel, sizes _ (by decide +kernel), by decide +kernel,
      ⟨by decide, by decide, by decide, by decide +kernel, by decide +kernel, .inl (by decide +kernel)⟩,
      fun i hi h => absurd h.1 (by omega), by unfold Says.rejoins; decide +kernel⟩,
    ⟨by unfold Says.takes; decide +kernel, sizes _ (by decide +kernel),
      ⟨by decide, by decide, by decide, by decide +kernel, by decide +kernel, .inl (by decide +kernel)⟩, by decide +kernel,
      fun i hi h => by
        have h5 := h.2.2.2.2.1
        have hz : ∀ i < 3, (rosterEntry (tabs alone) i).state ≠ .active := by decide +kernel
        exact hz i hi h5,
      by unfold Says.rejoins; decide +kernel⟩⟩

theorem test_witness_JoinRefused :
    (∀ s ∈ [act, alone], Says.takes s ⟨jn 6, .join 0 .powerOn 4⟩ 100 ∧ 0 ≠ (tabs s).cell.fingerprint) ∧ TablesSized (tabs act) ∧
    TablesSized (tabs alone) ∧ (rosterEntry (tabs act) 6).state = .active ∧ (rosterEntry (tabs alone) 6).state ≠ .active :=
  ⟨by unfold Says.takes; decide +kernel, sizes _ (by decide +kernel), sizes _ (by decide +kernel), by decide +kernel, by decide +kernel⟩

/-- Another station, the station itself, a count that is not the last-heard one, and the server of a joiner. -/
theorem test_witness_SilenceTakesAway :
    (Says.takes act ⟨hd 1, .silence 6 40⟩ 100 ∧ Says.passes act (hd 1) ∧ Says.isSilenced act (hd 1) 6 40 100 ∧ 6 ≠ me act) ∧
    TablesSized (tabs act) ∧ (Says.takes act ⟨hd 1, .silence 3 40⟩ 100 ∧ Says.isSilenced act (hd 1) 3 40 100) ∧
    (Says.takes act ⟨hd 1, .silence 6 41⟩ 100 ∧ ¬ Says.isSilenced act (hd 1) 6 41 100) ∧
    (joiningMode served = true ∧ vetoedHere served = false ∧ formatGood (cellOf served) ⟨hd 6, .silence 1 40⟩ = true ∧
      servedBy served 1 = true) :=
  ⟨by unfold Says.takes Says.passes Says.isSilenced; decide +kernel, sizes _ (by decide +kernel),
    by unfold Says.takes Says.isSilenced; decide +kernel, by unfold Says.takes Says.isSilenced; decide +kernel, by decide +kernel⟩

def to3 (k : Nat) : Hdr := { hd k with dest := 3 }

theorem test_witness_SnapshotIsTaken :
    (joiningMode joiningStn = true ∧ vetoedHere joiningStn = false ∧ (to3 1).dest = me joiningStn ∧
      formatGood testCell ⟨to3 1, .snapBegin .serve 1 testPrint 12⟩ = true ∧ formatGood testCell ⟨to3 1, .snapBegin .serve 2 testPrint 12⟩ = true ∧
      formatGood testCell ⟨to3 1, .snapBegin .refuse 1 0 0⟩ = true ∧ 1 = joiningStn.replica.joinNumber ∧
      joiningStn.replica.joinDone = true ∧ joiningStn.replica.service = none ∧ hopeful.replica.joinDone = false ∧
      served.replica.service ≠ none) ∧
    (joiningMode served = true ∧ formatGood testCell ⟨to3 1, .snapEntry 1 (.zone 31 ⟨.free, 0⟩)⟩ = true ∧
      formatGood testCell ⟨to3 1, .snapEntry 1 (.claim 0 ⟨6, 1, .routine, false, 0, 3⟩)⟩ = true ∧
      served.replica.service = some ⟨1, 1, 2, 1⟩ ∧ served.replica.pendingRep = some ⟨testTables, List.replicate 14 none⟩) := by decide +kernel

theorem test_witness_SnapEndLoads :
    (joiningMode served = true ∧ vetoedHere served = false ∧ formatGood testCell ⟨to3 1, .snapEnd 1 200 testPrint⟩ = true ∧
      formatGood testCell ⟨to3 1, .snapEnd 1 200 0⟩ = true ∧ served.replica.service = some ⟨1, 1, 2, 1⟩ ∧ served.replica.catchUp.length < 128 ∧
      testPrint = served.loader.fingerprint) ∧
    (Says.takes act ⟨{ hd 6 with dest := 2 }, .snapEnd 4 90 testPrint⟩ 100 ∧ Says.passes act (hd 6)) ∧ HomesHeld testCell testTables :=
  ⟨by decide +kernel, by unfold Says.takes Says.passes; decide +kernel, by unfold HomesHeld; decide +kernel⟩

/-! ### The roster step and zones -/

/-- Station 6 SILENT, and JOINING. -/
def hushed (st : RosterState) : Station := withTabs (seat 6 (arrived st)) act

theorem test_witness_SenderMustBeActive :
    (∀ st ∈ [RosterState.silent, .unseen, .refused, .joining], Says.takes (hushed st) ⟨hd 6, .zoneClaim 0x10 .routine⟩ 100 ∧
      roleIn (cellOf (hushed st)) 6 = .mc410 ∧ (rosterEntry (tabs (hushed st)) 6).state ≠ .active) ∧
    passesRoster (.zoneClaim 0x10 .routine) = true ∧ TablesSized (tabs (hushed .joining)) ∧
    Says.takes (hushed .joining) ⟨jn 6, .zoneClaim 0x10 .routine⟩ 100 ∧ (jn 6).active = false ∧ (hd 6).active = true :=
  ⟨by unfold Says.takes; decide +kernel, by decide +kernel, sizes _ (by decide +kernel), by unfold Says.takes; decide +kernel, rfl, rfl⟩

/-- Zones 0 and 31, a HOME zone of another station and the sender's own; a zone that another station holds. -/
theorem test_witness_ClaimIsGrantedOrWaits :
    (∀ m ∈ [0x1, 0x80000000, 0x4, 0x8, 0x10], Says.takes act ⟨hd 6, .zoneClaim (BitVec.ofNat 32 m) .routine⟩ 100) ∧ Says.passes act (hd 6) ∧
    TablesSized (tabs act) ∧ Says.hitsHome act 6 0x4 ∧ ¬ Says.hitsHome act 6 0x8 ∧ (tabs act).claims = [] ∧
    (∀ z < 32, (0x80000009 : ZoneMask).getLsbD z = true → (zoneEntry (tabs act) z).hold = .free ∨ (zoneEntry (tabs act) z).hold = .held 6) ∧
    ListsOk (cellOf act) (tabs act) ∧
    ((0x10 : ZoneMask).getLsbD 4 = true ∧ (zoneEntry (tabs (withTabs (zone 4 (.held 3)) act)) 4).hold = .held 3 ∧ 0 < (cellOf act).starve) :=
  ⟨by unfold Says.takes; decide +kernel, by unfold Says.passes; decide +kernel, sizes _ (by decide +kernel),
    by unfold Says.hitsHome; decide +kernel, by unfold Says.hitsHome; decide +kernel, by decide +kernel, by decide +kernel, test_listsOk,
    by decide +kernel⟩

/-- Zone 4 HELD by the sender, zone 5 ORPHANED, zone 31 HELD by a JOINING station 6, zone 3 its HOME zone. -/
def mixed : Station := withTabs (fun r => zone 4 (.held 3) (zone 5 (.orphaned 6) (zone 31 (.held 6) (seat 6 (arrived .joining) r)))) act

theorem test_witness_ReleaseFreesZones :
    (Says.takes mixed ⟨hd 3, .zoneRelease 0x14 true⟩ 100 ∧ Says.passes mixed (hd 3)) ∧ TablesSized (tabs mixed) ∧
    ((zoneEntry (tabs mixed) 4).hold = .held 3 ∧ isHome (cellOf mixed) 4 = false ∧ isHome (cellOf mixed) 2 = true) ∧
    Says.takes mixed ⟨pg 0, .forceRelease 0x80000028⟩ 100 ∧
    ((zoneEntry (tabs mixed) 5).hold = .orphaned 6 ∧ (zoneEntry (tabs mixed) 31).hold = .held 6 ∧ isHome (cellOf mixed) 31 = false ∧
      rosterState (tabs mixed) 6 = .joining ∧ (zoneEntry (tabs mixed) 3).hold = .held 6 ∧ isHome (cellOf mixed) 3 = true) :=
  ⟨by unfold Says.takes Says.passes; decide +kernel, sizes _ (by decide +kernel), by decide +kernel, by unfold Says.takes; decide +kernel,
    by decide +kernel⟩

/-! ### Ports and custody -/

/-- Ports 1 and 2 are configured, 0, 3 and 12 are not. -/
theorem test_configured : configured testCell 1 = true ∧ configured testCell 2 = true ∧ configured testCell 0 = false ∧
    configured testCell 3 = false ∧ configured testCell 12 = false ∧ inUse testCell 1 = true ∧ inUse testCell 3 = true ∧
    inUse testCell 4 = false ∧ inUse testCell 24 = false := by decide +kernel

theorem test_witness_PortIsReserved :
    (Says.takes act ⟨hd 3, .portReserve 2 .deposit 1⟩ 100 ∧ Says.passes act (hd 3)) ∧ TablesSized (tabs act) ∧
    ((portEntry (tabs act) 2).state = .empty ∧ (probeRec (tabs act) 1).custody = .station 3) ∧
    (Says.takes act ⟨hd 6, .portReserve 1 .pickup 2⟩ 100 ∧ (portEntry (tabs act) 1).state = .occupied 2) ∧
    (isRack rackStn = true ∧ Says.takes rackStn ⟨hd 6, .portReserve 1 .pickup 2⟩ 100 ∧ rackStn.rack.length = 12) ∧
    (Says.takes act ⟨hd 6, .portReserve 1 .deposit 1⟩ 100 ∧ (portEntry (tabs act) 1).state ≠ .empty) ∧
    (Says.takes act ⟨hd 6, .portReserve 2 .pickup 2⟩ 100 ∧ (portEntry (tabs act) 2).state ≠ .occupied 2) :=
  ⟨by unfold Says.takes Says.passes; decide +kernel, sizes _ (by decide +kernel), by decide +kernel, by unfold Says.takes; decide +kernel,
    by unfold Says.takes; decide +kernel, by unfold Says.takes; decide +kernel, by unfold Says.takes; decide +kernel⟩

theorem test_witness_RackReportIsFollowed :
    (∀ p ∈ [1, 2, 12], ∀ b ∈ [true, false], Says.takes act ⟨hd 1, .portState p b .locked (if b then some 0x3333 else none)⟩ 100 ∧
      isReserved (portEntry (tabs act) p).state = false) ∧
    Says.passes act (hd 1) ∧ TablesSized (tabs act) ∧ probeByCode (cellOf act) (some 0x3333) = some 3 ∧
    probeByCode (cellOf act) (some 0x2222) = some 2 ∧ probeByCode (cellOf act) (some 0) = none ∧ probeByCode (cellOf act) none = none :=
  ⟨by unfold Says.takes; decide +kernel, by unfold Says.passes; decide +kernel, sizes _ (by decide +kernel), by decide +kernel,
    by decide +kernel, by decide +kernel, by decide +kernel⟩

theorem test_witness_RackReportSettlesReservation :
    (∀ p ∈ [1, 2], ∀ b ∈ [true, false], ∀ l ∈ [Lock.locked, .unlocked],
      Says.takes reserved6 ⟨hd 1, .portState p b l (if b then some 0x3333 else none)⟩ 100) ∧
    Says.passes reserved6 (hd 1) ∧ TablesSized (tabs reserved6) ∧ (portEntry (tabs reserved6) 2).state = .reserved 3 .deposit 1 ∧
    (portEntry (tabs reserved6) 1).state = .reserved 6 .pickup 2 ∧ (portEntry (tabs reserved6) 1).takeSeen = false ∧
    (portEntry (tabs (withTabs (fun r => port 1 { portEntry r 1 with takeSeen := true } r) reserved6)) 1).takeSeen = true ∧
    probeByCode testCell (some 0x1111) = some 1 ∧ probeByCode testCell (some 0x3333) = some 3 :=
  ⟨by unfold Says.takes; decide +kernel, by unfold Says.passes; decide +kernel, sizes _ (by decide +kernel), by decide +kernel,
    by decide +kernel, by decide +kernel, by decide +kernel, by decide +kernel, by decide +kernel⟩

theorem test_witness_AbandonSettlesPort :
    (∀ b ∈ [true, false], Says.takes reserved6 ⟨hd 3, .portAbandon 2 b⟩ 100 ∧ Says.takes reserved6 ⟨hd 6, .portAbandon 1 b⟩ 100) ∧
    Says.passes reserved6 (hd 3) ∧ Says.passes reserved6 (hd 6) ∧ TablesSized (tabs reserved6) ∧
    (probeRec (tabs reserved6) 1).custody ≠ .transfer 2 ∧
    (probeRec (tabs (withTabs (fun r => probe 1 { probeRec r 1 with custody := .transfer 2 } r) reserved6)) 1).custody = .transfer 2 ∧
    (probeRec (tabs reserved6) 2).custody = .port 1 ∧
    (Says.takes reserved6 ⟨hd 6, .portAbandon 2 true⟩ 100 ∧ ∀ purpose x, (portEntry (tabs reserved6) 2).state ≠ .reserved 6 purpose x) :=
  ⟨by unfold Says.takes; decide +kernel, by unfold Says.passes; decide +kernel, by unfold Says.passes; decide +kernel,
    sizes _ (by decide +kernel), by decide +kernel, by decide +kernel, by decide +kernel, by unfold Says.takes; decide +kernel, by
      have h : (portEntry (tabs reserved6) 2).state = .reserved 3 .deposit 1 := by decide +kernel
      intro purpose x
      rw [h]
      simp⟩

theorem test_witness_DepositAndTake :
    (Says.takes reserved6 ⟨hd 3, .probeDeposit 1 2⟩ 100 ∧ Says.passes reserved6 (hd 3)) ∧ TablesSized (tabs reserved6) ∧
    ((portEntry (tabs reserved6) 2).state = .reserved 3 .deposit 1 ∧ (portEntry (tabs reserved6) 2).state ≠ .reserved 6 .deposit 1 ∧
      configured (cellOf reserved6) 2 = true) ∧
    (∀ c ∈ [0x2222, 0x3333, 0], Says.takes reserved6 ⟨hd 6, .probeTake 2 1 (some (BitVec.ofNat 16 c))⟩ 100) ∧
    ((portEntry (tabs reserved6) 1).state = .reserved 6 .pickup 2 ∧ (portEntry (tabs reserved6) 1).presence ≠ .absent) ∧
    (portEntry (tabs (withTabs (fun r => port 1 { portEntry r 1 with presence := .absent } r) reserved6)) 1).presence = .absent :=
  ⟨by unfold Says.takes Says.passes; decide +kernel, sizes _ (by decide +kernel), by decide +kernel, by unfold Says.takes; decide +kernel,
    by decide +kernel, by decide +kernel⟩

theorem test_witness_CustodyIsReported :
    (∀ c ∈ [0x3333, 0], Says.takes act ⟨hd 3, .mountReport (some (BitVec.ofNat 16 c))⟩ 100) ∧ Says.passes act (hd 3) ∧ TablesSized (tabs act) ∧
    (∀ c ∈ [Custody.port 2, .station 6, .lost], Says.takes act ⟨pg 0, .custodySet 3 c⟩ 100) ∧ Says.passes act (pg 0) ∧
    Says.takes act ⟨pg 0, .custodySet 24 .lost⟩ 100 ∧ Says.takes act ⟨pg 0, .custodySet 3 (.port 12)⟩ 100 ∧
    (Says.takes act ⟨pg 0, .custodySet 3 (.station 2)⟩ 100 ∧ roleIn (cellOf act) 2 ≠ .mc410) :=
  ⟨by unfold Says.takes; decide +kernel, by unfold Says.passes; decide +kernel, sizes _ (by decide +kernel),
    by unfold Says.takes; decide +kernel, by unfold Says.passes; decide +kernel, by unfold Says.takes; decide +kernel,
    by unfold Says.takes; decide +kernel, by unfold Says.takes; decide +kernel⟩

/-! ### The probe directory, the board and the frames of the REPORT queue -/

theorem test_witness_QualificationIsStaged :
    (∀ i ∈ [1, 2], Says.takes staged ⟨hd 3, .qualPart 1 i 2 testTip⟩ 100) ∧ Says.takes staged ⟨hd 3, .qualPart 1 2 1 testTip⟩ 100 ∧
    Says.takes staged ⟨hd 3, .qualPart 1 1 1 testTip⟩ 100 ∧ Says.passes staged (hd 3) ∧ TablesSized (tabs staged) ∧
    (∃ d, (latchOf (tabs staged) 3).data = some d ∧ d.probe = 1 ∧ d.n = 1 ∧
      d.parts.take 1 = [{ testTip with radius := 30000 }].map some ∧ ([{ testTip with radius := 30000 }].map tipKeyOf).Nodup) ∧
    (latchOf (tabs act) 3).data = none ∧ Says.takes staged ⟨hd 3, .qualCommit 1 1 700⟩ 100 ∧
    (probeRec (tabs staged) 1).custody = .station 3 ∧ Says.takes act ⟨hd 3, .probeMark 1⟩ 100 ∧ (probeRec (tabs act) 1).cond = .usable ∧
    (Says.takes act ⟨hd 6, .probeMark 1⟩ 100 ∧ (probeRec (tabs act) 1).custody ≠ .station 6) :=
  ⟨by unfold Says.takes; decide +kernel, by unfold Says.takes; decide +kernel, by unfold Says.takes; decide +kernel,
    by unfold Says.passes; decide +kernel, sizes _ (by decide +kernel), ⟨_, rfl, by decide +kernel, by decide +kernel, by decide +kernel,
    by decide +kernel⟩, by decide +kernel, by unfold Says.takes; decide +kernel, by decide +kernel, by unfold Says.takes; decide +kernel,
    by decide +kernel, by unfold Says.takes; decide +kernel⟩

/-- Readings just inside the stale band of 100 mK about 500 mK and just outside it, and one that is not VALID. -/
theorem test_witness_ThermalIsPlaced :
    (∀ e ∈ [ThermEntry.mk 4 .head 600 .valid, ⟨4, .head, 601, .valid⟩, ⟨4, .head, 399, .valid⟩, ⟨4, .head, 0, .opened⟩],
      Says.takes act ⟨hd 3, .thermal [e]⟩ 100 ∧ ∀ y ∈ [e], y.kind = .head → y = e) ∧
    Says.passes act (hd 3) ∧ TablesSized (tabs act) ∧ mountedOn (tabs act) 3 = some 1 ∧ (probeRec (tabs act) 1).qualTemp = some 500 ∧
    ((600 : Int) - 500).natAbs ≤ (cellOf act).staleBand ∧ (cellOf act).staleBand < ((399 : Int) - 500).natAbs ∧
    (probeRec (tabs act) 1).staleRun < 2 ∧ (PointEntry.pending data0 ∈ pendingStn.touch.points ∧ me pendingStn = 3 ∧ data0.count < 101) ∧
    Says.takes pendingStn ⟨hd 3, .thermal []⟩ 100 ∧ Says.partValues (tabs act) = [100] :=
  ⟨by unfold Says.takes; decide +kernel, by unfold Says.passes; decide +kernel, sizes _ (by decide +kernel), by decide +kernel,
    by decide +kernel, by decide +kernel, by decide +kernel, by decide +kernel, by decide +kernel, by unfold Says.takes; decide +kernel,
    by unfold Says.partValues; decide +kernel⟩

/-- Probe 1 with a number of touches. -/
def worn (n : Nat) : Station := withTabs (fun r => probe 1 { probeRec r 1 with touches := n } r) act

theorem test_witness_PointCountsTouch :
    (∀ n ∈ [498, 499, 65534, 65535], Says.takes (worn n) ⟨to3 3, .point pointBody0⟩ 100 ∨
      Says.takes (worn n) ⟨{ hd 3 with dest := 13 }, .point pointBody0⟩ 100) ∧ Says.passes act (hd 3) ∧ TablesSized (tabs (worn 499)) ∧
    ((probeRec (tabs (worn 499)) 1).touches + 1 = (cellOf act).touchLimit ∧ (probeRec (tabs (worn 498)) 1).touches + 1 ≠ (cellOf act).touchLimit ∧
      (probeRec (tabs (worn 65534)) 1).touches < 65535 ∧ 65535 ≤ (probeRec (tabs (worn 65535)) 1).touches) :=
  ⟨by unfold Says.takes; decide +kernel, by unfold Says.passes; decide +kernel, sizes _ (by decide +kernel), by decide +kernel⟩

/-- An own frame of the REPORT queue in its window. -/
def own13 (b : Body) : Frame := ⟨{ hd 3 with dest := 13 }, b⟩
def restartAnswer : Body := .answer ⟨0x77, 12, true, 0, 0, []⟩
def leaving : Station := withReq (fun r => { r with restartPending := true }) (flying ⟨13, restartAnswer⟩ 0 0)

theorem test_witness_ReportFramesComplete :
    (listening heardRequest = true ∧ vetoedHere heardRequest = false ∧ formatGood testCell statusFrame = true ∧
      statusFrame.h.dest = me heardRequest ∧ (∃ w, heardRequest.line.window = some w ∧ w.reserved = true)) ∧
    formatGood testCell ⟨pg 6, .request 0x77 .park⟩ = true ∧
    (∀ f ∈ [own13 (.answer answer0), own13 (.event event0), own13 restartAnswer, own13 (.point pointBody0)], formatGood testCell f = true ∧
      ownFlight act f = false) ∧
    (ownFlight (flying ⟨13, .answer answer0⟩ 0 0) (own13 (.answer answer0)) = true ∧ answersRestart act (.answer answer0) = false ∧
      ownFlight (flying ⟨13, .event event0⟩ 0 0) (own13 (.event event0)) = true) ∧
    (ownFlight leaving (own13 restartAnswer) = true ∧ answersRestart leaving restartAnswer = true) ∧
    (Says.takes (flying ⟨13, .point pointBody0⟩ 0 0) (own13 (.point pointBody0)) 100 ∧
      ownFlight (flying ⟨13, .point pointBody0⟩ 0 0) (own13 (.point pointBody0)) = true) :=
  ⟨⟨by decide +kernel, by decide +kernel, by decide +kernel, by decide +kernel, _, rfl, rfl⟩, by decide +kernel, by decide +kernel,
    by decide +kernel, by decide +kernel, by unfold Says.takes; decide +kernel⟩

/-! ### Requests -/

/-- A state that reads as given, from a computation. -/
theorem asks_of {s : Station} {src : Nat} {tag : Code} {b : ReqBody} (h : Machine.isNext s src tag b = true) : Says.asks s src tag b := by
  simpa [Machine.isNext, Says.asks] using h

/-- A request of station 13 with tag 0x77, delivered to a station, is the one to take next. -/
abbrev asksFor (b : ReqBody) (s : Station) : Prop := Machine.isNext (asked 13 0x77 b s) 13 0x77 b = true

def unhomed : Station := withMotion (fun m => { m with homed := ⟨true, true, true, true, false⟩ }) act
def changer : Station := changing .claiming .none
def filled : Station := running .arm .running (List.replicate 16 move1) act

/-- The station asked for a MOVE within its HOME zone and one out of it, for a TOUCH at either end of its ranges, for a HOME of each channel, and for
an INDEX at either end of its ranges. -/
def askers : List Station :=
  [ReqBody.move home1 1 1, .move far1 500 0, .touch ⟨home1, ⟨1, 0, 0⟩, 50, 50, 5, 1⟩, .touch ⟨home1, ⟨0, 0, 1⟩, 1000, 2000, 200, 500⟩, .home 0,
    .home 1, .index 0 (-24), .index 14 24].map (fun b => asked 13 0x77 b act)

theorem test_witness_MotionRequestsAreAccepted :
    (∀ b ∈ [ReqBody.move home1 1 1, .move far1 500 0, .touch ⟨home1, ⟨1, 0, 0⟩, 50, 50, 5, 1⟩, .touch ⟨home1, ⟨0, 0, 1⟩, 1000, 2000, 200, 500⟩,
      .home 0, .home 1, .index 0 (-24), .index 14 24], asksFor b act) ∧
    (∀ s ∈ askers, Says.gateOpen s ∧ (ownOf s).axes ≠ [] ∧ allHomed s = true ∧ Says.roomOn s .arm ∧ Says.roomOn s .head ∧ Says.allIdle s ∧
      (mounted s = some 1 ∧ (probeRec (tabs s) 1).cond = .usable ∧ currentEntry s (indexFooting s) = some testTip) ∧
      (chanAxes s .arm ≠ [] ∧ chanAxes s .head ≠ []) ∧
      (∀ k ∈ [SegKind.traverse home1, .traverse far1, .touch ⟨home1, ⟨1, 0, 0⟩, 50, 50, 5, 1⟩, .touch ⟨home1, ⟨0, 0, 1⟩, 1000, 2000, 200, 500⟩,
        .index 0 (-24), .index 14 24], limitsHold s (tipOffset s (indexFooting s)) k = true ∧ zonesAllowed s k = true) ∧
      holdsAll s (zoneSetFrom s (currentTip s) (clearance s) (.traverse home1)) = true ∧
      holdsAll s (zoneSetFrom s (currentTip s) (clearance s) (.traverse far1)) = false ∧ controlHeld s.line < 7) ∧
    (Says.roomOn (running .arm .running (List.replicate 15 move1) act) .arm ∧ movingState ChanState.running = true) := by
  unfold Says.gateOpen Says.roomOn Says.allIdle; decide +kernel

/-- A TOUCH with no point entry free, and a segment that leads while another request comes. -/
theorem test_witness_requests_wait :
    (∀ p ∈ ({ act with touch := { act.touch with points := List.replicate 24 .reserved } } : Station).touch.points, p ≠ .free) ∧
    Says.leadWaits (running .head .waitZone [{ seg 0 (.index 3 0) with zoneSet := some 4 }] act) .head :=
  ⟨by decide +kernel, .inr (by decide +kernel), _, rfl, by decide +kernel, fun d h hd hh => by
    cases d
    · exact nomatch hh
    · exact absurd rfl hd⟩

/-- Each reason of a MOVE in turn, and one of each of the others. -/
theorem test_witness_MotionRequestsAreRefused :
    (∀ s ∈ [joiningStn, parkedStn, changer, act, unhomed, running .arm .halted [] act, filled],
      asksFor (.move home1 501 0) s) ∧
    ¬ (serving joiningStn = true ∧ (rosterEntry (tabs joiningStn) (me joiningStn)).state = .active) ∧
    (serving parkedStn = true ∧ (rosterEntry (tabs parkedStn) (me parkedStn)).state = .active ∧ parkedStn.loader.mode = .parked) ∧
    (serving changer = true ∧ changer.loader.mode ≠ .parked ∧ changer.change.state ≠ .idle) ∧
    (∀ s ∈ [act, unhomed, running .arm .halted [] act, filled], Says.gateOpen s ∧ (ownOf s).axes ≠ []) ∧
    (allHomed unhomed = false ∧ takesSegment (running .arm .halted [] act).motion.arm.state = false ∧
      16 ≤ filled.motion.arm.queue.length ∧ takesSegment filled.motion.arm.state = true ∧ Says.roomOn act .arm) ∧
    limitsHold act (tipOffset act (indexFooting act)) (.traverse ⟨60000001, 0, 0⟩) = false ∧
    (limitsHold act (tipOffset act (indexFooting act)) (.traverse ⟨50000000, 0, 0⟩) = true ∧ zonesAllowed act (.traverse ⟨50000000, 0, 0⟩) = false) ∧
    firstFailing (touchChecks act { touch0 with approach := 49 }) = some .badArg ∧ firstFailing (homeChecks act (homeChan 2)) = some .badArg ∧
    firstFailing (indexChecks act 15 0) = some .badArg := by
  unfold Says.gateOpen Says.roomOn; decide +kernel

/-- A reason of each list of R160, R161, R164, R122 and R162. -/
theorem test_witness_reasons :
    Says.firstOf (Says.touchList act { touch0 with approach := 49 }) 5 ∧ Says.firstOf (Says.homeList act 2) 5 ∧
    Says.firstOf (Says.indexList parkedStn 0 0) 2 ∧ Says.firstOf (Says.changeList joiningStn 2) 1 ∧
    Says.firstOf (Says.qualifyList changer 1 1 1 testTip) 3 ∧ Says.firstOf (Says.parkList unhomed) 7 :=
  ⟨.inr ⟨by decide +kernel, .inr ⟨by decide +kernel, .inr ⟨by decide +kernel, .inl ⟨by decide +kernel, rfl⟩⟩⟩⟩,
    .inr ⟨by decide +kernel, .inr ⟨by decide +kernel, .inr ⟨by decide +kernel, .inl ⟨by decide +kernel, rfl⟩⟩⟩⟩,
    .inr ⟨by decide +kernel, .inl ⟨by decide +kernel, rfl⟩⟩, .inr ⟨by decide +kernel, .inl ⟨by decide +kernel, rfl⟩⟩,
    .inr ⟨by decide +kernel, .inr ⟨by decide +kernel, .inl ⟨by decide +kernel, rfl⟩⟩⟩,
    .inr ⟨by decide +kernel, .inr ⟨by decide +kernel, .inr ⟨by decide +kernel, .inr ⟨by decide +kernel, .inl ⟨by decide +kernel, rfl⟩⟩⟩⟩⟩⟩

def failedArm : Station := withMotion (fun m => { m with arm := ⟨.stalled, [], some .driveFault⟩, fault := ⟨true, false, false, false, false⟩ }) act

theorem test_witness_HaltAndClear :
    (∀ n ∈ [0, 1, 2, 3, 4], asksFor (.halt n) filled ∧
      asksFor (.clear n) failedArm) ∧
    (filled.change.state = .idle ∧ filled.change.failing = none ∧ filled.motion.arm.queue ≠ [] ∧ filled.motion.arm.state = .running) ∧
    (ChanId.arm ∈ selected 1 ∧ ChanId.arm ∉ selected 2 ∧ ChanId.head ∈ selected 3) ∧
    (fromSequencer move1 = false ∧ waitingState (running .arm .waitZone [move1] act).motion.arm.state = true) ∧
    (changer.change.failing = none ∧ changer.change.heldSeen = false ∧ changer.motion.arm.queue = [] ∧ changer.motion.head.state = .idle) ∧
    (failedArm.request.restartPending = false ∧ leaving.request.restartPending = true ∧ changer.change.state ≠ .idle) ∧
    ((chan failedArm .arm).state = .stalled ∧ channelFault failedArm .arm = true) ∧
    (channelFault (withMotion (fun m => { m with fault := .all false }) failedArm) .arm = false) ∧
    (∀ c ∈ selected 3, clearRefused act c = false) := by
  decide +kernel

def asked2 : Station := asked 13 0x77 (.change 2) act

theorem test_witness_ChangeAndQualify :
    (asksFor (.change 2) act ∧ asked2.request.restartPending = false ∧ serving asked2 = true ∧
      (rosterEntry (tabs asked2) (me asked2)).state = .active ∧ asked2.loader.mode ≠ .parked ∧ isArm asked2 = true ∧ inUse (cellOf asked2) 2 = true ∧
      asked2.change.state = .idle ∧ Says.allIdle asked2 ∧ allHomed asked2 = true ∧ rosterState (tabs asked2) (cellOf asked2).rackStation = .active ∧
      (probeRec (tabs asked2) 2).custody = .port 1 ∧ (portEntry (tabs asked2) 1).state = .occupied 2 ∧
      meets (routeSet asked2 (depositPlan asked2) 2 1) (othersHomeMask (cellOf asked2) (me asked2)) = false ∧
      withinLimits asked2 .a (cellOf asked2).rackA = true ∧ withinLimits asked2 .b (cellOf asked2).rackB = true) ∧
    (∀ m pm, depositPlan asked2 = some (m, pm) → (portEntry (tabs asked2) pm).state = .empty) ∧
    firstFailing (changeChecks act 3) = some .probeNotInRack ∧
    (firstFailing (qualifyChecks act 1 1 1 testTip) = none ∧ firstFailing (qualifyChecks act 1 1 6 testTip) = none ∧
      firstFailing (qualifyChecks act 1 1 7 testTip) = some .badArg ∧ headTemp act = some 510) :=
  ⟨by unfold Says.allIdle; decide +kernel, by
      have h : depositPlan asked2 = some (1, 2) := by decide +kernel
      intro m pm hm
      rw [h] at hm
      cases hm
      decide +kernel, by decide +kernel, by decide +kernel⟩

theorem test_witness_ParkAndUnpark :
    (∀ s ∈ [act, parkedStn, unhomed], asksFor .park s ∧ asksFor .unpark s) ∧
    (firstFailing (parkChecks act) = none ∧ act.loader.mode = .active ∧ firstFailing (parkChecks parkedStn) = none ∧
      parkedStn.loader.mode = .parked ∧ firstFailing (parkChecks unhomed) = some .notHomed) ∧
    (maskLess (heldHere act) (homeMask (cellOf act) (me act)) = 0#32 ∧
      maskLess (heldHere mixed) (homeMask (cellOf mixed) (me mixed)) ≠ 0#32 ∧ firstFailing (parkChecks mixed) = none) ∧
    (serving joiningStn = false ∧ joiningStn.request.restartPending = false ∧ leaving.request.restartPending = true ∧ (ownOf rackStn).axes = []) ∧
    (channelFault failedArm .arm = true ∧ channelFault failedArm .head = false) := by decide +kernel

theorem test_witness_StatusRestartUnknown :
    (∀ n ∈ [0, 1, 2, 3], asksFor (.status n) act) ∧
    (act.line.lineCount = some 100 ∧ joiningStn.line.lineCount = none ∧
      asksFor (.status 0) joiningStn) ∧
    (∀ g ∈ [0x6C39, 0], asksFor (.restart g) act) ∧ act.request.restartPending = false ∧
    (leaving.request.restartPending = true ∧ asksFor (.restart 0) leaving) ∧
    asksFor (.unknown 13 []) act := by decide +kernel

/-! ### Motion, the trigger and the segments -/

/-- A TOUCH of ARM in a phase, moving. -/
def touching (ph : Phase) (credit : Bool) : Station := running .arm .running [{ touch1 with phase := ph, credit := credit }] act

def headMoving : Station := running .head .running [seg 2 (.index 3 0)] act

theorem test_witness_TouchSequence :
    (∀ cr ∈ [true, false], (touching .approach cr).motion.arm.state = .running ∧ (touching .approach cr).motion.arm.queue ≠ [] ∧
      isTouchSeg touch1 = true) ∧
    (mounted act = some 1 ∧ (probeRec (tabs act) 1).cond = .usable ∧
      currentEntry (readEncoders (touching .approach true) atStop) (headIndex (readEncoders (touching .approach true) atStop)) = some testTip) ∧
    currentEntry (readEncoders (touching .approach true) ⟨0, 0, 0, 5, 0⟩) (headIndex (readEncoders (touching .approach true) ⟨0, 0, 0, 5, 0⟩)) = none ∧
    (Says.noChange act ∧ act.motion.head.queue = [] ∧ act.loader.held = false ∧ act.pins.trigger = false ∧
      movingState act.motion.head.state = false ∧ movingState act.motion.arm.state = false) ∧
    (probingStn.motion.arm.queue = [probing1] ∧ probing1.phase = .probing ∧ probing1.credit = true ∧
      movingState probingStn.motion.arm.state = true ∧ probing1.origin = .request 0x77 ∧ mounted probingStn = some 1 ∧
      tipAt probingStn 1 (0, 0) = some testTip) ∧
    (movingState (touching (.retract true) false).motion.arm.state = true ∧ movingState (touching (.retract false) false).motion.arm.state = true) ∧
    movingState headMoving.motion.head.state = true ∧ (State.reset.stn.pins.trigger = false ∧ State.reset.stn.loader.held = true) := by
  unfold Says.noChange; decide +kernel

/-- A TOUCH that waits for an entry, its whole box within zones held, and one whose box is not. -/
def waitingCredit (v : Vec3) : Station := running .arm .waitCredit [seg 1 (.touch { touch0 with target := v })] act

theorem test_witness_SegmentsRun :
    (∀ v ∈ [home1, far1], (waitingCredit v).motion.arm.state = .waitCredit ∧ (waitingCredit v).motion.arm.queue.head?.map (·.credit) = some false ∧
      movingState (waitingCredit v).motion.head.state = false ∧ (∀ h ∈ (waitingCredit v).motion.head.queue, 1 ≤ h.acc) ∧
      (∃ e ∈ (waitingCredit v).touch.points, e = .free) ∧ allHomed (waitingCredit v) = true ∧
      limitsHold (waitingCredit v) (tipOffset act (headIndex act)) (.touch { touch0 with target := v }) = true ∧
      meets (zoneSetFrom act (currentTip act) (clearance act) (.touch { touch0 with target := v })) (othersHomeMask testCell 3) = false) ∧
    (holdsAll act (zoneSetFrom act (currentTip act) (clearance act) (.touch { touch0 with target := home1 })) = true ∧
      holdsAll act (zoneSetFrom act (currentTip act) (clearance act) (.touch { touch0 with target := far1 })) = false) ∧
    (∀ e ∈ ({ act with touch := { act.touch with points := List.replicate 24 .reserved } } : Station).touch.points, e ≠ .free) ∧
    (holdsAll act 0x4 = true ∧ holdsAll act 0x14 = false ∧ (running .arm .waitZone [{ move1 with zoneSet := some 0x4 }] act).motion.arm.state = .waitZone) ∧
    (segmentEnds (running .arm .running [move1] act) .arm move1 = true ∧
      segmentEnds (running .arm .running [{ touch1 with phase := .retract true }] act) .arm { touch1 with phase := .retract true } = true ∧
      segmentEnds homingStn .arm { seg 1 .home with marks := .all true } = true) ∧
    (homingStn.motion.arm.state = .running ∧ declared act .x = true ∧ declared act .b = true ∧ chanOf .x = .arm ∧ chanOf .b = .head) ∧
    (limitsHold act (tipOffset act (headIndex act)) move1.kind = true ∧ (running .head .waitTurn [seg 2 (.index 3 0)] act).motion.head.state = .waitTurn ∧
      meets (zoneSetFrom act (currentTip act) (clearance act) move1.kind) (othersHomeMask testCell 3) = false ∧
      limitsHold act (tipOffset act (headIndex act)) (.index 3 0) = true ∧
      meets (zoneSetFrom act (currentTip act) (clearance act) (.index 3 0)) (othersHomeMask testCell 3) = false) ∧
    ((running .arm .stopping [move1] act).motion.arm.state = .stopping ∧ move1.quietStop = false ∧ move1.origin = .request 0x77 ∧
      isTouchSeg move1 = false ∧ act.motion.head.queue = []) := by decide +kernel

theorem test_witness_FaultsStall :
    (act.loader.held = false ∧ declared act .x = true ∧ declared act .b = true ∧ declared rackStn .x = false ∧ Station.reset.loader.held = true) ∧
    (enabledState (chan act .arm).state = true ∧ enabledState (chan parkedStn .arm).state = false ∧ Says.noChange act ∧ (chan act .head).queue = []) ∧
    (faultStn.motion.filter.get .x = some 9999 ∧ faultStn.motion.filter.get .y = none ∧ faultStn.pins.driveFault.get .x = true ∧
      act.pins.driveFault.get .x = false) := by
  unfold Says.noChange; decide +kernel

/-! ### The rack, the change and the timers -/

theorem test_witness_RackLocksAndReports :
    (∀ p ∈ [1, 2, 12], at1 rackStn.pins.presence false p ≠ true) ∧
    (isRack rackStn = true ∧ listening rackStn = true ∧ configured (cellOf rackStn) 2 = true ∧ configured (cellOf rackStn) 12 = false ∧
      isRack act = false) ∧
    ((rackPort lockingStn 2).lockDue = some 10200 ∧ (rackPort lockingStn 1).lockDue = none ∧ rackWorks lockingStn = true ∧
      controlHeld lockingStn.line < 7 ∧ 7 ≤ controlHeld (keeping 7).line) ∧
    rackWorks { lockingStn with loader := { lockingStn.loader with mode := .joining } } = false := by decide +kernel

def engaging : Station := withChange (fun c => { c with couplingWait := some 10500 }) (changing .engage .coupling)

/-- The change with a segment of the sequencer running on a channel. -/
def legRunning (c : ChanId) (k : SegKind) (s : Station) : Station := running c .running [auto (c == .arm) k] s

theorem test_witness_ChangeGoesOn :
    (inserting.loader.held = false ∧ inserting.change.failing = none ∧ inserting.change.leg = .coupling ∧ inserting.change.state = .insert ∧
      inserting.change.deposit = some (1, 2) ∧ Says.armFree inserting (enterPoint inserting 2)) ∧
    (engaging.change.state = .engage ∧ engaging.change.leg = .coupling ∧ Says.armFree engaging (enterPoint engaging engaging.change.pt)) ∧
    (inserting.change.couplingWait = some 10500 ∧ unlocking.change.unlockWait = some 11000 ∧ confirming.change.confirmWait = some 11000 ∧
      Says.allIdle inserting ∧ Says.allIdle unlocking ∧ Says.allIdle confirming) ∧
    ((legRunning .head (.index 0 0) changer).motion.head.queue = [auto false (.index 0 0)] ∧
      (legRunning .head (.index 0 0) changer).change.state = .claiming ∧ rosterState (tabs changer) (cellOf changer).rackStation = .active ∧
      (withChange (fun c => { c with deposit := none }) changer).change.deposit = none) ∧
    ((legRunning .arm (.armTraverse ⟨22000000, 0, 2000000⟩) (changing .engage .retract)).motion.arm.queue =
        [auto true (.armTraverse ⟨22000000, 0, 2000000⟩)] ∧
      (changing .engage .retract).change.leg = .retract) := by
  unfold Says.armFree Says.allIdle; decide +kernel

/-- The change on its way to a seat, in its reservation, at its unlocking and at its take. -/
def seating (leg : Leg) : Station := legRunning .arm (.armTraverse ⟨22000000, 0, 2000000⟩) (changing .engage leg)
def reserving : Station := changing .reservePickup .none
def taking : Station := withTabs (port 1 ⟨.reserved 3 .pickup 2, .present, .unlocked, some 0x2222, false, 0⟩) (changing .confirmTake .done)

theorem test_witness_ChangeIsConfirmed :
    (∀ l ∈ [Leg.toApproach, .toSeat], (seating l).motion.arm.state = .running ∧ (seating l).change.leg = l ∧ (seating l).change.failing = none ∧
      movingState (seating l).motion.head.state = false ∧
      Says.armMayGo (seating l) (seatOf (seating l) 1) ∧ Says.armMayGo (seating l) (enterPoint (seating l) 1)) ∧
    (Says.takes reserving ⟨hd 3, .portReserve 1 .pickup 2⟩ 100 ∧ Says.passes reserving (hd 3) ∧ me reserving = 3 ∧
      reserving.change.pt = 1 ∧ reserving.change.t = 2 ∧ reserving.line.control = [] ∧ Says.allIdle reserving) ∧
    (Says.takes unlocking ⟨hd 1, .portState 1 true .unlocked (some 0x2222)⟩ 100 ∧ configured (cellOf unlocking) 1 = true ∧
      (portEntry (tabs unlocking) 1).state = .reserved 3 .pickup 2 ∧ Says.armFree unlocking (enterPoint unlocking 1)) ∧
    (Says.takes taking ⟨hd 3, .probeTake 2 1 (some 0x2222)⟩ 100 ∧ taking.change.t = 2 ∧ taking.change.pt = 1 ∧ Says.allIdle taking ∧
      taking.change.haltOwed = false) := by
  unfold Says.armMayGo Says.armFree Says.allIdle Says.takes Says.passes; decide +kernel

/-- R125, R126: the own PORT_RESERVE, in flight as it completes, brings the unlock wait; the own PROBE_TAKE ends the change. -/
theorem test_reserve_from_flight : after (.portReserve (hd 3) 1 .pickup 2)
    (withLine (fun l => { l with flight := some (onLine ⟨0, .portReserve 1 .pickup 2⟩) }) reserving)
    (fun t => t.change.state == .unlockPickup && t.change.unlockWait == some 11000) = true := by decide +kernel

theorem test_take_ends_change : after (.probeTake (hd 3) 2 1 (some 0x2222)) taking (fun t => t.change.state == .idle &&
    t.change.lastFailure.isNone && t.line.report.map (·.body) == [.event (eventBody 0 (.changeDone 0x77 2))]) = true := by decide +kernel

/-- A point, the inputs at 20 degrees, at the plausible band and beyond it, the joining timers. -/
theorem test_witness_TimersRunOut :
    (PointEntry.pending data0 ∈ pendingStn.touch.points ∧
      (pendingStn.touch.points.all (fun e => match e with | .pending d => d == data0 | _ => true)) = true) ∧
    (act.thermal.sampleDue = some 10050 ∧ act.thermal.inputs.length = 8 ∧ inputKind act 1 ≠ none ∧ inputKind act 8 = none) ∧
    (inRange 921600000 = true ∧ inRange 921599999 = false ∧ inRange 1232400000 = true ∧ inRange 1232400001 = false) ∧
    (deviation 1077935000 = 0 ∧ (deviation 1093468000).natAbs ≤ testCell.plausible ∧ testCell.plausible < (deviation 1093469000).natAbs) ∧
    (act.thermal.periodDue = some 10200 ∧ act.line.thermal = none ∧ queued.line.thermal = some slot1) ∧
    (waitingStn.replica.formWait = some 11000 ∧ joiningMode waitingStn = true ∧ (tabs waitingStn).cell.formed = false ∧
      waitingStn.replica.cellExists = false ∧ waitingStn.replica.snapBeginSeen = false) ∧
    (waitingStn.replica.joinRetry = some 11500 ∧ waitingStn.replica.abandoned = false ∧ waitingStn.replica.service = none ∧
      served.replica.service ≠ none ∧ hopeful.replica.cellExists = true) := by decide +kernel

/-! ### The chapters' worked sequences -/

/-- An input after a run of samples. -/
def sampled (i : ThermInput) (l : List Sample) : ThermInput := l.foldl takeSample i

/-- Section 5.2, at s9, s15, s18 and s19: window, counts, state and value. -/
def in52 : ThermInput := ⟨List.replicate 8 1200, 8, 0, 8, .valid⟩
def to9 : ThermInput := sampled in52 (.fault :: List.replicate 8 (.accepted 1210))
def to15 : ThermInput := sampled to9 [.outside, .accepted 1212, .outside, .outside, .outside, .outside]
def to18 : ThermInput := sampled to15 (List.replicate 3 (.accepted 1230))

theorem test_sequence_5_2 :
    sampled in52 (.fault :: List.replicate 7 (.accepted 1210)) = ⟨List.replicate 7 1210, 7, 0, 7, .opened⟩ ∧
    to9 = ⟨List.replicate 8 1210, 8, 0, 8, .valid⟩ ∧ to15 = ⟨List.replicate 7 1210 ++ [1212], 8, 4, 0, .excursion⟩ ∧
    inputValue to15 = 1210 ∧ to18.state = .excursion ∧ inputValue to18 = 1218 ∧
    takeSample to18 (.accepted 1230) = ⟨[1210, 1210, 1210, 1212, 1230, 1230, 1230, 1230], 8, 0, 4, .valid⟩ ∧
    inputValue (takeSample to18 (.accepted 1230)) = 1220 := by decide +kernel

/-- Section 5.5: the board of stations 5 and 6 at 12000, 12001 and 12002, and after the SILENCE of station 5 at 12240. -/
def part (k i : Nat) (v : Int) (st : ThermState) : BoardEntry := ⟨k, i, .part, v, st, false, 0⟩
def board55 : Replica := { testTables with
  roster := testTables.roster.set 4 (arrived .active)
  board := [part 5 1 4210 .valid, part 5 2 3875 .valid, part 5 3 4602 .valid, part 5 4 3120 .valid, part 6 1 2950 .valid, part 6 2 3300 .valid] }
def placed55 (lc k : Nat) (es : List (Int × ThermState)) (r : Replica) : Replica :=
  derive { testCell with gradient := 1500 } { r with
    board := placeThermal lc k (es.mapIdx (fun i e => ⟨i + 1, .part, e.1, e.2⟩)) r.board }
def at12002 : Replica := placed55 12002 5 [(4180, .valid), (3850, .valid), (4570, .valid), (3105, .valid)]
  (placed55 12001 6 [(3010, .valid), (0, .opened)] board55)

theorem test_sequence_5_5 :
    (derive { testCell with gradient := 1500 } board55).partTemp = some 3676 ∧
    (placed55 12001 6 [(3010, .valid), (0, .opened)] board55).partTemp = some 3763 ∧ at12002.partTemp = some 3743 ∧ at12002.gradient = true ∧
    (derive { testCell with gradient := 1500 } { at12002 with board := excludeEntries 12240 5 at12002.board }).partTemp = some 3010 := by
  decide +kernel

/-- Section 7.6: the stale check of probe 9 through its readings of the HEAD input. -/
def head76 (v : Int) (st : ThermState) : Option BoardEntry := some ⟨2, 4, .head, v, st, false, 0⟩
def probe9 : ProbeRec := ⟨.station 2, .usable, 0, 0, some 1450, [testTip, { testTip with b := 12 }, { testTip with b := -12 }], 40137⟩
def drift (l : List (Int × ThermState)) : ProbeRec :=
  l.foldl (fun e h => checkStale { testCell with staleBand := 1000 } (head76 h.1 h.2) e) probe9

theorem test_sequence_7_6 :
    ((drift [(2300, .valid)]).staleRun = 0 ∧ (drift [(2300, .valid), (2500, .valid), (2520, .valid)]).staleRun = 2 ∧
      (drift [(2300, .valid), (2500, .valid), (2520, .valid), (2440, .valid)]).staleRun = 0) ∧
    (drift [(2600, .valid), (2610, .valid), (0, .opened)]).staleRun = 2 ∧
    (drift [(2600, .valid), (2610, .valid), (0, .opened), (2650, .valid)]) =
      { probe9 with tips := [{ testTip with stale := true }, { testTip with b := 12, stale := true }, { testTip with b := -12, stale := true }] } := by
  decide +kernel

/-- Section 8.9: the station with the axes, the part reference and the board of the worked example, and its point. -/
def img89 : Image where
  cell := { testCell with partAlpha := 1200, partRef := ⟨20000000, 10000000, 5000000⟩ }
  own := { testOwn with axes :=
    [{ linAxis with origin := 1000000, alpha := 800 }, { linAxis with sign := -1, origin := 25000000, alpha := 800 },
      { linAxis with alpha := 1050 }] ++ testOwn.axes.drop 3 }
def scale89 (i : Nat) (k : ThermKind) (v : Int) (st : ThermState) : BoardEntry := ⟨3, i, k, v, st, false, 50214⟩
def stn89 (z : ThermState) : Station := { act with
  loader := { act.loader with image := img89 }
  replica := { act.replica with tables := { testTables with
    board := [scale89 1 .scaleX 1830 .valid, scale89 2 .scaleY 2110 .valid, scale89 3 .scaleZ 1960 z], partTemp := some 3622 } } }
def data89 : PointData :=
  ⟨117, 830, 50210, ⟨32456789, 8765432, 12000000, 6, 0⟩, 12, 1, 6, 0, ⟨1, 6, 0, ⟨1523400, -12050, -2187500⟩, 15000, false⟩, ⟨1, 0, 0⟩, false, 0⟩

theorem test_sequence_8_9 :
    correction (stn89 .valid) false data89 =
      ⟨⟨34979063, 16222396, 9812044⟩, some 1830, some 2110, some 1960, some 3622, ⟨false, false, false, false, false, false⟩⟩ ∧
    correction (stn89 .opened) false data89 =
      ⟨⟨34979063, 16222396, 9812291⟩, some 1830, some 2110, none, some 3622, ⟨true, false, false, false, false, false⟩⟩ := by decide +kernel

/-- Section 2.10: with 20 board entries and neither claims nor latches the snapshot holds 151 entries, a SNAP_BEGIN and a SNAP_END. -/
theorem test_sequence_2_10 :
    (snapFrames { testCell with ports := List.replicate 12 ⟨⟨0, 0, 0⟩, ⟨0, 0, 0⟩⟩ } ⟨{ testTables with board := List.replicate 20 (part 5 1 0 .valid) }, List.replicate 14 none, 4, 1, 5000, 0⟩).length =
      153 := by decide +kernel

/-- Section 1.11, steps 1 to 4: a POINT offered to 11 REPORT frames brings DRAIN; the head POINT is vetoed, then completes. -/
def burst : Station := lined [] none (List.replicate 10 ⟨13, .point pointBody0⟩ ++ [report1]) false 0
def burst1 : Station := { burst with line := enqueueReport burst.line ⟨13, .point pointBody0⟩ }

theorem test_sequence_1_11 :
    takesReport burst.line (.point pointBody0) = true ∧ burst1.line.drain = true ∧ reportFree burst1.line = 4 ∧
    arbiterPick (enqueueControl burst1.line control1) 10000 250 = some .report ∧
    (after .vetoWindowVetoed { burst1 with line := { burst1.line with
        control := [control1], report := burst1.line.report.drop 1, flight := some (onLine ⟨13, .point pointBody0⟩) } }
      (fun t => t.line.report == burst1.line.report && t.line.retry == 1 && t.line.drain) = true) ∧
    (after (.point { hd 3 with dest := 13 } pointBody0) { burst1 with line := { burst1.line with
        control := [control1], report := burst1.line.report.drop 1, flight := some (onLine ⟨13, .point pointBody0⟩), retry := 1 } }
      (fun t => reportHeld t.line == 11 && t.line.retry == 0 && t.line.runCount == 1 && t.line.drain) = true) := by decide +kernel

end Sys2Proof.Tests
end

section
/-! The commands as changes of the station: what `exec` and `step` come to, the frame that a completed frame brings, and what a
request does before it is answered. -/

namespace Sys2Proof.CellLine

open Sys2Proof Sys2Proof.Machine Sys2Proof.Laws

/-- What a command does to the station, as `exec` answers it. -/
def effect (c : Instr) (s : Station) : Station :=
  match exec c ⟨s, []⟩ with
  | .next t => t.stn
  | _ => s

theorem exec_effect (c : Instr) (s : State) : exec c s = .next { s with stn := effect c s.stn } := by
  cases c <;> rfl

/-- A step passes 1 ms or is the effect of one command. -/
theorem step_cases {s t : State} (h : step s = .next t) :
    t.stn = { s.stn with now := s.stn.now + 1 } ∨ ∃ c, t.stn = effect c s.stn := by
  unfold step at h
  split at h
  · cases h
    exact .inl rfl
  · rw [exec_effect] at h
    cases h
    exact .inr ⟨_, rfl⟩

/-- What idling and every command keep, every step keeps. -/
theorem step_keeps {P Q : Station → Prop} (hidle : ∀ s, P s → Q { s with now := s.now + 1 }) (heffect : ∀ c s, P s → Q (effect c s))
    {s t : State} (hs : P s.stn) (h : step s = .next t) : Q t.stn := by
  rcases step_cases h with ht | ⟨c, ht⟩
  · exact ht ▸ hidle _ hs
  · exact ht ▸ heffect c _ hs

/-! ### Completed frames -/

/-- The station with what the command of a completed frame brings with it: nothing, the counts found at a start, or the straps
read at a restart. -/
inductive Readied (s : Station) (f : Frame) : Station → Prop
  | plain : Readied s f s
  | counts (enc : Counts) : Readied s f (countsForStart s f enc)
  | straps (n : Nat) : Readied s f (strapsForRestart s f n)

theorem effect_frame {c : Instr} {f : Frame} (h : Says.frameOf c = some f) (s : Station) :
    ∃ u, Readied s f u ∧ effect c s = completeFrame u f := by
  cases c
  case form => cases h; exact ⟨_, .counts _, rfl⟩
  case snapEnd => cases h; exact ⟨_, .counts _, rfl⟩
  case answer => cases h; exact ⟨_, .straps _, rfl⟩
  all_goals cases h
  all_goals exact ⟨_, .plain, rfl⟩

theorem readied_same {s u : Station} {f : Frame} (h : Readied s f u) : Same s u := by
  cases h with
  | plain => exact Same.refl s
  | counts enc => exact same_if (readEncoders_same s enc) (Same.refl s)
  | straps n => exact same_if (same_pins rfl rfl) (Same.refl s)

theorem readied_loader {s u : Station} {f : Frame} (h : Readied s f u) : u.loader = s.loader := by
  cases h with
  | plain => rfl
  | counts enc => unfold countsForStart; split <;> rfl
  | straps n => unfold strapsForRestart; split <;> rfl

/-! ### Requests -/

/-- The request that a command takes: its station, tag and body, and the encoder counts it brings. -/
def asks : Instr → Option (Nat × Code × ReqBody × Option Counts)
  | .move src tag target speed recovery enc => some (src, tag, .move target speed recovery, some enc)
  | .touch src tag t enc => some (src, tag, .touch t, some enc)
  | .home src tag channel enc => some (src, tag, .home channel, some enc)
  | .index src tag a b enc => some (src, tag, .index a b, some enc)
  | .halt src tag sel enc => some (src, tag, .halt sel, some enc)
  | .clear src tag sel enc => some (src, tag, .clear sel, some enc)
  | .change src tag probe enc => some (src, tag, .change probe, some enc)
  | .qualify src tag probe i n tip => some (src, tag, .qualify probe i n tip, none)
  | .park src tag enc => some (src, tag, .park, some enc)
  | .unpark src tag enc => some (src, tag, .unpark, some enc)
  | .status src tag page => some (src, tag, .status page, none)
  | .restart src tag guardCode => some (src, tag, .restart guardCode, none)
  | .unknownRequest src tag code args => some (src, tag, .unknown code args, none)
  | _ => none

/-- The station that has taken the request at the head of its list, the counts read where the command brings them. -/
def taking (s : Station) : Option Counts → Station
  | none => takeRequest s
  | some enc => takeRequest (readEncoders s enc)

/-- All that a request can do at a station before its ANSWER: nothing where it is refused, or the effect of one that its checks let
through (R160 to R164). -/
inductive Asked (s : Station) : Station → Prop
  | refused : Asked s s
  | segment (c : ChanId) (k : SegKind) (tag : Code) (recovery : Bool) (speed : Nat) (room : (chan s c).queue.length < 16)
      (takes : takesSegment (chan s c).state = true) (kind : c = .head → ∀ a, k ≠ .touch a) : Asked s (takeSegment c k tag recovery speed s)
  | halts (cs : List ChanId) : Asked s (haltAll s cs)
  | clears (cs : List ChanId) : Asked s (chooseLead (cs.foldl clearChan s))
  | parks (tests : firstFailing (parkTests s) = none) : Asked s (park s)
  | unparks (parked : parkedMode s = true) : Asked s (unpark s)
  | changes (tag : Code) (t pt : Nat) (deposit : Option (Nat × Nat)) : Asked s (startChange s tag t pt deposit)
  | qualifies (x i n : Nat) (t : Tip) (room : controlHeld s.line + (if i = n then 2 else 1) ≤ 7) : Asked s (offerQualification x i n t s)
  | reads (k : Nat) : Asked s (clearLosses { s with freeUsed := k })
  | restarts : Asked s { s with request := { s.request with restartPending := true } }

/-- A request has its effect and is answered (R159). -/
def Answered (s t : Station) : Prop := ∃ u src a, Asked s u ∧ t = answer u src a

theorem answered_refuse (s : Station) (src : Nat) (tag : Code) (code : Nat) (r : Reason) : Answered s (refuse s src tag code r) :=
  ⟨s, src, _, .refused, rfl⟩

theorem answered_decide {s : Station} (src : Nat) (tag : Code) (code acc : Nat) {checks : List (Bool × Reason)} {act : Station → Station}
    (h : firstFailing checks = none → Asked s (act s)) : Answered s (decideRequest s src tag code acc checks act) := by
  cases hf : firstFailing checks with
  | some r => exact ⟨s, src, _, .refused, by rw [decide_some hf]; rfl⟩
  | none => exact ⟨act s, src, _, h hf, by rw [decide_none hf]; rfl⟩

/-- A segment whose list of checks holds those of the queue (checks 6 and 7 of R160). -/
theorem asked_segment {s : Station} {c : ChanId} {k : SegKind} {l : List (Bool × Reason)} (hf : firstFailing l = none)
    (hl : ∀ x ∈ queueChecks s c, x ∈ l) (kind : c = .head → ∀ a, k ≠ .touch a) (tag : Code) (recovery : Bool) (speed : Nat) :
    Asked s (takeSegment c k tag recovery speed s) :=
  .segment c k tag recovery speed (room_of_checks (c := c) hf (hl _ (by simp [queueChecks])))
    (firstFailing_none hf (takesSegment (chan s c).state, .busy) (hl _ (by simp [queueChecks]))) kind

theorem answered_move (s : Station) (src : Nat) (tag : Code) (t : Vec3) (speed recovery : Nat) :
    Answered s (requestMove s src tag t speed recovery) :=
  answered_decide _ _ _ _ fun hf => asked_segment (c := .arm) hf (fun x hx => by simp [moveChecks, hx]) (by simp) _ _ _

theorem answered_touch (s : Station) (src : Nat) (tag : Code) (t : TouchArgs) : Answered s (requestTouch s src tag t) :=
  answered_decide _ _ _ _ fun hf => asked_segment (c := .arm) hf (fun x hx => by simp [touchChecks, hx]) (by simp) _ _ _

theorem answered_home (s : Station) (src : Nat) (tag : Code) (n : Nat) : Answered s (requestHome s src tag n) := by
  refine answered_decide _ _ _ _ fun hf => ?_
  cases hc : homeChan n with
  | none =>
    rw [hc] at hf
    exact absurd (firstFailing_none hf (false, .badArg) (by simp [homeChecks])) (by decide)
  | some c =>
    rw [hc] at hf
    exact asked_segment (c := c) hf (fun x hx => by simp [homeChecks, hx]) (by simp) _ _ _

theorem answered_index (s : Station) (src : Nat) (tag : Code) (a : Nat) (b : Int) : Answered s (requestIndex s src tag a b) :=
  answered_decide _ _ _ _ fun hf => asked_segment (c := .head) hf (fun x hx => by simp [indexChecks, hx]) (by simp) _ _ _

theorem answered_clear (s : Station) (src : Nat) (tag : Code) (sel : Nat) : Answered s (requestClear s src tag sel) := by
  unfold requestClear
  split
  · exact answered_refuse _ _ _ _ _
  · simp only
    split
    · exact ⟨_, src, _, .clears _, rfl⟩
    · exact ⟨_, src, _, .clears _, rfl⟩

theorem answered_park (s : Station) (src : Nat) (tag : Code) : Answered s (requestPark s src tag) := by
  refine answered_decide _ _ _ _ fun hf => ?_
  split
  · exact .refused
  · rename_i hp
    refine .parks (firstFailing_all fun x hx => firstFailing_none hf x ?_)
    simp [parkChecks, hp, hx]

theorem answered_unpark (s : Station) (src : Nat) (tag : Code) : Answered s (requestUnpark s src tag) := by
  refine answered_decide _ _ _ _ fun hf => ?_
  split
  · rename_i hp
    exact .unparks hp
  · exact .refused

theorem answered_qualify (s : Station) (src : Nat) (tag : Code) (x i n : Nat) (t : Tip) : Answered s (requestQualify s src tag x i n t) := by
  refine answered_decide _ _ _ _ fun hf => .qualifies _ _ _ _ ?_
  have hroom := firstFailing_none hf (decide (controlHeld s.line + (if i = n then 2 else 1) ≤ Config.controlPlaces), .queueFull)
    (by simp [qualifyChecks])
  simpa [Config.controlPlaces] using hroom

theorem answered_status (s : Station) (src : Nat) (tag : Code) (page : Nat) : Answered s (requestStatus s src tag page) := by
  unfold requestStatus shownCount
  simp only
  split
  · cases s.line.lineCount <;> exact ⟨_, src, _, .reads _, rfl⟩
  · exact ⟨_, src, _, .reads s.freeUsed, rfl⟩
  · exact ⟨_, src, _, .reads s.freeUsed, rfl⟩
  · exact answered_refuse _ _ _ _ _

/-- A command that takes a request leaves the station as it is, or takes the request, has its effect and answers it (R158, R159). -/
theorem effect_request {c : Instr} {src : Nat} {tag : Code} {b : ReqBody} {enc : Option Counts} (h : asks c = some (src, tag, b, enc)) (s : Station) :
    effect c s = s ∨ (Machine.isNext s src tag b = true ∧ Answered (taking s enc) (effect c s)) := by
  have key : ∀ t, Answered (taking s enc) t → effect c s = (if Machine.isNext s src tag b = true then t else s) →
      effect c s = s ∨ (Machine.isNext s src tag b = true ∧ Answered (taking s enc) (effect c s)) := by
    intro t ht he
    rw [he]
    split
    · exact .inr ⟨‹_›, ht⟩
    · exact .inl rfl
  cases c
  case move => cases h; exact key _ (answered_move _ _ _ _ _ _) rfl
  case touch => cases h; exact key _ (answered_touch _ _ _ _) rfl
  case home => cases h; exact key _ (answered_home _ _ _ _) rfl
  case index => cases h; exact key _ (answered_index _ _ _ _ _) rfl
  case halt => cases h; exact key _ (answered_decide _ _ _ _ fun _ => .halts _) rfl
  case clear => cases h; exact key _ (answered_clear _ _ _ _) rfl
  case change => cases h; exact key _ (answered_decide _ _ _ _ fun _ => .changes _ _ _ _) rfl
  case qualify => cases h; exact key _ (answered_qualify _ _ _ _ _ _ _) rfl
  case park => cases h; exact key _ (answered_park _ _ _) rfl
  case unpark => cases h; exact key _ (answered_unpark _ _ _) rfl
  case status => cases h; exact key _ (answered_status _ _ _ _) rfl
  case restart => cases h; exact key _ (answered_decide _ _ _ _ fun _ => .restarts) rfl
  case unknownRequest => cases h; exact key _ (answered_refuse _ _ _ _ _) rfl
  all_goals cases h

end Sys2Proof.CellLine
end

section
/-! What every command keeps: the bounded stores (`Owing`), the table sizes (`Sized`), and the point list with the channels (`Goes`). -/

namespace Sys2Proof.CellLine

open Sys2Proof Sys2Proof.Machine Sys2Proof.Laws

/-! ### The bounded stores -/

theorem owing_readied {s u : Station} {f : Frame} (h : Readied s f u) (ho : Owing 0 s) : Owing 0 u := by
  cases h with
  | plain => exact ho
  | counts enc =>
    unfold countsForStart
    split
    · exact owing_readEncoders ho enc
    · exact ho
  | straps n =>
    unfold strapsForRestart
    split
    · exact owing_setStraps ho n
    · exact ho

theorem asked_owing {s u : Station} (h : Asked s u) (ho : Owing 1 s) : Owing 1 u := by
  cases h with
  | refused => exact ho
  | segment c k tag recovery speed room takes kind => exact (takeSegment_works _ _ _ _ _ _ room).owing ho
  | halts cs => exact (haltAll_works _ _).owing ho
  | clears cs => exact (Works.trans (foldl_works _ clearChan_works _ s) (chooseLead_works _)).owing ho
  | parks tests => exact owing_park ho
  | unparks parked => exact owing_unpark ho
  | changes tag t pt deposit => exact (startChange_works _ _ _ _ _).owing ho
  | qualifies x i n t room => exact (offerQualification_works _ _ _ _ _ room).owing ho
  | reads k => exact owing_clearLosses (owing_free ho k)
  | restarts => exact ⟨ho.line, ho.answers, ho.catchUp, ho.queues, ho.windows, ho.points, ho.events, ho.outRecord⟩

theorem answered_owing {s t : Station} (h : Answered s t) (ho : Owing 1 s) : Owing 0 t := by
  obtain ⟨u, src, a, hu, rfl⟩ := h
  exact owing_answer src a (asked_owing hu ho)

theorem owing_request {c : Instr} {src : Nat} {tag : Code} {b : ReqBody} {enc : Option Counts} (h : asks c = some (src, tag, b, enc))
    {s : Station} (ho : Owing 0 s) : Owing 0 (effect c s) := by
  rcases effect_request h s with he | ⟨hn, ha⟩
  · rw [he]; exact ho
  · refine answered_owing ha ?_
    cases enc with
    | none => exact owing_takeRequest hn ho
    | some enc => exact owing_takeRequest (s := readEncoders s enc) hn (owing_readEncoders ho enc)

theorem owing_effect (c : Instr) {s : Station} (ho : Owing 0 s) : Owing 0 (effect c s) := by
  cases hf : Says.frameOf c with
  | some f =>
    obtain ⟨u, hu, he⟩ := effect_frame hf s
    exact he ▸ owing_completeFrame (owing_readied hu ho) f
  | none =>
    cases hq : asks c with
    | some q => exact owing_request hq ho
    | none =>
      cases c
      case resetAssert => exact owing_holdInReset s
      case resetRelease n =>
        show Owing 0 (if _ then _ else _)
        split
        · exact owing_releaseReset (owing_setStraps ho n)
        · exact ho
      case imageReadComplete bytes =>
        show Owing 0 (if _ then _ else _)
        split
        · exact owing_loadImage ho bytes
        · exact ho
      case quietMomentContend => exact owing_contend ho
      case accessPrefixEnd others => exact owing_endPrefix ho others
      case frameReceived bytes => exact owing_receiveFrame ho bytes
      case vetoWindowVetoed => exact owing_windowVetoed ho
      case frameMalformed => exact owing_malformedFrame ho
      case controlFrameReoffer src => exact owing_reofferFrom src _ ho
      case pointFrameOffer => exact (offerPoints_works s).owing ho
      case eventFrameOffer => exact (offerEvents_works s).owing ho
      case snapFrameOffer => exact owing_offerSnapshots ho
      case creditReserve enc => exact owing_grantCredit enc ho
      case zonesHeldStart c => exact (startHeld_works s c).owing ho
      case triggerAssertion enc => exact owing_assertTrigger enc ho
      case approachEnd enc => exact owing_endApproach enc ho
      case touchMiss enc => exact owing_missTouch enc ho
      case segmentComplete c enc => exact owing_segmentDone c enc ho
      case stopEnd c enc => exact owing_stopDone c enc ho
      case homeMarkFound ax => exact owing_findMark ax ho
      case followingError ax enc => exact owing_followingStall ax enc ho
      case encoderQuadratureError ax enc => exact owing_quadratureError ax enc ho
      case driveFaultCounted ax enc => exact owing_countFault ax enc ho
      case driveFaultReleased ax => exact owing_releaseFault ax ho
      case presenceChange p present code => exact owing_presenceMoved p present code ho
      case lockDelayExpiry p => exact owing_lockDelayOver p ho
      case couplingSensorChange held code => exact owing_sensorMoved held code ho
      case couplingWaitExpiry => exact owing_couplingOver ho
      case unlockWaitExpiry => exact owing_unlockOver ho
      case confirmWaitExpiry => exact owing_confirmOver ho
      case lateTimerExpiry seq => exact owing_lateOver seq ho
      case thermalSample ohms => exact owing_sampleNow ohms ho
      case thermalPeriodExpiry => exact owing_periodOver ho
      case thermalAgeReached => exact owing_thermalAged ho
      case formWaitExpiry => exact owing_formWaitOver ho
      case joinRetryExpiry => exact owing_joinRetryOver ho
      case silenceLimitReached k => exact owing_silenceLimit k ho
      case outHoldOffExpiry n => exact owing_holdOffOver ho n
      case triggerRelease => exact owing_pins ho _
      case driveFaultAssertion ax => exact owing_assertFault ax ho
      all_goals simp [Says.frameOf, asks] at hf hq

/-! ### The tables and their sizes -/

theorem asked_same {s u : Station} (h : Asked s u) : Same s u := by
  cases h with
  | refused => exact Same.refl s
  | segment c k tag recovery speed room takes kind => exact (takeSegment_works _ _ _ _ _ _ room).same
  | halts cs => exact (haltAll_works _ _).same
  | clears cs => exact clearFold_same cs s
  | parks tests => exact park_same s
  | unparks parked => exact unpark_same s
  | changes tag t pt deposit => exact (startChange_works _ _ _ _ _).same
  | qualifies x i n t room => exact (offerQualification_works _ _ _ _ _ room).same
  | reads k => exact (same_free s k).trans (same_request _ _)
  | restarts => exact same_request s _

theorem taking_same (s : Station) (enc : Option Counts) : Same s (taking s enc) := by
  cases enc with
  | none => exact takeRequest_same s
  | some enc => exact (readEncoders_same s enc).trans (takeRequest_same _)

theorem request_same {c : Instr} {src : Nat} {tag : Code} {b : ReqBody} {enc : Option Counts} (h : asks c = some (src, tag, b, enc))
    (s : Station) : Same s (effect c s) := by
  rcases effect_request h s with he | ⟨-, u, src, a, hu, he⟩
  · rw [he]; exact Same.refl s
  · rw [he]; exact (taking_same s enc).trans ((asked_same hu).trans (answer_same u src a))

theorem grantCredit_same (s : Station) (enc : Counts) : Same s (grantCredit s enc) := by
  unfold grantCredit
  split
  · exact Same.refl s
  · split
    · exact (readEncoders_same s enc).trans ((setState_works _ _ _).same.trans (chooseLead_works _).same)
    · exact Same.refl s

theorem releaseFault_same (s : Station) (ax : Axis) : Same s (releaseFault s ax) :=
  (same_pins (p := { s.pins with driveFault := s.pins.driveFault.set false ax }) rfl rfl).trans (same_motion _ _)

/-- The commands besides completed frames that can start, restart or stop the station or its joining. -/
def startsOrStops : Instr → Bool
  | .resetAssert | .resetRelease _ | .imageReadComplete _ | .vetoWindowVetoed | .joinRetryExpiry | .outHoldOffExpiry _ => true
  | _ => false

theorem effect_same {c : Instr} (hf : Says.frameOf c = none) (hc : startsOrStops c = false) (s : Station) : Same s (effect c s) := by
  cases hq : asks c with
  | some q => exact request_same hq s
  | none =>
    cases c
    case quietMomentContend => exact contend_same s
    case accessPrefixEnd others => exact endPrefix_same s others
    case frameReceived bytes => exact receiveFrame_same s bytes
    case frameMalformed => exact malformedFrame_same s
    case controlFrameReoffer src => exact reofferFrom_same src _ s
    case pointFrameOffer => exact (offerPoints_works s).same
    case eventFrameOffer => exact (offerEvents_works s).same
    case snapFrameOffer => exact offerSnapshots_same s
    case creditReserve enc => exact grantCredit_same s enc
    case zonesHeldStart c => exact (startHeld_works s c).same
    case triggerAssertion enc => exact assertTrigger_same s enc
    case approachEnd enc => exact endApproach_same s enc
    case touchMiss enc => exact missTouch_same s enc
    case segmentComplete c enc => exact segmentDone_same s c enc
    case stopEnd c enc => exact stopDone_same s c enc
    case homeMarkFound ax => exact findMark_same s ax
    case followingError ax enc => exact followingStall_same s ax enc
    case encoderQuadratureError ax enc => exact quadratureError_same s ax enc
    case driveFaultCounted ax enc => exact countFault_same s ax enc
    case driveFaultReleased ax => exact releaseFault_same s ax
    case presenceChange p present code => exact presenceMoved_same s p present code
    case lockDelayExpiry p => exact lockDelayOver_same s p
    case couplingSensorChange held code => exact sensorMoved_same s held code
    case couplingWaitExpiry => exact couplingOver_same s
    case unlockWaitExpiry => exact unlockOver_same s
    case confirmWaitExpiry => exact confirmOver_same s
    case lateTimerExpiry seq => exact lateOver_same s seq
    case thermalSample ohms => exact sampleNow_same s ohms
    case thermalPeriodExpiry => exact periodOver_same s
    case thermalAgeReached => exact thermalAged_same s
    case formWaitExpiry => exact formWaitOver_same s
    case silenceLimitReached k => exact silenceLimit_same s k
    case triggerRelease => exact same_pins rfl rfl
    case driveFaultAssertion ax => exact assertFault_same s ax
    all_goals simp [Says.frameOf, asks, startsOrStops] at hf hq hc

theorem sized_setStraps {s : Station} (h : Sized s) (n : Nat) : Sized (setStraps s n) := Same.sized (same_pins rfl rfl) h

theorem sized_releaseReset {s : Station} (h : Sized s) : Sized (releaseReset s) :=
  sized_sampleStraps (Same.sized ((same_loader (s := s) (l := { s.loader with held := false, cause := .powerOn }) rfl).trans (same_motion _ _)) h)

theorem sized_holdOffOver {s : Station} (h : Sized s) (n : Nat) : Sized (holdOffOver s n) := by
  unfold holdOffOver
  split
  · exact h
  · split
    · exact sized_restart (sized_setStraps ((atDue_same s _).sized h) n) _
    · exact h

theorem sized_effect (c : Instr) {s : Station} (h : Sized s) : Sized (effect c s) := by
  cases hf : Says.frameOf c with
  | some f =>
    obtain ⟨u, hu, he⟩ := effect_frame hf s
    exact he ▸ sized_completeFrame ((readied_same hu).sized h) f
  | none =>
    cases hc : startsOrStops c with
    | false => exact (effect_same hf hc s).sized h
    | true =>
      cases c
      case resetAssert => exact sized_holdInReset h
      case resetRelease n =>
        show Sized (if _ then _ else _)
        split
        · exact sized_releaseReset (sized_setStraps h n)
        · exact h
      case imageReadComplete bytes =>
        show Sized (if _ then _ else _)
        split
        · exact sized_loadImage h bytes
        · exact h
      case vetoWindowVetoed => exact sized_windowVetoed h
      case joinRetryExpiry => exact sized_joinRetryOver h
      case outHoldOffExpiry n => exact sized_holdOffOver h n
      all_goals simp [startsOrStops] at hc

end Sys2Proof.CellLine
end

section
namespace Sys2Proof.CellLine

open Sys2Proof Sys2Proof.Machine Sys2Proof.Laws

/-! ### The point list and the channels -/

/-- Channels, points and mode as they were, and then a command of the units. -/
theorem goes_from {s u t : Station} (hl : u.loader = s.loader) (ha : u.motion.arm = s.motion.arm) (hh : u.motion.head = s.motion.head)
    (hp : u.touch.points = s.touch.points) (k : Goes u t) : Goes s t := by
  have h : Goes s u := goes_chan (off_congr hl).mp ha hh (by unfold reservedPoints; rw [hp])
  have hc : ∀ c, chan u c = chan s c := fun c => by cases c; exact ha; exact hh
  refine ⟨fun x => k.credits (h.credits x), fun x c g hr hg => ?_⟩
  have := k.starts (h.credits x) c g hr hg
  rwa [hc] at this

theorem firstFailing_bool {l : List (Bool × Reason)} (h : firstFailing l = none) {b : Bool} {r : Reason} (hm : (b, r) ∈ l) : b = true :=
  firstFailing_none h (b, r) hm

/-- Where the tests of PARK hold, both channels have nothing queued: IDLE or HALTED, or DISABLED without axes (R89). -/
theorem parkTests_empty {s : Station} (h : firstFailing (parkTests s) = none) (hc : CreditsOk s) (c : ChanId) : (chan s c).queue = [] := by
  have hst : (chan s c).state = .disabled ∨ (chan s c).state = .idle ∨ (chan s c).state = .halted := by
    by_cases hx : (ownOf s).axes.length = 0
    · obtain ⟨harm, hhead⟩ := hc.off (.inr (List.length_eq_zero_iff.mp hx))
      cases c
      · exact .inl harm
      · exact .inl hhead
    · unfold parkTests at h
      rw [if_neg hx] at h
      have hstill := firstFailing_bool h (List.mem_cons_self ..)
      simp only [Bool.and_eq_true, Bool.or_eq_true, beq_iff_eq] at hstill
      cases c
      · exact .inr hstill.1
      · exact .inr hstill.2
  rcases hst with hst | hst | hst <;> exact hc.empty c (by rw [hst]; rfl) (by rw [hst]; rfl)

theorem takeSegment_runs {s : Station} {c : ChanId} {k : SegKind} (tag : Code) (recovery : Bool) (speed : Nat)
    (ht : takesSegment (chan s c).state = true) (hk : c = .head → ∀ a, k ≠ .touch a) : Runs s (takeSegment c k tag recovery speed s) :=
  (enqueueSegment_runs _ _ _ _ _ _ ht hk).trans (chooseLead_runs _)

theorem offerQualification_goes (x i n : Nat) (t : Tip) (s : Station) : Goes s (offerQualification x i n t s) := by
  unfold offerQualification
  simp only
  split <;> exact goes_keep rfl rfl rfl

theorem asked_goes {s u : Station} (hl : s.loader.held = false) (h : Asked s u) : Goes s u := by
  cases h with
  | refused => exact Goes.refl s
  | segment c k tag recovery speed room takes kind => exact (takeSegment_runs tag recovery speed takes kind).goes
  | halts cs => exact (haltAll_runs s cs).goes
  | clears cs => exact ((foldl_runs _ clearChan_runs cs s).trans (chooseLead_runs _)).goes
  | parks tests => exact park_goes (parkTests_empty tests)
  | unparks parked => exact unpark_goes hl (by rw [show s.loader.mode = .parked by simpa [parkedMode] using parked]; decide)
  | changes tag t pt deposit => exact (startChange_runs _ _ _ _ _).goes
  | qualifies x i n t room => exact offerQualification_goes x i n t s
  | reads k => exact goes_keep rfl rfl rfl
  | restarts => exact goes_keep rfl rfl rfl

theorem answer_holds (s : Station) (src : Nat) (a : AnswerBody) (m : ZoneMask) : holdsAll (answer s src a) m = holdsAll s m := by
  have hline : (answer s src a).line.control = s.line.control ∧ (answer s src a).line.flight = s.line.flight := by
    unfold answer answerInto
    exact ⟨updateDrain_control _, (updateDrain_works _).flight⟩
  unfold holdsAll heldHere
  rw [releasing_congr hline.1 hline.2]
  rfl

theorem request_goes {c : Instr} {src : Nat} {tag : Code} {b : ReqBody} {enc : Option Counts} (h : asks c = some (src, tag, b, enc))
    (s : Station) : Goes s (effect c s) := by
  rcases effect_request h s with he | ⟨hn, u, src, a, hu, he⟩
  · rw [he]; exact Goes.refl s
  · have hheld : s.loader.held = false := by
      simp only [Machine.isNext, listening, Bool.and_eq_true, Bool.not_eq_true'] at hn
      exact hn.1.1
    have hu' : Goes (taking s enc) u := asked_goes (by cases enc <;> exact hheld) hu
    rw [he]
    refine goes_from ?_ ?_ ?_ ?_ (goes_fewer hu' rfl rfl rfl rfl fun m hm => (answer_holds u src a m).trans hm) <;> cases enc <;> rfl

theorem windowVetoed_goes (s : Station) : Goes s (windowVetoed s) := by
  unfold windowVetoed
  split
  · simp only
    split
    · exact enterOut_goes s _ _
    · split
      · exact enterOut_goes s _ _
      · exact goes_keep rfl rfl rfl
  · exact Goes.refl s

theorem contend_goes (s : Station) : Goes s (contend s) := by
  unfold contend
  split
  · split <;> exact goes_keep rfl rfl rfl
  · exact Goes.refl s

theorem endPrefix_goes (s : Station) (others : List (FrameClass × Nat)) : Goes s (endPrefix s others) := by
  unfold endPrefix
  split
  · exact Goes.refl s
  · split
    · simp only
      split <;> exact goes_keep rfl rfl rfl
    · exact Goes.refl s

theorem receiveFrame_goes (s : Station) (bytes : List Byte) : Goes s (receiveFrame s bytes) := by
  unfold receiveFrame openWindow
  split
  · simp only
    split
    · exact goes_keep rfl rfl rfl
    · exact goes_keep rfl rfl rfl
    · split
      · split <;> exact goes_keep rfl rfl rfl
      · exact goes_keep rfl rfl rfl
  · exact Goes.refl s

theorem malformedFrame_goes (s : Station) : Goes s (malformedFrame s) := by
  obtain ⟨hl, hm, ht⟩ := countFrame_keep (closeClean s)
  obtain ⟨kl, km, kt⟩ := closeClean_keep s
  unfold malformedFrame
  split
  · exact Goes.refl s
  · exact goes_keep (hl.trans kl) (hm.trans km) (ht.trans kt)

theorem claimTaken_keep (src : CtlSource) (u : Station) :
    (if src = .claim then setOutstanding u .taken else u).loader = u.loader ∧
      (if src = .claim then setOutstanding u .taken else u).motion.arm = u.motion.arm ∧
      (if src = .claim then setOutstanding u .taken else u).motion.head = u.motion.head ∧
      (if src = .claim then setOutstanding u .taken else u).touch = u.touch := by
  split <;> exact ⟨rfl, rfl, rfl, rfl⟩

theorem reofferFrom_keep (src : CtlSource) (n : Nat) (s : Station) :
    (reofferFrom src n s).loader = s.loader ∧ (reofferFrom src n s).motion.arm = s.motion.arm ∧
      (reofferFrom src n s).motion.head = s.motion.head ∧ (reofferFrom src n s).touch = s.touch := by
  induction n generalizing s with
  | zero => exact ⟨rfl, rfl, rfl, rfl⟩
  | succ n ih =>
    unfold reofferFrom
    split
    · exact ⟨rfl, rfl, rfl, rfl⟩
    · split
      · obtain ⟨hl, ha, hh, ht⟩ := ih _
        obtain ⟨kl, ka, kh, kt⟩ := claimTaken_keep src _
        exact ⟨hl.trans kl, ha.trans ka, hh.trans kh, ht.trans kt⟩
      · exact ⟨rfl, rfl, rfl, rfl⟩

theorem reofferFrom_goes (src : CtlSource) (n : Nat) (s : Station) : Goes s (reofferFrom src n s) := by
  obtain ⟨hl, ha, hh, ht⟩ := reofferFrom_keep src n s
  exact goes_from hl ha hh (congrArg _ ht) (Goes.refl _)

theorem thermalAged_goes (s : Station) : Goes s (thermalAged s) := by
  unfold thermalAged
  split
  · split <;> exact goes_keep rfl rfl rfl
  · exact Goes.refl s

theorem offerControl_goes (s : Station) (src : CtlSource) (dest : Nat) (b : Body) : Goes s (offerControl s src dest b) := by
  unfold offerControl
  split <;> exact goes_keep rfl rfl rfl

theorem offerEvents_goes (s : Station) : Goes s (offerEvents s) :=
  goes_keep (offerEvents_works s).loader (offerEventsFrom_motion _ s) (offerEventsFrom_control _ s).2.2

theorem silenceLimit_goes (s : Station) (k : Nat) : Goes s (silenceLimit s k) := by
  unfold silenceLimit
  simp only
  split
  · split
    · split
      · exact goes_keep rfl rfl rfl
      · refine goes_after ?_ ?_ ?_ (offerControl_goes _ _ _ _) <;> rfl
    · exact Goes.refl s
  · exact Goes.refl s

theorem presenceMoved_goes (s : Station) (p : Nat) (present : Bool) (code : Option Code) : Goes s (presenceMoved s p present code) := by
  unfold presenceMoved
  split
  · exact Goes.refl s
  · simp only
    split <;> exact goes_keep rfl rfl rfl

theorem lockDelayOver_goes (s : Station) (p : Nat) : Goes s (lockDelayOver s p) := by
  unfold lockDelayOver
  split
  · exact Goes.refl s
  · simp only
    split
    · refine goes_after ?_ ?_ ?_ (reportRack_runs _ p).goes <;> rfl
    · exact goes_keep rfl rfl rfl

theorem sampleNow_goes (s : Station) (ohms : List Nat) : Goes s (sampleNow s ohms) := by
  unfold sampleNow
  split <;> exact goes_keep rfl rfl rfl

theorem periodOver_goes (s : Station) : Goes s (periodOver s) := by
  unfold periodOver
  split
  · exact Goes.refl s
  · exact ((atDue_runs s _).trans (composeThermal_runs _)).goes

theorem formWaitOver_goes (s : Station) : Goes s (formWaitOver s) := by
  unfold formWaitOver
  split
  · exact Goes.refl s
  · simp only
    split
    · refine goes_after ?_ ?_ ?_ (offerControl_goes _ _ _ _) <;> rfl
    · exact goes_keep rfl rfl rfl

theorem offerJoin_goes (s : Station) : Goes s (offerJoin s) := by
  obtain ⟨hl, hm, ht⟩ := offerJoin_keep s
  exact goes_keep hl hm ht

theorem joinRetryOver_goes (s : Station) : Goes s (joinRetryOver s) := by
  unfold joinRetryOver
  split
  · exact Goes.refl s
  · simp only
    split
    · exact goes_keep rfl rfl rfl
    · split
      · refine goes_after ?_ ?_ ?_ (offerJoin_goes _) <;> rfl
      · split
        · exact goes_keep rfl rfl rfl
        · split
          · refine goes_after ?_ ?_ ?_ (offerJoin_goes _) <;> rfl
          · exact goes_keep rfl rfl rfl

theorem holdOffOver_goes (s : Station) (n : Nat) : Goes s (holdOffOver s n) := by
  unfold holdOffOver
  split
  · exact Goes.refl s
  · split
    · exact restart_goes s _ _
    · exact Goes.refl s

theorem assertFault_goes (s : Station) (ax : Axis) : Goes s (assertFault s ax) := by
  unfold assertFault
  split
  · exact Goes.refl s
  · simp only
    split
    · exact goes_keep rfl rfl rfl
    · exact goes_chan id rfl rfl rfl

/-- An image read at a station that loads: SHUT, or JOINING, its channels as they were outside ACTIVE mode. -/
theorem loadImage_goes {s : Station} (hm : s.loader.mode = .loading) (bytes : List Byte) : Goes s (loadImage s bytes) := by
  have hw : working s = false := by simp [working, hm]
  unfold loadImage
  split
  · exact enterShut_goes s _ _
  · obtain ⟨-, hj, ht⟩ := offerJoin_keep (s := _)
    exact goes_chan (fun _ => .inl hw) (by rw [enterJoining, hj]) (by rw [enterJoining, hj]) (by unfold reservedPoints; rw [enterJoining, ht])

theorem readied_goes {s u : Station} {f : Frame} (h : Readied s f u) : Goes s (completeFrame u f) := by
  cases h with
  | plain => exact completeFrame_goes s f
  | counts enc => exact countsForStart_frame s f enc
  | straps n => exact strapsForRestart_frame s f n

theorem effect_goes (c : Instr) (s : Station) : Goes s (effect c s) := by
  cases hf : Says.frameOf c with
  | some f =>
    obtain ⟨u, hu, he⟩ := effect_frame hf s
    rw [he]
    exact readied_goes hu
  | none =>
    cases hq : asks c with
    | some q => exact request_goes hq s
    | none =>
      cases c
      case resetAssert => exact holdInReset_goes s
      case resetRelease n =>
        show Goes s (if _ then _ else _)
        split
        · exact goes_after (u := setStraps s n) rfl rfl rfl (releaseReset_goes _ ‹_›)
        · exact Goes.refl s
      case imageReadComplete bytes =>
        show Goes s (if _ then _ else _)
        split
        · rename_i h
          exact loadImage_goes h.2 bytes
        · exact Goes.refl s
      case quietMomentContend => exact contend_goes s
      case accessPrefixEnd others => exact endPrefix_goes s others
      case frameReceived bytes => exact receiveFrame_goes s bytes
      case vetoWindowVetoed => exact windowVetoed_goes s
      case frameMalformed => exact malformedFrame_goes s
      case controlFrameReoffer src => exact reofferFrom_goes src _ s
      case pointFrameOffer => exact (offerPoints_runs s).goes
      case eventFrameOffer => exact offerEvents_goes s
      case snapFrameOffer => exact (offerSnapshots_runs s).goes
      case creditReserve enc => exact (grantCredit_runs s enc).goes
      case zonesHeldStart c => exact (startHeld_runs s c).goes
      case triggerAssertion enc => exact (assertTrigger_runs s enc).goes
      case approachEnd enc => exact (endApproach_runs s enc).goes
      case touchMiss enc => exact (missTouch_runs s enc).goes
      case segmentComplete c enc => exact (segmentDone_runs s c enc).goes
      case stopEnd c enc => exact (stopDone_runs s c enc).goes
      case homeMarkFound ax => exact (findMark_runs s ax).goes
      case followingError ax enc => exact (followingStall_runs s ax enc).goes
      case encoderQuadratureError ax enc => exact (quadratureError_runs s ax enc).goes
      case driveFaultCounted ax enc => exact (countFault_runs s ax enc).goes
      case driveFaultReleased ax => exact goes_chan id rfl rfl rfl
      case presenceChange p present code => exact presenceMoved_goes s p present code
      case lockDelayExpiry p => exact lockDelayOver_goes s p
      case couplingSensorChange held code => exact (sensorMoved_runs s held code).goes
      case couplingWaitExpiry => exact (couplingOver_runs s).goes
      case unlockWaitExpiry => exact (unlockOver_runs s).goes
      case confirmWaitExpiry => exact (confirmOver_runs s).goes
      case lateTimerExpiry seq => exact (lateOver_runs s seq).goes
      case thermalSample ohms => exact sampleNow_goes s ohms
      case thermalPeriodExpiry => exact periodOver_goes s
      case thermalAgeReached => exact thermalAged_goes s
      case formWaitExpiry => exact formWaitOver_goes s
      case joinRetryExpiry => exact joinRetryOver_goes s
      case silenceLimitReached k => exact silenceLimit_goes s k
      case outHoldOffExpiry n => exact holdOffOver_goes s n
      case triggerRelease => exact goes_keep rfl rfl rfl
      case driveFaultAssertion ax => exact assertFault_goes s ax
      all_goals simp [Says.frameOf, asks] at hf hq

end Sys2Proof.CellLine
end

section
/-! A serving station over one command: it leaves its service, keeps its tables, or applies a frame to them. -/

namespace Sys2Proof.CellLine

open Sys2Proof Sys2Proof.Machine Sys2Proof.Laws

/-! ### Leaving the service -/

theorem serving_false_of_mode {s : Station} (h : s.loader.mode = .out ∨ s.loader.mode = .shut ∨ s.loader.mode = .loading) : serving s = false := by
  rcases h with h | h | h <;> simp [serving, h]

theorem serving_congr {s t : Station} (h : t.loader = s.loader) : serving t = serving s := by
  unfold serving
  rw [h]

theorem serving_enterOut (s : Station) (c : OutCause) : serving (enterOut s c) = false := by
  refine serving_false_of_mode ?_
  unfold enterOut
  simp only
  split
  · exact .inr (.inl rfl)
  · exact .inl rfl

theorem serving_restart (s : Station) (c : ResetCause) : serving (restart s c) = false := by
  refine serving_false_of_mode ?_
  unfold restart sampleStraps
  simp only
  split
  · exact .inr (.inl rfl)
  · exact .inr (.inr rfl)

/-! ### One command at a serving station -/

/-- The image, the shared tables and whether there is a line count are the same in both. -/
structure SameCell (s t : Station) : Prop where
  image : t.loader.image = s.loader.image
  tables : tabs t = tabs s
  lineCount : t.line.lineCount.isSome = s.line.lineCount.isSome

theorem SameCell.refl (s : Station) : SameCell s s := ⟨rfl, rfl, rfl⟩

theorem SameCell.trans {s t u : Station} (h : SameCell s t) (k : SameCell t u) : SameCell s u :=
  ⟨k.image.trans h.image, k.tables.trans h.tables, k.lineCount.trans h.lineCount⟩

theorem SameCell.cell {s t : Station} (h : SameCell s t) : cellOf t = cellOf s := congrArg Image.cell h.image

theorem sameCell_of_same {s t : Station} (h : Same s t) : SameCell s t := ⟨h.image, h.tables, h.lineCount⟩

/-- A frame in good format has been applied to the tables, the image and the presence of a line count as they were (R22). -/
def Applied (s t : Station) : Prop :=
  ∃ lc heard f, formatGood (cellOf s) f = true ∧ t.loader.image = s.loader.image ∧ t.line.lineCount.isSome = s.line.lineCount.isSome ∧
    tabs t = (applyFormed (cellOf s) lc heard f (tabs s)).1

/-- All that a command can do to a serving station as a member of its cell. -/
inductive Serving (s t : Station) : Prop
  | leaves (h : serving t = false)
  | same (h : SameCell s t)
  | applies (h : Applied s t)

theorem Applied.before {s u t : Station} (h : SameCell s u) (k : Applied u t) : Applied s t := by
  obtain ⟨lc, heard, f, hg, hi, hc, ht⟩ := k
  rw [h.cell] at hg
  rw [h.cell, h.tables] at ht
  exact ⟨lc, heard, f, hg, hi.trans h.image, hc.trans h.lineCount, ht⟩

theorem Applied.after {s u t : Station} (h : Applied s u) (k : SameCell u t) : Applied s t := by
  obtain ⟨lc, heard, f, hg, hi, hc, ht⟩ := h
  exact ⟨lc, heard, f, hg, k.image.trans hi, k.lineCount.trans hc, k.tables.trans ht⟩

theorem Serving.before {s u t : Station} (h : SameCell s u) : Serving u t → Serving s t
  | .leaves k => .leaves k
  | .same k => .same (h.trans k)
  | .applies k => .applies (k.before h)

/-- The removal of an own frame keeps the tables, or restarts the station (R7, R164). -/
theorem Serving.releaseOwn {s u : Station} (h : Serving s u) (f : Frame) : Serving s (releaseOwn u f) := by
  obtain ⟨t, ⟨ht, hl⟩, he | he⟩ := releaseOwn_cases u f
  · rw [he]
    cases h with
    | leaves k => exact .leaves ((serving_congr hl).trans k)
    | same k => exact .same (k.trans (sameCell_of_same ht))
    | applies k => exact .applies (k.after (sameCell_of_same ht))
  · rw [he]
    exact .leaves (serving_restart _ _)

theorem setTabs_applied {s : Station} {f : Frame} (hg : formatGood (cellOf s) f = true) (lc : Nat) (heard : Bool) :
    Applied s (setTabs s (applyFormed (cellOf s) lc heard f (tabs s)).1) :=
  ⟨lc, heard, f, hg, rfl, rfl, tabs_setTabs _ _⟩

/-- A replicated frame is applied, or it silences the station itself (R22, R42). -/
theorem applyLive_serving {s : Station} {f : Frame} (hg : formatGood (cellOf s) f = true) : Serving s (applyLive s f) := by
  unfold applyLive
  simp only
  split
  · exact .leaves (serving_enterOut _ _)
  · exact .applies ((setTabs_applied hg _ _).after (sameCell_of_same (react_reacts _ _ _ _).same))

theorem handOn_serving {s : Station} (hs : serving s = true) (w : Option Window) {f : Frame} (hg : formatGood (cellOf s) f = true) :
    Serving s (handOn s w f) := by
  unfold handOn
  split
  · exact .same (sameCell_of_same (deliver_same _ _ _ _ _))
  · rw [serving_not_joining hs]
    simp only [Bool.false_eq_true, if_false]
    split
    · exact applyLive_serving hg
    · exact .same (SameCell.refl s)

theorem completeFrame_serving {s : Station} (hs : serving s = true) (hl : s.line.lineCount.isSome = true) (f : Frame) :
    Serving s (completeFrame s f) := by
  obtain ⟨n, hn⟩ := Option.isSome_iff_exists.mp hl
  cases hv : vetoedHere s with
  | true =>
    refine .same ?_
    unfold completeFrame
    rw [hv, Bool.or_true, if_pos rfl]
    exact SameCell.refl s
  | false =>
    cases hg : formatGood (cellOf s) f with
    | true =>
      have hc := counted_live hs hn f
      have hsame : SameCell s (takeCount (closeClean s) f) :=
        ⟨by rw [hc.loader], by unfold tabs; rw [hc.replica], by rw [hc.lineCount, hn]; rfl⟩
      rw [completeFrame_eq hs hv hg]
      refine ((handOn_serving ?_ _ ?_).before hsame).releaseOwn f
      · rw [serving_congr hc.loader]; exact hs
      · rw [hsame.cell]; exact hg
    | false =>
      refine .same (sameCell_of_same ?_)
      unfold completeFrame
      rw [serving_listening hs, hv, hg]
      exact (closeClean_same s).trans (countFrame_same _)

theorem windowVetoed_serving (s : Station) : Serving s (windowVetoed s) := by
  unfold windowVetoed
  split
  · simp only
    split
    · exact .leaves (serving_enterOut _ _)
    · split
      · exact .leaves (serving_enterOut _ _)
      · exact .same (sameCell_of_same (closeVetoed_same s))
  · exact .same (SameCell.refl s)

theorem joinRetryOver_serving {s : Station} (hs : serving s = true) : Serving s (joinRetryOver s) := by
  refine .same ?_
  unfold joinRetryOver
  split
  · exact SameCell.refl s
  · simp only [serving_not_joining hs, Bool.not_false, if_true]
    exact ⟨rfl, rfl, rfl⟩

theorem holdOffOver_serving (s : Station) (n : Nat) : Serving s (holdOffOver s n) := by
  unfold holdOffOver
  split
  · exact .same (SameCell.refl s)
  · split
    · exact .leaves (serving_restart _ _)
    · exact .same (SameCell.refl s)

theorem serving_cases {s : Station} (h : serving s = true) : s.loader.held = false ∧ (s.loader.mode = .active ∨ s.loader.mode = .parked) := by
  unfold serving at h
  cases hm : s.loader.mode <;> simp_all

theorem effect_serving (c : Instr) {s : Station} (hs : serving s = true) (hl : s.line.lineCount.isSome = true) : Serving s (effect c s) := by
  cases hf : Says.frameOf c with
  | some f =>
    obtain ⟨u, hu, he⟩ := effect_frame hf s
    have hsame : SameCell s u := sameCell_of_same (readied_same hu)
    rw [he]
    refine (completeFrame_serving ?_ ?_ f).before hsame
    · rw [serving_congr (readied_loader hu)]; exact hs
    · rw [hsame.lineCount]; exact hl
  | none =>
    cases hc : startsOrStops c with
    | false => exact .same (sameCell_of_same (effect_same hf hc s))
    | true =>
      obtain ⟨hheld, hmode⟩ := serving_cases hs
      cases c
      case resetAssert => exact .leaves rfl
      case resetRelease n =>
        have he : effect (.resetRelease n) s = s := if_neg (by rw [hheld]; decide)
        rw [he]
        exact .same (SameCell.refl s)
      case imageReadComplete bytes =>
        have he : effect (.imageReadComplete bytes) s = s := if_neg (by rcases hmode with h | h <;> simp [h])
        rw [he]
        exact .same (SameCell.refl s)
      case vetoWindowVetoed => exact windowVetoed_serving s
      case joinRetryExpiry => exact joinRetryOver_serving hs
      case outHoldOffExpiry n => exact holdOffOver_serving s n
      all_goals simp [startsOrStops] at hc

theorem step_serving {s t : State} (hs : serving s.stn = true) (hv : Serves s.stn) (h : step s = .next t) : Serving s.stn t.stn := by
  rcases step_cases h with he | ⟨c, he⟩
  · rw [he]; exact .same ⟨rfl, rfl, rfl⟩
  · rw [he]; exact effect_serving c hs (hv hs).2.1

theorem Serving.lineCount {s t : Station} (h : Serving s t) (ht : serving t = true) :
    t.line.lineCount.isSome = s.line.lineCount.isSome := by
  cases h with
  | leaves k => rw [k] at ht; cases ht
  | same k => exact k.lineCount
  | applies k =>
    obtain ⟨-, -, -, -, -, hc, -⟩ := k
    exact hc

/-- What the application of a frame keeps of the tables, a station keeps for as long as it serves. -/
theorem Serving.keeps {P : CellPart → Replica → Prop}
    (happly : ∀ c r lc heard f, formatGood c f = true → P c r → P c (applyFormed c lc heard f r).1)
    {s t : Station} (h : Serving s t) (ht : serving t = true) (hp : P (cellOf s) (tabs s)) : P (cellOf t) (tabs t) := by
  cases h with
  | leaves k => rw [k] at ht; cases ht
  | same k => rw [k.cell, k.tables]; exact hp
  | applies k =>
    obtain ⟨lc, heard, f, hg, hi, -, he⟩ := k
    have hcell : cellOf t = cellOf s := congrArg Image.cell hi
    rw [hcell, he]
    exact happly _ _ lc heard f hg hp

end Sys2Proof.CellLine
end

section
/-! How long the lists of a replica can be (R51, R98), the lists and the custody at formation, and the statements about every step. -/

namespace Sys2Proof.CellLine

open Sys2Proof Sys2Proof.Machine Sys2Proof.Laws

/-! ### The bounds on the lists -/

/-- The stations of role MC410, in ascending order. -/
def mc410s (c : CellPart) : List Nat := ((List.range 14).filter (fun i => roleIn c (i + 1) == .mc410)).map (· + 1)

theorem mem_mc410s {c : CellPart} (h : c.roles.length = 14) {k : Nat} (hk : roleIn c k = .mc410) : k ∈ mc410s c := by
  obtain ⟨hlo, hhi⟩ := at1_range c.roles .unused k (by rw [show at1 c.roles .unused k = .mc410 from hk]; decide)
  refine List.mem_map.mpr ⟨k - 1, List.mem_filter.mpr ⟨List.mem_range.mpr (by omega), ?_⟩, by omega⟩
  rw [Nat.sub_add_cancel hlo, hk]
  rfl

theorem mc410s_length {c : CellPart} (h : c.roles.length = 14) : (mc410s c).length = (c.roles.filter (· == .mc410)).length := by
  have hroles : (List.range 14).map (fun i => roleIn c (i + 1)) = c.roles := by
    refine List.ext_getElem (by simp [h]) fun i hi hj => ?_
    simp [roleIn, at1, List.getElem?_eq_getElem hj]
  unfold mc410s
  conv_rhs => rw [← hroles]
  rw [List.filter_map, List.length_map, List.length_map]
  rfl

theorem mc410s_le {c : CellPart} (h : StationsOk c) : (mc410s c).length ≤ 10 := (mc410s_length h.1).trans_le h.2

theorem claims_le {c : CellPart} {r : Replica} (hc : StationsOk c) (h : ListsOk c r) : r.claims.length ≤ 10 := by
  have hsub : r.claims.map (·.claimant) ⊆ mc410s c := fun k hk => by
    obtain ⟨d, hd, rfl⟩ := List.mem_map.mp hk
    exact mem_mc410s hc.1 (h.claimRole d hd)
  calc r.claims.length = (r.claims.map (·.claimant)).length := (List.length_map _).symm
    _ ≤ (mc410s c).length := (List.subperm_of_subset h.claimants hsub).length_le
    _ ≤ 10 := mc410s_le hc

/-- The place of a thermal entry on the board. -/
def boardPlace (e : BoardEntry) : Nat × Nat := (e.station, e.input)

theorem boardPlaces_nodup {b : List BoardEntry} (h : b.Pairwise BoardBefore) : (b.map boardPlace).Nodup := by
  refine List.pairwise_map.mpr (h.imp fun {x y} hxy heq => ?_)
  obtain ⟨hs, hi⟩ := Prod.mk.inj heq
  rcases hxy with hlt | ⟨-, hlt⟩ <;> omega

theorem board_le {c : CellPart} {r : Replica} (hc : StationsOk c) (h : ListsOk c r) : r.board.length ≤ 80 := by
  have hsub : r.board.map boardPlace ⊆ mc410s c ×ˢ (List.range 8).map (· + 1) := fun q hq => by
    obtain ⟨e, he, rfl⟩ := List.mem_map.mp hq
    obtain ⟨hrole, hlo, hhi⟩ := h.boardRange e he
    refine List.mem_product.mpr ⟨mem_mc410s hc.1 hrole, List.mem_map.mpr ⟨e.input - 1, List.mem_range.mpr (by omega), by omega⟩⟩
  have hlen := mc410s_le hc
  calc r.board.length = (r.board.map boardPlace).length := (List.length_map _).symm
    _ ≤ (mc410s c ×ˢ (List.range 8).map (· + 1)).length := (List.subperm_of_subset (boardPlaces_nodup h.boardOrder) hsub).length_le
    _ = (mc410s c).length * 8 := by rw [List.length_product, List.length_map, List.length_range]
    _ ≤ 80 := by omega

/-! ### Formation -/

theorem at1_replicate {α : Type} (n : Nat) (v : α) (k : Nat) : at1 (List.replicate n v) v k = v := by
  cases k with
  | zero => rfl
  | succ k =>
    show (List.replicate n v).getD k v = v
    rw [List.getD_eq_getElem?_getD, List.getElem?_replicate]
    split <;> rfl

theorem portEntry_formed (c : CellPart) (fp : Print) (mask : StationMask) (p : Nat) : (portEntry (formedReplica c fp mask) p).state = .empty :=
  congrArg PortEntry.state (at1_replicate 12 _ p)

theorem probeRec_formed (c : CellPart) (fp : Print) (mask : StationMask) (x : Nat) :
    (probeRec (formedReplica c fp mask) x).custody = .lost ∧ (probeRec (formedReplica c fp mask) x).tips = [] := by
  have h : probeRec (formedReplica c fp mask) x = ⟨.lost, .usable, 0, 0, none, [], 0⟩ := at1_replicate 24 _ x
  rw [h]
  exact ⟨rfl, rfl⟩

theorem listsOk_formed (c : CellPart) (fp : Print) (mask : StationMask) : ListsOk c (formedReplica c fp mask) where
  claimOrder := List.Pairwise.nil
  claimants := List.nodup_nil
  claimRole := nofun
  wanted := nofun
  passed := nofun
  boardOrder := List.Pairwise.nil
  boardRange := nofun
  tips x := by rw [(probeRec_formed c fp mask x).2]; decide

/-- At formation every port is EMPTY and every probe LOST (R29). -/
theorem agrees_formed (c : CellPart) (fp : Print) (mask : StationMask) : Agrees (formedReplica c fp mask) := by
  constructor
  all_goals simp [portEntry_formed, probeRec_formed]

/-! ### The statements -/

theorem bounded_step {s t : State} (hs : Bounded s.stn) (h : step s = .next t) : Bounded t.stn :=
  (bounded_iff _).mpr (step_keeps (P := Owing 0) (fun _ ho => owing_now ho _) (fun c _ ho => owing_effect c ho) ((bounded_iff _).mp hs) h)

theorem idle_goes (s : Station) : Goes s { s with now := s.now + 1 } := goes_keep rfl rfl rfl

theorem credits_step {s t : State} (hs : CreditsOk s.stn) (h : step s = .next t) : CreditsOk t.stn :=
  step_keeps (P := CreditsOk) (Q := CreditsOk) (fun s ho => (idle_goes s).credits ho) (fun c s ho => (effect_goes c s).credits ho) hs h

theorem serves_step {s t : State} (hs : serving s.stn = true) (hv : Serves s.stn) (h : step s = .next t) : Serves t.stn := by
  intro ht
  obtain ⟨hformed, hcount, hhomes⟩ := hv hs
  have hstep := step_serving hs hv h
  obtain ⟨kformed, khomes⟩ := hstep.keeps (P := fun c r => r.cell.formed = true ∧ HomesHeld c r) (fun c r lc heard f _ ⟨hf, hh⟩ => by
    have k := step_applyFormed c lc heard f r
    exact ⟨by rw [k.cell]; exact hf, k.homes hh⟩) ht ⟨hformed, hhomes⟩
  exact ⟨kformed, (hstep.lineCount ht).trans hcount, khomes⟩

theorem agrees_step {s t : State} (hs : serving s.stn = true) (hv : Serves s.stn) (hz : Sized s.stn) (hp : (cellOf s.stn).ports.length ≤ 12)
    (hx : (cellOf s.stn).probes.length ≤ 24) (ha : Agrees (tabs s.stn)) (h : step s = .next t) (ht : serving t.stn = true) :
    Agrees (tabs t.stn) :=
  ((step_serving hs hv h).keeps (P := fun c r => c.ports.length ≤ 12 ∧ c.probes.length ≤ 24 ∧ TablesSized r ∧ Agrees r)
    (fun c r lc heard f _ ⟨hp, hx, hz, ha⟩ =>
      ⟨hp, hx, (step_applyFormed c lc heard f r).sized hz, agrees_applyFormed ha hp hx hz.ports hz.probes lc heard f⟩)
    ht ⟨hp, hx, hz.tables, ha⟩).2.2.2

/-- Settles O5: `Owing` and `Goes` hold of the effect of every command, and the lists are kept through the application of a frame. -/
theorem stepKeepsBounds : Obligations.StepKeepsBounds := by
  unfold Obligations.StepKeepsBounds
  refine ⟨fun s t => bounded_step, fun s t hs h => ⟨credits_step hs h, CreditsOk.one (credits_step hs h)⟩, fun s t hs hv hl h ht => ?_,
    fun c r hc h => ⟨claims_le hc h, board_le hc h, h.tips⟩, listsOk_formed⟩
  exact (step_serving hs hv h).keeps (P := ListsOk) (fun c r lc heard f hg hp => lists_applyFormed hp lc heard f hg) ht hl

/-- Settles O6: every command keeps the sizes, the commands that start or stop the station included. -/
theorem stepKeepsTableSizes : Obligations.StepKeepsTableSizes := by
  unfold Obligations.StepKeepsTableSizes
  intro s t hs h
  exact step_keeps (fun s hz => (same_now s _).sized hz) (fun c s hz => sized_effect c hz) hs h

/-- Settles O7: a serving station leaves its service, keeps its tables, or applies a frame, which keeps the HOME zones and the agreement. -/
theorem stepKeepsServing : Obligations.StepKeepsServing := by
  unfold Obligations.StepKeepsServing
  exact ⟨fun s t => serves_step, fun s t => agrees_step, agrees_formed⟩

end Sys2Proof.CellLine
end

section
/-! The frame in flight that goes back, and what contends, waits or is offered again (R2, R3, R11 to R17, R153, R166). -/

namespace Sys2Proof.CellLine

open Sys2Proof Sys2Proof.Machine Sys2Proof.Laws

/-! ### The arbiter (R16, R17) -/

theorem contend_none {s : Station} (hp : arbiterPick s.line s.now (cellOf s).period = none) : contend s = s := by
  unfold contend
  rw [hp]
  exact ite_self _

theorem contend_some {s : Station} {c : FrameClass} (hl : listening s = true) (hf : s.line.flight = none) (hw : s.line.window = none)
    (hp : arbiterPick s.line s.now (cellOf s).period = some c) : contend s = { s with line := beginContending s.line s.now c } := by
  simp [contend, hl, hf, hw, hp]

theorem contend_line {s : Station} : contend s = { s with line := (contend s).line } := by
  unfold contend
  split
  · split <;> rfl
  · rfl

theorem arbiterPick_aged {lp : LinePort} {v : Slot} {now period : Nat} (hv : lp.thermal = some v) (h : v.since + period ≤ now) :
    arbiterPick lp now period = some .thermal := by
  simp [arbiterPick, hv, h]

/-- No THERMAL has reached one thermal period (R16). -/
def Unaged (lp : LinePort) (now period : Nat) : Prop := ∀ v, lp.thermal = some v → now < v.since + period

/-- Without the escape for age the arbiter picks by its mode (R16, R17). -/
theorem arbiterPick_unaged {lp : LinePort} {now period : Nat} (h : Unaged lp now period) :
    arbiterPick lp now period =
      if lp.drain = true then
        if lp.control ≠ [] ∧ 4 ≤ lp.runCount then some .control
        else if lp.report ≠ [] then some .report
        else if lp.control ≠ [] then some .control
        else if lp.thermal.isSome = true then some .thermal else none
      else if lp.control ≠ [] then some .control
      else if lp.thermal.isSome = true then some .thermal
      else if lp.report ≠ [] then some .report else none := by
  cases ht : lp.thermal with
  | none => simp [arbiterPick, ht, Config.drainRun]
  | some v => simp [arbiterPick, ht, Config.drainRun, Nat.not_le_of_lt (h v ht)]

section
variable {s : Station} (hl : listening s = true) (hf : s.line.flight = none) (hw : s.line.window = none)
include hl hf hw

theorem contend_control {o : Outgoing} {r : List Outgoing} (hp : arbiterPick s.line s.now (cellOf s).period = some .control)
    (hc : s.line.control = o :: r) :
    contend s = { s with line := { s.line with control := r, flight := some ⟨o, .contending, s.now, []⟩ } } := by
  rw [contend_some hl hf hw hp, beginContending, hc]

theorem contend_thermal {v : Slot} (hp : arbiterPick s.line s.now (cellOf s).period = some .thermal) (hv : s.line.thermal = some v) :
    contend s = { s with line := { s.line with thermal := none, flight := some ⟨v.item, .contending, v.since, []⟩ } } := by
  rw [contend_some hl hf hw hp, beginContending, hv]

theorem contend_report {o : Outgoing} {r : List Outgoing} (hp : arbiterPick s.line s.now (cellOf s).period = some .report)
    (hr : s.line.report = o :: r) :
    contend s = { s with line := { s.line with report := r, flight := some ⟨o, .contending, s.now, []⟩ } } := by
  rw [contend_some hl hf hw hp, beginContending, hr]

end

/-- Settles O17: the pick by mode and escapes, and what the queue that is picked loses. -/
theorem arbiterOrder : Obligations.ArbiterOrder := by
  unfold Obligations.ArbiterOrder
  intro s hl hf hw
  have hpick := arbiterPick_unaged (lp := s.stn.line) (now := s.stn.now) (period := (cellOf s.stn).period)
  refine ⟨{ s with stn := contend s.stn }, rfl, rfl, contend_line, ?aged, ?normal, ?drain, ?nothing⟩
  case aged =>
    intro v hv hage
    rw [contend_thermal hl hf hw (arbiterPick_aged hv hage) hv]
    exact ⟨rfl, rfl, rfl, rfl⟩
  case normal =>
    intro hage hd
    refine ⟨fun o r hc => ?_, fun v hc hv => ?_, fun o r hc hv hr => ?_⟩
    · rw [contend_control hl hf hw (by simp [hpick hage, hd, hc]) hc]
      exact ⟨rfl, rfl, rfl, rfl⟩
    · rw [contend_thermal hl hf hw (by simp [hpick hage, hd, hc, hv]) hv]
      exact ⟨rfl, rfl, rfl⟩
    · rw [contend_report hl hf hw (by simp [hpick hage, hd, hc, hv, hr]) hr]
      exact ⟨rfl, rfl⟩
  case drain =>
    intro hage hd
    refine ⟨fun o r hrun hc => ?_, fun o r hrun hr => ?_, fun o r hr hc => ?_, fun v hr hc hv => ?_⟩
    · rw [contend_control hl hf hw (by simp [hpick hage, hd, hc, hrun]) hc]
      exact ⟨rfl, rfl, rfl⟩
    · have hno : ¬ (s.stn.line.control ≠ [] ∧ 4 ≤ s.stn.line.runCount) := fun ⟨hc, hfour⟩ =>
        hrun.elim (Nat.not_lt_of_le hfour) hc
      rw [contend_report hl hf hw (by rw [hpick hage, if_pos hd, if_neg hno]; simp [hr]) hr]
      exact ⟨rfl, rfl, rfl⟩
    · rw [contend_control hl hf hw (by simp [hpick hage, hd, hc, hr]) hc]
      exact ⟨rfl, rfl⟩
    · rw [contend_thermal hl hf hw (by simp [hpick hage, hd, hc, hr, hv]) hv]
      exact ⟨rfl, rfl⟩
  case nothing =>
    intro hc hv hr
    have hnone : arbiterPick s.stn.line s.stn.now (cellOf s.stn).period = none := by
      rw [hpick fun v hv' => by rw [hv] at hv'; cases hv']
      simp [hc, hv, hr]
    rw [contend_none hnone]

/-- Settles O23: the age is reached, and the escape comes first in the pick (R16). -/
theorem agedThermalIsPicked : Obligations.AgedThermalIsPicked := by
  unfold Obligations.AgedThermalIsPicked
  intro s v hl hv
  have he : thermalAged s.stn = { s.stn with now := max s.stn.now (v.since + (cellOf s.stn).period) } := by
    simp [thermalAged, hl, hv]
  refine ⟨{ s with stn := thermalAged s.stn }, rfl, rfl, he, ?_⟩
  rw [he]
  exact arbiterPick_aged hv (le_max_right _ _)

/-! ### A frame in flight that goes back (R3, R13, R14) -/

/-- The frame in flight is back in its queue: a CONTROL or REPORT frame at the head, a ZONE_RELEASE merged with a newer one, a THERMAL in
the slot. -/
structure BackInQueue (v : Flight) (a b : LinePort) : Prop where
  control : Body.cls v.item.body = .control → Body.isRelease v.item.body = false → b.control = v.item :: a.control
  release : Body.isRelease v.item.body = true → Says.releaseBack v.item a.control b.control
  report : Body.cls v.item.body = .report → b.report = v.item :: a.report
  thermal : Body.cls v.item.body = .thermal → Says.thermalBack v a.thermal b.thermal

theorem find_release_none {l : List Outgoing} (h : ∀ q ∈ l, Body.isRelease q.body = false) :
    l.find? (fun q => Body.isRelease q.body) = none :=
  List.find?_eq_none.mpr fun q hq => by rw [h q hq]; decide

section
variable {pre post : List Outgoing} {q : Outgoing} (hpre : ∀ b ∈ pre, Body.isRelease b.body = false) (hq : Body.isRelease q.body = true)
include hpre hq

theorem find_release_first : (pre ++ q :: post).find? (fun q => Body.isRelease q.body) = some q := by
  rw [List.find?_append, find_release_none hpre, Option.none_or]
  exact List.find?_cons_of_pos hq

theorem takeWhile_release : (pre ++ q :: post).takeWhile (fun q => !Body.isRelease q.body) = pre := by
  rw [List.takeWhile_append_of_pos fun b hb => by rw [hpre b hb]; rfl, List.takeWhile_cons_of_neg (by rw [hq]; decide), List.append_nil]

theorem dropWhile_release : (pre ++ q :: post).dropWhile (fun q => !Body.isRelease q.body) = q :: post := by
  rw [List.dropWhile_append_of_pos fun b hb => by rw [hpre b hb]; rfl, List.dropWhile_cons_of_neg (by rw [hq]; decide)]

end

theorem requeueRelease_back (lp : LinePort) (o : Outgoing) : Says.releaseBack o lp.control (requeueRelease lp o).control := by
  refine ⟨fun h => ?_, fun mask withdraw pre q post m w ho hold hpre hq => ?_⟩
  · unfold requeueRelease
    rw [find_release_none h]
  · have hrel : Body.isRelease q.body = true := by rw [hq]; rfl
    unfold requeueRelease
    rw [hold, find_release_first hpre hrel]
    simp only [hq, ho, uniteRelease, takeWhile_release hpre hrel, dropWhile_release hpre hrel, List.drop_one, List.tail_cons]

theorem requeueThermal_back (lp : LinePort) (v : Flight) : Says.thermalBack v lp.thermal (requeueThermal lp v).thermal := by
  refine ⟨fun h => ?_, fun w h => ?_⟩ <;> simp [requeueThermal, h]

theorem requeue_back {lp : LinePort} {v : Flight} (h : lp.flight = some v) : BackInQueue v lp (requeue lp) := by
  unfold requeue
  rw [h]
  constructor
  · intro hc hr
    simp only [hc, hr, Bool.false_eq_true, if_false]
  · intro hr
    simp only [isRelease_cls hr, hr, if_true]
    exact requeueRelease_back { lp with flight := none } _
  · intro hc
    simp only [hc]
  · intro hc
    simp only [hc]
    exact requeueThermal_back { lp with flight := none } _

/-! ### A ZONE_RELEASE offered (R13) -/

theorem offerReleaseTo_control (lp : LinePort) (mask : ZoneMask) (withdraw : Bool) :
    offerReleaseTo lp mask withdraw = { lp with control := (offerReleaseTo lp mask withdraw).control } := by
  unfold offerReleaseTo
  split <;> rfl

theorem mergeRelease_first (f : Body → Body) (cut : Bool) {pre post : List Outgoing} {q : Outgoing}
    (hpre : ∀ b ∈ pre, Body.isRelease b.body = false) (hq : Body.isRelease q.body = true) :
    mergeRelease f cut (pre ++ q :: post) =
      pre ++ { q with body := f q.body } :: (if cut = true then post.filter (fun b => !Body.isClaim b.body) else post) := by
  induction pre with
  | nil => simp [mergeRelease, hq]
  | cons b pre ih =>
    obtain ⟨hb, hrest⟩ := List.forall_mem_cons.mp hpre
    simp [mergeRelease, hb, ih hrest]

theorem offerReleaseTo_joins (lp : LinePort) (mask : ZoneMask) (withdraw : Bool) :
    Says.releaseJoins mask withdraw lp.control (offerReleaseTo lp mask withdraw).control := by
  refine ⟨fun h => ?_, fun pre q post m w hold hpre hq => ?_⟩
  · have hany : lp.control.any (fun o => Body.isRelease o.body) = false := List.any_eq_false.mpr fun q hm => by rw [h q hm]; decide
    unfold offerReleaseTo
    rw [hany]
    rfl
  · have hrel : Body.isRelease q.body = true := by rw [hq]; rfl
    have hany : lp.control.any (fun o => Body.isRelease o.body) = true := List.any_eq_true.mpr ⟨q, by simp [hold], hrel⟩
    unfold offerReleaseTo
    rw [hany, if_pos rfl, hold, mergeRelease_first _ _ hpre hrel, hq]
    rfl

/-! ### The end of the contention (R2, R3) -/

theorem lowerThan_iff (a b : FrameClass × Nat) : lowerThan a b = true ↔ Says.ahead a b := by
  have hrank : classRank a.1 = classRank b.1 ↔ a.1 = b.1 := by
    cases a.1 <;> cases b.1 <;> simp [classRank]
  simp [lowerThan, Says.ahead, hrank]

theorem endPrefix_behind {s : Station} {v : Flight} {others : List (FrameClass × Nat)} (hl : listening s = true) (hf : s.line.flight = some v)
    (hc : v.stage = .contending) (h : ∃ o ∈ others, Says.ahead o (Body.cls v.item.body, me s)) :
    endPrefix s others = { s with line := requeue s.line } := by
  have hany : others.any (fun o => lowerThan o (Body.cls v.item.body, me s)) = true := by simpa [lowerThan_iff] using h
  simp [endPrefix, hf, hl, hc, hany]

theorem endPrefix_first {s : Station} {v : Flight} {others : List (FrameClass × Nat)} (hl : listening s = true) (hf : s.line.flight = some v)
    (hc : v.stage = .contending) (h : ∀ o ∈ others, ¬ Says.ahead o (Body.cls v.item.body, me s)) :
    endPrefix s others = { s with
      line := { s.line with
        flight := some { v with stage := .sending, wire := putFrame ⟨hdrNow s v.item.dest, v.item.body⟩ } } } := by
  have hany : others.any (fun o => lowerThan o (Body.cls v.item.body, me s)) = false := by
    refine List.any_eq_false.mpr fun o ho => ?_
    rw [lowerThan_iff]
    exact h o ho
  simp [endPrefix, hf, hl, hc, hany]

theorem hdrNow_eq {s : Station} (hl : listening s = true) (dest : Nat) :
    hdrNow s dest = ⟨me s, dest, serving s, decide (s.loader.mode = .parked), allHomed s, isRack s, decide (s.loader.mode = .joining)⟩ := by
  have hheld : s.loader.held = false := by
    simp only [listening, Bool.and_eq_true, Bool.not_eq_true'] at hl
    exact hl.1
  simp [hdrNow, joiningMode, hheld, beq_eq_decide]

/-- Settles O18: a contender ahead sends the frame back to its queue, none ahead puts it on the line; and the merging of releases. -/
theorem prefixDecides : Obligations.PrefixDecides := by
  unfold Obligations.PrefixDecides
  refine ⟨fun others s v hl hf hc => ⟨{ s with stn := endPrefix s.stn others }, rfl, rfl, ?_⟩, fun lp mask withdraw =>
    ⟨offerReleaseTo_control lp mask withdraw, offerReleaseTo_joins lp mask withdraw⟩⟩
  by_cases hahead : ∃ o ∈ others, Says.ahead o (Body.cls v.item.body, me s.stn)
  · obtain ⟨hflight, hretry, hlog⟩ := requeue_rest s.stn.line
    have hback := requeue_back hf
    rw [endPrefix_behind hl hf hc hahead]
    refine ⟨hretry, hlog, (requeue_counts _).2, rfl, fun _ => ⟨hflight, hback.control, hback.release, hback.report, hback.thermal⟩, fun hnone => ?_⟩
    obtain ⟨o, ho, h⟩ := hahead
    exact absurd h (hnone o ho)
  · have hnone : ∀ o ∈ others, ¬ Says.ahead o (Body.cls v.item.body, me s.stn) := fun o ho h => hahead ⟨o, ho, h⟩
    rw [endPrefix_first hl hf hc hnone, hdrNow_eq hl]
    exact ⟨rfl, rfl, rfl, rfl, fun h => absurd h hahead, fun _ => ⟨rfl, rfl, rfl, rfl⟩⟩

/-! ### Frames kept by a unit, offered again (R11, R12, R15) -/

/-- Settles O24: below seven the oldest kept frame joins the tail, and with seven there it is not taken. -/
theorem keptControlFrameIsTaken : Obligations.KeptControlFrameIsTaken := by
  unfold Obligations.KeptControlFrameIsTaken
  intro src s w hw
  refine ⟨{ s with stn := reofferFrom src 7 s.stn }, rfl, rfl, fun hroom => ?_, fun hfull => ?_⟩
  · have ht : takesControl s.stn.line = true := (takesControl_iff _).mpr hroom
    unfold reofferFrom
    simp only [hw, ht, if_true]
    obtain ⟨⟨rest, hcontrol⟩, hreport, htabs⟩ := reofferFrom_app src 6 (if src = .claim then
      setOutstanding { s.stn with line := { enqueueControl s.stn.line w.item with waiting := s.stn.line.waiting.erase w } } .taken
      else { s.stn with line := { enqueueControl s.stn.line w.item with waiting := s.stn.line.waiting.erase w } })
    refine ⟨⟨rest, hcontrol.trans ?_⟩, hreport.trans ?_, htabs.trans ?_⟩ <;> split <;> simp [enqueueControl, tabs]
  · have ht : takesControl s.stn.line = false := by
      rw [← Bool.not_eq_true, takesControl_iff]
      omega
    simp [reofferFrom, hw, ht]

theorem takesReport_point (lp : LinePort) (p : PointBody) :
    takesReport lp (.point p) = true ↔ 1 ≤ reportFree lp ∧ pointsHeld lp < 12 := by simp [takesReport]

theorem takesReport_event (lp : LinePort) (e : EventBody) : takesReport lp (.event e) = true ↔ 1 ≤ reportFree lp := by simp [takesReport]

theorem snapFrames_kinds (c : CellPart) (sh : Shadow) : ∀ b ∈ snapFrames c sh, (∃ p j f n, b = .snapBegin p j f n) ∨ (∃ j v, b = .snapEntry j v) ∨
    ∃ j n f, b = .snapEnd j n f := by
  simp only [snapFrames, List.mem_cons, List.mem_append, List.mem_map, List.not_mem_nil, or_false]
  rintro b (rfl | ⟨v, -, rfl⟩ | rfl)
  · exact .inl ⟨_, _, _, _, rfl⟩
  · exact .inr (.inl ⟨_, _, rfl⟩)
  · exact .inr (.inr ⟨_, _, _, rfl⟩)

theorem takesReport_snap (lp : LinePort) {c : CellPart} {sh : Shadow} {b : Body} (hb : b ∈ snapFrames c sh) :
    takesReport lp b = true ↔ 2 ≤ reportFree lp := by
  obtain ⟨p, j, f, n, rfl⟩ | ⟨j, v, rfl⟩ | ⟨j, n, f, rfl⟩ := snapFrames_kinds c sh b hb <;> simp [takesReport]

/-- A list that goes on from a first frame taken at the tail. -/
theorem tail_taken {l l' : List Outgoing} {lp : LinePort} {o : Outgoing} (hl : l = lp.report) (h : ∃ rest, l' = (enqueueReport lp o).report ++ rest) :
    ∃ rest, l' = l ++ o :: rest := by
  obtain ⟨rest, h⟩ := h
  exact ⟨rest, by rw [h, enqueueReport_report, hl, List.append_assoc]; rfl⟩

theorem offerPoints_takes {s : Station} {d : PointData} {c : Correction} (h : oldestReady s.touch.nextSeq s.touch.points = some (d, c))
    (ht : takesReport s.line (.point (pointBody d c)) = true) :
    ∃ rest, (offerPoints s).line.report = s.line.report ++ ⟨reporter s, .point (pointBody d c)⟩ :: rest := by
  obtain ⟨n, hn⟩ : ∃ n, s.touch.points.length = n + 1 := by
    cases hp : s.touch.points with
    | nil => rw [hp, oldestReady_nil] at h; cases h
    | cons e l => exact ⟨l.length, rfl⟩
  unfold offerPoints
  rw [hn, offerPointsFrom]
  simp only [h, ht, if_true]
  exact tail_taken rfl (offerPointsFrom_app _ _)

theorem offerPoints_waits {s : Station} {d : PointData} {c : Correction} (h : oldestReady s.touch.nextSeq s.touch.points = some (d, c))
    (ht : takesReport s.line (.point (pointBody d c)) = false) : offerPoints s = s := by
  unfold offerPoints
  cases s.touch.points.length with
  | zero => rfl
  | succ n => simp [offerPointsFrom, h, ht]

theorem offerEvents_takes {s : Station} {n : Nat} {e : Event} {r : List (Nat × Event)} (h : s.request.events = (n, e) :: r)
    (ht : takesReport s.line (.event (eventBody n e)) = true) :
    ∃ rest, (offerEvents s).line.report = s.line.report ++ ⟨reporter s, .event (eventBody n e)⟩ :: rest := by
  unfold offerEvents
  rw [h, List.length_cons, offerEventsFrom]
  simp only [h, ht, if_true]
  exact tail_taken rfl (offerEventsFrom_app _ _)

theorem offerEvents_waits {s : Station} {n : Nat} {e : Event} {r : List (Nat × Event)} (h : s.request.events = (n, e) :: r)
    (ht : takesReport s.line (.event (eventBody n e)) = false) : offerEvents s = s := by
  simp [offerEvents, h, offerEventsFrom, ht]

/-- A refusal notice is no frame of a snapshot, but is taken as one (R15). -/
theorem takesReport_notice (lp : LinePort) (jn : Nat) (fp : Print) :
    takesReport lp (.snapBegin .refuse jn fp 0) = true ↔ 2 ≤ reportFree lp := by simp [takesReport]

theorem offerSnapshots_app (s : Station) : ∃ rest, (offerSnapshots s).line.report = (offerNotices 16 s).line.report ++ rest := by
  unfold offerSnapshots
  simp only
  split
  · exact offerShadow_app _ _
  · exact ⟨[], (List.append_nil _).symm⟩

theorem offerSnapshots_notice {s : Station} {k jn : Nat} {r : List (Nat × Nat)} (h : s.replica.notices = (k, jn) :: r)
    (ht : takesReport s.line (.snapBegin .refuse jn (tabs s).cell.fingerprint 0) = true) :
    ∃ rest, (offerSnapshots s).line.report = s.line.report ++ ⟨k, .snapBegin .refuse jn (tabs s).cell.fingerprint 0⟩ :: rest := by
  have hfirst : ∃ rest, (offerNotices 16 s).line.report =
      s.line.report ++ ⟨k, .snapBegin .refuse jn (tabs s).cell.fingerprint 0⟩ :: rest := by
    rw [offerNotices]
    simp only [h, ht, if_true]
    exact tail_taken rfl (offerNotices_app _ _)
  obtain ⟨r1, h1⟩ := hfirst
  obtain ⟨r2, h2⟩ := offerSnapshots_app s
  exact ⟨r1 ++ r2, by rw [h2, h1, List.append_assoc]; rfl⟩

theorem offerSnapshots_noticeWaits {s : Station} {k jn : Nat} {r : List (Nat × Nat)} (h : s.replica.notices = (k, jn) :: r)
    (ht : takesReport s.line (.snapBegin .refuse jn (tabs s).cell.fingerprint 0) = false) : offerSnapshots s = s := by
  have he : offerNotices 16 s = s := by simp [offerNotices, h, ht]
  unfold offerSnapshots
  simp only [he, h, List.isEmpty_cons, Bool.false_eq_true, if_false]

theorem offerSnapshots_shadow {s : Station} (h : s.replica.notices = []) : offerSnapshots s = offerShadow 16 s := by
  have he : offerNotices 16 s = s := by simp [offerNotices, h]
  unfold offerSnapshots
  simp only [he, h, List.isEmpty_nil, if_true]

theorem offerShadow_takes {s : Station} {sh : Shadow} {b : Body} (hs : s.replica.shadow = some sh)
    (hb : (snapFrames (cellOf s) sh)[sh.next]? = some b) (ht : takesReport s.line b = true) :
    ∃ rest, (offerShadow 16 s).line.report = s.line.report ++ ⟨sh.joiner, b⟩ :: rest := by
  rw [offerShadow]
  simp only [hs, hb, ht, if_true]
  exact tail_taken rfl (offerShadow_app _ _)

theorem offerShadow_waits {s : Station} {sh : Shadow} {b : Body} (hs : s.replica.shadow = some sh)
    (hb : (snapFrames (cellOf s) sh)[sh.next]? = some b) (ht : takesReport s.line b = false) : offerShadow 16 s = s := by
  simp [offerShadow, hs, hb, ht]

/-- Settles O25: each unit's next frame joins the tail where R15 takes it, and stays where not. -/
theorem keptReportFrameIsTaken : Obligations.KeptReportFrameIsTaken := by
  unfold Obligations.KeptReportFrameIsTaken
  refine fun s => ⟨fun d c h => ⟨{ s with stn := offerPoints s.stn }, rfl, rfl, fun hroom => ?_, fun hfull => ?_⟩,
    fun n e r h => ⟨{ s with stn := offerEvents s.stn }, rfl, rfl, fun hroom => ?_, fun hfull => ?_⟩,
    fun k jn r h => ⟨{ s with stn := offerSnapshots s.stn }, rfl, rfl, fun hroom => ?_, fun hfull => ?_⟩,
    fun sh b hn hs hb => ⟨{ s with stn := offerSnapshots s.stn }, rfl, rfl, fun hroom => ?_, fun hfull => ?_⟩⟩
  · exact offerPoints_takes h ((takesReport_point _ _).mpr hroom)
  · rw [offerPoints_waits h (by rw [← Bool.not_eq_true, takesReport_point]; omega)]
  · exact offerEvents_takes h ((takesReport_event _ _).mpr hroom)
  · rw [offerEvents_waits h (by rw [← Bool.not_eq_true, takesReport_event]; omega)]
  · exact offerSnapshots_notice h ((takesReport_notice _ _ _).mpr hroom)
  · rw [offerSnapshots_noticeWaits h (by rw [← Bool.not_eq_true, takesReport_notice]; omega)]
  all_goals have hmem := List.mem_of_getElem? hb
  · rw [offerSnapshots_shadow hn]
    exact offerShadow_takes hs hb ((takesReport_snap _ hmem).mpr hroom)
  · rw [offerSnapshots_shadow hn, offerShadow_waits hs hb (by rw [← Bool.not_eq_true, takesReport_snap _ hmem]; omega)]

end Sys2Proof.CellLine
end

section
/-! Reception: what a receiver makes of the bytes, and the window that it opens (R4, R5, R8, R176). -/

namespace Sys2Proof.CellLine

open Sys2Proof Sys2Proof.Machine Sys2Proof.Laws

/-! ### What a receiver makes of the bytes (R4, R8, R176) -/

/-- The judgement of a frame whose check is right. -/
def checkedFormat (c : CellPart) (kind sd fl : Byte) (body : List Byte) : Reception :=
  if 60 < body.length then .malformed
  else match readAll (getBody kind.toNat body.length) body with
    | none => .malformed
    | some b => if formatGood c ⟨hdrOf sd.toNat fl.toNat, b⟩ then .good ⟨hdrOf sd.toNat fl.toNat, b⟩ else .malformed

theorem receive_short (c : CellPart) {bytes : List Byte} (h : bytes.length < 4 ∨ bytes.length < (bytes.getD 3 0).toNat + 8) :
    receive c bytes = .bad := by
  match bytes, h with
  | [], _ => rfl
  | [_], _ => rfl
  | [_, _], _ => rfl
  | [_, _, _], _ => rfl
  | kind :: sd :: fl :: len :: rest, h =>
    have hlen : rest.length < len.toNat + 4 := by
      simp only [List.length_cons, List.getD_cons_succ, List.getD_cons_zero] at h
      omega
    simp [receive, hlen]

theorem four_bytes {head : List Byte} (h : head.length = 4) : ∃ kind sd fl len, head = [kind, sd, fl, len] := by
  match head, h with
  | [kind, sd, fl, len], _ => exact ⟨kind, sd, fl, len, rfl⟩

/-- Bytes that hold a header, the body of its length and a check: the check first, then the format; what follows is not read. -/
theorem receive_framed (c : CellPart) (kind sd fl len : Byte) {body check : List Byte} (rest : List Byte) (hb : body.length = len.toNat)
    (hc : check.length = 4) :
    receive c ([kind, sd, fl, len] ++ body ++ check ++ rest) =
      if check ≠ putPrint (check32 ([kind, sd, fl, len] ++ body)) then .bad else checkedFormat c kind sd fl body := by
  have hlen : ¬ (body ++ (check ++ rest)).length < len.toNat + 4 := by
    simp only [List.length_append]
    omega
  have hbody : (body ++ (check ++ rest)).take len.toNat = body := by rw [← hb, List.take_left]
  have hcheck : ((body ++ (check ++ rest)).drop len.toNat).take 4 = check := by rw [← hb, List.drop_left, ← hc, List.take_left]
  simp only [List.append_assoc, List.cons_append, List.nil_append, receive, hbody, hcheck, if_neg hlen]
  unfold checkedFormat
  rewrite [hb]
  rfl

theorem checkedFormat_ne_bad (c : CellPart) (kind sd fl : Byte) (body : List Byte) : checkedFormat c kind sd fl body ≠ .bad := by
  unfold checkedFormat
  split
  · decide
  · split
    · decide
    · split <;> simp

/-- Only the 24 kind codes have a body (11.2). -/
theorem getBody_unknown {k : Nat} (h : k ∉ Says.kindCodes) (n : Nat) (body : List Byte) : readAll (getBody k n) body = none := by
  unfold getBody
  split <;> simp_all [Says.kindCodes, readAll]

theorem formatGood_header {c : CellPart} {f : Frame} (h : formatGood c f = true) :
    1 ≤ f.h.sender ∧ f.h.sender ≤ 14 ∧ f.h.dest ≤ 14 ∧ roleIn c f.h.sender ≠ .unused := by
  obtain ⟨hlo, hhi⟩ := sender_range h
  simp only [formatGood, destGood, Bool.and_eq_true, decide_eq_true_eq] at h
  refine ⟨hlo, hhi, h.1.1.2.1, fun hu => ?_⟩
  have hkind := h.1.2
  simp [mayKind, hu] at hkind

theorem checkedFormat_broken (c : CellPart) {kind sd fl len : Byte} {body : List Byte} (hb : body.length = len.toNat)
    (h : Says.headerBroken c [kind, sd, fl, len]) : checkedFormat c kind sd fl body = .malformed := by
  simp only [Says.headerBroken, List.getD_cons_succ, List.getD_cons_zero] at h
  unfold checkedFormat
  split
  · rfl
  · rename_i hlen
    split
    · rfl
    · rename_i b hread
      split
      · rename_i hg
        obtain ⟨hlo, hhi, hdest, hrole⟩ := formatGood_header hg
        simp only [hdrOf] at hlo hhi hdest hrole
        rcases h with h | h | h | h | h | h
        · omega
        · rw [getBody_unknown h] at hread
          cases hread
        · omega
        · omega
        · exact absurd h hrole
        · omega
      · rfl

/-! ### The window (R4, R5) -/

/-- The Line Port but for the frame in flight, its window and its reservations is as it was. -/
structure Received (a b : LinePort) : Prop where
  control : b.control = a.control
  thermal : b.thermal = a.thermal
  report : b.report = a.report
  lineCount : b.lineCount = a.lineCount
  heard : b.heard = a.heard
  vetoLog : b.vetoLog = a.vetoLog
  retry : b.retry = a.retry

theorem intoWindow_received (lp : LinePort) (w : Option Window) (n : Nat) :
    Received lp { intoWindow lp with window := w, reserved := n } := by
  unfold intoWindow
  split
  · exact ⟨rfl, rfl, rfl, rfl, rfl, rfl, rfl⟩
  · split <;> exact ⟨rfl, rfl, rfl, rfl, rfl, rfl, rfl⟩

theorem intoWindow_free (lp : LinePort) : (intoWindow lp).reserved = lp.reserved ∧ reportFree (intoWindow lp) = reportFree lp := by
  unfold intoWindow
  split
  · exact ⟨rfl, rfl⟩
  · rename_i v hv
    split
    · simp [reportFree, reportHeld, flightIn, hv]
    · exact ⟨rfl, rfl⟩

/-- The window and the reservations that a reception leaves. -/
def windowAfter (s : Station) (bytes : List Byte) : Window × Nat :=
  match receive (cellOf s) bytes with
  | .bad => (⟨none, some .check, false⟩, s.line.reserved)
  | .malformed => (⟨none, none, false⟩, s.line.reserved)
  | .good f =>
    if Body.isRequest f.body && addressed s f.h then
      if 1 ≤ reportFree s.line then (⟨some f, none, true⟩, s.line.reserved + 1) else (⟨some f, some .busy, false⟩, s.line.reserved)
    else (⟨some f, none, false⟩, s.line.reserved)

theorem receiveFrame_eq {s : Station} (hl : listening s = true) (hw : s.line.window = none) (bytes : List Byte) :
    receiveFrame s bytes =
      { s with line := { intoWindow s.line with window := some (windowAfter s bytes).1, reserved := (windowAfter s bytes).2 } } := by
  obtain ⟨hres, hfree⟩ := intoWindow_free s.line
  unfold receiveFrame openWindow windowAfter
  simp only [hl, hw, Option.isNone_none, Bool.and_self, if_true, hfree, hres]
  cases receive (cellOf s) bytes with
  | bad => rw [← hres]
  | malformed => rw [← hres]
  | good f => simp only; split <;> [split; skip] <;> simp only [← hres]

theorem addressed_iff (s : Station) (h : Hdr) : addressed s h = true ↔ h.dest = 0 ∨ h.dest = me s := by simp [addressed]

section
variable {s : Station} {bytes : List Byte}

theorem windowAfter_bad (h : receive (cellOf s) bytes = .bad) : windowAfter s bytes = (⟨none, some .check, false⟩, s.line.reserved) := by
  rw [windowAfter, h]

theorem windowAfter_malformed (h : receive (cellOf s) bytes = .malformed) : windowAfter s bytes = (⟨none, none, false⟩, s.line.reserved) := by
  rw [windowAfter, h]

theorem windowAfter_request {f : Frame} (h : receive (cellOf s) bytes = .good f) (hr : Body.isRequest f.body = true ∧ (f.h.dest = 0 ∨ f.h.dest = me s)) :
    windowAfter s bytes =
      if 1 ≤ reportFree s.line then (⟨some f, none, true⟩, s.line.reserved + 1) else (⟨some f, some .busy, false⟩, s.line.reserved) := by
  rw [windowAfter, h]
  simp only [hr.1, (addressed_iff s f.h).mpr hr.2, Bool.and_self, if_true]

theorem windowAfter_other {f : Frame} (h : receive (cellOf s) bytes = .good f)
    (hr : ¬ (Body.isRequest f.body = true ∧ (f.h.dest = 0 ∨ f.h.dest = me s))) :
    windowAfter s bytes = (⟨some f, none, false⟩, s.line.reserved) := by
  rw [← addressed_iff, ← Bool.and_eq_true] at hr
  rw [windowAfter, h]
  simp only [if_neg hr]

/-- A CHECK veto is raised for bytes whose check is wrong, and for no others (R4). -/
theorem windowAfter_check (h : receive (cellOf s) bytes ≠ .bad) : (windowAfter s bytes).1.veto ≠ some .check := by
  cases hr : receive (cellOf s) bytes with
  | bad => exact absurd hr h
  | malformed => simp [windowAfter_malformed hr]
  | good f =>
    by_cases hq : Body.isRequest f.body = true ∧ (f.h.dest = 0 ∨ f.h.dest = me s)
    · rw [windowAfter_request hr hq]
      split <;> simp
    · rw [windowAfter_other hr hq]
      simp

end

/-- Settles O19: the window by what the receiver makes of the bytes. That bytes after the check are not read is the model's choice (log 24). -/
theorem receptionOpensWindow : Obligations.ReceptionOpensWindow := by
  unfold Obligations.ReceptionOpensWindow
  intro bytes s hl hw
  have hk := intoWindow_received s.stn.line (some (windowAfter s.stn bytes).1) (windowAfter s.stn bytes).2
  refine ⟨{ s with stn := receiveFrame s.stn bytes }, rfl, rfl, ?_⟩
  rw [receiveFrame_eq hl hw]
  refine ⟨rfl, hk.control, hk.thermal, hk.report, hk.lineCount, hk.heard, hk.vetoLog, hk.retry, fun hshort => ?_,
    fun head body check rest hbytes hhead hbody hcheck => ?_, fun hm => ?_, fun f hf => ⟨fun hq => ⟨fun hroom => ?_, fun hfull => ?_⟩, fun hq => ?_⟩⟩
  · rw [windowAfter_bad (receive_short _ hshort)]
    exact ⟨rfl, rfl⟩
  · obtain ⟨kind, sd, fl, len, rfl⟩ := four_bytes hhead
    have hreceive := receive_framed (cellOf s.stn) kind sd fl len rest hbody hcheck
    rw [← hbytes] at hreceive
    refine ⟨fun hwrong => ?_, fun hright hbroken => ?_, fun hright w hwin => ?_⟩
    · rw [windowAfter_bad (hreceive.trans (if_pos hwrong))]
      exact ⟨rfl, rfl⟩
    · rw [windowAfter_malformed ((hreceive.trans (if_neg (not_not_intro hright))).trans (checkedFormat_broken _ hbody hbroken))]
      exact ⟨rfl, rfl⟩
    · cases hwin
      refine windowAfter_check ?_
      rw [hreceive, if_neg (not_not_intro hright)]
      exact checkedFormat_ne_bad _ _ _ _ _
  · rw [windowAfter_malformed hm]
    exact ⟨rfl, rfl⟩
  · rw [windowAfter_request hf hq, if_pos hroom]
    exact ⟨rfl, rfl⟩
  · rw [windowAfter_request hf hq, if_neg (by omega)]
    exact ⟨rfl, rfl⟩
  · rw [windowAfter_other hf hq]
    exact ⟨rfl, rfl⟩

end Sys2Proof.CellLine
end

section
/-! The receiver's veto windows and what is left of a frame of bad format (R3, R4, R6, R9, R55). -/

namespace Sys2Proof.CellLine

open Sys2Proof Sys2Proof.Machine Sys2Proof.Laws

/-! ### A window that closed with a veto -/

theorem ownOnLine_flight {s : Station} {v : Flight} (hv : s.line.flight = some v) (hs : v.stage ≠ .contending) : ownOnLine s = true := by
  simp [ownOnLine, hv, hs]

theorem closeVetoed_line {s : Station} : closeVetoed s = { s with line := (closeVetoed s).line } := rfl

theorem closeVetoed_other {s : Station} (h : ownOnLine s = false) : (closeVetoed s).line = afterVeto s.line := by
  simp [closeVetoed, h]

theorem closeVetoed_own {s : Station} (h : ownOnLine s = true) :
    (closeVetoed s).line = { requeue (afterVeto s.line) with retry := s.line.retry + 1 } := by
  simp [closeVetoed, h]

/-- What a veto changes on the line of any station: the window and its reservation go, the log grows. -/
structure VetoClosed (a b : LinePort) : Prop where
  window : b.window = none
  lineCount : b.lineCount = a.lineCount
  heard : b.heard = a.heard
  joinOffset : b.joinOffset = a.joinOffset
  waiting : b.waiting = a.waiting
  vetoLog : b.vetoLog = (recordWindow a (checkVetoed a.window)).vetoLog
  reserved : b.reserved = a.reserved - windowReserves a.window

theorem afterVeto_closed (lp : LinePort) : VetoClosed lp (afterVeto lp) := by
  obtain ⟨-, -, -, -, -, hjoin, hwaiting, hwindow, hreserved, hlog⟩ := afterVeto_facts lp
  obtain ⟨hheard, hcount⟩ := afterVeto_counts lp
  exact ⟨hwindow, hcount, hheard, hjoin, hwaiting, hlog, hreserved⟩

theorem requeue_closed {a b : LinePort} (h : VetoClosed a b) (n : Nat) : VetoClosed a { requeue b with retry := n } := by
  obtain ⟨hwindow, hreserved, hjoin, hwaiting⟩ := requeue_more b
  obtain ⟨hheard, hcount⟩ := requeue_counts b
  obtain ⟨-, -, hlog⟩ := requeue_rest b
  exact ⟨hwindow.trans h.window, hcount.trans h.lineCount, hheard.trans h.heard, hjoin.trans h.joinOffset, hwaiting.trans h.waiting,
    hlog.trans h.vetoLog, hreserved.trans h.reserved⟩

theorem closeVetoed_closed (s : Station) : VetoClosed s.line (closeVetoed s).line := by
  cases h : ownOnLine s with
  | false => rw [closeVetoed_other h]; exact afterVeto_closed _
  | true => rw [closeVetoed_own h]; exact requeue_closed (afterVeto_closed _) _

theorem closeVetoed_requeues {s : Station} {v : Flight} (hv : s.line.flight = some v) (hs : v.stage ≠ .contending) :
    (closeVetoed s).line.retry = s.line.retry + 1 ∧ (closeVetoed s).line.flight = none ∧ BackInQueue v s.line (closeVetoed s).line := by
  obtain ⟨hcontrol, hreport, hthermal, hflight, -⟩ := afterVeto_facts s.line
  have hback := requeue_back (hflight.trans hv)
  rw [closeVetoed_own (ownOnLine_flight hv hs)]
  refine ⟨rfl, (requeue_rest _).1, ?_⟩
  constructor
  · rw [← hcontrol]; exact hback.control
  · rw [← hcontrol]; exact hback.release
  · rw [← hreport]; exact hback.report
  · rw [← hthermal]; exact hback.thermal

theorem vetoCount_closeVetoed (s : Station) : vetoCount (closeVetoed s).line = vetoCount (recordWindow s.line (checkVetoed s.line.window)) :=
  vetoCount_log (closeVetoed_closed s).vetoLog

/-! ### The two limits (R3, R6) -/

section
variable {s : Station} (hl : listening s = true)
include hl

theorem windowVetoed_retried (ho : ownOnLine s = true) (hr : 7 ≤ s.line.retry) : windowVetoed s = enterOut (closeVetoed s) .lineFault := by
  have hretry : (closeVetoed s).line.retry = s.line.retry + 1 := by rw [closeVetoed_own ho]
  have hlimit : Config.retryLimit ≤ (closeVetoed s).line.retry := by rw [hretry]; exact Nat.succ_le_succ hr
  simp [windowVetoed, hl, ho, hlimit]

theorem windowVetoed_below (hr : ownOnLine s = true → s.line.retry < 7) :
    windowVetoed s = if 16 ≤ vetoCount (recordWindow s.line (checkVetoed s.line.window)) then enterOut (closeVetoed s) .rxFault else closeVetoed s := by
  have hlimit : (ownOnLine s && decide (Config.retryLimit ≤ (closeVetoed s).line.retry)) = false := by
    cases ho : ownOnLine s with
    | false => rfl
    | true =>
      have hretry : (closeVetoed s).line.retry = s.line.retry + 1 := by rw [closeVetoed_own ho]
      have hlow := hr ho
      simp only [hretry, Config.retryLimit, Bool.true_and, decide_eq_false_iff_not]
      omega
  simp [windowVetoed, hl, hlimit, vetoCount_closeVetoed, Config.vetoLimit]

end

/-- Settles O20: below both limits the closing window is all there is. -/
theorem vetoedFrameIsDiscarded : Obligations.VetoedFrameIsDiscarded := by
  unfold Obligations.VetoedFrameIsDiscarded
  intro s hl hretry hcount
  have hk := closeVetoed_closed s.stn
  refine ⟨{ s with stn := windowVetoed s.stn }, rfl, rfl, ?_⟩
  rw [windowVetoed_below hl hretry, if_neg (by omega)]
  refine ⟨closeVetoed_line, hk.window, hk.lineCount, hk.heard, hk.joinOffset, hk.waiting, hk.vetoLog, hk.reserved, fun ho => ?_,
    fun v hv hs => ?_⟩
  · obtain ⟨hcontrol, hreport, hthermal, hflight, hretry', -⟩ := afterVeto_facts s.stn.line
    rw [closeVetoed_other ho]
    exact ⟨hretry', hflight, hcontrol, hreport, hthermal⟩
  · obtain ⟨hretry', hflight, hback⟩ := closeVetoed_requeues hv hs
    exact ⟨hretry', hflight, hback.control, hback.release, hback.report, hback.thermal⟩

theorem enterOut_wentOut (s : Station) (c : OutCause) : Says.wentOut s (enterOut s c) c := by
  unfold enterOut Says.wentOut
  simp only [Config.outSpan, Config.outHoldOff]
  split
  next h => exact ⟨rfl, fun h' => absurd h (Nat.not_le_of_lt h'), fun _ => ⟨rfl, rfl, rfl⟩⟩
  next h => exact ⟨rfl, fun _ => ⟨rfl, rfl, rfl⟩, fun h' => absurd h' h⟩

/-- Settles O21: the retry limit is looked at first, the count of CHECK vetoes after it. -/
theorem vetoLimitsEndInOut : Obligations.VetoLimitsEndInOut := by
  unfold Obligations.VetoLimitsEndInOut
  intro s hl
  refine ⟨{ s with stn := windowVetoed s.stn }, rfl, rfl, fun ho hr => ?_, fun hlow hcount => ?_⟩
  · rw [windowVetoed_retried hl ho hr]
    exact enterOut_wentOut (closeVetoed s.stn) _
  · have hbelow : ownOnLine s.stn = true → s.stn.line.retry < 7 := fun ho => hlow.elim (fun hn => by rw [ho] at hn; cases hn) id
    rw [windowVetoed_below hl hbelow, if_pos hcount]
    exact enterOut_wentOut (closeVetoed s.stn) _

/-! ### A frame of bad format (R9, R55) -/

theorem completeFrame_broken {s : Station} {f : Frame} (hl : listening s = true) (hv : vetoedHere s = false)
    (hf : formatGood (cellOf s) f = false) : completeFrame s f = countFrame (closeClean s) := by
  simp [completeFrame, hl, hv, hf]

/-- A frame that is not taken brings nothing. -/
theorem readied_untaken {s u : Station} {f : Frame} (h : Readied s f u) (ht : taken s f = false) : u = s := by
  cases h with
  | plain => rfl
  | counts enc => simp [countsForStart, ht]
  | straps n => simp [strapsForRestart, ht]

/-- A frame of bad format has the one effect of malformed bytes, whatever body stands in it. -/
theorem effect_broken {c : Instr} {s : Station} (hl : listening s = true) (hv : vetoedHere s = false)
    (h : c = .frameMalformed ∨ ∃ f, Says.frameOf c = some f ∧ formatGood (cellOf s) f = false) : effect c s = countFrame (closeClean s) := by
  rcases h with rfl | ⟨f, hc, hf⟩
  · show malformedFrame s = _
    simp [malformedFrame, hl, hv]
  · obtain ⟨u, hu, he⟩ := effect_frame hc s
    rw [he, readied_untaken hu (by simp [taken, hf]), completeFrame_broken hl hv hf]

/-- Settles O22: the window closes, and `lineCount` and the log are all that moves. -/
theorem malformedFrameIsOnlyCounted : Obligations.MalformedFrameIsOnlyCounted := by
  unfold Obligations.MalformedFrameIsOnlyCounted
  intro c s hc hl hv
  refine ⟨{ s with stn := effect c s.stn }, exec_effect c s, rfl, ?_⟩
  rw [effect_broken hl hv hc, closeClean_eq]
  exact ⟨rfl, rfl, rfl, rfl, rfl, rfl, rfl, rfl, rfl, rfl, rfl⟩

end Sys2Proof.CellLine
end

section
/-! REPORT frames that complete: what a request, an answer, an event and an own reserved point leave (R7, R10, R137, R139, R154, R164). -/

namespace Sys2Proof.CellLine

open Sys2Proof Sys2Proof.Machine Sys2Proof.Laws

/-! ### The own frame is released (R10, R164) -/

/-- What the completion of an own frame leaves of the line. -/
structure LineDone (a b : LinePort) : Prop where
  lineCount : b.lineCount = a.lineCount
  window : b.window = a.window
  report : b.report = a.report
  reserved : b.reserved = a.reserved

theorem removeCompleted_report (lp : LinePort) : (removeCompleted lp).report = lp.report := by
  unfold removeCompleted
  split
  · rfl
  · simp only
    split
    · rfl
    · rfl
    · rw [updateDrain_eq]
      split <;> rfl

theorem removeCompleted_done (lp : LinePort) : LineDone lp (removeCompleted lp) := by
  obtain ⟨hcount, -⟩ := removeCompleted_counts lp
  obtain ⟨hreserved, hwindow⟩ := removeCompleted_keeps lp
  exact ⟨hcount, hwindow, removeCompleted_report lp, hreserved⟩

theorem releaseOwn_foreign {s : Station} {f : Frame} (h : ownFlight s f = false) : releaseOwn s f = s := by
  simp [releaseOwn, h]

theorem answersRestart_line (s : Station) (lp : LinePort) (b : Body) : answersRestart { s with line := lp } b = answersRestart s b :=
  answersRestart_plain b rfl

section
variable {s : Station} {f : Frame} (ho : ownFlight s f = true)
include ho

theorem releaseOwn_done (hp : ∀ p, f.body ≠ .point p) (hr : answersRestart s f.body = false) :
    releaseOwn s f = { s with line := removeCompleted s.line } := by
  unfold releaseOwn
  rw [if_pos ho]
  split
  next p hb => exact absurd hb (hp p)
  next => simp only [answersRestart_line, hr, Bool.false_eq_true, if_false]

theorem releaseOwn_restart (hr : answersRestart s f.body = true) :
    releaseOwn s f = restart { s with line := removeCompleted s.line } .requested := by
  unfold releaseOwn
  rw [if_pos ho]
  split
  next p hb => rw [hb] at hr; cases hr
  next => simp only [answersRestart_line, hr, if_true]

theorem releaseOwn_point {p : PointBody} (hb : f.body = .point p) :
    releaseOwn s f = setPoints { s with line := removeCompleted s.line } (freeQueued p.seq s.touch.points) := by
  unfold releaseOwn
  rw [if_pos ho, hb]
  rfl

end

/-- A completed request releases the own frame at most; the rest of the station stays. -/
theorem releaseOwn_request (u : Station) {f : Frame} {tag : Code} {r : ReqBody} (hb : f.body = .request tag r) :
    ∃ lp, releaseOwn u f = { u with line := lp } ∧ LineDone u.line lp := by
  cases ho : ownFlight u f with
  | false => exact ⟨u.line, releaseOwn_foreign ho, ⟨rfl, rfl, rfl, rfl⟩⟩
  | true =>
    refine ⟨_, releaseOwn_done ho (fun p => ?_) ?_, removeCompleted_done u.line⟩
    · rw [hb]
      exact Body.noConfusion
    · rw [hb]
      rfl

/-! ### A request is delivered (R7, R139) -/

theorem handOn_request (s : Station) (w : Option Window) (h : Hdr) (tag : Code) (r : ReqBody) :
    handOn s w ⟨h, .request tag r⟩ = deliver s w h tag r := rfl

theorem deliver_keeps (s : Station) (w : Option Window) (h : Hdr) (tag : Code) (r : ReqBody) :
    (deliver s w h tag r).line.lineCount = s.line.lineCount ∧ (deliver s w h tag r).line.window = s.line.window ∧
      (deliver s w h tag r).line.report = s.line.report ∧ tabs (deliver s w h tag r) = tabs s ∧
      (deliver s w h tag r).loader = s.loader ∧ (deliver s w h tag r).motion = s.motion := by
  unfold deliver
  split
  · exact ⟨rfl, rfl, rfl, rfl, rfl, rfl⟩
  · simp only
    split <;> split <;> exact ⟨rfl, rfl, rfl, rfl, rfl, rfl⟩

theorem deliver_reserved {s : Station} {w : Window} {h : Hdr} (ha : addressed s h = true) (hw : w.reserved = true) (tag : Code) (r : ReqBody) :
    deliver s (some w) h tag r = { s with request := { s.request with delivered := s.request.delivered ++ [⟨h.sender, tag, r⟩] } } := by
  simp [deliver, ha, hw]

theorem deliver_elsewhere {s : Station} {h : Hdr} (ha : addressed s h = false) (w : Option Window) (tag : Code) (r : ReqBody) :
    deliver s w h tag r = s := by
  simp [deliver, ha]

theorem addressed_plain {s u : Station} (h : Plain s u) (hd : Hdr) : addressed u hd = addressed s hd := by
  rw [addressed, addressed, me, me, h.loader]

/-! ### An answer or an event completes (R7, R10, R164) -/

def IsReply (b : Body) : Prop := (∃ a, b = .answer a) ∨ ∃ e, b = .event e

section
variable {s : Station} {f : Frame} (hl : listening s = true) (hv : vetoedHere s = false) (hg : formatGood (cellOf s) f = true)
  (hb : IsReply f.body)
include hl hv hg hb

theorem completeFrame_reply : ∃ u, Plain s u ∧ completeFrame s f = releaseOwn u f := by
  refine ⟨_, plain_count s f fun fp c j hj => ?_, ?_⟩
  · rcases hb with ⟨a, h⟩ | ⟨e, h⟩ <;> rw [hj] at h <;> cases h
  · rw [completeFrame_listening hl hv hg, handOn_plain _ _ _ hb]

theorem completeFrame_foreign (ho : ownFlight s f = false) : Plain s (completeFrame s f) := by
  obtain ⟨u, hu, he⟩ := completeFrame_reply hl hv hg hb
  rw [he, releaseOwn_foreign ((ownFlight_plain f hu).trans ho)]
  exact hu

theorem completeFrame_done (ho : ownFlight s f = true) (hr : answersRestart s f.body = false) :
    ∃ u, Plain s u ∧ completeFrame s f = { u with line := removeCompleted u.line } := by
  obtain ⟨u, hu, he⟩ := completeFrame_reply hl hv hg hb
  refine ⟨u, hu, he.trans (releaseOwn_done ((ownFlight_plain f hu).trans ho) (fun p hp => ?_) ((answersRestart_plain _ hu.request).trans hr))⟩
  rcases hb with ⟨a, h⟩ | ⟨e, h⟩ <;> rw [hp] at h <;> cases h

theorem completeFrame_restarts (ho : ownFlight s f = true) (hr : answersRestart s f.body = true) :
    ∃ u, Plain s u ∧ completeFrame s f = restart { u with line := removeCompleted u.line } .requested := by
  obtain ⟨u, hu, he⟩ := completeFrame_reply hl hv hg hb
  exact ⟨u, hu, he.trans (releaseOwn_restart ((ownFlight_plain f hu).trans ho) ((answersRestart_plain _ hu.request).trans hr))⟩

end

theorem effect_reply {c : Instr} {f : Frame} (hc : Says.frameOf c = some f) (hb : IsReply f.body) (s : Station) :
    effect c s = completeFrame s f ∨ ∃ n, effect c s = completeFrame (strapsForRestart s f n) f := by
  cases c
  case answer h a n => cases hc; exact .inr ⟨n, rfl⟩
  case form => cases hc; rcases hb with ⟨a, h⟩ | ⟨e, h⟩ <;> cases h
  case snapEnd => cases hc; rcases hb with ⟨a, h⟩ | ⟨e, h⟩ <;> cases h
  all_goals cases hc
  all_goals exact .inl rfl

theorem strapsForRestart_none {s : Station} {f : Frame} (h : (ownFlight s f && answersRestart s f.body) = false) (n : Nat) :
    strapsForRestart s f n = s := by
  rw [strapsForRestart, Bool.and_assoc, h, Bool.and_false]
  rfl

theorem strapsForRestart_taken {s : Station} {f : Frame} (ht : taken s f = true) (ho : ownFlight s f = true)
    (hr : answersRestart s f.body = true) (n : Nat) : strapsForRestart s f n = setStraps s n := by
  simp [strapsForRestart, ht, ho, hr]

theorem strapsForRestart_pins (s : Station) (f : Frame) (n : Nat) : ∃ p, strapsForRestart s f n = { s with pins := p } := by
  unfold strapsForRestart
  split <;> exact ⟨_, rfl⟩

theorem effect_reply_plain {c : Instr} {f : Frame} (hc : Says.frameOf c = some f) (hb : IsReply f.body) {s : Station}
    (h : (ownFlight s f && answersRestart s f.body) = false) : effect c s = completeFrame s f := by
  rcases effect_reply hc hb s with he | ⟨n, he⟩
  · exact he
  · rw [he, strapsForRestart_none h]

theorem effect_reply_pins {c : Instr} {f : Frame} (hc : Says.frameOf c = some f) (hb : IsReply f.body) (s : Station) :
    ∃ p, effect c s = completeFrame { s with pins := p } f := by
  rcases effect_reply hc hb s with he | ⟨n, he⟩
  · exact ⟨s.pins, he⟩
  · obtain ⟨p, hp⟩ := strapsForRestart_pins s f n
    exact ⟨p, by rw [he, hp]⟩

/-! ### A restart reads the straps (R164, R169) -/

theorem restart_sampled (s : Station) (c : ResetCause) : ∃ u, restart s c = sampleStraps u ∧ u.pins = s.pins ∧ u.request = RequestUnit.reset :=
  ⟨_, rfl, rfl, rfl⟩

theorem sampleStraps_pins (s : Station) : (sampleStraps s).pins = s.pins := by
  unfold sampleStraps
  simp only
  split <;> rfl

theorem sampleStraps_request {s : Station} (h : s.request = RequestUnit.reset) : (sampleStraps s).request = RequestUnit.reset := by
  unfold sampleStraps
  simp only
  split
  · rfl
  · exact h

theorem restart_pins (s : Station) (c : ResetCause) : (restart s c).pins = s.pins := by
  obtain ⟨u, he, hpins, -⟩ := restart_sampled s c
  rw [he, sampleStraps_pins, hpins]

theorem restart_request (s : Station) (c : ResetCause) : (restart s c).request = RequestUnit.reset := by
  obtain ⟨u, he, -, hrequest⟩ := restart_sampled s c
  rw [he, sampleStraps_request hrequest]

theorem restart_loading {s : Station} (h : ¬ (s.pins.straps % 16 = 0 ∨ s.pins.straps % 16 = 15)) (c : ResetCause) :
    (restart s c).loader.mode = .loading := by
  obtain ⟨u, he, hpins, -⟩ := restart_sampled s c
  rw [he, straps_neg u (by rwa [hpins])]

theorem restart_shut {s : Station} (h : s.pins.straps % 16 = 0 ∨ s.pins.straps % 16 = 15) (c : ResetCause) :
    (restart s c).loader.mode = .shut ∧ (restart s c).loader.shutReason = some .strap := by
  obtain ⟨u, he, hpins, -⟩ := restart_sampled s c
  rw [he, straps_pos u (by rwa [hpins])]
  exact enterShut_mode _ _

/-! ### An own reserved point completes (R10, R137) -/

theorem freeQueued_free {seq : Nat} {l : List PointEntry} {d : PointData} {c : Correction} (h : PointEntry.queued d c ∈ freeQueued seq l) :
    d.seq ≠ seq := by
  obtain ⟨e, -, he⟩ := List.mem_map.mp h
  cases e with
  | queued d' c' =>
    simp only at he
    split at he
    next => cases he
    next hne => cases he; exact hne
  | free => cases he
  | reserved => cases he
  | pending => cases he
  | ready => cases he

theorem ownFlight_kept {s u : Station} (f : Frame) (hl : u.loader = s.loader) (hf : u.line.flight = s.line.flight) :
    ownFlight u f = ownFlight s f := by
  rw [ownFlight, ownFlight, me, me, hl, hf]

theorem completeFrame_point {s : Station} {h : Hdr} {p : PointBody} {n : Nat} (ht : Says.takes s ⟨h, .point p⟩ n)
    (ho : ownFlight s ⟨h, .point p⟩ = true) :
    ∃ u : Station, u.line.flight = s.line.flight ∧
      completeFrame s ⟨h, .point p⟩ = setPoints { u with line := removeCompleted u.line } (freeQueued p.seq u.touch.points) := by
  obtain ⟨hs, hv, hg, hn⟩ := ht
  obtain ⟨u, hu, he⟩ := completeFrame_applied hs hv hg rfl hn (Bool.and_false _)
  rw [he]
  generalize (applyFormed (cellOf s) (n + 1) (namedBy s ⟨h, .point p⟩ n) ⟨h, .point p⟩ (tabs s)) = out
  have hreact := react_reacts (tabs s) (setTabs u out.1) ⟨h, .point p⟩ out.2
  have hflight := hreact.line.flight.trans hu.flight
  exact ⟨_, hflight, releaseOwn_point ((ownFlight_kept _ (hreact.loader.trans hu.loader) hflight).trans ho) rfl⟩

/-! ### The statement's four parts -/

theorem request_completes (h : Hdr) (tag : Code) (r : ReqBody) (s : Station) (hl : listening s = true) (hv : vetoedHere s = false)
    (hg : formatGood (cellOf s) ⟨h, .request tag r⟩ = true) :
    ∃ (u : Station) (lp : LinePort), Plain s u ∧ LineDone (deliver u s.line.window h tag r).line lp ∧
      completeFrame s ⟨h, .request tag r⟩ = { deliver u s.line.window h tag r with line := lp } := by
  obtain ⟨lp, he, hdone⟩ := releaseOwn_request (deliver (takeCount (closeClean s) ⟨h, .request tag r⟩) s.line.window h tag r)
    (f := ⟨h, .request tag r⟩) rfl
  exact ⟨_, lp, plain_count s _ (fun _ _ _ => Body.noConfusion), hdone,
    by rw [completeFrame_listening hl hv hg, handOn_request, he]⟩

/-- Settles O48, part by part. -/
theorem reportFramesComplete : Obligations.ReportFramesComplete := by
  unfold Obligations.ReportFramesComplete
  refine ⟨?request, ?reply, ?straps, ?point⟩
  case request =>
    intro h tag r s hl hv hg
    refine ⟨{ s with stn := completeFrame s.stn ⟨h, .request tag r⟩ }, rfl, rfl, ?_⟩
    obtain ⟨u, lp, hu, hdone, he⟩ := request_completes h tag r s.stn hl hv hg
    obtain ⟨hcount, hwindow, hreport, htabs, hloader, hmotion⟩ := deliver_keeps u s.stn.line.window h tag r
    rw [he]
    refine ⟨(hdone.lineCount.trans hcount).trans hu.lineCount, (hdone.window.trans hwindow).trans hu.window, htabs.trans hu.tabs,
      hloader.trans hu.loader, hmotion.trans hu.motion, (hdone.report.trans hreport).trans hu.report, fun ha hw => ?_, fun h0 hm => ?_⟩
    · obtain ⟨w, hw, hwr⟩ := hw
      have hd := deliver_reserved ((addressed_plain hu h).trans ((addressed_iff s.stn h).mpr ha)) hwr tag r
      have hres := hdone.reserved
      rw [hw, hd] at hres ⊢
      exact ⟨by rw [← hu.request], hres.trans hu.reserved⟩
    · have hd := deliver_elsewhere ((addressed_plain hu h).trans (by simp [addressed, h0, hm])) s.stn.line.window tag r
      have hres := hdone.reserved
      rw [hd] at hres ⊢
      exact ⟨hu.request, hres.trans hu.reserved⟩
  case reply =>
    intro c f s hc hb hl hv hg
    refine ⟨{ s with stn := effect c s.stn }, exec_effect c s, rfl, fun ho => ?_, fun ho hr => ?_, fun ho hr => ?_⟩
    · have hk := completeFrame_foreign hl hv hg hb ho
      rw [effect_reply_plain hc hb (by rw [ho]; rfl)]
      exact ⟨hk.lineCount, hk.window, hk.tabs, hk.loader, hk.motion, hk.request, hk.flight, hk.retry⟩
    · obtain ⟨u, hu, he⟩ := completeFrame_done hl hv hg hb ho hr
      obtain ⟨v, hflight⟩ := ownFlight_some ho
      obtain ⟨hnone, hretry, hcount, hwindow, -⟩ := removeCompleted_facts u.line v (hu.flight.trans hflight)
      rw [effect_reply_plain hc hb (by rw [hr, Bool.and_false]), he]
      exact ⟨hcount.trans hu.lineCount, hwindow.trans hu.window, hu.tabs, hu.loader, hu.motion, hu.request, hnone, hretry⟩
    · obtain ⟨p, hp⟩ := effect_reply_pins hc hb s.stn
      obtain ⟨u, hu, he⟩ := completeFrame_restarts (s := { s.stn with pins := p }) hl hv hg hb ho hr
      obtain ⟨hcause, hline, hreplica, henc, hhomed, hrecord, -⟩ := restart_facts { u with line := removeCompleted u.line } .requested
      rw [hp, he]
      exact ⟨hcause, hline, hreplica, henc.trans (congrArg _ hu.motion), hhomed.trans (congrArg _ hu.motion),
        hrecord.trans (congrArg _ hu.loader)⟩
  case straps =>
    intro h a straps s hl hv hg ho hr
    refine ⟨{ s with stn := completeFrame (strapsForRestart s.stn ⟨h, .answer a⟩ straps) ⟨h, .answer a⟩ }, rfl, rfl, ?_⟩
    obtain ⟨u, hu, he⟩ := completeFrame_restarts (s := setStraps s.stn straps) hl hv hg (.inl ⟨a, rfl⟩) ho hr
    rw [strapsForRestart_taken (by simp [taken, hl, hv, hg]) ho hr, he]
    have hpins : u.pins = { s.stn.pins with straps := straps % 16 } := hu.pins
    have hmod : u.pins.straps % 16 = straps % 16 := by rw [hpins]; exact Nat.mod_mod _ _
    obtain ⟨-, -, -, -, -, -, hnumber⟩ := restart_facts { u with line := removeCompleted u.line } .requested
    refine ⟨(restart_pins _ _).trans hpins, hnumber.trans hmod, restart_request _ _, fun h1 h14 => restart_loading ?_ _,
      fun hbad => restart_shut ?_ _⟩
    · show ¬ (u.pins.straps % 16 = 0 ∨ u.pins.straps % 16 = 15)
      omega
    · show u.pins.straps % 16 = 0 ∨ u.pins.straps % 16 = 15
      rwa [hmod]
  case point =>
    intro h p s n ht ho
    obtain ⟨u, hflight, he⟩ := completeFrame_point ht ho
    obtain ⟨v, hv⟩ := ownFlight_some ho
    obtain ⟨hnone, hretry, -⟩ := removeCompleted_facts u.line v (hflight.trans hv)
    refine ⟨{ s with stn := completeFrame s.stn ⟨h, .point p⟩ }, rfl, rfl, ?_⟩
    rw [he]
    exact ⟨hnone, hretry, fun d c hm => freeQueued_free hm⟩

end Sys2Proof.CellLine
end

section
/-! Reset and its values (R1, R20 and the reset lines of the chapters): the sizes hold from reset on, and what each reset does to the line
port. -/

namespace Sys2Proof.CellLine

open Sys2Proof Sys2Proof.Machine Sys2Proof.Laws

/-! ### The station at reset -/

/-- The values at reset are those of a station held in reset. -/
theorem owing_reset : Owing 0 Station.reset := owing_holdInReset Station.reset

theorem sized_reset : Sized Station.reset :=
  ⟨blank_sized, fun p hp => (by cases hp), rfl, rfl, rfl, rfl, rfl, rfl⟩

theorem creditsOk_reset : CreditsOk Station.reset :=
  creditsOk_of (fun c => chanOk_nil c (by cases c <;> rfl)) rfl fun _ => ⟨rfl, rfl⟩

/-- Settles O4: queues are empty and channels disabled at reset. -/
theorem resetKeepsSizes : Obligations.ResetKeepsSizes := by
  unfold Obligations.ResetKeepsSizes
  exact ⟨(bounded_iff _).mpr owing_reset, sized_reset, creditsOk_reset⟩

/-- Settles O8: the tables at reset are replicated blank entries; every other value stands in the definition. -/
theorem resetState : Obligations.ResetState := by
  unfold Obligations.ResetState
  refine ⟨rfl, rfl, rfl, rfl, rfl, rfl, rfl, rfl, rfl, rfl, rfl, rfl, rfl, rfl, rfl, ?heard, ?roster, rfl, rfl, ?latches,
    rfl, rfl, rfl, rfl, rfl, rfl, ?inputs, ?rack, rfl, ?points, rfl, rfl, rfl, rfl, rfl, rfl, rfl, rfl⟩
  case heard => exact List.forall_mem_replicate.mpr (.inr rfl)
  case roster => exact List.forall_mem_replicate.mpr (.inr ⟨rfl, rfl, rfl⟩)
  case latches => exact List.forall_mem_replicate.mpr (.inr rfl)
  case inputs => exact List.forall_mem_replicate.mpr (.inr ⟨rfl, rfl⟩)
  case rack => exact List.forall_mem_replicate.mpr (.inr rfl)
  case points => exact List.forall_mem_replicate.mpr (.inr rfl)

/-! ### Each reset on the line port -/

/-- Settles O9: a station held in reset has no axis enabled, since it does not work. -/
theorem resetAssertHolds : Obligations.ResetAssertHolds := by
  unfold Obligations.ResetAssertHolds
  intro s
  exact ⟨{ s with stn := holdInReset s.stn }, rfl, rfl, rfl, rfl, rfl, rfl, rfl, fun _ => rfl, rfl, rfl, rfl, rfl, rfl, rfl, rfl, rfl, rfl⟩

theorem restart_line (s : Station) (c : ResetCause) : (restart s c).line = LinePort.reset := by
  obtain ⟨-, hline, -⟩ := restart_facts s c
  exact hline

theorem listening_shut {s : Station} (h : s.loader.mode = .shut) : listening s = false := by
  rw [listening, h, Bool.and_false]

theorem listening_out {s : Station} (h : s.loader.mode = .out) : listening s = false := by
  rw [listening, h, Bool.and_false]

/-- Both ways out of the line, OUT and SHUT, reset the line port and leave the receiver off. -/
theorem enterOut_line (s : Station) (c : OutCause) : (enterOut s c).line = lineOut s.line ∧ listening (enterOut s c) = false := by
  unfold enterOut
  simp only
  split
  · exact ⟨rfl, listening_shut rfl⟩
  · exact ⟨rfl, listening_out rfl⟩

/-- Settles O16: a reset and a restart leave the line port at its reset values; OUT keeps the retry count and the window log (R3, R6). -/
theorem linePortAcrossResets : Obligations.LinePortAcrossResets := by
  unfold Obligations.LinePortAcrossResets
  exact ⟨fun _ => rfl, restart_line, enterOut_line, rfl, rfl, rfl, rfl, rfl, rfl, rfl, rfl, rfl, rfl, rfl, rfl,
    List.forall_mem_replicate.mpr (.inr rfl)⟩

end Sys2Proof.CellLine
end

section
/-! A completed frame at a station of the cell in the words of the statements: counted, the roster following the sender's flags, the other
tables as they were or as a silence, a refusal or a rejoin leaves them (R7, R9, R10, R22, R31, R33, R41). -/

namespace Sys2Proof.CellJoin

open Sys2Proof Sys2Proof.Machine Sys2Proof.Laws

/-! ### Frames that change no table but the roster -/

theorem counted_of_live {s t : Station} {f : Frame} {n : Nat} (h : LiveFrame s t f n) : Says.counted s t f.h n :=
  ⟨h.lineCount, h.heard, h.window, h.now, h.pins, h.loader, h.enc, h.thermal, h.delivered⟩

/-- Every table but the roster and the cell record is as it was. -/
def TablesStay (s t : Station) : Prop :=
  Says.zonesStay s t ∧ Says.probesStay s t ∧ Says.portsStay s t ∧ Says.boardStays s t ∧ Says.latchesStay s t

/-- A frame that changes no table but its sender's roster flags (R22). -/
def RosterAlone (s t : Station) (h : Hdr) (n : Nat) : Prop := Says.counted s t h n ∧ Says.rosterFollows s t h n ∧ TablesStay s t

theorem tablesStay_of_roster {s t : Station} {c : CellPart} {r : Replica} (hr : r = { tabs s with roster := r.roster })
    (ht : tabs t = derive c r) : TablesStay s t := by
  unfold TablesStay Says.zonesStay Says.probesStay Says.portsStay Says.boardStays Says.latchesStay
  rw [ht, hr]
  exact ⟨⟨rfl, rfl⟩, rfl, rfl, rfl, rfl⟩

theorem rosterEntry_derive (c : CellPart) (r : Replica) (k : Nat) : rosterEntry (derive c r) k = rosterEntry r k := rfl

theorem follows_of_passed {s t : Station} {c : CellPart} {h : Hdr} {n : Nat} {r : Replica} (hp : Passed (cellOf s) (n + 1) h (tabs s) r)
    (ht : tabs t = derive c r) : Says.rosterFollows s t h n := by
  unfold Says.rosterFollows
  rw [ht]
  exact ⟨by rw [derive_cell, hp.rest], hp.others, hp.flagged, hp.unflagged⟩

theorem rosterAlone_of_passed {s t : Station} {c : CellPart} {f : Frame} {n : Nat} {r : Replica} (hl : LiveFrame s t f n)
    (hp : Passed (cellOf s) (n + 1) f.h (tabs s) r) (ht : tabs t = derive c r) : RosterAlone s t f.h n :=
  ⟨counted_of_live hl, follows_of_passed hp ht, tablesStay_of_roster hp.rest ht⟩

/-- The frame whose sender passes the roster step: what its kind does to the tables, unless it silences this station (R22, R42). -/
theorem completeFrame_passed {s : Station} {f : Frame} {n : Nat} (ht : Says.takes s f n) (hp : passesRoster f.body = true)
    (hj : isJoin f.body = false) (ha : Says.passes s f.h) :
    ∃ r, Passed (cellOf s) (n + 1) f.h (tabs s) r ∧
      (((applyKind (cellOf s) (n + 1) f.h.sender (namedBy s f n) f.h.dest f.body r).2.took && silencesMe (me s) f.body) = false →
        LiveFrame s (completeFrame s f) f n ∧ tabs (completeFrame s f) =
          derive (cellOf s) (applyKind (cellOf s) (n + 1) f.h.sender (namedBy s f n) f.h.dest f.body r).1) := by
  obtain ⟨hs, hv, hg, hl⟩ := ht
  obtain ⟨r, hr, htables, hfx⟩ := applyFormed_kind (cellOf s) (n + 1) (namedBy s f n) f (tabs s) hj hp ha
  refine ⟨r, hr, fun hsil => ?_⟩
  obtain ⟨hlive, htabs⟩ := completeFrame_live hs hv hg hp hl (by rw [hfx]; exact hsil)
  exact ⟨hlive, htabs.trans htables⟩

/-- A kind that is void leaves the roster step alone. -/
theorem completeFrame_void {s : Station} {f : Frame} {n : Nat} (ht : Says.takes s f n) (hp : passesRoster f.body = true)
    (hj : isJoin f.body = false) (ha : Says.passes s f.h)
    (hvoid : ∀ r, Passed (cellOf s) (n + 1) f.h (tabs s) r →
      applyKind (cellOf s) (n + 1) f.h.sender (namedBy s f n) f.h.dest f.body r = (r, Fx.void)) :
    RosterAlone s (completeFrame s f) f.h n := by
  obtain ⟨r, hr, h⟩ := completeFrame_passed ht hp hj ha
  rw [hvoid r hr] at h
  obtain ⟨hlive, htabs⟩ := h rfl
  exact rosterAlone_of_passed hlive hr htabs

/-! ### The grant scan at the end of an application (R52) -/

theorem scan_keeps_zone (c : CellPart) (lc : Nat) {r : Replica} {z : Nat} (hz : z < r.zones.length) (hn : (zoneEntry r z).hold ≠ .free) :
    zoneEntry (scan c lc r).1 z = zoneEntry r z :=
  (scan_facts c lc r).1.kept z hz hn

theorem scan_claimants (c : CellPart) (lc : Nat) {r : Replica} {k : Nat} (h : ∀ d ∈ r.claims, d.claimant ≠ k) :
    ∀ d ∈ (scan c lc r).1.claims, d.claimant ≠ k := fun d hd => by
  obtain ⟨e, he, hk, -⟩ := (scan_facts c lc r).2.1 d hd
  rw [hk]
  exact h e he

/-! ### A station's part taken away (R41, R64) -/

theorem orphanZones_entry (c : CellPart) (lc k : Nat) {r : Replica} {z : Nat} (hz : z < r.zones.length) :
    zoneEntry (orphanZones c lc k r) z =
      if (zoneEntry r z).hold = .held k ∧ ¬ (isHome c z = true ∧ (zoneCfg c z).owner = k) then ⟨.orphaned k, lc⟩ else zoneEntry r z := by
  have h := setHold_getD r.zones (fun z e => e.hold == .held k && !(isHome c z && (zoneCfg c z).owner == k)) (.orphaned k) lc z hz ⟨.free, 0⟩
  unfold zoneEntry orphanZones
  rw [h]
  simp [imp_iff_not_or]

theorem orphanZones_claims (c : CellPart) (lc k : Nat) (r : Replica) : ∀ d ∈ (orphanZones c lc k r).claims, d.claimant ≠ k := fun d hd => by
  simpa using (List.mem_filter.mp hd).2

/-- Zones, claims, board and latch once the part of station `k` is taken away and the scan is made: `a` is the replica before the scan,
which may differ in its roster (R33, R41, R52). -/
theorem orphaned_of_leave {s t : Station} {k n : Nat} {r a : Replica} (hsize : (tabs s).zones.length = 32) (hr : r.zones = (tabs s).zones)
    (ha : a = { leaveTables (cellOf s) (n + 1) k (orphanZones (cellOf s) (n + 1) k r) with roster := a.roster })
    (ht : tabs t = derive (cellOf s) (scan (cellOf s) (n + 1) a).1) : Says.orphaned s t k n := by
  have hleft := leaveTables_left (cellOf s) (n + 1) k (orphanZones (cellOf s) (n + 1) k r)
  have hzones : a.zones = (orphanZones (cellOf s) (n + 1) k r).zones := by rw [ha]; exact hleft.zones
  have hclaims : a.claims = (orphanZones (cellOf s) (n + 1) k r).claims := by rw [ha]; exact hleft.claims
  have hlen : a.zones.length = 32 := by rw [hzones, ← hsize, ← hr]; exact setHold_length _ _ _ _
  have hentry : ∀ z < 32, zoneEntry a z = if (zoneEntry (tabs s) z).hold = .held k ∧
      ¬ (isHome (cellOf s) z = true ∧ (zoneCfg (cellOf s) z).owner = k) then ⟨.orphaned k, n + 1⟩ else zoneEntry (tabs s) z := fun z hz => by
    rw [zoneEntry_congr hzones, orphanZones_entry _ _ _ (by rw [hr, hsize]; exact hz), zoneEntry_congr hr]
  have hkept : ∀ z < 32, (zoneEntry a z).hold ≠ .free → zoneEntry (tabs t) z = zoneEntry a z := fun z hz hn => by
    rw [ht, zoneEntry_congr (derive_zones _ _)]
    exact scan_keeps_zone (cellOf s) (n + 1) (by rw [hlen]; exact hz) hn
  unfold Says.orphaned
  refine ⟨fun z hz hh hhome => ?orphans, fun z hz hh hi ho => ?home, fun z hz hh hf => ?other, ?claims, ?board, ?latch⟩
  case orphans =>
    have he := hentry z hz
    rw [if_pos ⟨hh, hhome⟩] at he
    rw [hkept z hz (by rw [he]; exact ZoneHold.noConfusion), he]
  case home =>
    have he := hentry z hz
    rw [if_neg (fun hc => hc.2 ⟨hi, ho⟩)] at he
    rw [hkept z hz (by rw [he, hh]; exact ZoneHold.noConfusion), he]
  case other =>
    have he := hentry z hz
    rw [if_neg (fun hc => hh hc.1)] at he
    rw [hkept z hz (by rw [he]; exact hf), he]
  case claims =>
    rw [ht, derive_claims]
    exact scan_claimants _ _ (by rw [hclaims]; exact orphanZones_claims _ _ _ _)
  case board =>
    rw [ht, derive_board, scan_board, ha]
    exact hleft.board
  case latch =>
    rw [ht, la_derive, show latchOf (scan (cellOf s) (n + 1) a).1 k = latchOf a k from rfl, ha]
    exact hleft.latch

/-! ### SILENCE (R41, R42) -/

theorem silenceStation_void {c : CellPart} {lc k : Nat} {heard : Bool} {r : Replica}
    (h : ¬ (roleIn c k = .mc410 ∧ (rosterEntry r k).state = .active ∧ heard = true)) : silenceStation c lc k heard r = (r, Fx.void) := if_neg h

/-- The replica of a SILENCE that takes effect, before its scan. -/
def silencedTables (c : CellPart) (lc k : Nat) (r : Replica) : Replica :=
  leaveTables c lc k (orphanZones c lc k (setRoster r lc k { rosterEntry r k with state := .silent }))

theorem silenceStation_takes {c : CellPart} {lc k : Nat} {heard : Bool} {r : Replica}
    (h : roleIn c k = .mc410 ∧ (rosterEntry r k).state = .active ∧ heard = true) :
    silenceStation c lc k heard r = withScan c lc Fx.plain (silencedTables c lc k r) := if_pos h

theorem passed_state {c : CellPart} {lc : Nat} {h : Hdr} {r t : Replica} (hp : Passed c lc h r t) (k : Nat) :
    (rosterEntry t k).state = (rosterEntry r k).state := by
  by_cases hk : k = h.sender
  · rw [hk]; exact hp.state
  · rw [hp.others k hk]

/-- The condition of R41 is judged on the replica after the roster step. -/
theorem isSilenced_iff {s : Station} {h : Hdr} {k count n : Nat} {r : Replica} (hp : Passed (cellOf s) (n + 1) h (tabs s) r) :
    Says.isSilenced s h k count n ↔
      roleIn (cellOf s) k = .mc410 ∧ (rosterEntry r k).state = .active ∧ namedBy s ⟨h, .silence k count⟩ n = true := by
  unfold Says.isSilenced namedBy heardAfter
  rw [passed_state hp k, beq_iff_eq]

end Sys2Proof.CellJoin
end

section
/-! What a SILENCE, a SNAP_END, and a frame of a station that its own flag makes ACTIVE leave of the roster, and the statements about them
(R21, R22, R35, R41, R42). -/

namespace Sys2Proof.CellJoin

open Sys2Proof Sys2Proof.Machine Sys2Proof.Laws
open Sys2Proof.CellLine (effect exec_effect effect_frame Readied enterOut_wentOut)

/-! ### The roster under each kind -/

theorem portsOnly_roster {r t : Replica} (h : PortsOnly r t) : t.roster = r.roster := by rw [h]

theorem emptyLatch_roster (lc k : Nat) (r : Replica) : (emptyLatch lc k r).roster = r.roster := by
  obtain ⟨-, h, -⟩ := emptyLatch_latch lc k r
  rw [h]

theorem stampProbe_roster (r : Replica) (lc x : Nat) (e : ProbeRec) : (stampProbe r lc x e).roster = r.roster := by
  unfold stampProbe
  simp only
  split <;> rfl

theorem staleCheck_roster (c : CellPart) (lc k : Nat) (r : Replica) : (staleCheck c lc k r).roster = r.roster := by
  unfold staleCheck
  split
  · rfl
  · exact stampProbe_roster _ _ _ _

/-- A rule that may be void leaves the roster as it is. -/
def RosterKept (r : Replica) (o : Option Replica) : Prop := ∀ t, o = some t → t.roster = r.roster

theorem rosterKept_ports {r : Replica} {o : Option Replica} (h : portsOnlyOpt r o) : RosterKept r o := fun t ht => portsOnly_roster (h t ht)

theorem RosterKept.guarded {r : Replica} {o : Option Replica} (h : RosterKept r o) (b : Bool) : RosterKept r (if b = true then o else none) := by
  intro t ht
  split at ht
  · exact h t ht
  · cases ht

theorem RosterKept.orVoid {r : Replica} {o : Option Replica} (h : RosterKept r o) : (orVoid r o).1.roster = r.roster := by
  cases o with
  | none => rfl
  | some t => exact h t rfl

theorem rosterKept_recordClaim (c : CellPart) (lc k : Nat) (mask : ZoneMask) (base : Prio) (r : Replica) :
    RosterKept r (recordClaim c lc k mask base r) := by
  intro t ht
  unfold recordClaim at ht
  simp only at ht
  split at ht
  · cases ht
  · split at ht <;> (cases ht; rfl)

theorem rosterKept_stagePart (c : CellPart) (lc k x i n : Nat) (tip : Tip) (r : Replica) : RosterKept r (stagePart c lc k x i n tip r) := by
  intro t ht
  unfold stagePart at ht
  simp only at ht
  split at ht
  · cases ht
  · split at ht
    · cases ht; rfl
    · split at ht <;> (cases ht; rfl)

theorem rosterKept_markProbe (c : CellPart) (lc k x : Nat) (r : Replica) : RosterKept r (markProbe c lc k x r) := by
  intro t ht
  unfold markProbe at ht
  split at ht
  · cases ht; exact stampProbe_roster _ _ _ _
  · cases ht

theorem rosterKept_touchProbe (c : CellPart) (lc x : Nat) (r : Replica) : RosterKept r (touchProbe c lc x r) := by
  intro t ht
  unfold touchProbe at ht
  split at ht
  · cases ht; exact stampProbe_roster _ _ _ _
  · cases ht

/-- No kind but SILENCE and SNAP_END touches the roster beyond the roster step (R22). -/
theorem applyKind_roster (c : CellPart) (lc k dest : Nat) (heard : Bool) (b : Body) (r : Replica) (hs : ∀ j count, b ≠ .silence j count)
    (he : ∀ jn count fp, b ≠ .snapEnd jn count fp) : (applyKind c lc k heard dest b r).1.roster = r.roster := by
  unfold applyKind
  split
  case h_1 => exact absurd rfl (hs _ _)
  case h_2 => exact absurd rfl (he _ _ _)
  case h_3 =>
    split
    · rfl
    · next hr => rw [withScan_tables, scan_roster]; exact rosterKept_recordClaim _ _ _ _ _ _ _ hr
  case h_4 => split <;> rfl
  case h_5 => split <;> rfl
  case h_6 => exact (rosterKept_ports (portsOnly_reservePort _ _ _ _ _ _ _)).orVoid
  case h_7 =>
    split
    · exact portsOnly_roster (portsOnly_reportPort _ _ _ _ _ _ _)
    · rfl
  case h_8 => exact ((rosterKept_ports (portsOnly_abandonPort _ _ _ _ _)).guarded _).orVoid
  case h_9 => exact ((rosterKept_ports (portsOnly_depositProbe _ _ _ _ _)).guarded _).orVoid
  case h_10 => exact ((rosterKept_ports (portsOnly_takeProbe _ _ _ _ _ _ _)).guarded _).orVoid
  case h_11 => exact portsOnly_roster (portsOnly_mountProbe _ _ _ _ _)
  case h_12 => exact (rosterKept_ports (portsOnly_custodyBy _ _ _ _ _)).orVoid
  case h_13 => exact (rosterKept_stagePart _ _ _ _ _ _ _ _).orVoid
  case h_14 => split <;> exact emptyLatch_roster _ _ _
  case h_15 => exact (rosterKept_markProbe _ _ _ _ _).orVoid
  case h_16 => exact staleCheck_roster _ _ _ _
  case h_17 => exact (rosterKept_touchProbe _ _ _ _).orVoid
  case h_18 => rfl

/-! ### Services that end (R35) -/

theorem rosterEntry_congr {r t : Replica} (h : r.roster = t.roster) (k : Nat) : rosterEntry r k = rosterEntry t k := by
  unfold rosterEntry
  rw [h]

theorem endServices_kept (lc : Nat) {p : Nat → Nat × Nat → Bool} {r : Replica} {k : Nat} (h : ∀ v, (rosterEntry r k).serving = some v → p k v = false) :
    rosterEntry (endServices lc p r) k = rosterEntry r k := by
  by_cases hin : 1 ≤ k ∧ k ≤ r.roster.length
  · rw [endServices_entry lc p r k hin.1 hin.2]
    split
    next => rfl
    next v hv => rw [h v hv]; rfl
  · exact endServices_outside lc p r k hin

/-- A service that ends changes its entry's service and stamp, and no more. -/
theorem endServices_ended (lc : Nat) {p : Nat → Nat × Nat → Bool} {r : Replica} {k : Nat} {v : Nat × Nat} (hv : (rosterEntry r k).serving = some v)
    (h : p k v = true) : rosterEntry (endServices lc p r) k = { rosterEntry r k with serving := none, stamp := lc } := by
  obtain ⟨h1, h2⟩ := at1_range r.roster unseenEntry k (fun hc => by
    have hnone : (rosterEntry r k).serving = none := congrArg RosterEntry.serving hc
    rw [hv] at hnone
    cases hnone)
  rw [endServices_entry lc p r k h1 h2, hv]
  exact if_pos h

theorem endServices_cases (lc : Nat) (p : Nat → Nat × Nat → Bool) (r : Replica) (k : Nat) :
    rosterEntry (endServices lc p r) k = rosterEntry r k ∨
      rosterEntry (endServices lc p r) k = { rosterEntry r k with serving := none, stamp := lc } := by
  cases hs : (rosterEntry r k).serving with
  | none => exact .inl (endServices_kept lc fun v hv => by rw [hs] at hv; cases hv)
  | some v =>
    cases hp : p k v with
    | true => exact .inr (endServices_ended lc hs hp)
    | false => exact .inl (endServices_kept lc fun w hw => by rw [hs] at hw; cases hw; exact hp)

/-- What is taken away from station `k` leaves every other station's roster entry as it is (R31, R33, R41). -/
theorem leaveTables_entry (c : CellPart) (lc : Nat) {k j : Nat} (r : Replica) (h : j ≠ k) :
    rosterEntry (leaveTables c lc k r) j = rosterEntry r j := by
  have hr : (leavePorts c lc k (emptyLatch lc k { r with board := excludeEntries lc k r.board })).roster = r.roster := by
    rw [portsOnly_roster (portsOnly_leavePorts _ _ _ _), emptyLatch_roster]
  unfold leaveTables
  rw [endServices_kept lc fun v _ => by simp [h], rosterEntry_congr hr]

theorem silenceStation_entry (c : CellPart) (lc : Nat) {k j : Nat} (heard : Bool) (r : Replica) (h : j ≠ k) :
    rosterEntry (silenceStation c lc k heard r).1 j = rosterEntry r j := by
  by_cases ht : roleIn c k = .mc410 ∧ (rosterEntry r k).state = .active ∧ heard = true
  · rw [silenceStation_takes ht, withScan_tables, rosterEntry_congr (scan_roster _ _ _), silencedTables, leaveTables_entry _ _ _ h]
    obtain ⟨-, hother⟩ := setRoster_facts r lc k { rosterEntry r k with state := .silent }
    exact hother j h
  · rw [silenceStation_void ht]

/-- The sender's entry, once it bears the stamp of the frame, changes in its service alone (R22, R35). -/
theorem applyKind_sender (c : CellPart) (lc k dest : Nat) (heard : Bool) (b : Body) {r : Replica} (hs : ∀ j count, b = .silence j count → j ≠ k)
    (hl : (rosterEntry r k).stamp = lc) : rosterEntry (applyKind c lc k heard dest b r).1 k =
      { rosterEntry r k with serving := (rosterEntry (applyKind c lc k heard dest b r).1 k).serving } := by
  have same : ∀ t : Replica, rosterEntry t k = rosterEntry r k →
      rosterEntry t k = { rosterEntry r k with serving := (rosterEntry t k).serving } := fun t ht => by rw [ht]
  cases b
  case silence j count => exact same _ (silenceStation_entry c lc heard r (Ne.symm (hs j count rfl)))
  case snapEnd jn count fp =>
    have he : (applyKind c lc k heard dest (.snapEnd jn count fp) r).1 = endServices lc (fun j v => j == k && v == (dest, jn)) r := rfl
    rw [he]
    rcases endServices_cases lc (fun j v => j == k && v == (dest, jn)) r k with h | h
    · exact same _ h
    · rw [h, ← hl]
  all_goals exact same _ (rosterEntry_congr (applyKind_roster _ _ _ _ _ _ _ (fun _ _ => Body.noConfusion) (fun _ _ _ => Body.noConfusion)) k)

/-! ### A sender that is not ACTIVE (R22) -/

/-- A sender that is not ACTIVE and that its flag does not make ACTIVE does not get past the roster step. -/
theorem applyFormed_stopped {c : CellPart} {lc : Nat} {heard : Bool} {f : Frame} {r : Replica} (hj : isJoin f.body = false)
    (hp : passesRoster f.body = true) (hr : roleIn c f.h.sender = .mc410)
    (hn : (rosterEntry (rosterStep lc f.h r) f.h.sender).state ≠ .active) :
    applyFormed c lc heard f r = (derive c (rosterStep lc f.h r), Fx.void) := by
  unfold applyFormed
  split
  next hb => rw [hb] at hj; cases hj
  next => simp [hp, hr, hn]

/-- A JOINING sender whose frame carries the ACTIVE flag is ACTIVE, its entry stamped (R21, R22). -/
theorem rosterStep_activates (lc : Nat) {h : Hdr} {r : Replica} (hj : (rosterEntry r h.sender).state = .joining) (ha : h.active = true) :
    rosterEntry (rosterStep lc h r) h.sender =
      { rosterEntry r h.sender with state := .active, homed := h.homed, parked := h.parked, stamp := lc } := by
  obtain ⟨h1, h2⟩ := at1_range r.roster unseenEntry h.sender (fun hc => by
    have hu : (rosterEntry r h.sender).state = .unseen := congrArg RosterEntry.state hc
    rw [hj] at hu
    cases hu)
  have hdiff : ¬ ({ rosterEntry r h.sender with
      state := .active, homed := h.homed, parked := h.parked, stamp := (rosterEntry r h.sender).stamp } : RosterEntry) = rosterEntry r h.sender :=
    fun hc => by
      have hs := congrArg RosterEntry.state hc
      rw [hj] at hs
      cases hs
  unfold rosterStep
  simp only [hj, ha, and_self, if_true, or_true]
  unfold setRoster
  simp only
  rw [if_neg hdiff]
  exact at1_set1_same _ _ _ _ h1 h2

theorem applyFormed_activated {c : CellPart} {lc : Nat} {heard : Bool} {f : Frame} {r : Replica} (hb : isJoin f.body = false)
    (hp : passesRoster f.body = true) (hr : roleIn c f.h.sender = .mc410)
    (ha : (rosterEntry (rosterStep lc f.h r) f.h.sender).state = .active) :
    applyFormed c lc heard f r =
      (derive c (applyKind c lc f.h.sender heard f.h.dest f.body (rosterStep lc f.h r)).1,
        (applyKind c lc f.h.sender heard f.h.dest f.body (rosterStep lc f.h r)).2) := by
  unfold applyFormed
  split
  next he => rw [he] at hb; cases hb
  next => simp [hp, hr, ha]

/-- A command that brings counts or straps with its frame brings none where the station serves and the frame is not an ANSWER. -/
theorem readied_serving {s u : Station} {f : Frame} (h : Readied s f u) (hs : serving s = true) (hp : passesRoster f.body = true) : u = s := by
  cases h with
  | plain => rfl
  | counts enc => simp [countsForStart, serving_not_joining hs]
  | straps n =>
    have hans : answersRestart s f.body = false := by
      unfold answersRestart
      split
      next hb => rw [hb] at hp; cases hp
      next => rfl
    simp [strapsForRestart, hans]

theorem effect_serving {c : Instr} {f : Frame} {s : Station} (hc : Says.frameOf c = some f) (hs : serving s = true)
    (hp : passesRoster f.body = true) : effect c s = completeFrame s f := by
  obtain ⟨u, hu, he⟩ := effect_frame hc s
  rw [he, readied_serving hu hs hp]

/-- A frame that does not silence this station is no SILENCE that names it. -/
theorem silencesMe_false {k : Nat} {b : Body} (h : ∀ j count, b = .silence j count → j ≠ k) : silencesMe k b = false := by
  cases hb : silencesMe k b with
  | false => rfl
  | true =>
    obtain ⟨count, he⟩ := silences_named hb
    exact absurd rfl (h k count he)

section
variable {s : Station} {f : Frame} {n : Nat} (ht : Says.takes s f n) (hp : passesRoster f.body = true) (hj : isJoin f.body = false)
  (hr : roleIn (cellOf s) f.h.sender = .mc410)
include ht hp hj hr

theorem completeFrame_stopped (hn : (rosterEntry (tabs s) f.h.sender).state ≠ .active)
    (ha : (rosterEntry (tabs s) f.h.sender).state ≠ .joining ∨ f.h.active = false) : RosterAlone s (completeFrame s f) f.h n := by
  obtain ⟨hs, hv, hg, hl⟩ := ht
  have hpass := step_nonactive (cellOf s) (n + 1) f.h (tabs s) hr hn ha
  have he := applyFormed_stopped (heard := namedBy s f n) hj hp hr (by rw [hpass.state]; exact hn)
  obtain ⟨hlive, htabs⟩ := completeFrame_live hs hv hg hp hl (by rw [he]; rfl)
  exact rosterAlone_of_passed hlive hpass (by rw [htabs, he])

theorem completeFrame_activated (hst : (rosterEntry (tabs s) f.h.sender).state = .joining) (ha : f.h.active = true)
    (hsil : ∀ k count, f.body = .silence k count → k ≠ f.h.sender ∧ k ≠ me s) :
    Says.counted s (completeFrame s f) f.h n ∧ tabs (completeFrame s f) = derive (cellOf s)
      (applyKind (cellOf s) (n + 1) f.h.sender (namedBy s f n) f.h.dest f.body (rosterStep (n + 1) f.h (tabs s))).1 := by
  obtain ⟨hs, hv, hg, hl⟩ := ht
  have he := applyFormed_activated (heard := namedBy s f n) hj hp hr (by rw [rosterStep_activates (n + 1) hst ha])
  obtain ⟨hlive, htabs⟩ := completeFrame_live hs hv hg hp hl (by
    rw [silencesMe_false fun k count hb => (hsil k count hb).2, Bool.and_false])
  exact ⟨counted_of_live hlive, by rw [htabs, he]⟩

end

/-- Settles O36: the roster step stops the frame of a sender that is not ACTIVE, or makes the sender ACTIVE before its kind is applied. -/
theorem senderMustBeActive : Obligations.SenderMustBeActive := by
  unfold Obligations.SenderMustBeActive
  intro c f s n hc ht hp hb hr _ hn
  have hj := isJoin_false hb
  refine ⟨{ s with stn := effect c s.stn }, exec_effect c s, rfl, ?_⟩
  simp only [effect_serving hc ht.1 hp]
  refine ⟨completeFrame_stopped ht hp hj hr hn, fun hst ha hsil => ?_⟩
  obtain ⟨hcounted, htabs⟩ := completeFrame_activated ht hp hj hr hst ha hsil
  have hstep := rosterStep_activates (n + 1) hst ha
  have hentry := applyKind_sender (cellOf s.stn) (n + 1) f.h.sender f.h.dest (namedBy s.stn f n) f.body
    (r := rosterStep (n + 1) f.h (tabs s.stn)) (fun j count h => (hsil j count h).1) (by rw [hstep])
  refine ⟨hcounted, ?_, fun hns hne => ?_⟩
  · rw [htabs, rosterEntry_derive, hentry, hstep]
  · rw [htabs, rosterEntry_derive, rosterEntry_congr (applyKind_roster _ _ _ _ _ _ _ hns hne), hstep]

/-! ### SILENCE at a serving station (R41, R42) -/

/-- A SILENCE that takes effect on another station leaves it SILENT and its part taken away. -/
theorem completeFrame_silences {s : Station} {h : Hdr} {k count n : Nat} (ht : Says.takes s ⟨h, .silence k count⟩ n) (ha : Says.passes s h)
    (hz : TablesSized (tabs s)) (hsil : Says.isSilenced s h k count n) (hk : k ≠ me s) :
    Says.counted s (completeFrame s ⟨h, .silence k count⟩) h n ∧
      (rosterEntry (tabs (completeFrame s ⟨h, .silence k count⟩)) k).state = .silent ∧
      Says.orphaned s (completeFrame s ⟨h, .silence k count⟩) k n := by
  obtain ⟨r, hr, h1⟩ := completeFrame_passed ht rfl rfl ha
  have htakes := (isSilenced_iff hr).mp hsil
  have hkind : applyKind (cellOf s) (n + 1) h.sender (namedBy s ⟨h, .silence k count⟩ n) h.dest (.silence k count) r =
      withScan (cellOf s) (n + 1) Fx.plain (silencedTables (cellOf s) (n + 1) k r) := silenceStation_takes htakes
  obtain ⟨hlive, htabs⟩ := h1 (by rw [silencesMe_false (by rintro j c ⟨⟩; exact hk), Bool.and_false])
  rw [hkind, withScan_tables] at htabs
  obtain ⟨k1, k2⟩ := at1_range r.roster unseenEntry k (fun hc => by
    have hu : (rosterEntry r k).state = .unseen := congrArg RosterEntry.state hc
    rw [htakes.2.1] at hu
    cases hu)
  obtain ⟨hrest, -⟩ := setRoster_facts r (n + 1) k { rosterEntry r k with state := .silent }
  refine ⟨counted_of_live hlive, ?_, orphaned_of_leave hz.zones (r := setRoster r (n + 1) k { rosterEntry r k with state := .silent }) ?_ rfl htabs⟩
  · rw [htabs, rosterEntry_derive, rosterEntry_congr (scan_roster _ _ _)]
    obtain ⟨st, hst⟩ := setRoster_same r (n + 1) k { rosterEntry r k with state := .silent } k1 k2
    rw [silencedTables, (leaveTables_left _ _ _ _).keeps]
    show (rosterEntry (setRoster r (n + 1) k _) k).state = _
    rw [hst]
  · rw [hrest, hr.rest]

/-- A replicated frame at a serving station goes to the Replica Unit (R7). -/
theorem handOn_live {s u : Station} {f : Frame} {n : Nat} (hc : Counted s u f n) (hs : serving s = true) (hp : passesRoster f.body = true)
    (w : Option Window) : handOn u w f = applyLive u f := by
  have hu : serving u = true := by rw [← hs]; unfold serving; rw [hc.loader]
  unfold handOn
  split
  next hb => rw [hb] at hp; cases hp
  next => simp [serving_not_joining hu, hu, hp]

/-- A SILENCE of this station that takes effect sends it OUT (R42). -/
theorem applyLive_silenced {s u : Station} {h : Hdr} {count n : Nat} (hc : Counted s u ⟨h, .silence (me s) count⟩ n) (ha : Says.passes s h)
    (hsil : Says.isSilenced s h (me s) count n) : ∃ r, applyLive u ⟨h, .silence (me s) count⟩ = enterOut (setTabs u r) .silenced := by
  obtain ⟨r, hr, -, hfx⟩ := applyFormed_kind (cellOf s) (n + 1) (namedBy s ⟨h, .silence (me s) count⟩ n) ⟨h, .silence (me s) count⟩ (tabs s)
    rfl rfl ha
  have hkind : (applyKind (cellOf s) (n + 1) h.sender (namedBy s ⟨h, .silence (me s) count⟩ n) h.dest (.silence (me s) count) r).2.took = true := by
    show (silenceStation _ _ _ _ _).2.took = true
    rw [silenceStation_takes ((isSilenced_iff hr).mp hsil)]
    rfl
  have hcell : cellOf u = cellOf s := by unfold cellOf; rw [hc.loader]
  have hme : me u = me s := by unfold me; rw [hc.loader]
  have htabs : tabs u = tabs s := by unfold tabs; rw [hc.replica]
  have hcount : lineCountOf u = n + 1 := by unfold lineCountOf; rw [hc.lineCount]; rfl
  have hnamed : namesLastHeard u.line (.silence (me s) count) = namedBy s ⟨h, .silence (me s) count⟩ n := by
    show ((at1 u.line.heard ⟨.none, 0⟩ (me s)).count == .abs count) = _
    rw [hc.heard]
    rfl
  refine ⟨(applyFormed (cellOf u) (lineCountOf u) (namesLastHeard u.line (.silence (me s) count)) ⟨h, .silence (me s) count⟩ (tabs u)).1, ?_⟩
  unfold applyLive
  simp only
  rw [if_pos]
  rw [hcell, hcount, hnamed, htabs, hfx, hkind, hme]
  exact beq_self_eq_true (me s)

theorem wentOut_congr {s u t v : Station} {cause : OutCause} (h : Says.wentOut u v cause) (hl : u.loader = s.loader) (hn : u.now = s.now)
    (ht : t.loader = v.loader) : Says.wentOut s t cause := by
  unfold Says.wentOut at h ⊢
  rw [hl, hn] at h
  rw [ht]
  exact h

/-- The station itself, silenced, goes OUT (R42). -/
theorem completeFrame_silencesMe {s : Station} {h : Hdr} {count n : Nat} (ht : Says.takes s ⟨h, .silence (me s) count⟩ n)
    (ha : Says.passes s h) (hsil : Says.isSilenced s h (me s) count n) :
    Says.wentOut s (completeFrame s ⟨h, .silence (me s) count⟩) .silenced := by
  obtain ⟨hs, hv, hg, hl⟩ := ht
  have hc := counted_live hs hl ⟨h, .silence (me s) count⟩
  rw [completeFrame_eq hs hv hg, handOn_live hc hs rfl]
  obtain ⟨r, hr⟩ := applyLive_silenced hc ha hsil
  rw [hr]
  have hout := enterOut_wentOut (setTabs (takeCount (closeClean s) ⟨h, .silence (me s) count⟩) r) .silenced
  exact wentOut_congr hout hc.loader hc.now (releaseOwn_released _ ⟨h, .silence (me s) count⟩ rfl).loader

/-- With any other count, or of a station that is not ACTIVE, a SILENCE is void (R41). -/
theorem completeFrame_notSilenced {s : Station} {h : Hdr} {k count n : Nat} (ht : Says.takes s ⟨h, .silence k count⟩ n) (ha : Says.passes s h)
    (hsil : ¬ Says.isSilenced s h k count n) : RosterAlone s (completeFrame s ⟨h, .silence k count⟩) h n :=
  completeFrame_void ht rfl rfl ha fun _ hr => silenceStation_void fun hc => hsil ((isSilenced_iff hr).mpr hc)

end Sys2Proof.CellJoin
end

section
/-! A JOIN in a formed replica (R31 to R35, R64, R65): the joiner's entry, its snapshotter, and what a rejoin or a refusal does to the tables. -/

namespace Sys2Proof.CellJoin

open Sys2Proof Sys2Proof.Machine Sys2Proof.Laws

/-! ### The snapshotter is chosen (R32) -/

/-- A station that may serve joiner `k`, by its entry: ACTIVE, serving no one, not the joiner. -/
def servable (k j : Nat) (e : RosterEntry) : Bool := e.state == .active && e.serving.isNone && j != k

def chosenFor (c : CellPart) (k : Nat) (r : Replica) : Option Nat := lowestStation c r (servable k)

/-- The replica with a snapshotter chosen for joiner `k`, where there is one. -/
def appointed (c : CellPart) (lc k jn : Nat) (r : Replica) : Replica :=
  match chosenFor c k r with
  | none => r
  | some j => setRoster r lc j { rosterEntry r j with serving := some (k, jn) }

theorem chosenFor_ne {c : CellPart} {k j : Nat} {r : Replica} (h : chosenFor c k r = some j) : j ≠ k := by
  have hp := List.find?_some h
  simp only [servable, Bool.and_eq_true, bne_iff_ne] at hp
  exact hp.2.2

/-- Appointing a snapshotter changes its entry alone, and there the service and the stamp. -/
structure Appointed (r t : Replica) (k : Nat) : Prop where
  rest : t = { r with roster := t.roster }
  joiner : rosterEntry t k = rosterEntry r k
  states : ∀ j, (rosterEntry t j).state = (rosterEntry r j).state

theorem appointed_facts (c : CellPart) (lc k jn : Nat) (r : Replica) : Appointed r (appointed c lc k jn r) k := by
  unfold appointed
  split
  next => exact ⟨rfl, rfl, fun _ => rfl⟩
  next j hj =>
    obtain ⟨hrest, hother⟩ := setRoster_facts r lc j { rosterEntry r j with serving := some (k, jn) }
    refine ⟨hrest, hother k (Ne.symm (chosenFor_ne hj)), fun i => ?_⟩
    by_cases hi : i = j
    · subst hi
      by_cases hin : 1 ≤ i ∧ i ≤ r.roster.length
      · obtain ⟨st, hst⟩ := setRoster_same r lc i { rosterEntry r i with serving := some (k, jn) } hin.1 hin.2
        rw [hst]
      · rw [show rosterEntry (setRoster r lc i _) i = unseenEntry from
            at1_outside _ _ _ (by rw [setRoster_length]; exact hin), show rosterEntry r i = unseenEntry from at1_outside _ _ _ hin]
    · rw [hother i hi]

theorem appointed_serving {c : CellPart} (lc : Nat) {k : Nat} (jn : Nat) {r : Replica} {j : Nat} (h : chosenFor c k r = some j)
    (h1 : 1 ≤ j) (h2 : j ≤ r.roster.length) : (rosterEntry (appointed c lc k jn r) j).serving = some (k, jn) := by
  obtain ⟨st, hst⟩ := setRoster_same r lc j { rosterEntry r j with serving := some (k, jn) } h1 h2
  unfold appointed
  rw [h]
  show (rosterEntry (setRoster r lc j _) j).serving = _
  rw [hst]

/-- The lowest station that may serve is the one chosen (R32). -/
theorem chosenFor_lowest {c : CellPart} {k j : Nat} {r : Replica} (h1 : 1 ≤ j) (h2 : j ≤ 14) (hr : roleIn c j = .mc410)
    (hj : servable k j (rosterEntry r j) = true)
    (hl : ∀ i, 1 ≤ i → i < j → ¬ (roleIn c i = .mc410 ∧ servable k i (rosterEntry r i) = true)) : chosenFor c k r = some j := by
  unfold chosenFor lowestStation
  refine find_lowest _ j h1 h2 ?picked fun i hi hij => ?passed
  case picked => rw [hr, hj]; rfl
  case passed => exact Bool.eq_false_iff.mpr fun hc => hl i hi hij (by simpa using hc)

/-! ### The three parts of a JOIN (R31) -/

/-- The JOIN of station `k` is a rejoin. -/
def isRejoin (r : Replica) (k : Nat) : Prop := (rosterEntry r k).state = .active ∨ (rosterEntry r k).state = .silent

/-- The replica from which the earlier part of a rejoining station is taken away (R31, R65). -/
def rejoined (c : CellPart) (lc k : Nat) (r : Replica) : Replica := leaveTables c lc k (restoreZones lc k r)

theorem joinFormed_rejoin {c : CellPart} {lc : Nat} {h : Hdr} {cause : ResetCause} {jn : Nat} {r : Replica} (hr : isRejoin r h.sender) :
    joinFormed c lc h cause jn r =
      withScan c lc ⟨true, [], chosenFor c h.sender (joinEntered lc h cause (rejoined c lc h.sender r)), none⟩
        (appointed c lc h.sender jn (joinEntered lc h cause (rejoined c lc h.sender r))) := by
  unfold joinFormed
  unfold isRejoin at hr
  simp only [hr, if_true]
  rfl

theorem joinFormed_new {c : CellPart} {lc : Nat} {h : Hdr} {cause : ResetCause} {jn : Nat} {r : Replica} (hr : ¬ isRejoin r h.sender) :
    joinFormed c lc h cause jn r =
      (appointed c lc h.sender jn (joinEntered lc h cause r), ⟨true, [], chosenFor c h.sender (joinEntered lc h cause r), none⟩) := by
  unfold joinFormed
  unfold isRejoin at hr
  simp only [hr, if_false]
  rfl

/-- What a JOIN starts from: the replica as it was, or with the sender's earlier part taken away. It keeps the cell record, every state and
the services of the other stations. -/
structure JoinBase (r b : Replica) (k : Nat) : Prop where
  cell : b.cell = r.cell
  length : b.roster.length = r.roster.length
  states : ∀ j, (rosterEntry b j).state = (rosterEntry r j).state
  services : ∀ j, j ≠ k → (rosterEntry b j).serving = (rosterEntry r j).serving

theorem JoinBase.refl (r : Replica) (k : Nat) : JoinBase r r k := ⟨rfl, rfl, fun _ => rfl, fun _ _ => rfl⟩

theorem joinBase_left {r u b : Replica} {k : Nat} (hl : Left u b k) (hr : u.roster = r.roster) (hc : u.cell = r.cell) : JoinBase r b k :=
  ⟨hl.cell.trans hc, by rw [hl.length, hr], fun j => by rw [hl.keeps, rosterEntry_congr hr],
    fun j hj => by rw [hl.services j hj, rosterEntry_congr hr]⟩

theorem joinBase_rejoined (c : CellPart) (lc k : Nat) (r : Replica) : JoinBase r (rejoined c lc k r) k :=
  joinBase_left (leaveTables_left c lc k _) rfl rfl

/-- What a JOIN leaves of the roster, before or after its scan (R31, R32). -/
structure Joined (c : CellPart) (r t : Replica) (lc : Nat) (h : Hdr) (cause : ResetCause) (jn : Nat) (chosen : Option Nat) : Prop where
  cell : t.cell = r.cell
  joiner : (rosterEntry t h.sender).state = .joining ∧ (rosterEntry t h.sender).cause = some cause ∧
    (rosterEntry t h.sender).homed = h.homed ∧ (rosterEntry t h.sender).parked = h.parked ∧ (rosterEntry t h.sender).stamp = lc
  states : ∀ j, j ≠ h.sender → (rosterEntry t j).state = (rosterEntry r j).state
  server : ∀ j, chosen = some j → 1 ≤ j → j ≤ r.roster.length → (rosterEntry t j).serving = some (h.sender, jn)

theorem joined_of_base {c : CellPart} {lc : Nat} {h : Hdr} {cause : ResetCause} (jn : Nat) {r b : Replica} (hb : JoinBase r b h.sender)
    (h1 : 1 ≤ h.sender) (h2 : h.sender ≤ r.roster.length) :
    Joined c r (appointed c lc h.sender jn (joinEntered lc h cause b)) lc h cause jn (chosenFor c h.sender (joinEntered lc h cause b)) := by
  have he := joinEntered_entered lc h cause b h1 (by rw [hb.length]; exact h2)
  have ha := appointed_facts c lc h.sender jn (joinEntered lc h cause b)
  refine ⟨?_, ?_, fun j hj => ?_, fun j hj j1 j2 => appointed_serving lc jn hj j1 (by rw [he.length, hb.length]; exact j2)⟩
  · rw [ha.rest, he.rest]
    exact hb.cell
  · rw [ha.joiner]
    exact he.joiner
  · rw [ha.states, he.states j hj, hb.states]

theorem joinEntered_servable {lc : Nat} {h : Hdr} {cause : ResetCause} {r b : Replica} (hb : JoinBase r b h.sender) (h1 : 1 ≤ h.sender)
    (h2 : h.sender ≤ r.roster.length) (j : Nat) : servable h.sender j (rosterEntry (joinEntered lc h cause b) j) = true ↔
      j ≠ h.sender ∧ (rosterEntry r j).state = .active ∧
        ((rosterEntry r j).serving = none ∨ ∃ m, (rosterEntry r j).serving = some (h.sender, m)) := by
  have he := joinEntered_entered lc h cause b h1 (by rw [hb.length]; exact h2)
  by_cases hj : j = h.sender
  · simp [servable, hj]
  · unfold servable
    rw [he.states j hj, he.services j hj, hb.states, hb.services j hj]
    cases hs : (rosterEntry r j).serving with
    | none => simp [hj]
    | some v =>
      obtain ⟨k, m⟩ := v
      by_cases hk : k = h.sender <;> simp [hj, hk]

/-- The lowest station that may serve by R32 is the one the JOIN chooses. -/
theorem chosenFor_mayServe {s : Station} {lc : Nat} {h : Hdr} {cause : ResetCause} {b : Replica} {j : Nat} (hb : JoinBase (tabs s) b h.sender)
    (h1 : 1 ≤ h.sender) (h2 : h.sender ≤ (tabs s).roster.length) (hj : Says.mayServe s h.sender j)
    (hl : ∀ i < j, ¬ Says.mayServe s h.sender i) : chosenFor (cellOf s) h.sender (joinEntered lc h cause b) = some j := by
  obtain ⟨j1, j14, hne, hrole, hact, hserv⟩ := hj
  refine chosenFor_lowest j1 j14 hrole ((joinEntered_servable hb h1 h2 j).mpr ⟨hne, hact, hserv⟩) fun i i1 hij hi => ?_
  obtain ⟨ine, iact, iserv⟩ := (joinEntered_servable hb h1 h2 i).mp hi.2
  exact hl i hij ⟨i1, by omega, ine, hi.1, iact, iserv⟩

/-! ### The shadow of the snapshotter (R34) -/

/-- A station chosen as snapshotter freezes its tables for the joiner. -/
theorem servingApplied_shadow {s : Station} {h : Hdr} {fp : Print} {cause : ResetCause} {jn : Nat} {fx : Fx} (hc : fx.chosen = some (me s)) :
    ∃ sh, (servingApplied s ⟨h, .join fp cause jn⟩ fx).replica.shadow = some sh ∧ sh.joiner = h.sender ∧ sh.jn = jn ∧
      sh.joinCount = lineCountOf s ∧ sh.tables = tabs s := by
  unfold servingApplied
  simp only [hc, if_true]
  obtain ⟨m, hm⟩ := Laws.offerSnapshots_shadow { s with replica := { s.replica with
    shadow := some ⟨tabs s, heardCounts s.line, h.sender, jn, lineCountOf s, 0⟩
    notices := if fx.refuser = some (me s) then s.replica.notices ++ [(h.sender, jn)] else s.replica.notices } } _ rfl
  exact ⟨_, hm, rfl, rfl, rfl, rfl⟩

/-! ### The JOIN as a completed frame -/

/-- What the rules of a JOIN make of the replica: it joins, or it is refused (R31, R33). -/
def joinOutcome (s : Station) (h : Hdr) (fp : Print) (cause : ResetCause) (jn n : Nat) : Replica × Fx :=
  if fp = (tabs s).cell.fingerprint then joinFormed (cellOf s) (n + 1) h cause jn (tabs s) else joinRefused (cellOf s) (n + 1) h cause (tabs s)

theorem completeFrame_join {s : Station} {h : Hdr} {fp : Print} {cause : ResetCause} {jn n : Nat} (ht : Says.takes s ⟨h, .join fp cause jn⟩ n) :
    Says.counted s (completeFrame s ⟨h, .join fp cause jn⟩) h n ∧
      tabs (completeFrame s ⟨h, .join fp cause jn⟩) = derive (cellOf s) (joinOutcome s h fp cause jn n).1 := by
  obtain ⟨hs, hv, hg, hl⟩ := ht
  obtain ⟨hlive, htabs⟩ := completeFrame_live hs hv hg rfl hl (Bool.and_false _)
  exact ⟨counted_of_live hlive, htabs⟩

/-- The snapshotter chosen by a JOIN, where it is this station, holds the shadow of its own tables (R34). -/
theorem completeFrame_shadow {s : Station} {h : Hdr} {fp : Print} {cause : ResetCause} {jn n : Nat} (ht : Says.takes s ⟨h, .join fp cause jn⟩ n)
    (hc : (joinOutcome s h fp cause jn n).2.chosen = some (me s)) :
    ∃ sh, (completeFrame s ⟨h, .join fp cause jn⟩).replica.shadow = some sh ∧ sh.joiner = h.sender ∧ sh.jn = jn ∧ sh.joinCount = n + 1 ∧
      sh.tables = tabs (completeFrame s ⟨h, .join fp cause jn⟩) := by
  have htabs := (completeFrame_join ht).2
  obtain ⟨hs, hv, hg, hl⟩ := ht
  obtain ⟨u, hu, he⟩ := completeFrame_applied hs hv hg rfl hl (Bool.and_false _)
  rw [htabs, he, (releaseOwn_released _ ⟨h, .join fp cause jn⟩ rfl).replica, react_replica]
  have hme : me (setTabs u (derive (cellOf s) (joinOutcome s h fp cause jn n).1)) = me s := by
    unfold me
    rw [loader_setTabs, hu.loader]
  have hcount : lineCountOf (setTabs u (derive (cellOf s) (joinOutcome s h fp cause jn n).1)) = n + 1 := by
    unfold lineCountOf
    rw [line_setTabs, hu.lineCount]
    rfl
  obtain ⟨sh, hsh, h1, h2, h3, h4⟩ := servingApplied_shadow (s := setTabs u (derive (cellOf s) (joinOutcome s h fp cause jn n).1)) (h := h)
    (fp := fp) (cause := cause) (jn := jn) (fx := (joinOutcome s h fp cause jn n).2) (hc.trans (by rw [hme]))
  exact ⟨sh, hsh, h1, h2, h3.trans hcount, h4⟩

theorem fingerprint_joins {s : Station} {h : Hdr} {fp : Print} {cause : ResetCause} {jn n : Nat} (hf : fp = (tabs s).cell.fingerprint) :
    joinOutcome s h fp cause jn n = joinFormed (cellOf s) (n + 1) h cause jn (tabs s) := if_pos hf

theorem fingerprint_refused {s : Station} {h : Hdr} {fp : Print} {cause : ResetCause} {jn n : Nat} (hf : fp ≠ (tabs s).cell.fingerprint) :
    joinOutcome s h fp cause jn n = joinRefused (cellOf s) (n + 1) h cause (tabs s) := if_neg hf

/-- The replica that a JOIN starts from (R31). -/
def joinStart (c : CellPart) (lc k : Nat) (r : Replica) : Replica :=
  if (rosterEntry r k).state = .active ∨ (rosterEntry r k).state = .silent then rejoined c lc k r else r

theorem joinBase_start (c : CellPart) (lc k : Nat) (r : Replica) : JoinBase r (joinStart c lc k r) k := by
  unfold joinStart
  split
  · exact joinBase_rejoined c lc k r
  · exact JoinBase.refl r k

/-- A rejoin makes a scan at its end, any other JOIN none: the roster and the choice are those of its start either way. -/
theorem joinFormed_joined {c : CellPart} {lc : Nat} {h : Hdr} {cause : ResetCause} {jn : Nat} {r : Replica} (h1 : 1 ≤ h.sender)
    (h2 : h.sender ≤ r.roster.length) :
    (joinFormed c lc h cause jn r).2.chosen = chosenFor c h.sender (joinEntered lc h cause (joinStart c lc h.sender r)) ∧
      Joined c r (joinFormed c lc h cause jn r).1 lc h cause jn (joinFormed c lc h cause jn r).2.chosen := by
  have hj := joined_of_base (c := c) (lc := lc) (cause := cause) jn (joinBase_start c lc h.sender r) h1 h2
  by_cases hr : isRejoin r h.sender
  · have hs : joinStart c lc h.sender r = rejoined c lc h.sender r := if_pos hr
    rw [joinFormed_rejoin hr, withScan_tables]
    rw [hs] at hj ⊢
    exact ⟨rfl, hj.cell, hj.joiner, hj.states, hj.server⟩
  · have hs : joinStart c lc h.sender r = r := if_neg hr
    rw [joinFormed_new hr]
    rw [hs] at hj ⊢
    exact ⟨rfl, hj⟩

/-- A JOIN of a station not seen or not at work changes the roster alone (R31). -/
theorem joinFormed_stay {s t : Station} {lc : Nat} {h : Hdr} {cause : ResetCause} {jn : Nat} (h1 : 1 ≤ h.sender)
    (h2 : h.sender ≤ (tabs s).roster.length) (hr : ¬ isRejoin (tabs s) h.sender)
    (ht : tabs t = derive (cellOf s) (joinFormed (cellOf s) lc h cause jn (tabs s)).1) : TablesStay s t := by
  refine tablesStay_of_roster ?_ ht
  rw [joinFormed_new hr, (appointed_facts _ _ _ _ _).rest, (joinEntered_entered lc h cause (tabs s) h1 h2).rest]

/-- A rejoin gives the sender its ORPHANED zones back and takes its claim, its thermal entries and its latch away (R31, R65, R101, R133). -/
theorem joinFormed_rejoins {s t : Station} {n : Nat} {h : Hdr} {cause : ResetCause} {jn : Nat} (h1 : 1 ≤ h.sender)
    (hz : TablesSized (tabs s)) (h2 : h.sender ≤ 14) (hr : isRejoin (tabs s) h.sender)
    (ht : tabs t = derive (cellOf s) (joinFormed (cellOf s) (n + 1) h cause jn (tabs s)).1) :
    (∀ z < 32, (zoneEntry (tabs s) z).hold = .orphaned h.sender → zoneEntry (tabs t) z = ⟨.held h.sender, n + 1⟩) ∧
      (∀ z < 32, (zoneEntry (tabs s) z).hold ≠ .orphaned h.sender → (zoneEntry (tabs s) z).hold ≠ .free →
        zoneEntry (tabs t) z = zoneEntry (tabs s) z) ∧
      (∀ c ∈ (tabs t).claims, c.claimant ≠ h.sender) ∧
      (∀ e ∈ (tabs t).board, e.station = h.sender → e.excluded = true) ∧ (latchOf (tabs t) h.sender).data = none := by
  have hleft := leaveTables_left (cellOf s) (n + 1) h.sender (restoreZones (n + 1) h.sender (tabs s))
  obtain ⟨hback, hstay, hclaims⟩ := rejoin_zones (cellOf s) (n + 1) h.sender (tabs s) hz.zones
  have hb := joinBase_rejoined (cellOf s) (n + 1) h.sender (tabs s)
  have hrest := (appointed_facts (cellOf s) (n + 1) h.sender jn
    (joinEntered (n + 1) h cause (rejoined (cellOf s) (n + 1) h.sender (tabs s)))).rest
  rw [(joinEntered_entered (n + 1) h cause (rejoined (cellOf s) (n + 1) h.sender (tabs s)) h1
    (by rw [hb.length, hz.roster]; exact h2)).rest] at hrest
  rw [joinFormed_rejoin hr, withScan_tables] at ht
  rw [(joinEntered_entered (n + 1) h cause (rejoined (cellOf s) (n + 1) h.sender (tabs s)) h1
    (by rw [hb.length, hz.roster]; exact h2)).rest] at ht
  generalize appointed (cellOf s) (n + 1) h.sender jn _ = a at hrest ht
  have hazones : a.zones = (rejoined (cellOf s) (n + 1) h.sender (tabs s)).zones := by rw [hrest]
  have hlen : a.zones.length = 32 := by
    rw [hazones, rejoined, hleft.zones, ← hz.zones]
    exact setHold_length _ _ _ _
  have hkept : ∀ z < 32, (zoneEntry a z).hold ≠ .free → zoneEntry (tabs t) z = zoneEntry a z := fun z hz32 hn => by
    rw [ht, zoneEntry_congr (derive_zones _ _)]
    exact scan_keeps_zone (cellOf s) (n + 1) (by rw [hlen]; exact hz32) hn
  refine ⟨fun z hz32 ho => ?_, fun z hz32 ho hf => ?_, ?_, ?_, ?_⟩
  · have he := (zoneEntry_congr hazones z).trans (hback z hz32 ho)
    rw [hkept z hz32 (by rw [he]; exact ZoneHold.noConfusion), he]
  · have he := (zoneEntry_congr hazones z).trans (hstay z hz32 ho)
    rw [hkept z hz32 (by rw [he]; exact hf), he]
  · rw [ht, derive_claims]
    exact scan_claimants _ _ (by rw [hrest]; exact hclaims)
  · rw [ht, derive_board, scan_board, hrest]
    exact hleft.board
  · rw [ht, la_derive, show latchOf (scan (cellOf s) (n + 1) a).1 h.sender = latchOf a h.sender from rfl, hrest]
    exact hleft.latch

/-- Settles O31: the joiner enters on the replica that its earlier part has left, and the lowest station that may serve is appointed. -/
theorem joinInFormedReplica : Obligations.JoinInFormedReplica := by
  unfold Obligations.JoinInFormedReplica
  intro h fp cause jn s n ht hz hf
  obtain ⟨h1, h14⟩ := sender_range ht.2.2.1
  have h2 : h.sender ≤ (tabs s.stn).roster.length := by rw [hz.roster]; exact h14
  obtain ⟨hcounted, htabs⟩ := completeFrame_join ht
  have hshadow := completeFrame_shadow ht
  rw [fingerprint_joins hf] at htabs hshadow
  obtain ⟨hchosen, hj⟩ := joinFormed_joined (c := cellOf s.stn) (lc := n + 1) (cause := cause) (jn := jn) h1 h2
  refine ⟨{ s with stn := completeFrame s.stn ⟨h, .join fp cause jn⟩ }, rfl, rfl, hcounted, ⟨_, rfl, ?joiner⟩, ?states, ?cell, ?serves,
    ?rejoins, ?stay⟩
  case joiner => rw [htabs]; exact hj.joiner
  case states => intro j hne; rw [htabs]; exact hj.states j hne
  case cell => rw [htabs, derive_cell]; exact hj.cell
  case serves =>
    intro j hmay hlow
    have hc := hchosen.trans (chosenFor_mayServe (joinBase_start _ _ _ _) h1 h2 hmay hlow)
    refine ⟨?_, fun hme => hshadow (by rw [hc, hme])⟩
    rw [htabs]
    exact hj.server j hc hmay.1 (by rw [hz.roster]; exact hmay.2.1)
  case rejoins => exact fun hr => joinFormed_rejoins h1 hz h14 hr htabs
  case stay => exact fun hr => joinFormed_stay h1 h2 hr htabs

/-! ### A refusal (R33) -/

/-- The refused sender's entry (R33). -/
def refusedEntry (lc : Nat) (cause : ResetCause) (e : RosterEntry) : RosterEntry :=
  { e with state := .refused, cause := some cause, serving := none, stamp := lc }

/-- The replica of a refusal before its scan: the sender's entry, and every service of it ended (R33, R35). -/
def refusedEntered (lc : Nat) (h : Hdr) (cause : ResetCause) (r : Replica) : Replica :=
  endServices lc (fun _ v => v.1 == h.sender) { r with roster := set1 r.roster h.sender (refusedEntry lc cause (rosterEntry r h.sender)) }

theorem joinRefused_active {c : CellPart} {lc : Nat} {h : Hdr} {cause : ResetCause} {r : Replica} (ha : (rosterEntry r h.sender).state = .active) :
    (joinRefused c lc h cause r).1 = (scan c lc (refusedEntered lc h cause (leaveTables c lc h.sender (orphanZones c lc h.sender r)))).1 := by
  unfold joinRefused
  simp only [ha, if_true]
  rfl

theorem joinRefused_other {c : CellPart} {lc : Nat} {h : Hdr} {cause : ResetCause} {r : Replica} (ha : (rosterEntry r h.sender).state ≠ .active) :
    (joinRefused c lc h cause r).1 = refusedEntered lc h cause r := by
  unfold joinRefused
  simp only [ha, if_false]
  rfl

/-- What a refusal leaves of the roster, before or after its scan (R33). -/
structure Refused (r t : Replica) (lc : Nat) (h : Hdr) (cause : ResetCause) : Prop where
  cell : t.cell = r.cell
  sender : (rosterEntry t h.sender).state = .refused ∧ (rosterEntry t h.sender).cause = some cause ∧ (rosterEntry t h.sender).serving = none ∧
    (rosterEntry t h.sender).stamp = lc
  states : ∀ j, j ≠ h.sender → (rosterEntry t j).state = (rosterEntry r j).state

theorem refusedEntered_refused (lc : Nat) {h : Hdr} (cause : ResetCause) {r b : Replica} (hb : JoinBase r b h.sender) (h1 : 1 ≤ h.sender)
    (h2 : h.sender ≤ r.roster.length) : Refused r (refusedEntered lc h cause b) lc h cause := by
  have hset : ∀ e, rosterEntry { b with roster := set1 b.roster h.sender e } h.sender = e :=
    fun e => at1_set1_same _ _ _ _ h1 (by rw [hb.length]; exact h2)
  refine ⟨hb.cell, ?_, fun j hj => ?_⟩
  · unfold refusedEntered
    rw [endServices_kept lc fun v hv => (by rw [hset] at hv; cases hv), hset]
    exact ⟨rfl, rfl, rfl, rfl⟩
  · unfold refusedEntered
    rw [(endServices_keeps _ _ _ j).1, ← hb.states j]
    exact congrArg RosterEntry.state (at1_set1_other _ _ _ _ _ hj)

theorem joinRefused_refused {c : CellPart} {lc : Nat} {h : Hdr} {cause : ResetCause} {r : Replica} (h1 : 1 ≤ h.sender)
    (h2 : h.sender ≤ r.roster.length) : Refused r (joinRefused c lc h cause r).1 lc h cause := by
  by_cases ha : (rosterEntry r h.sender).state = .active
  · rw [joinRefused_active ha]
    have hr := refusedEntered_refused lc cause
      (joinBase_left (leaveTables_left c lc h.sender (orphanZones c lc h.sender r)) rfl rfl : JoinBase r _ h.sender) h1 h2
    exact ⟨hr.cell, hr.sender, hr.states⟩
  · rw [joinRefused_other ha]
    exact refusedEntered_refused lc cause (JoinBase.refl r h.sender) h1 h2

/-- Settles O32: the refused sender's entry, and what was taken away from it where it was ACTIVE. -/
theorem joinRefused : Obligations.JoinRefused := by
  unfold Obligations.JoinRefused
  intro h fp cause jn s n ht hz hf
  obtain ⟨h1, h14⟩ := sender_range ht.2.2.1
  have hrefused := joinRefused_refused (c := cellOf s.stn) (lc := n + 1) (cause := cause) h1
    (show h.sender ≤ (tabs s.stn).roster.length by rw [hz.roster]; exact h14)
  obtain ⟨hcounted, htabs⟩ := completeFrame_join ht
  rw [fingerprint_refused hf] at htabs
  refine ⟨{ s with stn := completeFrame s.stn ⟨h, .join fp cause jn⟩ }, rfl, rfl, hcounted, ⟨_, rfl, ?sender⟩, ?states, ?cell, fun ha => ?gone,
    fun ha => ?stay⟩
  case sender => rw [htabs]; exact hrefused.sender
  case states => intro j hne; rw [htabs]; exact hrefused.states j hne
  case cell => rw [htabs, derive_cell]; exact hrefused.cell
  case gone =>
    rw [joinRefused_active ha] at htabs
    exact orphaned_of_leave hz.zones rfl rfl htabs
  case stay =>
    rw [joinRefused_other ha] at htabs
    exact tablesStay_of_roster rfl htabs

end Sys2Proof.CellJoin
end

section
/-! A completed frame at a JOINING station (R24 to R30, R33, R36 to R39): what it finds once it is counted and kept, and what FORM, JOIN,
SILENCE and the frames of a snapshot make of it. -/

namespace Sys2Proof.CellJoin

open Sys2Proof Sys2Proof.Machine Sys2Proof.Laws
open Sys2Proof.CellLine (effect exec_effect)

/-! ### The frame counted and kept (R9, R26) -/

theorem keepFrame_before {u : Station} (f : Frame) (h : u.replica.joinDone = false) : keepFrame u f = u := by simp [keepFrame, h]

theorem keepFrame_unreplicated {u : Station} {f : Frame} (h : passesRoster f.body = false) : keepFrame u f = u := by simp [keepFrame, h]

/-- A frame kept changes the catch-up list alone, or finds no room and abandons the attempt (R26, R39). -/
theorem keepFrame_cases (u : Station) (f : Frame) :
    keepFrame u f = { u with replica := { u.replica with catchUp := (keepFrame u f).replica.catchUp } } ∨ keepFrame u f = abandonAttempt u := by
  by_cases hroom : u.replica.catchUp.length < 128
  · exact .inl (keepFrame_room f hroom)
  · unfold keepFrame
    split
    next => exact .inr rfl
    next => exact .inl rfl

theorem keepFrame_added {u : Station} {f : Frame} (hd : u.replica.joinDone = true) (hp : passesRoster f.body = true)
    (hroom : u.replica.catchUp.length < 128) (hs : ∀ k count, f.body ≠ .silence k count) :
    (keepFrame u f).replica.catchUp = u.replica.catchUp ++ [⟨f, u.line.joinOffset, .none⟩] := by
  unfold keepFrame
  rw [hd, hp, Bool.and_self, if_pos rfl, if_pos (show u.replica.catchUp.length < Config.catchUpPlaces from hroom)]
  split
  next hb => exact absurd hb (hs _ _)
  next => rfl

/-- An attempt abandoned: service, pending replica and catch-up list are gone, the loader and the tables as they were (R39). -/
structure Abandoned (s t : Station) : Prop where
  loader : t.loader = s.loader
  tables : tabs t = tabs s
  service : t.replica.service = none
  pendingRep : t.replica.pendingRep = none
  catchUp : t.replica.catchUp = []

theorem abandonAttempt_abandoned (s : Station) : Abandoned s (abandonAttempt s) := by
  obtain ⟨hloader, htables, -, -, -, -, hservice, hpending, hcatch, -⟩ := abandon_facts s
  exact ⟨hloader, htables, hservice, hpending, hcatch⟩

theorem Abandoned.released {s t u : Station} (h : Abandoned s t) (hr : Released t u) : Abandoned s u :=
  ⟨hr.loader.trans h.loader, (congrArg ReplicaUnit.tables hr.replica).trans h.tables, (congrArg ReplicaUnit.service hr.replica).trans h.service,
    (congrArg ReplicaUnit.pendingRep hr.replica).trans h.pendingRep, (congrArg ReplicaUnit.catchUp hr.replica).trans h.catchUp⟩

/-- The station that takes a frame while it joins, the frame counted, recorded and kept with room in the catch-up list. -/
structure JoinKept (s w : Station) (f : Frame) : Prop where
  now : w.now = s.now
  loader : w.loader = s.loader
  motion : w.motion = s.motion
  replica : w.replica = { s.replica with cellExists := w.replica.cellExists, catchUp := w.replica.catchUp }
  cellExists : w.replica.cellExists = (s.replica.cellExists || (f.h.active && roleIn (cellOf s) f.h.sender == .mc410))
  joinOffset : w.line.joinOffset = if isOwnJoin s f then 0 else s.line.joinOffset + 1
  before : s.replica.joinDone = false → w.replica.catchUp = s.replica.catchUp
  added : s.replica.joinDone = true → passesRoster f.body = true → (∀ k count, f.body ≠ .silence k count) →
    w.replica.catchUp = s.replica.catchUp ++ [⟨f, w.line.joinOffset, .none⟩]

theorem keptStation_joinKept {s u : Station} {f : Frame} (hu : JoinCounted s u f)
    (hroom : s.replica.joinDone = false ∨ s.replica.catchUp.length < 128) : JoinKept s (keepFrame u f) f := by
  have hdone : u.replica.joinDone = s.replica.joinDone := by rw [hu.replica]
  have hcatch : u.replica.catchUp = s.replica.catchUp := by rw [hu.replica]
  have hk : keepFrame u f = { u with replica := { u.replica with catchUp := (keepFrame u f).replica.catchUp } } := by
    rcases hroom with h | h
    · rw [keepFrame_before f (hdone.trans h)]
    · exact keepFrame_room f (by rw [hcatch]; exact h)
  refine ⟨?_, ?_, ?_, ?_, ?_, ?_, fun h => ?_, fun hd hp hs => ?_⟩
  · rw [hk]; exact hu.now
  · rw [hk]; exact hu.loader
  · rw [hk]; exact hu.motion
  · conv_lhs => rw [hk, hu.replica]
    rw [hk]
  · rw [hk]; exact hu.cellExists
  · rw [hk]; exact hu.joinOffset
  · rw [keepFrame_before f (hdone.trans h), hcatch]
  · have hlen : u.replica.catchUp.length < 128 := by
      rw [hcatch]
      exact hroom.resolve_left (by rw [hd]; decide)
    have hoff : (keepFrame u f).line.joinOffset = u.line.joinOffset := by rw [hk]
    rw [keepFrame_added (hdone.trans hd) hp hlen hs, hoff, hcatch]

section
variable {s w : Station} {f : Frame} (hw : JoinKept s w f)
include hw

theorem JoinKept.tables : tabs w = tabs s := by unfold tabs; rw [hw.replica]
theorem JoinKept.cell : cellOf w = cellOf s := by unfold cellOf; rw [hw.loader]
theorem JoinKept.number : me w = me s := by unfold me; rw [hw.loader]
theorem JoinKept.service : w.replica.service = s.replica.service := by rw [hw.replica]
theorem JoinKept.pendingRep : w.replica.pendingRep = s.replica.pendingRep := by rw [hw.replica]
theorem JoinKept.joinNumber : w.replica.joinNumber = s.replica.joinNumber := by rw [hw.replica]
theorem JoinKept.joinDone : w.replica.joinDone = s.replica.joinDone := by rw [hw.replica]
theorem JoinKept.snapBeginSeen : w.replica.snapBeginSeen = s.replica.snapBeginSeen := by rw [hw.replica]
theorem JoinKept.servedBy (k : Nat) : servedBy w k = servedBy s k := by unfold Machine.servedBy; rw [hw.service]

end

/-- A completed frame at a joining station, other than a REQUEST, while its catch-up list has room (R7, R9, R26). -/
theorem completeFrame_kept {s : Station} (hj : joiningMode s = true) (hv : vetoedHere s = false) {f : Frame} (hg : formatGood (cellOf s) f = true)
    (hr : Body.isRequest f.body = false) (hroom : s.replica.joinDone = false ∨ s.replica.catchUp.length < 128) :
    ∃ w, JoinKept s w f ∧ completeFrame s f = releaseOwn (takeJoining w f) f := by
  obtain ⟨u, hu, he⟩ := completeFrame_joining hj hv hg hr
  exact ⟨_, keptStation_joinKept hu hroom, he⟩

/-- A frame that is not replicated is not kept and finds room at any time. -/
theorem completeFrame_unkept {s : Station} (hj : joiningMode s = true) (hv : vetoedHere s = false) {f : Frame} (hg : formatGood (cellOf s) f = true)
    (hr : Body.isRequest f.body = false) (hp : passesRoster f.body = false) :
    ∃ w, JoinKept s w f ∧ completeFrame s f = releaseOwn (takeJoining w f) f := by
  obtain ⟨u, hu, he⟩ := completeFrame_joining hj hv hg hr
  have hcatch : u.replica.catchUp = s.replica.catchUp := by rw [hu.replica]
  have hrep : u.replica = { s.replica with cellExists := u.replica.cellExists, catchUp := u.replica.catchUp } := by
    rw [hcatch]
    exact hu.replica
  exact ⟨u, ⟨hu.now, hu.loader, hu.motion, hrep, hu.cellExists, hu.joinOffset, fun _ => hcatch, fun _ hc => absurd (hp.symm.trans hc) Bool.false_ne_true⟩,
    by rw [he, keepFrame_unreplicated hp]⟩

/-- What a FORM or SNAP_END brings a joining station besides the frame: the counts that its encoders show (R68). -/
theorem countsForStart_joining {s : Station} {f : Frame} (hj : joiningMode s = true) (hv : vetoedHere s = false)
    (hg : formatGood (cellOf s) f = true) (enc : Counts) : countsForStart s f enc = readEncoders s enc := by
  simp [countsForStart, taken, hj, joining_listening hj, hv, hg]

theorem tablesStay_of_eq {s t : Station} (ht : tabs t = { tabs s with roster := (tabs t).roster }) : TablesStay s t := by
  unfold TablesStay Says.zonesStay Says.probesStay Says.portsStay Says.boardStays Says.latchesStay
  rw [ht]
  exact ⟨⟨rfl, rfl⟩, rfl, rfl, rfl, rfl⟩

/-! ### FORM (R29, R30) -/

theorem takeForm_void {w : Station} {h : Hdr} {fp : Print} {mask : StationMask} (hf : formsHere w h mask = false) : takeForm w h fp mask = w := by
  simp [takeForm, hf]

/-- The station with its replica formed by a FORM, at line count 0 (R29). -/
def formedStation (w : Station) (fp : Print) (mask : StationMask) : Station :=
  { setTabs w (formedReplica (cellOf w) fp mask) with
    line := { w.line with lineCount := some 0, heard := formHeard w.now mask w.line.heard } }

/-- The station whose replica a FORM without it has left unformed (R30). -/
def leftOutStation (w : Station) : Station :=
  { setTabs w Replica.blank with line := { w.line with lineCount := none, heard := List.replicate 14 ⟨.none, 0⟩ } }

section
variable {w : Station} {h : Hdr} {fp : Print} {mask : StationMask} (hf : formsHere w h mask = true)
include hf

theorem takeForm_mismatch (hp : fp ≠ w.loader.fingerprint) : takeForm w h fp mask = enterShut (formedStation w fp mask) .mismatch := by
  simp [takeForm, hf, hp, formedStation]

theorem takeForm_forms (hp : fp = w.loader.fingerprint) (hm : inMask mask (me w) = true) :
    takeForm w h fp mask = enterActive (formedStation w fp mask) := by
  simp [takeForm, hf, hp, hm, formedStation]

theorem takeForm_leftOut (hp : fp = w.loader.fingerprint) (hm : inMask mask (me w) = false) :
    takeForm w h fp mask = offerJoin (leftOutStation w) := by
  simp [takeForm, hf, hp, hm, leftOutStation]

end

/-- The cell-exists flag that a FORM finds, its own header read first (R24, R29). -/
theorem formsHere_iff {s w : Station} {h : Hdr} {mask : StationMask} (htabs : tabs w = tabs s)
    (hcell : w.replica.cellExists = (s.replica.cellExists || (h.active && roleIn (cellOf s) h.sender == .mc410)))
    (hsnap : w.replica.snapBeginSeen = s.replica.snapBeginSeen) :
    formsHere w h mask = true ↔ (tabs s).cell.formed = false ∧ inMask mask h.sender = true ∧ s.replica.cellExists = false ∧
      (h.active = false ∨ roleIn (cellOf s) h.sender ≠ .mc410) ∧ s.replica.snapBeginSeen = false := by
  unfold formsHere
  rw [htabs, hcell, hsnap]
  cases h.active <;> simp <;> tauto

/-- The last-heard table at formation: the members just heard (R10, R29). -/
theorem formHeard_entry {l : List Heard} (hl : l.length = 14) (now : Nat) (mask : StationMask) {k : Nat} (h1 : 1 ≤ k) (h2 : k ≤ 14) :
    at1 (formHeard now mask l) ⟨.none, 0⟩ k = if inMask mask k then ⟨.abs 0, now⟩ else ⟨.none, 0⟩ := at1_map1 _ _ _ _ h1 (by rw [hl]; exact h2)

/-- A FORM taken at a joining station, whether or not its catch-up list has room: the station as the Replica Unit finds it. -/
structure FormFound (s w : Station) (h : Hdr) : Prop where
  now : w.now = s.now
  pins : w.pins = s.pins
  loader : w.loader = s.loader
  motion : w.motion = s.motion
  tables : tabs w = tabs s
  heard : w.line.heard.length = s.line.heard.length
  cellExists : w.replica.cellExists = (s.replica.cellExists || (h.active && roleIn (cellOf s) h.sender == .mc410))
  snapBeginSeen : w.replica.snapBeginSeen = s.replica.snapBeginSeen

theorem completeFrame_form {s : Station} {h : Hdr} {fp : Print} {mask : StationMask} (hj : joiningMode s = true) (hv : vetoedHere s = false)
    (hg : formatGood (cellOf s) ⟨h, .form fp mask⟩ = true) :
    ∃ w, FormFound s w h ∧ completeFrame s ⟨h, .form fp mask⟩ = releaseOwn (takeForm w h fp mask) ⟨h, .form fp mask⟩ := by
  obtain ⟨u, hu, he⟩ := completeFrame_joining hj hv hg rfl
  obtain ⟨kloader, ktables, know, kmotion, -, kheard, kpins, kcell, ksnap⟩ := keepFrame_facts u ⟨h, .form fp mask⟩
  exact ⟨_, ⟨know.trans hu.now, kpins.trans hu.pins, kloader.trans hu.loader, kmotion.trans hu.motion,
    ktables.trans (by rw [hu.replica]; rfl), by rw [kheard]; exact hu.heard, kcell.trans hu.cellExists, ksnap.trans (by rw [hu.replica])⟩, he⟩

/-- The channels that a FORM enables (R88). -/
theorem formed_channels {w : Station} {fp : Print} {mask : StationMask} (ha : (ownOf w).axes ≠ []) (hf : ∀ ax, w.motion.fault.get ax = false) :
    (enterActive (formedStation w fp mask)).motion.arm.state = .idle ∧ (enterActive (formedStation w fp mask)).motion.head.state = .idle := by
  obtain ⟨v, hmotion, himage, he⟩ := enterActive_motion (formedStation w fp mask)
  obtain ⟨harm, hhead⟩ := enableChannels_idle v (by unfold ownOf; rw [himage]; exact ha) (by rw [hmotion]; exact hf)
  rw [he, harm, hhead]
  exact ⟨rfl, rfl⟩

/-- Settles O28: the FORM finds no cell, forms the replica, and the station enters ACTIVE mode on it. -/
theorem formationMakesCell : Obligations.FormationMakesCell := by
  unfold Obligations.FormationMakesCell
  intro h fp mask enc s hj hv hg hformed hsender hmine hfp hexists hflag hseen hheard
  refine ⟨{ s with stn := effect (.form h fp mask enc) s.stn }, exec_effect _ s, rfl, ?_⟩
  have heffect : effect (.form h fp mask enc) s.stn = completeFrame (readEncoders s.stn enc) ⟨h, .form fp mask⟩ := by
    rw [← countsForStart_joining hj hv hg enc]
    rfl
  obtain ⟨w, hw, he⟩ := completeFrame_form (s := readEncoders s.stn enc) hj hv hg
  have hhere : formsHere w h mask = true :=
    (formsHere_iff hw.tables hw.cellExists hw.snapBeginSeen).mpr ⟨hformed, hsender, hexists, hflag, hseen⟩
  have hcell : cellOf w = cellOf s.stn := by unfold cellOf; rw [hw.loader]; rfl
  rw [takeForm_forms hhere (by rw [hw.loader]; exact hfp) (by unfold me; rw [hw.loader]; exact hmine)] at he
  obtain ⟨aloader, atables, acount, aheard, anow, apins, aenc, -⟩ := enterActive_facts (formedStation w fp mask)
  have hrel := releaseOwn_released (enterActive (formedStation w fp mask)) ⟨h, .form fp mask⟩ rfl
  have htabs : tabs (effect (.form h fp mask enc) s.stn) = formedReplica (cellOf s.stn) fp mask := by
    unfold tabs
    rw [heffect, he, hrel.replica, atables, ← hcell]
    rfl
  have hloader : (effect (.form h fp mask enc) s.stn).loader = { s.stn.loader with mode := .active } := by
    rw [heffect, he, hrel.loader, aloader]
    exact congrArg (fun l : Loader => { l with mode := .active }) hw.loader
  have hlate : (effect (.form h fp mask enc) s.stn).line.heard = formHeard s.stn.now mask w.line.heard := by
    rw [heffect, he, hrel.heard, aheard]
    show formHeard w.now mask w.line.heard = _
    rw [hw.now]
    rfl
  refine ⟨hloader, ?now, ?pins, ?enc, ?cell, ?cellStamp, ?count, ?claims, ?board, ?partTemp, ?zones, ?homes, ?members, ?channels⟩
  case now => rw [heffect, he, hrel.now, anow]; exact hw.now
  case pins => rw [heffect, he, hrel.pins, apins]; exact hw.pins
  case enc => rw [heffect, he, hrel.motion, aenc]; exact congrArg MotionUnit.enc hw.motion
  case cell => rw [htabs]; rfl
  case cellStamp => rw [htabs]; rfl
  case count => rw [heffect, he, hrel.lineCount, acount]; rfl
  case claims => rw [htabs]; rfl
  case board => rw [htabs]; rfl
  case partTemp => rw [htabs]; rfl
  case zones => intro z hz; rw [htabs]; exact zones_formed _ _ _ z hz
  case homes =>
    have himage : cellOf (effect (.form h fp mask enc) s.stn) = cellOf s.stn := by unfold cellOf; rw [hloader]
    rw [htabs, himage]
    exact homes_formed _ _ _
  case members =>
    intro k h1 h2
    rw [htabs, hlate]
    exact ⟨roster_formed _ _ _ k h1 h2, formHeard_entry (hw.heard.trans hheard) _ _ h1 h2⟩
  case channels =>
    intro haxes hfault
    rw [heffect, he, hrel.motion]
    exact formed_channels (by unfold ownOf; rw [hw.loader]; exact haxes) (by rw [hw.motion]; exact hfault)

theorem isOwnJoin_form (s : Station) (h : Hdr) (fp : Print) (mask : StationMask) : isOwnJoin s ⟨h, .form fp mask⟩ = false := by
  simp [isOwnJoin]

/-- A FORM at a joining station whose catch-up list has room or is not yet filled. -/
theorem effect_form_kept {h : Hdr} {fp : Print} {mask : StationMask} {enc : Counts} {s : Station} (hj : joiningMode s = true)
    (hv : vetoedHere s = false) (hg : formatGood (cellOf s) ⟨h, .form fp mask⟩ = true)
    (hroom : s.replica.joinDone = false ∨ s.replica.catchUp.length < 128) :
    ∃ w, JoinKept (readEncoders s enc) w ⟨h, .form fp mask⟩ ∧ Released (takeForm w h fp mask) (effect (.form h fp mask enc) s) := by
  obtain ⟨w, hw, he⟩ := completeFrame_kept (s := readEncoders s enc) hj hv hg rfl hroom
  have heffect : effect (.form h fp mask enc) s = completeFrame (readEncoders s enc) ⟨h, .form fp mask⟩ := by
    rw [← countsForStart_joining hj hv hg enc]
    rfl
  refine ⟨w, hw, ?_⟩
  rw [heffect, he]
  exact releaseOwn_released _ _ rfl

/-- Settles O29: an unformed replica finds a FORM that is void, of another fingerprint or without this station; a formed one finds it void. -/
theorem formElsewhere : Obligations.FormElsewhere := by
  unfold Obligations.FormElsewhere
  intro h fp mask enc s hg hv
  refine ⟨{ s with stn := effect (.form h fp mask enc) s.stn }, exec_effect _ s, rfl, ?unformed, ?void, ?formed⟩
  case unformed =>
    intro hj hformed hsender hexists hflag hseen hroom
    obtain ⟨w, hw, hrel⟩ := effect_form_kept (enc := enc) hj hv hg (.inr hroom)
    have hhere : formsHere w h mask = true :=
      (formsHere_iff hw.tables hw.cellExists hw.snapBeginSeen).mpr ⟨hformed, hsender, hexists, hflag, hseen⟩
    refine ⟨fun hp => ?mismatch, fun hp hout => ?leftOut⟩
    case mismatch =>
      rw [takeForm_mismatch hhere (by rw [hw.loader]; exact hp)] at hrel
      show (effect (.form h fp mask enc) s.stn).loader.mode = _ ∧ (effect (.form h fp mask enc) s.stn).loader.shutReason = _
      rw [hrel.loader]
      exact enterShut_mode _ _
    case leftOut =>
      rw [takeForm_leftOut hhere (by rw [hw.loader]; exact hp) (by rw [hw.number]; exact hout)] at hrel
      obtain ⟨oloader, otables, ocount, onumber⟩ := offerJoin_facts (leftOutStation w)
      refine ⟨?_, ?_, hrel.lineCount.trans ocount, ?_⟩
      · exact hrel.loader.trans (oloader.trans hw.loader)
      · exact (congrArg ReplicaUnit.tables hrel.replica).trans otables
      · exact (congrArg ReplicaUnit.joinNumber hrel.replica).trans (onumber.trans (congrArg nextJoin hw.joinNumber))
  case void =>
    intro hj hground hroom
    obtain ⟨w, hw, hrel⟩ := effect_form_kept (enc := enc) hj hv hg hroom
    have hnot : formsHere w h mask = false := by
      refine Bool.eq_false_iff.mpr fun hhere => ?_
      obtain ⟨-, hsender, hexists, hflag, hseen⟩ := (formsHere_iff hw.tables hw.cellExists hw.snapBeginSeen).mp hhere
      rcases hground with hx | ⟨ha, hrole⟩ | hx | hx
      · exact Bool.false_ne_true (hexists.symm.trans hx)
      · exact hflag.elim (fun hoff => Bool.false_ne_true (hoff.symm.trans ha)) fun hother => hother hrole
      · exact Bool.false_ne_true (hseen.symm.trans hx)
      · exact Bool.false_ne_true (hx.symm.trans hsender)
    rw [takeForm_void hnot] at hrel
    have hrep : (effect (.form h fp mask enc) s.stn).replica = w.replica := hrel.replica
    refine ⟨hrel.loader.trans hw.loader, ?_, ?_, ?_, fun hd => ?_, fun hd => ?_⟩
    · exact (congrArg ReplicaUnit.tables hrep).trans hw.tables
    · exact (congrArg ReplicaUnit.joinNumber hrep).trans hw.joinNumber
    · exact (congrArg ReplicaUnit.service hrep).trans hw.service
    · exact (congrArg ReplicaUnit.catchUp hrep).trans (hw.before hd)
    · exact (congrArg ReplicaUnit.catchUp hrep).trans (by rw [hw.added hd rfl fun _ _ => nofun, hw.joinOffset, isOwnJoin_form]; rfl)
  case formed =>
    intro n hs hn ha
    rw [CellJoin.effect_serving (f := ⟨h, .form fp mask⟩) rfl hs rfl]
    exact completeFrame_void ⟨hs, hv, hg, hn⟩ rfl rfl ha fun _ _ => rfl

/-! ### JOIN in an unformed replica (R25 to R28) -/

theorem isOwnJoin_join {s : Station} (hj : joiningMode s = true) (h : Hdr) (fp : Print) (cause : ResetCause) (jn : Nat) :
    isOwnJoin s ⟨h, .join fp cause jn⟩ = (h.sender == me s) := by
  simp [isOwnJoin, hj]

theorem joinUnformed_entry {r : Replica} (hsize : TablesSized r) (own fp : Print) {h : Hdr} (cause : ResetCause) (h1 : 1 ≤ h.sender)
    (h2 : h.sender ≤ 14) : rosterEntry (joinUnformed own fp h cause r) h.sender =
      { rosterEntry r h.sender with state := .joining, cause := some cause, homed := h.homed, parked := h.parked, fpMatch := fp == own } :=
  at1_set1_same _ _ _ _ h1 (by rw [hsize.roster]; exact h2)

theorem joinUnformed_entry_other (r : Replica) (own fp : Print) {h : Hdr} (cause : ResetCause) {j : Nat} (hj : j ≠ h.sender) :
    rosterEntry (joinUnformed own fp h cause r) j = rosterEntry r j := at1_set1_other _ _ _ _ _ hj

section
variable {w : Station} {h : Hdr} (fp : Print) (cause : ResetCause) (jn : Nat)

/-- The station that has entered the sender of a JOIN in its roster (R25). -/
def joinerEntered (w : Station) (fp : Print) (h : Hdr) (cause : ResetCause) : Station :=
  setTabs w (joinUnformed w.loader.fingerprint fp h cause (tabs w))

theorem takeJoining_ownJoin (ho : h.sender = me w) :
    takeJoining w ⟨h, .join fp cause jn⟩ = ownJoinDone (joinerEntered w fp h cause) := by
  simp [takeJoining, joinerEntered, ho]

theorem takeJoining_serverJoin (ho : h.sender ≠ me w) (hb : servedBy w h.sender = true) :
    takeJoining w ⟨h, .join fp cause jn⟩ = abandonAttempt (joinerEntered w fp h cause) := by
  simp [takeJoining, joinerEntered, ho, hb]

theorem takeJoining_otherJoin (ho : h.sender ≠ me w) (hb : servedBy w h.sender = false) :
    takeJoining w ⟨h, .join fp cause jn⟩ = joinerEntered w fp h cause := by
  simp [takeJoining, joinerEntered, ho, hb]

/-- Whatever a JOIN makes the station do besides, it enters the sender in the roster and changes no other table (R25). -/
theorem takeJoining_join_facts : (takeJoining w ⟨h, .join fp cause jn⟩).loader = w.loader ∧ (takeJoining w ⟨h, .join fp cause jn⟩).now = w.now ∧
    tabs (takeJoining w ⟨h, .join fp cause jn⟩) = joinUnformed w.loader.fingerprint fp h cause (tabs w) := by
  by_cases ho : h.sender = me w
  · rw [takeJoining_ownJoin fp cause jn ho]
    exact ⟨rfl, rfl, rfl⟩
  · cases hb : servedBy w h.sender with
    | true =>
      rw [takeJoining_serverJoin fp cause jn ho hb]
      obtain ⟨aloader, atables, anow, -⟩ := abandon_facts (joinerEntered w fp h cause)
      exact ⟨aloader, anow, atables⟩
    | false =>
      rw [takeJoining_otherJoin fp cause jn ho hb]
      exact ⟨rfl, rfl, rfl⟩

end

/-- Settles O30: the JOIN finds room in the catch-up list and enters its sender, and the three cases are those of the sender. -/
theorem joinInUnformedReplica : Obligations.JoinInUnformedReplica := by
  unfold Obligations.JoinInUnformedReplica
  intro h fp cause jn s hj hv hg hroom hsize
  obtain ⟨w, hw, he⟩ := completeFrame_kept hj hv hg rfl (.inr hroom)
  have hrel : Released (takeJoining w ⟨h, .join fp cause jn⟩) (effect (.join h fp cause jn) s.stn) := by
    show Released _ (completeFrame s.stn ⟨h, .join fp cause jn⟩)
    rw [he]
    exact releaseOwn_released _ _ rfl
  have hstart : isOwnJoin s.stn ⟨h, .join fp cause jn⟩ = (h.sender == me s.stn) := isOwnJoin_join hj h fp cause jn
  obtain ⟨h1, h2⟩ := sender_range hg
  obtain ⟨jloader, jnow, jtabs⟩ := takeJoining_join_facts (w := w) (h := h) fp cause jn
  have htabs : tabs (effect (.join h fp cause jn) s.stn) = joinUnformed s.stn.loader.fingerprint fp h cause (tabs s.stn) := by
    rw [show tabs (effect (.join h fp cause jn) s.stn) = _ from congrArg ReplicaUnit.tables hrel.replica, ← hw.loader, ← hw.tables]
    exact jtabs
  obtain ⟨hzones, hprobes, hports, hboard, hlatches⟩ := tablesStay_of_eq (s := s.stn) (by rw [htabs]; rfl)
  refine ⟨{ s with stn := effect (.join h fp cause jn) s.stn }, exec_effect _ s, rfl, (hrel.loader.trans jloader).trans hw.loader,
    (hrel.now.trans jnow).trans hw.now, ⟨_, rfl, ?entry⟩, fun j hne => ?others, ?cell, hzones, hprobes, hports, hboard, hlatches,
    fun ho => ?own, fun ho hb => ?other, fun ho hb => ?server⟩
  case entry => rw [htabs, joinUnformed_entry hsize _ _ _ h1 h2]; exact ⟨rfl, rfl, rfl, rfl, rfl⟩
  case others => rw [htabs]; exact joinUnformed_entry_other _ _ _ _ hne
  case cell => rw [htabs]; rfl
  case own =>
    rw [takeJoining_ownJoin fp cause jn (ho.trans hw.number.symm)] at hrel
    have hrep : (effect (.join h fp cause jn) s.stn).replica = (ownJoinDone (joinerEntered w fp h cause)).replica := hrel.replica
    refine ⟨congrArg ReplicaUnit.joinDone hrep, (congrArg ReplicaUnit.formWait hrep).trans ?_, (congrArg ReplicaUnit.joinRetry hrep).trans ?_,
      congrArg ReplicaUnit.catchUp hrep, hrel.joinOffset.trans ?_⟩
    · show some (w.now + 500) = _
      rw [hw.now]
    · show some (w.now + 2 * (cellOf w).period) = _
      rw [hw.now, hw.cell]
    · show w.line.joinOffset = 0
      rw [hw.joinOffset, hstart, ho, beq_self_eq_true, if_pos rfl]
  case other =>
    rw [takeJoining_otherJoin fp cause jn (fun he => ho (he.trans hw.number)) ((hw.servedBy _).trans hb)] at hrel
    refine ⟨(congrArg ReplicaUnit.joinDone hrel.replica).trans ?_, hrel.joinOffset.trans ?_⟩
    · show w.replica.joinDone = _
      rw [hw.replica]
    · show w.line.joinOffset = _
      rw [hw.joinOffset, hstart, beq_false_of_ne ho]
      rfl
  case server =>
    rw [takeJoining_serverJoin fp cause jn (fun he => ho (he.trans hw.number)) ((hw.servedBy _).trans hb)] at hrel
    obtain ⟨-, -, hservice, hpending, hcatch⟩ := (abandonAttempt_abandoned _).released hrel
    exact ⟨hservice, hpending, hcatch⟩

/-! ### SILENCE (R39, R41, R42) -/

/-- A SILENCE of the station that serves this one finds the attempt abandoned or abandons it, whether or not it was kept. -/
theorem takeJoining_silence_abandoned {u : Station} {h : Hdr} {k count : Nat} (hb : servedBy u k = true) :
    Abandoned u (takeJoining (keepFrame u ⟨h, .silence k count⟩) ⟨h, .silence k count⟩) := by
  have htake : ∀ v : Station, takeJoining v ⟨h, .silence k count⟩ = if servedBy v k then abandonAttempt v else v := fun _ => rfl
  have hstart := abandonAttempt_abandoned u
  rw [htake]
  rcases keepFrame_cases u ⟨h, .silence k count⟩ with hkept | hfull
  · have hserved : servedBy (keepFrame u ⟨h, .silence k count⟩) k = true := by rw [hkept]; exact hb
    obtain ⟨kloader, ktables, -⟩ := keepFrame_facts u ⟨h, .silence k count⟩
    obtain ⟨hloader, htables, hservice, hpending, hcatch⟩ := abandonAttempt_abandoned (keepFrame u ⟨h, .silence k count⟩)
    rw [if_pos hserved]
    exact ⟨hloader.trans kloader, htables.trans ktables, hservice, hpending, hcatch⟩
  · have hserved : servedBy (abandonAttempt u) k = false := by unfold servedBy; rw [hstart.service]
    rw [hfull, hserved, if_neg Bool.false_ne_true]
    exact hstart

/-- Settles O33: at a station of the cell by the three cases of what the SILENCE names, at a joining station by the attempt it ends. -/
theorem silenceTakesAway : Obligations.SilenceTakesAway := by
  unfold Obligations.SilenceTakesAway
  refine ⟨fun h k count s n ht ha hsize => ?serving, fun h k count s hj hv hg hb => ?joining⟩
  case serving =>
    refine ⟨{ s with stn := effect (.silence h k count) s.stn }, exec_effect _ s, rfl, ?_⟩
    rw [effect_serving (f := ⟨h, .silence k count⟩) rfl ht.1 rfl]
    exact ⟨fun hsil hk => completeFrame_silences ht ha hsize hsil hk, fun hsil hk => by subst hk; exact completeFrame_silencesMe ht ha hsil,
      completeFrame_notSilenced ht ha⟩
  case joining =>
    refine ⟨{ s with stn := effect (.silence h k count) s.stn }, exec_effect _ s, rfl, ?_⟩
    obtain ⟨u, hu, he⟩ := completeFrame_joining hj hv hg rfl
    have hserved : servedBy u k = true := by unfold servedBy at hb ⊢; rw [hu.replica]; exact hb
    have hfinal : Abandoned u (effect (.silence h k count) s.stn) := by
      show Abandoned u (completeFrame s.stn ⟨h, .silence k count⟩)
      rw [he]
      exact (takeJoining_silence_abandoned hserved).released (releaseOwn_released _ _ rfl)
    have htabs : tabs u = tabs s.stn := by unfold tabs; rw [hu.replica]
    exact ⟨hfinal.loader.trans hu.loader, hfinal.tables.trans htabs, hfinal.service, hfinal.pendingRep, hfinal.catchUp⟩

/-! ### SNAP_BEGIN and SNAP_ENTRY (R33, R36, R37) -/

/-- The station that has seen a SNAP_BEGIN addressed to it (R29). -/
def beginSeen (w : Station) : Station := { w with replica := { w.replica with snapBeginSeen := true } }

section
variable {w : Station} {h : Hdr} {jn : Nat} {fp : Print} {entries : Nat} (hd : h.dest = me w)
include hd

theorem takeSnapBegin_accepts (hj : jn = w.replica.joinNumber) (hdone : w.replica.joinDone = true) (hs : w.replica.service = none) :
    takeSnapBegin w h .serve jn fp entries = { w with replica := acceptService (beginSeen w).replica h.sender jn entries } := by
  simp [takeSnapBegin, beginSeen, hd, hj, hdone, hs]

theorem takeSnapBegin_ignores (hn : ¬ (jn = w.replica.joinNumber ∧ w.replica.joinDone = true ∧ w.replica.service = none)) :
    takeSnapBegin w h .serve jn fp entries = beginSeen w := by
  unfold takeSnapBegin
  rw [if_neg (not_not_intro hd)]
  exact if_neg hn

theorem takeSnapBegin_refused (hj : jn = w.replica.joinNumber) (hp : fp ≠ w.loader.fingerprint) :
    takeSnapBegin w h .refuse jn fp entries = enterShut (beginSeen w) .mismatch := by
  simp [takeSnapBegin, beginSeen, hd, hj, hp]

theorem takeSnapBegin_otherRefuse (hn : jn ≠ w.replica.joinNumber ∨ fp = w.loader.fingerprint) :
    takeSnapBegin w h .refuse jn fp entries = beginSeen w := by
  unfold takeSnapBegin
  rw [if_neg (not_not_intro hd)]
  exact if_neg fun hc => hn.elim (absurd hc.1) fun he => hc.2 he

/-- A SERVE leaves loader and tables as they are, and is noted. -/
theorem takeSnapBegin_serve_facts : (takeSnapBegin w h .serve jn fp entries).loader = w.loader ∧
    tabs (takeSnapBegin w h .serve jn fp entries) = tabs w ∧ (takeSnapBegin w h .serve jn fp entries).replica.snapBeginSeen = true := by
  by_cases hc : jn = w.replica.joinNumber ∧ w.replica.joinDone = true ∧ w.replica.service = none
  · obtain ⟨hj, hdone, hs⟩ := hc
    rw [takeSnapBegin_accepts hd hj hdone hs]
    exact ⟨rfl, rfl, rfl⟩
  · rw [takeSnapBegin_ignores hd hc]
    exact ⟨rfl, rfl, rfl⟩

end

theorem takeEntry_loads {w : Station} {h : Hdr} {jn : Nat} {content : SnapContent} {v : Service} {p : PendingReplica}
    (hs : w.replica.service = some v) (hp : w.replica.pendingRep = some p) (hm : h.dest = me w ∧ h.sender = v.sender ∧ jn = v.jn) :
    takeEntry w h jn content = { w with replica := { w.replica with
      service := some { v with received := v.received + 1 }, pendingRep := some (loadEntry p content) } } := by
  unfold takeEntry
  rw [hs, hp]
  exact if_pos hm

theorem takeEntry_ignores {w : Station} {h : Hdr} {jn : Nat} (content : SnapContent) {v : Service} {p : PendingReplica}
    (hs : w.replica.service = some v) (hp : w.replica.pendingRep = some p) (hm : ¬ (h.dest = me w ∧ h.sender = v.sender ∧ jn = v.jn)) :
    takeEntry w h jn content = w := by
  unfold takeEntry
  rw [hs, hp]
  exact if_neg hm

theorem one_le_station {k : Nat} (h : stationNumber k = true) : 1 ≤ k := by
  simp only [stationNumber, Bool.and_eq_true, decide_eq_true_eq] at h
  exact h.1

theorem one_le_port {x : Nat} (h : portNumber x = true) : 1 ≤ x := by
  simp only [portNumber, Bool.and_eq_true, decide_eq_true_eq] at h
  exact h.1

theorem loadEntry_zone (p : PendingReplica) {z : Nat} (e : ZoneEntry) (hz : z < p.tables.zones.length) :
    zoneEntry (loadEntry p (.zone z e)).tables z = e := by
  simp [zoneEntry, loadEntry, hz]

theorem loadEntry_roster (p : PendingReplica) {k : Nat} (role : Role) (e : RosterEntry) (heard : Option Nat) (h1 : 1 ≤ k)
    (hr : k ≤ p.tables.roster.length) (hh : k ≤ p.heard.length) :
    rosterEntry (loadEntry p (.roster k role e heard)).tables k = e ∧ at1 (loadEntry p (.roster k role e heard)).heard none k = heard :=
  ⟨at1_set1_same _ _ _ _ h1 hr, at1_set1_same _ _ _ _ h1 hh⟩

theorem loadEntry_port (p : PendingReplica) {x : Nat} (e : PortEntry) (h1 : 1 ≤ x) (hx : x ≤ p.tables.ports.length) :
    portEntry (loadEntry p (.port x e)).tables x = e := at1_set1_same _ _ _ _ h1 hx

/-- The numbers of a SNAP_ENTRY of good format (R177). -/
theorem contentGood_of_formatGood {c : CellPart} {h : Hdr} {jn : Nat} {content : SnapContent}
    (hg : formatGood c ⟨h, .snapEntry jn content⟩ = true) : contentGood content = true := by
  simp only [formatGood, bodyGood, Bool.and_eq_true] at hg
  exact hg.2

/-- SNAP_BEGIN at the joiner it is addressed to, by its purpose and by whether the service is accepted. -/
theorem snapBegin_taken {h : Hdr} {purpose : SnapPurpose} {jn : Nat} {fp : Print} {entries : Nat} {s t : Station}
    {u : Station} {f : Frame} (hu : JoinKept s u f) (hd : h.dest = me s) (hrel : Released (takeSnapBegin u h purpose jn fp entries) t) :
    (purpose = .serve → t.loader = s.loader ∧ tabs t = tabs s ∧ t.replica.snapBeginSeen = true) ∧
      (purpose = .serve → jn = s.replica.joinNumber → s.replica.joinDone = true → s.replica.service = none →
        t.replica.service = some ⟨h.sender, jn, entries, 0⟩ ∧ t.replica.pendingRep = some ⟨Replica.blank, List.replicate 14 none⟩) ∧
      (purpose = .serve → (jn ≠ s.replica.joinNumber ∨ s.replica.joinDone = false ∨ s.replica.service ≠ none) →
        t.replica.service = s.replica.service ∧ t.replica.pendingRep = s.replica.pendingRep) ∧
      (purpose = .refuse → jn = s.replica.joinNumber → fp ≠ s.loader.fingerprint →
        t.loader.mode = .shut ∧ t.loader.shutReason = some .mismatch) ∧
      (purpose = .refuse → jn ≠ s.replica.joinNumber ∨ fp = s.loader.fingerprint →
        t.loader = s.loader ∧ t.replica.service = s.replica.service) := by
  have hdest : h.dest = me u := hd.trans hu.number.symm
  refine ⟨fun hp => ?noted, fun hp hj hdone hs => ?accepted, fun hp hn => ?ignored, fun hp hj hf => ?refused, fun hp hn => ?other⟩ <;> subst hp
  case noted =>
    obtain ⟨hloader, htables, hseen⟩ := takeSnapBegin_serve_facts (jn := jn) (fp := fp) (entries := entries) hdest
    exact ⟨hrel.loader.trans (hloader.trans hu.loader), (congrArg ReplicaUnit.tables hrel.replica).trans (htables.trans hu.tables),
      (congrArg ReplicaUnit.snapBeginSeen hrel.replica).trans hseen⟩
  case accepted =>
    rw [takeSnapBegin_accepts hdest (hj.trans hu.joinNumber.symm) (hu.joinDone.trans hdone) (hu.service.trans hs)] at hrel
    exact ⟨congrArg ReplicaUnit.service hrel.replica, congrArg ReplicaUnit.pendingRep hrel.replica⟩
  case ignored =>
    rw [takeSnapBegin_ignores hdest (by
      rw [hu.joinNumber, hu.joinDone, hu.service]
      rintro ⟨hj, hdone, hs⟩
      rcases hn with h1 | h1 | h1
      · exact h1 hj
      · exact Bool.false_ne_true (h1.symm.trans hdone)
      · exact h1 hs)] at hrel
    exact ⟨(congrArg ReplicaUnit.service hrel.replica).trans hu.service, (congrArg ReplicaUnit.pendingRep hrel.replica).trans hu.pendingRep⟩
  case refused =>
    rw [takeSnapBegin_refused hdest (hj.trans hu.joinNumber.symm) (by rw [hu.loader]; exact hf)] at hrel
    rw [hrel.loader]
    exact enterShut_mode _ _
  case other =>
    rw [takeSnapBegin_otherRefuse hdest (by rw [hu.joinNumber, hu.loader]; exact hn)] at hrel
    exact ⟨hrel.loader.trans hu.loader, (congrArg ReplicaUnit.service hrel.replica).trans hu.service⟩

/-- Settles O34: neither frame is kept in the catch-up list; each is taken by the station as it was counted. -/
theorem snapshotIsTaken : Obligations.SnapshotIsTaken := by
  unfold Obligations.SnapshotIsTaken
  refine ⟨fun h purpose jn fp entries s hj hv hg hd => ?snapBegin, fun h jn content s v p hj hv hg hs hp => ?entry⟩
  case snapBegin =>
    obtain ⟨u, hu, he⟩ := completeFrame_unkept hj hv hg rfl rfl
    have hrel : Released (takeSnapBegin u h purpose jn fp entries) (effect (.snapBegin h purpose jn fp entries) s.stn) := by
      show Released _ (completeFrame s.stn ⟨h, .snapBegin purpose jn fp entries⟩)
      rw [he]
      exact releaseOwn_released _ _ rfl
    exact ⟨{ s with stn := effect (.snapBegin h purpose jn fp entries) s.stn }, exec_effect _ s, rfl, snapBegin_taken hu hd hrel⟩
  case entry =>
    obtain ⟨u, hu, he⟩ := completeFrame_unkept hj hv hg rfl rfl
    have hrel : Released (takeEntry u h jn content) (effect (.snapEntry h jn content) s.stn) := by
      show Released _ (completeFrame s.stn ⟨h, .snapEntry jn content⟩)
      rw [he]
      exact releaseOwn_released _ _ rfl
    have hgood := contentGood_of_formatGood hg
    refine ⟨{ s with stn := effect (.snapEntry h jn content) s.stn }, exec_effect _ s, rfl, ?_⟩
    by_cases hm : h.dest = me s.stn ∧ h.sender = v.sender ∧ jn = v.jn
    · rw [takeEntry_loads (hu.service.trans hs) (hu.pendingRep.trans hp) (by rw [hu.number]; exact hm)] at hrel
      refine ⟨hrel.loader.trans hu.loader, (congrArg ReplicaUnit.tables hrel.replica).trans hu.tables, fun _ => ⟨congrArg ReplicaUnit.service hrel.replica,
        loadEntry p content, congrArg ReplicaUnit.pendingRep hrel.replica, rfl, ?zone, ?roster, ?port, ?claim⟩, fun hn => absurd hm hn⟩
      case zone => rintro z e rfl hz; exact loadEntry_zone p e hz
      case roster => rintro k role e heard rfl hr hh; exact loadEntry_roster p role e heard (one_le_station hgood) hr hh
      case port => rintro x e rfl hx; exact loadEntry_port p e (one_le_port hgood) hx
      case claim => rintro place c rfl; rfl
    · rw [takeEntry_ignores content (hu.service.trans hs) (hu.pendingRep.trans hp) (by rw [hu.number]; exact hm)] at hrel
      exact ⟨hrel.loader.trans hu.loader, (congrArg ReplicaUnit.tables hrel.replica).trans hu.tables, fun hc => absurd hc hm,
        fun _ => ⟨(congrArg ReplicaUnit.service hrel.replica).trans hu.service, (congrArg ReplicaUnit.pendingRep hrel.replica).trans hu.pendingRep⟩⟩

/-! ### SNAP_END (R35, R38, R39) -/

section
variable {w : Station} {h : Hdr} {jn count : Nat} {fp : Print} {v : Service} {p : PendingReplica} (hs : w.replica.service = some v)
  (hp : w.replica.pendingRep = some p) (hm : h.dest = me w ∧ h.sender = v.sender ∧ jn = v.jn)
include hs hp hm

theorem takeSnapEnd_cases : takeSnapEnd w h jn count fp =
    if fp ≠ w.loader.fingerprint then enterShut w .mismatch
    else if v.received ≠ v.announced then abandonAttempt w
    else loadSnapshot w p count := by
  unfold takeSnapEnd
  rw [hs, hp]
  exact if_pos hm

theorem takeSnapEnd_mismatch (hf : fp ≠ w.loader.fingerprint) : takeSnapEnd w h jn count fp = enterShut w .mismatch := by
  rw [takeSnapEnd_cases hs hp hm, if_pos hf]

theorem takeSnapEnd_missing (hf : fp = w.loader.fingerprint) (hr : v.received ≠ v.announced) :
    takeSnapEnd w h jn count fp = abandonAttempt w := by
  rw [takeSnapEnd_cases hs hp hm, if_neg (not_not_intro hf), if_pos hr]

theorem takeSnapEnd_loads (hf : fp = w.loader.fingerprint) (hr : v.received = v.announced) :
    takeSnapEnd w h jn count fp = loadSnapshot w p count := by
  rw [takeSnapEnd_cases hs hp hm, if_neg (not_not_intro hf), if_neg (not_not_intro hr)]

end

theorem loadSnapshot_enc (s : Station) (p : PendingReplica) (count : Nat) : (loadSnapshot s p count).motion.enc = s.motion.enc := by
  obtain ⟨-, -, -, -, -, -, henc, -⟩ := enterActive_facts (loadedStation s p count)
  rw [loadSnapshot_eq, henc]
  rfl

/-- The SNAP_END that a sender of the cell has completed: its own service ends, if that is the one it names, and no entry changes else
(R22, R35). -/
theorem completeFrame_snapEnd {s : Station} {h : Hdr} {jn count : Nat} {fp : Print} {n : Nat} (ht : Says.takes s ⟨h, .snapEnd jn count fp⟩ n)
    (ha : Says.passes s h) :
    ∃ r t, Passed (cellOf s) (n + 1) h (tabs s) r ∧ t = completeFrame s ⟨h, .snapEnd jn count fp⟩ ∧ Says.counted s t h n ∧ TablesStay s t ∧
      tabs t = derive (cellOf s) (endServices (n + 1) (fun j v => j == h.sender && v == (h.dest, jn)) r) := by
  obtain ⟨r, hr, h1⟩ := completeFrame_passed ht rfl rfl ha
  obtain ⟨hlive, htabs⟩ := h1 (Bool.and_false _)
  refine ⟨r, _, hr, rfl, counted_of_live hlive, tablesStay_of_roster ?_ htabs, htabs⟩
  show endServices _ _ r = _
  conv_lhs => rw [hr.rest]
  rfl

/-- Settles O35: at the joiner the SNAP_END mismatches, finds entries missing or loads; at a station of the cell it ends the sender's service. -/
theorem snapEndLoads : Obligations.SnapEndLoads := by
  unfold Obligations.SnapEndLoads
  refine ⟨fun h jn count fp enc s v p hj hv hg hs hp hd hk hn hroom => ?joiner, fun h jn count fp enc s n ht ha hsize => ?serving⟩
  case joiner =>
    obtain ⟨w, hw, he⟩ := completeFrame_kept (s := readEncoders s.stn enc) hj hv hg rfl (.inr hroom)
    have hrel : Released (takeSnapEnd w h jn count fp) (effect (.snapEnd h jn count fp enc) s.stn) := by
      show Released _ (completeFrame (countsForStart s.stn ⟨h, .snapEnd jn count fp⟩ enc) ⟨h, .snapEnd jn count fp⟩)
      rw [countsForStart_joining hj hv hg, he]
      exact releaseOwn_released _ _ rfl
    have hm : h.dest = me w ∧ h.sender = v.sender ∧ jn = v.jn := ⟨hd.trans hw.number.symm, hk, hn⟩
    have hservice := hw.service.trans hs
    have hpending := hw.pendingRep.trans hp
    have hprint : w.loader.fingerprint = s.stn.loader.fingerprint := by rw [hw.loader]; rfl
    refine ⟨{ s with stn := effect (.snapEnd h jn count fp enc) s.stn }, exec_effect _ s, rfl, fun hf => ?mismatch, fun hf hr => ?missing,
      fun hf hr => ?loads⟩
    case mismatch =>
      rw [takeSnapEnd_mismatch hservice hpending hm (by rw [hprint]; exact hf)] at hrel
      show (effect (.snapEnd h jn count fp enc) s.stn).loader.mode = _ ∧ (effect (.snapEnd h jn count fp enc) s.stn).loader.shutReason = _
      rw [hrel.loader]
      exact enterShut_mode _ _
    case missing =>
      rw [takeSnapEnd_missing hservice hpending hm (hf.trans hprint.symm) hr] at hrel
      obtain ⟨hloader, htables, hnone, hgone, hempty⟩ := (abandonAttempt_abandoned w).released hrel
      exact ⟨hloader.trans hw.loader, hnone, hgone, hempty, htables.trans hw.tables⟩
    case loads =>
      rw [takeSnapEnd_loads hservice hpending hm (hf.trans hprint.symm) hr] at hrel
      obtain ⟨lloader, lcount, lstep⟩ := loadSnapshot_facts w p count
      have hloader : (effect (.snapEnd h jn count fp enc) s.stn).loader = { s.stn.loader with mode := .active } := by
        rw [hrel.loader, lloader, hw.loader]; rfl
      have htabs : tabs (effect (.snapEnd h jn count fp enc) s.stn) = tabs (loadSnapshot w p count) := congrArg ReplicaUnit.tables hrel.replica
      have himage : cellOf (effect (.snapEnd h jn count fp enc) s.stn) = cellOf s.stn := by unfold cellOf; rw [hloader]
      have hcell : cellOf w = cellOf s.stn := hw.cell
      have hrecord : (tabs (effect (.snapEnd h jn count fp enc) s.stn)).cell = { p.tables.cell with formed := true } := by rw [htabs, lstep.cell]
      have hoffset : w.line.joinOffset = s.stn.line.joinOffset + 1 := by rw [hw.joinOffset]; simp [isOwnJoin, readEncoders]
      refine ⟨hloader, ?_, ?_, ?_, ?_, ?_, fun hhomes => ?_⟩
      · rw [← hoffset]; exact hrel.lineCount.trans lcount
      · have hmotion : (effect (.snapEnd h jn count fp enc) s.stn).motion.enc = (loadSnapshot w p count).motion.enc :=
          congrArg MotionUnit.enc hrel.motion
        rw [← hw.motion]
        exact hmotion.trans (loadSnapshot_enc w p count)
      · exact congrArg CellRecord.formed hrecord
      · exact (congrArg CellRecord.fingerprint hrecord :)
      · exact (congrArg CellRecord.members hrecord :)
      · rw [htabs, himage, ← hcell]
        exact lstep.homes (by rw [hcell]; exact hhomes)
  case serving =>
    obtain ⟨r, t, hr, ht', hcounted, ⟨hzones, hprobes, hports, hboard, hlatches⟩, htabs⟩ := completeFrame_snapEnd ht ha
    have heffect : effect (.snapEnd h jn count fp enc) s.stn = t := by
      rw [effect_serving (f := ⟨h, .snapEnd jn count fp⟩) rfl ht.1 rfl, ht']
    refine ⟨{ s with stn := t }, by rw [exec_effect, heffect], rfl, hcounted, fun hv => ?ends, fun hv => ?stays, fun j hj => ?others, hzones, hprobes, hports,
      hboard, hlatches⟩
    case ends => rw [htabs, rosterEntry_derive, endServices_ended _ (hr.serving.trans hv) (by simp)]
    case stays =>
      rw [htabs, rosterEntry_derive, endServices_kept, hr.serving]
      intro v hs
      rw [hr.serving] at hs
      have hne : v ≠ (h.dest, jn) := fun hc => hv (hs.trans (congrArg some hc))
      rw [beq_false_of_ne hne, Bool.and_false]
    case others =>
      rw [htabs, rosterEntry_derive, endServices_kept, hr.others j hj]
      intro v _
      rw [beq_false_of_ne hj, Bool.false_and]

end Sys2Proof.CellJoin
end

section
/-! A good image, a silent peer and the timers of the units (R24, R27, R28, R39, R40, R92 to R97, R147 to R152, R171). -/

namespace Sys2Proof.CellJoin

open Sys2Proof Sys2Proof.Machine Sys2Proof.Laws
open Sys2Proof.CellLine (effect exec_effect)

/-! ### Frames offered to the CONTROL queue (R11, R12) -/

theorem noneWaiting_iff {l : List Waiting} {src : CtlSource} : l.any (fun w => w.src == src) = false ↔ ∀ w ∈ l, w.src ≠ src := by
  simp [List.any_eq_false]

theorem offerControl_taken {s : Station} {src : CtlSource} (dest : Nat) (b : Body) (hroom : controlHeld s.line < 7)
    (hw : ∀ w ∈ s.line.waiting, w.src ≠ src) :
    offerControl s src dest b = { s with line := { s.line with control := s.line.control ++ [⟨dest, b⟩] } } := by
  have htakes : takesControl s.line = true := decide_eq_true hroom
  unfold offerControl
  rw [noneWaiting_iff.mpr hw, htakes]
  rfl

theorem offerControl_waits {s : Station} (src : CtlSource) (dest : Nat) (b : Body) (hfull : 7 ≤ controlHeld s.line) :
    offerControl s src dest b = { s with line := { s.line with waiting := s.line.waiting ++ [⟨src, ⟨dest, b⟩⟩] } } := by
  have hrefuses : takesControl s.line = false := decide_eq_false (Nat.not_lt.mpr hfull)
  unfold offerControl
  rw [hrefuses, Bool.and_false]
  rfl

theorem offerControl_offered (s : Station) (src : CtlSource) (b : Body) : Says.offered s (offerControl s src 0 b) src b := by
  refine ⟨fun hroom hw => ?_, fun hfull => ?_⟩
  · rw [offerControl_taken 0 b hroom hw]
    exact List.mem_append_right _ List.mem_cons_self
  · rw [offerControl_waits src 0 b hfull]
    exact List.mem_append_right _ List.mem_cons_self

/-- The replica unit that offers its next JOIN (R24). -/
def joinOffered (r : ReplicaUnit) : ReplicaUnit :=
  { r with joinNumber := nextJoin r.joinNumber, joinDone := false, catchUp := [], service := none, pendingRep := none, abandoned := false }

/-- The station about to offer its next JOIN: the FORM and JOIN frames it kept are withdrawn (R24, log 36). -/
def joinAsked (s : Station) : Station := withdrawWaiting { s with replica := joinOffered s.replica } (fun w => w.src == .joining)

theorem offerJoin_eq (s : Station) :
    offerJoin s = offerControl (joinAsked s) .joining 0 (.join s.loader.fingerprint s.loader.cause (nextJoin s.replica.joinNumber)) := rfl

theorem offerJoin_line (s : Station) : offerJoin s = { s with line := (offerJoin s).line, replica := joinOffered s.replica } := by
  rw [offerJoin_eq]
  exact offerControl_line _ _ _ _

/-- A JOIN needs room in the CONTROL queue alone: no frame kept by the unit stands before it. -/
theorem offerJoin_control {s : Station} (hroom : controlHeld s.line < 7) :
    (offerJoin s).line.control = s.line.control ++ [⟨0, .join s.loader.fingerprint s.loader.cause (nextJoin s.replica.joinNumber)⟩] := by
  have hnone : ∀ w ∈ (joinAsked s).line.waiting, w.src ≠ .joining := fun w hw => by
    have hkept : (!(w.src == .joining)) = true := (List.mem_filter.mp hw).2
    simpa using hkept
  rw [offerJoin_eq, offerControl_taken (s := joinAsked s) 0 _ hroom hnone]
  rfl

/-! ### A good image (R24, R171) -/

theorem loadImage_good {s : Station} {bytes : List Byte} {im : Image} {fp : Print} (h : judgeImage bytes s.loader.number = .good im fp) :
    loadImage s bytes = enterJoining { s with loader := { s.loader with image := im, fingerprint := fp } } := by
  unfold loadImage
  rw [h]

/-- The station in JOINING mode before it offers its JOIN (R24, R168). -/
def joinerStation (s : Station) (im : Image) (fp : Print) : Station :=
  { s with
    loader := { s.loader with image := im, fingerprint := fp, mode := .joining }
    replica := { ReplicaUnit.reset with joinNumber := s.replica.joinNumber }
    thermal := { ThermalUnit.reset with sampleDue := some (s.now + Config.samplePeriod) } }

/-- Settles O11: the Loader holds the image and the station that enters JOINING offers JOIN 1 on its empty line. -/
theorem goodImageStartsJoining : Obligations.GoodImageStartsJoining := by
  unfold Obligations.GoodImageStartsJoining
  intro bytes s im fp hheld hmode hline hreplica himage
  have hjoins : effect (.imageReadComplete bytes) s.stn = offerJoin (joinerStation s.stn im fp) := by
    show (if s.stn.loader.held = false ∧ s.stn.loader.mode = .loading then loadImage s.stn bytes else s.stn) = _
    rw [if_pos ⟨hheld, hmode⟩, loadImage_good himage]
    rfl
  have hwhole := offerJoin_line (joinerStation s.stn im fp)
  have hempty : controlHeld (joinerStation s.stn im fp).line < 7 := by
    show controlHeld s.stn.line < 7
    rw [hline]
    decide
  have hcontrol := offerJoin_control hempty
  have hnumber : s.stn.replica.joinNumber = 0 := by rw [hreplica]; rfl
  rw [show (joinerStation s.stn im fp).line.control = s.stn.line.control from rfl,
    show (joinerStation s.stn im fp).replica.joinNumber = s.stn.replica.joinNumber from rfl, hline, hnumber] at hcontrol
  refine ⟨{ s with stn := effect (.imageReadComplete bytes) s.stn }, exec_effect _ s, rfl, ?_⟩
  simp only [hjoins]
  rw [hcontrol, hwhole]
  refine ⟨rfl, rfl, rfl, ?drive, ?ok, rfl, ?number, rfl, rfl, rfl, rfl, rfl, rfl, rfl, rfl⟩
  case drive => simp [driveEnable, working, joinerStation]
  case ok => simp [stationOk, listening, joinerStation, hheld]
  case number =>
    show nextJoin s.stn.replica.joinNumber = 1
    rw [hnumber]
    rfl

/-! ### A silent peer (R40) -/

/-- The station that notices a peer's silence at a moment, for a count of that peer (R40). -/
def noticedStation (s : Station) (due k n : Nat) : Station :=
  { atDue s due with replica := { s.replica with noticed := set1 s.replica.noticed k (some n) } }

theorem silenceLimit_peer {s : Station} {k n m : Nat} (hs : serving s = true) (hk : k ≠ me s) (hrole : roleIn (cellOf s) k = .mc410)
    (hactive : rosterState (tabs s) k = .active) (hheard : at1 s.line.heard ⟨.none, 0⟩ k = ⟨.abs n, m⟩) :
    silenceLimit s k = if at1 s.replica.noticed none k = some n then atDue s (m + 4 * (cellOf s).period)
      else offerControl (noticedStation s (m + 4 * (cellOf s).period) k n) .silence 0 (.silence k n) := by
  have hpeer : (serving s && k != me s && roleIn (cellOf s) k == .mc410 && rosterState (tabs s) k == .active) = true := by
    simp [hs, hk, hrole, hactive]
  unfold silenceLimit
  rw [hheard, hpeer]
  rfl

/-- Settles O26: the peer has not been heard for four periods; its SILENCE is offered unless that pair of station and count was noticed. -/
theorem silenceIsNoticedOnce : Obligations.SilenceIsNoticedOnce := by
  unfold Obligations.SilenceIsNoticedOnce
  intro k n m s hs hk hrole hactive hheard
  have heffect : effect (.silenceLimitReached k) s.stn = _ := silenceLimit_peer hs hk hrole hactive hheard
  refine ⟨{ s with stn := effect (.silenceLimitReached k) s.stn }, exec_effect _ s, rfl, ?_⟩
  simp only [heffect]
  by_cases hnoticed : at1 s.stn.replica.noticed none k = some n
  · rw [if_pos hnoticed]
    exact ⟨rfl, rfl, fun hn => absurd hnoticed hn, fun _ => ⟨rfl, rfl⟩⟩
  · rw [if_neg hnoticed]
    have hrest := offerControl_line (noticedStation s.stn (m + 4 * (cellOf s.stn).period) k n) .silence 0 (.silence k n)
    refine ⟨congrArg Station.now hrest, (congrArg tabs hrest :), fun _ hw hroom => ⟨?_, congrArg (fun t => t.replica.noticed) hrest⟩,
      fun hn => absurd hn hnoticed⟩
    rw [offerControl_taken (s := noticedStation _ _ _ _) 0 _ hroom hw]
    rfl

/-! ### Rounding and the correction of a point (R148 to R152) -/

/-- The quotient of natural numbers rounded at the half (R148). -/
theorem nearest_div (n den : Nat) (hd : 0 < den) :
    2 * den * ((2 * n + den) / (2 * den)) ≤ 2 * n + den ∧ 2 * n + den < 2 * den * ((2 * n + den) / (2 * den)) + 2 * den :=
  ⟨Nat.mul_div_le _ _, Nat.lt_mul_div_succ _ (by omega)⟩

theorem roundDiv_rounded (num : Int) {den : Nat} (hd : 0 < den) : Says.rounded num den (roundDiv num den) := by
  obtain ⟨hlow, hhigh⟩ := nearest_div num.natAbs den hd
  have hassoc : 2 * den * ((2 * num.natAbs + den) / (2 * den)) = 2 * ((2 * num.natAbs + den) / (2 * den) * den) := by ring
  rw [hassoc] at hlow hhigh
  have hprod : (((2 * num.natAbs + den) / (2 * den) : Nat) : Int) * (den : Int) = (((2 * num.natAbs + den) / (2 * den) * den : Nat) : Int) := by
    push_cast
    ring
  unfold Says.rounded roundDiv
  generalize (2 * num.natAbs + den) / (2 * den) * den = m at *
  split
  next hneg =>
    rw [neg_mul, hprod]
    simp only [Int.abs_eq_natAbs]
    omega
  next hpos =>
    rw [hprod]
    simp only [Int.abs_eq_natAbs]
    omega

theorem scaled_rounded (p : Int) (alpha : Nat) (dT : Int) : Says.rounded (p * alpha * dT) 100000000000 (scaled p alpha dT) :=
  roundDiv_rounded _ (by norm_num)

section
variable {s : Station} {ax : Axis}

theorem scaleTemp_valid {e : BoardEntry} (hb : boardKind (tabs s) (me s) (scaleKind ax) = some e) (hv : e.state = .valid) (he : e.excluded = false) :
    scaleTemp s (scaleKind ax) = some e.value := by
  simp [scaleTemp, hb, hv, he]

theorem scaleTemp_none_iff : scaleTemp s (scaleKind ax) = none ↔ Says.scaleUnknown s ax := by
  unfold scaleTemp Says.scaleUnknown
  cases hb : boardKind (tabs s) (me s) (scaleKind ax) with
  | none => simp
  | some e => simp only [Option.some.injEq, forall_eq', ite_eq_right_iff, reduceCtorEq, imp_false, not_and_or, Bool.not_eq_false, ne_eq]

theorem scaleStep_none (h : scaleTemp s (scaleKind ax) = none) (p : Int) : scaleStep s ax p = p := by
  simp [scaleStep, h]

theorem scaleStep_some {dT : Int} (h : scaleTemp s (scaleKind ax) = some dT) (p : Int) :
    scaleStep s ax p = p - scaled p (axisCfg (ownOf s) ax).alpha dT := by
  simp [scaleStep, h]

theorem axisUncorrected_iff : axisUncorrected s ax = true ↔ declared s ax = true ∧ Says.scaleUnknown s ax := by
  rw [← scaleTemp_none_iff]
  simp [axisUncorrected]

end

/-- One axis of a point closed now: the scale step, the position step and the part step in the words of R149 to R151. -/
theorem corrected_axis (s : Station) (d : PointData) (ax : Axis) : Says.axisCorrects s d ax (scaleUsed s ax) (corrected s d ax) := by
  refine ⟨scaleStep s ax (d.counts.get ax), positionStep s d ax, fun e hd hb hv he => ⟨?used, ?scale⟩, fun hd hu => ⟨?unused, ?unscaled⟩, fun hd => ?position,
    fun hd => ⟨?none, ?fixed⟩, fun v hv =>
      ⟨positionStep s d ax - scaled (positionStep s d ax - comp (cellOf s).partRef ax) (cellOf s).partAlpha v, ?part, ?limit⟩, fun hn => ?unparted⟩
  case used => simp [scaleUsed, hd, scaleTemp_valid hb hv he]
  case scale =>
    rw [scaleStep_some (scaleTemp_valid hb hv he), sub_sub_cancel]
    exact scaled_rounded _ _ _
  case unused => simp [scaleUsed, hd, scaleTemp_none_iff.mpr hu]
  case unscaled => exact scaleStep_none (scaleTemp_none_iff.mpr hu) _
  case position => simp [positionStep, armCoord, hd, clamp32, Says.limited]
  case none => simp [scaleUsed, hd]
  case fixed => simp [positionStep, armCoord, hd, clamp32, Says.limited]
  case part =>
    rw [sub_sub_cancel]
    exact scaled_rounded _ _ _
  case limit => simp [corrected, partStep, hv, clamp32, Says.limited]
  case unparted => simp [corrected, partStep, hn]

/-- The correction result that a point takes as it closes is the one of R148 to R152. -/
theorem correction_corrects (s : Station) (late : Bool) (d : PointData) : Says.corrects s late d (correction s late d) := by
  refine ⟨corrected_axis s d .x, corrected_axis s d .y, corrected_axis s d .z, rfl, ?scales, Option.isNone_iff_eq_none, rfl, rfl, rfl, rfl⟩
  show (axisUncorrected s .x || axisUncorrected s .y || axisUncorrected s .z) = true ↔ _
  simp [axisUncorrected_iff, or_and_right, exists_or, or_assoc]

/-! ### A point closed late (R147, R153) -/

section
variable {s : Station} {late : Bool} {p : PointData → Bool} {l : List PointEntry}

theorem closeWhere_pending {d : PointData} : PointEntry.pending d ∈ closeWhere s late p l ↔ PointEntry.pending d ∈ l ∧ p d = false := by
  unfold closeWhere
  rw [List.mem_map]
  constructor
  · rintro ⟨e, he, hx⟩
    cases e with
    | pending a =>
      cases hp : p a with
      | true => simp [hp] at hx
      | false =>
        simp only [hp, Bool.false_eq_true, if_false, PointEntry.pending.injEq] at hx
        exact hx ▸ ⟨he, hp⟩
    | free => cases hx
    | reserved => cases hx
    | ready a c => cases hx
    | queued a c => cases hx
  · rintro ⟨he, hp⟩
    exact ⟨_, he, by simp [hp]⟩

theorem closeWhere_ready {d : PointData} (he : PointEntry.pending d ∈ l) (hp : p d = true) :
    PointEntry.ready d (correction s late d) ∈ closeWhere s late p l := by
  unfold closeWhere
  exact List.mem_map.mpr ⟨_, he, by simp [hp]⟩

/-- Points closed: the line and the point list alone change, the picked entries close and the others wait. -/
theorem closePoints_only : PointsOnly (setPoints s (closeWhere s late p s.touch.points)) (closePoints s late p) := offerPointsFrom_only _ _

end

theorem closePoints_pending {s : Station} {late : Bool} {p : PointData → Bool} {d : PointData} :
    PointEntry.pending d ∈ (closePoints s late p).touch.points ↔ PointEntry.pending d ∈ s.touch.points ∧ p d = false :=
  (closePoints_only.pend d).trans closeWhere_pending

theorem closePoints_closed {s : Station} {late : Bool} {p : PointData → Bool} {d : PointData} (hd : PointEntry.pending d ∈ s.touch.points)
    (hp : p d = true) : Says.closed s (closePoints s late p) late d := by
  refine ⟨fun hc => ?_, correction s late d, closePoints_only.ready d _ (.inl (closeWhere_ready hd hp)), correction_corrects s late d⟩
  exact Bool.false_ne_true ((closePoints_pending.mp hc).2.symm.trans hp)

theorem lateOver_closes {s : Station} {seq : Nat} {d : PointData} (hd : PointEntry.pending d ∈ s.touch.points) (hseq : d.seq = seq)
    (huniq : ∀ e, PointEntry.pending e ∈ s.touch.points → e.seq = seq → e = d) :
    lateOver s seq = closePoints (atDue s d.lateDue) true (fun e => e.seq == seq) := by
  unfold lateOver
  rw [findSome_pending _ _ _ hd hseq huniq]

theorem lateOver_idle {s : Station} {seq : Nat} (h : ∀ e, PointEntry.pending e ∈ s.touch.points → e.seq ≠ seq) : lateOver s seq = s := by
  unfold lateOver
  rw [findSome_none _ _ h]

/-! ### A thermal sample (R92 to R94) -/

section
variable {plausible ohms : Nat}

theorem judgeSample_fault (h : inRange ohms = false) : judgeSample plausible ohms = .fault := by simp [judgeSample, h]

theorem judgeSample_accepted (h : inRange ohms = true) (hv : (deviation ohms).natAbs ≤ plausible) :
    judgeSample plausible ohms = .accepted (deviation ohms) := by simp [judgeSample, h, hv]

theorem judgeSample_outside (h : inRange ohms = true) (hv : plausible < (deviation ohms).natAbs) : judgeSample plausible ohms = .outside := by
  simp [judgeSample, h, Nat.not_le.mpr hv]

end

section
variable {i : ThermInput}

theorem countSample_state (x : Sample) : (countSample i x).state = i.state := by cases x <;> rfl

theorem countSample_accepted (v : Int) (h : i.window.length ≤ 8) : countSample i (.accepted v) =
    { i with window := if i.window.length < 8 then i.window ++ [v] else i.window.drop 1 ++ [v], good := min 8 (i.good + 1), outside := 0,
             inside := i.inside + 1 } := by
  have hwindow : (i.window ++ [v]).drop ((i.window ++ [v]).length - 8) = if i.window.length < 8 then i.window ++ [v] else i.window.drop 1 ++ [v] := by
    rw [List.length_append, List.length_singleton]
    split
    next hlt => rw [Nat.sub_eq_zero_of_le hlt, List.drop_zero]
    next hge =>
      rw [show i.window.length + 1 - 8 = 1 by omega]
      exact List.drop_append_of_le_length (by omega)
  show { i with window := _, good := _, outside := _, inside := _ } = _
  rw [← hwindow]

theorem settled_accepted (v : Int) (h : i.window.length ≤ 8) :
    settled (countSample i (.accepted v)) = if 7 ≤ i.window.length then .valid else .settling := by
  have hfull : (countSample i (.accepted v)).window.length = 8 ↔ 7 ≤ i.window.length := by
    rw [countSample_accepted v h]
    by_cases hlt : i.window.length < 8
    · simp only [hlt, if_true, List.length_append, List.length_singleton]; omega
    · simp only [hlt, if_false, List.length_append, List.length_drop, List.length_singleton]; omega
  exact if_congr hfull rfl rfl

/-- The state after an accepted sample (R94). -/
theorem takeSample_accepted_state (v : Int) (h : i.window.length ≤ 8) : (takeSample i (.accepted v)).state =
    match i.state with
    | .settling => if 7 ≤ i.window.length then .valid else .settling
    | .opened => if i.good < 7 then .opened else if 7 ≤ i.window.length then .valid else .settling
    | .valid => .valid
    | .excursion => if 4 ≤ i.inside + 1 then (if 7 ≤ i.window.length then .valid else .settling) else .excursion := by
  have hfew : min 8 (i.good + 1) < 8 ↔ i.good < 7 := by omega
  show nextThermState (countSample i (.accepted v)) (.accepted v) = _
  unfold nextThermState
  simp only [settled_accepted v h, countSample_state]
  cases i.state with
  | settling => rfl
  | opened => exact if_congr hfew rfl (if_neg (show ¬ (4 : Nat) ≤ 0 by decide))
  | valid => rfl
  | excursion => rfl

/-- The state after a sample outside the plausible band (R94). -/
theorem takeSample_outside_state : (takeSample i .outside).state =
    match i.state with
    | .settling => if 3 ≤ i.outside then .excursion else .settling
    | .opened => if i.good < 7 then .opened
        else if 4 ≤ i.outside + 1 then .excursion else if i.window.length = 8 then .valid else .settling
    | .valid => if 3 ≤ i.outside then .excursion else .valid
    | .excursion => .excursion := by
  have hfew : min 8 (i.good + 1) < 8 ↔ i.good < 7 := by omega
  have hrun : 4 ≤ i.outside + 1 ↔ 3 ≤ i.outside := by omega
  show nextThermState (countSample i .outside) .outside = _
  unfold nextThermState
  simp only [countSample_state]
  cases i.state with
  | settling => exact if_congr hrun rfl rfl
  | opened => exact if_congr hfew rfl rfl
  | valid => exact if_congr hrun rfl rfl
  | excursion => rfl

/-- An accepted sample: the value joins the window, and the state settles once the window is full (R93, R94). -/
theorem takeSample_accepted (v : Int) (h : i.window.length ≤ 8) :
    (takeSample i (.accepted v)).window = (if i.window.length < 8 then i.window ++ [v] else i.window.drop 1 ++ [v]) ∧
    (takeSample i (.accepted v)).good = min 8 (i.good + 1) ∧
    (takeSample i (.accepted v)).outside = 0 ∧ (takeSample i (.accepted v)).inside = i.inside + 1 ∧
    (i.state = .valid → (takeSample i (.accepted v)).state = .valid) ∧
    (i.state = .settling → (takeSample i (.accepted v)).state = if 7 ≤ i.window.length then .valid else .settling) ∧
    (i.state = .excursion → i.inside + 1 < 4 → (takeSample i (.accepted v)).state = .excursion) ∧
    (i.state = .excursion → 4 ≤ i.inside + 1 → (takeSample i (.accepted v)).state = if 7 ≤ i.window.length then .valid else .settling) ∧
    (i.state = .opened → 7 ≤ i.good → (takeSample i (.accepted v)).state = if 7 ≤ i.window.length then .valid else .settling) := by
  have hwindow : (takeSample i (.accepted v)).window = (countSample i (.accepted v)).window := rfl
  rw [hwindow, countSample_accepted v h, takeSample_accepted_state v h]
  refine ⟨rfl, rfl, rfl, rfl, fun hs => ?valid, fun hs => ?settling, fun hs hi => ?excursion, fun hs hi => ?recovers, fun hs hg => ?closes⟩
  case valid => rw [hs]
  case settling => rw [hs]
  case excursion => rw [hs]; exact if_neg (Nat.not_le.mpr hi)
  case recovers => rw [hs]; exact if_pos hi
  case closes => rw [hs]; exact if_neg (Nat.not_lt.mpr hg)

/-- A sample outside the plausible band: the window stays, and a run of them is an EXCURSION (R92, R94). -/
theorem takeSample_outside :
    (takeSample i .outside).window = i.window ∧ (takeSample i .outside).good = min 8 (i.good + 1) ∧ (takeSample i .outside).outside = i.outside + 1 ∧
    (takeSample i .outside).inside = 0 ∧
    (i.state = .valid ∨ i.state = .settling → (takeSample i .outside).state = if 3 ≤ i.outside then .excursion else i.state) ∧
    (i.state = .excursion → (takeSample i .outside).state = .excursion) ∧
    (i.state = .opened → 7 ≤ i.good →
      (takeSample i .outside).state = if 4 ≤ i.outside + 1 then .excursion else if i.window.length = 8 then .valid else .settling) := by
  rw [takeSample_outside_state]
  refine ⟨rfl, rfl, rfl, rfl, fun hs => ?runs, fun hs => ?excursion, fun hs hg => ?closes⟩
  case runs => rcases hs with hs | hs <;> rw [hs]
  case excursion => rw [hs]
  case closes => rw [hs]; exact if_neg (Nat.not_lt.mpr hg)

/-- An OPEN input stays open until eight samples in a row lie in the measuring range (R94). -/
theorem takeSample_opened {x : Sample} (hs : i.state = .opened) (hg : i.good < 7) (hx : x = .outside ∨ ∃ v, x = .accepted v) (h : i.window.length ≤ 8) :
    (takeSample i x).state = .opened := by
  rcases hx with rfl | ⟨v, rfl⟩
  · rw [takeSample_outside_state, hs]
    exact if_pos hg
  · rw [takeSample_accepted_state v h, hs]
    exact if_pos hg

end

/-- An input of a kind, sampled (R92). -/
theorem sampleInputs_entry {s : Station} (hlen : s.thermal.inputs.length = 8) (ohms : List Nat) {n : Nat} (h1 : 1 ≤ n) (h2 : n ≤ 8) :
    at1 (sampleInputs s ohms) default n =
      if (inputKind s n).isSome then takeSample (at1 s.thermal.inputs default n) (judgeSample (cellOf s).plausible (at1 ohms 0 n))
      else at1 s.thermal.inputs default n := at1_map1 _ _ _ _ h1 (by rw [hlen]; exact h2)

/-- The station that samples its inputs at the due moment (R92). -/
def sampledStation (s : Station) (due : Nat) (ohms : List Nat) : Station :=
  { atDue s due with thermal := { s.thermal with inputs := sampleInputs s ohms, sampleDue := some (max s.now due + 100) } }

theorem sampleNow_due {s : Station} {due : Nat} (h : s.thermal.sampleDue = some due) (ohms : List Nat) :
    sampleNow s ohms = sampledStation s due ohms := by
  unfold sampleNow
  rw [h]
  rfl

/-- An input of a kind after a sample in the measuring range and one outside it. -/
theorem sampleNow_entry {s : Station} {due : Nat} (h : s.thermal.sampleDue = some due) (hlen : s.thermal.inputs.length = 8) (ohms : List Nat)
    {n : Nat} (h1 : 1 ≤ n) (h2 : n ≤ 8) :
    (inputKind s n = none → at1 (sampleNow s ohms).thermal.inputs default n = at1 s.thermal.inputs default n) ∧
      (inputKind s n ≠ none → at1 (sampleNow s ohms).thermal.inputs default n =
        takeSample (at1 s.thermal.inputs default n) (judgeSample (cellOf s).plausible (at1 ohms 0 n))) := by
  have hinputs : (sampleNow s ohms).thermal.inputs = sampleInputs s ohms := by rw [sampleNow_due h]; rfl
  rw [hinputs, sampleInputs_entry hlen ohms h1 h2]
  refine ⟨fun hk => ?_, fun hk => ?_⟩
  · rw [hk]; rfl
  · rw [if_pos (Option.isSome_iff_ne_none.mpr hk)]

/-! ### The thermal period, the form wait and the join retry (R27, R28, R39, R96, R97) -/

theorem periodOver_due {s : Station} {due : Nat} (h : s.thermal.periodDue = some due) : periodOver s = composeThermal (atDue s due) := by
  unfold periodOver
  rw [h]

/-- The THERMAL of a period takes over the age of the one it replaces and changes nothing else on the line (R14, R96). -/
theorem offerThermalTo_slot (lp : LinePort) (now : Nat) (b : Body) :
    offerThermalTo lp now b = { lp with thermal := (offerThermalTo lp now b).thermal } ∧
      (lp.thermal = none → (offerThermalTo lp now b).thermal = some ⟨⟨0, b⟩, now⟩) ∧
      (∀ v, lp.thermal = some v → (offerThermalTo lp now b).thermal = some ⟨⟨0, b⟩, v.since⟩) := by
  unfold offerThermalTo
  cases lp.thermal with
  | none => exact ⟨rfl, fun _ => rfl, by rintro v ⟨⟩⟩
  | some w => exact ⟨rfl, by rintro ⟨⟩, by rintro v ⟨⟩; rfl⟩

/-- No cell is known here, so that a form wait that runs out makes the station offer a FORM (R27). -/
def formDue (s : Station) : Bool := joiningMode s && !(tabs s).cell.formed && !s.replica.cellExists && !s.replica.snapBeginSeen

theorem formDue_iff {s : Station} : formDue s = true ↔
    joiningMode s = true ∧ (tabs s).cell.formed = false ∧ s.replica.cellExists = false ∧ s.replica.snapBeginSeen = false := by
  simp [formDue, and_assoc]

/-- The station whose form wait has run out. -/
def formWaited (s : Station) (due : Nat) : Station := { atDue s due with replica := { s.replica with formWait := none } }

theorem formWaitOver_due {s : Station} {due : Nat} (h : s.replica.formWait = some due) : formWaitOver s =
    if formDue s then offerControl (formWaited s due) .joining 0 (.form s.loader.fingerprint (memberMask (cellOf s) (me s) (tabs s)))
    else formWaited s due := by
  unfold formWaitOver
  rw [h]
  rfl

/-- The station whose join retry has run out. -/
def retried (s : Station) (due : Nat) : Station := { atDue s due with replica := { s.replica with joinRetry := none } }

theorem joinRetryOver_due {s : Station} {due : Nat} (h : s.replica.joinRetry = some due) (hj : joiningMode s = true) : joinRetryOver s =
    if s.replica.abandoned then offerJoin (retried s due)
    else if s.replica.service.isSome then retried s due
    else if s.replica.cellExists then offerJoin (retried s due)
    else { atDue s due with replica := { s.replica with joinRetry := some (max s.now due + 2 * (cellOf s).period) } } := by
  unfold joinRetryOver
  rw [h, hj]
  rfl

theorem joinRetryOver_joins {s : Station} {due : Nat} (h : s.replica.joinRetry = some due) (hj : joiningMode s = true)
    (hground : s.replica.abandoned = true ∨ (s.replica.service = none ∧ s.replica.cellExists = true)) :
    joinRetryOver s = offerJoin (retried s due) := by
  rw [joinRetryOver_due h hj]
  rcases hground with ha | ⟨hs, he⟩
  · rw [if_pos ha]
  · rw [hs, he]
    exact ite_self _

theorem joinRetryOver_served {s : Station} {due : Nat} (h : s.replica.joinRetry = some due) (hj : joiningMode s = true)
    (ha : s.replica.abandoned = false) (hs : s.replica.service ≠ none) : joinRetryOver s = retried s due := by
  rw [joinRetryOver_due h hj, ha, if_neg Bool.false_ne_true, if_pos (Option.isSome_iff_ne_none.mpr hs)]

theorem joinRetryOver_again {s : Station} {due : Nat} (h : s.replica.joinRetry = some due) (hj : joiningMode s = true)
    (ha : s.replica.abandoned = false) (hs : s.replica.service = none) (he : s.replica.cellExists = false) : joinRetryOver s =
      { atDue s due with replica := { s.replica with joinRetry := some (max s.now due + 2 * (cellOf s).period) } } := by
  rw [joinRetryOver_due h hj, ha, hs, he]
  rfl

/-- What the join retry changes at a joining station: time, replica unit and line. -/
theorem joinRetryOver_changes {s : Station} {due : Nat} (h : s.replica.joinRetry = some due) (hj : joiningMode s = true) :
    (joinRetryOver s).now = max s.now due ∧
      joinRetryOver s = { s with now := (joinRetryOver s).now, replica := (joinRetryOver s).replica, line := (joinRetryOver s).line } := by
  have hoffer : ∀ t, t = offerJoin (retried s due) → t.now = max s.now due ∧ t = { s with now := t.now, replica := t.replica, line := t.line } := by
    rintro t rfl
    rw [offerJoin_line]
    exact ⟨rfl, rfl⟩
  by_cases hground : s.replica.abandoned = true ∨ (s.replica.service = none ∧ s.replica.cellExists = true)
  · exact hoffer _ (joinRetryOver_joins h hj hground)
  · obtain ⟨ha, hs⟩ := not_or.mp hground
    rw [Bool.not_eq_true] at ha
    by_cases hn : s.replica.service = none
    · rw [joinRetryOver_again h hj ha hn (by simpa [hn] using hs)]
      exact ⟨rfl, rfl⟩
    · rw [joinRetryOver_served h hj ha hn]
      exact ⟨rfl, rfl⟩

/-- Settles O60: each timer by what its expiry makes of the station, or by its not running. -/
theorem timersRunOut : Obligations.TimersRunOut := by
  unfold Obligations.TimersRunOut
  refine ⟨fun seq s d hd hseq huniq => ?late, fun seq s hnone => ?noPoint, fun ohms s due hdue hlen => ?sample, fun s due hdue => ?period,
    fun s due hdue => ?form, fun s due hdue hj => ?retry, fun s => ⟨fun hn ohms => ?noSample, fun hn => ?noPeriod, fun hn => ?noForm, fun hn => ?noRetry⟩⟩
  case late =>
    have hcloses : effect (.lateTimerExpiry seq) s.stn = closePoints (atDue s.stn d.lateDue) true (fun e => e.seq == seq) :=
      lateOver_closes hd hseq huniq
    refine ⟨{ s with stn := effect (.lateTimerExpiry seq) s.stn }, exec_effect _ s, rfl, ?_⟩
    simp only [hcloses]
    have honly := (closePoints_only (s := atDue s.stn d.lateDue) (late := true) (p := fun e => e.seq == seq)).line
    refine ⟨(congrArg Station.now honly :), (congrArg Station.pins honly :), (congrArg Station.loader honly :), (congrArg Station.replica honly :),
      (congrArg Station.motion honly :), (congrArg Station.thermal honly :), (congrArg Station.change honly :), (congrArg Station.request honly :),
      fun e he hne => closePoints_pending.mpr ⟨he, beq_false_of_ne hne⟩, ?_⟩
    exact closePoints_closed (s := atDue s.stn d.lateDue) hd (beq_iff_eq.mpr hseq)
  case noPoint =>
    rw [exec_effect, show effect (.lateTimerExpiry seq) s.stn = s.stn from lateOver_idle hnone]
  case sample =>
    have hsampled : effect (.thermalSample ohms) s.stn = sampledStation s.stn due ohms := sampleNow_due hdue ohms
    refine ⟨{ s with stn := effect (.thermalSample ohms) s.stn }, exec_effect _ s, rfl, ?_, ?_, ?_, fun n i j h1 h2 hi hjx => ?_⟩
    · rw [hsampled]; rfl
    · rw [hsampled]; rfl
    · rw [hsampled]; rfl
    · obtain ⟨hskip, htake⟩ := sampleNow_entry hdue hlen ohms h1 h2
      have hjx : j = at1 (sampleNow s.stn ohms).thermal.inputs default n := hjx
      rw [← hjx, ← hi] at hskip htake
      refine ⟨hskip, fun hk hr => ?_, fun v hk hr hv hw => ⟨fun hin => ?_, fun hout => ?_, fun hs hg => ?_⟩⟩
      · rw [htake hk, judgeSample_fault hr]; rfl
      · rw [htake hk, judgeSample_accepted hr (hv ▸ hin), ← hv]
        exact takeSample_accepted v hw
      · rw [htake hk, judgeSample_outside hr (hv ▸ hout)]
        exact takeSample_outside
      · rw [htake hk]
        refine takeSample_opened hs hg ?_ hw
        rcases Nat.lt_or_ge (cellOf s.stn).plausible (deviation (at1 ohms 0 n)).natAbs with hout | hin
        · exact .inl (judgeSample_outside hr hout)
        · exact .inr ⟨_, judgeSample_accepted hr hin⟩
  case period =>
    have hcomposed : effect .thermalPeriodExpiry s.stn = composeThermal (atDue s.stn due) := periodOver_due hdue
    obtain ⟨hslot, hempty, hfilled⟩ := offerThermalTo_slot s.stn.line (max s.stn.now due) (.thermal (thermEntries s.stn))
    refine ⟨{ s with stn := effect .thermalPeriodExpiry s.stn }, exec_effect _ s, rfl, ?_⟩
    simp only [hcomposed]
    refine ⟨?_, hempty, hfilled⟩
    exact congrArg (fun lp => { composeThermal (atDue s.stn due) with line := lp }) hslot
  case form =>
    have hover : effect .formWaitExpiry s.stn = _ := formWaitOver_due hdue
    refine ⟨{ s with stn := effect .formWaitExpiry s.stn }, exec_effect _ s, rfl, ?_⟩
    simp only [hover]
    by_cases hform : formDue s.stn = true
    · rw [if_pos hform]
      have hrest := offerControl_line (formWaited s.stn due) .joining 0 (.form s.stn.loader.fingerprint (memberMask (cellOf s.stn) (me s.stn) (tabs s.stn)))
      refine ⟨congrArg Station.now hrest, congrArg Station.replica hrest, ?_, fun _ _ _ _ => ?_, fun hnot => ?_⟩
      · rw [hrest]; rfl
      · exact offerControl_offered (formWaited s.stn due) _ _
      · obtain ⟨hj, hformed, hexists, hseen⟩ := formDue_iff.mp hform
        simp [hj, hformed, hexists, hseen] at hnot
    · rw [if_neg hform]
      exact ⟨rfl, rfl, rfl, fun hj hf he hb => absurd (formDue_iff.mpr ⟨hj, hf, he, hb⟩) hform, fun _ => rfl⟩
  case retry =>
    obtain ⟨hnow, hchanges⟩ := joinRetryOver_changes hdue hj
    refine ⟨{ s with stn := effect .joinRetryExpiry s.stn }, exec_effect _ s, rfl, hnow, hchanges, fun hground => ?joins, fun ha hs => ?served,
      fun ha hs he => ?again⟩
    case joins =>
      have heffect : effect .joinRetryExpiry s.stn = offerJoin (retried s.stn due) := joinRetryOver_joins hdue hj hground
      have hrep : (effect .joinRetryExpiry s.stn).replica = joinOffered (retried s.stn due).replica := by
        rw [heffect]
        exact congrArg Station.replica (offerJoin_line _)
      refine ⟨congrArg ReplicaUnit.joinNumber hrep, congrArg ReplicaUnit.service hrep, congrArg ReplicaUnit.pendingRep hrep,
        congrArg ReplicaUnit.catchUp hrep, congrArg ReplicaUnit.joinRetry hrep, fun hroom => ?_⟩
      rw [hrep, heffect, offerJoin_control (s := retried s.stn due) hroom]
      exact List.mem_append_right _ List.mem_cons_self
    case served => rw [show effect .joinRetryExpiry s.stn = _ from joinRetryOver_served hdue hj ha hs]; exact ⟨rfl, rfl⟩
    case again => rw [show effect .joinRetryExpiry s.stn = _ from joinRetryOver_again hdue hj ha hs he]; exact ⟨rfl, rfl⟩
  case noSample =>
    rw [exec_effect, show effect (.thermalSample ohms) s.stn = s.stn by show sampleNow s.stn ohms = _; simp [sampleNow, hn]]
  case noPeriod =>
    rw [exec_effect, show effect .thermalPeriodExpiry s.stn = s.stn by show periodOver s.stn = _; simp [periodOver, hn]]
  case noForm =>
    rw [exec_effect, show effect .formWaitExpiry s.stn = s.stn by show formWaitOver s.stn = _; simp [formWaitOver, hn]]
  case noRetry =>
    rw [exec_effect, show effect .joinRetryExpiry s.stn = s.stn by show joinRetryOver s.stn = _; simp [joinRetryOver, hn]]

end Sys2Proof.CellJoin
end

section
/-! Frames of chapter 3 at a serving station: what every table but the zones and the claims keeps (R7, R22), and the masks of R48 to R58 zone
by zone. -/

namespace Sys2Proof.CellZones

open Sys2Proof Sys2Proof.Machine Sys2Proof.Laws
open Sys2Proof.CellJoin (counted_of_live completeFrame_passed rosterEntry_derive)

/-! ### Masks -/

theorem heldMask_bit (r : Replica) (k : Nat) {z : Nat} (hz : z < 32) : (heldMask r k).getLsbD z = true ↔ (zoneEntry r z).hold = .held k := by
  unfold heldMask
  rw [maskOf_getLsbD _ _ hz, beq_iff_eq]

/-- The zones that a claim still wants: those it names and that its claimant does not hold (R50). -/
theorem wanted_bit (r : Replica) (k : Nat) (mask : ZoneMask) {z : Nat} (hz : z < 32) :
    (maskLess mask (heldMask r k)).getLsbD z = true ↔ mask.getLsbD z = true ∧ (zoneEntry r z).hold ≠ .held k := by
  rw [maskLess_bit, Bool.and_eq_true, Bool.not_eq_true', ← Bool.not_eq_true, heldMask_bit r k hz]

theorem othersHome_meets (s : Station) (k : Nat) (mask : ZoneMask) :
    meets mask (othersHomeMask (cellOf s) k) = true ↔ Says.hitsHome s k mask := by
  rw [meets_iff]
  unfold Says.hitsHome othersHomeMask
  refine exists_congr fun z => and_congr_right fun hz => and_congr_right fun _ => ?_
  rw [maskOf_getLsbD _ _ hz]
  simp

/-! ### The tables that stay -/

/-- An operation that changes no table but the zones and the claims. -/
def ZonesOnly (r t : Replica) : Prop := t = { r with zones := t.zones, claims := t.claims }

theorem scan_zonesOnly {r a : Replica} (h : ZonesOnly r a) (c : CellPart) (lc : Nat) : ZonesOnly r (scan c lc a).1 := by
  unfold ZonesOnly at h ⊢
  rw [(scan_facts c lc a).2.2, h]

/-- A frame of chapter 3 applied: counted, the roster following the sender's flags, every table but the zones and the claims as it was. -/
def ZonesAlone (s t : Station) (h : Hdr) (n : Nat) : Prop :=
  Says.counted s t h n ∧ Says.rosterFollows s t h n ∧ Says.probesStay s t ∧ Says.portsStay s t ∧ Says.boardStays s t ∧ Says.latchesStay s t

/-- A frame of a sender that passes the roster step and whose kind touches the zones and the claims alone. -/
theorem completeFrame_zones {s : Station} {f : Frame} {n : Nat} (ht : Says.takes s f n) (hp : passesRoster f.body = true)
    (hj : isJoin f.body = false) (ha : Says.passes s f.h) (hsil : silencesMe (me s) f.body = false)
    (hk : ∀ r, ZonesOnly r (applyKind (cellOf s) (n + 1) f.h.sender (namedBy s f n) f.h.dest f.body r).1) :
    ZonesAlone s (completeFrame s f) f.h n ∧ ∃ r, Passed (cellOf s) (n + 1) f.h (tabs s) r ∧ tabs (completeFrame s f) =
      derive (cellOf s) (applyKind (cellOf s) (n + 1) f.h.sender (namedBy s f n) f.h.dest f.body r).1 := by
  obtain ⟨r, hr, hlive⟩ := completeFrame_passed ht hp hj ha
  obtain ⟨hl, htabs⟩ := hlive (by rw [hsil, Bool.and_false])
  refine ⟨⟨counted_of_live hl, ?_, ?_⟩, r, hr, htabs⟩
  · have hentry : ∀ j, rosterEntry (tabs (completeFrame s f)) j = rosterEntry r j := fun j => by
      rw [htabs, rosterEntry_derive, hk r]
      rfl
    refine ⟨?_, fun j hj => (hentry j).trans (hr.others j hj), fun h1 h2 => (hentry _).trans (hr.flagged h1 h2),
      fun h => (hentry _).trans (hr.unflagged h)⟩
    rw [htabs, derive_cell, hk r, hr.rest]
  · unfold Says.probesStay Says.portsStay Says.boardStays Says.latchesStay
    rw [htabs, derive_probes, derive_ports, derive_board, derive_latches, hk r, hr.rest]
    exact ⟨rfl, rfl, rfl, rfl⟩

end Sys2Proof.CellZones
end

section
/-! ZONE_CLAIM (R50 to R55, R61, R62): the claim recorded, a single claim's scan, and the scan of the rules on the whole list. -/

namespace Sys2Proof.CellZones

open Sys2Proof Sys2Proof.Machine Sys2Proof.Laws
open Sys2Proof.CellLine (exec_effect)
open Sys2Proof.CellJoin (effect_serving completeFrame_void scan_keeps_zone)

/-! ### The claim recorded (R50, R51) -/

/-- The claim as it stands before its scan. -/
def newClaim (lc k : Nat) (mask : ZoneMask) (base : Prio) (r : Replica) : Claim := ⟨k, maskLess mask (heldMask r k), base, false, 0, lc⟩

/-- The replica with the claim in the place of the sender's earlier one, where a zone is still wanted. -/
def recorded (lc k : Nat) (mask : ZoneMask) (base : Prio) (r : Replica) : Replica :=
  { r with claims := if maskLess mask (heldMask r k) = 0#32 then dropClaim r.claims k
      else insertClaim (newClaim lc k mask base r) (dropClaim r.claims k) }

theorem recorded_zonesOnly (lc k : Nat) (mask : ZoneMask) (base : Prio) (r : Replica) : ZonesOnly r (recorded lc k mask base r) := rfl

theorem recordClaim_recorded {c : CellPart} {lc k : Nat} {mask : ZoneMask} {base : Prio} {r : Replica}
    (h : meets mask (othersHomeMask c k) = false) : recordClaim c lc k mask base r = some (recorded lc k mask base r) := by
  unfold recordClaim recorded newClaim
  rw [if_neg (by rw [h]; decide)]
  simp only
  split <;> rfl

theorem recordClaim_void {c : CellPart} {lc k : Nat} {mask : ZoneMask} {base : Prio} {r : Replica}
    (h : meets mask (othersHomeMask c k) = true) : recordClaim c lc k mask base r = none := if_pos h

/-- A ZONE_CLAIM that is not void is recorded, and the scan follows; a void one changes nothing (R50, R52). -/
theorem applyKind_claim {c : CellPart} {lc k : Nat} {mask : ZoneMask} {base : Prio} (heard : Bool) (dest : Nat) (r : Replica)
    (h : meets mask (othersHomeMask c k) = false) :
    applyKind c lc k heard dest (.zoneClaim mask base) r = withScan c lc Fx.plain (recorded lc k mask base r) := by
  simp only [applyKind, recordClaim_recorded h]

theorem applyKind_claim_void {c : CellPart} {lc k : Nat} {mask : ZoneMask} {base : Prio} (heard : Bool) (dest : Nat) (r : Replica)
    (h : meets mask (othersHomeMask c k) = true) : applyKind c lc k heard dest (.zoneClaim mask base) r = (r, Fx.void) := by
  simp only [applyKind, recordClaim_void h]

theorem mem_recorded {lc k : Nat} {mask : ZoneMask} {base : Prio} {r : Replica} {d : Claim} (h : d ∈ (recorded lc k mask base r).claims) :
    d = newClaim lc k mask base r ∨ d ∈ r.claims := by
  unfold recorded at h
  simp only at h
  split at h
  · exact .inr (List.mem_filter.mp h).1
  · exact (mem_insertClaim.mp h).imp_right fun hd => (List.mem_filter.mp hd).1

theorem claimsIn_recorded {r : Replica} (lc k : Nat) (mask : ZoneMask) (base : Prio) (h : ClaimsIn r.zones r.claims) :
    ClaimsIn (recorded lc k mask base r).zones (recorded lc k mask base r).claims := by
  unfold recorded
  simp only
  split
  · exact h.drop k
  · exact (h.drop k).insert _ (fun d hd => by simpa [newClaim] using (List.mem_filter.mp hd).2)
      (fun z hz hw => ((wanted_bit r k mask hz).mp hw).2) (Nat.zero_le _)

theorem dropClaim_eq (l : List Claim) (k : Nat) : dropClaim l k = l.filter fun c => decide (c.claimant ≠ k) := by
  unfold dropClaim
  refine List.filter_congr fun c _ => ?_
  by_cases h : c.claimant = k <;> simp [h]

/-! ### A single claim -/

theorem scan_grants_one {c : CellPart} {r : Replica} {d : Claim} (lc : Nat) (h : r.claims = [d]) (hg : grantable r.zones [] d = true) :
    (scan c lc r).1 = { r with claims := [], zones := setHold r.zones (fun z _ => d.wanted.getLsbD z) (.held d.claimant) lc } := by
  rw [scan_round, h]
  simp [walk, hg, escalate, orderClaims, youngestOnCycle]

/-- A claimant alone in the list waits for itself only over a zone that it holds. -/
theorem not_deadlocked_one {zs : List ZoneEntry} {d : Claim} (hu : d.urgent = false)
    (hw : ∀ z < 32, d.wanted.getLsbD z = true → (zs.getD z ⟨.free, 0⟩).hold ≠ .held d.claimant) : ¬ Deadlocked zs [d] d.claimant := by
  have hnone : ∀ a b, ¬ waitsFor zs [d] a b := by
    rintro a b ⟨x, hx, y, hy, rfl, rfl, hz | ⟨hurgent, -⟩⟩
    · obtain ⟨z, hz32, hwz, hh⟩ := hz
      rw [List.mem_singleton.mp hx] at hwz
      rw [List.mem_singleton.mp hy] at hh
      exact hw z hz32 hwz hh
    · rw [List.mem_singleton.mp hy, hu] at hurgent
      cases hurgent
  intro h
  cases h with
  | single h => exact hnone _ _ h
  | tail _ h => exact hnone _ _ h

theorem scan_leaves_one {c : CellPart} {r : Replica} {d : Claim} (lc : Nat) (h : r.claims = [d]) (hg : grantable r.zones [] d = false)
    (hu : d.urgent = false) (hs : d.passed < c.starve)
    (hw : ∀ z < 32, d.wanted.getLsbD z = true → (zoneEntry r z).hold ≠ .held d.claimant) : (scan c lc r).1 = r := by
  have hwalk : walk lc [] [d] r.zones = ([d], r.zones) := by simp [walk, hg]
  have hesc : escalate c.starve [d] = [d] := by simp [escalate, orderClaims, insertClaim, Nat.not_le.mpr hs]
  have hnone : youngestOnCycle r.zones [d] = none :=
    (youngest_spec (l := [d]) (by simp)).1.mpr fun e he => by
      rw [List.mem_singleton.mp he]
      exact not_deadlocked_one hu hw
  rw [scan_round, h]
  simp only [hwalk, hesc, hnone]
  rw [← h]

/-! ### The frame -/

theorem completeFrame_claim {s : Station} {h : Hdr} {mask : ZoneMask} {base : Prio} {n : Nat} (ht : Says.takes s ⟨h, .zoneClaim mask base⟩ n)
    (ha : Says.passes s h) (hm : ¬ Says.hitsHome s h.sender mask) :
    ZonesAlone s (completeFrame s ⟨h, .zoneClaim mask base⟩) h n ∧
      (tabs (completeFrame s ⟨h, .zoneClaim mask base⟩)).zones =
        (scan (cellOf s) (n + 1) (recorded (n + 1) h.sender mask base (tabs s))).1.zones ∧
      (tabs (completeFrame s ⟨h, .zoneClaim mask base⟩)).claims =
        (scan (cellOf s) (n + 1) (recorded (n + 1) h.sender mask base (tabs s))).1.claims := by
  have hmeets : meets mask (othersHomeMask (cellOf s) h.sender) = false := by
    rw [← Bool.not_eq_true, othersHome_meets]
    exact hm
  obtain ⟨hall, r, hr, htabs⟩ := completeFrame_zones ht rfl rfl ha rfl fun r => by
    rw [applyKind_claim _ _ _ hmeets]
    exact scan_zonesOnly (recorded_zonesOnly _ _ _ _ r) _ _
  rw [applyKind_claim _ _ _ hmeets, withScan_tables, hr.rest] at htabs
  exact ⟨hall, by rw [htabs, derive_zones]; rfl, by rw [htabs, derive_claims]; rfl⟩

/-- Zones after a ZONE_CLAIM that is not void: granted to waiting claims or to this one, and nothing else (R52, R53). -/
theorem recorded_zones {c : CellPart} {lc k : Nat} {mask : ZoneMask} {base : Prio} {r : Replica} {z : Nat} (hz : z < 32)
    (hsize : r.zones.length = 32) (hf : (zoneEntry r z).hold = .free) :
    zoneEntry (scan c lc (recorded lc k mask base r)).1 z = zoneEntry r z ∨
      (∃ d ∈ r.claims, d.wanted.getLsbD z = true ∧ zoneEntry (scan c lc (recorded lc k mask base r)).1 z = ⟨.held d.claimant, lc⟩) ∨
      (mask.getLsbD z = true ∧ zoneEntry (scan c lc (recorded lc k mask base r)).1 z = ⟨.held k, lc⟩) := by
  rcases (scan_facts c lc (recorded lc k mask base r)).1.given z (by rw [← hsize] at hz; exact hz) hf with he | ⟨j, ⟨d, hd, rfl, hw⟩, he⟩
  · exact .inl he
  · rcases mem_recorded hd with rfl | hd
    · exact .inr (.inr ⟨((wanted_bit r k mask hz).mp hw).1, he⟩)
    · exact .inr (.inl ⟨d, hd, hw, he⟩)

/-- With no claim pending, a claim for zones that are FREE or its sender's own is granted at once (R53). -/
theorem recorded_granted {c : CellPart} {lc k : Nat} {mask : ZoneMask} {base : Prio} {r : Replica} (hsize : r.zones.length = 32)
    (hl : r.claims = []) (hz : ∀ z < 32, mask.getLsbD z = true → (zoneEntry r z).hold = .free ∨ (zoneEntry r z).hold = .held k) :
    (scan c lc (recorded lc k mask base r)).1.claims = [] ∧
      (∀ z < 32, mask.getLsbD z = true → (zoneEntry (scan c lc (recorded lc k mask base r)).1 z).hold = .held k) ∧
      (∀ z < 32, mask.getLsbD z = false → zoneEntry (scan c lc (recorded lc k mask base r)).1 z = zoneEntry r z) := by
  by_cases hw : maskLess mask (heldMask r k) = 0#32
  · have hrec : recorded lc k mask base r = r := by
      unfold recorded
      rw [if_pos hw, hl]
      cases r
      cases hl
      rfl
    rw [hrec, scan_nil c lc r hl]
    refine ⟨hl, fun z hz32 hm => ?_, fun _ _ _ => rfl⟩
    by_contra hne
    exact absurd ((wanted_bit r k mask hz32).mpr ⟨hm, hne⟩) (by simp [hw])
  · have hrec : (recorded lc k mask base r).claims = [newClaim lc k mask base r] := by
      unfold recorded
      rw [if_neg hw, hl]
      rfl
    have hgrant : grantable (recorded lc k mask base r).zones [] (newClaim lc k mask base r) = true :=
      (grantable_iff _ _ _).mpr ⟨fun z hz32 hwz => by
        obtain ⟨hm, hne⟩ := (wanted_bit r k mask hz32).mp hwz
        exact (hz z hz32 hm).resolve_right hne, fun _ h => nomatch h⟩
    have hentry : ∀ z < 32, zoneEntry (scan c lc (recorded lc k mask base r)).1 z =
        if (maskLess mask (heldMask r k)).getLsbD z = true then ⟨.held k, lc⟩ else zoneEntry r z := fun z hz32 => by
      rw [scan_grants_one lc hrec hgrant]
      exact setHold_getD _ _ _ _ _ (by rw [← hsize] at hz32; exact hz32) _
    refine ⟨by rw [scan_grants_one lc hrec hgrant], fun z hz32 hm => ?_, fun z hz32 hm => ?_⟩
    · rw [hentry z hz32]
      split
      · rfl
      next hn =>
        by_contra hne
        exact hn ((wanted_bit r k mask hz32).mpr ⟨hm, hne⟩)
    · rw [hentry z hz32, if_neg fun hn => by rw [((wanted_bit r k mask hz32).mp hn).1] at hm; cases hm]

/-- With no claim pending, a claim for a zone that another holds waits alone, and changes no zone (R51, R53). -/
theorem recorded_waits {c : CellPart} {lc k : Nat} {mask : ZoneMask} {base : Prio} {r : Replica} (hl : r.claims = []) {z : Nat} (hz : z < 32)
    (hm : mask.getLsbD z = true) (hf : (zoneEntry r z).hold ≠ .free) (hk : (zoneEntry r z).hold ≠ .held k) (hs : 0 < c.starve) :
    (scan c lc (recorded lc k mask base r)).1.zones = r.zones ∧
      (scan c lc (recorded lc k mask base r)).1.claims = [newClaim lc k mask base r] := by
  have hwz := (wanted_bit r k mask hz).mpr ⟨hm, hk⟩
  have hrec : (recorded lc k mask base r).claims = [newClaim lc k mask base r] := by
    unfold recorded
    rw [if_neg fun h0 => by rw [h0] at hwz; simp at hwz, hl]
    rfl
  have hno : grantable (recorded lc k mask base r).zones [] (newClaim lc k mask base r) = false := by
    rw [← Bool.not_eq_true, grantable_iff]
    exact fun h => hf (h.1 z hz hwz)
  rw [scan_leaves_one lc hrec hno rfl hs fun y hy hw => ((wanted_bit r k mask hy).mp hw).2]
  exact ⟨rfl, hrec⟩

/-- The list with the claim in it, in the order of R51, and the scan that follows. -/
theorem recorded_scans {c : CellPart} {lc k : Nat} {mask w : ZoneMask} {base : Prio} {r : Replica} (h : ClaimsIn r.zones r.claims)
    (hw : w = maskLess mask (heldMask r k)) : ∃ l ks, l.Pairwise noLater ∧
      (w = 0#32 → l.Perm (r.claims.filter fun c => decide (c.claimant ≠ k))) ∧
      (w ≠ 0#32 → l.Perm (⟨k, w, base, false, 0, lc⟩ :: r.claims.filter fun c => decide (c.claimant ≠ k))) ∧
      Scans c.starve lc l r.zones (scan c lc (recorded lc k mask base r)).1.claims (scan c lc (recorded lc k mask base r)).1.zones ks := by
  have hin := claimsIn_recorded lc k mask base h
  refine ⟨_, _, hin.order.imp fun hab => (noLater_iff _ _).mpr hab, fun h0 => ?_, fun h0 => ?_, scan_scans c lc _ hin⟩
  · rw [hw] at h0
    rw [← dropClaim_eq]
    unfold recorded
    rw [if_pos h0]
  · rw [hw] at h0 ⊢
    rw [← dropClaim_eq]
    unfold recorded
    rw [if_neg h0]
    exact insertClaim_perm _ _

/-- Settles O37: a void claim leaves the tables; any other is recorded and the scan is made, which `recorded_zones` to `recorded_scans` describe. -/
theorem claimIsGrantedOrWaits : Obligations.ClaimIsGrantedOrWaits := by
  unfold Obligations.ClaimIsGrantedOrWaits
  intro h mask base s n ht ha hz
  refine ⟨_, exec_effect _ s, rfl, ?_⟩
  simp only [effect_serving (c := .zoneClaim h mask base) rfl ht.1 rfl]
  by_cases hm : Says.hitsHome s.stn h.sender mask
  · obtain ⟨hcounted, hroster, hzones, hprobes, hports, hboard, hlatches⟩ := completeFrame_void ht rfl rfl ha fun r _ =>
      applyKind_claim_void _ _ r ((othersHome_meets _ _ _).mpr hm)
    have hentry := fun z => zoneEntry_congr hzones.1 z
    exact ⟨hcounted, hroster, hprobes, hports, hboard, hlatches, fun _ => hzones, fun z _ _ => hentry z, fun z _ _ => .inl (hentry z),
      fun hn => absurd hm hn, fun hn => absurd hm hn⟩
  · obtain ⟨⟨hcounted, hroster, hprobes, hports, hboard, hlatches⟩, hzones, hclaims⟩ := completeFrame_claim ht ha hm
    have hentry := fun z => zoneEntry_congr hzones z
    refine ⟨hcounted, hroster, hprobes, hports, hboard, hlatches, fun hn => absurd hn hm, fun z hz32 hf => ?kept, fun z hz32 hf => ?given,
      fun _ hl => ⟨fun hall => ?granted, fun z hz32 hmz hf hk hs => ?waits⟩, fun _ hok w hw => ?scans⟩
    case kept =>
      rw [hentry]
      exact scan_keeps_zone _ _ (r := recorded (n + 1) h.sender mask base (tabs s.stn)) (by rw [← hz.zones] at hz32; exact hz32) hf
    case given =>
      unfold Says.grantedNow
      rw [hentry]
      exact recorded_zones hz32 hz.zones hf
    case granted =>
      simp only [hentry, hclaims]
      exact recorded_granted hz.zones hl hall
    case waits =>
      obtain ⟨h1, h2⟩ := recorded_waits (lc := n + 1) (base := base) hl hz32 hmz hf hk hs
      exact ⟨hzones.trans h1, _, hclaims.trans h2, rfl, rfl, rfl, rfl, rfl, fun y hy => wanted_bit _ _ _ hy⟩
    case scans =>
      rw [hzones, hclaims]
      refine recorded_scans ((listsOk_iff _ _).mp hok).1.1 (BitVec.eq_of_getLsbD_eq fun z hz32 => ?_)
      rw [Bool.eq_iff_iff, hw z hz32, wanted_bit _ _ _ hz32]

end Sys2Proof.CellZones
end

section
/-! ZONE_RELEASE and FORCE_RELEASE (R58, R66): the zones freed, and the grant scan over them (R52, R53). -/

namespace Sys2Proof.CellZones

open Sys2Proof Sys2Proof.Machine Sys2Proof.Laws
open Sys2Proof.CellLine (exec_effect)
open Sys2Proof.CellJoin (effect_serving scan_keeps_zone scan_claimants passed_state)

/-! ### Zones freed, then scanned -/

/-- The zones of a mask are freed at line count `lc`, and FREE zones are granted to claims that were waiting; the others keep their entries. -/
structure Frees (lc : Nat) (m : ZoneMask) (r t : Replica) : Prop where
  freed : ∀ z < 32, m.getLsbD z = true → zoneEntry t z = ⟨.free, lc⟩ ∨
    ∃ c ∈ r.claims, c.wanted.getLsbD z = true ∧ zoneEntry t z = ⟨.held c.claimant, lc⟩
  kept : ∀ z < 32, m.getLsbD z = false → (zoneEntry r z).hold ≠ .free → zoneEntry t z = zoneEntry r z
  free : ∀ z < 32, (zoneEntry r z).hold = .free → zoneEntry t z = zoneEntry r z ∨
    ∃ c ∈ r.claims, c.wanted.getLsbD z = true ∧ zoneEntry t z = ⟨.held c.claimant, lc⟩

/-- No zone is freed and no scan is made. -/
theorem frees_none (lc : Nat) (r : Replica) : Frees lc 0#32 r r := ⟨fun z _ h => by simp at h, fun _ _ _ _ => rfl, fun _ _ _ => .inl rfl⟩

/-- Zones freed that were not FREE, claims perhaps withdrawn, and a scan. -/
theorem frees_scan (c : CellPart) {lc : Nat} {freed : ZoneMask} {r a : Replica} (hsize : r.zones.length = 32)
    (hz : a.zones = setHold r.zones (fun z _ => freed.getLsbD z) .free lc) (hl : ∀ d ∈ a.claims, d ∈ r.claims)
    (hf : ∀ z < 32, freed.getLsbD z = true → (zoneEntry r z).hold ≠ .free) : Frees lc freed r (scan c lc a).1 := by
  have hlen : a.zones.length = 32 := by rw [hz, setHold_length, hsize]
  have hentry : ∀ z < 32, zoneEntry a z = if freed.getLsbD z = true then ⟨.free, lc⟩ else zoneEntry r z := fun z hz32 => by
    unfold zoneEntry
    rw [hz]
    exact setHold_getD _ _ _ _ _ (by rw [hsize]; exact hz32) _
  have hgiven : ∀ z < 32, (zoneEntry a z).hold = .free → zoneEntry (scan c lc a).1 z = zoneEntry a z ∨
      ∃ d ∈ r.claims, d.wanted.getLsbD z = true ∧ zoneEntry (scan c lc a).1 z = ⟨.held d.claimant, lc⟩ := fun z hz32 hfree =>
    ((scan_facts c lc a).1.given z (by rw [hlen]; exact hz32) hfree).imp id fun ⟨_, ⟨d, hd, hk, hw⟩, he⟩ => ⟨d, hl d hd, hw, hk ▸ he⟩
  refine ⟨fun z hz32 hb => ?_, fun z hz32 hb hn => ?_, fun z hz32 hfree => ?_⟩
  · have he := hentry z hz32
    rw [if_pos hb] at he
    rw [← he]
    exact hgiven z hz32 (by rw [he])
  · have he := hentry z hz32
    rw [if_neg (by rw [hb]; decide)] at he
    rw [scan_keeps_zone c lc (by rw [hlen]; exact hz32) (by rw [he]; exact hn), he]
  · have he := hentry z hz32
    rw [if_neg fun hb => hf z hz32 hb hfree] at he
    rw [← he]
    exact hgiven z hz32 (by rw [he]; exact hfree)

/-- The same of two replicas whose zones and claims are those of the first. -/
theorem Frees.congr {lc : Nat} {freed : ZoneMask} {r r' t t' : Replica} (h : Frees lc freed r t) (hz : r'.zones = r.zones)
    (hc : r'.claims = r.claims) (ht : t'.zones = t.zones) : Frees lc freed r' t' := by
  obtain ⟨h1, h2, h3⟩ := h
  refine ⟨?_, ?_, ?_⟩ <;> simpa only [zoneEntry_congr hz, zoneEntry_congr ht, hc]

/-! ### ZONE_RELEASE (R58) -/

theorem releasable_bit (c : CellPart) (r : Replica) (k : Nat) (mask : ZoneMask) {z : Nat} (hz : z < 32) :
    (releasable c r k mask).getLsbD z = true ↔ mask.getLsbD z = true ∧ (zoneEntry r z).hold = .held k ∧ isHome c z = false := by
  unfold releasable
  rw [maskOf_getLsbD _ _ hz]
  simp [and_assoc]

theorem applyKind_release_zonesOnly (c : CellPart) (lc k : Nat) (heard : Bool) (dest : Nat) (mask : ZoneMask) (withdraw : Bool) (r : Replica) :
    ZonesOnly r (applyKind c lc k heard dest (.zoneRelease mask withdraw) r).1 := by
  unfold applyKind
  simp only
  split
  · exact scan_zonesOnly (a := releaseZones c lc k mask withdraw r) rfl c lc
  · rfl

/-- A ZONE_RELEASE frees its zones, whether or not there is anything to release (R58). -/
theorem applyKind_release_frees (c : CellPart) (lc k : Nat) (heard : Bool) (dest : Nat) (mask : ZoneMask) (withdraw : Bool) {r : Replica}
    (hsize : r.zones.length = 32) :
    Frees lc (releasable c r k mask) r (applyKind c lc k heard dest (.zoneRelease mask withdraw) r).1 := by
  unfold applyKind
  simp only
  split
  · refine frees_scan c (a := releaseZones c lc k mask withdraw r) hsize rfl (fun d hd => ?_) fun z hz hb => ?_
    · unfold releaseZones at hd
      simp only at hd
      split at hd
      · exact (List.mem_filter.mp hd).1
      · exact hd
    · rw [((releasable_bit c r k mask hz).mp hb).2.1]
      exact ZoneHold.noConfusion
  next hn =>
    have h0 : releasable c r k mask = 0#32 := by
      by_contra hne
      exact hn (by simp [releaseChanges, hne])
    rw [h0]
    exact frees_none lc r

/-- A ZONE_RELEASE that withdraws leaves no claim of its sender (R58). -/
theorem applyKind_release_withdraws (c : CellPart) (lc k : Nat) (heard : Bool) (dest : Nat) (mask : ZoneMask) (r : Replica) :
    ∀ d ∈ (applyKind c lc k heard dest (.zoneRelease mask true) r).1.claims, d.claimant ≠ k := by
  unfold applyKind
  simp only
  split
  · exact scan_claimants c lc (r := releaseZones c lc k mask true r) fun d hd => by simpa using (List.mem_filter.mp hd).2
  next hn =>
    intro d hd hk
    have hnone : claimOf r k = none := by
      cases hc : claimOf r k with
      | none => rfl
      | some x => exact absurd (by simp [releaseChanges, hc]) hn
    exact absurd (beq_iff_eq.mpr hk) (List.find?_eq_none.mp hnone d hd)

/-! ### FORCE_RELEASE (R66) -/

theorem forcible_bit (c : CellPart) (r : Replica) (mask : ZoneMask) {z : Nat} (hz : z < 32) :
    (forcible c r mask).getLsbD z = true ↔ mask.getLsbD z = true ∧ ((∃ k, (zoneEntry r z).hold = .orphaned k) ∨
      ∃ k, (zoneEntry r z).hold = .held k ∧ isHome c z = false ∧ rosterState r k = .joining) := by
  unfold forcible
  rw [maskOf_getLsbD _ _ hz]
  cases (zoneEntry r z).hold <;> simp

theorem applyKind_force_zonesOnly (c : CellPart) (lc k : Nat) (heard : Bool) (dest : Nat) (mask : ZoneMask) (r : Replica) :
    ZonesOnly r (applyKind c lc k heard dest (.forceRelease mask) r).1 := by
  unfold applyKind
  simp only
  split
  · rfl
  · exact scan_zonesOnly (a := forceZones c lc mask r) rfl c lc

/-- A FORCE_RELEASE frees its zones, whether or not it is void (R66). -/
theorem applyKind_force_frees (c : CellPart) (lc k : Nat) (heard : Bool) (dest : Nat) (mask : ZoneMask) {r : Replica}
    (hsize : r.zones.length = 32) : Frees lc (forcible c r mask) r (applyKind c lc k heard dest (.forceRelease mask) r).1 := by
  unfold applyKind
  simp only
  split
  next h0 => rw [h0]; exact frees_none lc r
  · refine frees_scan c (a := forceZones c lc mask r) hsize rfl (fun _ hd => hd) fun z hz hb hfree => ?_
    obtain ⟨-, ⟨k, hk⟩ | ⟨k, hk, -⟩⟩ := (forcible_bit c r mask hz).mp hb <;> rw [hfree] at hk <;> cases hk

/-- A FORCE_RELEASE comes from a program station (R8, R66). -/
theorem force_sender {s : Station} {h : Hdr} {mask : ZoneMask} {n : Nat} (ht : Says.takes s ⟨h, .forceRelease mask⟩ n) :
    roleIn (cellOf s) h.sender ≠ .mc410 := by
  obtain ⟨-, -, hg, -⟩ := ht
  intro hr
  simp [formatGood, mayKind, hr] at hg

/-! ### The statement -/

/-- A frame that frees zones, at a serving station: `freed` are those zones as the replica shows them before the frame. -/
theorem completeFrame_frees {s : Station} {f : Frame} {n : Nat} (ht : Says.takes s f n) (hp : passesRoster f.body = true)
    (hj : isJoin f.body = false) (ha : Says.passes s f.h) (hsil : silencesMe (me s) f.body = false) (hz : TablesSized (tabs s))
    (hk : ∀ r, ZonesOnly r (applyKind (cellOf s) (n + 1) f.h.sender (namedBy s f n) f.h.dest f.body r).1) {freed : Replica → ZoneMask}
    (hr : ∀ r, Passed (cellOf s) (n + 1) f.h (tabs s) r → freed r = freed (tabs s))
    (hf : ∀ r, r.zones.length = 32 →
      Frees (n + 1) (freed r) r (applyKind (cellOf s) (n + 1) f.h.sender (namedBy s f n) f.h.dest f.body r).1) :
    ZonesAlone s (completeFrame s f) f.h n ∧ Frees (n + 1) (freed (tabs s)) (tabs s) (tabs (completeFrame s f)) := by
  obtain ⟨hall, r, hpass, htabs⟩ := completeFrame_zones ht hp hj ha hsil hk
  have hzones : r.zones = (tabs s).zones := by rw [hpass.rest]
  refine ⟨hall, ?_⟩
  rw [← hr r hpass, htabs]
  exact (hf r (hzones ▸ hz.zones)).congr hzones.symm (by rw [hpass.rest]) (derive_zones _ _)

theorem releasable_passed {c : CellPart} {lc : Nat} {h : Hdr} {r t : Replica} (hp : Passed c lc h r t) (k : Nat) (mask : ZoneMask) :
    releasable c t k mask = releasable c r k mask := by
  unfold releasable zoneEntry
  rw [hp.rest]

theorem forcible_passed {c : CellPart} {lc : Nat} {h : Hdr} {r t : Replica} (hp : Passed c lc h r t) (mask : ZoneMask) :
    forcible c t mask = forcible c r mask := by
  have hstate : rosterState t = rosterState r := funext fun k => passed_state hp k
  unfold forcible zoneEntry
  rw [hstate, hp.rest]

/-- Settles O38: both frames free the zones of their mask, and the scan grants FREE zones alone. -/
theorem releaseFreesZones : Obligations.ReleaseFreesZones := by
  unfold Obligations.ReleaseFreesZones
  refine ⟨fun h mask withdraw s n ht ha hz => ⟨_, exec_effect _ s, rfl, ?_⟩, fun h mask s n ht hz => ⟨_, exec_effect _ s, rfl, ?_⟩⟩
  · simp only [effect_serving (c := .zoneRelease h mask withdraw) rfl ht.1 rfl]
    have hk := applyKind_release_zonesOnly (cellOf s.stn) (n + 1) h.sender (namedBy s.stn ⟨h, .zoneRelease mask withdraw⟩ n) h.dest mask withdraw
    obtain ⟨⟨hcounted, hroster, hprobes, hports, hboard, hlatches⟩, hfrees⟩ := completeFrame_frees ht rfl rfl ha rfl hz hk
      (fun r hp => releasable_passed hp h.sender mask) fun r hsize => applyKind_release_frees _ _ _ _ _ mask withdraw hsize
    have hbit := fun z (hz32 : z < 32) => releasable_bit (cellOf s.stn) (tabs s.stn) h.sender mask hz32
    refine ⟨hcounted, hroster, hprobes, hports, hboard, hlatches,
      fun z hz32 hm hh hi => hfrees.freed z hz32 ((hbit z hz32).mpr ⟨hm, hh, hi⟩), fun z hz32 hn hnot => hfrees.kept z hz32 ?_ hn,
      hfrees.free, ?_⟩
    · rw [← Bool.not_eq_true, hbit z hz32]
      exact hnot
    · rintro rfl
      obtain ⟨-, r, -, htabs⟩ := completeFrame_zones ht rfl rfl ha rfl hk
      rw [htabs, derive_claims]
      exact applyKind_release_withdraws _ _ _ _ _ _ _
  · simp only [effect_serving (c := .forceRelease h mask) rfl ht.1 rfl]
    obtain ⟨⟨hcounted, hroster, hprobes, hports, hboard, hlatches⟩, hfrees⟩ := completeFrame_frees ht rfl rfl (.inl (force_sender ht)) rfl hz
      (applyKind_force_zonesOnly _ _ _ _ _ mask) (fun r hp => forcible_passed hp mask) fun r hsize => applyKind_force_frees _ _ _ _ _ mask hsize
    have hbit := fun z (hz32 : z < 32) => forcible_bit (cellOf s.stn) (tabs s.stn) mask hz32
    refine ⟨hcounted, hroster, hprobes, hports, hboard, hlatches, fun z hz32 hm hh => hfrees.freed z hz32 ((hbit z hz32).mpr ⟨hm, hh⟩),
      fun z hz32 ⟨k, hk, hnot⟩ => hfrees.kept z hz32 ?_ (by rw [hk]; exact ZoneHold.noConfusion),
      fun z hz32 hm hn => hfrees.kept z hz32 ?_ hn, hfrees.free⟩
    · rw [← Bool.not_eq_true, hbit z hz32]
      rintro ⟨-, ⟨j, hj⟩ | ⟨j, hj, hi, hst⟩⟩
      · rw [hk] at hj
        cases hj
      · obtain rfl := ZoneHold.held.inj (hk.symm.trans hj)
        rcases hnot with hh | hs
        · rw [hi] at hh
          cases hh
        · exact hs hst
    · rw [← Bool.not_eq_true, hbit z hz32, hm]
      exact fun ⟨hf, _⟩ => Bool.noConfusion hf

end Sys2Proof.CellZones
end

section
/-! The leading segment's start as one operation (R75, R79, R80): what the start sequence reads, the station at the end of the zone step, and
what choosing the leading segment comes to for each kind. -/

namespace Sys2Proof.CellZones

open Sys2Proof Sys2Proof.Machine Sys2Proof.Laws

/-! ### What a start reads -/

/-- Image, tables, encoder counts and homed flags are the same in both. -/
structure Footing (s t : Station) : Prop where
  loader : t.loader = s.loader
  replica : t.replica = s.replica
  enc : t.motion.enc = s.motion.enc
  homed : t.motion.homed = s.motion.homed

section
variable {s t u : Station}

theorem Footing.refl (s : Station) : Footing s s := ⟨rfl, rfl, rfl, rfl⟩

theorem Footing.trans (h : Footing s t) (k : Footing t u) : Footing s u :=
  ⟨k.loader.trans h.loader, k.replica.trans h.replica, k.enc.trans h.enc, k.homed.trans h.homed⟩

theorem Footing.eq (h : Footing s t) :
    t = { t with loader := s.loader, replica := s.replica, motion := { t.motion with enc := s.motion.enc, homed := s.motion.homed } } := by
  rw [← h.loader, ← h.replica, ← h.enc, ← h.homed]

theorem Footing.allHomed (h : Footing s t) : allHomed t = allHomed s := by rw [h.eq]; rfl

theorem Footing.tipOffset (h : Footing s t) : tipOffset t (headIndex t) = tipOffset s (headIndex s) := by rw [h.eq]; rfl

theorem Footing.limitsHold (h : Footing s t) (off : Vec3) (k : SegKind) : limitsHold t off k = limitsHold s off k := by
  rw [h.eq]
  cases k <;> rfl

theorem Footing.commanded (h : Footing s t) (off : Vec3) (k : SegKind) : commanded t off k = commanded s off k := by
  rw [h.eq]
  cases k <;> rfl

theorem Footing.zoneSet (h : Footing s t) (k : SegKind) :
    zoneSetFrom t (currentTip t) (clearance t) k = zoneSetFrom s (currentTip s) (clearance s) k := by
  rw [h.eq]
  cases k <;> rfl

theorem Footing.othersHome (h : Footing s t) : othersHomeMask (cellOf t) (me t) = othersHomeMask (cellOf s) (me s) := by rw [h.eq]; rfl

end

theorem calm_footing {s t : Station} (h : Calm s t) : Footing s t := ⟨h.loader, h.replica, by rw [h.motion], by rw [h.motion]⟩

theorem setChan_footing (s : Station) (c : ChanId) (v : Chan) : Footing s (setChan s c v) := by cases c <;> exact ⟨rfl, rfl, rfl, rfl⟩

theorem setHead_footing (s : Station) (c : ChanId) (g : Segment) : Footing s (setHead s c g) := by
  unfold setHead
  split
  · exact Footing.refl s
  · exact setChan_footing _ _ _

theorem setHead_line (s : Station) (c : ChanId) (g : Segment) :
    (setHead s c g).line = s.line ∧ (setHead s c g).touch = s.touch ∧ (setHead s c g).motion.outstanding = s.motion.outstanding := by
  unfold setHead
  split
  · exact ⟨rfl, rfl, rfl⟩
  · cases c <;> exact ⟨rfl, rfl, rfl⟩

/-- A TOUCH with its credit at the head of its channel. -/
theorem credited_same {s : Station} {c : ChanId} {g : Segment} {r : List Segment} (h : (chan s c).queue = g :: r) (g' : Segment) :
    chan (setHead (reserveEntry s) c g') c = { chan s c with queue := g' :: r } := by
  rw [← (reserveEntry_noChan s).chan c] at h ⊢
  exact setHead_head h g'

theorem isHomeSeg_iff (g : Segment) : isHomeSeg g = true ↔ g.kind = .home := by
  unfold isHomeSeg
  split
  next h => exact iff_of_true rfl h
  next h => exact iff_of_false Bool.false_ne_true h

theorem isHomeSeg_false {g : Segment} (h : g.kind ≠ .home) : isHomeSeg g = false := by
  rw [← Bool.not_eq_true, isHomeSeg_iff]
  exact h

theorem isTouchSeg_false {g : Segment} (h : ∀ a, g.kind ≠ .touch a) : isTouchSeg g = false := by
  unfold isTouchSeg
  split
  next a hk => exact absurd hk (h a)
  next => rfl

/-- A segment whose zone set is that of R48: of a request, or a TOUCH. -/
theorem zoneSetOf_plain {g : Segment} (h : fromSequencer g = false ∨ isTouchSeg g = true) (s : Station) :
    zoneSetOf s g = zoneSetFrom s (currentTip s) (clearance s) g.kind := by
  rcases h with h | h
  · unfold fromSequencer at h
    unfold zoneSetOf
    cases ho : g.origin with
    | request tag => rfl
    | sequencer runOn => rw [ho] at h; cases h
  · exact zoneSetOf_touch h

theorem anyFree_none {s : Station} (h : ∀ p ∈ s.touch.points, p ≠ .free) : anyFree s = false := by
  refine List.any_eq_false.mpr fun p hp hfree => h p hp ?_
  unfold isFree at hfree
  split at hfree
  · rfl
  · cases hfree

/-! ### The zone step's end (R48, R49, R56) -/

/-- A segment whose zone set has been formed is set in motion where the set is held, and waits for its zones where not. -/
def zoned (s : Station) (c : ChanId) (g : Segment) (m : ZoneMask) : Station :=
  if holdsAll s m = true then startMotion s c { g with zoneSet := some m } else waitsZone s c { g with zoneSet := some m } m

theorem zoneStep_zoned {s : Station} (c : ChanId) {g : Segment} {m : ZoneMask} (hm : zoneSetOf s g = m)
    (hz : meets m (othersHomeMask (cellOf s) (me s)) = false) :
    zoneStep s c g = .waits (zoned s c g m) ∨ zoneStep s c g = .starts (zoned s c g m) := by
  subst hm
  unfold zoned
  by_cases hh : holdsAll s (zoneSetOf s g) = true
  · rw [if_pos hh]
    exact .inr (zoneStep_held hz hh)
  · rw [if_neg hh]
    exact .inl (zoneStep_wait hz (by simpa using hh))

section
variable (s : Station) (c : ChanId) (g : Segment) (m : ZoneMask)

theorem zoned_other {d : ChanId} (h : d ≠ c) : chan (zoned s c g m) d = chan s d := by
  unfold zoned
  split
  · exact startMotion_other _ _ _ _ h
  · exact waitsZone_other _ _ _ _ _ h

theorem zoned_touch : (zoned s c g m).touch = s.touch := by
  unfold zoned
  split
  · exact (startMotion_line _ _ _).2.1
  · exact (waitsZone_else _ _ _ _).1

variable {s c}

/-- The channel: RUNNING or WAIT_ZONE, the segment at its head with its zone set. -/
theorem zoned_same {g₀ : Segment} {r : List Segment} (hq : (chan s c).queue = g₀ :: r) :
    ∃ h, chan (zoned s c g m) c = { chan s c with state := if holdsAll s m = true then .running else .waitZone, queue := h :: r } ∧
      (h = { g with zoneSet := some m } ∨ h = { g with zoneSet := some m, phase := .approach, marks := .all false }) := by
  unfold zoned
  split
  · exact ⟨_, startMotion_same hq _, .inr rfl⟩
  · exact ⟨_, waitsZone_same hq _ _, .inl rfl⟩

/-- The channel where the segment is a fresh one. -/
theorem zoned_fresh {g₀ : Segment} {r : List Segment} (hq : (chan s c).queue = g₀ :: r) (hp : g.phase = .approach) (hm : g.marks = .all false) :
    chan (zoned s c g m) c =
      { chan s c with state := if holdsAll s m = true then .running else .waitZone, queue := { g with zoneSet := some m } :: r } := by
  obtain ⟨h, he, rfl | rfl⟩ := zoned_same g m hq
  · exact he
  · rw [he, ← hp, ← hm]

end

/-! ### The channel that leads (R75) -/

theorem leading_of_head {s : Station} {c : ChanId} {g : Segment} (hg : headSeg s c = some g) (hm : ∀ d, movingState (chan s d).state = false)
    (ho : ∀ h, headSeg s (otherChan c) = some h → g.acc < h.acc ∨ (c = .arm ∧ g.acc ≤ h.acc)) : leading s = some c := by
  unfold leading
  rw [show movingState s.motion.arm.state = false from hm .arm, show movingState s.motion.head.state = false from hm .head]
  cases c with
  | arm =>
    rw [hg]
    cases hx : headSeg s .head with
    | none => rfl
    | some h => exact if_pos ((ho h hx).elim Nat.le_of_lt And.right)
  | head =>
    rw [hg]
    cases hx : headSeg s .arm with
    | none => rfl
    | some h => exact if_neg ((ho h hx).elim Nat.not_le.mpr fun hc => nomatch hc.1)

/-- A leading segment that waits for a credit or for its zones keeps the lead (R75). -/
theorem chooseLead_waiting {s : Station} {c : ChanId} (hl : leading s = some c) (hs : (chan s c).state ≠ .waitTurn) : chooseLead s = s := by
  unfold chooseLead leadSteps
  rw [hl]
  split
  next heq => cases heq
  next heq =>
    cases heq
    split
    next hst _ => exact absurd hst hs
    next => rfl

theorem movingChan_cases {s : Station} {c : ChanId} (h : movingState (chan s c).state = true) :
    movingState s.motion.arm.state = true ∨ movingState s.motion.head.state = true := by
  cases c
  · exact .inl h
  · exact .inr h

/-- The lead is settled once its zone step is made: choosing it afresh changes nothing. -/
theorem chooseLead_zoned {s : Station} {c : ChanId} {g g₀ : Segment} {r : List Segment} {m : ZoneMask} (hq : (chan s c).queue = g₀ :: r)
    (hm : ∀ d, movingState (chan s d).state = false)
    (ho : ∀ h, headSeg s (otherChan c) = some h → g.acc < h.acc ∨ (c = .arm ∧ g.acc ≤ h.acc)) :
    chooseLead (zoned s c g m) = zoned s c g m := by
  obtain ⟨h, hc, hh⟩ := zoned_same g m hq
  have hother := zoned_other s c g m (otherChan_ne c)
  by_cases hx : holdsAll s m = true
  · exact chooseLead_moving (movingChan_cases (c := c) (by rw [hc, if_pos hx]; rfl))
  · rw [if_neg hx] at hc
    refine chooseLead_waiting (c := c) (leading_of_head (g := h) (headSeg_cons (congrArg Chan.queue hc)) (fun d => ?_) fun k hk => ?_)
      (by rw [hc]; exact ChanState.noConfusion)
    · by_cases hd : d = c
      · rw [hd, hc]
        rfl
      · rw [zoned_other s c g m hd]
        exact hm d
    · have hacc : h.acc = g.acc := by rcases hh with rfl | rfl <;> rfl
      rw [hacc]
      exact ho k (by unfold headSeg at hk ⊢; rw [← hother]; exact hk)

/-! ### What the leading segment's start comes to (R79, R80) -/

section
variable {u v : Station} {c : ChanId} {g : Segment} {r : List Segment} {m : ZoneMask} (f : Footing u v)
include f

/-- Homed, limit and zone steps of a segment that passes them. -/
theorem laterSteps_zoned (hn : isHomeSeg g = false) (hp : fromSequencer g = false ∨ isTouchSeg g = true) (hh : allHomed u = true)
    (hlim : limitsHold u (tipOffset u (headIndex u)) g.kind = true) (hm : m = zoneSetFrom u (currentTip u) (clearance u) g.kind)
    (hz : meets m (othersHomeMask (cellOf u) (me u)) = false) :
    laterSteps v c g = .waits (zoned v c { g with axisTarget := commanded u (tipOffset u (headIndex u)) g.kind } m) ∨
      laterSteps v c g = .starts (zoned v c { g with axisTarget := commanded u (tipOffset u (headIndex u)) g.kind } m) := by
  rw [laterSteps_pass hn (f.allHomed.trans hh) (by rw [f.tipOffset, f.limitsHold]; exact hlim), f.tipOffset, f.commanded]
  refine zoneStep_zoned c ?_ (by rw [f.othersHome]; exact hz)
  rw [hm, ← f.zoneSet]
  exact zoneSetOf_plain (g := { g with axisTarget := _ }) hp v

variable (hl : leading v = some c) (hs : (chan v c).state = .waitTurn) (hq : (chan v c).queue = g :: r)
include hl hs hq

/-- A segment of a request that is neither a TOUCH nor a HOME. -/
theorem chooseLead_plain (ht : isTouchSeg g = false) (hn : isHomeSeg g = false) (hp : fromSequencer g = false) (hh : allHomed u = true)
    (hlim : limitsHold u (tipOffset u (headIndex u)) g.kind = true) (hm : m = zoneSetFrom u (currentTip u) (clearance u) g.kind)
    (hz : meets m (othersHomeMask (cellOf u) (me u)) = false) :
    chooseLead v = zoned v c { g with axisTarget := commanded u (tipOffset u (headIndex u)) g.kind } m := by
  refine chooseLead_of hl hs (headSeg_cons hq) ?_
  rw [startSequence_plain ht]
  exact laterSteps_zoned f hn (.inl hp) hh hlim hm hz

omit f in
/-- A HOME: the HOME zones are its set (R48), and no limit is checked. -/
theorem chooseLead_home (hk : g.kind = .home) (hp : fromSequencer g = false) :
    chooseLead v = zoned v c g (homeMask (cellOf v) (me v)) := by
  refine chooseLead_of hl hs (headSeg_cons hq) ?_
  have hset : zoneSetOf v g = homeMask (cellOf v) (me v) := by
    rw [zoneSetOf_plain (.inl hp), hk]
    rfl
  rw [startSequence_plain (isTouchSeg_false (by rw [hk]; exact fun _ => SegKind.noConfusion))]
  unfold laterSteps
  rw [if_pos ((isHomeSeg_iff g).mpr hk)]
  refine zoneStep_zoned c hset ?_
  rw [← Bool.not_eq_true, meets_iff]
  rintro ⟨z, hz, ha, hb⟩
  unfold homeMask at ha
  unfold othersHomeMask at hb
  rw [maskOf_getLsbD _ _ hz, Bool.and_eq_true] at ha hb
  simp [beq_iff_eq.mp ha.2] at hb

/-- A TOUCH that takes a free entry of the point list first. -/
theorem chooseLead_touch (ht : isTouchSeg g = true) (hc : g.credit = false) (hfree : anyFree v = true) (hh : allHomed u = true)
    (hlim : limitsHold u (tipOffset u (headIndex u)) g.kind = true) (hm : m = zoneSetFrom u (currentTip u) (clearance u) g.kind)
    (hz : meets m (othersHomeMask (cellOf u) (me u)) = false) :
    chooseLead v = zoned (setHead (reserveEntry v) c { g with credit := true }) c
      { g with credit := true, axisTarget := commanded u (tipOffset u (headIndex u)) g.kind } m := by
  refine chooseLead_of hl hs (headSeg_cons hq) ?_
  have hseq : startSequence v c g = laterSteps (setHead (reserveEntry v) c { g with credit := true }) c { g with credit := true } := by
    unfold startSequence creditStep
    simp only [ht, hc, hfree, Bool.not_false, Bool.and_self, if_true]
  rw [hseq]
  have hreserve : Footing v (reserveEntry v) := ⟨rfl, rfl, rfl, rfl⟩
  exact laterSteps_zoned (g := { g with credit := true }) (f.trans (hreserve.trans (setHead_footing _ _ _))) (home_touch ht) (.inr ht) hh hlim hm hz

omit f in
/-- A TOUCH that finds no free entry waits for one (R79). -/
theorem chooseLead_noCredit (ht : isTouchSeg g = true) (hc : g.credit = false) (hfree : anyFree v = false) :
    chooseLead v = setState v c .waitCredit := by
  refine chooseLead_of hl hs (headSeg_cons hq) (.inl ?_)
  unfold startSequence creditStep
  simp only [ht, hc, hfree, Bool.not_false, Bool.and_self, if_true, Bool.false_eq_true, if_false]

end

end Sys2Proof.CellZones
end

section
/-! MOVE, TOUCH, HOME and INDEX accepted (R160, R161): answered and queued, and on an idle station started (R69, R74, R75, R79, R80). -/

namespace Sys2Proof.CellZones

open Sys2Proof Sys2Proof.Machine Sys2Proof.Laws
open Sys2Proof.CellLine (effect exec_effect)

/-! ### What the units leave (R68, R71, R143) -/

theorem unitsKeep_works {s t : Station} (w : Works s t) : Says.unitsKeep s t :=
  ⟨w.now, w.pins, w.loader, w.replica, w.thermal, w.rack, w.enc, w.fault, w.filter, w.latch, w.nextSeq, w.line.lineCount, w.line.heard,
    w.line.thermal, w.line.flight, w.line.window⟩

/-- A request taken, given its effect and accepted: answered at the tail of the REPORT queue, and the units kept (R159). -/
theorem accept_answered {u w : Station} (hw : Works (takeRequest u) w) (src : Nat) (tag : Code) (code acc : Nat) :
    Says.answered u (accept w src tag code acc) src ⟨tag, code, true, 0, acc, []⟩ ∧ Says.unitsKeep u (accept w src tag code acc) := by
  have hline : (accept w src tag code acc).line = _ := answer_line w src ⟨tag, code, true, 0, acc, []⟩
  obtain ⟨know, kpins, kloader, kreplica, kthermal, krack, kenc, kfault, kfilter, klatch, kseq, kcount, kheard, kslot, kflight, kwindow⟩ :=
    unitsKeep_works hw
  refine ⟨⟨hw.delivered, ?_, w.line.report, ?_⟩, know, kpins, kloader, kreplica, kthermal, krack, kenc, kfault, kfilter,
    klatch, kseq, ?_, ?_, ?_, ?_, ?_⟩
  · rw [hline]
    exact congrArg (· - 1) hw.line.reserved
  all_goals rw [hline]
  all_goals assumption

/-! ### The checks that pass (R160, R161) -/

theorem gateChecks_pass {u : Station} (h : Says.gateOpen u) : ∀ x ∈ gateChecks u, x.1 = true := by
  obtain ⟨hserving, hactive, hparked, hchange, hrestart⟩ := h
  have hown : ownActive u = true := beq_iff_eq.mpr hactive
  simp [gateChecks, hserving, hown, parkedMode, hparked, changeRuns, hchange, hrestart]

theorem queueChecks_pass {u : Station} {c : ChanId} (h : Says.roomOn u c) : ∀ x ∈ queueChecks u c, x.1 = true := by
  obtain ⟨hstate, hroom⟩ := h
  have htakes : takesSegment (chan u c).state = true := by rcases hstate with h | h | h | h | h <;> rw [h] <;> rfl
  simp [queueChecks, htakes, Config.segmentPlaces, hroom]

theorem targetChecks_pass {u : Station} {k : SegKind} (hl : limitsHold u (tipOffset u (indexFooting u)) k = true)
    (hz : zonesAllowed u k = true) : ∀ x ∈ targetChecks u k, x.1 = true := by simp [targetChecks, hl, hz]

theorem hasAxes_chan {u : Station} {c : ChanId} (h : chanAxes u c ≠ []) : hasAxes u c = true := by simp [hasAxes, h]

/-! ### The segment taken (R74, R75) -/

/-- The request taken, its segment at the tail of the channel's queue. -/
def queuedFor (u : Station) (c : ChanId) (k : SegKind) (tag : Code) (recovery : Bool) (speed : Nat) : Station :=
  enqueueSegment (takeRequest u) c k (.request tag) recovery speed

section
variable (u : Station) (c : ChanId) (k : SegKind) (tag : Code) (recovery : Bool) (speed : Nat)

theorem queuedFor_footing : Footing u (queuedFor u c k tag recovery speed) := by cases c <;> exact ⟨rfl, rfl, rfl, rfl⟩

theorem queuedFor_line : (queuedFor u c k tag recovery speed).line = u.line := by cases c <;> rfl

theorem queuedFor_touch : (queuedFor u c k tag recovery speed).touch = u.touch := by cases c <;> rfl

theorem queuedFor_homed : (queuedFor u c k tag recovery speed).motion.homed = u.motion.homed := by cases c <;> rfl

theorem queuedFor_outstanding : (queuedFor u c k tag recovery speed).motion.outstanding = u.motion.outstanding := by cases c <;> rfl

theorem queuedFor_holds (m : ZoneMask) : holdsAll (queuedFor u c k tag recovery speed) m = holdsAll u m := by cases c <;> rfl

theorem queuedFor_same : chan (queuedFor u c k tag recovery speed) c =
    { chan u c with
      queue := (chan u c).queue ++ [Says.newSegment u k tag recovery speed]
      state := if (chan u c).state = .idle then .waitTurn else (chan u c).state } := by cases c <;> rfl

theorem queuedFor_other {d : ChanId} (h : d ≠ c) : chan (queuedFor u c k tag recovery speed) d = chan u d := by
  rw [queuedFor, (enq_facts _ _ _ _ _ _).2.2.2 d h]
  cases d <;> rfl

variable {u}

/-- A head segment that keeps the lead keeps it against the one that joins behind it (R75). -/
theorem leadWaits_stays {d : ChanId} (h : Says.leadWaits u d) (hm : ∀ e, movingState (chan u e).state = false) :
    chooseLead (queuedFor u c k tag recovery speed) = queuedFor u c k tag recovery speed := by
  obtain ⟨hstate, g, hg, hacc, hlater⟩ := h
  have hnew : ∀ e, (chan (queuedFor u c k tag recovery speed) e).queue.head? = (chan u e).queue.head? ∨
      ((chan u e).queue = [] ∧
        (chan (queuedFor u c k tag recovery speed) e).queue.head? = some (Says.newSegment u k tag recovery speed)) := fun e => by
    by_cases he : e = c
    · subst he
      rw [queuedFor_same]
      cases hq : (chan u e).queue with
      | nil => exact .inr ⟨rfl, rfl⟩
      | cons a l => exact .inl rfl
    · rw [queuedFor_other _ _ _ _ _ _ he]
      exact .inl rfl
  have hst : ∀ e, (chan (queuedFor u c k tag recovery speed) e).state = (chan u e).state ∨
      (chan (queuedFor u c k tag recovery speed) e).state = .waitTurn ∧ (chan u e).state = .idle := fun e => by
    by_cases he : e = c
    · subst he
      rw [queuedFor_same]
      by_cases hi : (chan u e).state = .idle
      · exact .inr ⟨if_pos hi, hi⟩
      · exact .inl (if_neg hi)
    · rw [queuedFor_other _ _ _ _ _ _ he]
      exact .inl rfl
  have hnil : (chan u d).queue ≠ [] := fun hx => by rw [hx] at hg; cases hg
  refine chooseLead_waiting (c := d) (leading_of_head (g := g) ((hnew d).elim (·.trans hg) fun hx => absurd hx.1 hnil) (fun e => ?_)
    fun b hb => .inl ?_) ?_
  · rcases hst e with he | ⟨he, -⟩ <;> rw [he]
    · exact hm e
    · rfl
  · rcases hnew (otherChan d) with he | ⟨-, he⟩
    · exact hlater (otherChan d) b (otherChan_ne d) (he.symm.trans hb)
    · obtain rfl := Option.some.inj (he.symm.trans hb)
      exact hacc
  · rcases hst d with he | ⟨-, he⟩
    · rw [he]
      rcases hstate with h | h <;> rw [h] <;> exact ChanState.noConfusion
    · rcases hstate with h | h <;> rw [h] at he <;> cases he

/-- The segment behind what moves or leads waits its turn (R75). -/
theorem queued_behind (h : movingState u.motion.arm.state = true ∨ movingState u.motion.head.state = true ∨ Says.leadWaits u .arm ∨
      Says.leadWaits u .head) : chooseLead (queuedFor u c k tag recovery speed) = queuedFor u c k tag recovery speed := by
  by_cases hm : ∃ e, movingState (chan u e).state = true
  · obtain ⟨e, he⟩ := hm
    refine chooseLead_moving (movingChan_cases (c := e) ?_)
    by_cases hec : e = c
    · subst hec
      rw [queuedFor_same]
      show movingState (if (chan u e).state = .idle then .waitTurn else (chan u e).state) = true
      rw [moving_idle he]
      exact he
    · rw [queuedFor_other _ _ _ _ _ _ hec]
      exact he
  · have hstill : ∀ e, movingState (chan u e).state = false := fun e => by
      rw [← Bool.not_eq_true]
      exact fun he => hm ⟨e, he⟩
    rcases h with h | h | h | h
    · exact absurd ⟨.arm, h⟩ hm
    · exact absurd ⟨.head, h⟩ hm
    · exact leadWaits_stays c k tag recovery speed h hstill
    · exact leadWaits_stays c k tag recovery speed h hstill

/-- A segment accepted is answered with its number and queued (R74, R160). -/
theorem accept_segmentTaken (src code : Nat) (hroom : Says.roomOn u c) :
    Says.segmentTaken u (accept (chooseLead (queuedFor u c k tag recovery speed)) src tag code u.motion.nextAcc) src tag code c
      (Says.newSegment u k tag recovery speed) := by
  have hworks : Works (takeRequest u) (chooseLead (queuedFor u c k tag recovery speed)) :=
    (enqueueSegment_works (takeRequest u) c k (.request tag) recovery speed (by cases c <;> exact hroom.2)).trans (chooseLead_works _)
  obtain ⟨hanswered, hkeeps⟩ := accept_answered hworks src tag code u.motion.nextAcc
  refine ⟨hanswered, ?_, hkeeps, fun h => ?_⟩
  · show (chooseLead (queuedFor u c k tag recovery speed)).motion.nextAcc = _
    rw [(chooseLead_stays _).acc]
    cases c <;> rfl
  · rw [accept_chan, queued_behind c k tag recovery speed h, queuedFor_same]
    exact ⟨rfl, rfl⟩

/-! ### On an idle station (R80) -/

section
variable (hi : Says.allIdle u)
include hi

theorem idle_chan (d : ChanId) : (chan u d).state = .idle ∧ (chan u d).queue = [] := by
  obtain ⟨ha, hqa, hh, hqh⟩ := hi
  cases d
  · exact ⟨ha, hqa⟩
  · exact ⟨hh, hqh⟩

/-- The segment stands alone in its channel and leads. -/
theorem idle_leads : (chan (queuedFor u c k tag recovery speed) c).queue = [Says.newSegment u k tag recovery speed] ∧
    (chan (queuedFor u c k tag recovery speed) c).state = .waitTurn ∧ leading (queuedFor u c k tag recovery speed) = some c := by
  obtain ⟨hstate, hqueue⟩ := idle_chan hi c
  obtain ⟨ostate, oqueue⟩ := idle_chan hi (otherChan c)
  have hother := queuedFor_other u c k tag recovery speed (otherChan_ne c)
  have hq : (chan (queuedFor u c k tag recovery speed) c).queue = [Says.newSegment u k tag recovery speed] := by
    rw [queuedFor_same, hqueue]
    rfl
  have hs : (chan (queuedFor u c k tag recovery speed) c).state = .waitTurn := by
    rw [queuedFor_same]
    exact if_pos hstate
  refine ⟨hq, hs, leading_of_head (headSeg_cons hq) (fun d => ?_) fun h hx => ?_⟩
  · by_cases hd : d = c
    · rw [hd, hs]
      rfl
    · rw [queuedFor_other _ _ _ _ _ _ hd, (idle_chan hi d).1]
      rfl
  · rw [headSeg_nil (by rw [hother]; exact oqueue)] at hx
    cases hx

theorem idle_indexFooting : indexFooting u = headIndex u := by
  obtain ⟨-, hqa, -, hqh⟩ := hi
  unfold indexFooting lastFirst
  rw [hqa, hqh]
  rfl

/-- Check 10 on an idle station is that of the zone step (R48, R160). -/
theorem idle_zonesAllowed (hz : zonesAllowed u k = true) :
    meets (zoneSetFrom u (currentTip u) (clearance u) k) (othersHomeMask (cellOf u) (me u)) = false := by
  obtain ⟨-, hqa, -, hqh⟩ := hi
  unfold zonesAllowed startFooting lastFirst at hz
  rw [hqa, hqh] at hz
  simpa [endPosition] using hz

end

end

/-- The zone step's end, accepted, in the words of the statement: it runs, or it waits with its claim offered (R48, R49, R80). -/
theorem zoned_startsOrWaits {u v : Station} {c : ChanId} {g g₀ : Segment} {m : ZoneMask} (hother : ∀ d, d ≠ c → chan v d = chan u d)
    (hq : (chan v c).queue = [g₀]) (hp : g.phase = .approach) (hmarks : g.marks = .all false) (hhold : holdsAll v m = holdsAll u m)
    (hline : v.line = u.line) (ho : v.motion.outstanding = u.motion.outstanding) (src : Nat) (tag : Code) (code acc : Nat) :
    Says.startsOrWaits u (accept (zoned v c g m) src tag code acc) c g m (claimPrio g) := by
  have hsame := zoned_fresh g m hq hp hmarks
  rw [hhold] at hsame
  refine ⟨fun d hd => ?_, ?_, fun hx => ?_, fun hx => ⟨?_, fun hnone hplaces hclaims => ?_⟩⟩
  · rw [accept_chan, zoned_other _ _ _ _ hd, hother d hd]
  · rw [accept_chan, hsame]
  · rw [accept_chan, hsame, hx]
    rfl
  · rw [accept_chan, hsame, hx]
    rfl
  · have hwaits : zoned v c g m = waitsZone v c { g with zoneSet := some m } m := if_neg (by rw [hhold, hx]; decide)
    rw [hwaits]
    obtain ⟨htaken, hout⟩ := waitsZone_taken v c { g with zoneSet := some m } m (by rw [hline]; exact hplaces)
      (by rw [hline]; exact hclaims) (ho.trans hnone)
    exact ⟨by rw [accept_control, htaken, hline]; rfl, hout⟩

/-! ### The kinds -/

section
variable {u : Station} (hi : Says.allIdle u) (tag : Code) (src code acc : Nat)
include hi

/-- A MOVE or an INDEX on an idle station. -/
theorem idle_plain {c : ChanId} {k : SegKind} (recovery : Bool) (speed : Nat) (ht : ∀ a, k ≠ .touch a) (hn : k ≠ .home) (hh : allHomed u = true)
    (hl : limitsHold u (tipOffset u (indexFooting u)) k = true) (hz : zonesAllowed u k = true) :
    Says.startsOrWaits u (accept (chooseLead (queuedFor u c k tag recovery speed)) src tag code acc) c
      { Says.newSegment u k tag recovery speed with axisTarget := commanded u (tipOffset u (headIndex u)) k }
      (zoneSetFrom u (currentTip u) (clearance u) k) (if recovery = true then .recovery else .routine) := by
  obtain ⟨hq, hs, hlead⟩ := idle_leads c k tag recovery speed hi
  rw [chooseLead_plain (queuedFor_footing u c k tag recovery speed) hlead hs hq (isTouchSeg_false ht) (isHomeSeg_false hn) rfl hh
    (by rw [← idle_indexFooting hi]; exact hl) rfl (idle_zonesAllowed k hi hz)]
  exact zoned_startsOrWaits (fun d hd => queuedFor_other u c k tag recovery speed hd) hq rfl rfl (queuedFor_holds u c k tag recovery speed _)
    (queuedFor_line u c k tag recovery speed) (queuedFor_outstanding u c k tag recovery speed) src tag code acc

/-- A TOUCH on an idle station that finds a free entry of the point list. -/
theorem idle_touch {a : TouchArgs} (hfree : ∃ p ∈ u.touch.points, p = .free) (hh : allHomed u = true)
    (hl : limitsHold u (tipOffset u (indexFooting u)) (.touch a) = true) (hz : zonesAllowed u (.touch a) = true) :
    reservedPoints (accept (chooseLead (queuedFor u .arm (.touch a) tag false a.speed)) src tag code acc) = reservedPoints u + 1 ∧
      Says.startsOrWaits u (accept (chooseLead (queuedFor u .arm (.touch a) tag false a.speed)) src tag code acc) .arm
        { Says.newSegment u (.touch a) tag false a.speed with
          credit := true, axisTarget := commanded u (tipOffset u (headIndex u)) (.touch a) }
        (zoneSetFrom u (currentTip u) (clearance u) (.touch a)) .routine := by
  obtain ⟨hq, hs, hlead⟩ := idle_leads .arm (.touch a) tag false a.speed hi
  have hany : anyFree (queuedFor u .arm (.touch a) tag false a.speed) = true := anyFree_of hfree
  rw [chooseLead_touch (queuedFor_footing u .arm (.touch a) tag false a.speed) hlead hs hq rfl rfl hany hh
    (by rw [← idle_indexFooting hi]; exact hl) rfl (idle_zonesAllowed _ hi hz)]
  refine ⟨?_, zoned_startsOrWaits (g₀ := { Says.newSegment u (.touch a) tag false a.speed with credit := true }) (fun d hd => ?_) ?_ rfl rfl
    ?_ ?_ ?_ src tag code acc⟩
  · show ((zoned _ _ _ _).touch.points.filter isReservedEntry).length = _
    rw [zoned_touch]
    show reservedPoints (setHead _ _ _) = _
    rw [(setHead_else _ _ _).2.2.1]
    exact reserved_upd_free _ hany
  · exact (setHead_other _ _ _ _ hd).trans (queuedFor_other u .arm (.touch a) tag false a.speed hd)
  · rw [credited_same hq]
  · exact ((setHead_else _ _ _).2.1 _).trans (queuedFor_holds u .arm (.touch a) tag false a.speed _)
  · exact (setHead_line _ _ _).1.trans (queuedFor_line u .arm (.touch a) tag false a.speed)
  · exact (setHead_line _ _ _).2.2.trans (queuedFor_outstanding u .arm (.touch a) tag false a.speed)

/-- A TOUCH on an idle station that finds none. -/
theorem idle_noCredit {a : TouchArgs} (hfree : ∀ p ∈ u.touch.points, p ≠ .free) :
    chooseLead (queuedFor u .arm (.touch a) tag false a.speed) = setState (queuedFor u .arm (.touch a) tag false a.speed) .arm .waitCredit := by
  obtain ⟨hq, hs, hlead⟩ := idle_leads .arm (.touch a) tag false a.speed hi
  exact chooseLead_noCredit hlead hs hq rfl rfl (anyFree_none hfree)

end

/-! ### HOME (R69) -/

theorem foldl_set_get (v : Bool) (l : List Axis) (t : PerAxis Bool) (ax : Axis) :
    (l.foldl (fun t ax => t.set v ax) t).get ax = if ax ∈ l then v else t.get ax := by
  induction l generalizing t with
  | nil => rfl
  | cons bx r ih =>
    rw [List.foldl_cons, ih]
    by_cases hr : ax ∈ r
    · rw [if_pos hr, if_pos (List.mem_cons_of_mem _ hr)]
    · rw [if_neg hr]
      by_cases hb : ax = bx
      · rw [hb, perAxis_set, if_pos List.mem_cons_self]
      · rw [perAxis_set_ne _ _ _ _ hb, if_neg (by simp [hb, hr])]

theorem setForChan_get (s : Station) (c : ChanId) (v : Bool) (t : PerAxis Bool) (ax : Axis) :
    (setForChan s c v t).get ax = if ax ∈ chanAxes s c then v else t.get ax := foldl_set_get v _ t ax

theorem startMotion_unhomes {s : Station} {c : ChanId} {g : Segment} (h : isHomeSeg g = true) :
    (startMotion s c g).motion.homed = setForChan s c false s.motion.homed := by
  unfold startMotion setHead
  simp only [h, if_true]
  split <;> cases c <;> rfl

/-- A HOME on an idle station: it runs on its HOME zones with its axes unhomed, or waits for them. -/
theorem idle_home {u : Station} (hi : Says.allIdle u) (c : ChanId) (tag : Code) (src code acc : Nat) :
    Says.startsOrWaits u (accept (chooseLead (queuedFor u c .home tag false 0)) src tag code acc) c (Says.newSegment u .home tag false 0)
        (homeMask (cellOf u) (me u)) .routine ∧
      (holdsAll u (homeMask (cellOf u) (me u)) = true → (chooseLead (queuedFor u c .home tag false 0)).motion.homed =
        setForChan u c false u.motion.homed) ∧
      (holdsAll u (homeMask (cellOf u) (me u)) = false → (chooseLead (queuedFor u c .home tag false 0)).motion.homed = u.motion.homed) := by
  obtain ⟨hq, hs, hlead⟩ := idle_leads c .home tag false 0 hi
  have hf := queuedFor_footing u c .home tag false 0
  have hmask : homeMask (cellOf (queuedFor u c .home tag false 0)) (me (queuedFor u c .home tag false 0)) = homeMask (cellOf u) (me u) := by
    unfold cellOf me
    rw [hf.loader]
  have hholds := queuedFor_holds u c .home tag false 0 (homeMask (cellOf u) (me u))
  rw [chooseLead_home hlead hs hq rfl rfl, hmask]
  refine ⟨zoned_startsOrWaits (fun d hd => queuedFor_other u c .home tag false 0 hd) hq rfl rfl hholds (queuedFor_line u c .home tag false 0)
    (queuedFor_outstanding u c .home tag false 0) src tag code acc, fun hx => ?_, fun hx => ?_⟩
  · unfold zoned
    rw [hholds, hx, if_pos rfl, startMotion_unhomes rfl, queuedFor_homed]
    unfold setForChan chanAxes axesOf ownOf
    rw [hf.loader]
  · unfold zoned
    rw [hholds, hx, if_neg Bool.false_ne_true, (waitsZone_else _ _ _ _).2.2.2.2, queuedFor_homed]

/-! ### The requests -/

theorem asks_isNext {s : Station} {enc : Counts} {src : Nat} {tag : Code} {b : ReqBody} (h : Says.asks (readEncoders s enc) src tag b) :
    Machine.isNext s src tag b = true := by
  obtain ⟨hlisten, hhead⟩ := h
  have hlisten' : listening s = true := hlisten
  have hhead' : s.request.delivered.head? = some ⟨src, tag, b⟩ := hhead
  simp [Machine.isNext, hlisten', hhead']

section
variable {s u : Station} {enc : Counts} {src : Nat} {tag : Code} (hu : u = readEncoders s enc) (hgate : Says.gateOpen u)
include hu hgate

theorem effect_move {v : Vec3} {speed recovery : Nat} (hask : Says.asks u src tag (.move v speed recovery)) (h1 : 1 ≤ speed) (h2 : speed ≤ 500)
    (h3 : recovery ≤ 1) (haxes : (ownOf u).axes ≠ []) (hh : allHomed u = true) (hroom : Says.roomOn u .arm)
    (hl : limitsHold u (tipOffset u (indexFooting u)) (.traverse v) = true) (hz : zonesAllowed u (.traverse v) = true) :
    effect (.move src tag v speed recovery enc) s =
      accept (chooseLead (queuedFor u .arm (.traverse v) tag (recovery == 1) speed)) src tag 1 u.motion.nextAcc := by
  subst hu
  show (if Machine.isNext s src tag (.move v speed recovery) = true then requestMove (takeRequest (readEncoders s enc)) src tag v speed recovery
    else s) = _
  rw [if_pos (asks_isNext hask)]
  refine decide_none (firstFailing_all ?_)
  rw [moveChecks_take]
  simp only [moveChecks, List.forall_mem_append]
  exact ⟨⟨⟨gateChecks_pass hgate, by simp [moveArgs, between, h1, h2, h3, hasAxes_arm haxes, hh]⟩, queueChecks_pass hroom⟩,
    targetChecks_pass hl hz⟩

theorem effect_touch {a : TouchArgs} {x : Nat} {e : Tip} (hask : Says.asks u src tag (.touch a)) (hdir : a.dir ≠ ⟨0, 0, 0⟩)
    (h1 : 50 ≤ a.approach) (h2 : a.approach ≤ 1000) (h3 : 50 ≤ a.retract) (h4 : a.retract ≤ 2000) (h5 : 5 ≤ a.probing)
    (h6 : a.probing ≤ 200) (h7 : 1 ≤ a.speed) (h8 : a.speed ≤ 500) (haxes : (ownOf u).axes ≠ []) (hh : allHomed u = true)
    (hroom : Says.roomOn u .arm) (hx : mounted u = some x) (hcond : (probeRec (tabs u) x).cond = .usable) (he : currentEntry u (indexFooting u) = some e)
    (hl : limitsHold u (tipOffset u (indexFooting u)) (.touch a) = true) (hz : zonesAllowed u (.touch a) = true) :
    effect (.touch src tag a enc) s = accept (chooseLead (queuedFor u .arm (.touch a) tag false a.speed)) src tag 2 u.motion.nextAcc := by
  subst hu
  show (if Machine.isNext s src tag (.touch a) = true then requestTouch (takeRequest (readEncoders s enc)) src tag a else s) = _
  rw [if_pos (asks_isNext hask)]
  refine decide_none (firstFailing_all ?_)
  rw [touchChecks_take]
  simp only [touchChecks, List.forall_mem_append]
  exact ⟨⟨⟨⟨gateChecks_pass hgate, by simp [touchArgs, between, hdir, h1, h2, h3, h4, h5, h6, h7, h8, hasAxes_arm haxes, hh]⟩,
    queueChecks_pass hroom⟩, by simp [probeChecks, hx, hcond, he]⟩, targetChecks_pass hl hz⟩

theorem effect_home {n : Nat} {c : ChanId} (hask : Says.asks u src tag (.home n)) (hc : (n = 0 ∧ c = .arm) ∨ (n = 1 ∧ c = .head))
    (haxes : chanAxes u c ≠ []) (hroom : Says.roomOn u c) :
    effect (.home src tag n enc) s = accept (chooseLead (queuedFor u c .home tag false 0)) src tag 3 u.motion.nextAcc := by
  subst hu
  have hchan : homeChan n = some c := by rcases hc with ⟨rfl, rfl⟩ | ⟨rfl, rfl⟩ <;> rfl
  show (if Machine.isNext s src tag (.home n) = true then requestHome (takeRequest (readEncoders s enc)) src tag n else s) = _
  rw [if_pos (asks_isNext hask)]
  unfold requestHome
  rw [hchan, homeChecks_take]
  refine decide_none (firstFailing_all ?_)
  simp only [homeChecks, List.forall_mem_append]
  exact ⟨⟨gateChecks_pass hgate, by simp [hasAxes_chan haxes]⟩, queueChecks_pass hroom⟩

theorem effect_index {a : Nat} {b : Int} (hask : Says.asks u src tag (.index a b)) (h1 : a ≤ 14) (h2 : -24 ≤ b) (h3 : b ≤ 24)
    (haxes : chanAxes u .head ≠ []) (hh : allHomed u = true) (hroom : Says.roomOn u .head)
    (hl : limitsHold u (tipOffset u (indexFooting u)) (.index a b) = true) (hz : zonesAllowed u (.index a b) = true) :
    effect (.index src tag a b enc) s =
      accept (chooseLead (queuedFor u .head (.index a b) tag false (ownOf u).indexRate)) src tag 4 u.motion.nextAcc := by
  subst hu
  show (if Machine.isNext s src tag (.index a b) = true then requestIndex (takeRequest (readEncoders s enc)) src tag a b else s) = _
  rw [if_pos (asks_isNext hask)]
  refine decide_none (firstFailing_all ?_)
  rw [indexChecks_take]
  simp only [indexChecks, List.forall_mem_append]
  exact ⟨⟨⟨gateChecks_pass hgate, by simp [indexArgs, h1, h2, h3, hasAxes_chan haxes, hh]⟩, queueChecks_pass hroom⟩,
    targetChecks_pass hl hz⟩

end

/-- Settles O49: the checks pass, the segment is queued, and on an idle station it leads at once. -/
theorem motionRequestsAreAccepted : Obligations.MotionRequestsAreAccepted := by
  unfold Obligations.MotionRequestsAreAccepted
  refine ⟨?move, ?touch, ?home, ?index⟩
  case move =>
    intro src tag v speed recovery enc s u hu hask hgate h1 h2 h3 haxes hh hroom hl hz
    refine ⟨_, exec_effect _ s, rfl, ?_⟩
    simp only [effect_move hu hgate hask h1 h2 h3 haxes hh hroom hl hz]
    refine ⟨accept_segmentTaken .arm _ tag _ speed src 1 hroom, fun hi => ?_⟩
    have hstart := idle_plain (c := .arm) hi tag src 1 u.motion.nextAcc (recovery == 1) speed (fun _ => SegKind.noConfusion) SegKind.noConfusion
      hh hl hz
    simp only [beq_iff_eq] at hstart
    exact hstart
  case touch =>
    intro src tag a enc s u x e hu hask hgate hdir h1 h2 h3 h4 h5 h6 h7 h8 haxes hh hroom hx hcond he hl hz
    refine ⟨_, exec_effect _ s, rfl, ?_⟩
    simp only [effect_touch hu hgate hask hdir h1 h2 h3 h4 h5 h6 h7 h8 haxes hh hroom hx hcond he hl hz]
    refine ⟨accept_segmentTaken .arm _ tag false a.speed src 2 hroom, fun hi hfree => idle_touch hi tag src 2 _ hfree hh hl hz,
      fun hi hfree => ?_⟩
    obtain ⟨hq, -, -⟩ := idle_leads .arm (.touch a) tag false a.speed hi
    rw [idle_noCredit hi tag hfree]
    exact ⟨queuedFor_touch u .arm (.touch a) tag false a.speed,
      queuedFor_other u .arm (.touch a) tag false a.speed (d := .head) (by decide), rfl, hq⟩
  case home =>
    intro src tag n c enc s u hu hask hc hgate haxes hroom
    refine ⟨_, exec_effect _ s, rfl, ?_⟩
    simp only [effect_home hu hgate hask hc haxes hroom]
    refine ⟨accept_segmentTaken c .home tag false 0 src 3 hroom, fun hi => ?_⟩
    obtain ⟨hstart, hruns, hwaits⟩ := idle_home hi c tag src 3 u.motion.nextAcc
    refine ⟨hstart, fun hx => ⟨fun ax hax => ?_, fun ax hax => ?_⟩, hwaits⟩
    · show (chooseLead (queuedFor u c .home tag false 0)).motion.homed.get ax = false
      rw [hruns hx, setForChan_get, if_pos hax]
    · show (chooseLead (queuedFor u c .home tag false 0)).motion.homed.get ax = _
      rw [hruns hx, setForChan_get, if_neg hax]
  case index =>
    intro src tag a b enc s u hu hask hgate h1 h2 h3 haxes hh hroom hl hz
    refine ⟨_, exec_effect _ s, rfl, ?_⟩
    simp only [effect_index hu hgate hask h1 h2 h3 haxes hh hroom hl hz]
    exact ⟨accept_segmentTaken .head _ tag false _ src 4 hroom, fun hi =>
      idle_plain (c := .head) hi tag src 4 u.motion.nextAcc false (ownOf u).indexRate (fun _ => SegKind.noConfusion) SegKind.noConfusion hh hl hz⟩

end Sys2Proof.CellZones
end

section
/-! Segments run, complete and stop (R56, R69, R75, R79 to R82): a credit taken, the next segment's start, HOME marks, ended stops. -/

namespace Sys2Proof.CellZones

open Sys2Proof Sys2Proof.Machine Sys2Proof.Laws
open Sys2Proof.CellLine (effect exec_effect step_cases effect_goes idle_goes)

theorem eventKeeps_works {s t : Station} (w : Works s t) : Says.eventKeeps s t :=
  ⟨unitsKeep_works w, w.delivered, w.restartPending, w.line.reserved⟩

/-- An event given by a station whose event list is another's. -/
theorem giveEvent_queued {s v : Station} (h : v.request = s.request) (e : Event) : Says.eventQueued s (giveEvent v e) e := by
  refine ⟨by rw [giveEvent_next, h], fun hlen => ?_⟩
  have hkept := giveEvent_kept v e (by rw [h]; exact hlen)
  rwa [h] at hkept

/-- A command that leaves the station as it is. -/
theorem exec_still {c : Instr} {s : State} (h : effect c s.stn = s.stn) : exec c s = .next s := by rw [exec_effect, h]

theorem chan_readEncoders (s : Station) (enc : Counts) (c : ChanId) : chan (readEncoders s enc) c = chan s c := by cases c <;> rfl

/-- No step sets a segment in motion whose zones are not all held (R56): the effect of every command goes so. -/
theorem step_startsHeld {s t : State} (hs : CreditsOk s.stn) (h : step s = .next t) : startsHeld s.stn t.stn := by
  rcases step_cases h with ht | ⟨c, ht⟩ <;> rw [ht]
  · exact (idle_goes s.stn).starts hs
  · exact (effect_goes c s.stn).starts hs

/-! ### CREDIT_RESERVE (R79, R80) -/

section
variable {s : Station} (enc : Counts)

theorem grantCredit_none (h : ∀ c, (chan s c).state ≠ .waitCredit) : grantCredit s enc = s := by
  unfold grantCredit
  split
  · rfl
  next c _ => exact if_neg fun hc => h c hc.1

theorem grantCredit_full (h : ∀ e ∈ s.touch.points, e ≠ .free) : grantCredit s enc = s := by
  unfold grantCredit
  split
  · rfl
  · exact if_neg fun hc => by rw [anyFree_none h] at hc; exact Bool.noConfusion hc.2

variable {enc} {g : Segment} {r : List Segment} {m : ZoneMask} {u : Station}

section
variable (hu : u = readEncoders s enc) (hq : s.motion.arm.queue = g :: r) (hst : s.motion.arm.state = .waitCredit)
  (hstill : movingState s.motion.head.state = false) (hfirst : ∀ h ∈ s.motion.head.queue, g.acc ≤ h.acc)
  (hfree : ∃ e ∈ s.touch.points, e = .free)
include hu hq hst hstill hfirst hfree

/-- A leading TOUCH in WAIT_CREDIT finds a free entry: its start sequence begins afresh. -/
theorem grantCredit_leads : grantCredit s enc = chooseLead (setState u .arm .waitTurn) := by
  have hlead : leading s = some .arm := leading_of_head (c := .arm) (headSeg_cons hq)
    (fun d => by
      cases d
      · exact hst ▸ rfl
      · exact hstill)
    fun h hx => .inr ⟨rfl, hfirst h (List.mem_of_mem_head? hx)⟩
  unfold grantCredit
  rw [hlead, hu]
  exact if_pos ⟨hst, anyFree_of hfree⟩

/-- It takes the lowest free entry and makes its zone step. -/
theorem grantCredit_touch (ht : isTouchSeg g = true) (hc : g.credit = false) (hh : allHomed u = true)
    (hlim : limitsHold u (tipOffset u (headIndex u)) g.kind = true) (hm : m = zoneSetFrom u (currentTip u) (clearance u) g.kind)
    (hz : meets m (othersHomeMask (cellOf u) (me u)) = false) :
    grantCredit s enc = zoned (setHead (reserveEntry (setState u .arm .waitTurn)) .arm { g with credit := true }) .arm
      { g with credit := true, axisTarget := commanded u (tipOffset u (headIndex u)) g.kind } m := by
  rw [grantCredit_leads hu hq hst hstill hfirst hfree]
  have hlead : leading (setState u .arm .waitTurn) = some .arm := by
    refine leading_of_head (c := .arm) (g := g) (by rw [hu]; exact headSeg_cons hq) (fun d => ?_)
      fun h hx => .inr ⟨rfl, hfirst h (List.mem_of_mem_head? (by rw [hu] at hx; exact hx))⟩
    cases d
    · rfl
    · rw [hu]
      exact hstill
  exact chooseLead_touch (setChan_footing _ _ _) hlead rfl (by rw [hu]; exact hq) ht hc (by rw [hu]; exact anyFree_of hfree) hh hlim hm hz

/-- It runs or waits for its zones, with its credit, and the HEAD channel is as it was. -/
theorem grantCredit_starts (ht : isTouchSeg g = true) (hc : g.credit = false) (hh : allHomed u = true)
    (hlim : limitsHold u (tipOffset u (headIndex u)) g.kind = true) (hm : m = zoneSetFrom u (currentTip u) (clearance u) g.kind)
    (hz : meets m (othersHomeMask (cellOf u) (me u)) = false) (hp : g.phase = .approach) :
    Says.eventKeeps u (grantCredit s enc) ∧ (grantCredit s enc).motion.head = u.motion.head ∧
      (grantCredit s enc).touch.points = updFirst isFree .reserved s.touch.points ∧
      (grantCredit s enc).motion.arm.state = (if holdsAll u m = true then .running else .waitZone) ∧
      ∃ h, (grantCredit s enc).motion.arm.queue = h :: r ∧ h.credit = true ∧ h.zoneSet = some m ∧ h.kind = g.kind ∧ h.acc = g.acc ∧
        h.phase = g.phase ∧ h.axisTarget = commanded u (tipOffset u (headIndex u)) g.kind := by
  have hworks : Works u (grantCredit s enc) := by
    rw [grantCredit_leads hu hq hst hstill hfirst hfree]
    exact (setState_works _ _ _).trans (chooseLead_works _)
  have huq : (chan (setState u .arm .waitTurn) .arm).queue = g :: r := by rw [hu]; exact hq
  obtain ⟨h, hchan, hseg⟩ := zoned_same (s := setHead (reserveEntry (setState u .arm .waitTurn)) .arm { g with credit := true }) (c := .arm)
    { g with credit := true, axisTarget := commanded u (tipOffset u (headIndex u)) g.kind } m (congrArg Chan.queue (credited_same huq _))
  rw [(setHead_else _ _ _).2.1 m] at hchan
  refine ⟨eventKeeps_works hworks, ?_⟩
  rw [grantCredit_touch hu hq hst hstill hfirst hfree ht hc hh hlim hm hz]
  refine ⟨(zoned_other _ _ _ _ (d := .head) (by decide)).trans (setHead_other _ .arm .head _ (by decide)), ?_, congrArg Chan.state hchan, h,
    congrArg Chan.queue hchan, ?_⟩
  · rw [zoned_touch, (setHead_line _ _ _).2.1, hu]
    rfl
  · rcases hseg with rfl | rfl
    · exact ⟨rfl, rfl, rfl, rfl, rfl, rfl⟩
    · exact ⟨rfl, rfl, rfl, rfl, hp.symm, rfl⟩

end

end

/-! ### ZONES_HELD_START (R56) -/

section
variable {s : Station} {c : ChanId} {g : Segment} {r : List Segment} {m : ZoneMask}

theorem startHeld_still (h : (chan s c).state ≠ .waitZone) : startHeld s c = s := by
  unfold startHeld waitingSet
  rw [if_neg h]

theorem startHeld_waiting (hq : (chan s c).queue = g :: r) (hst : (chan s c).state = .waitZone) (hm : g.zoneSet = some m) :
    startHeld s c = if holdsAll s m = true then startMotion s c g else s := by
  have hset : waitingSet s c = some m := by
    unfold waitingSet
    rw [if_pos hst, headSeg_cons hq]
    show some (g.zoneSet.getD 0#32) = some m
    rw [hm]
    rfl
  unfold startHeld
  rw [hset, headSeg_cons hq]

end

/-! ### HOME_MARK_FOUND (R69) -/

/-- The count of an axis set at its reference mark. -/
def countSet (s : Station) (ax : Axis) : Station :=
  { s with motion := { s.motion with enc := s.motion.enc.set (axisCfg (ownOf s) ax).homeOffset ax } }

theorem findMark_home {s : Station} {ax : Axis} {g : Segment} {r : List Segment} (hq : (chan s (chanOf ax)).queue = g :: r)
    (hst : (chan s (chanOf ax)).state = .running) (hk : g.kind = .home) (hd : declared s ax = true) :
    findMark s ax =
      setChan (countSet s ax) (chanOf ax) { chan s (chanOf ax) with queue := { g with marks := g.marks.set true ax } :: r } := by
  have hchan : chan (countSet s ax) (chanOf ax) = chan s (chanOf ax) := by cases ax <;> rfl
  unfold findMark
  simp only [headSeg_cons hq]
  rw [if_pos ⟨hst, (isHomeSeg_iff g).mpr hk, hd⟩, ← hchan]
  exact setHead_same (s := countSet s ax) (by rw [hchan]; exact hq) _

/-! ### Zones held through a tidy moment (R57, R59) -/

theorem headZones_kept {s : Station} {c : ChanId} {i : Nat} (h : (headZones s c).getLsbD i = true) : (keptZones s).getLsbD i = true := by
  unfold keptZones
  rw [BitVec.getLsbD_or, BitVec.getLsbD_or]
  cases c <;> simp [h]

/-- The tidy moment releases no zone of the set of a channel's head segment, so that its start finds them held. -/
theorem tidyMoment_holds {s : Station} {c : ChanId} {b : Segment} {q : List Segment} (hq : (chan s c).queue = b :: q) :
    holdsAll (tidyMoment s none) (zoneSetOf s b) = holdsAll s (zoneSetOf s b) := by
  have hfree : ∀ i, (zoneSetOf s b).getLsbD i = true → (tidyMask s).getLsbD i = false := fun i hi =>
    tidyMask_free (headZones_kept (c := c) (by unfold headZones; rw [hq]; simp [hi]))
  show holdsAll (tidyRelease s) _ = _
  unfold tidyRelease
  split
  · simp only
    split
    · rfl
    · rw [Bool.eq_iff_iff, holdsAll_iff, holdsAll_iff]
      refine forall_congr' fun i => forall_congr' fun _ => forall_congr' fun hb => ?_
      rw [releasing_release, BitVec.getLsbD_or, hfree i hb, Bool.or_false, heldHere_release]
  · rfl

/-! ### SEGMENT_COMPLETE (R75, R81) -/

/-- The channel once its head segment has completed and gone, the axes of a HOME homed, before the tidy moment (R69, R81). -/
def moveOn (s : Station) (c : ChanId) (g : Segment) : Station :=
  let s1 := setChan s c { chan s c with queue := (chan s c).queue.drop 1 }
  setState (if isHomeSeg g then { s1 with motion := { s1.motion with homed := setForChan s1 c true s1.motion.homed } } else s1) c
    (if ((chan s c).queue.drop 1).isEmpty then .idle else .waitTurn)

section
variable {s : Station} {c : ChanId} {g : Segment} {r : List Segment} (hq : (chan s c).queue = g :: r)
include hq

theorem completeSegment_moveOn (hs : fromSequencer g = false) : completeSegment s c g =
    if r = [] then giveEvent (tidyMoment (moveOn s c g) none) (.channelIdle c) else tidyMoment (moveOn s c g) none := by
  unfold completeSegment moveOn
  simp only [hq, List.drop_succ_cons, List.drop_zero, hs, Bool.not_false, Bool.and_true, List.isEmpty_iff]

theorem moveOn_chan : chan (moveOn s c g) c = { chan s c with state := if r = [] then .idle else .waitTurn, queue := r } ∧
    chan (moveOn s c g) (otherChan c) = chan s (otherChan c) := by
  unfold moveOn
  simp only [hq, List.drop_succ_cons, List.drop_zero, List.isEmpty_iff]
  cases c <;> split <;> exact ⟨rfl, rfl⟩

omit hq in
theorem moveOn_request : (moveOn s c g).request = s.request := by
  unfold moveOn
  split <;> cases c <;> rfl

omit hq in
theorem moveOn_homed : (moveOn s c g).motion.homed = if isHomeSeg g = true then setForChan s c true s.motion.homed else s.motion.homed := by
  unfold moveOn
  cases isHomeSeg g <;> cases c <;> rfl

omit hq in
/-- A segment other than a HOME leaves what the next start reads, and what it counts as held. -/
theorem moveOn_footing (hn : isHomeSeg g = false) : Footing s (moveOn s c g) ∧ ∀ m, holdsAll (moveOn s c g) m = holdsAll s m := by
  unfold moveOn
  rw [hn]
  cases c <;> exact ⟨⟨rfl, rfl, rfl, rfl⟩, fun _ => rfl⟩

end

section
variable {s u : Station} {c : ChanId} {enc : Counts} {g : Segment} {r : List Segment} (hu : u = readEncoders s enc)
  (hq : (chan s c).queue = g :: r) (hst : (chan s c).state = .running) (hend : segmentEnds s c g = true) (hs : fromSequencer g = false)

theorem segmentDone_still (enc : Counts) (h : (chan s c).state ≠ .running) : segmentDone s c enc = s := by
  unfold segmentDone
  split
  · rfl
  · exact if_neg fun hc => h hc.1

include hu hq hst hend hs in
/-- A segment of a request that completes: its channel moves on, and the leading segment is chosen afresh, twice. -/
theorem segmentDone_request : segmentDone s c enc = chooseLead (chooseLead (completeSegment u c g)) := by
  unfold segmentDone
  rw [headSeg_cons hq]
  simp only
  rw [if_pos ⟨hst, hend⟩, if_neg (by rw [hs]; exact Bool.false_ne_true), hu]

include hu hq in
theorem completed_queue : (chan u c).queue = g :: r := by rw [hu, chan_readEncoders]; exact hq

end

section
variable {u : Station} {c : ChanId} {g : Segment} {r : List Segment} (hq : (chan u c).queue = g :: r)
include hq

theorem completeSegment_same : (chan (completeSegment u c g) c).queue = r ∧
    (chan (completeSegment u c g) c).state = (if r = [] then .idle else .waitTurn) := by
  obtain ⟨h1, h2, -⟩ := completeSegment_chan u c g
  simp only [hq, List.drop_succ_cons, List.drop_zero, List.isEmpty_iff] at h1 h2
  exact ⟨h1, h2⟩

/-- What the next start reads and finds held after a completed segment other than a HOME, with others behind it. -/
theorem completeSegment_footing (hs : fromSequencer g = false) (hr : r ≠ []) (hn : isHomeSeg g = false) :
    Footing u (completeSegment u c g) ∧ ∀ (d : ChanId) (b : Segment) (q : List Segment), (chan (completeSegment u c g) d).queue = b :: q →
      fromSequencer b = false → holdsAll (completeSegment u c g) (zoneSetFrom u (currentTip u) (clearance u) b.kind) =
        holdsAll u (zoneSetFrom u (currentTip u) (clearance u) b.kind) := by
  obtain ⟨hf, hholds⟩ := moveOn_footing (s := u) (c := c) (g := g) hn
  have hcalm := tidyMoment_calm (moveOn u c g) none
  rw [completeSegment_moveOn hq hs, if_neg hr]
  refine ⟨hf.trans (calm_footing hcalm), fun d b q hb hbs => ?_⟩
  rw [hcalm.chan] at hb
  rw [← hf.zoneSet, ← zoneSetOf_plain (.inl hbs), tidyMoment_holds hb, hholds]

/-- The last segment of both channels leaves its channel IDLE with CHANNEL_IDLE, and a HOME its axes homed (R69, R81). -/
theorem completeSegment_last (hs : fromSequencer g = false) (hr : r = []) :
    Says.eventQueued u (completeSegment u c g) (.channelIdle c) ∧
      (completeSegment u c g).motion.homed = if isHomeSeg g = true then setForChan u c true u.motion.homed else u.motion.homed := by
  have hcalm := tidyMoment_calm (moveOn u c g) none
  rw [completeSegment_moveOn hq hs, if_pos hr]
  exact ⟨giveEvent_queued (hcalm.request.trans moveOn_request) _, by rw [giveEvent_motion, hcalm.homed, moveOn_homed]⟩

end

/-! ### The next segment (R75) -/

theorem otherChan_twice (c : ChanId) : otherChan (otherChan c) = c := by cases c <;> rfl

theorem chan_either (c d : ChanId) : d = c ∨ d = otherChan c := by cases c <;> cases d <;> decide

section
variable {u : Station} {c d : ChanId} {g b : Segment} {r q : List Segment} {m : ZoneMask} (hq : (chan u c).queue = g :: r)
  (hs : fromSequencer g = false) (hn : isHomeSeg g = false) (hr : r ≠ [])
  (hd : (d = c ∧ r = b :: q) ∨ (d = otherChan c ∧ (chan u d).queue = b :: q ∧ (chan u d).state = .waitTurn))
  (hstill : movingState (chan u (otherChan c)).state = false)
  (hfirst : ∀ h, (chan u (otherChan c)).queue.head? = some h → d = c → b.acc < h.acc)
  (hbefore : d ≠ c → ∀ h, r.head? = some h → b.acc < h.acc)
include hq hr hd

/-- The channel of the next segment once the completed one has gone. -/
theorem next_waits : (chan (completeSegment u c g) d).queue = b :: q ∧ (chan (completeSegment u c g) d).state = .waitTurn := by
  obtain ⟨hqueue, hstate⟩ := completeSegment_same hq
  rcases hd with ⟨rfl, rfl⟩ | ⟨rfl, hb, hw⟩
  · exact ⟨hqueue, hstate.trans (if_neg hr)⟩
  · rw [(completeSegment_chan u c g).2.2]
    exact ⟨hb, hw⟩

include hstill hfirst hbefore

/-- Nothing moves, and the other channel's head segment was accepted later. -/
theorem next_leads : (∀ e, movingState (chan (completeSegment u c g) e).state = false) ∧
    ∀ h, headSeg (completeSegment u c g) (otherChan d) = some h → b.acc < h.acc := by
  obtain ⟨hqueue, hstate⟩ := completeSegment_same hq
  have hother := (completeSegment_chan u c g).2.2
  refine ⟨fun e => ?_, fun h hx => ?_⟩
  · rcases chan_either c e with rfl | rfl
    · rw [hstate, if_neg hr]
      rfl
    · rw [hother]
      exact hstill
  · unfold headSeg at hx
    rcases hd with ⟨rfl, -⟩ | ⟨rfl, -⟩
    · rw [hother] at hx
      exact hfirst h hx rfl
    · rw [otherChan_twice, hqueue] at hx
      exact hbefore (otherChan_ne c) h hx

include hs hn

/-- The next segment makes its zone step, and the choice of the lead is settled. -/
theorem next_zoned (ht : isTouchSeg b = false) (hhome : isHomeSeg b = false) (hbs : fromSequencer b = false) (hh : allHomed u = true)
    (hlim : limitsHold u (tipOffset u (headIndex u)) b.kind = true) (hm : m = zoneSetFrom u (currentTip u) (clearance u) b.kind)
    (hz : meets m (othersHomeMask (cellOf u) (me u)) = false) :
    chooseLead (chooseLead (completeSegment u c g)) =
        zoned (completeSegment u c g) d { b with axisTarget := commanded u (tipOffset u (headIndex u)) b.kind } m ∧
      holdsAll (completeSegment u c g) m = holdsAll u m := by
  obtain ⟨hf, hholds⟩ := completeSegment_footing hq hs hr hn
  obtain ⟨hwq, hws⟩ := next_waits hq hr hd
  obtain ⟨hmov, hlater⟩ := next_leads hq hr hd hstill hfirst hbefore
  have hlead : leading (completeSegment u c g) = some d := leading_of_head (headSeg_cons hwq) hmov fun h hx => .inl (hlater h hx)
  refine ⟨?_, by rw [hm]; exact hholds d b q hwq hbs⟩
  rw [chooseLead_plain hf hlead hws hwq ht hhome hbs hh hlim hm hz]
  exact chooseLead_zoned (g := { b with axisTarget := _ }) hwq hmov fun h hx => .inl (hlater h hx)

/-- It runs or waits for its zones, and the channel of the completed one waits its turn where it is the other. -/
theorem next_starts (ht : isTouchSeg b = false) (hhome : isHomeSeg b = false) (hbs : fromSequencer b = false) (hh : allHomed u = true)
    (hlim : limitsHold u (tipOffset u (headIndex u)) b.kind = true) (hm : m = zoneSetFrom u (currentTip u) (clearance u) b.kind)
    (hz : meets m (othersHomeMask (cellOf u) (me u)) = false) :
    (d ≠ c → (chan (chooseLead (chooseLead (completeSegment u c g))) c).queue = r ∧
        (chan (chooseLead (chooseLead (completeSegment u c g))) c).state = .waitTurn) ∧
      (chan (chooseLead (chooseLead (completeSegment u c g))) d).state = (if holdsAll u m = true then .running else .waitZone) ∧
      ∃ h, (chan (chooseLead (chooseLead (completeSegment u c g))) d).queue = h :: q ∧ h.acc = b.acc ∧ h.kind = b.kind ∧
        h.zoneSet = some m := by
  obtain ⟨hqueue, hstate⟩ := completeSegment_same hq
  obtain ⟨hzoned, hholds⟩ := next_zoned hq hs hn hr hd hstill hfirst hbefore ht hhome hbs hh hlim hm hz
  obtain ⟨hwq, -⟩ := next_waits hq hr hd
  obtain ⟨h, hc, hseg⟩ := zoned_same { b with axisTarget := commanded u (tipOffset u (headIndex u)) b.kind } m hwq
  rw [hzoned]
  refine ⟨fun hdc => ?_, by rw [hc, hholds], h, congrArg Chan.queue hc, ?_⟩
  · rw [zoned_other _ _ _ _ (Ne.symm hdc), hqueue, hstate]
    exact ⟨rfl, if_neg hr⟩
  · rcases hseg with rfl | rfl <;> exact ⟨rfl, rfl, rfl⟩

end

/-! ### STOP_END (R82) -/

section
variable {s u : Station} {c : ChanId} {enc : Counts} {g : Segment} {r : List Segment}

theorem stopDone_still (enc : Counts) (h : (chan s c).state ≠ .stopping) : stopDone s c enc = s := by
  unfold stopDone
  split
  · rfl
  · exact if_neg fun hc => h hc.1

theorem stopDone_request (hu : u = readEncoders s enc) (hq : (chan s c).queue = g :: r) (hst : (chan s c).state = .stopping)
    (hs : fromSequencer g = false) (hend : isTouchSeg g = false ∨ g.phase ≠ .probing) : stopDone s c enc = chooseLead (endStop u c g) := by
  have hends : stopEnds g = true := by rcases hend with h | h <;> simp [stopEnds, h]
  unfold stopDone
  rw [headSeg_cons hq]
  simp only
  rw [if_pos ⟨hst, hends⟩, if_neg (by rw [hs]; exact Bool.false_ne_true), hu]

/-- A stop that ends leaves its channel HALTED and empty, and the other one as it is. -/
theorem endStop_chan (u : Station) (c : ChanId) (g : Segment) :
    chan (endStop u c g) c = { chan u c with state := .halted, queue := [] } ∧ chan (endStop u c g) (otherChan c) = chan u (otherChan c) := by
  have hboth : ∀ d, chan (endStop u c g) d = chan (emptyChan u c .halted) d := fun d => by
    unfold endStop
    simp only
    split
    · exact (tidyMoment_noChan _ _).chan d
    · exact ((noChan_of (giveEvent_motion _ _)).chan d).trans ((tidyMoment_noChan _ _).chan d)
  exact ⟨(hboth c).trans (emptyChan_chan u c .halted), (hboth _).trans (emptyChan_other u c _ .halted (otherChan_ne c))⟩

theorem emptyChan_request (s : Station) (c : ChanId) (st : ChanState) : (emptyChan s c st).request = s.request := by
  unfold emptyChan returnCredit
  split
  · cases c <;> rfl
  · split <;> cases c <;> rfl

theorem endStop_event {tag : Code} (ho : g.origin = .request tag) (hloud : g.quietStop = false) :
    Says.eventQueued u (endStop u c g) (.channelHalted c .requested (some tag)) := by
  have htag : tagOf (some g) = some tag := by
    unfold tagOf
    simp only [ho]
  unfold endStop
  rw [hloud, htag]
  exact giveEvent_queued ((tidyMoment_calm _ _).request.trans (emptyChan_request _ _ _)) _

end

/-! ### The statement -/

/-- The channels after the leading segment has been chosen twice: one with nothing queued is as it was. -/
theorem chooseLead_twice_empty {w : Station} {d : ChanId} (h : (chan w d).queue = []) : chan (chooseLead (chooseLead w)) d = chan w d :=
  ((chooseLead_stays w).trans (chooseLead_stays _)).empty d h

/-- Settles O56: each command by the lemma about its operation above; what every step keeps by `effect_goes`. -/
theorem segmentsRun : Obligations.SegmentsRun := by
  unfold Obligations.SegmentsRun
  refine ⟨fun s t => step_startsHeld, ?credit, fun enc s ha hh => exec_still (grantCredit_none enc fun c => by cases c <;> assumption),
    fun enc s h => exec_still (grantCredit_full enc h), ?zones, fun c s h => exec_still (startHeld_still h), ?complete,
    fun c enc s h => exec_still (segmentDone_still enc h), ?mark, ?stop, fun c enc s h => exec_still (stopDone_still enc h)⟩
  case credit =>
    intro enc s g r m u hu hq hst ht hp hc hstill hfirst hfree hh hlim hm hz
    exact ⟨_, exec_effect _ s, rfl, grantCredit_starts hu hq hst hstill hfirst hfree ht hc hh hlim hm hz hp⟩
  case zones =>
    intro c s g r m hq hst hm
    refine ⟨_, exec_effect _ s, rfl, eventKeeps_works (startHeld_works s.stn c), ?_⟩
    have heffect : effect (.zonesHeldStart c) s.stn = _ := startHeld_waiting hq hst hm
    simp only [heffect]
    by_cases hx : holdsAll s.stn m = true
    · rw [if_pos hx]
      obtain ⟨hline, htouch, -⟩ := startMotion_line s.stn c g
      exact ⟨startMotion_other _ _ _ _ (otherChan_ne c), hline, htouch, fun _ => startMotion_same hq g, fun h => by rw [hx] at h; cases h⟩
    · rw [if_neg hx]
      exact ⟨rfl, rfl, rfl, fun h => absurd h hx, fun _ => rfl⟩
  case complete =>
    intro c enc s g r tag u hu hq hst ho hend
    have hs := fromRequest ho
    have huq := completed_queue hu hq
    have hchan : ∀ d, chan u d = chan s.stn d := fun d => by rw [hu]; exact chan_readEncoders _ _ d
    have heffect : effect (.segmentComplete c enc) s.stn = _ := segmentDone_request hu hq hst hend hs
    have hworks : Works u (chooseLead (chooseLead (completeSegment u c g))) :=
      (completeSegment_works u c g).trans ((chooseLead_works _).trans (chooseLead_works _))
    obtain ⟨hqueue, hstate⟩ := completeSegment_same huq
    have hother := (completeSegment_chan u c g).2.2
    refine ⟨_, exec_effect _ s, rfl, ?_⟩
    simp only [heffect]
    refine ⟨eventKeeps_works hworks, fun he => ?empty, fun hr => ?last, fun hr he => ?alone, fun hr hm => ?behind,
      fun d b q m hr hd hstill hfirst hbefore hnk ht hhome hbs hh hlim hm hz => ?next⟩
    case empty => rw [chooseLead_twice_empty (by rw [hother]; exact he), hother]
    case last =>
      rw [chooseLead_twice_empty (by rw [hqueue]; exact hr), hqueue, hstate]
      exact ⟨hr, if_pos hr⟩
    case alone =>
      obtain ⟨ha, hb⟩ := queues_empty (s := completeSegment u c g) (c := c) (hqueue.trans hr) (by rw [hother, hchan]; exact he)
      rw [chooseLead_empty ha hb, chooseLead_empty ha hb]
      obtain ⟨hevent, hhomed⟩ := completeSegment_last huq hs hr
      refine ⟨by rw [hu] at hevent ⊢; exact hevent, fun hk ax hax => ?_, fun hk => ?_⟩
      · rw [hhomed, if_pos ((isHomeSeg_iff g).mpr hk), setForChan_get, if_pos (by rw [hu]; exact hax)]
      · rw [hhomed, if_neg (by rw [isHomeSeg_false hk]; exact Bool.false_ne_true), hu]
        rfl
    case behind =>
      have hmoves := movingChan_cases (s := completeSegment u c g) (c := otherChan c) (by rw [hother, hchan]; exact hm)
      rw [chooseLead_moving hmoves, chooseLead_moving hmoves, hqueue, hstate, hother, hchan]
      exact ⟨rfl, if_neg hr, rfl⟩
    case next =>
      rw [← hchan] at hstill hfirst hd
      exact next_starts huq hs (isHomeSeg_false hnk) hr hd hstill hfirst hbefore ht hhome hbs hh hlim hm hz
  case mark =>
    intro ax s g r hq hst hk hd
    have heffect : effect (.homeMarkFound ax) s.stn = _ := findMark_home hq hst hk hd
    refine ⟨_, exec_effect _ s, rfl, ?_⟩
    simp only [heffect]
    refine ⟨setChan_same _ _ _, ?_, ?_, ?_, ?_⟩ <;> cases ax <;> rfl
  case stop =>
    intro c enc s g r tag u hu hq hst ho hloud hend
    have hchan : ∀ d, chan u d = chan s.stn d := fun d => by rw [hu]; exact chan_readEncoders _ _ d
    have heffect : effect (.stopEnd c enc) s.stn = _ := stopDone_request hu hq hst (fromRequest ho) hend
    obtain ⟨hsame, hother⟩ := endStop_chan u c g
    refine ⟨_, exec_effect _ s, rfl, ?_⟩
    simp only [heffect]
    refine ⟨eventKeeps_works ((endStop_works u c g).trans (chooseLead_works _)), fun he => ?_, ?_, ?_, fun he => ?_⟩
    · rw [(chooseLead_stays _).empty _ (by rw [hother]; exact he), hother]
    · rw [(chooseLead_stays _).empty c (by rw [hsame]), hsame]
    · rw [(chooseLead_stays _).empty c (by rw [hsame]), hsame]
    · obtain ⟨ha, hb⟩ := queues_empty (s := endStop u c g) (c := c) (by rw [hsame]) (by rw [hother, hchan]; exact he)
      rw [chooseLead_empty ha hb]
      have hevent := endStop_event (u := u) (c := c) ho hloud
      rw [hu] at hevent ⊢
      exact hevent

end Sys2Proof.CellZones
end

section
/-! Following errors, quadrature errors and drive faults (R68, R70, R71, R84, R86): a stall in the words of the statements, and what each
fault comes to at a station where it can occur. -/

namespace Sys2Proof.CellMotion

open Sys2Proof Sys2Proof.Machine Sys2Proof.Laws
open Sys2Proof.CellLine (effect exec_effect)
open Sys2Proof.CellZones (eventKeeps_works giveEvent_queued exec_still)

/-! ### A stall (R84) -/

/-- Steps 1 to 5 of R84 queue CHANNEL_STALLED with the cause and the tag of the segment that left. -/
theorem stallCore_queued {s : Station} {c : ChanId} (cause : StallCause) (h : enabledState (chan s c).state = true) :
    Says.eventQueued s (stallCore s c cause) (.channelStalled c cause (tagOf (headSeg s c))) := by
  obtain ⟨u, hrequest, hcore, -⟩ := stallCore_request cause h
  rw [hcore]
  exact giveEvent_queued hrequest _

theorem stall_stallsBy (s : Station) (c : ChanId) (cause : StallCause) : Says.stallsBy s (stall s c cause) c cause := by
  refine ⟨eventKeeps_works (stall_works s c cause), stall_other (otherChan_ne c), stall_same, stall_still, fun h hno hq => ?_⟩
  obtain ⟨hidle, hfailing⟩ := hno
  obtain ⟨hchange, hhomed⟩ := stallCore_change cause h
  rw [stall_quiet h hidle hfailing hq]
  exact ⟨stallCore_queued cause h, hhomed, hchange⟩

/-! ### The faults (R68, R70, R71) -/

section
variable {s : Station} {ax : Axis}

theorem followingStall_declared (enc : Counts) (hh : s.loader.held = false) (hd : declared s ax = true) :
    followingStall s ax enc = stall (readEncoders s enc) (chanOf ax) .following := by
  unfold followingStall
  rw [hh, hd]
  rfl

theorem quadratureError_declared (enc : Counts) (hh : s.loader.held = false) (hd : declared s ax = true) :
    quadratureError s ax enc = stall { readEncoders s enc with
      motion := { (readEncoders s enc).motion with homed := s.motion.homed.set false ax } } (chanOf ax) .encoder := by
  unfold quadratureError
  rw [hh, hd]
  rfl

theorem followingStall_still (enc : Counts) (h : s.loader.held = true ∨ declared s ax = false) : followingStall s ax enc = s := by
  rcases h with h | h <;> simp [followingStall, h]

theorem quadratureError_still (enc : Counts) (h : s.loader.held = true ∨ declared s ax = false) : quadratureError s ax enc = s := by
  rcases h with h | h <;> simp [quadratureError, h]

/-- The station at the end of the filter time, the fault of the axis counted (R71). -/
def faultCounted (u : Station) (ax : Axis) : Station :=
  { u with motion := { u.motion with fault := u.motion.fault.set true ax, filter := u.motion.filter.set none ax } }

theorem countFault_running (enc : Counts) {start : Nat} (h : s.motion.filter.get ax = some start) :
    countFault s ax enc =
      if declared s ax = true then stall (faultCounted (readEncoders (atDue s (start + (ownOf s).filter)) enc) ax) (chanOf ax) .driveFault
      else faultCounted (readEncoders (atDue s (start + (ownOf s).filter)) enc) ax := by
  unfold countFault
  rw [h]
  rfl

theorem countFault_still (enc : Counts) (h : s.motion.filter.get ax = none) : countFault s ax enc = s := by
  unfold countFault
  rw [h]

/-- Counted, the fault stays and its filter has ended, the stall or not. -/
theorem countFault_counts (enc : Counts) {start : Nat} (h : s.motion.filter.get ax = some start) :
    (countFault s ax enc).motion.fault.get ax = true ∧ (countFault s ax enc).motion.filter.get ax = none := by
  rw [countFault_running enc h]
  split
  · have hworks := stall_works (faultCounted (readEncoders (atDue s (start + (ownOf s).filter)) enc) ax) (chanOf ax) .driveFault
    rw [hworks.fault, hworks.filter]
    exact ⟨perAxis_set _ _ _, perAxis_set _ _ _⟩
  · exact ⟨perAxis_set _ _ _, perAxis_set _ _ _⟩

end

/-! ### The statement -/

/-- Settles O57: each fault is the stall of its channel, or leaves the station as it is. That a station held in reset only follows its
pins is the model's choice (log 2). -/
theorem faultsStall : Obligations.FaultsStall := by
  unfold Obligations.FaultsStall
  refine ⟨?following, ?quadrature, fun ax enc s h => ⟨exec_still (followingStall_still enc h), exec_still (quadratureError_still enc h)⟩,
    ?asserted, ?counted, fun ax enc s h => exec_still (countFault_still enc h), fun ax s => rfl⟩
  case following =>
    intro ax enc s hheld hdecl
    have heffect : effect (.followingError ax enc) s.stn = _ := followingStall_declared enc hheld hdecl
    exact ⟨_, exec_effect _ s, rfl, by simp only [heffect]; exact stall_stallsBy _ _ _⟩
  case quadrature =>
    intro ax enc s hheld hdecl
    have heffect : effect (.encoderQuadratureError ax enc) s.stn = _ := quadratureError_declared enc hheld hdecl
    exact ⟨_, exec_effect _ s, rfl, by simp only [heffect]; exact stall_stallsBy _ _ _⟩
  case asserted =>
    intro ax s
    have heffect : effect (.driveFaultAssertion ax) s.stn = assertFault s.stn ax := rfl
    rw [exec_effect, heffect]
    unfold assertFault
    cases s.stn.pins.driveFault.get ax <;> cases s.stn.loader.held <;> rfl
  case counted =>
    intro ax enc s start u hfilter hu
    have heffect : effect (.driveFaultCounted ax enc) s.stn = countFault s.stn ax enc := rfl
    obtain ⟨hfault, hended⟩ := countFault_counts enc hfilter
    refine ⟨_, exec_effect _ s, rfl, hfault, hended, fun hdecl => ?_, fun hdecl => ?_⟩
    · simp only [heffect]
      rw [countFault_running enc hfilter, if_pos hdecl, hu]
      exact stall_stallsBy _ _ _
    · simp only [heffect]
      rw [countFault_running enc hfilter, if_neg (by rw [hdecl]; exact Bool.false_ne_true), hu]
      rfl

end Sys2Proof.CellMotion
end

section
/-! PARK and UNPARK (R88, R89, R162): what a refusal leaves, a list of conditions against the list of checks, and the station parked and
unparked. -/

namespace Sys2Proof.CellMotion

open Sys2Proof Sys2Proof.Machine Sys2Proof.Laws
open Sys2Proof.CellLine (effect exec_effect offerReleaseTo_joins)
open Sys2Proof.CellZones (asks_isNext accept_answered)

/-! ### Requests decided (R159, R160) -/

/-- A request taken and refused: answered, and nothing else happens. -/
theorem refuse_refused (u : Station) (src : Nat) (tag : Code) (code : Nat) (r : Reason) :
    Says.refused u (refuse (takeRequest u) src tag code r) src tag code (reasonNumber r) := by
  have hline : (refuse (takeRequest u) src tag code r).line = _ := answer_line (takeRequest u) src ⟨tag, code, false, reasonNumber r, 0, []⟩
  refine ⟨⟨rfl, ?_, u.line.report, ?_⟩, rfl, ?_, ?_, ?_, ?_, ?_, rfl, rfl⟩
  all_goals rw [hline]
  all_goals rfl

/-- A request that the units have worked on and that is answered at the tail of the REPORT queue. -/
theorem answer_answered {u w : Station} (hdelivered : w.request.delivered = u.request.delivered.drop 1)
    (hreserved : w.line.reserved = u.line.reserved) (src : Nat) (a : AnswerBody) : Says.answered u (answer w src a) src a := by
  refine ⟨hdelivered, ?_, w.line.report, ?_⟩ <;> rw [answer_line]
  exact congrArg (· - 1) hreserved

/-- A list of conditions with their reasons says what a list of checks decides: a condition holds where its check passes, and one that
is met anyway has no check. -/
inductive Decides : List (Prop × Nat) → List (Bool × Reason) → Prop
  | nil : Decides [] []
  | check {p : Prop} {b : Bool} {r : Reason} {l cs} : (p ↔ b = true) → Decides l cs → Decides ((p, reasonNumber r) :: l) ((b, r) :: cs)
  | met {p : Prop} {n : Nat} {l cs} : p → Decides l cs → Decides ((p, n) :: l) cs

section
variable {l : List (Prop × Nat)} {cs : List (Bool × Reason)}

theorem Decides.fails (h : Decides l cs) {n : Nat} (hn : Says.firstOf l n) : ∃ r, firstFailing cs = some r ∧ reasonNumber r = n := by
  induction h with
  | nil => exact hn.elim
  | check hp _ ih =>
    rcases hn with ⟨hnot, rfl⟩ | ⟨hyes, hrest⟩
    · exact ⟨_, if_neg fun hb => hnot (hp.mpr hb), rfl⟩
    · obtain ⟨r, hr, hnum⟩ := ih hrest
      exact ⟨r, (if_pos (hp.mp hyes)).trans hr, hnum⟩
  | met hp _ ih =>
    rcases hn with ⟨hnot, -⟩ | ⟨-, hrest⟩
    · exact absurd hp hnot
    · exact ih hrest

theorem Decides.passes (h : Decides l cs) (hall : ∀ c ∈ l, c.1) : firstFailing cs = none := by
  induction h with
  | nil => rfl
  | check hp _ ih =>
    exact (if_pos (hp.mp (hall _ List.mem_cons_self))).trans (ih fun c hc => hall c (List.mem_cons_of_mem _ hc))
  | met _ _ ih => exact ih fun c hc => hall c (List.mem_cons_of_mem _ hc)

end

/-! ### PARK (R89, R162) -/

theorem parkedMode_iff (s : Station) : parkedMode s = true ↔ s.loader.mode = .parked := beq_iff_eq

theorem parkedMode_active {s : Station} (h : s.loader.mode = .active) : parkedMode s ≠ true := fun hp =>
  nomatch h.symm.trans ((parkedMode_iff s).mp hp)

/-- The channel, homed and tip tests of a station with axes that is not parked. -/
theorem parkTests_decides {s : Station} (hp : s.loader.mode ≠ .parked) (ha : (ownOf s).axes ≠ []) :
    Decides ((Says.parkList s).drop 3) (parkTests s) := by
  unfold parkTests
  rw [if_neg (by simpa using ha)]
  refine .check (r := .busy) ?_ (.check (r := .notHomed) ?_ (.check (r := .limit) ?_ .nil))
  · simp [hp, ha, chan]
  · simp [hp, ha]
  · simp [hp, ha, and_assoc]

theorem park_decides (s : Station) : Decides (Says.parkList s) (parkChecks s) := by
  refine .check (r := .busy) (by simp) (.check (r := .notActive) Iff.rfl ?_)
  show Decides _ (if parkedMode s = true then [] else (!changeRuns s, Reason.busy) :: parkTests s)
  by_cases hp : s.loader.mode = .parked
  · rw [if_pos ((parkedMode_iff s).mpr hp)]
    exact .met (absurd hp) (.met (absurd hp) (.met (absurd hp) (.met (absurd hp) .nil)))
  · rw [if_neg (mt (parkedMode_iff s).mp hp)]
    refine .check (r := .busy) (by simp [hp, changeRuns]) ?_
    by_cases ha : (ownOf s).axes = []
    · unfold parkTests
      rw [if_pos (by rw [ha]; rfl)]
      exact .met (fun _ h => absurd ha h) (.met (fun _ h => absurd ha h) (.met (fun _ h => absurd ha h) .nil))
    · exact parkTests_decides hp ha

/-- The station in another mode. -/
def inMode (s : Station) (m : Mode) : Station := { s with loader := { s.loader with mode := m } }

/-- The zones that a PARK releases. -/
def parkMask (s : Station) : ZoneMask := maskLess (heldHere s) (homeMask (cellOf s) (me s))

/-- The station as a PARK leaves it before its event: PARKED, the channels DISABLED, the zones released. -/
def parking (s : Station) : Station :=
  if parkMask s = 0#32 then disableChannels (inMode s .parked) else offerRelease (disableChannels (inMode s .parked)) (parkMask s) false

section
variable (s : Station)

theorem park_eq : park s = modeEvent (parking s) := rfl

theorem parking_works : Works (inMode s .parked) (parking s) := by
  unfold parking
  split
  · exact disableChannels_works _
  · exact (disableChannels_works _).trans (offerRelease_works _ _ _)

theorem parking_motion : (parking s).motion = { s.motion with arm := .disabled, head := .disabled } := by
  unfold parking
  split <;> rfl

theorem parking_request : (parking s).request = s.request := by
  unfold parking
  split <;> rfl

/-- Every zone held but the HOME zones is released (R13, R89). -/
theorem parking_control : (parking s).line.control =
    if parkMask s = 0#32 then s.line.control else (offerReleaseTo s.line (parkMask s) false).control := by
  unfold parking
  split <;> rfl

theorem park_works : Works (inMode s .parked) (park s) := (parking_works s).trans (modeEvent_works _)

theorem park_motion : (park s).motion = { s.motion with arm := .disabled, head := .disabled } :=
  (giveEvent_motion _ _).trans (parking_motion s)

theorem park_control : (park s).line.control =
    if parkMask s = 0#32 then s.line.control else (offerReleaseTo s.line (parkMask s) false).control :=
  (giveEvent_control _ _).trans (parking_control s)

/-- STATION_MODE is the one event of a PARK. -/
theorem park_next : (park s).request.nextEvent = (s.request.nextEvent + 1) % 65536 := by
  rw [park_eq, modeEvent, giveEvent_next, parking_request]

end

/-- A PARK that ends ACTIVE mode, accepted. -/
theorem park_accepted {u t : Station} {src : Nat} {tag : Code} (ht : t = accept (park (takeRequest u)) src tag 9 0) :
    Says.answered u t src ⟨tag, 9, true, 0, 0, []⟩ ∧ t.loader = { u.loader with mode := .parked } ∧
      t.motion = { u.motion with arm := .disabled, head := .disabled } ∧ tabs t = tabs u ∧ driveEnable t = false ∧
      t.request.nextEvent = (u.request.nextEvent + 1) % 65536 ∧ (parkMask u = 0#32 → t.line.control = u.line.control) ∧
      (parkMask u ≠ 0#32 → Says.releaseJoins (parkMask u) false u.line.control t.line.control) := by
  have hworks := park_works (takeRequest u)
  have hloader : t.loader = { u.loader with mode := .parked } := by rw [ht]; exact hworks.loader
  have hcontrol : t.line.control = if parkMask u = 0#32 then u.line.control else (offerReleaseTo u.line (parkMask u) false).control := by
    rw [ht, accept_control]
    exact park_control (takeRequest u)
  refine ⟨?answered, hloader, ?motion, ?tables, ?drive, ?event, fun hm => by rw [hcontrol, if_pos hm], fun hm => ?released⟩
  case drive =>
    unfold driveEnable working
    rw [hloader]
    simp
  case released =>
    rw [hcontrol, if_neg hm]
    exact offerReleaseTo_joins _ _ _
  all_goals rw [ht]
  case answered => exact answer_answered hworks.delivered hworks.line.reserved src _
  case motion => exact park_motion (takeRequest u)
  case tables => exact congrArg ReplicaUnit.tables hworks.replica
  case event => exact park_next (takeRequest u)

/-- A PARK at a station PARKED already, or an UNPARK at one in ACTIVE mode, has no effect of its own. -/
theorem stay_accepted {u t : Station} {src : Nat} {tag : Code} {code : Nat} (ht : t = accept (takeRequest u) src tag code 0) :
    Says.answered u t src ⟨tag, code, true, 0, 0, []⟩ ∧ t.loader = u.loader ∧ t.motion = u.motion ∧ t.line.control = u.line.control := by
  rw [ht]
  exact ⟨(accept_answered (Works.refl _) src tag code 0).1, rfl, rfl, accept_control _ _ _ _ _⟩

/-! ### UNPARK (R88, R89) -/

/-- A channel that leaves DISABLED: IDLE, or STALLED where an axis has a counted drive fault (R88). -/
theorem enableChan_same (s : Station) (c : ChanId) :
    chan (enableChan s c) c = if channelFault s c = true then ⟨.stalled, [], some .driveFault⟩ else ⟨.idle, [], none⟩ := by
  unfold enableChan
  split
  · rw [(noChan_of (giveEvent_motion _ _)).chan, setChan_same]
  · exact setChan_same _ _ _

theorem channelFault_works {s t : Station} (w : Works s t) (c : ChanId) : channelFault t c = channelFault s c := by
  unfold channelFault chanAxes axesOf ownOf
  rw [w.loader, w.fault]

theorem enableChannels_chan {s : Station} (ha : (ownOf s).axes ≠ []) (c : ChanId) :
    chan (enableChannels s) c = if channelFault s c = true then ⟨.stalled, [], some .driveFault⟩ else ⟨.idle, [], none⟩ := by
  unfold enableChannels
  rw [if_neg (by simpa using ha)]
  cases c with
  | arm => rw [enableChan_other _ _ _ (by decide), enableChan_same]
  | head => rw [enableChan_same, channelFault_works (enableChan_works s .arm)]

theorem enableChannels_none {s : Station} (ha : (ownOf s).axes = []) : enableChannels s = s := if_pos (List.length_eq_zero_iff.mpr ha)

section
variable (s : Station)

theorem unpark_works : Works (inMode s .active) (unpark s) :=
  (enableChannels_works _).trans ((offerMount_works _).trans ((tidyMoment_works _ _).trans (modeEvent_works _)))

theorem unpark_chan (c : ChanId) : chan (unpark s) c = chan (enableChannels (inMode s .active)) c :=
  ((noChan_of (giveEvent_motion _ _)).chan c).trans (((tidyMoment_calm _ _).chan c).trans ((offerMount_calm _).chan c))

end

/-- An UNPARK that ends PARKED mode, accepted. -/
theorem unpark_accepted {u t : Station} {src : Nat} {tag : Code} (ht : t = accept (unpark (takeRequest u)) src tag 10 0) :
    Says.answered u t src ⟨tag, 10, true, 0, 0, []⟩ ∧ t.loader = { u.loader with mode := .active } ∧ tabs t = tabs u ∧
      t.motion.enc = u.motion.enc ∧ t.motion.homed = u.motion.homed ∧
      ((ownOf u).axes = [] → t.motion.arm = u.motion.arm ∧ t.motion.head = u.motion.head) ∧
      ((ownOf u).axes ≠ [] → ∀ c, chan t c =
        if channelFault u c = true then ⟨.stalled, [], some .driveFault⟩ else ⟨.idle, [], none⟩) := by
  have hworks := unpark_works (takeRequest u)
  have hchan : ∀ c, chan t c = chan (enableChannels (inMode (takeRequest u) .active)) c := fun c => by rw [ht, accept_chan, unpark_chan]
  refine ⟨?answered, ?loader, ?tables, ?enc, ?homed, fun ha => ?noAxes, fun ha c => ?axes⟩
  case noAxes =>
    have hstill : enableChannels (inMode (takeRequest u) .active) = inMode (takeRequest u) .active := enableChannels_none ha
    rw [hstill] at hchan
    exact ⟨hchan .arm, hchan .head⟩
  case axes =>
    rw [hchan]
    exact enableChannels_chan (s := inMode (takeRequest u) .active) ha c
  all_goals rw [ht, accept]
  case answered => exact answer_answered hworks.delivered hworks.line.reserved src _
  case loader => rw [loader_answer, hworks.loader]; rfl
  case tables => rw [tabs, replica_answer, hworks.replica]; rfl
  case enc => rw [motion_answer, hworks.enc]; rfl
  case homed => rw [motion_answer, unpark_homed, motion_takeRequest]

/-! ### The requests decided -/

section
variable {u : Station} (src : Nat) (tag : Code)

theorem requestPark_refused {n : Nat} (h : Says.firstOf (Says.parkList u) n) :
    Says.refused u (requestPark (takeRequest u) src tag) src tag 9 n := by
  obtain ⟨r, hfails, rfl⟩ := (park_decides u).fails h
  rw [requestPark, parkChecks_take, decide_some hfails]
  exact refuse_refused u src tag 9 r

theorem requestPark_passes (h : ∀ c ∈ Says.parkList u, c.1) :
    requestPark (takeRequest u) src tag = accept (if parkedMode u = true then takeRequest u else park (takeRequest u)) src tag 9 0 := by
  rw [requestPark, parkChecks_take, decide_none ((park_decides u).passes h)]
  rfl

theorem requestUnpark_busy (h : u.request.restartPending = true) :
    Says.refused u (requestUnpark (takeRequest u) src tag) src tag 10 3 := by
  have hfails : firstFailing [(!u.request.restartPending, Reason.busy), (serving u, .notActive)] = some .busy := by simp [firstFailing, h]
  have hrefuse : requestUnpark (takeRequest u) src tag = refuse (takeRequest u) src tag 10 .busy := decide_some hfails
  rw [hrefuse]
  exact refuse_refused u src tag 10 .busy

variable (hr : u.request.restartPending = false)
include hr

theorem requestUnpark_notActive (h : serving u = false) : Says.refused u (requestUnpark (takeRequest u) src tag) src tag 10 1 := by
  have hfails : firstFailing [(!u.request.restartPending, Reason.busy), (serving u, .notActive)] = some .notActive := by
    simp [firstFailing, hr, h]
  have hrefuse : requestUnpark (takeRequest u) src tag = refuse (takeRequest u) src tag 10 .notActive := decide_some hfails
  rw [hrefuse]
  exact refuse_refused u src tag 10 .notActive

theorem requestUnpark_passes (h : serving u = true) :
    requestUnpark (takeRequest u) src tag = accept (if parkedMode u = true then unpark (takeRequest u) else takeRequest u) src tag 10 0 := by
  have hnone : firstFailing [(!u.request.restartPending, Reason.busy), (serving u, .notActive)] = none := by simp [firstFailing, hr, h]
  exact decide_none hnone

end

/-! ### The statement -/

/-- Settles O53: the list of R162 decides PARK, and each request has its effect where it changes the mode. -/
theorem parkAndUnpark : Obligations.ParkAndUnpark := by
  unfold Obligations.ParkAndUnpark
  refine ⟨?park, ?unpark⟩
  case park =>
    intro src tag enc s u hu hask
    have heffect : effect (.park src tag enc) s.stn = requestPark (takeRequest u) src tag := by
      subst hu
      exact if_pos (asks_isNext hask)
    refine ⟨_, exec_effect _ s, rfl, ?_⟩
    simp only [heffect]
    refine ⟨fun r hr => requestPark_refused src tag hr, fun hall hmode => stay_accepted ?_, fun hall hmode => park_accepted ?_⟩
    · rw [requestPark_passes src tag hall, if_pos ((parkedMode_iff u).mpr hmode)]
    · rw [requestPark_passes src tag hall, if_neg (parkedMode_active hmode)]
  case unpark =>
    intro src tag enc s u hu hask
    have heffect : effect (.unpark src tag enc) s.stn = requestUnpark (takeRequest u) src tag := by
      subst hu
      exact if_pos (asks_isNext hask)
    refine ⟨_, exec_effect _ s, rfl, ?_⟩
    simp only [heffect]
    refine ⟨requestUnpark_busy src tag, requestUnpark_notActive src tag, fun hr hs hmode => stay_accepted ?_,
      fun hr hs hmode => unpark_accepted ?_⟩
    · rw [requestUnpark_passes src tag hr hs, if_neg (parkedMode_active hmode)]
    · rw [requestUnpark_passes src tag hr hs, if_pos ((parkedMode_iff u).mpr hmode)]

end Sys2Proof.CellMotion
end

section
/-! The TOUCH sequence (R76 to R78, R85, R142, R145): the end of the approach, the trigger's assertion and a miss. -/

namespace Sys2Proof.CellMotion

open Sys2Proof Sys2Proof.Machine Sys2Proof.Laws
open Sys2Proof.CellLine (effect exec_effect)
open Sys2Proof.CellJoin (offerControl_offered)
open Sys2Proof.CellZones (eventKeeps_works giveEvent_queued exec_still chan_readEncoders emptyChan_request)

theorem enabled_of_moving {st : ChanState} (h : movingState st = true) : enabledState st = true := by
  cases st
  case running => rfl
  case stopping => rfl
  all_goals cases h

/-! ### A collision (R85) -/

section
variable {s : Station} {c : ChanId} (hm : movingState (chan s c).state = true)
include hm

/-- Of a channel that moves only a claim that the CONTROL queue has not taken is withdrawn. -/
theorem claimedSet_moving {m : ZoneMask} (h : claimedSet s c = some m) : s.motion.outstanding = .offered := by
  have hset : waitingSet s c = none := if_neg fun hw => by rw [hw] at hm; cases hm
  unfold claimedSet at h
  rw [hset] at h
  split at h
  · split at h
    · split at h
      · assumption
      · cases h
    · cases h
  · cases h

/-- So its stall offers no frame: the CONTROL queue and the frame in flight stay, and no unit keeps a frame more. -/
theorem stallCore_line (cause : StallCause) :
    (stallCore s c cause).line.control = s.line.control ∧ ∀ w ∈ (stallCore s c cause).line.waiting, w ∈ s.line.waiting := by
  have hflushed : (returnCredit (setChan s c ⟨.stalled, [], some cause⟩) (headSeg s c)).line = s.line := by
    rw [(returnCredit_else _ _).2.1, line_setChan]
  have hout : (returnCredit (setChan s c ⟨.stalled, [], some cause⟩) (headSeg s c)).motion.outstanding = s.motion.outstanding := by
    rw [returnCredit_motion, outstanding_setChan]
  unfold stallCore
  rw [if_pos (enabled_of_moving hm)]
  simp only
  rw [giveEvent_control, giveEvent_waiting]
  cases hset : claimedSet s c with
  | none =>
    show (returnCredit _ _).line.control = _ ∧ ∀ w ∈ (returnCredit _ _).line.waiting, _
    rw [hflushed]
    exact ⟨rfl, fun _ hw => hw⟩
  | some m =>
    simp only [hout, claimedSet_moving hm hset]
    show (withdrawOffer _).line.control = _ ∧ ∀ w ∈ (withdrawOffer _).line.waiting, _
    rw [withdrawOffer, line_setOutstanding, line_withdrawWaiting, hflushed]
    exact ⟨rfl, fun w hw => (List.mem_filter.mp hw).1⟩

/-- With a probe mounted and nothing else running its PROBE_MARK is offered. -/
theorem collide_marks {x : Nat} (hx : mounted s = some x) (hno : Says.noChange s) (hq : (chan s (otherChan c)).queue = []) :
    Says.offered s (collide s c) .mark (.probeMark x) := by
  obtain ⟨hidle, hfailing⟩ := hno
  have henabled := enabled_of_moving hm
  have hworks := stallCore_works s c .collision
  obtain ⟨hcontrol, hwaiting⟩ := stallCore_line hm .collision
  have hheld : controlHeld (stallCore s c .collision).line = controlHeld s.line := by
    unfold controlHeld
    rw [hcontrol, hworks.line.flight]
  have hmark : markMounted (stallCore s c .collision) = offerControl (stallCore s c .collision) .mark 0 (.probeMark x) := by
    have hmounted : mounted (stallCore s c .collision) = some x := by
      rw [← hx]
      unfold mounted tabs me
      rw [hworks.replica, hworks.loader]
    unfold markMounted
    rw [hmounted]
  obtain ⟨htaken, hkept⟩ := offerControl_offered (stallCore s c .collision) .mark (.probeMark x)
  rw [collide_quiet henabled hidle hfailing hq, hmark]
  refine ⟨fun hplaces hnone => htaken (by rw [hheld]; exact hplaces) fun w hw => hnone w (hwaiting w hw), fun hfull => ?_⟩
  exact List.mem_filter.mpr ⟨hkept (by rw [hheld]; exact hfull), rfl⟩

end

/-! ### The end of the approach (R77, R78) -/

theorem mounted_readEncoders (s : Station) (enc : Counts) : mounted (readEncoders s enc) = mounted s := rfl

section
variable {u : Station} {g : Segment}

theorem touchCheck_usable {x : Nat} {e : Tip} (hc : g.credit = true) (hx : mounted u = some x) (hcond : (probeRec (tabs u) x).cond = .usable)
    (he : currentEntry u (headIndex u) = some e) : touchCheck u g = some (x, e) := by
  simp [touchCheck, hc, hx, hcond, he]

theorem touchCheck_unusable (h : g.credit = false ∨ mounted u = none ∨ (∃ x, mounted u = some x ∧ (probeRec (tabs u) x).cond ≠ .usable) ∨
    currentEntry u (headIndex u) = none) : touchCheck u g = none := by
  unfold touchCheck
  rcases h with h | h | ⟨x, hx, hcond⟩ | h
  · rw [h]
    rfl
  · rw [h]
    split <;> rfl
  · rw [hx]
    simp only [if_neg hcond, ite_self]
  · rw [h]
    split
    · rfl
    · split
      · rfl
      · split <;> rfl

end

section
variable {s u : Station} {enc : Counts} {g : Segment} {r : List Segment} (hu : u = readEncoders s enc) (hq : s.motion.arm.queue = g :: r)
  (hst : s.motion.arm.state = .running) (ht : isTouchSeg g = true) (hp : g.phase = .approach)
include hu hq hst ht hp

theorem endApproach_unusable (h : touchCheck u g = none) : endApproach s enc = chooseLead (haltNow u .arm .probeUnusable) := by
  unfold endApproach
  rw [headSeg_cons (c := .arm) hq]
  simp only
  rw [if_pos ⟨hst, ht, hp⟩, ← hu, h]

theorem endApproach_usable {found : Nat × Tip} (h : touchCheck u g = some found) : endApproach s enc =
    if u.pins.trigger = true then collide u .arm
    else setHead u .arm { g with phase := .probing, checked := some found, axisTarget := probingTarget u g } := by
  unfold endApproach
  rw [headSeg_cons (c := .arm) hq]
  simp only
  rw [if_pos ⟨hst, ht, hp⟩, ← hu, h]

/-- Halted, stalled or probing, the working units do no more, and an empty HEAD channel stays. -/
theorem endApproach_keeps : Says.eventKeeps u (endApproach s enc) ∧ Says.emptyStays u (endApproach s enc) .head := by
  cases hfound : touchCheck u g with
  | none =>
    rw [endApproach_unusable hu hq hst ht hp hfound]
    refine ⟨eventKeeps_works ((haltNow_works _ _ _).trans (chooseLead_works _)), fun hh => ?_⟩
    have hother := haltNow_other u .arm .head .probeUnusable (by decide)
    rw [(chooseLead_stays _).empty .head (by rw [hother]; exact hh), hother]
  | some found =>
    rw [endApproach_usable hu hq hst ht hp hfound]
    split
    · exact ⟨eventKeeps_works (collide_works u .arm), collide_other (by decide)⟩
    · exact ⟨eventKeeps_works (setHead_works _ _ _), fun _ => setHead_other _ _ _ _ (by decide)⟩

end

theorem haltNow_queued (u : Station) (c : ChanId) (cause : HaltCause) :
    Says.eventQueued u (haltNow u c cause) (.channelHalted c cause (tagOf (headSeg u c))) :=
  giveEvent_queued ((tidyMoment_calm _ _).request.trans (emptyChan_request _ _ _)) _

theorem endApproach_still {s : Station} (enc : Counts) (h : ¬ ∃ g r, s.motion.arm.queue = g :: r ∧ s.motion.arm.state = .running ∧
    isTouchSeg g = true ∧ g.phase = .approach) : endApproach s enc = s := by
  unfold endApproach
  cases hq : s.motion.arm.queue with
  | nil => rw [headSeg_nil (c := .arm) hq]
  | cons g r =>
    rw [headSeg_cons (c := .arm) hq]
    exact if_neg fun hc => h ⟨g, r, hq, hc⟩

/-! ### The trigger's assertion (R85, R142, R145) -/

/-- The trigger line asserted, the counts read latched. -/
def triggered (u : Station) : Station :=
  { u with pins := { u.pins with trigger := true }, touch := { u.touch with latch := some u.motion.enc } }

/-- Pins, latch, counts, tables, mode and time are the same in both. -/
structure Reads (s t : Station) : Prop where
  pins : t.pins = s.pins
  latch : t.touch.latch = s.touch.latch
  enc : t.motion.enc = s.motion.enc
  replica : t.replica = s.replica
  loader : t.loader = s.loader
  now : t.now = s.now

theorem Reads.refl (s : Station) : Reads s s := ⟨rfl, rfl, rfl, rfl, rfl, rfl⟩

theorem Reads.trans {s t u : Station} (h : Reads s t) (k : Reads t u) : Reads s u :=
  ⟨k.pins.trans h.pins, k.latch.trans h.latch, k.enc.trans h.enc, k.replica.trans h.replica, k.loader.trans h.loader, k.now.trans h.now⟩

theorem reads_works {s t : Station} (w : Works s t) : Reads s t := ⟨w.pins, w.latch, w.enc, w.replica, w.loader, w.now⟩

theorem armTrigger_reads (v : Station) (g : Segment) (enc : Counts) : Reads v (armTrigger v g enc) := by
  unfold armTrigger
  split
  · have hcapture : ∀ d, Reads v (if g.credit = true then capturePoint v d else v) := fun d => by
      split
      · exact ⟨rfl, rfl, rfl, rfl, rfl, rfl⟩
      · exact Reads.refl v
    exact (hcapture _).trans (reads_works (setHead_works _ _ _))
  · exact Reads.refl v
  · exact reads_works (collide_works v .arm)

/-- A TOUCH that has captured takes no further trigger; any segment but one that probes or has captured collides. -/
theorem armTrigger_captured (v : Station) {g : Segment} (enc : Counts) (ht : isTouchSeg g = true) (hp : g.phase = .retract true) :
    armTrigger v g enc = v := by
  unfold armTrigger
  unfold isTouchSeg at ht
  rw [hp]
  split at ht
  next a hk => rw [hk]
  next => cases ht

theorem armTrigger_collides (v : Station) {g : Segment} (enc : Counts)
    (h : isTouchSeg g = false ∨ g.phase = .approach ∨ g.phase = .retract false) : armTrigger v g enc = collide v .arm := by
  unfold armTrigger
  split
  next a hk hp => exact (h.elim (fun ht => by simp [isTouchSeg, hk] at ht) fun hx => by simp [hp] at hx)
  next a hk hp => exact (h.elim (fun ht => by simp [isTouchSeg, hk] at ht) fun hx => by simp [hp] at hx)
  next => rfl

section
variable {s u : Station} {enc : Counts} (hu : u = readEncoders s enc) (hheld : s.loader.held = false) (hline : s.pins.trigger = false)
include hu hheld hline

theorem assertTrigger_asserts : assertTrigger s enc =
    if movingState u.motion.head.state = true then collide (triggered u) .head
    else if movingState u.motion.arm.state = true then (headSeg u .arm).elim (triggered u) fun g => armTrigger (triggered u) g u.motion.enc
    else triggered u := by
  unfold assertTrigger
  rw [hline, if_neg Bool.false_ne_true, hheld, if_neg Bool.false_ne_true, ← hu]
  cases hg : headSeg u .arm with
  | none =>
    have hg' : headSeg (triggered u) .arm = none := hg
    unfold triggered at hg'
    simp only [hg']
    rfl
  | some g =>
    have hg' : headSeg (triggered u) .arm = some g := hg
    unfold triggered at hg'
    simp only [hg']
    rfl

theorem assertTrigger_reads : Reads (triggered u) (assertTrigger s enc) := by
  rw [assertTrigger_asserts hu hheld hline]
  split
  · exact reads_works (collide_works _ _)
  · split
    · cases headSeg u .arm with
      | none => exact Reads.refl _
      | some g => exact armTrigger_reads _ _ _
    · exact Reads.refl _

theorem assertTrigger_head (h : movingState s.motion.head.state = true) : assertTrigger s enc = collide (triggered u) .head := by
  rw [assertTrigger_asserts hu hheld hline, if_pos (by rw [hu]; exact h)]

variable (hh : movingState s.motion.head.state = false)
include hh

omit hheld hline in
theorem head_rests : ¬ movingState u.motion.head.state = true := fun hm => by
  rw [hu] at hm
  exact Bool.false_ne_true (hh.symm.trans hm)

theorem assertTrigger_rest (h : movingState s.motion.arm.state = false) : assertTrigger s enc = triggered u := by
  rw [assertTrigger_asserts hu hheld hline, if_neg (head_rests hu hh), if_neg fun hm => by
    rw [hu] at hm
    exact Bool.false_ne_true (h.symm.trans hm)]

theorem assertTrigger_arm {g : Segment} {r : List Segment} (hq : s.motion.arm.queue = g :: r) (h : movingState s.motion.arm.state = true) :
    assertTrigger s enc = armTrigger (triggered u) g u.motion.enc := by
  have hg : headSeg u .arm = some g := by rw [hu]; exact headSeg_cons (c := .arm) hq
  rw [assertTrigger_asserts hu hheld hline, if_neg (head_rests hu hh), if_pos (by rw [hu]; exact h), hg]
  rfl

end

/-! ### A capture (R145) -/

section
variable {u : Station} {enc : Counts} {g : Segment} {a : TouchArgs} {r : List Segment}

/-- The point goes into the RESERVED entry with the next sequence number, and the TOUCH retracts. -/
theorem armTrigger_point (hq : u.motion.arm.queue = g :: r) (hk : g.kind = .touch a) (hp : g.phase = .probing) (hc : g.credit = true) :
    armTrigger (triggered u) g u.motion.enc =
      { capturePoint (triggered u) (capturedPoint (triggered u) g a.dir ((tagOf (some g)).getD 0) u.motion.enc) with
        motion := { u.motion with arm := { u.motion.arm with queue :=
          { g with credit := false, phase := .retract true, axisTarget := some (retractCounts u a u.motion.enc) } :: r } } } := by
  have hq' : ∀ d, (chan (capturePoint (triggered u) d) .arm).queue = g :: r := fun _ => hq
  rw [armTrigger_capture (triggered u) hk hp hc, setHead_same (hq' _)]
  rfl

theorem capturedPoint_tip {x : Nat} {e : Tip} (tag : Code) (enc : Counts) (d : PointData) (hd : d = capturedPoint u g a.dir tag enc)
    (hx : mounted u = some x) (he : tipAt u x (d.a, d.b) = some e) : d.probe = x ∧ d.copy = e := by
  subst hd
  have htip : captureTip u g (if hasHead u then enc.a else 0) (if hasHead u then enc.b else 0) = (x, e) := by
    unfold captureTip
    have he' : tipAt u x (if hasHead u then enc.a else 0, if hasHead u then enc.b else 0) = some e := he
    simp only [hx, he']
  exact ⟨congrArg Prod.fst htip, congrArg Prod.snd htip⟩

/-- What the statement says of a capture: the TOUCH retracts, and the point recorded is that of the counts latched. -/
theorem armTrigger_records {s : Station} (t : Station) (hu : u = readEncoders s enc) (hq : u.motion.arm.queue = g :: r) (hk : g.kind = .touch a)
    (hp : g.phase = .probing) (hc : g.credit = true) (ht : t = armTrigger (triggered u) g u.motion.enc) :
    t.motion = { u.motion with arm := { u.motion.arm with queue :=
        { g with credit := false, phase := .retract true, axisTarget := some (retractCounts u a u.motion.enc) } :: r } } ∧
      t.line = s.line ∧ t.request = s.request ∧ t.touch.nextSeq = (s.touch.nextSeq + 1) % 65536 ∧
      ∃ d, t.touch.points = updFirst isReservedEntry (.pending d) s.touch.points ∧ d.seq = s.touch.nextSeq ∧
        (∀ tag, g.origin = .request tag → d.tag = tag) ∧ d.counts = u.motion.enc ∧ d.dir = a.dir ∧ d.haltDuring = g.haltSeen ∧
        (∀ n, s.line.lineCount = some n → d.count = n) ∧ d.lateDue = s.now + 3 * (cellOf s).period ∧
        (∀ x e, mounted s = some x → tipAt s x (d.a, d.b) = some e → d.probe = x ∧ d.copy = e) := by
  rw [armTrigger_point hq hk hp hc] at ht
  subst ht
  refine ⟨rfl, ?_, ?_, ?_, capturedPoint (triggered u) g a.dir ((tagOf (some g)).getD 0) u.motion.enc, ?_, ?_,
    fun tag horigin => ?_, rfl, rfl, rfl, fun n hn => ?_, ?_, fun x e hx he => ?_⟩
  iterate 5 exact hu ▸ rfl
  · show (tagOf (some g)).getD 0 = tag
    unfold tagOf
    simp only [horigin, Option.getD_some]
  · show lineCountOf (triggered u) = n
    rw [hu]
    exact congrArg (·.getD 0) hn
  · exact hu ▸ rfl
  · exact capturedPoint_tip _ _ _ rfl (u := triggered u) (by rw [hu]; exact hx) (by rw [hu]; rw [hu] at he; exact he)

end

/-! ### A miss (R77) -/

theorem missTouch_probing {s u : Station} {enc : Counts} {g : Segment} {r : List Segment} (hu : u = readEncoders s enc)
    (hq : s.motion.arm.queue = g :: r) (hm : movingState s.motion.arm.state = true) (ht : isTouchSeg g = true) (hp : g.phase = .probing) :
    missTouch s enc = giveEvent (setHead (returnCredit u (some g)) .arm
      { g with credit := false, phase := .retract false, axisTarget := missTarget (returnCredit u (some g)) g })
      (.touchMissed ((tagOf (some g)).getD 0)) := by
  unfold missTouch
  rw [headSeg_cons (c := .arm) hq, hu]
  simp only
  rw [if_pos (by simp [hm, ht, hp])]

section
variable {s u : Station} {enc : Counts} {g : Segment} {r : List Segment} (hu : u = readEncoders s enc)
  (hq : s.motion.arm.queue = g :: r)
include hu hq

/-- The TOUCH retracts, an unused credit is returned and TOUCH_MISSED is queued. -/
theorem missTouch_misses {tag : Code} (hm : movingState s.motion.arm.state = true) (ht : isTouchSeg g = true) (hp : g.phase = .probing)
    (ho : g.origin = .request tag) : Says.eventKeeps u (missTouch s enc) ∧
      (missTouch s enc).motion = { u.motion with arm := { u.motion.arm with queue :=
        { g with credit := false, phase := .retract false, axisTarget := missTarget u g } :: r } } ∧
      (missTouch s enc).touch.points = (if g.credit = true then updFirst isReservedEntry .free s.touch.points else s.touch.points) ∧
      Says.eventQueued s (missTouch s enc) (.touchMissed tag) := by
  have htag : (tagOf (some g)).getD 0 = tag := by
    unfold tagOf
    simp only [ho, Option.getD_some]
  have htarget : missTarget (returnCredit u (some g)) g = missTarget u g := by
    unfold returnCredit
    simp only
    split <;> rfl
  obtain ⟨hrequest, -, hmotion, -, -, -⟩ := returnCredit_else u (some g)
  have hqueue : (chan (returnCredit u (some g)) .arm).queue = g :: r := by
    unfold chan
    rw [hmotion, hu]
    exact hq
  rw [missTouch_probing hu hq hm ht hp, htag, htarget]
  refine ⟨eventKeeps_works (((returnCredit_works _ _).trans (setHead_works _ _ _)).trans (giveEvent_works _ _)), ?_⟩
  rw [setHead_same hqueue]
  refine ⟨?_, ?_, ?_⟩
  · rw [giveEvent_motion, ← hmotion]
    rfl
  · rw [giveEvent_touch, hu]
    show (returnCredit _ (some g)).touch.points = _
    unfold returnCredit
    simp only
    split <;> rfl
  · refine giveEvent_queued ?_ _
    show (returnCredit u (some g)).request = s.request
    rw [hrequest, hu]
    rfl

end

/-! ### The statement -/

/-- The approach ends: probing starts, the trigger asserted already collides, an unusable probe halts. -/
theorem endApproach_says {s u : Station} {enc : Counts} {g : Segment} {r : List Segment} (hu : u = readEncoders s enc)
    (hq : s.motion.arm.queue = g :: r) (hst : s.motion.arm.state = .running) (ht : isTouchSeg g = true) (hp : g.phase = .approach) :
    (∀ x e, g.credit = true → mounted s = some x → (probeRec (tabs s) x).cond = .usable → currentEntry u (headIndex u) = some e →
      (s.pins.trigger = false → endApproach s enc = { u with motion := { u.motion with
        arm := { u.motion.arm with queue := { g with phase := .probing, checked := some (x, e), axisTarget := probingTarget u g } :: r } } }) ∧
      (s.pins.trigger = true → (endApproach s enc).motion.arm = ⟨.stalled, [], some .collision⟩ ∧
        (Says.noChange s → s.motion.head.queue = [] → Says.offered s (endApproach s enc) .mark (.probeMark x)))) ∧
    (g.credit = false ∨ mounted s = none ∨ (∃ x, mounted s = some x ∧ (probeRec (tabs s) x).cond ≠ .usable) ∨
        currentEntry u (headIndex u) = none →
      (endApproach s enc).motion.arm = { u.motion.arm with state := .halted, queue := [] } ∧
      (s.motion.head.queue = [] → Says.eventQueued s (endApproach s enc) (.channelHalted .arm .probeUnusable (tagOf (some g))))) := by
  have hqu : (chan u .arm).queue = g :: r := by rw [hu]; exact hq
  have hrunning : (chan u .arm).state = .running := by rw [hu]; exact hst
  have hmounted : mounted u = mounted s := by rw [hu]; rfl
  have htabs : tabs u = tabs s := by rw [hu]; rfl
  have hpins : u.pins.trigger = s.pins.trigger := by rw [hu]; rfl
  refine ⟨fun x e hc hx hcond he => ?_, fun h => ?_⟩
  · have hfound := touchCheck_usable hc (hmounted.trans hx) (by rw [htabs]; exact hcond) he
    rw [endApproach_usable hu hq hst ht hp hfound, hpins]
    refine ⟨fun htrigger => ?_, fun htrigger => ?_⟩
    · rw [htrigger, if_neg Bool.false_ne_true, setHead_same hqu]
      rfl
    · rw [if_pos htrigger]
      have hmoving : movingState (chan u .arm).state = true := by rw [hrunning]; rfl
      refine ⟨collide_same (c := .arm) (enabled_of_moving hmoving), fun hno hhead => ?_⟩
      have hmark := collide_marks hmoving (hmounted.trans hx) (by rw [hu]; exact hno) (by rw [hu]; exact hhead)
      rw [hu] at hmark ⊢
      exact hmark
  · have hfound : touchCheck u g = none := touchCheck_unusable (by rw [hmounted, htabs]; exact h)
    rw [endApproach_unusable hu hq hst ht hp hfound]
    refine ⟨?_, fun hhead => ?_⟩
    · have hhalted := haltNow_chan u .arm .probeUnusable
      have hleft := (chooseLead_stays (haltNow u .arm .probeUnusable)).empty .arm (by rw [hhalted])
      exact hleft.trans hhalted
    · have hquiet : (chan u (otherChan .arm)).queue = [] := by rw [hu]; exact hhead
      have hevent := haltNow_queued u .arm .probeUnusable
      rw [headSeg_cons hqu] at hevent
      rw [haltNow_quiet hquiet]
      rw [hu] at hevent ⊢
      exact hevent

/-- Settles O55: each of the events brings its branch of the sequence about, or leaves the station as it is. -/
theorem touchSequence : Obligations.TouchSequence := by
  unfold Obligations.TouchSequence
  refine ⟨?approach, fun enc s h => exec_still (endApproach_still enc h), ?trigger, ?asserted, ?held, ?miss, fun s => rfl⟩
  case approach =>
    intro enc s g r u hu hq hst ht hp
    obtain ⟨hkeeps, hhead⟩ := endApproach_keeps hu hq hst ht hp
    exact ⟨_, exec_effect _ s, rfl, hkeeps, hhead, endApproach_says hu hq hst ht hp⟩
  case trigger =>
    intro enc s u hu hheld hline
    obtain ⟨hpins, hlatch, henc, hreplica, hloader, hnow⟩ := assertTrigger_reads hu hheld hline
    have hseq : (triggered u).touch.nextSeq = s.stn.touch.nextSeq := by rw [hu]; rfl
    have hpoints : (triggered u).touch.points = s.stn.touch.points := by rw [hu]; rfl
    refine ⟨_, exec_effect _ s, rfl, hpins.trans (by rw [hu]; rfl), hlatch, henc, hreplica.trans (by rw [hu]; rfl),
      hloader.trans (by rw [hu]; rfl), hnow.trans (by rw [hu]; rfl), ?capture, ?captured, ?rest, ?head, ?collides⟩
    case capture =>
      intro a g r hq hk hp hc hm hh
      exact armTrigger_records _ hu (by rw [hu]; exact hq) hk hp hc (assertTrigger_arm hu hheld hline hh hq hm)
    case captured =>
      intro g r hq ht hp hm hh
      have hleft : assertTrigger s.stn enc = triggered u :=
        (assertTrigger_arm hu hheld hline hh hq hm).trans (armTrigger_captured _ _ ht hp)
      show (assertTrigger s.stn enc).motion = _ ∧ (assertTrigger s.stn enc).touch.points = _
      rw [hleft]
      exact ⟨rfl, hpoints⟩
    case rest =>
      intro hm hh
      show (assertTrigger s.stn enc).motion = _ ∧ (assertTrigger s.stn enc).touch.points = _ ∧
        (assertTrigger s.stn enc).touch.nextSeq = _ ∧ (assertTrigger s.stn enc).line = _
      rw [assertTrigger_rest hu hheld hline hh hm]
      exact ⟨rfl, hpoints, hseq, by rw [hu]; rfl⟩
    case head =>
      intro hm
      show (assertTrigger s.stn enc).motion.head = _ ∧ (assertTrigger s.stn enc).touch.nextSeq = _
      rw [assertTrigger_head hu hheld hline hm]
      exact ⟨collide_same (c := .head) (enabled_of_moving (by rw [hu]; exact hm)), (collide_works _ _).nextSeq.trans hseq⟩
    case collides =>
      intro g r hq h hm hh
      show (assertTrigger s.stn enc).motion.arm = _ ∧ (assertTrigger s.stn enc).touch.nextSeq = _
      rw [assertTrigger_arm hu hheld hline hh hq hm, armTrigger_collides _ _ h]
      exact ⟨collide_same (c := .arm) (enabled_of_moving (by rw [hu]; exact hm)), (collide_works _ _).nextSeq.trans hseq⟩
  case asserted =>
    intro enc s h
    refine exec_still ?_
    show assertTrigger s.stn enc = s.stn
    unfold assertTrigger
    rw [if_pos h]
  case held =>
    intro enc s h hheld
    rw [exec_effect]
    show Host.Outcome.next { s with stn := assertTrigger s.stn enc } = _
    unfold assertTrigger
    rw [h, if_neg Bool.false_ne_true, if_pos hheld]
  case miss =>
    intro enc s g r tag u hu hq hm ht hp ho
    exact ⟨_, exec_effect _ s, rfl, missTouch_misses hu hq hm ht hp ho⟩

end Sys2Proof.CellMotion
end

section
/-! HALT and CLEAR (R82, R84, R126): the channels that a HALT stops, what it does to a running change, and the channels that a CLEAR
frees. -/

namespace Sys2Proof.CellMotion

open Sys2Proof Sys2Proof.Machine Sys2Proof.Laws
open Sys2Proof.CellLine (effect exec_effect)
open Sys2Proof.CellZones (asks_isNext accept_answered unitsKeep_works chan_either)

/-! ### Requests taken and answered -/

theorem takeRequest_chan (u : Station) (c : ChanId) : chan (takeRequest u) c = chan u c := by cases c <;> rfl

theorem answer_chan (w : Station) (src : Nat) (a : AnswerBody) (c : ChanId) : chan (answer w src a) c = chan w c := by cases c <;> rfl

/-- Of the units an answer touches the REPORT queue only. -/
theorem answer_unitsKeep {s w : Station} (hw : Works s w) (src : Nat) (a : AnswerBody) : Says.unitsKeep s (answer w src a) := by
  obtain ⟨know, kpins, kloader, kreplica, kthermal, krack, kenc, kfault, kfilter, klatch, kseq, kcount, kheard, kslot, kflight, kwindow⟩ :=
    unitsKeep_works hw
  refine ⟨know, kpins, kloader, kreplica, kthermal, krack, kenc, kfault, kfilter, klatch, kseq, ?_, ?_, ?_, ?_, ?_⟩
  all_goals rw [answer_line]
  all_goals assumption

/-! ### HALT while no change runs (R82) -/

section
variable {s : Station} {cs : List ChanId} {c : ChanId} (hidle : s.change.state = .idle)
include hidle

theorem haltAll_change (hf : s.change.failing = none) : (haltAll s cs).change = s.change := by
  rw [haltAll_idle s cs hidle, chooseLead_change]
  · exact haltMid_change s _ _
  all_goals rw [haltMid_change]
  · exact hidle
  · exact hf

/-- A channel named takes the HALT, and is not among those that wait their turn. -/
theorem haltAll_names (hc : c ∈ cs) (hst : (chan (haltChan s c) c).state ≠ .waitTurn) :
    chan (haltAll s cs) c = chan (haltChan s c) c := by
  have hmid := haltMid_chan s (cs.contains .arm) (cs.contains .head) c (by cases c <;> simp [hc])
  rw [haltAll_idle s cs hidle, chooseLead_chan]
  · exact hmid
  · rw [haltMid_change]
    exact hidle
  · rw [hmid]
    exact hst

/-- A channel not named goes on moving. -/
theorem haltAll_spares (hc : c ∉ cs) (hm : movingState (chan s c).state = true) : chan (haltAll s cs) c = chan s c := by
  have hmid := haltMid_not s (cs.contains .arm) (cs.contains .head) c (by cases c <;> simp [hc])
  rw [haltAll_idle s cs hidle, chooseLead_chan]
  · exact hmid
  · rw [haltMid_change]
    exact hidle
  · rw [hmid]
    intro hw
    rw [hw] at hm
    cases hm

variable (hc : c ∈ cs)
include hc

theorem haltAll_running {g : Segment} {r : List Segment} (hq : (chan s c).queue = g :: r) (hr : (chan s c).state = .running) :
    (chan (haltAll s cs) c).state = .stopping ∧ (chan (haltAll s cs) c).queue = [{ g with haltSeen := true }] := by
  have hstop := haltChan_running hq hr
  have hnames := haltAll_names hidle hc (by rw [hstop]; exact nofun)
  rw [hnames, hstop]
  exact ⟨rfl, rfl⟩

theorem haltAll_waiting {g : Segment} {r : List Segment} (hq : (chan s c).queue = g :: r) (ho : fromSequencer g = false)
    (hw : waitingState (chan s c).state = true) :
    (chan (haltAll s cs) c).state = .halted ∧ (chan (haltAll s cs) c).queue = [] := by
  have hhalt := haltChan_waiting hq ho hw
  have hnames := haltAll_names hidle hc (by rw [hhalt]; exact nofun)
  rw [hnames, hhalt]
  exact ⟨rfl, rfl⟩

theorem haltAll_still (hr : (chan s c).state ≠ .running) (hw : waitingState (chan s c).state = false) :
    chan (haltAll s cs) c = chan s c := by
  have hleft := haltChan_still hr hw
  have hturn : (chan s c).state ≠ .waitTurn := fun hx => by
    rw [hx] at hw
    cases hw
  have hnames := haltAll_names hidle hc (by rw [hleft]; exact hturn)
  rw [hnames, hleft]

end

/-! ### HALT of a running change (R126) -/

/-- The channels that a HALT stops: those it names and the one on which a running change moves. -/
def haltReaches (s : Station) (cs : List ChanId) (c : ChanId) : Bool :=
  cs.contains c || (changeRuns s && s.change.failing.isNone && match headSeg s c with
    | none => false
    | some g => fromSequencer g)

theorem haltAll_reaches (s : Station) (cs : List ChanId) : haltAll s cs = chooseLead (changeHalt
    (if haltReaches s cs .head = true then haltChan (if haltReaches s cs .arm = true then haltChan s .arm else s) .head
      else if haltReaches s cs .arm = true then haltChan s .arm else s)) := rfl

theorem haltChan_idle {s : Station} {c : ChanId} (h : (chan s c).state = .idle) : haltChan s c = s :=
  haltChan_still (by rw [h]; exact nofun) (by rw [h]; rfl)

theorem headSeg_allIdle {s : Station} (h : Says.allIdle s) (c : ChanId) : headSeg s c = none := by
  obtain ⟨-, harm, -, hhead⟩ := h
  cases c
  · exact headSeg_nil (c := .arm) harm
  · exact headSeg_nil (c := .head) hhead

theorem haltAll_allIdle {s : Station} (cs : List ChanId) (h : Says.allIdle s) : haltAll s cs = chooseLead (changeHalt s) := by
  obtain ⟨harm, -, hhead, -⟩ := h
  rw [haltAll_reaches, haltChan_idle (c := .arm) harm, ite_self, haltChan_idle (c := .head) hhead, ite_self]

theorem sequencerMoves_empty {s : Station} (h : ∀ c, headSeg s c = none) : sequencerMoves s = false := by
  unfold sequencerMoves
  simp [h]

theorem abandonByState_calm (s : Station) : Calm s (abandonByState s) := by
  have hdropped := withdrawWaiting_calm s (fun w => w.src == .change && isReserveFrame w.item.body)
  unfold abandonByState
  simp only
  split
  · exact hdropped
  · split
    · exact hdropped.trans (offerControl_calm _ _ _ _)
    · exact hdropped

section
variable {s : Station} (hrun : s.change.state ≠ .idle) (hf : s.change.failing = none)
include hrun hf

theorem changeHalt_owed (hheld : s.change.heldSeen = true) : changeHalt s = { s with change := { s.change with haltOwed := true } } := by
  unfold changeHalt
  simp [changeRuns, hrun, hf, pastCoupling, hheld]

/-- The change fails: its port is given up, the failure recorded, its segments stopped. -/
theorem changeHalt_fails (hheld : s.change.heldSeen = false) :
    changeHalt s = endFailure (stopBoth (meetFailure (abandonByState s) .halted)) := by
  unfold changeHalt failByMotion failWith
  simp [changeRuns, hrun, hf, pastCoupling, hheld]

/-- On an idle station it is over at once. -/
theorem changeHalt_ends (h : Says.allIdle s) (hheld : s.change.heldSeen = false) :
    changeHalt s = giveEvent (tidyMoment (idleChanger (meetFailure (abandonByState s) .halted)) none) (.changeFailed s.change.tag .halted) := by
  have hcalm := abandonByState_calm s
  obtain ⟨-, harm, -, hhead⟩ := h
  have harm' : (meetFailure (abandonByState s) .halted).motion.arm.queue = [] := (congrArg Chan.queue (hcalm.chan .arm)).trans harm
  have hhead' : (meetFailure (abandonByState s) .halted).motion.head.queue = [] := (congrArg Chan.queue (hcalm.chan .head)).trans hhead
  have hrest : sequencerMoves (meetFailure (abandonByState s) .halted) = false := sequencerMoves_empty fun c => by
    cases c
    · exact headSeg_nil (c := .arm) harm'
    · exact headSeg_nil (c := .head) hhead'
  rw [changeHalt_fails hrun hf hheld, stopBoth_idle harm' hhead']
  unfold endFailure
  rw [hrest]
  show giveEvent _ (.changeFailed (abandonByState s).change.tag .halted) = _
  rw [hcalm.change]

/-- Before the coupling the change is over, and CHANGE_FAILED is queued. -/
theorem haltAll_ends (cs : List ChanId) (h : Says.allIdle s) (hheld : s.change.heldSeen = false) :
    (haltAll s cs).change.state = .idle ∧ (haltAll s cs).change.lastFailure = some .halted ∧
      (haltAll s cs).request.nextEvent = (s.request.nextEvent + 1) % 65536 := by
  have hcalm := abandonByState_calm s
  have hends := changeHalt_ends hrun hf h hheld
  have hchan : ∀ c, chan (changeHalt s) c = chan s c := fun c => by
    rw [hends, (noChan_of (giveEvent_motion _ _)).chan, (tidyMoment_calm _ _).chan]
    exact hcalm.chan c
  have hhalt := haltAll_allIdle cs h
  obtain ⟨-, harm, -, hhead⟩ := h
  have hlead : chooseLead (changeHalt s) = changeHalt s :=
    chooseLead_empty ((congrArg Chan.queue (hchan .arm)).trans harm) ((congrArg Chan.queue (hchan .head)).trans hhead)
  rw [hhalt, hlead, hends,
    giveEvent_change, giveEvent_next, (tidyMoment_calm _ _).change, (tidyMoment_calm _ _).request]
  refine ⟨rfl, rfl, ?_⟩
  show ((abandonByState s).request.nextEvent + 1) % 65536 = _
  rw [hcalm.request]

/-- Past the coupling the HALT is owed. -/
theorem haltAll_owed (cs : List ChanId) (h : Says.allIdle s) (hheld : s.change.heldSeen = true) :
    haltAll s cs = { s with change := { s.change with haltOwed := true } } := by
  rw [haltAll_allIdle cs h, changeHalt_owed hrun hf hheld]
  obtain ⟨-, harm, -, hhead⟩ := h
  exact chooseLead_empty harm hhead

end

/-! ### HALT while a segment of the change runs (R126) -/

section
variable {v : Station} {c d : ChanId} {g : Segment} (hd : d ≠ c) (hq : (chan v c).queue = [g]) (ho : fromSequencer g = true)
  (hdq : (chan v d).queue = [])

theorem chan_cases {P : ChanId → Prop} (hd : d ≠ c) (hc : P c) (hother : P d) (x : ChanId) : P x := by
  rcases chan_either c x with rfl | rfl
  · exact hc
  · rcases chan_either c d with rfl | rfl
    · exact absurd rfl hd
    · exact hother

include hd hq hdq in
/-- A channel that stops already is not stopped again. -/
theorem stopBoth_stopping (hst : (chan v c).state = .stopping) : stopBoth v = v := by
  have hsame : ∀ x, stopSequencer v x = v := chan_cases hd
    (by unfold stopSequencer; rw [headSeg_cons hq, hst]; simp) (by unfold stopSequencer; rw [headSeg_nil hdq])
  unfold stopBoth
  rw [hsame .arm, hsame .head]

include hq ho in
theorem sequencerMoves_stopping (hst : (chan v c).state = .stopping) : sequencerMoves v = true := by
  unfold sequencerMoves
  rw [List.any_eq_true]
  exact ⟨c, by cases c <;> simp, by rw [headSeg_cons hq, hst]; simp [ho, movingState]⟩

include hd hq ho hdq in
/-- A change that fails while its own segment stops waits for the stop's end. -/
theorem changeHalt_stopping (hst : (chan v c).state = .stopping) (hrun : v.change.state ≠ .idle) (hf : v.change.failing = none)
    (hheld : v.change.heldSeen = false) : changeHalt v = meetFailure (abandonByState v) .halted := by
  have hchan : ∀ x, chan (meetFailure (abandonByState v) .halted) x = chan v x := fun x =>
    ((meetFailure_noChan _ _).chan x).trans ((abandonByState_calm v).chan x)
  have hqueue := (congrArg Chan.queue (hchan c)).trans hq
  have hstate := (congrArg Chan.state (hchan c)).trans hst
  have hempty := (congrArg Chan.queue (hchan d)).trans hdq
  rw [changeHalt_fails hrun hf hheld, stopBoth_stopping hd hqueue hempty hstate]
  unfold endFailure
  rw [sequencerMoves_stopping hqueue ho hstate]
  rfl

end

section
variable {s : Station} {c d : ChanId} {g : Segment} (hrun : s.change.state ≠ .idle) (hf : s.change.failing = none) (hd : d ≠ c)
  (hq : (chan s c).queue = [g]) (hr : (chan s c).state = .running) (ho : fromSequencer g = true) (hds : (chan s d).state = .idle)
include hrun hf hd hq hr ho hds

/-- The HALT reaches the channel on which the change moves whether it is named or not. -/
theorem haltAll_moving (cs : List ChanId) : haltAll s cs = chooseLead (changeHalt (beginStop s c { g with haltSeen := true })) := by
  have hnamed : haltReaches s cs c = true := by
    unfold haltReaches
    rw [headSeg_cons hq]
    simp [changeRuns, hrun, hf, ho]
  have hstop : haltChan s c = beginStop s c { g with haltSeen := true } := by
    unfold haltChan
    rw [headSeg_cons hq, hr]
  have hother : haltChan s d = s := haltChan_idle hds
  have hafter : haltChan (beginStop s c { g with haltSeen := true }) d = beginStop s c { g with haltSeen := true } :=
    haltChan_idle (by unfold beginStop; rw [setChan_other _ _ _ _ hd]; exact hds)
  rw [haltAll_reaches]
  cases c <;> cases d
  · exact absurd rfl hd
  · rw [if_pos hnamed, hstop, hafter, ite_self]
  · rw [hother, ite_self, if_pos hnamed, hstop]
  · exact absurd rfl hd

/-- The change meets its failure, and keeps its state until the channel has stopped. -/
theorem haltAll_fails (cs : List ChanId) (hheld : s.change.heldSeen = false) (hdq : (chan s d).queue = []) :
    (chan (haltAll s cs) c).state = .stopping ∧ (haltAll s cs).change.failing = some .halted ∧
      (haltAll s cs).change.lastFailure = some .halted ∧ (haltAll s cs).change.state = s.change.state := by
  have hmoving := haltAll_moving hrun hf hd hq hr ho hds cs
  have hchange : (beginStop s c { g with haltSeen := true }).change = s.change := setChan_change _ _ _
  have hsame : chan (beginStop s c { g with haltSeen := true }) c = _ := setChan_same _ _ _
  have hother : chan (beginStop s c { g with haltSeen := true }) d = _ := setChan_other _ _ _ _ hd
  generalize beginStop s c { g with haltSeen := true } = v at *
  have hstate : (chan v c).state = .stopping := by rw [hsame]
  have hqueue : (chan v c).queue = [{ g with haltSeen := true }] := by rw [hsame]
  have hhalt : changeHalt v = meetFailure (abandonByState v) .halted :=
    changeHalt_stopping hd hqueue ho (by rw [hother]; exact hdq) hstate (by rw [hchange]; exact hrun)
      (by rw [hchange]; exact hf) (by rw [hchange]; exact hheld)
  have hchan : ∀ x, chan (meetFailure (abandonByState v) .halted) x = chan v x := fun x =>
    ((meetFailure_noChan _ _).chan x).trans ((abandonByState_calm v).chan x)
  have hmoves : movingState (chan (meetFailure (abandonByState v) .halted) c).state = true := by
    rw [hchan, hstate]
    rfl
  rw [hmoving, hhalt, chooseLead_moving (by cases c; exacts [.inl hmoves, .inr hmoves])]
  refine ⟨by rw [hchan]; exact hstate, rfl, rfl, ?_⟩
  show (abandonByState v).change.state = s.change.state
  rw [(abandonByState_calm v).change, hchange]

end

section
variable {u : Station} (src : Nat) (tag : Code) {sel : Nat}

theorem requestHalt_refused (h : sel = 0 ∨ 4 ≤ sel) : Says.refused u (requestHalt (takeRequest u) src tag sel) src tag 5 5 := by
  have hfails : firstFailing [(!(selected sel).isEmpty, Reason.badArg)] = some .badArg := by rw [selected_nil h]; rfl
  rw [requestHalt, decide_some hfails]
  exact refuse_refused u src tag 5 .badArg

theorem requestHalt_accepted (h1 : 1 ≤ sel) (h2 : sel ≤ 3) :
    requestHalt (takeRequest u) src tag sel = accept (haltAll (takeRequest u) (selected sel)) src tag 5 0 :=
  decide_none (by rw [selected_ne h1 h2]; rfl)

end

/-! ### CLEAR on its channels (R84) -/

theorem clearChan_left {s : Station} {c : ChanId}
    (h : ¬ ((chan s c).state = .halted ∨ ((chan s c).state = .stalled ∧ channelFault s c = false))) : clearChan s c = s := by
  unfold clearChan
  split
  next hs => exact absurd (.inl hs) h
  next hs =>
    cases hf : channelFault s c
    · exact absurd (.inr ⟨hs, hf⟩) h
    · rfl
  next => rfl

/-- What a CLEAR makes of a channel depends on that channel and its drive faults. -/
theorem clearChan_cong {s v : Station} {c : ChanId} (hchan : chan v c = chan s c) (hfault : channelFault v c = channelFault s c) :
    chan (clearChan v c) c = chan (clearChan s c) c := by
  by_cases h : (chan s c).state = .halted ∨ ((chan s c).state = .stalled ∧ channelFault s c = false)
  · rw [clearChan_same s c h, clearChan_same v c (by rw [hchan, hfault]; exact h)]
  · rw [clearChan_left h, clearChan_left (by rw [hchan, hfault]; exact h), hchan]

/-- The station as a CLEAR leaves it before the answer. -/
def cleared (s : Station) (cs : List ChanId) : Station := chooseLead (cs.foldl clearChan s)

section
variable (s : Station) (cs : List ChanId) {c : ChanId}

theorem cleared_works : Works s (cleared s cs) := (foldl_works _ clearChan_works _ _).trans (chooseLead_works _)

theorem foldl_clearChan_change : (cs.foldl clearChan s).change = s.change := by
  induction cs generalizing s with
  | nil => rfl
  | cons a r ih => exact (ih _).trans (clearChan_change s a)

theorem foldl_clearChan_other (hc : c ∉ cs) : chan (cs.foldl clearChan s) c = chan s c := by
  induction cs generalizing s with
  | nil => rfl
  | cons a r ih =>
    rw [List.mem_cons, not_or] at hc
    obtain ⟨hne, hr⟩ := hc
    exact (ih _ hr).trans (clearChan_other s a c hne)

theorem foldl_clearChan_same (hd : cs.Nodup) (hc : c ∈ cs) : chan (cs.foldl clearChan s) c = chan (clearChan s c) c := by
  induction cs generalizing s with
  | nil => cases hc
  | cons a r ih =>
    obtain ⟨har, hr⟩ := List.nodup_cons.mp hd
    by_cases hca : c = a
    · subst hca
      exact foldl_clearChan_other _ r har
    · have hother := clearChan_other s a c hca
      exact (ih _ hr ((List.mem_cons.mp hc).resolve_left hca)).trans
        (clearChan_cong hother (channelFault_works (clearChan_works s a) c))

/-- A channel cleared or left as it was leads no segment into motion. -/
theorem cleared_chan (hidle : s.change.state = .idle) (hd : cs.Nodup) (hc : c ∈ cs) (hst : (chan (clearChan s c) c).state ≠ .waitTurn) :
    chan (cleared s cs) c = chan (clearChan s c) c := by
  have hsame := foldl_clearChan_same s cs hd hc
  unfold cleared
  rw [chooseLead_chan (by rw [foldl_clearChan_change]; exact hidle) (by rw [hsame]; exact hst), hsame]

end

/-! ### The request CLEAR -/

theorem selected_nodup (sel : Nat) : (selected sel).Nodup := by
  unfold selected
  split <;> decide

section
variable {u : Station} (src : Nat) (tag : Code) {sel : Nat}

theorem requestClear_fails {r : Reason}
    (h : firstFailing [(!u.request.restartPending, .busy), (!(selected sel).isEmpty, .badArg), (!changeRuns u, .busy)] = some r) :
    Says.refused u (requestClear (takeRequest u) src tag sel) src tag 6 (reasonNumber r) := by
  have hrefuse : requestClear (takeRequest u) src tag sel = refuse (takeRequest u) src tag 6 r := by
    unfold requestClear
    have h' : firstFailing [(!(takeRequest u).request.restartPending, Reason.busy), (!(selected sel).isEmpty, .badArg),
      (!changeRuns (takeRequest u), .busy)] = some r := h
    rw [h']
  rw [hrefuse]
  exact refuse_refused u src tag 6 r

/-- A CLEAR that passes its checks is answered as the channels it named allow. -/
theorem requestClear_passes (hr : u.request.restartPending = false) (h1 : 1 ≤ sel) (h2 : sel ≤ 3) (hidle : u.change.state = .idle) :
    requestClear (takeRequest u) src tag sel =
      if (selected sel).any (clearRefused u) = true then refuse (cleared (takeRequest u) (selected sel)) src tag 6 .busy
      else accept (cleared (takeRequest u) (selected sel)) src tag 6 0 := by
  have hnone : firstFailing [(!(takeRequest u).request.restartPending, Reason.busy), (!(selected sel).isEmpty, .badArg),
      (!changeRuns (takeRequest u), .busy)] = none := by
    simp [firstFailing, hr, selected_ne h1 h2, changeRuns, hidle]
  have hrefused : clearRefused (takeRequest u) = clearRefused u := funext fun c => by cases c <;> rfl
  unfold requestClear
  rw [hnone, hrefused]
  rfl

end

/-! ### What the statement says of each -/

section
variable {u t : Station} {src : Nat} {tag : Code} {sel : Nat}

/-- A HALT accepted while no change runs. -/
theorem halt_idle (ht : t = accept (haltAll (takeRequest u) (selected sel)) src tag 5 0) (hidle : u.change.state = .idle) :
    (u.change.failing = none → t.change = u.change) ∧
      (∀ c ∈ selected sel,
        (∀ g r, (chan u c).queue = g :: r → (chan u c).state = .running →
          (chan t c).state = .stopping ∧ (chan t c).queue = [{ g with haltSeen := true }]) ∧
        (∀ g r, (chan u c).queue = g :: r → fromSequencer g = false → waitingState (chan u c).state = true →
          (chan t c).state = .halted ∧ (chan t c).queue = []) ∧
        ((chan u c).state ≠ .running → waitingState (chan u c).state = false → chan t c = chan u c)) ∧
      (∀ c, c ∉ selected sel → movingState (chan u c).state = true → chan t c = chan u c) := by
  have hidle' : (takeRequest u).change.state = .idle := hidle
  have hchan : ∀ c, chan t c = chan (haltAll (takeRequest u) (selected sel)) c := fun c => by rw [ht, accept_chan]
  simp only [hchan, ← takeRequest_chan u]
  refine ⟨fun hf => ?_, fun c hc => ⟨fun g r => haltAll_running hidle' hc, fun g r => haltAll_waiting hidle' hc, haltAll_still hidle' hc⟩,
    fun c => haltAll_spares hidle'⟩
  rw [ht, accept, change_answer, haltAll_change hidle' hf, change_takeRequest]

/-- A HALT accepted while a change runs on an idle station. -/
theorem halt_change (ht : t = accept (haltAll (takeRequest u) (selected sel)) src tag 5 0) (hrun : u.change.state ≠ .idle)
    (hf : u.change.failing = none) (h : Says.allIdle u) :
    (u.change.heldSeen = true → t.change = { u.change with haltOwed := true } ∧ t.motion = u.motion) ∧
      (u.change.heldSeen = false → t.change.state = .idle ∧ t.change.lastFailure = some .halted ∧
        t.request.nextEvent = (u.request.nextEvent + 1) % 65536) := by
  rw [ht, accept, change_answer, motion_answer, request_answer]
  refine ⟨fun hheld => ?_, haltAll_ends (s := takeRequest u) hrun hf (selected sel) h⟩
  rw [haltAll_owed (s := takeRequest u) hrun hf (selected sel) h hheld]
  exact ⟨rfl, rfl⟩

/-- A HALT accepted while a segment of a change runs. -/
theorem halt_moving (ht : t = accept (haltAll (takeRequest u) (selected sel)) src tag 5 0) (hrun : u.change.state ≠ .idle)
    (hf : u.change.failing = none) (hheld : u.change.heldSeen = false) {c d : ChanId} {g : Segment} (hd : d ≠ c)
    (hq : (chan u c).queue = [g]) (hr : (chan u c).state = .running) (ho : fromSequencer g = true) (hds : (chan u d).state = .idle)
    (hdq : (chan u d).queue = []) : (chan t c).state = .stopping ∧ t.change.failing = some .halted ∧
      t.change.lastFailure = some .halted ∧ t.change.state = u.change.state := by
  rw [← takeRequest_chan u] at hq hr hds hdq
  rw [ht, accept_chan, accept, change_answer]
  exact haltAll_fails (s := takeRequest u) hrun hf hd hq hr ho hds (selected sel) hheld hdq

/-- A CLEAR that passes its checks: each channel named is freed or refuses, and the answer says whether one refused. -/
theorem clear_passes (ht : t = requestClear (takeRequest u) src tag sel) (hr : u.request.restartPending = false) (h1 : 1 ≤ sel) (h2 : sel ≤ 3)
    (hidle : u.change.state = .idle) : Says.unitsKeep u t ∧
      (∀ c ∈ selected sel,
        ((chan u c).state = .halted ∨ ((chan u c).state = .stalled ∧ channelFault u c = false) → chan t c = ⟨.idle, [], none⟩) ∧
        ((chan u c).state = .stopping ∨ ((chan u c).state = .stalled ∧ channelFault u c = true) →
          chan t c = chan u c ∧ Says.answered u t src ⟨tag, 6, false, 3, 0, []⟩)) ∧
      ((∀ c ∈ selected sel, clearRefused u c = false) → Says.answered u t src ⟨tag, 6, true, 0, 0, []⟩) := by
  rw [requestClear_passes src tag hr h1 h2 hidle] at ht
  have hworks := cleared_works (takeRequest u) (selected sel)
  have hchan : ∀ c, chan t c = chan (cleared (takeRequest u) (selected sel)) c := fun c => by
    rw [ht]
    split <;> exact answer_chan _ _ _ _
  have hnamed : ∀ c ∈ selected sel, (chan (clearChan (takeRequest u) c) c).state ≠ .waitTurn →
      chan t c = chan (clearChan (takeRequest u) c) c := fun c hc hst =>
    (hchan c).trans (cleared_chan _ _ hidle (selected_nodup sel) hc hst)
  refine ⟨?_, fun c hc => ⟨fun h => ?_, fun h => ⟨?_, ?_⟩⟩, fun h => ?_⟩
  · rw [ht]
    split <;> exact answer_unitsKeep hworks _ _
  · have hfree := clearChan_same (takeRequest u) c (by rw [takeRequest_chan]; exact h)
    rw [hnamed c hc (by rw [hfree]; exact nofun), hfree]
  · have hleft := clearChan_refused (takeRequest u) c (by rw [takeRequest_chan]; exact h)
    have hturn : (chan u c).state ≠ .waitTurn := fun hw => by simp [hw] at h
    rw [hnamed c hc (by rw [hleft, takeRequest_chan]; exact hturn), hleft, takeRequest_chan]
  · have hrefused : clearRefused u c = true := by
      unfold clearRefused
      rcases h with h | ⟨h, hfault⟩ <;> rw [h]
      exact hfault
    rw [ht, if_pos (List.any_eq_true.mpr ⟨c, hc, hrefused⟩)]
    exact answer_answered hworks.delivered hworks.line.reserved src _
  · have hnone : ¬ (selected sel).any (clearRefused u) = true := fun hany => by
      obtain ⟨c, hc, hrefused⟩ := List.any_eq_true.mp hany
      rw [h c hc] at hrefused
      cases hrefused
    rw [ht, if_neg hnone]
    exact answer_answered hworks.delivered hworks.line.reserved src _

end

/-! ### The statement -/

/-- Settles O51: HALT and CLEAR are refused by their checks, and accepted do what the case of the channels and the change says. -/
theorem haltAndClear : Obligations.HaltAndClear := by
  unfold Obligations.HaltAndClear
  refine ⟨?halt, ?clear⟩
  case halt =>
    intro src tag sel enc s u hu hask
    have heffect : effect (.halt src tag sel enc) s.stn = requestHalt (takeRequest u) src tag sel := by
      subst hu
      exact if_pos (asks_isNext hask)
    refine ⟨_, exec_effect _ s, rfl, ?_⟩
    simp only [heffect]
    refine ⟨requestHalt_refused src tag, fun h1 h2 => ?_⟩
    have ht := requestHalt_accepted (u := u) src tag h1 h2
    obtain ⟨hanswered, hunits⟩ := accept_answered (haltAll_works (takeRequest u) (selected sel)) src tag 5 0
    rw [← ht] at hanswered hunits
    exact ⟨hanswered, hunits, halt_idle ht, halt_change ht, fun hrun hf hheld c d g => halt_moving ht hrun hf hheld⟩
  case clear =>
    intro src tag sel enc s u hu hask
    have heffect : effect (.clear src tag sel enc) s.stn = requestClear (takeRequest u) src tag sel := by
      subst hu
      exact if_pos (asks_isNext hask)
    refine ⟨_, exec_effect _ s, rfl, ?_⟩
    simp only [heffect]
    refine ⟨fun hr => requestClear_fails src tag (r := .busy) ?_, fun hr h => requestClear_fails src tag (r := .badArg) ?_,
      fun hr h1 h2 hrun => requestClear_fails src tag (r := .busy) ?_, fun hr h1 h2 hidle => clear_passes rfl hr h1 h2 hidle⟩
    · simp [firstFailing, hr]
    · simp [firstFailing, hr, selected_nil h]
    · simp [firstFailing, hr, selected_ne h1 h2, changeRuns, hrun]

end Sys2Proof.CellMotion
end

section
/-! THERMAL on the tables (R98 to R104, R136): the entries of its sender on the board, the counted set, and the stale check of the probe on
the sender. -/

namespace Sys2Proof.CellBoard

open Sys2Proof Sys2Proof.Machine Sys2Proof.Laws
open Sys2Proof.CellJoin (completeFrame_passed counted_of_live)

/-! ### The board (R99) -/

section
variable {lc k : Nat} {es : List ThermEntry} {b : List BoardEntry} {e : BoardEntry}

/-- What the format of a THERMAL gives its entries: at most one for each of the inputs 1 to 8 (R177). -/
theorem thermal_inputs {c : CellPart} {h : Hdr} (hg : formatGood c ⟨h, .thermal es⟩ = true) :
    (es.map (·.input)).Nodup ∧ ∀ x ∈ es, 1 ≤ x.input ∧ x.input ≤ 8 := by
  have hbody : bodyGood c (.thermal es) = true := body_good hg
  simp only [bodyGood, Bool.and_eq_true, decide_eq_true_eq, List.all_eq_true] at hbody
  obtain ⟨⟨-, hnodup⟩, hrange⟩ := hbody
  exact ⟨hnodup, hrange⟩

theorem mem_placeThermal :
    e ∈ placeThermal lc k es b ↔ (e ∈ b ∧ e.station < k) ∨ e ∈ boardEntries lc k es ∨ (e ∈ b ∧ k < e.station) := by
  simp [placeThermal]

theorem boardEntries_station (h : e ∈ boardEntries lc k es) : e.station = k := by
  obtain ⟨i, -, hi⟩ := List.mem_flatMap.mp h
  obtain ⟨hk, -⟩ := mem_boardEntry hi
  exact hk

theorem mem_placeThermal_other (h : e.station ≠ k) : e ∈ placeThermal lc k es b ↔ e ∈ b := by
  have hnone : e ∉ boardEntries lc k es := fun he => h (boardEntries_station he)
  rw [mem_placeThermal, iff_false_intro hnone, false_or, ← and_or_left, and_iff_left (Nat.lt_or_gt_of_ne h)]

theorem mem_placeThermal_sender (hn : (es.map (·.input)).Nodup) (hr : ∀ x ∈ es, 1 ≤ x.input ∧ x.input ≤ 8) (h : e.station = k) :
    e ∈ placeThermal lc k es b ↔ ∃ x ∈ es, e = ⟨k, x.input, x.kind, x.value, x.state, false, lc⟩ := by
  rw [mem_placeThermal, ← boardEntries_mem lc k es hn hr, h]
  simp

/-- The one entry of a kind that a THERMAL brings is what the board then shows for its sender. -/
theorem boardKind_placed {r : Replica} {kind : ThermKind} {x : ThermEntry} (hn : (es.map (·.input)).Nodup)
    (hr : ∀ x ∈ es, 1 ≤ x.input ∧ x.input ≤ 8) (hb : r.board = placeThermal lc k es b) (hx : x ∈ es) (hkind : x.kind = kind)
    (honly : ∀ y ∈ es, y.kind = kind → y = x) : boardKind r k kind = some ⟨k, x.input, x.kind, x.value, x.state, false, lc⟩ := by
  have hplaced : (⟨k, x.input, x.kind, x.value, x.state, false, lc⟩ : BoardEntry) ∈ r.board := by
    rw [hb]
    exact (mem_placeThermal_sender hn hr rfl).mpr ⟨x, hx, rfl⟩
  cases hfind : boardKind r k kind with
  | none =>
    have hno := List.find?_eq_none.mp hfind _ hplaced
    simp [hkind] at hno
  | some e =>
    have hp := List.find?_some hfind
    simp only [Bool.and_eq_true, beq_iff_eq] at hp
    obtain ⟨hstation, hk⟩ := hp
    have hmem := List.mem_of_find?_eq_some hfind
    rw [hb, mem_placeThermal_sender hn hr hstation] at hmem
    obtain ⟨y, hy, rfl⟩ := hmem
    rw [honly y hy hk]

end

/-! ### The counted set (R102) -/

theorem rosterState_eq (r : Replica) (k : Nat) : rosterState r k = (rosterEntry r k).state := rfl

theorem partValues_eq (r : Replica) : Says.partValues r = Machine.counted r := by
  unfold Says.partValues Machine.counted
  congr 1
  refine List.filter_congr fun e _ => ?_
  rw [Bool.eq_iff_iff]
  simp [rosterState_eq, and_assoc]

section
variable {r a : Replica} {c : CellPart} (h : r = derive c a)
include h

theorem partTemp_derived :
    r.partTemp = if Says.partValues r = [] then none else some (meanRound (Says.partValues r)) := by
  subst h
  rw [partValues_eq, derive_partTemp]
  exact if_congr List.isEmpty_iff rfl rfl

theorem gradient_derived :
    r.gradient = true ↔ ∃ u ∈ Says.partValues r, ∃ v ∈ Says.partValues r, (c.gradient : Int) < u - v := by
  subst h
  rw [partValues_eq, derive_gradient]
  exact spreads_iff _ _

end

/-! ### The stale check of one record (R136) -/

section
variable {c : CellPart} {b : BoardEntry} {e : ProbeRec} {q : Int}

theorem checkStale_invalid (hv : b.state ≠ .valid) : checkStale c (some b) e = e := by
  unfold checkStale
  cases e.qualTemp with
  | none => rfl
  | some q => exact if_neg hv

variable (hq : e.qualTemp = some q) (hv : b.state = .valid)
include hq hv

theorem checkStale_within (hin : (b.value - q).natAbs ≤ c.staleBand) : checkStale c (some b) e = { e with staleRun := 0 } := by
  simp [checkStale, hq, hv, hin]

theorem checkStale_outside (hout : c.staleBand < (b.value - q).natAbs) (hrun : e.staleRun < 2) :
    checkStale c (some b) e = { e with staleRun := e.staleRun + 1 } := by
  simp [checkStale, hq, hv, Nat.not_le.mpr hout, Config.staleRuns, show ¬ 2 ≤ e.staleRun by omega]

theorem checkStale_third (hout : c.staleBand < (b.value - q).natAbs) (hrun : 2 ≤ e.staleRun) :
    checkStale c (some b) e = { turnStale e with staleRun := 0 } := by
  simp [checkStale, hq, hv, Nat.not_le.mpr hout, Config.staleRuns, hrun]

end

theorem turnStale_tips (e : ProbeRec) : ∀ g ∈ (turnStale e).tips, g.stale = true := by
  intro g hg
  obtain ⟨t, -, rfl⟩ := List.mem_map.mp hg
  rfl

/-! ### The stale check on the tables (R100, R136) -/

theorem mountedOn_some {r : Replica} {k x : Nat} (h : mountedOn r k = some x) :
    1 ≤ x ∧ x ≤ 24 ∧ (probeRec r x).custody = .station k := by
  obtain ⟨i, hi, rfl⟩ := List.mem_map.mp (List.mem_of_find?_eq_some h)
  rw [List.mem_range] at hi
  exact ⟨by omega, by omega, beq_iff_eq.mp (List.find?_some h :)⟩

theorem mountedOn_congr {r t : Replica} (h : t.probes = r.probes) (k : Nat) : mountedOn t k = mountedOn r k := by
  unfold mountedOn probeRec
  rw [h]

theorem probeRec_congr {r t : Replica} (h : t.probes = r.probes) (x : Nat) : probeRec t x = probeRec r x := by
  unfold probeRec
  rw [h]

theorem stampProbe_same (r : Replica) (lc x : Nat) : stampProbe r lc x (probeRec r x) = r := if_pos rfl

theorem stampProbe_rest (r : Replica) (lc x : Nat) (e : ProbeRec) :
    stampProbe r lc x e = { r with probes := (stampProbe r lc x e).probes } := by
  unfold stampProbe
  simp only
  split <;> rfl

/-- A record written by `stampProbe` differs from the one given in its stamp alone. -/
theorem stampProbe_written {r : Replica} {x : Nat} (h1 : 1 ≤ x) (h2 : x ≤ r.probes.length) (lc : Nat) (e : ProbeRec) :
    ∃ st, probeRec (stampProbe r lc x e) x = { e with stamp := st } := by
  obtain ⟨-, hx, -⟩ := stampProbe_rec r lc x e h1 h2
  rw [hx]
  split
  next hsame => exact ⟨_, hsame.symm⟩
  next => exact ⟨lc, rfl⟩

section
variable {c : CellPart} {lc k : Nat} {r : Replica}

theorem staleCheck_none (h : mountedOn r k = none) : staleCheck c lc k r = r := by
  unfold staleCheck
  rw [h]

theorem staleCheck_some {x : Nat} (h : mountedOn r k = some x) :
    staleCheck c lc k r = stampProbe r lc x (checkStale c (boardKind r k .head) (probeRec r x)) := by
  unfold staleCheck
  rw [h]

/-- The stale check changes the probe records alone. -/
theorem staleCheck_rest : staleCheck c lc k r = { r with probes := (staleCheck c lc k r).probes } := by
  cases hm : mountedOn r k with
  | none => rw [staleCheck_none hm]
  | some x => rw [staleCheck_some hm, stampProbe_rest]

theorem staleCheck_other (hsize : r.probes.length = 24) {y : Nat} (hy : (probeRec r y).custody ≠ .station k) :
    probeRec (staleCheck c lc k r) y = probeRec r y := by
  cases hm : mountedOn r k with
  | none => rw [staleCheck_none hm]
  | some x =>
    obtain ⟨h1, h2, hx⟩ := mountedOn_some hm
    rw [staleCheck_some hm]
    obtain ⟨hother, -⟩ := stampProbe_rec r lc x (checkStale c (boardKind r k .head) (probeRec r x)) h1 (hsize ▸ h2)
    exact hother y fun hyx => hy (hyx ▸ hx)

end

/-- The record of a probe qualified at `q`, judged against the head temperature `b` of its station: what R136 makes of its run and its tip
entries. -/
def StaleJudged (c : CellPart) (b : BoardEntry) (q : Int) (old new : ProbeRec) : Prop :=
  (b.state ≠ .valid → new = old) ∧
  (b.state = .valid → (b.value - q).natAbs ≤ c.staleBand → new.staleRun = 0 ∧ new.tips = old.tips) ∧
  (b.state = .valid → c.staleBand < (b.value - q).natAbs → old.staleRun < 2 →
    new.staleRun = old.staleRun + 1 ∧ new.tips = old.tips) ∧
  (b.state = .valid → c.staleBand < (b.value - q).natAbs → 2 ≤ old.staleRun →
    new.staleRun = 0 ∧ ∀ g ∈ new.tips, g.stale = true)

theorem staleCheck_judged {c : CellPart} {k x : Nat} {r : Replica} {b : BoardEntry} {q : Int} (lc : Nat) (hsize : r.probes.length = 24)
    (hm : mountedOn r k = some x) (hq : (probeRec r x).qualTemp = some q) (hb : boardKind r k .head = some b) :
    StaleJudged c b q (probeRec r x) (probeRec (staleCheck c lc k r) x) := by
  obtain ⟨h1, h2, -⟩ := mountedOn_some hm
  obtain ⟨st, hwritten⟩ := stampProbe_written h1 (hsize ▸ h2) lc (checkStale c (some b) (probeRec r x))
  rw [staleCheck_some hm, hb]
  refine ⟨fun hv => ?invalid, fun hv hin => ?within, fun hv hout hrun => ?rises, fun hv hout hrun => ?third⟩
  case invalid => rw [checkStale_invalid hv, stampProbe_same]
  case within =>
    rw [hwritten, checkStale_within hq hv hin]
    exact ⟨rfl, rfl⟩
  case rises =>
    rw [hwritten, checkStale_outside hq hv hout hrun]
    exact ⟨rfl, rfl⟩
  case third =>
    rw [hwritten, checkStale_third hq hv hout hrun]
    exact ⟨rfl, turnStale_tips _⟩

/-! ### The frame on the tables (R22, R99, R104) -/

/-- The replica with the board of a THERMAL of station `k`, before the stale check. -/
def withThermal (lc k : Nat) (es : List ThermEntry) (r : Replica) : Replica := { r with board := placeThermal lc k es r.board }

theorem applyKind_thermal (c : CellPart) (lc k dest : Nat) (heard : Bool) (es : List ThermEntry) (r : Replica) :
    applyKind c lc k heard dest (.thermal es) r = (staleCheck c lc k (withThermal lc k es r), Fx.plain) := rfl

/-- A THERMAL of a sender that passes the roster step: the roster follows its header, its entries are placed, the probe on its sender is
checked, and the derived values follow; `r` is the replica after the roster step. -/
structure ThermalApplied (s t : Station) (h : Hdr) (es : List ThermEntry) (n : Nat) (r : Replica) : Prop where
  counted : Says.counted s t h n
  passed : Passed (cellOf s) (n + 1) h (tabs s) r
  tables : tabs t = derive (cellOf s) (staleCheck (cellOf s) (n + 1) h.sender (withThermal (n + 1) h.sender es r))

theorem completeFrame_thermal {s : Station} {h : Hdr} {es : List ThermEntry} {n : Nat} (ht : Says.takes s ⟨h, .thermal es⟩ n)
    (ha : Says.passes s h) :
    ∃ r, ThermalApplied s (completeFrame s ⟨h, .thermal es⟩) h es n r := by
  obtain ⟨r, hr, hlive⟩ := completeFrame_passed ht rfl rfl ha
  obtain ⟨hl, htabs⟩ := hlive rfl
  rw [applyKind_thermal] at htabs
  exact ⟨r, counted_of_live hl, hr, htabs⟩

namespace ThermalApplied

variable {s t : Station} {h : Hdr} {es : List ThermEntry} {n : Nat} {r : Replica} (ht : ThermalApplied s t h es n r)
include ht

theorem board : (tabs t).board = placeThermal (n + 1) h.sender es (tabs s).board := by
  rw [ht.tables, derive_board, staleCheck_rest, ht.passed.rest]
  rfl

theorem probe (x : Nat) :
    probeRec (tabs t) x = probeRec (staleCheck (cellOf s) (n + 1) h.sender (withThermal (n + 1) h.sender es r)) x := by
  rw [ht.tables, pr_derive]

/-- The probe records that the stale check finds are those before the frame. -/
theorem probesBefore : (withThermal (n + 1) h.sender es r).probes = (tabs s).probes := by
  rw [ht.passed.rest]
  rfl

theorem rosterFollows : Says.rosterFollows s t h n := by
  have hentry : ∀ j, rosterEntry (tabs t) j = rosterEntry r j := fun j => by
    rw [ht.tables, staleCheck_rest]
    rfl
  refine ⟨?_, fun j hj => (hentry j).trans (ht.passed.others j hj), fun hm hst => (hentry _).trans (ht.passed.flagged hm hst),
    fun hn => (hentry _).trans (ht.passed.unflagged hn)⟩
  rw [ht.tables, staleCheck_rest, ht.passed.rest]
  rfl

theorem tablesStay : Says.zonesStay s t ∧ Says.portsStay s t ∧ Says.latchesStay s t := by
  unfold Says.zonesStay Says.portsStay Says.latchesStay
  rw [ht.tables, staleCheck_rest, ht.passed.rest]
  exact ⟨⟨rfl, rfl⟩, rfl, rfl⟩

variable (hsize : (tabs s).probes.length = 24)
include hsize

/-- A probe that is not on the sender keeps its record. -/
theorem otherProbes {y : Nat} (hy : (probeRec (tabs s) y).custody ≠ .station h.sender) : probeRec (tabs t) y = probeRec (tabs s) y := by
  have hbefore := ht.probesBefore
  rw [ht.probe, staleCheck_other (by rw [hbefore, hsize]) (by rwa [probeRec_congr hbefore]), probeRec_congr hbefore]

/-- The probe on the sender is judged against the head temperature that the frame brings (R100, R136). -/
theorem judged {x : Nat} {q : Int} {e : ThermEntry} (hn : (es.map (·.input)).Nodup) (hr : ∀ y ∈ es, 1 ≤ y.input ∧ y.input ≤ 8)
    (hm : mountedOn (tabs s) h.sender = some x) (hq : (probeRec (tabs s) x).qualTemp = some q) (he : e ∈ es) (hkind : e.kind = .head)
    (honly : ∀ y ∈ es, y.kind = .head → y = e) :
    StaleJudged (cellOf s) ⟨h.sender, e.input, e.kind, e.value, e.state, false, n + 1⟩ q (probeRec (tabs s) x) (probeRec (tabs t) x) := by
  have hbefore := ht.probesBefore
  have hhead : boardKind (withThermal (n + 1) h.sender es r) h.sender .head = _ := boardKind_placed hn hr rfl he hkind honly
  have hjudged := staleCheck_judged (c := cellOf s) (x := x) (q := q) (n + 1) (by rw [hbefore, hsize])
    (by rw [mountedOn_congr hbefore, hm]) (by rw [probeRec_congr hbefore, hq]) hhead
  rwa [probeRec_congr hbefore, ← ht.probe] at hjudged

end ThermalApplied

end Sys2Proof.CellBoard
end

section
/-! THERMAL on the point list (R100, R147): no unit that reacts before the Touch Capture Unit takes a PENDING point away, and an own
THERMAL closes those captured before it. -/

namespace Sys2Proof.CellBoard

open Sys2Proof Sys2Proof.Machine Sys2Proof.Laws
open Sys2Proof.CellLine (effect exec_effect releaseOwn_foreign releaseOwn_done)
open Sys2Proof.CellJoin (closePoints_closed closePoints_pending effect_serving)

/-! ### PENDING points -/

/-- The same points are PENDING. -/
def PendingKept (s t : Station) : Prop := ∀ d, PointEntry.pending d ∈ t.touch.points ↔ PointEntry.pending d ∈ s.touch.points

section
variable {s t u : Station}

theorem PendingKept.refl (s : Station) : PendingKept s s := fun _ => Iff.rfl

theorem PendingKept.trans (h : PendingKept s t) (k : PendingKept t u) : PendingKept s u := fun d => (k d).trans (h d)

theorem pendingKept_touch (h : t.touch = s.touch) : PendingKept s t := fun _ => by rw [h]

theorem pendingKept_calm (h : Calm s t) : PendingKept s t := pendingKept_touch h.touch

end

theorem updFirst_pending {p : PointEntry → Bool} {v : PointEntry} (hp : ∀ d, p (.pending d) = false) (hv : ∀ d, .pending d ≠ v)
    (l : List PointEntry) (d : PointData) : PointEntry.pending d ∈ updFirst p v l ↔ PointEntry.pending d ∈ l := by
  induction l with
  | nil => rfl
  | cons e r ih =>
    unfold updFirst
    split
    next he =>
      have hne : .pending d ≠ e := by
        rintro rfl
        exact Bool.false_ne_true ((hp d).symm.trans he)
      simp [hv d, hne]
    next => simp [ih]

theorem returnEntry_pending (s : Station) : PendingKept s (returnEntry s) :=
  updFirst_pending (fun _ => rfl) (fun _ => PointEntry.noConfusion) _

theorem returnCredit_pending (s : Station) (g : Option Segment) : PendingKept s (returnCredit s g) := by
  unfold returnCredit
  split
  · exact PendingKept.refl s
  · split
    · exact returnEntry_pending s
    · exact PendingKept.refl s

/-! ### A change that the application makes fail (R128) -/

theorem haltQuiet_pending (s : Station) (c : ChanId) : PendingKept s (haltQuiet s c) :=
  (pendingKept_touch (touch_setChan _ _ _)).trans ((returnCredit_pending _ _).trans (pendingKept_calm (tidyMoment_calm _ _)))

theorem stopSequencer_pending (s : Station) (c : ChanId) : PendingKept s (stopSequencer s c) := by
  unfold stopSequencer
  split
  · exact PendingKept.refl s
  · split
    · split
      · split
        · exact PendingKept.refl s
        · exact pendingKept_touch (touch_setChan _ _ _)
      · exact PendingKept.refl s
      · exact haltQuiet_pending s c
    · exact PendingKept.refl s

theorem stopBoth_pending (s : Station) : PendingKept s (stopBoth s) := (stopSequencer_pending s _).trans (stopSequencer_pending _ _)

theorem endFailure_pending (s : Station) : PendingKept s (endFailure s) := by
  unfold endFailure
  split
  · exact PendingKept.refl s
  · split
    · exact PendingKept.refl s
    · exact pendingKept_touch ((giveEvent_touch _ _).trans (tidyMoment_calm _ _).touch)

theorem failByRack_pending (s : Station) (cause : ChangeCause) : PendingKept s (failByRack s cause) := by
  unfold failByRack
  split
  · have hstopped : PendingKept s (stopBoth (meetFailure (abandonHeld s) cause)) :=
      (pendingKept_calm (abandonHeld_calm s)).trans ((pendingKept_touch (touch_meetFailure _ _)).trans (stopBoth_pending _))
    refine PendingKept.trans ?_ (endFailure_pending _)
    split
    · exact hstopped.trans (pendingKept_calm (reportMount_calm _ _))
    · exact hstopped
  · exact PendingKept.refl s

theorem enterReservePickup_pending (s : Station) : PendingKept s (enterReservePickup s) := by
  refine (pendingKept_touch (touch_enterState s .reservePickup .none)).trans ?_
  unfold enterReservePickup
  simp only
  split
  · exact pendingKept_calm (offerControl_calm _ _ _ _)
  · exact failByRack_pending _ _

theorem judgeDeposit_pending (s : Station) : PendingKept s (judgeDeposit s) := by
  unfold judgeDeposit
  split
  · exact PendingKept.refl s
  · simp only
    split
    · split
      · exact enterReservePickup_pending { s with change := { s.change with confirmWait := none } }
      · exact PendingKept.refl s
    · split
      · exact PendingKept.refl s
      · exact failByRack_pending _ _

theorem watchReservation_pending (s : Station) : PendingKept s (watchReservation s) := by
  unfold watchReservation
  split
  · exact PendingKept.refl s
  · split
    · exact judgeDeposit_pending s
    · split
      · split
        · exact PendingKept.refl s
        · split
          · exact PendingKept.refl s
          · exact failByRack_pending _ _
      · exact PendingKept.refl s

/-! ### The units before the Touch Capture Unit (log 15) -/

theorem foldl_touch {α : Type} {f : Station → α → Station} (hf : ∀ s a, (f s a).touch = s.touch) (l : List α) (s : Station) :
    (l.foldl f s).touch = s.touch := by
  induction l generalizing s with
  | nil => rfl
  | cons a r ih => exact (ih _).trans (hf s a)

theorem reportRack_touch (s : Station) (p : Nat) : (reportRack s p).touch = s.touch := (offerControl_calm _ _ _ _).touch

theorem rackPortApplied_touch (before : Replica) (f : Frame) (took : Bool) (s : Station) (p : Nat) :
    (rackPortApplied before f took s p).touch = s.touch := by
  have branches : ∀ a b c : Bool, (if a = true then reportRack (setLock s p .unlocked) p
      else if b = true then reportRack (setLock s p .locked) p else if c = true then reportRack s p else s).touch = s.touch := by
    intro a b c
    split
    · exact reportRack_touch _ _
    · split
      · exact reportRack_touch _ _
      · split
        · exact reportRack_touch _ _
        · rfl
  exact branches _ _ _

theorem rackApplied_touch (before : Replica) (s : Station) (f : Frame) (took : Bool) : (rackApplied before s f took).touch = s.touch := by
  unfold rackApplied
  split
  · exact foldl_touch (rackPortApplied_touch before f took) _ s
  · rfl

theorem claimIfClear_touch (s : Station) (g : Segment) (m : ZoneMask) : (claimIfClear s g m).touch = s.touch := by
  unfold claimIfClear
  split
  · exact (offerControl_calm { s with motion := { s.motion with claimFor := g.acc } } _ _ _).touch
  · rfl

theorem offerOwed_touch (s : Station) (c : ChanId) : (offerOwed s c).touch = s.touch := by
  unfold offerOwed
  split
  · split
    · rfl
    · exact claimIfClear_touch _ _ _
  · rfl

/-- A frame that withdraws no claim as DEADLOCKED leaves the point list to the Touch Capture Unit (R63). -/
theorem claimApplied_touch {s : Station} {fx : Fx} (hfx : fx.deadlocked = []) (f : Frame) : (claimApplied s f fx).touch = s.touch := by
  have hsettled : (claimSettled s fx).touch = s.touch := by
    unfold claimSettled
    rw [hfx]
    rfl
  unfold claimApplied
  simp only
  split
  · exact ((offerOwed_touch _ _).trans (offerOwed_touch _ _)).trans hsettled
  · rfl

section
variable {f : Frame} {es : List ThermEntry} (hb : f.body = .thermal es)
include hb

theorem changeApplied_thermal_pending (s : Station) (took : Bool) : PendingKept s (changeApplied s f took) := by
  unfold changeApplied
  rw [hb]
  split
  · exact PendingKept.refl s
  · simp only
    split
    · exact watchReservation_pending s
    · exact PendingKept.refl s

theorem mountApplied_thermal (before : Replica) (s : Station) (took : Bool) : mountApplied before s f took = s := by
  unfold mountApplied
  rw [hb]

/-- The reaction to a THERMAL: the station that the Touch Capture Unit finds, and the point list that it leaves (R147, log 15). -/
theorem react_thermal (before : Replica) (s : Station) :
    ∃ v, Reacts s v ∧ PendingKept s v ∧ (react before s f Fx.plain).touch = (closingApplied v f true).touch := by
  refine ⟨_, ?reacts, ?pending, (foldl_touch (fun t x => giveEvent_touch t _) _ _).trans (congrArg Station.touch (mountApplied_thermal hb _ _ _))⟩
  case reacts =>
    exact ((servingApplied_reacts s f Fx.plain).trans (withdrawStale_works _).reacts).trans ((claimApplied_works _ _ _).reacts.trans
      ((rackApplied_reacts _ _ _ _).trans (changeApplied_works _ _ _).reacts))
  case pending =>
    have hserved : (withdrawStale (servingApplied s f Fx.plain)).touch = s.touch :=
      (touch_withdrawWaiting _ _).trans (congrArg Station.touch (servingApplied_eq s f Fx.plain) :)
    have hracked := (rackApplied_touch before _ f true).trans ((claimApplied_touch (fx := Fx.plain) rfl f).trans hserved)
    exact (pendingKept_touch hracked).trans (changeApplied_thermal_pending hb _ true)

end

/-! ### Points closed (R147 to R152) -/

section
variable {s t : Station} (hl : t.loader = s.loader) (ht : tabs t = tabs s)
include hl ht

/-- A correction reads the image, the station number and the tables. -/
theorem corrects_congr {late : Bool} {d : PointData} {k : Correction} (h : Says.corrects s late d k) : Says.corrects t late d k := by
  unfold Says.corrects Says.axisCorrects Says.scaleUnknown declared cellOf ownOf me at h ⊢
  rw [hl, ht]
  exact h

theorem closed_congr {v w : Station} {late : Bool} {d : PointData} (hw : w.touch = v.touch) (h : Says.closed s v late d) :
    Says.closed t w late d := by
  obtain ⟨hnot, k, hk, hcorrects⟩ := h
  unfold Says.closed
  rw [hw]
  exact ⟨hnot, k, hk, corrects_congr hl ht hcorrects⟩

end

section
variable {s : Station} {f : Frame} {es : List ThermEntry} (hb : f.body = .thermal es)
include hb

theorem closingApplied_own (ho : f.h.sender = me s) :
    closingApplied s f true = closePoints s false (fun d => decide (d.count < lineCountOf s)) := by
  unfold closingApplied
  rw [hb]
  exact if_pos ⟨ho, rfl⟩

theorem closingApplied_foreign (ho : f.h.sender ≠ me s) : closingApplied s f true = s := by
  unfold closingApplied
  rw [hb]
  exact if_neg fun hc => ho hc.1

end

/-- The removal of an own THERMAL leaves the point list as it is (R7). -/
theorem releaseOwn_thermal_touch (s : Station) (h : Hdr) (es : List ThermEntry) :
    (releaseOwn s ⟨h, .thermal es⟩).touch = s.touch := by
  cases ho : ownFlight s ⟨h, .thermal es⟩ with
  | false => rw [releaseOwn_foreign ho]
  | true => rw [releaseOwn_done ho (fun _ => Body.noConfusion) rfl]

/-- The station as the Touch Capture Unit finds it when a THERMAL has been applied, and the point list that the frame leaves. -/
theorem completeFrame_thermal_touch {s : Station} {h : Hdr} {es : List ThermEntry} {n : Nat} (ht : Says.takes s ⟨h, .thermal es⟩ n)
    (ha : Says.passes s h) :
    ∃ v, (completeFrame s ⟨h, .thermal es⟩).loader = v.loader ∧ v.loader = s.loader ∧ v.line.lineCount = some (n + 1) ∧
      tabs (completeFrame s ⟨h, .thermal es⟩) = tabs v ∧ PendingKept s v ∧
      (completeFrame s ⟨h, .thermal es⟩).touch = (closingApplied v ⟨h, .thermal es⟩ true).touch := by
  obtain ⟨hs, hv, hg, hl⟩ := ht
  obtain ⟨u, hu, he⟩ := completeFrame_applied hs hv hg rfl hl (Bool.and_false _)
  obtain ⟨r, -, -, hfx⟩ := applyFormed_kind (cellOf s) (n + 1) (namedBy s ⟨h, .thermal es⟩ n) ⟨h, .thermal es⟩ (tabs s) rfl rfl ha
  rw [hfx, applyKind_thermal] at he
  dsimp only at he
  generalize (applyFormed (cellOf s) (n + 1) (namedBy s ⟨h, .thermal es⟩ n) ⟨h, .thermal es⟩ (tabs s)).1 = a at he
  obtain ⟨v, hreacts, hpending, htouch⟩ := react_thermal (f := ⟨h, .thermal es⟩) rfl (tabs s) (setTabs u a)
  have hreact := react_reacts (tabs s) (setTabs u a) ⟨h, .thermal es⟩ Fx.plain
  have hreleased := rel_noans (react (tabs s) (setTabs u a) ⟨h, .thermal es⟩ Fx.plain) ⟨h, .thermal es⟩ fun _ => Body.noConfusion
  refine ⟨v, ?loader, hreacts.loader.trans hu.loader, hreacts.line.lineCount.trans hu.lineCount, ?tables,
    (pendingKept_touch hu.touch).trans hpending, ?touch⟩
  case loader => rw [he, hreleased.loader, hreact.loader, hreacts.loader]
  case tables =>
    rw [he]
    show (releaseOwn _ _).replica.tables = v.replica.tables
    rw [hreleased.replica, hreact.tables, hreacts.tables]
  case touch => rw [he, releaseOwn_thermal_touch, htouch]

/-- A PENDING point after a THERMAL: closed by the station's own where it was captured before the frame, PENDING still where not. -/
theorem completeFrame_thermal_points {s : Station} {h : Hdr} {es : List ThermEntry} {n : Nat} (ht : Says.takes s ⟨h, .thermal es⟩ n)
    (ha : Says.passes s h) {d : PointData} (hd : PointEntry.pending d ∈ s.touch.points) :
    (h.sender = me s → d.count < n + 1 →
      Says.closed (completeFrame s ⟨h, .thermal es⟩) (completeFrame s ⟨h, .thermal es⟩) false d) ∧
    (h.sender ≠ me s ∨ n + 1 ≤ d.count → PointEntry.pending d ∈ (completeFrame s ⟨h, .thermal es⟩).touch.points) := by
  obtain ⟨v, hlive, hloader, hcount, htabs, hpending, htouch⟩ := completeFrame_thermal_touch ht ha
  have hme : me v = me s := by unfold me; rw [hloader]
  have hline : lineCountOf v = n + 1 := by unfold lineCountOf; rw [hcount]; rfl
  have hdv := (hpending d).mpr hd
  refine ⟨fun ho hlt => ?closes, fun hwaits => ?waits⟩
  case closes =>
    refine closed_congr hlive htabs htouch ?_
    rw [closingApplied_own (f := ⟨h, .thermal es⟩) rfl (ho.trans hme.symm)]
    exact closePoints_closed hdv (decide_eq_true (hline ▸ hlt))
  case waits =>
    rw [htouch]
    by_cases ho : h.sender = me s
    · have hle : lineCountOf v ≤ d.count := hline ▸ hwaits.resolve_left (not_not_intro ho)
      rw [closingApplied_own (f := ⟨h, .thermal es⟩) rfl (ho.trans hme.symm)]
      exact closePoints_pending.mpr ⟨hdv, decide_eq_false (Nat.not_lt.mpr hle)⟩
    · rw [closingApplied_foreign (f := ⟨h, .thermal es⟩) rfl fun hc => ho (hc.trans hme)]
      exact hdv

/-- Settles O46: the tables by `ThermalApplied`, the stale check by `StaleJudged`, and the points by what the Touch Capture Unit closes. -/
theorem thermalIsPlaced : Obligations.ThermalIsPlaced := by
  unfold Obligations.ThermalIsPlaced
  intro h es s n ht ha hz
  have ⟨hserves, _, hgood, _⟩ := ht
  obtain ⟨hn, hr⟩ := thermal_inputs hgood
  obtain ⟨r, happlied⟩ := completeFrame_thermal ht ha
  obtain ⟨hzones, hports, hlatches⟩ := happlied.tablesStay
  refine ⟨{ s with stn := effect (.thermal h es) s.stn }, exec_effect _ s, rfl, ?_⟩
  simp only [effect_serving (c := .thermal h es) rfl hserves rfl]
  refine ⟨happlied.counted, happlied.rosterFollows, hzones, hports, hlatches, fun e he => ?others, fun e he => ?sender,
    partTemp_derived happlied.tables, gradient_derived happlied.tables, fun y hy => happlied.otherProbes hz.probes hy,
    fun x q e hm hq he hkind honly => happlied.judged hz.probes hn hr hm hq he hkind honly,
    fun d hd => completeFrame_thermal_points ht ha hd⟩
  case others => rw [happlied.board, mem_placeThermal_other he]
  case sender => rw [happlied.board, mem_placeThermal_sender hn hr he]

end Sys2Proof.CellBoard
end

section
/-! Frames of chapter 6 at a serving station: what every table but the ports and the probes keeps, and ports and probes before and after the
frame as those of two replicas (R7, R22). -/

namespace Sys2Proof.CellPorts

open Sys2Proof Sys2Proof.Machine Sys2Proof.Laws
open Sys2Proof.CellJoin (counted_of_live completeFrame_passed rosterEntry_derive)

/-! ### A frame and the reactions to it (R7, R22, log 15) -/

/-- A frame of a sender that passes the roster step, the units' reactions to it spelled out. -/
theorem completeFrame_reacts {s : Station} {f : Frame} {n : Nat} (ht : Says.takes s f n) (hp : passesRoster f.body = true)
    (hj : isJoin f.body = false) (ha : Says.passes s f.h) (hsil : silencesMe (me s) f.body = false) :
    ∃ u r, Counted s u f n ∧ Passed (cellOf s) (n + 1) f.h (tabs s) r ∧
      completeFrame s f = releaseOwn (react (tabs s)
        (setTabs u (derive (cellOf s) (applyKind (cellOf s) (n + 1) f.h.sender (namedBy s f n) f.h.dest f.body r).1)) f
        (applyKind (cellOf s) (n + 1) f.h.sender (namedBy s f n) f.h.dest f.body r).2) f := by
  obtain ⟨hs, hv, hg, hl⟩ := ht
  obtain ⟨r, hr, htables, hfx⟩ := applyFormed_kind (cellOf s) (n + 1) (namedBy s f n) f (tabs s) hj hp ha
  obtain ⟨u, hu, he⟩ := completeFrame_applied hs hv hg hp hl (by rw [hsil, Bool.and_false])
  rw [htables, hfx] at he
  exact ⟨u, r, hu, hr, he⟩

/-! ### Ports and probes before and after -/

/-- Ports and probes of a station before and after a frame are those of two replicas. -/
structure Carries (s t : Station) (r q : Replica) : Prop where
  portsBefore : r.ports = (tabs s).ports
  probesBefore : r.probes = (tabs s).probes
  portsAfter : (tabs t).ports = q.ports
  probesAfter : (tabs t).probes = q.probes

namespace Carries

variable {s t : Station} {r q : Replica} (h : Carries s t r q)
include h

theorem portBefore (p : Nat) : portEntry r p = portEntry (tabs s) p := by
  unfold portEntry
  rw [h.portsBefore]

theorem probeBefore (x : Nat) : probeRec r x = probeRec (tabs s) x := by
  unfold probeRec
  rw [h.probesBefore]

theorem portAfter (p : Nat) : portEntry (tabs t) p = portEntry q p := by
  unfold portEntry
  rw [h.portsAfter]

theorem probeAfter (x : Nat) : probeRec (tabs t) x = probeRec q x := by
  unfold probeRec
  rw [h.probesAfter]

theorem vacated (n x p : Nat) : Says.vacated s x p n = vacatedIn r (n + 1) x p := by
  unfold vacatedIn
  rw [h.portBefore, h.probeBefore]
  rfl

theorem placed (n x : Nat) (cu : Custody) : Says.placed (probeRec (tabs s) x) cu n = placedRec (probeRec r x) cu (n + 1) := by
  rw [h.probeBefore]
  rfl

theorem portsStay (e : q.ports = r.ports) : Says.portsStay s t := h.portsAfter.trans (e.trans h.portsBefore)

theorem probesStay (e : q.probes = r.probes) : Says.probesStay s t := h.probesAfter.trans (e.trans h.probesBefore)

theorem otherPortsStay {p : Nat} (e : ∀ j, j ≠ p → portEntry q j = portEntry r j) : Says.otherPortsStay s t p := fun j hj => by
  rw [h.portAfter, e j hj, h.portBefore]

theorem otherProbesStay {x : Nat} (e : ∀ y, y ≠ x → probeRec q y = probeRec r y) : Says.otherProbesStay s t x := fun y hy => by
  rw [h.probeAfter, e y hy, h.probeBefore]

end Carries

/-- What a void frame leaves: ports and probes as they were. -/
theorem carries_void {s t : Station} {r : Replica} (h : Carries s t r r) : Says.portsStay s t ∧ Says.probesStay s t :=
  ⟨h.portsStay rfl, h.probesStay rfl⟩

theorem portsOnly_orVoid {r : Replica} {o : Option Replica} (h : portsOnlyOpt r o) : PortsOnly r (orVoid r o).1 := by
  cases o with
  | none => exact PortsOnly.refl r
  | some t => exact h t rfl

theorem portsOnlyOpt_guarded {r : Replica} {o : Option Replica} (b : Bool) (h : portsOnlyOpt r o) :
    portsOnlyOpt r (if b = true then o else none) := by
  intro t ht
  split at ht
  · exact h t ht
  · cases ht

/-- A frame of a sender that passes the roster step and whose kind touches the ports and the probes alone. -/
theorem completeFrame_ports {s : Station} {f : Frame} {n : Nat} (ht : Says.takes s f n) (hp : passesRoster f.body = true)
    (hj : isJoin f.body = false) (ha : Says.passes s f.h) (hsil : silencesMe (me s) f.body = false)
    (hk : ∀ r, PortsOnly r (applyKind (cellOf s) (n + 1) f.h.sender (namedBy s f n) f.h.dest f.body r).1) :
    Says.tablesElse s (completeFrame s f) f.h n ∧ Says.latchesStay s (completeFrame s f) ∧ ∃ r,
      Carries s (completeFrame s f) r (applyKind (cellOf s) (n + 1) f.h.sender (namedBy s f n) f.h.dest f.body r).1 := by
  obtain ⟨r, hr, hlive⟩ := completeFrame_passed ht hp hj ha
  obtain ⟨hl, htabs⟩ := hlive (by rw [hsil, Bool.and_false])
  have hentry : ∀ j, rosterEntry (tabs (completeFrame s f)) j = rosterEntry r j := fun j => by
    rw [htabs, rosterEntry_derive, hk r]
    rfl
  refine ⟨⟨counted_of_live hl, ⟨?_, fun j hne => (hentry j).trans (hr.others j hne), fun h1 h2 => (hentry _).trans (hr.flagged h1 h2),
    fun h => (hentry _).trans (hr.unflagged h)⟩, ⟨?_, ?_⟩, ?_⟩, ?_, r, passed_ports hr, passed_probes hr, by rw [htabs, derive_ports],
    by rw [htabs, derive_probes]⟩
  · rw [htabs, derive_cell, hk r, hr.rest]
  · rw [htabs, derive_zones, hk r, hr.rest]
  · rw [htabs, derive_claims, hk r, hr.rest]
  · unfold Says.boardStays
    rw [htabs, derive_board, hk r, hr.rest]
  · unfold Says.latchesStay
    rw [htabs, derive_latches, hk r, hr.rest]

end Sys2Proof.CellPorts
end

section
/-! O39: PORT_RESERVE at the application of its frame, and the lock of the rack station's port (R111, R112). -/

namespace Sys2Proof.CellPorts

open Sys2Proof Sys2Proof.Machine Sys2Proof.Laws
open Sys2Proof.CellLine (effect exec_effect)
open Sys2Proof.CellJoin (effect_serving)

/-- What a PORT_RESERVE of station `k` needs (R112). -/
def Reservable (c : CellPart) (k p : Nat) (purpose : Purpose) (x : Nat) (r : Replica) : Prop :=
  configured c p = true ∧ inUse c x = true ∧
    ((purpose = .deposit ∧ (portEntry r p).state = .empty ∧ (probeRec r x).custody = .station k) ∨
      (purpose = .pickup ∧ (portEntry r p).state = .occupied x))

theorem reservePort_some {c : CellPart} {k p : Nat} {purpose : Purpose} {x : Nat} {r : Replica} (h : Reservable c k p purpose x r) (lc : Nat) :
    reservePort c lc k p purpose x r =
      some { r with ports := set1 r.ports p { portEntry r p with state := .reserved k purpose x, takeSeen := false, stamp := lc } } := by
  obtain ⟨hp, hx, ⟨rfl, he, hc⟩ | ⟨rfl, he⟩⟩ := h
  · simp [reservePort, hp, hx, he, hc]
  · simp [reservePort, hp, hx, he]

theorem reservePort_none {c : CellPart} {k p : Nat} {purpose : Purpose} {x : Nat} {r : Replica} (h : ¬ Reservable c k p purpose x r) (lc : Nat) :
    reservePort c lc k p purpose x r = none := by
  unfold reservePort
  refine if_neg fun hok => h ?_
  simp only [Bool.and_eq_true] at hok
  obtain ⟨⟨hp, hx⟩, hstate⟩ := hok
  refine ⟨hp, hx, ?_⟩
  cases purpose with
  | deposit => exact .inl ⟨rfl, by simpa using hstate⟩
  | pickup => exact .inr ⟨rfl, by simpa using hstate⟩

/-- The three ways in which a PORT_RESERVE misses what it needs, as the statement names them. -/
theorem not_reservable {c : CellPart} {k p : Nat} {purpose : Purpose} {x : Nat} {r : Replica}
    (h : configured c p = false ∨ inUse c x = false ∨
      (purpose = .deposit ∧ ((portEntry r p).state ≠ .empty ∨ (probeRec r x).custody ≠ .station k)) ∨
      (purpose = .pickup ∧ (portEntry r p).state ≠ .occupied x)) : ¬ Reservable c k p purpose x r := by
  rintro ⟨hp, hx, hstate⟩
  simp only [hp, hx, Bool.true_eq_false, false_or] at h
  rcases hstate with ⟨rfl, he, hc⟩ | ⟨rfl, he⟩ <;> simp_all

theorem reservable_congr {c : CellPart} {k p : Nat} {purpose : Purpose} {x : Nat} {r q : Replica} (hports : q.ports = r.ports)
    (hprobes : q.probes = r.probes) : Reservable c k p purpose x q ↔ Reservable c k p purpose x r := by
  unfold Reservable portEntry probeRec
  rw [hports, hprobes]

theorem isRack_congr {s t : Station} (h : t.loader = s.loader) : isRack t = isRack s := by
  unfold isRack me cellOf
  rw [h]

/-- The lock of the rack station's port after a PORT_RESERVE that reserved it (R111). -/
theorem completeFrame_unlocks {s : Station} {h : Hdr} {p : Nat} {purpose : Purpose} {x n : Nat}
    (ht : Says.takes s ⟨h, .portReserve p purpose x⟩ n) (ha : Says.passes s h)
    (hok : Reservable (cellOf s) h.sender p purpose x (tabs s)) (hrack : isRack s = true)
    (hports : (cellOf s).ports.length ≤ s.rack.length) :
    (rackPort (completeFrame s ⟨h, .portReserve p purpose x⟩) p).lock = .unlocked := by
  have hserves := ht.1
  obtain ⟨u, r, hu, hr, he⟩ := completeFrame_reacts ht rfl rfl ha rfl
  have happly : ∀ heard, (applyKind (cellOf s) (n + 1) h.sender heard h.dest (.portReserve p purpose x) r).2.took = true := fun heard => by
    rw [show applyKind _ _ _ _ _ (.portReserve p purpose x) r = _ from
      congrArg (orVoid r) (reservePort_some ((reservable_congr (passed_ports hr) (passed_probes hr)).mpr hok) (n + 1))]
    rfl
  rw [he]
  dsimp only
  obtain ⟨v, hloader, hvrack, -, hv⟩ := react_rack (tabs s)
    (setTabs u (derive (cellOf s) (applyKind (cellOf s) (n + 1) h.sender (namedBy s ⟨h, .portReserve p purpose x⟩ n) h.dest
      (.portReserve p purpose x) r).1)) ⟨h, .portReserve p purpose x⟩
    (applyKind (cellOf s) (n + 1) h.sender (namedBy s ⟨h, .portReserve p purpose x⟩ n) h.dest (.portReserve p purpose x) r).2
  have hvl : v.loader = s.loader := hloader.trans hu.loader
  have hcell : cellOf v = cellOf s := by unfold cellOf; rw [hvl]
  have hworks : rackWorks v = true := by
    unfold rackWorks serving
    rw [isRack_congr hvl, hvl, hrack]
    exact hserves
  unfold rackPort at *
  rw [(rel_noans _ _ fun _ => Body.noConfusion).rack, hv, happly]
  refine (rackApplied_locks _ _ _ _ hworks (by rw [hcell, hvrack]; exact hu.rack ▸ hports) p (hcell ▸ hok.1)).trans ?_
  unfold lockAfter
  rw [if_pos (by simp [isReserveOf])]

/-- Settles O39: the table by `reservePort_some` and `reservePort_none`, the lock by `completeFrame_unlocks`. -/
theorem portIsReserved : Obligations.PortIsReserved := by
  unfold Obligations.PortIsReserved
  intro h p purpose x s n ht ha hz
  have hserves := ht.1
  have hgood := body_good ht.2.2.1
  simp only [bodyGood, portNumber, Bool.and_eq_true, decide_eq_true_eq] at hgood
  obtain ⟨⟨hp1, hp12⟩, -⟩ := hgood
  obtain ⟨htables, hlatches, r, hr⟩ := completeFrame_ports (f := ⟨h, .portReserve p purpose x⟩) ht rfl rfl ha rfl
    (fun r => portsOnly_orVoid (portsOnly_reservePort _ _ _ _ _ _ r))
  replace hr : Carries _ _ r (orVoid r (reservePort (cellOf s.stn) (n + 1) h.sender p purpose x r)).1 := hr
  have hreserve := reservable_congr (c := cellOf s.stn) (k := h.sender) (p := p) (purpose := purpose) (x := x) hr.portsBefore hr.probesBefore
  have hset := portEntry_set r p { portEntry r p with state := .reserved h.sender purpose x, takeSeen := false, stamp := n + 1 } hp1
    (by rw [hr.portsBefore, hz.ports]; exact hp12)
  refine ⟨{ s with stn := effect (.portReserve h p purpose x) s.stn }, exec_effect _ s, rfl, ?_⟩
  simp only [effect_serving (c := .portReserve h p purpose x) rfl hserves rfl]
  refine ⟨htables, ?probes, hlatches, ?others, fun hc hi hstate => ?reserved, fun hnot => ?void⟩
  case probes =>
    by_cases hok : Reservable (cellOf s.stn) h.sender p purpose x r
    · exact hr.probesStay (by rw [reservePort_some hok]; rfl)
    · exact hr.probesStay (by rw [reservePort_none hok]; rfl)
  case others =>
    by_cases hok : Reservable (cellOf s.stn) h.sender p purpose x r
    · rw [reservePort_some hok] at hr
      exact hr.otherPortsStay fun j hj => (hset j).trans (if_neg hj)
    · rw [reservePort_none hok] at hr
      exact hr.otherPortsStay fun _ _ => rfl
  case reserved =>
    have hok : Reservable (cellOf s.stn) h.sender p purpose x (tabs s.stn) := ⟨hc, hi, hstate⟩
    rw [reservePort_some (hreserve.mpr hok)] at hr
    refine ⟨?_, fun hrack hl hports => completeFrame_unlocks ht ha hok hrack (hl ▸ hports)⟩
    rw [hr.portAfter, ← hr.portBefore]
    exact (hset p).trans (if_pos rfl)
  case void =>
    rw [reservePort_none (hreserve.not.mpr (not_reservable hnot))] at hr
    exact (carries_void hr).1

end Sys2Proof.CellPorts
end

section
/-! Replicas that agree but for one port, and what a placing or a loss at that port is in the words of the statements (R108, R113). -/

namespace Sys2Proof.CellPorts

open Sys2Proof Sys2Proof.Machine Sys2Proof.Laws
open Sys2Proof.CellBoard (probeRec_congr)

/-! ### Agreeing but for one port -/

/-- Two replicas with the same probes, and the same ports but for `p`. -/
structure ButPort (p : Nat) (r q : Replica) : Prop where
  probes : q.probes = r.probes
  ports : ∀ j, j ≠ p → portEntry q j = portEntry r j
  length : q.ports.length = r.ports.length

namespace ButPort

variable {p : Nat} {r q : Replica}

theorem probe (h : ButPort p r q) (y : Nat) : probeRec q y = probeRec r y := probeRec_congr h.probes y

theorem trans {v : Replica} (h : ButPort p r q) (k : ButPort p q v) : ButPort p r v :=
  ⟨k.probes.trans h.probes, fun j hj => (k.ports j hj).trans (h.ports j hj), k.length.trans h.length⟩

theorem vacatedIn (h : ButPort p r q) {j : Nat} (hj : j ≠ p) (lc x : Nat) : vacatedIn q lc x j = vacatedIn r lc x j :=
  vacated_after (h.ports j hj) h.probes

theorem ofEq (h : q.ports = r.ports) (k : q.probes = r.probes) : ButPort p r q :=
  ⟨k, fun _ _ => by unfold portEntry; rw [h], by rw [h]⟩

end ButPort

theorem butPort_set {p : Nat} {r : Replica} (e : PortEntry) : ButPort p r { r with ports := set1 r.ports p e } :=
  ⟨rfl, fun _ hj => at1_set1_other _ _ _ _ _ hj, set1_length _ _ _⟩

/-! ### The same in the words of the statements -/

section
variable {s t : Station} {v w : Replica} {p n : Nat} (hv : ButPort p (tabs s) v) (hw : ButPort p w (tabs t))
include hv hw

theorem vacated_says {x q : Nat} (hq : q ≠ p) (h : portEntry w q = vacatedIn v (n + 1) x q) :
    portEntry (tabs t) q = Says.vacated s x q n := by
  rw [hw.ports q hq, h, hv.vacatedIn hq]
  rfl

theorem placedAtPort_says {x : Nat} (hports : (tabs s).ports.length = 12) (h : PlacedAtPort v w (n + 1) x p) : Says.placedAtPort s t x p n := by
  unfold Says.placedAtPort
  simp only [hw.probe, ← hv.probe]
  exact ⟨h.own, h.gone, fun y _ _ => h.kept y,
    fun q hq1 hq12 hq => vacated_says hv hw hq (h.ports q hq1 (by rw [hv.length, hports]; exact hq12) hq)⟩

end

theorem lostFrom_says {s t : Station} {v : Replica} {keep : Option Nat} {x p n : Nat} (hkeep : ∀ q, 1 ≤ q → q ≠ p → keep ≠ some q)
    (hv : ButPort p (tabs s) v) (hw : ButPort p (makeLost v (n + 1) keep x) (tabs t)) (hz : TablesSized (tabs s)) (hx1 : 1 ≤ x)
    (hx24 : x ≤ 24) : Says.lostFrom s t x p n := by
  have hrec := makeLost_rec v (n + 1) keep x hx1 (by rw [hv.probes, hz.probes]; exact hx24)
  unfold Says.lostFrom
  simp only [hw.probe, ← hv.probe]
  exact ⟨fun hc => (hrec x).trans (if_pos ⟨rfl, hc⟩), fun hc => (hrec x).trans (if_neg fun k => k.2 hc),
    fun y hy => (hrec y).trans (if_neg fun k => hy k.1),
    fun q hq1 hq12 hq => vacated_says hv hw hq
      (makeLost_port v (n + 1) keep x q hq1 (by rw [hv.length, hz.ports]; exact hq12) (hkeep q hq1 hq))⟩

theorem stays_says {s t : Station} {p : Nat} (h : ButPort p (tabs s) (tabs t)) : Says.probesStay s t ∧ Says.otherPortsStay s t p :=
  ⟨h.probes, h.ports⟩

end Sys2Proof.CellPorts
end

section
/-! O40 and O41: PORT_STATE at the application of its frame (R113, R114, R116). -/

namespace Sys2Proof.CellPorts

open Sys2Proof Sys2Proof.Machine Sys2Proof.Laws
open Sys2Proof.CellLine (effect exec_effect)
open Sys2Proof.CellJoin (effect_serving)

/-! ### The report's fields -/

/-- The replica with a report's fields written to port `p`. -/
def reported (r : Replica) (p : Nat) (present : Bool) (lock : Lock) (code : Option Code) : Replica :=
  { r with ports := set1 r.ports p { portEntry r p with
      presence := if present then .present else .absent, lock := lock, ident := code } }

/-- A port's entry shows what a report carries. -/
structure Shows (present : Bool) (lock : Lock) (code : Option Code) (e : PortEntry) : Prop where
  presence : e.presence = if present then .present else .absent
  lock : e.lock = lock
  ident : e.ident = code

theorem Shows.kept {present : Bool} {lock : Lock} {code : Option Code} {a b : PortEntry} (h : Shows present lock code a) (k : FieldsKept a b) :
    Shows present lock code b :=
  ⟨k.presence.trans h.presence, k.lock.trans h.lock, k.ident.trans h.ident⟩

section
variable (c : CellPart) (lc p : Nat) (present : Bool) (lock : Lock) (code : Option Code) (r : Replica)

theorem reportPort_follows (h : isReserved (portEntry r p).state = false) : reportPort c lc p present lock code r =
    restamp (followReport c lc p present code (reported r p present lock code)) lc p (portEntry r p) := by
  unfold reportPort
  dsimp only
  split
  case h_1 he => rw [he] at h; cases h
  case h_2 he => rw [he] at h; cases h
  case h_3 => rfl

/-- The tables once a report has been weighed against a reservation of the port. -/
def settled (purpose : Purpose) (m : Nat) : Replica :=
  match purpose with
  | .deposit => if lock = .locked then settleDeposit c lc p m present code r else r
  | .pickup => if lock = .locked && !present then finishPickup r lc p else r

theorem reportPort_settles {k m : Nat} {purpose : Purpose} (h : (portEntry r p).state = .reserved k purpose m) :
    reportPort c lc p present lock code r =
      restamp (settled c lc p present lock code (reported r p present lock code) purpose m) lc p (portEntry r p) := by
  unfold reportPort
  dsimp only
  split
  case h_1 he => cases he.symm.trans h; rfl
  case h_2 he => cases he.symm.trans h; rfl
  case h_3 hdep hpick =>
    cases purpose with
    | deposit => exact absurd h (hdep _ _)
    | pickup => exact absurd h (hpick _ _)

end

section
variable {p : Nat} {r : Replica} (h1 : 1 ≤ p) (h2 : p ≤ r.ports.length) (present : Bool) (lock : Lock) (code : Option Code)

theorem butPort_reported : ButPort p r (reported r p present lock code) := butPort_set _

include h1 h2

theorem reported_own : portEntry (reported r p present lock code) p =
    { portEntry r p with presence := if present then .present else .absent, lock := lock, ident := code } :=
  (portEntry_set r p _ h1 h2 p).trans (if_pos rfl)

theorem reported_shows : Shows present lock code (portEntry (reported r p present lock code) p) := by
  rw [reported_own h1 h2]
  exact ⟨rfl, rfl, rfl⟩

theorem reported_state : (portEntry (reported r p present lock code) p).state = (portEntry r p).state := by
  rw [reported_own h1 h2]

end

/-- What the restamped entry of port `p` is, where `w` stands for the tables before the stamp was settled (R113). -/
structure Restamped (s t : Station) (w : Replica) (p n : Nat) : Prop where
  after : ButPort p w (tabs t)
  own : ∃ st, portEntry (tabs t) p = { portEntry w p with stamp := st }
  stamped : portEntry (tabs t) p = portEntry (tabs s) p ∨ (portEntry (tabs t) p).stamp = n + 1

theorem Carries.restamped {s t : Station} {r w : Replica} {p n : Nat} (h : Carries s t r (restamp w (n + 1) p (portEntry r p))) (h1 : 1 ≤ p)
    (h2 : p ≤ w.ports.length) : Restamped s t w p n := by
  obtain ⟨hown, hstamp, -, -⟩ := restamp_facts w (n + 1) p (portEntry r p) h1 h2
  have hafter : ButPort p w (restamp w (n + 1) p (portEntry r p)) := butPort_set _
  refine ⟨hafter.trans (ButPort.ofEq h.portsAfter h.probesAfter), ?_, ?_⟩
  · rw [h.portAfter]
    exact hown
  · rw [h.portAfter, ← h.portBefore]
    exact hstamp

namespace Restamped

variable {s t : Station} {w : Replica} {p n : Nat} (h : Restamped s t w p n)
include h

theorem state : (portEntry (tabs t) p).state = (portEntry w p).state := by
  obtain ⟨st, hown⟩ := h.own
  rw [hown]

theorem takeSeen : (portEntry (tabs t) p).takeSeen = (portEntry w p).takeSeen := by
  obtain ⟨st, hown⟩ := h.own
  rw [hown]

theorem shows {present : Bool} {lock : Lock} {code : Option Code} (k : Shows present lock code (portEntry w p)) :
    Shows present lock code (portEntry (tabs t) p) := by
  obtain ⟨st, hown⟩ := h.own
  rw [hown]
  exact ⟨k.presence, k.lock, k.ident⟩

end Restamped

/-! ### A port that is not RESERVED (R113) -/

/-- The state that a report gives a port that is not RESERVED. -/
def reportedState (c : CellPart) (present : Bool) (code : Option Code) : PortState :=
  if present then
    match probeByCode c code with
    | some x => .occupied x
    | none => .unknown
  else .empty

theorem reportedState_some {c : CellPart} {present : Bool} {code : Option Code} {x : Nat} (h : present = true)
    (hx : probeByCode c code = some x) : reportedState c present code = .occupied x := by
  unfold reportedState
  rw [if_pos h, hx]

theorem reportedState_unmatched {c : CellPart} {present : Bool} {code : Option Code} (h : present = true → probeByCode c code = none) :
    reportedState c present code = if present then .unknown else .empty := by
  unfold reportedState
  cases present with
  | false => rfl
  | true => rw [h rfl]

/-- Port `p` itself after a report: its fields kept, its state the report's. -/
theorem followReport_own (c : CellPart) (lc : Nat) {p : Nat} (present : Bool) (code : Option Code) {r : Replica} (h1 : 1 ≤ p)
    (h2 : p ≤ r.ports.length) (hl : r.probes.length = 24) :
    FieldsKept (portEntry r p) (portEntry (followReport c lc p present code r) p) ∧
      (portEntry (followReport c lc p present code r) p).state = reportedState c present code ∧
      (followReport c lc p present code r).ports.length = r.ports.length := by
  have sets : ∀ (v : Replica) (st : PortState), v.ports.length = r.ports.length → FieldsKept (portEntry r p) (portEntry v p) →
      FieldsKept (portEntry r p) (portEntry (setPortState v lc p st) p) ∧ (portEntry (setPortState v lc p st) p).state = st ∧
        (setPortState v lc p st).ports.length = r.ports.length := fun v st hv hk => by
    obtain ⟨hkept, hst, -, hlength⟩ := setPortState_facts lc p h1 v st (hv ▸ h2)
    exact ⟨hk.trans hkept, hst, hlength.trans hv⟩
  rcases followReport_cases c lc p present code r with
    ⟨x, hpr, hx, hst, he⟩ | ⟨x, hpr, hx, -, he⟩ | ⟨hun, st, hst, ⟨x, -, he⟩ | ⟨-, he⟩⟩
  · rw [he, reportedState_some hpr hx]
    exact ⟨FieldsKept.refl _, hst, rfl⟩
  · have hplaced := placeAtPort_placed r lc x p (probe_range hx).1 (probe_range hx).2 hl
    rw [he, reportedState_some hpr hx]
    exact sets _ _ hplaced.portsLength (hplaced.fields p h1 h2)
  · rw [he, reportedState_unmatched hun, ← hst]
    exact sets _ _ (makeLost_lengths r lc (some p) x).2 (makeLost_fields r lc (some p) x p h1 h2)
  · rw [he, reportedState_unmatched hun, ← hst]
    exact sets _ _ rfl (FieldsKept.refl _)

section
variable {c : CellPart} (lc p : Nat) {present : Bool} {code : Option Code} {r : Replica}

theorem followReport_same {x : Nat} (h : present = true) (hx : probeByCode c code = some x) (ho : (portEntry r p).state = .occupied x) :
    followReport c lc p present code r = r := by
  simp [followReport, h, hx, ho]

theorem followReport_places {x : Nat} (h : present = true) (hx : probeByCode c code = some x) (ho : (portEntry r p).state ≠ .occupied x) :
    followReport c lc p present code r = setPortState (placeAtPort r lc x p) lc p (.occupied x) := by
  simp [followReport, h, hx, ho]

variable (h : present = true → probeByCode c code = none)
include h

theorem followReport_loses {x : Nat} (ho : (portEntry r p).state = .occupied x) :
    followReport c lc p present code r = setPortState (makeLost r lc (some p) x) lc p (if present then .unknown else .empty) := by
  unfold followReport
  cases present with
  | false => simp only [Bool.false_eq_true, if_false, ho]
  | true => simp only [if_true, h rfl, ho]

theorem followReport_sets (ho : ∀ x, (portEntry r p).state ≠ .occupied x) :
    followReport c lc p present code r = setPortState r lc p (if present then .unknown else .empty) := by
  rcases followReport_cases c lc p present code r with ⟨x, -, -, hst, -⟩ | ⟨x, hpr, hx, -, -⟩ | ⟨-, st, hst, ⟨x, hox, -⟩ | ⟨-, he⟩⟩
  · exact absurd hst (ho x)
  · cases hx.symm.trans (h hpr)
  · exact absurd hox (ho x)
  · rw [he, hst]

end

section
variable {s t : Station} {c : CellPart} {v : Replica} {p n : Nat} {present : Bool} {code : Option Code} (hz : TablesSized (tabs s))
  (hv : ButPort p (tabs s) v) (hstate : (portEntry v p).state = (portEntry (tabs s) p).state)
  (hw : Restamped s t (followReport c (n + 1) p present code v) p n)
include hz hv hstate hw

theorem follows_matched {x : Nat} (hp : present = true) (hx : probeByCode c code = some x) :
    ((portEntry (tabs s) p).state ≠ .occupied x → Says.placedAtPort s t x p n) ∧
      ((portEntry (tabs s) p).state = .occupied x → Says.probesStay s t ∧ Says.otherPortsStay s t p) := by
  have hafter := hw.after
  constructor <;> intro ho
  · rw [followReport_places _ _ hp hx (hstate ▸ ho)] at hafter
    exact placedAtPort_says hv ((butPort_set _).trans hafter) hz.ports
      (placeAtPort_placed v (n + 1) x p (probe_range hx).1 (probe_range hx).2 (by rw [hv.probes]; exact hz.probes))
  · rw [followReport_same _ _ hp hx (hstate ▸ ho)] at hafter
    exact stays_says (hv.trans hafter)

theorem follows_unmatched (hun : present = true → probeByCode c code = none) :
    (∀ x, 1 ≤ x → x ≤ 24 → (portEntry (tabs s) p).state = .occupied x → Says.lostFrom s t x p n) ∧
      ((∀ x, (portEntry (tabs s) p).state ≠ .occupied x) → Says.probesStay s t ∧ Says.otherPortsStay s t p) := by
  have hafter := hw.after
  constructor
  · intro x hx1 hx24 ho
    rw [followReport_loses _ _ hun (hstate ▸ ho)] at hafter
    exact lostFrom_says (fun q _ hq he => hq (Option.some.inj he).symm) hv ((butPort_set _).trans hafter) hz hx1 hx24
  · intro ho
    rw [followReport_sets _ _ hun (hstate ▸ ho)] at hafter
    exact stays_says (hv.trans ((butPort_set _).trans hafter))

end

/-! ### The statement -/

/-- Ports and probes across a PORT_STATE: those of `reportPort` on a configured port, those before where the port is not configured. -/
theorem completeFrame_portState {s : Station} {h : Hdr} {p : Nat} {present : Bool} {lock : Lock} {code : Option Code} {n : Nat}
    (ht : Says.takes s ⟨h, .portState p present lock code⟩ n) (ha : Says.passes s h) :
    Says.tablesElse s (completeFrame s ⟨h, .portState p present lock code⟩) h n ∧
      Says.latchesStay s (completeFrame s ⟨h, .portState p present lock code⟩) ∧ ∃ r,
      Carries s (completeFrame s ⟨h, .portState p present lock code⟩) r
        (if configured (cellOf s) p then reportPort (cellOf s) (n + 1) p present lock code r else r) := by
  have happly : ∀ r, (applyKind (cellOf s) (n + 1) h.sender (namedBy s ⟨h, .portState p present lock code⟩ n) h.dest
      (.portState p present lock code) r).1 =
        if configured (cellOf s) p then reportPort (cellOf s) (n + 1) p present lock code r else r := fun r =>
    apply_ite Prod.fst (configured (cellOf s) p = true) (reportPort (cellOf s) (n + 1) p present lock code r, Fx.plain) (r, Fx.void)
  obtain ⟨htables, hlatches, r, hr⟩ := completeFrame_ports (f := ⟨h, .portState p present lock code⟩) ht rfl rfl ha rfl fun r => by
    dsimp only
    rw [happly]
    split
    · exact portsOnly_reportPort _ _ _ _ _ _ _
    · exact PortsOnly.refl r
  exact ⟨htables, hlatches, r, happly r ▸ hr⟩

/-- Settles O40: a configured port that is not RESERVED follows the report, by the cases of `followReport`. -/
theorem rackReportIsFollowed : Obligations.RackReportIsFollowed := by
  unfold Obligations.RackReportIsFollowed
  intro h p present lock code s n ht ha hz hnot
  have hserves := ht.1
  have hgood := body_good ht.2.2.1
  simp only [bodyGood, portNumber, Bool.and_eq_true, decide_eq_true_eq] at hgood
  obtain ⟨hp1, hp12⟩ := hgood
  obtain ⟨htables, hlatches, r, hr⟩ := completeFrame_portState ht ha
  refine ⟨{ s with stn := effect (.portState h p present lock code) s.stn }, exec_effect _ s, rfl, ?_⟩
  simp only [effect_serving (c := .portState h p present lock code) rfl hserves rfl]
  refine ⟨htables, hlatches, fun hc => ?void, fun hc => ?follows⟩
  case void =>
    rw [hc] at hr
    exact carries_void hr
  case follows =>
    rw [if_pos hc, reportPort_follows _ _ _ _ _ _ _ (hr.portBefore p ▸ hnot)] at hr
    have hpl : p ≤ r.ports.length := by rw [hr.portsBefore, hz.ports]; exact hp12
    have hv : ButPort p (tabs s.stn) (reported r p present lock code) :=
      (ButPort.ofEq hr.portsBefore hr.probesBefore).trans (butPort_reported present lock code)
    have hvl : p ≤ (reported r p present lock code).ports.length := by rw [hv.length, hz.ports]; exact hp12
    have hstate : (portEntry (reported r p present lock code) p).state = (portEntry (tabs s.stn) p).state :=
      (reported_state hp1 hpl present lock code).trans (congrArg PortEntry.state (hr.portBefore p))
    obtain ⟨hkept, hset, hlength⟩ := followReport_own (cellOf s.stn) (n + 1) present code hp1 hvl (by rw [hv.probes]; exact hz.probes)
    have hw := hr.restamped hp1 (hlength ▸ hvl)
    have hshows := hw.shows ((reported_shows hp1 hpl present lock code).kept hkept)
    have hnew := hw.state.trans hset
    exact ⟨hshows.presence, hshows.lock, hshows.ident, hw.stamped,
      fun x hpr hx => ⟨hnew.trans (reportedState_some hpr hx), (follows_matched hz hv hstate hw hpr hx).1,
        (follows_matched hz hv hstate hw hpr hx).2⟩,
      fun hpr hun => by rw [hnew, reportedState_unmatched fun _ => hun, if_pos hpr],
      fun hab => by rw [hnew, reportedState, hab]; rfl, fun hun => follows_unmatched hz hv hstate hw hun⟩

end Sys2Proof.CellPorts
end

section
/-! O41: a reservation settled by the report of the rack (R113, R114, R116). -/

namespace Sys2Proof.CellPorts

open Sys2Proof Sys2Proof.Machine Sys2Proof.Laws
open Sys2Proof.CellLine (effect exec_effect)
open Sys2Proof.CellJoin (effect_serving)

/-! ### The cases of a settled reservation -/

section
variable {c : CellPart} (lc : Nat) {p m : Nat} {present : Bool} {lock : Lock} {code : Option Code} {r : Replica} {purpose : Purpose}

theorem settled_stands (h : lock = .unlocked ∨ (purpose = .deposit ∧ present = false) ∨
    (purpose = .pickup ∧ (present = true ∨ (portEntry r p).takeSeen = false))) : settled c lc p present lock code r purpose m = r := by
  unfold settled settleDeposit finishPickup
  rcases h with rfl | ⟨rfl, rfl⟩ | ⟨rfl, rfl | hseen⟩
  · cases purpose <;> rfl
  · simp
  · simp
  · simp [hseen]

theorem settled_matches (hl : lock = .locked) (hp : present = true) (hx : probeByCode c code = some m) :
    settled c lc p present lock code r .deposit m = endReservation (placeAtPort r lc m p) lc p (.occupied m) := by
  simp [settled, settleDeposit, hl, hp, hx]

theorem settled_other {x : Nat} (hl : lock = .locked) (hp : present = true) (hx : probeByCode c code = some x) (hne : x ≠ m) :
    settled c lc p present lock code r .deposit m =
      endReservation (setSuspect (makeLost (placeAtPort r lc x p) lc (some p) m) lc m) lc p (.occupied x) := by
  simp [settled, settleDeposit, hl, hp, hx, hne]

theorem settled_unmatched (hl : lock = .locked) (hp : present = true) (hx : probeByCode c code = none) :
    settled c lc p present lock code r .deposit m = endReservation (setSuspect (makeLost r lc (some p) m) lc m) lc p .unknown := by
  simp [settled, settleDeposit, hl, hp, hx]

theorem settled_taken (hl : lock = .locked) (hp : present = false) (hseen : (portEntry r p).takeSeen = true)
    (habsent : (portEntry r p).presence = .absent) :
    settled c lc p present lock code r .pickup m = endReservation r lc p .empty := by
  simp [settled, finishPickup, hl, hp, hseen, habsent]

/-- Every case of a settled reservation: the tables as they were, or the reservation ended on tables whose port `p` has the same fields. -/
theorem settled_cases (h1 : 1 ≤ p) (h2 : p ≤ r.ports.length) (hl : r.probes.length = 24) :
    settled c lc p present lock code r purpose m = r ∨ ∃ u st, settled c lc p present lock code r purpose m = endReservation u lc p st ∧
      FieldsKept (portEntry r p) (portEntry u p) ∧ u.ports.length = r.ports.length := by
  have loses : ∀ v : Replica, v.ports.length = r.ports.length → FieldsKept (portEntry r p) (portEntry v p) →
      FieldsKept (portEntry r p) (portEntry (setSuspect (makeLost v lc (some p) m) lc m) p) ∧
        (setSuspect (makeLost v lc (some p) m) lc m).ports.length = r.ports.length := fun v hv hk =>
    ⟨hk.trans (makeLost_fields v lc (some p) m p h1 (hv ▸ h2)), (makeLost_lengths v lc (some p) m).2.trans hv⟩
  by_cases hstands : lock = .unlocked ∨ (purpose = .deposit ∧ present = false) ∨
      (purpose = .pickup ∧ (present = true ∨ (portEntry r p).takeSeen = false))
  · exact .inl (settled_stands lc hstands)
  simp only [not_or, not_and] at hstands
  obtain ⟨hlock, hdeposit, hpickup⟩ := hstands
  replace hlock : lock = .locked := by cases lock <;> simp_all
  cases purpose with
  | pickup =>
    by_cases habsent : (portEntry r p).presence = .absent
    · exact .inr ⟨r, _, settled_taken lc hlock (by simpa using (hpickup rfl).1) (by simpa using (hpickup rfl).2) habsent, FieldsKept.refl _, rfl⟩
    · refine .inl ?_
      simp [settled, finishPickup, habsent]
  | deposit =>
    have hpresent : present = true := by simpa using hdeposit rfl
    right
    cases hx : probeByCode c code with
    | none => exact ⟨_, _, settled_unmatched lc hlock hpresent hx, loses r rfl (FieldsKept.refl _)⟩
    | some x =>
      have hplaced := placeAtPort_placed r lc x p (probe_range hx).1 (probe_range hx).2 hl
      by_cases hxm : x = m
      · subst hxm
        exact ⟨_, _, settled_matches lc hlock hpresent hx, hplaced.fields p h1 h2, hplaced.portsLength⟩
      · exact ⟨_, _, settled_other lc hlock hpresent hx hxm, loses _ hplaced.portsLength (hplaced.fields p h1 h2)⟩

end

theorem endReservation_own {r : Replica} {p : Nat} (lc : Nat) (st : PortState) (h1 : 1 ≤ p) (h2 : p ≤ r.ports.length) :
    portEntry (endReservation r lc p st) p = { portEntry r p with state := st, takeSeen := false, stamp := lc } :=
  (portEntry_endReservation r lc p st h1 h2 p).trans (if_pos rfl)

theorem settled_shows {c : CellPart} (lc : Nat) {p m : Nat} {present : Bool} {lock : Lock} {code : Option Code} {r : Replica}
    {purpose : Purpose} (h1 : 1 ≤ p) (h2 : p ≤ r.ports.length) (hl : r.probes.length = 24) (h : Shows present lock code (portEntry r p)) :
    Shows present lock code (portEntry (settled c lc p present lock code r purpose m) p) ∧
      (settled c lc p present lock code r purpose m).ports.length = r.ports.length := by
  rcases settled_cases (c := c) (m := m) (present := present) (lock := lock) (code := code) (purpose := purpose) lc h1 h2 hl with
    he | ⟨u, st, he, hkept, hlength⟩
  · rw [he]
    exact ⟨h, rfl⟩
  · rw [he]
    refine ⟨?_, (set1_length _ _ _).trans hlength⟩
    rw [endReservation_own lc st h1 (hlength ▸ h2)]
    exact ⟨(h.kept hkept).presence, (h.kept hkept).lock, (h.kept hkept).ident⟩

theorem makeLost_lost {r : Replica} {m : Nat} (lc : Nat) (keep : Option Nat) (h1 : 1 ≤ m) (h2 : m ≤ r.probes.length) :
    (probeRec (makeLost r lc keep m) m).custody = .lost := by
  rw [makeLost_rec r lc keep m h1 h2]
  by_cases hlost : (probeRec r m).custody = .lost
  · rw [if_neg fun k => k.2 hlost, hlost]
  · rw [if_pos ⟨rfl, hlost⟩]
    rfl

/-- A probe that becomes LOST and SUSPECT; the others as they were. -/
theorem lostSuspect_rec {r : Replica} {m : Nat} (lc : Nat) (keep : Option Nat) (h1 : 1 ≤ m) (h2 : m ≤ r.probes.length) :
    (probeRec (setSuspect (makeLost r lc keep m) lc m) m).custody = .lost ∧
      (probeRec (setSuspect (makeLost r lc keep m) lc m) m).cond = .suspect ∧
      ∀ y, y ≠ m → probeRec (setSuspect (makeLost r lc keep m) lc m) y = probeRec r y := by
  have hrec := suspect_rec (makeLost r lc keep m) lc m h1 (by rw [(makeLost_lengths r lc keep m).1]; exact h2)
  refine ⟨?_, ?_, fun y hy => ?_⟩
  · rw [hrec, if_pos rfl]
    exact makeLost_lost lc keep h1 h2
  · rw [hrec, if_pos rfl]
  · rw [hrec, if_neg hy, makeLost_rec r lc keep m h1 h2, if_neg fun k => hy k.1]

/-! ### The statement -/

section
variable {s t : Station} {c : CellPart} {v : Replica} {p m n : Nat} {present : Bool} {lock : Lock} {code : Option Code} {purpose : Purpose}
  (hz : TablesSized (tabs s)) (hp1 : 1 ≤ p) (hp12 : p ≤ 12) (hv : ButPort p (tabs s) v)
  (hw : Restamped s t (settled c (n + 1) p present lock code v purpose m) p n)
include hv hw

theorem settles_stands (h : lock = .unlocked ∨ (purpose = .deposit ∧ present = false) ∨
    (purpose = .pickup ∧ (present = true ∨ (portEntry v p).takeSeen = false))) :
    (portEntry (tabs t) p).state = (portEntry v p).state ∧ Says.probesStay s t ∧ Says.otherPortsStay s t p := by
  have hstate := hw.state
  have hafter := hw.after
  rw [settled_stands _ h] at hstate hafter
  exact ⟨hstate, stays_says (hv.trans hafter)⟩

include hz hp1 hp12

/-- A reservation that the report ends. -/
theorem settles_ended {u : Replica} {st : PortState} (he : settled c (n + 1) p present lock code v purpose m = endReservation u (n + 1) p st)
    (hu : u.ports.length = v.ports.length) :
    ButPort p u (tabs t) ∧ (portEntry (tabs t) p).state = st ∧ (portEntry (tabs t) p).takeSeen = false := by
  have hstate := hw.state
  have hseen := hw.takeSeen
  have hafter := hw.after
  have hlength : p ≤ u.ports.length := by rw [hu, hv.length, hz.ports]; exact hp12
  rw [he] at hstate hseen hafter
  rw [endReservation_own _ _ hp1 hlength] at hstate hseen
  exact ⟨(butPort_set _).trans hafter, hstate, hseen⟩

theorem settles_taken (hpick : purpose = .pickup) (hl : lock = .locked) (hab : present = false) (hseen : (portEntry v p).takeSeen = true)
    (habsent : (portEntry v p).presence = .absent) :
    (portEntry (tabs t) p).state = .empty ∧ (portEntry (tabs t) p).takeSeen = false ∧ Says.probesStay s t ∧ Says.otherPortsStay s t p := by
  subst hpick
  obtain ⟨hafter, hstate, htake⟩ := settles_ended hz hp1 hp12 hv hw (settled_taken _ hl hab hseen habsent) rfl
  exact ⟨hstate, htake, stays_says (hv.trans hafter)⟩

end

section
variable {s t : Station} {c : CellPart} {v : Replica} {p m n : Nat} {present : Bool} {lock : Lock} {code : Option Code}
  (hz : TablesSized (tabs s)) (hp1 : 1 ≤ p) (hp12 : p ≤ 12) (hv : ButPort p (tabs s) v)
  (hw : Restamped s t (settled c (n + 1) p present lock code v .deposit m) p n) (hm1 : 1 ≤ m) (hm24 : m ≤ 24) (hl : lock = .locked)
  (hpr : present = true)
include hz hp1 hp12 hv hw hl hpr

theorem settles_matched (hx : probeByCode c code = some m) :
    (portEntry (tabs t) p).takeSeen = false ∧ (portEntry (tabs t) p).state = .occupied m ∧ Says.placedAtPort s t m p n := by
  have hplaced := placeAtPort_placed v (n + 1) m p (probe_range hx).1 (probe_range hx).2 (by rw [hv.probes]; exact hz.probes)
  obtain ⟨hafter, hstate, htake⟩ := settles_ended hz hp1 hp12 hv hw (settled_matches _ hl hpr hx) hplaced.portsLength
  exact ⟨htake, hstate, placedAtPort_says hv hafter hz.ports hplaced⟩

include hm1 hm24

theorem settles_other {x : Nat} (hx : probeByCode c code = some x) (hne : x ≠ m) :
    (portEntry (tabs t) p).takeSeen = false ∧ (portEntry (tabs t) p).state = .occupied x ∧ (probeRec (tabs t) x).custody = .port p ∧
      (probeRec (tabs t) m).custody = .lost ∧ (probeRec (tabs t) m).cond = .suspect := by
  have hvp : v.probes.length = 24 := by rw [hv.probes]; exact hz.probes
  have hplaced := placeAtPort_placed v (n + 1) x p (probe_range hx).1 (probe_range hx).2 hvp
  obtain ⟨hlost, hsuspect, hothers⟩ := lostSuspect_rec (r := placeAtPort v (n + 1) x p) (n + 1) (some p) hm1
    (by rw [hplaced.probesLength, hvp]; exact hm24)
  obtain ⟨hafter, hstate, htake⟩ := settles_ended hz hp1 hp12 hv hw (settled_other _ hl hpr hx hne)
    ((makeLost_lengths _ _ _ _).2.trans hplaced.portsLength)
  refine ⟨htake, hstate, ?_, ?_, ?_⟩
  · rw [hafter.probe, hothers x hne, hplaced.own]
    rfl
  · rw [hafter.probe, hlost]
  · rw [hafter.probe, hsuspect]

theorem settles_unmatched (hx : probeByCode c code = none) :
    (portEntry (tabs t) p).takeSeen = false ∧ (portEntry (tabs t) p).state = .unknown ∧ (probeRec (tabs t) m).custody = .lost ∧
      (probeRec (tabs t) m).cond = .suspect ∧ Says.otherProbesStay s t m := by
  obtain ⟨hlost, hsuspect, hothers⟩ := lostSuspect_rec (r := v) (n + 1) (some p) hm1 (by rw [hv.probes, hz.probes]; exact hm24)
  obtain ⟨hafter, hstate, htake⟩ := settles_ended hz hp1 hp12 hv hw (settled_unmatched _ hl hpr hx) (makeLost_lengths _ _ _ _).2
  refine ⟨htake, hstate, ?_, ?_, fun y hy => ?_⟩
  · rw [hafter.probe, hlost]
  · rw [hafter.probe, hsuspect]
  · rw [hafter.probe, hothers y hy, hv.probe]

end

/-- Settles O41: the reservation of a configured port weighed against the report, by the cases of `settled`. -/
theorem rackReportSettlesReservation : Obligations.RackReportSettlesReservation := by
  unfold Obligations.RackReportSettlesReservation
  intro h p present lock code s n k purpose m ht ha hz hc hres hm1 hm24
  have hserves := ht.1
  have hgood := body_good ht.2.2.1
  simp only [bodyGood, portNumber, Bool.and_eq_true, decide_eq_true_eq] at hgood
  obtain ⟨hp1, hp12⟩ := hgood
  obtain ⟨htables, hlatches, r, hr⟩ := completeFrame_portState ht ha
  have hpl : p ≤ r.ports.length := by rw [hr.portsBefore, hz.ports]; exact hp12
  have hv : ButPort p (tabs s.stn) (reported r p present lock code) :=
    (ButPort.ofEq hr.portsBefore hr.probesBefore).trans (butPort_reported present lock code)
  have hvl : p ≤ (reported r p present lock code).ports.length := by rw [hv.length, hz.ports]; exact hp12
  have hvown : portEntry (reported r p present lock code) p =
      { portEntry (tabs s.stn) p with presence := if present then .present else .absent, lock := lock, ident := code } := by
    rw [reported_own hp1 hpl, hr.portBefore]
  rw [if_pos hc, reportPort_settles _ _ _ _ _ _ _ (hr.portBefore p ▸ hres)] at hr
  obtain ⟨hshown, hlength⟩ := settled_shows (c := cellOf s.stn) (m := m) (purpose := purpose) (n + 1) hp1 hvl
    (by rw [hv.probes]; exact hz.probes) (reported_shows hp1 hpl present lock code)
  have hw := hr.restamped hp1 (hlength ▸ hvl)
  have hshows := hw.shows hshown
  refine ⟨{ s with stn := effect (.portState h p present lock code) s.stn }, exec_effect _ s, rfl, ?_⟩
  simp only [effect_serving (c := .portState h p present lock code) rfl hserves rfl]
  refine ⟨htables, hlatches, hshows.presence, hshows.lock, hshows.ident, fun hstands => ?stands, fun hl hdep hpr => ?deposit,
    fun hl hpick hab hseen => ?taken⟩
  case stands =>
    rw [← hres, show (portEntry (tabs s.stn) p).state = (portEntry (reported r p present lock code) p).state by rw [hvown]]
    exact settles_stands hv hw (by rw [hvown]; exact hstands)
  case deposit =>
    subst hdep
    refine ⟨?_, fun hx => (settles_matched hz hp1 hp12 hv hw hl hpr hx).2,
      fun x hx hne => (settles_other hz hp1 hp12 hv hw hm1 hm24 hl hpr hx hne).2,
      fun hx => (settles_unmatched hz hp1 hp12 hv hw hm1 hm24 hl hpr hx).2⟩
    cases hx : probeByCode (cellOf s.stn) code with
    | none => exact (settles_unmatched hz hp1 hp12 hv hw hm1 hm24 hl hpr hx).1
    | some x =>
      by_cases hxm : x = m
      · exact (settles_matched hz hp1 hp12 hv hw hl hpr (hxm ▸ hx)).1
      · exact (settles_other hz hp1 hp12 hv hw hm1 hm24 hl hpr hx hxm).1
  case taken =>
    refine settles_taken hz hp1 hp12 hv hw hpick hl hab ?_ ?_
    · rw [hvown]
      exact hseen
    · rw [hvown, hab]
      rfl

end Sys2Proof.CellPorts
end

section
/-! O42: PORT_ABANDON at the application of its frame (R117). -/

namespace Sys2Proof.CellPorts

open Sys2Proof Sys2Proof.Machine Sys2Proof.Laws
open Sys2Proof.CellLine (effect exec_effect)
open Sys2Proof.CellJoin (effect_serving)

/-- Probe tables of one length that agree entry for entry are the same. -/
theorem probes_ext {r q : Replica} (hl : q.probes.length = r.probes.length) (h : ∀ x, probeRec q x = probeRec r x) : q.probes = r.probes := by
  refine List.ext_getElem hl fun i hq hr => ?_
  have hi := h (i + 1)
  simpa [probeRec, at1, hq, hr] using hi

/-- A station without the reservation abandons nothing. -/
theorem abandonPort_none {k p : Nat} {r : Replica} (lc : Nat) (inside : Bool) (h : ∀ purpose x, (portEntry r p).state ≠ .reserved k purpose x) :
    abandonPort lc k p inside r = none := by
  unfold abandonPort
  dsimp only
  split
  case h_1 j purpose x he =>
    refine if_neg fun hj => h purpose x ?_
    rw [he, hj]
  case h_2 => rfl

/-- An abandoned reservation ends on port `p` alone. -/
theorem abandonPort_others {lc k p : Nat} {inside : Bool} {r q : Replica} (h : abandonPort lc k p inside r = some q) {j : Nat} (hj : j ≠ p) :
    portEntry q j = portEntry r j := by
  have ended : ∀ (v : Replica) (st : PortState), v.ports = r.ports → portEntry (endReservation v lc p st) j = portEntry r j := fun v st hv =>
    ((butPort_set _).ports j hj).trans (by unfold portEntry; rw [hv])
  unfold abandonPort at h
  dsimp only at h
  split at h
  case h_2 => cases h
  case h_1 i purpose x he =>
    split at h
    case isFalse => cases h
    case isTrue =>
      cases purpose with
      | deposit =>
        dsimp only at h
        split at h <;> cases h
        · exact ended _ _ (by split <;> rfl)
        · exact ended _ _ rfl
      | pickup =>
        dsimp only at h
        split at h
        · cases h
          exact ended _ _ (by split <;> rfl)
        · split at h <;> cases h
          · exact ended _ _ rfl
          · exact ended _ _ rfl

/-- Settles O42, by what `abandonPort` leaves of the port and of its probe (`abandon_values`). -/
theorem abandonSettlesPort : Obligations.AbandonSettlesPort := by
  unfold Obligations.AbandonSettlesPort
  intro h p inside s n ht ha hz
  have hserves := ht.1
  have hgood := body_good ht.2.2.1
  simp only [bodyGood, portNumber, Bool.and_eq_true, decide_eq_true_eq] at hgood
  obtain ⟨hp1, hp12⟩ := hgood
  obtain ⟨htables, hlatches, r, hr⟩ := completeFrame_ports (f := ⟨h, .portAbandon p inside⟩) ht rfl rfl ha rfl
    (fun r => portsOnly_orVoid (portsOnlyOpt_guarded _ (portsOnly_abandonPort _ _ _ _ r)))
  replace hr : Carries _ _ r (orVoid r (if configured (cellOf s.stn) p then abandonPort (n + 1) h.sender p inside r else none)).1 := hr
  have hvoid (hno : configured (cellOf s.stn) p = false ∨ ∀ purpose x, (portEntry (tabs s.stn) p).state ≠ .reserved h.sender purpose x) :
      Says.portsStay s.stn (completeFrame s.stn ⟨h, .portAbandon p inside⟩) ∧
        Says.probesStay s.stn (completeFrame s.stn ⟨h, .portAbandon p inside⟩) := by
    have hnone : (if configured (cellOf s.stn) p then abandonPort (n + 1) h.sender p inside r else none) = none := by
      rcases hno with hc | hst
      · rw [hc]
        rfl
      · rw [abandonPort_none _ _ (fun purpose x => hr.portBefore p ▸ hst purpose x), ite_self]
    rw [hnone] at hr
    exact carries_void hr
  refine ⟨{ s with stn := effect (.portAbandon h p inside) s.stn }, exec_effect _ s, rfl, ?_⟩
  simp only [effect_serving (c := .portAbandon h p inside) rfl hserves rfl]
  refine ⟨htables, hlatches, ?others, fun purpose x hc hres hx1 hx24 => ?settles, hvoid⟩
  case others =>
    cases hq : (if configured (cellOf s.stn) p then abandonPort (n + 1) h.sender p inside r else none) with
    | none =>
      rw [hq] at hr
      exact hr.otherPortsStay fun _ _ => rfl
    | some q =>
      rw [hq] at hr
      exact hr.otherPortsStay fun j hj => abandonPort_others (Option.ite_none_right_eq_some.mp hq).2 hj
  case settles =>
    have hprobes : r.probes.length = 24 := by rw [hr.probesBefore]; exact hz.probes
    obtain ⟨q, st, hq, hown, -, -, hlength, -, hothers, hdeposit, hstays, hinside, htaken, huntaken⟩ :=
      abandon_values (n + 1) h.sender p inside r hp1 (by rw [hr.portsBefore, hz.ports]; exact hp12) purpose x hprobes
        (hr.portBefore p ▸ hres) hx1 hx24
    rw [if_pos hc, hq] at hr
    replace hr : Carries s.stn (completeFrame s.stn ⟨h, .portAbandon p inside⟩) r q := hr
    rw [hr.portBefore] at hown hinside htaken huntaken
    rw [hr.probeBefore] at hdeposit hstays hinside htaken huntaken
    have hall (hx : probeRec q x = probeRec (tabs s.stn) x) : Says.probesStay s.stn (completeFrame s.stn ⟨h, .portAbandon p inside⟩) := by
      refine hr.probesStay (probes_ext (hlength.trans hprobes.symm) fun y => ?_)
      by_cases hy : y = x
      · rw [hy, hx, hr.probeBefore]
      · exact hothers y hy
    have hstate : (portEntry (tabs (completeFrame s.stn ⟨h, .portAbandon p inside⟩)) p).state = st := by rw [hr.portAfter, hown]
    refine ⟨?own, hr.otherProbesStay hothers, fun hd hin => ?inside, fun hd hout hne => ?outside, fun hp hin => ?pickup,
      fun hp hout hseen => ?taken, fun hp hout hseen => ?untaken⟩
    case own => rw [hstate, hr.portAfter, hown]
    case inside =>
      obtain ⟨hst, hx⟩ := hdeposit hd hin
      exact ⟨hstate.trans hst, fun hm => by rw [hr.probeAfter, hx, if_pos hm]; rfl, fun hm => hall (by rw [hx, if_neg hm])⟩
    case outside =>
      obtain ⟨hst, hx⟩ := hstays hd hout hne
      exact ⟨hstate.trans hst, hall hx⟩
    case pickup =>
      obtain ⟨hst, hx⟩ := hinside hp hin
      refine ⟨hstate.trans hst, fun hseen hm => by rw [hr.probeAfter, hx, if_pos ⟨hseen, hm⟩]; rfl, fun hm => hall ?_⟩
      rw [hx, if_neg]
      rintro ⟨hseen, hmoved⟩
      rcases hm with hm | hm
      · cases hm.symm.trans hseen
      · exact hm hmoved
    case taken =>
      obtain ⟨hst, hx⟩ := htaken hp hout hseen
      exact ⟨hstate.trans hst, hall hx⟩
    case untaken =>
      obtain ⟨hst, hx⟩ := huntaken hp hout hseen
      exact ⟨hstate.trans hst, hall hx⟩

end Sys2Proof.CellPorts
end

section
/-! O44: MOUNT_REPORT and CUSTODY_SET at the application of their frames (R108, R118, R119). -/

namespace Sys2Proof.CellPorts

open Sys2Proof Sys2Proof.Machine Sys2Proof.Laws
open Sys2Proof.CellLine (effect exec_effect)
open Sys2Proof.CellJoin (effect_serving)

/-! ### Ports that probes leave (R108 step 1) -/

/-- A port's entry as it was, or after a probe has left it: the port UNKNOWN, or its deposit given up and the port EMPTY or UNKNOWN. -/
def LeftPort (r : Replica) (lc q : Nat) (e : PortEntry) : Prop :=
  e = portEntry r q ∨
    (e = { portEntry r q with state := .unknown, stamp := lc } ∧
      ((∃ x, (probeRec r x).custody = .port q) ∨ ∃ k x, (portEntry r q).state = .reserved k .deposit x)) ∨
    (e = { portEntry r q with state := .empty, stamp := lc } ∧ ∃ k x, (portEntry r q).state = .reserved k .deposit x)

theorem vacatedIn_left (r : Replica) (lc x q : Nat) : LeftPort r lc q (vacatedIn r lc x q) := by
  unfold vacatedIn
  dsimp only
  split
  case h_1 j hc =>
    split
    case isTrue hj => exact .inr (.inl ⟨rfl, .inl ⟨x, hj ▸ hc⟩⟩)
    case isFalse => exact .inl rfl
  case h_2 j hc =>
    split
    case isTrue hj =>
      obtain ⟨k, hk⟩ := depositOf_eq hj.2
      exact .inr (.inl ⟨rfl, .inr ⟨k, x, hk⟩⟩)
    case isFalse => exact .inl rfl
  case h_3 =>
    split
    case isTrue hd =>
      obtain ⟨k, hk⟩ := depositOf_eq hd
      exact .inr (.inr ⟨rfl, k, x, hk⟩)
    case isFalse => exact .inl rfl
  case h_4 => exact .inl rfl

/-- A port that still is RESERVED has not been left. -/
theorem LeftPort.stays {r : Replica} {lc q : Nat} {e : PortEntry} (h : LeftPort r lc q e) {k y : Nat} (he : e.state = .reserved k .deposit y) :
    e = portEntry r q := by
  rcases h with h | ⟨rfl, -⟩ | ⟨rfl, -⟩
  · exact h
  · cases he
  · cases he

/-- A probe at a station that becomes LOST takes nothing from a port but a deposit it was RESERVED for. -/
theorem LeftPort.makeLost {r v : Replica} {lc q x k : Nat} (h : LeftPort r lc q (portEntry v q)) (h1 : 1 ≤ q) (h2 : q ≤ v.ports.length)
    (hx : (probeRec v x).custody = .station k) : LeftPort r lc q (portEntry (makeLost v lc none x) q) := by
  rw [makeLost_port v lc none x q h1 h2 nofun]
  unfold vacatedIn
  dsimp only
  rw [hx]
  dsimp only
  split
  case isFalse => exact h
  case isTrue hd =>
    obtain ⟨j, hj⟩ := depositOf_eq hd
    have hold := h.stays hj
    exact .inr (.inr ⟨by rw [hold], j, x, hold ▸ hj⟩)

theorem LeftPort.loseAll {r : Replica} {lc q k : Nat} (h1 : 1 ≤ q) (xs : List Nat) : ∀ v : Replica, xs.Nodup →
    (∀ x ∈ xs, 1 ≤ x ∧ x ≤ v.probes.length ∧ (probeRec v x).custody = .station k) → q ≤ v.ports.length →
    LeftPort r lc q (portEntry v q) → LeftPort r lc q (portEntry (loseAll lc none xs v) q) := by
  induction xs with
  | nil => exact fun v _ _ _ h => h
  | cons a xs ih =>
    intro v hnodup hat h2 h
    obtain ⟨ha, hxs⟩ := List.nodup_cons.mp hnodup
    obtain ⟨ha1, ha2, hak⟩ := hat a List.mem_cons_self
    obtain ⟨hprobes, hports⟩ := makeLost_lengths v lc none a
    refine ih _ hxs (fun x hx => ?_) (hports ▸ h2) (h.makeLost h1 h2 hak)
    obtain ⟨hx1, hx2, hxk⟩ := hat x (List.mem_cons_of_mem a hx)
    have hne : x ≠ a := fun e => ha (e ▸ hx)
    refine ⟨hx1, hprobes ▸ hx2, ?_⟩
    rw [makeLost_rec v lc none a ha1 ha2, if_neg fun hc => hne hc.1, hxk]

theorem placeAtStation_left {r : Replica} {lc x k q : Nat} (hl : r.probes.length = 24) (h1 : 1 ≤ q) (h2 : q ≤ r.ports.length) :
    LeftPort r lc q (portEntry (placeAtStation r lc x k none) q) := by
  have hvacated : LeftPort r lc q (portEntry (vacate r lc x none) q) := by
    rw [vacate_port r lc x none q h1 h2 nofun]
    exact vacatedIn_left r lc x q
  refine LeftPort.loseAll (k := k) h1 _ _ ((probesWith_nodup _ _).filter _) (fun y hy => ?_) (by rw [vacate_ports]; exact h2) hvacated
  obtain ⟨hy1, hy24, hyk⟩ := (probesWith_mem _ _ y).mp (List.mem_filter.mp hy).1
  exact ⟨hy1, by rw [vacate_probes, hl]; exact hy24, by simpa using hyk⟩

/-- What a port keeps of the table stands outside the table as well. -/
theorem portEntry_outside {r : Replica} {q : Nat} (h : ¬ (1 ≤ q ∧ q ≤ r.ports.length)) :
    portEntry r q = ⟨.empty, .unreported, .locked, none, false, 0⟩ := at1_outside _ _ _ h

theorem portsFollow_says {s t : Station} {r q : Replica} {n : Nat} (hr : Carries s t r q) (hlength : q.ports.length = r.ports.length)
    (h : ∀ j, 1 ≤ j → j ≤ r.ports.length → LeftPort r (n + 1) j (portEntry q j)) : Says.portsFollow s t 0 n := by
  intro j _
  by_cases hj : 1 ≤ j ∧ j ≤ r.ports.length
  · have hleft := h j hj.1 hj.2
    unfold LeftPort at hleft
    simp only [hr.portBefore, hr.probeBefore, ← hr.portAfter] at hleft
    exact hleft
  · left
    rw [hr.portAfter, ← hr.portBefore, portEntry_outside hj, portEntry_outside (hlength ▸ hj)]

/-! ### A probe at a station (R118, R119) -/

section
variable {s t : Station} {r : Replica} {n : Nat} (hz : TablesSized (tabs s))
include hz

theorem atStation_says {x k : Nat} (hx1 : 1 ≤ x) (hx24 : x ≤ 24) (hr : Carries s t r (placeAtStation r (n + 1) x k none)) :
    Says.portsFollow s t 0 n ∧ probeRec (tabs t) x = Says.placed (probeRec (tabs s) x) (.station k) n ∧ Says.stationCleared s t [x] k := by
  have hl : r.probes.length = 24 := by rw [hr.probesBefore]; exact hz.probes
  have hplaced := placeAtStation_placed r (n + 1) x k none hx1 hx24 hl
  refine ⟨portsFollow_says hr hplaced.portsLength fun j => placeAtStation_left hl, ?_, fun y hy1 hy24 hy hc => ?_, fun y hy hc => ?_⟩
  · rw [hr.probeAfter, hplaced.own, hr.probeBefore]
    rfl
  · rw [hr.probeAfter, hplaced.gone y hy1 hy24 (by simpa using hy) (by rw [hr.probeBefore, hc])]
    rfl
  · rw [hr.probeAfter, hplaced.kept y (by simpa using hy) (by rw [hr.probeBefore]; exact hc), hr.probeBefore]

/-- An unmatched code: the station's probes are LOST. -/
theorem stationLost_says {k : Nat} (hr : Carries s t r (loseAll (n + 1) none (probesWith r (fun cu => cu == .station k)) r)) :
    Says.portsFollow s t 0 n ∧ Says.stationCleared s t [] k := by
  have hl : r.probes.length = 24 := by rw [hr.probesBefore]; exact hz.probes
  have hmem : ∀ y, y ∈ probesWith r (fun cu => cu == .station k) ↔ 1 ≤ y ∧ y ≤ 24 ∧ (probeRec r y).custody = .station k := fun y => by
    simpa using probesWith_mem r (fun cu => cu == .station k) y
  have hrec := loseAll_rec (n + 1) none _ r (probesWith_nodup r (fun cu => cu == .station k)) fun y hy =>
    ⟨((hmem y).mp hy).1, hl ▸ ((hmem y).mp hy).2.1⟩
  refine ⟨portsFollow_says hr (loseAll_lengths _ _ _ _).2 fun j hj1 hj2 => ?_, fun y hy1 hy24 _ hc => ?_, fun y _ hc => ?_⟩
  · exact LeftPort.loseAll hj1 _ r (probesWith_nodup _ _)
      (fun y hy => ⟨((hmem y).mp hy).1, hl ▸ ((hmem y).mp hy).2.1, ((hmem y).mp hy).2.2⟩) hj2 (.inl rfl)
  · rw [← hr.probeBefore] at hc
    rw [hr.probeAfter, hrec y, if_pos ⟨(hmem y).mpr ⟨hy1, hy24, hc⟩, by rw [hc]; exact nofun⟩]
    rfl
  · rw [← hr.probeBefore] at hc
    rw [hr.probeAfter, hrec y, if_neg fun k => hc ((hmem y).mp k.1).2.2, hr.probeBefore]

end

/-! ### MOUNT_REPORT (R118) -/

section
variable (c : CellPart) (lc k : Nat) {code : Option Code} (r : Replica)

theorem mountProbe_some {x : Nat} (h : probeByCode c code = some x) : mountProbe c lc k code r = placeAtStation r lc x k none := by
  unfold mountProbe
  rw [h]

theorem mountProbe_none (h : probeByCode c code = none) :
    mountProbe c lc k code r = loseAll lc none (probesWith r (fun cu => cu == .station k)) r := by
  unfold mountProbe
  rw [h]

end

theorem mountIsReported {h : Hdr} {code : Option Code} {s : State} {n : Nat} (ht : Says.takes s.stn ⟨h, .mountReport code⟩ n)
    (ha : Says.passes s.stn h) (hz : TablesSized (tabs s.stn)) :
    ∃ t : State, exec (.mountReport h code) s = .next t ∧ t.pending = s.pending ∧ Says.tablesElse s.stn t.stn h n ∧
      Says.latchesStay s.stn t.stn ∧ Says.portsFollow s.stn t.stn 0 n ∧
      (∀ x, probeByCode (cellOf s.stn) code = some x →
        probeRec (tabs t.stn) x = Says.placed (probeRec (tabs s.stn) x) (.station h.sender) n ∧
        Says.stationCleared s.stn t.stn [x] h.sender) ∧
      (probeByCode (cellOf s.stn) code = none → Says.stationCleared s.stn t.stn [] h.sender) := by
  have hserves := ht.1
  obtain ⟨htables, hlatches, r, hr⟩ := completeFrame_ports (f := ⟨h, .mountReport code⟩) ht rfl rfl ha rfl
    (fun r => portsOnly_mountProbe _ _ _ _ r)
  replace hr : Carries _ _ r (mountProbe (cellOf s.stn) (n + 1) h.sender code r) := hr
  refine ⟨{ s with stn := effect (.mountReport h code) s.stn }, exec_effect _ s, rfl, ?_⟩
  simp only [effect_serving (c := .mountReport h code) rfl hserves rfl]
  cases hx : probeByCode (cellOf s.stn) code with
  | none =>
    rw [mountProbe_none _ _ _ _ hx] at hr
    obtain ⟨hfollow, hcleared⟩ := stationLost_says hz hr
    exact ⟨htables, hlatches, hfollow, nofun, fun _ => hcleared⟩
  | some x =>
    rw [mountProbe_some _ _ _ _ hx] at hr
    obtain ⟨hfollow, hplaced⟩ := atStation_says hz (probe_range hx).1 (probe_range hx).2 hr
    refine ⟨htables, hlatches, hfollow, fun y hy => ?_, nofun⟩
    cases hy
    exact hplaced

/-! ### CUSTODY_SET (R119) -/

section
variable {c : CellPart} (lc : Nat) {x : Nat} (r : Replica) (hx : inUse c x = true)
include hx

theorem custodyBy_port {p : Nat} (hp : configured c p = true) : custodyBy c lc x (.port p) r =
    some (restamp (setPortState (placeAtPort r lc x p) lc p (.occupied x)) lc p (portEntry r p)) := by
  simp [custodyBy, hx, hp]

theorem custodyBy_station {k : Nat} (hk : roleIn c k = .mc410) : custodyBy c lc x (.station k) r = some (placeAtStation r lc x k none) := by
  simp [custodyBy, hx, hk]

theorem custodyBy_lost : custodyBy c lc x .lost r = some (makeLost r lc none x) := by
  simp [custodyBy, hx]

end

theorem custodyBy_none {c : CellPart} (lc : Nat) {x : Nat} {cu : Custody} (r : Replica) (h : inUse c x = false ∨
    (∃ p, cu = .port p ∧ configured c p = false) ∨ (∃ k, cu = .station k ∧ roleIn c k ≠ .mc410) ∨ ∃ p, cu = .transfer p) :
    custodyBy c lc x cu r = none := by
  unfold custodyBy
  rcases h with hx | ⟨p, rfl, hp⟩ | ⟨k, rfl, hk⟩ | ⟨p, rfl⟩
  · simp [hx]
  · simp [hp]
  · simp [hk]
  · simp

theorem custodyIsSet {h : Hdr} {x : Nat} {cu : Custody} {s : State} {n : Nat} (ht : Says.takes s.stn ⟨h, .custodySet x cu⟩ n)
    (ha : Says.passes s.stn h) (hz : TablesSized (tabs s.stn)) :
    ∃ t : State, exec (.custodySet h x cu) s = .next t ∧ t.pending = s.pending ∧ Says.tablesElse s.stn t.stn h n ∧
      Says.latchesStay s.stn t.stn ∧
      (inUse (cellOf s.stn) x = true →
        (∀ p, cu = .port p → configured (cellOf s.stn) p = true →
          Says.placedAtPort s.stn t.stn x p n ∧
          portEntry (tabs t.stn) p = { portEntry (tabs s.stn) p with state := .occupied x, stamp := (portEntry (tabs t.stn) p).stamp }) ∧
        (∀ k, cu = .station k → roleIn (cellOf s.stn) k = .mc410 →
          probeRec (tabs t.stn) x = Says.placed (probeRec (tabs s.stn) x) (.station k) n ∧
          Says.stationCleared s.stn t.stn [x] k ∧ Says.portsFollow s.stn t.stn 0 n) ∧
        (cu = .lost → Says.lostFrom s.stn t.stn x 0 n)) ∧
      (inUse (cellOf s.stn) x = false ∨ (∃ p, cu = .port p ∧ configured (cellOf s.stn) p = false) ∨
          (∃ k, cu = .station k ∧ roleIn (cellOf s.stn) k ≠ .mc410) ∨ (∃ p, cu = .transfer p) →
        Says.portsStay s.stn t.stn ∧ Says.probesStay s.stn t.stn) := by
  have hserves := ht.1
  have hgood := body_good ht.2.2.1
  simp only [bodyGood, probeNumber, Bool.and_eq_true, decide_eq_true_eq] at hgood
  obtain ⟨⟨hx1, hx24⟩, hcu⟩ := hgood
  obtain ⟨htables, hlatches, r, hr⟩ := completeFrame_ports (f := ⟨h, .custodySet x cu⟩) ht rfl rfl ha rfl
    (fun r => portsOnly_orVoid (portsOnly_custodyBy _ _ _ _ r))
  replace hr : Carries _ _ r (orVoid r (custodyBy (cellOf s.stn) (n + 1) x cu r)).1 := hr
  refine ⟨{ s with stn := effect (.custodySet h x cu) s.stn }, exec_effect _ s, rfl, ?_⟩
  simp only [effect_serving (c := .custodySet h x cu) rfl hserves rfl]
  refine ⟨htables, hlatches, fun hx => ⟨fun p hcp hp => ?port, fun k hck hk => ?station, fun hcl => ?lost⟩, fun hnot => ?void⟩
  case port =>
    subst hcp
    simp only [custodyGood, portNumber, Bool.and_eq_true, decide_eq_true_eq] at hcu
    rw [custodyBy_port _ _ hx hp] at hr
    have hplaced := placeAtPort_placed r (n + 1) x p hx1 hx24 (by rw [hr.probesBefore]; exact hz.probes)
    have hpl : p ≤ r.ports.length := by rw [hr.portsBefore, hz.ports]; exact hcu.2
    have hql : p ≤ (placeAtPort r (n + 1) x p).ports.length := by rw [hplaced.portsLength]; exact hpl
    have hw := hr.restamped hcu.1 ((set1_length _ _ _).symm ▸ hql)
    have hv : ButPort p (tabs s.stn) r := ButPort.ofEq hr.portsBefore hr.probesBefore
    refine ⟨placedAtPort_says hv ((butPort_set _).trans hw.after) hz.ports hplaced, ?_⟩
    have hset : portEntry (setPortState (placeAtPort r (n + 1) x p) (n + 1) p (.occupied x)) p =
        { portEntry r p with state := .occupied x, stamp := n + 1 } := by
      have hkept := hplaced.fields p hcu.1 hpl
      rw [portEntry_setPortState _ _ _ _ hcu.1 hql, if_pos rfl, PortEntry.mk.injEq]
      exact ⟨rfl, hkept.presence, hkept.lock, hkept.ident, hkept.takeSeen, rfl⟩
    obtain ⟨st, hown⟩ := hw.own
    rw [hown, hset, hr.portBefore]
  case station =>
    subst hck
    rw [custodyBy_station _ _ hx hk] at hr
    obtain ⟨hfollow, hplaced, hcleared⟩ := atStation_says hz hx1 hx24 hr
    exact ⟨hplaced, hcleared, hfollow⟩
  case lost =>
    subst hcl
    rw [custodyBy_lost _ _ hx] at hr
    exact lostFrom_says (keep := none) (fun _ _ _ => nofun) (ButPort.ofEq hr.portsBefore hr.probesBefore)
      (ButPort.ofEq hr.portsAfter hr.probesAfter) hz hx1 hx24
  case void =>
    rw [custodyBy_none _ _ hnot] at hr
    exact carries_void hr

/-- Settles O44, by `mountIsReported` and `custodyIsSet`. -/
theorem custodyIsReported : Obligations.CustodyIsReported :=
  ⟨fun _ _ _ _ ht ha hz => mountIsReported ht ha hz, fun _ _ _ _ _ ht ha hz => custodyIsSet ht ha hz⟩

end Sys2Proof.CellPorts
end

section
/-! O58: presence inputs and lock delays of the rack station (R110, R111). -/

namespace Sys2Proof.CellRack

open Sys2Proof Sys2Proof.Machine Sys2Proof.Laws
open Sys2Proof.CellLine (effect exec_effect)
open Sys2Proof.CellZones (exec_still)
open Sys2Proof.CellJoin (offerControl_taken offerControl_waits)

/-! ### A presence input (R110) -/

/-- The pins with a presence input moved and the identity line of its port read. -/
def presenceRead (s : Station) (p : Nat) (present : Bool) (code : Option Code) : Pins :=
  { s.pins with presence := set1 s.pins.presence p present, portIdent := set1 s.pins.portIdent p code }

section
variable {s : Station} {p : Nat} {present : Bool} (code : Option Code)

theorem presenceMoved_still (h : p = 0 ∨ 12 < p ∨ at1 s.pins.presence false p = present) : presenceMoved s p present code = s := by
  refine if_pos ?_
  rcases h with rfl | h | h
  · rfl
  · simp [portNumber, Nat.not_le.mpr h]
  · simp [h]

variable (h1 : 1 ≤ p) (h12 : p ≤ 12) (hp : at1 s.pins.presence false p ≠ present)
include h1 h12 hp

theorem presenceMoved_eq : presenceMoved s p present code =
    if isRack s && listening s && configured (cellOf s) p then
      { s with pins := presenceRead s p present code, rack := set1 s.rack p ⟨(rackPort s p).lock, some (s.now + 200)⟩ }
    else { s with pins := presenceRead s p present code } := by
  refine if_neg ?_
  simp [portNumber, h1, h12, hp]

end

/-! ### A lock delay (R110, R111) -/

theorem lockDelayOver_still {s : Station} {p : Nat} (h : (rackPort s p).lockDue = none) : lockDelayOver s p = s := by
  unfold lockDelayOver
  rw [h]

/-- The lock delay of a port taken off it, at the moment it runs out. -/
def delayTaken (s : Station) (p due : Nat) : Station := setRackPort (atDue s due) p { rackPort s p with lockDue := none }

/-- The report on a port that the rack station has locked (R111). -/
def lockedReport (s : Station) (p : Nat) : Body :=
  .portState p (at1 s.pins.presence false p) .locked (if at1 s.pins.presence false p then at1 s.pins.portIdent none p else none)

/-- The port locked and its pending report withdrawn. -/
def lockedStn (s : Station) (p due : Nat) : Station :=
  withdrawWaiting { atDue s due with rack := set1 s.rack p ⟨.locked, none⟩ } (fun w => w.src == .rack p)

section
variable {s : Station} {p due : Nat} (h : (rackPort s p).lockDue = some due)
include h

theorem lockDelayOver_eq : lockDelayOver s p =
    if rackWorks s then reportRack (setLock (delayTaken s p due) p .locked) p else delayTaken s p due := by
  unfold lockDelayOver
  rw [h]
  rfl

theorem rackPort_range : 1 ≤ p ∧ p ≤ s.rack.length := by
  refine at1_range s.rack ⟨.locked, none⟩ p fun hd => ?_
  unfold rackPort at h
  rw [hd] at h
  cases h

theorem rackPort_delayTaken : rackPort (delayTaken s p due) p = ⟨(rackPort s p).lock, none⟩ := by
  obtain ⟨h1, h2⟩ := rackPort_range h
  exact at1_set1_same s.rack _ _ _ h1 h2

theorem setLock_delayTaken : setLock (delayTaken s p due) p .locked = { atDue s due with rack := set1 s.rack p ⟨.locked, none⟩ } := by
  unfold setLock
  rw [rackPort_delayTaken h]
  unfold delayTaken setRackPort atDue
  simp only [set1_set1]

/-- The report offered at the end of a lock delay, the pending one withdrawn. -/
theorem lockDelayOver_reports (hw : rackWorks s = true) : lockDelayOver s p =
    offerControl (lockedStn s p due) (.rack p) 0 (lockedReport s p) := by
  obtain ⟨h1, h2⟩ := rackPort_range h
  have hlock : rackPort { atDue s due with rack := set1 s.rack p ⟨.locked, none⟩ } p = ⟨.locked, none⟩ := at1_set1_same s.rack _ _ _ h1 h2
  rw [lockDelayOver_eq h, if_pos hw, setLock_delayTaken h]
  unfold reportRack
  rw [hlock]
  rfl

theorem lockDelayOver_taken (hw : rackWorks s = true) (hroom : controlHeld s.line < 7) : lockDelayOver s p =
    { atDue s due with
      rack := set1 s.rack p ⟨.locked, none⟩
      line := { s.line with control := s.line.control ++ [⟨0, lockedReport s p⟩]
                            waiting := s.line.waiting.filter (fun w => w.src != .rack p) } } := by
  refine (lockDelayOver_reports h hw).trans ((offerControl_taken (s := lockedStn s p due) 0 _ hroom fun w hm => ?_).trans rfl)
  have hkept := (List.mem_filter.mp hm).2
  simpa using hkept

theorem lockDelayOver_waits (hw : rackWorks s = true) (hfull : 7 ≤ controlHeld s.line) : lockDelayOver s p =
    { atDue s due with
      rack := set1 s.rack p ⟨.locked, none⟩
      line := { s.line with waiting := s.line.waiting.filter (fun w => w.src != .rack p) ++ [⟨.rack p, ⟨0, lockedReport s p⟩⟩] } } :=
  (lockDelayOver_reports h hw).trans ((offerControl_waits (s := lockedStn s p due) _ 0 _ hfull).trans rfl)

end

/-! ### The statement -/

theorem presenceStarts {p : Nat} {present : Bool} (code : Option Code) {s : State} (h1 : 1 ≤ p) (h12 : p ≤ 12)
    (hp : at1 s.stn.pins.presence false p ≠ present) :
    ∃ t : State, exec (.presenceChange p present code) s = .next t ∧ t.pending = s.pending ∧
      t.stn = { s.stn with pins := t.stn.pins, rack := t.stn.rack } ∧
      t.stn.pins = { s.stn.pins with presence := set1 s.stn.pins.presence p present, portIdent := set1 s.stn.pins.portIdent p code } ∧
      (isRack s.stn = true → listening s.stn = true → configured (cellOf s.stn) p = true →
        t.stn.rack = set1 s.stn.rack p ⟨(rackPort s.stn p).lock, some (s.stn.now + 200)⟩) ∧
      (isRack s.stn = false ∨ listening s.stn = false ∨ configured (cellOf s.stn) p = false → t.stn.rack = s.stn.rack) := by
  refine ⟨{ s with stn := effect (.presenceChange p present code) s.stn }, exec_effect _ s, rfl, ?_⟩
  simp only [show effect (.presenceChange p present code) s.stn = presenceMoved s.stn p present code from rfl, presenceMoved_eq code h1 h12 hp]
  by_cases hstarts : (isRack s.stn && listening s.stn && configured (cellOf s.stn) p) = true
  · rw [if_pos hstarts]
    simp only [Bool.and_eq_true] at hstarts
    obtain ⟨⟨hrack, hlisten⟩, hconf⟩ := hstarts
    exact ⟨rfl, rfl, fun _ _ _ => rfl, by simp [hrack, hlisten, hconf]⟩
  · rw [if_neg hstarts]
    exact ⟨rfl, rfl, fun hrack hlisten hconf => absurd (by simp [hrack, hlisten, hconf]) hstarts, fun _ => rfl⟩

theorem lockDelayEnds {p due : Nat} {s : State} (h : (rackPort s.stn p).lockDue = some due) :
    ∃ t : State, exec (.lockDelayExpiry p) s = .next t ∧ t.pending = s.pending ∧
      t.stn = { s.stn with now := max s.stn.now due, line := t.stn.line, rack := t.stn.rack } ∧
      (rackWorks s.stn = false → t.stn.rack = set1 s.stn.rack p ⟨(rackPort s.stn p).lock, none⟩ ∧ t.stn.line = s.stn.line) ∧
      (rackWorks s.stn = true → t.stn.rack = set1 s.stn.rack p ⟨.locked, none⟩ ∧
        ∀ b, b = Body.portState p (at1 s.stn.pins.presence false p) .locked
            (if at1 s.stn.pins.presence false p = true then at1 s.stn.pins.portIdent none p else none) →
          (controlHeld s.stn.line < 7 → t.stn.line = { s.stn.line with control := s.stn.line.control ++ [⟨0, b⟩]
                                                                       waiting := s.stn.line.waiting.filter (fun w => w.src != .rack p) }) ∧
          (7 ≤ controlHeld s.stn.line → t.stn.line = { s.stn.line with
            waiting := s.stn.line.waiting.filter (fun w => w.src != .rack p) ++ [⟨.rack p, ⟨0, b⟩⟩] })) := by
  refine ⟨{ s with stn := effect (.lockDelayExpiry p) s.stn }, exec_effect _ s, rfl, ?_⟩
  simp only [show effect (.lockDelayExpiry p) s.stn = lockDelayOver s.stn p from rfl]
  by_cases hw : rackWorks s.stn = true
  · have hnot : rackWorks s.stn ≠ false := by simp [hw]
    by_cases hroom : controlHeld s.stn.line < 7
    · rw [lockDelayOver_taken h hw hroom]
      exact ⟨rfl, fun hf => absurd hf hnot,
        fun _ => ⟨rfl, fun b hb => hb ▸ ⟨fun _ => rfl, fun hfull => absurd hroom (Nat.not_lt.mpr hfull)⟩⟩⟩
    · rw [lockDelayOver_waits h hw (Nat.not_lt.mp hroom)]
      exact ⟨rfl, fun hf => absurd hf hnot, fun _ => ⟨rfl, fun b hb => hb ▸ ⟨fun hlt => absurd hlt hroom, fun _ => rfl⟩⟩⟩
  · rw [lockDelayOver_eq h, if_neg hw]
    exact ⟨rfl, fun _ => ⟨rfl, rfl⟩, fun h => absurd h hw⟩

/-- Settles O58: a presence input by `presenceStarts`, a lock delay by `lockDelayEnds`, and the events that cannot occur. -/
theorem rackLocksAndReports : Obligations.RackLocksAndReports :=
  ⟨fun _ _ code _ h1 h12 hp => presenceStarts code h1 h12 hp, fun _ _ code _ h => exec_still (presenceMoved_still code h),
    fun _ _ _ h => lockDelayEnds h, fun _ _ h => exec_still (lockDelayOver_still h)⟩

end Sys2Proof.CellRack
end

section
/-! O52: the requests CHANGE and QUALIFY: what their checks decide, and what they begin once accepted (R122, R123, R132). -/

namespace Sys2Proof.CellChange

open Sys2Proof Sys2Proof.Machine Sys2Proof.Laws
open Sys2Proof.CellLine (effect exec_effect)
open Sys2Proof.CellZones (asks_isNext accept_answered)
open Sys2Proof.CellMotion (Decides refuse_refused parkedMode_iff)

/-! ### The first check that fails -/

/-- Where the first of the conditions that fails carries a reason, the first check that fails carries it too. -/
def Refuses (l : List (Prop × Nat)) (cs : List (Bool × Reason)) : Prop :=
  ∀ n, Says.firstOf l n → ∃ r, firstFailing cs = some r ∧ reasonNumber r = n

theorem Refuses.nil : Refuses [] [] := fun _ hn => hn.elim

/-- What follows a condition matters only where the condition holds. -/
theorem Refuses.cons {p : Prop} {b : Bool} {r : Reason} {l : List (Prop × Nat)} {cs : List (Bool × Reason)} (h : p ↔ b = true)
    (hrest : p → Refuses l cs) : Refuses ((p, reasonNumber r) :: l) ((b, r) :: cs) := by
  rintro n (⟨hnot, rfl⟩ | ⟨hyes, hlater⟩)
  · exact ⟨r, if_neg fun hb => hnot (h.mpr hb), rfl⟩
  · obtain ⟨q, hq, hnum⟩ := hrest hyes n hlater
    exact ⟨q, (if_pos (h.mp hyes)).trans hq, hnum⟩

theorem isReserved_false {st : PortState} : isReserved st = false ↔ ∀ k w y, st ≠ .reserved k w y := by
  cases st <;> simp [isReserved]

/-! ### The checks of a CHANGE (R122) -/

section
variable (s : Station) {x : Nat}

theorem portHolding_port {p : Nat} (h : (probeRec (tabs s) x).custody = .port p) : portHolding s x = p := by
  unfold portHolding
  rw [h]

theorem portHolding_none (h : ∀ p, (probeRec (tabs s) x).custody ≠ .port p) : portHolding s x = 0 := by
  unfold portHolding
  split
  next p hp => exact absurd hp (h p)
  next => rfl

/-- The port of the probe is not RESERVED. -/
theorem portUnreserved_iff : (∀ p, p ≠ 0 → (probeRec (tabs s) x).custody = .port p → ∀ k w y, (portEntry (tabs s) p).state ≠ .reserved k w y) ↔
    (!(portHolding s x != 0 && isReserved (portEntry (tabs s) (portHolding s x)).state)) = true := by
  by_cases hport : ∃ p, (probeRec (tabs s) x).custody = .port p
  · obtain ⟨p, hp⟩ := hport
    rw [portHolding_port s hp]
    simp only [hp, ← isReserved_false, Custody.port.injEq, Bool.not_eq_true', Bool.and_eq_false_iff, bne_eq_false_iff_eq]
    refine ⟨fun h => ?_, fun h q hq0 hpq => hpq ▸ h.resolve_left fun hp0 => hq0 (hpq ▸ hp0)⟩
    by_cases hp0 : p = 0
    · exact .inl hp0
    · exact .inr (h p hp0 rfl)
  · rw [portHolding_none s fun p hp => hport ⟨p, hp⟩]
    simp only [not_exists] at hport
    simp [hport]

/-- The probe lies in its port. -/
theorem portOccupied_iff : (∃ p, p ≠ 0 ∧ (probeRec (tabs s) x).custody = .port p ∧ (portEntry (tabs s) p).state = .occupied x) ↔
    (portHolding s x != 0 && (portEntry (tabs s) (portHolding s x)).state == .occupied x) = true := by
  by_cases hport : ∃ p, (probeRec (tabs s) x).custody = .port p
  · obtain ⟨p, hp⟩ := hport
    simp only [portHolding_port s hp, hp, Custody.port.injEq, Bool.and_eq_true, bne_iff_ne, beq_iff_eq]
    exact ⟨fun ⟨q, hq0, hpq, hq⟩ => hpq ▸ ⟨hq0, hq⟩, fun ⟨hp0, hocc⟩ => ⟨p, hp0, rfl, hocc⟩⟩
  · rw [portHolding_none s fun p hp => hport ⟨p, hp⟩]
    simp only [not_exists] at hport
    simp [hport]

/-- The home port of the mounted probe is EMPTY. -/
theorem homeEmpty_iff : (∀ m, mounted s = some m → (portEntry (tabs s) (probeCfg (cellOf s) m).home).state = .empty) ↔
    (match depositPlan s with
      | none => true
      | some (_, pm) => (portEntry (tabs s) pm).state == .empty) = true := by
  unfold depositPlan
  cases mounted s <;> simp

theorem changeChecks_refuse : Refuses (Says.changeList s x) (changeChecks s x) := by
  refine .cons (r := .busy) (by simp) fun _ => .cons (r := .notActive) ?active fun _ => .cons (r := .parked) ?parked fun _ =>
    .cons (r := .badArg) (by simp [and_assoc]) fun _ => .cons (r := .busy) (by simp [changeRuns, chan, and_assoc]) fun _ =>
    .cons (r := .notHomed) Iff.rfl fun _ => .cons (r := .rackUnavailable) (by simp [rackActive]) fun _ =>
    .cons (r := .rackUnavailable) (portUnreserved_iff s) fun _ => .cons (r := .probeNotInRack) (portOccupied_iff s) fun hport =>
    .cons (r := .portOccupied) (homeEmpty_iff s) fun _ => .cons (r := .zoneForbidden) ?route fun _ => .nil
  case active =>
    simp only [Bool.and_eq_true, ownActive, beq_iff_eq]
    rfl
  case parked =>
    simp [parkedMode]
  case route =>
    obtain ⟨p, -, hp, -⟩ := hport
    rw [portHolding_port s hp]
    simp [hp]

end

/-! ### A CHANGE accepted (R122, R123) -/

/-- What a CHANGE that takes probe `x` from port `p` must meet. -/
structure Changes (u : Station) (x p : Nat) : Prop where
  stays : u.request.restartPending = false
  serves : serving u = true
  active : (rosterEntry (tabs u) (me u)).state = .active
  unparked : u.loader.mode ≠ .parked
  arm : isArm u = true
  probe : inUse (cellOf u) x = true
  idle : u.change.state = .idle
  still : Says.allIdle u
  homed : allHomed u = true
  rack : rosterState (tabs u) (cellOf u).rackStation = .active
  custody : (probeRec (tabs u) x).custody = .port p
  port : p ≠ 0
  occupied : (portEntry (tabs u) p).state = .occupied x
  home : ∀ m pm, depositPlan u = some (m, pm) → (portEntry (tabs u) pm).state = .empty
  free : meets (routeSet u (depositPlan u) x p) (othersHomeMask (cellOf u) (me u)) = false
  rackA : withinLimits u .a (cellOf u).rackA = true
  rackB : withinLimits u .b (cellOf u).rackB = true

/-- The changer that a CHANGE records. -/
def changer (u : Station) (tag : Code) (x p : Nat) : Changer :=
  { Changer.idleWith u.change.output u.change.lastFailure with
    state := .claiming, tag := tag, t := x, pt := p, deposit := depositPlan u, route := routeSet u (depositPlan u) x p }

namespace Changes

variable {u : Station} {x p : Nat} (h : Changes u x p)
include h

theorem passes : firstFailing (changeChecks u x) = none := by
  have hhome : (match depositPlan u with
      | none => true
      | some (_, pm) => (portEntry (tabs u) pm).state == .empty) = true := by
    cases hd : depositPlan u with
    | none => rfl
    | some mp => exact beq_iff_eq.mpr (h.home mp.1 mp.2 hd)
  have hactive : ownActive u = true := beq_iff_eq.mpr h.active
  have hidle (c : ChanId) : (chan u c).state = .idle := by
    cases c
    · exact h.still.1
    · exact h.still.2.2.1
  have hport := portHolding_port u h.custody
  refine firstFailing_all fun c hc => ?_
  simp only [changeChecks, hport, List.mem_cons, List.not_mem_nil, or_false] at hc
  rcases hc with rfl | rfl | rfl | rfl | rfl | rfl | rfl | rfl | rfl | rfl | rfl
  · simp [h.stays]
  · simp [h.serves, hactive]
  · simpa [parkedMode] using h.unparked
  · simp [h.arm, h.probe, h.custody]
  · simp [changeRuns, h.idle, hidle]
  · exact h.homed
  · exact beq_iff_eq.mpr h.rack
  · simp [h.occupied, isReserved]
  · simp [h.port, h.occupied]
  · exact hhome
  · simp [h.free]

/-- The request decided: the changer recorded, the INDEX to the rack attitude given to the HEAD channel. -/
theorem accepted (src : Nat) (tag : Code) : requestChange (takeRequest u) src tag x =
    accept (giveSegment (setChange (takeRequest u) (changer u tag x p)) .head (.index (cellOf u).rackA (cellOf u).rackB) false
      (ownOf u).indexRate) src tag 7 0 := by
  have hport : portHolding (takeRequest u) x = p := portHolding_port u h.custody
  unfold requestChange
  rw [decide_none (by rw [changeChecks_take]; exact h.passes), hport]
  unfold startChange
  rw [routeSet_take]
  rfl

theorem given (tag : Code) : Given (setChange (takeRequest u) (changer u tag x p))
    (giveSegment (setChange (takeRequest u) (changer u tag x p)) .head (.index (cellOf u).rackA (cellOf u).rackB) false (ownOf u).indexRate)
    .head (.index (cellOf u).rackA (cellOf u).rackB) false (ownOf u).indexRate (routeSet u (depositPlan u) x p) := by
  obtain ⟨harm, harmq, hhead, hheadq⟩ := h.still
  refine giveSegment_idle hhead hheadq harm harmq nofun nofun h.homed ?limits (fun g hk ho => ?set) h.free
  case limits => exact Bool.and_eq_true_iff.mpr ⟨h.rackA, h.rackB⟩
  case set =>
    unfold zoneSetOf
    rw [ho, hk]
    rfl

end Changes

/-! ### The checks of a QUALIFY, and what it offers (R132) -/

theorem headTemp_isSome (s : Station) :
    (headTemp s).isSome = true ↔ ∃ b, boardKind (tabs s) (me s) .head = some b ∧ b.state = .valid ∧ b.excluded = false := by
  unfold headTemp scaleTemp
  cases boardKind (tabs s) (me s) .head with
  | none => simp
  | some b => by_cases hb : b.state = .valid ∧ b.excluded = false <;> simp [hb]

theorem qualifyChecks_decide (s : Station) (x i n : Nat) (e : Tip) : Decides (Says.qualifyList s x i n e) (qualifyChecks s x i n e) := by
  refine .check (r := .busy) (by simp) (.check (r := .notActive) Iff.rfl (.check (r := .busy) (by simp [changeRuns])
    (.check (r := .badArg) ?args (.check (r := .noProbe) (by simp [probeNumber, and_assoc]) (.check (r := .thermalMissing) ?temp
      (.check (r := .queueFull) ?room .nil))))))
  case args =>
    have haxes : (chanAxes s .head = [] → e.a = 0 ∧ e.b = 0) ↔ (hasAxes s .head || (e.a == 0 && e.b == 0)) = true := by
      unfold hasAxes
      by_cases h : chanAxes s .head = [] <;> simp [h]
    rw [haxes]
    simp [qualifyArgs, partNumber, tipGood, orientationGood, and_assoc]
  case temp =>
    rw [← headTemp_isSome]
    by_cases hi : i = n <;> simp [hi]
  case room => exact decide_eq_true_iff.symm

/-- The last part's QUAL_COMMIT carries the head temperature. -/
theorem headTemp_value {s : Station} {b : BoardEntry} (h : (headTemp s).isSome = true) (hb : boardKind (tabs s) (me s) .head = some b) :
    (headTemp s).getD 0 = b.value := by
  obtain ⟨e, he, hv, hx⟩ := (headTemp_isSome s).mp h
  cases hb.symm.trans he
  unfold headTemp scaleTemp
  rw [hb]
  simp [hv, hx]

section
variable {s : Station} {x i n : Nat} (e : Tip)

theorem offerQualification_part (h : i ≠ n) :
    (offerQualification x i n e s).line.control = s.line.control ++ [⟨0, .qualPart x i n { e with stale := false }⟩] := by
  unfold offerQualification
  rw [if_neg h]
  rfl

theorem offerQualification_last (h : i = n) : (offerQualification x i n e s).line.control =
    s.line.control ++ [⟨0, .qualPart x i n { e with stale := false }⟩, ⟨0, .qualCommit x n ((headTemp s).getD 0)⟩] := by
  unfold offerQualification
  rw [if_pos h]
  exact List.append_assoc _ _ _

end

/-! ### The statement -/

theorem changeIsAccepted {src : Nat} {tag : Code} {x p : Nat} {enc : Counts} {s : State} (hask : Says.asks (readEncoders s.stn enc) src tag (.change x))
    (h : Changes (readEncoders s.stn enc) x p) : ∃ t : State, exec (.change src tag x enc) s = .next t ∧ t.pending = s.pending ∧
      Says.answered (readEncoders s.stn enc) t.stn src ⟨tag, 7, true, 0, 0, []⟩ ∧ Says.unitsKeep (readEncoders s.stn enc) t.stn ∧
      t.stn.change = changer (readEncoders s.stn enc) tag x p ∧ t.stn.motion.arm = (readEncoders s.stn enc).motion.arm ∧
      (∃ g, t.stn.motion.head.queue = [g] ∧ g.kind = .index (cellOf s.stn).rackA (cellOf s.stn).rackB ∧ g.origin = .sequencer false) ∧
      t.stn.motion.head.state = if holdsAll (readEncoders s.stn enc) (changer (readEncoders s.stn enc) tag x p).route = true then .running
        else .waitZone := by
  have heffect : effect (.change src tag x enc) s.stn = requestChange (takeRequest (readEncoders s.stn enc)) src tag x :=
    if_pos (asks_isNext hask)
  refine ⟨_, exec_effect _ s, rfl, ?_⟩
  rw [h.accepted] at heffect
  simp only [heffect]
  have hgiven := h.given tag
  obtain ⟨hanswered, hunits⟩ := accept_answered ((setChange_works (takeRequest (readEncoders s.stn enc)) (changer (readEncoders s.stn enc) tag x p)).trans
    (giveSegment_works _ .head (.index (cellOf s.stn).rackA (cellOf s.stn).rackB) false (ownOf s.stn).indexRate)) src tag 7 0
  obtain ⟨g, hq, hk, ho, -⟩ := hgiven.queue
  exact ⟨hanswered, hunits, hgiven.change, hgiven.other, ⟨g, hq, hk, ho⟩, hgiven.state⟩

theorem qualifyIsDecided {src : Nat} {tag : Code} {x i n : Nat} {tip : Tip} {s : State} (hask : Says.asks s.stn src tag (.qualify x i n tip)) :
    ∃ t : State, exec (.qualify src tag x i n tip) s = .next t ∧ t.pending = s.pending ∧
      (∀ r, Says.firstOf (Says.qualifyList s.stn x i n tip) r → Says.refused s.stn t.stn src tag 8 r) ∧
      ((∀ c ∈ Says.qualifyList s.stn x i n tip, c.1) →
        Says.answered s.stn t.stn src ⟨tag, 8, true, 0, 0, []⟩ ∧ Says.unitsKeep s.stn t.stn ∧
        (i ≠ n → t.stn.line.control = s.stn.line.control ++ [⟨0, .qualPart x i n { tip with stale := false }⟩]) ∧
        (∀ b, i = n → boardKind (tabs s.stn) (me s.stn) .head = some b → t.stn.line.control =
          s.stn.line.control ++ [⟨0, .qualPart x i n { tip with stale := false }⟩, ⟨0, .qualCommit x n b.value⟩])) := by
  have heffect : effect (.qualify src tag x i n tip) s.stn = requestQualify (takeRequest s.stn) src tag x i n tip :=
    if_pos (asks_isNext (enc := s.stn.motion.enc) hask)
  refine ⟨_, exec_effect _ s, rfl, fun r hr => ?refused, fun hall => ?accepted⟩
  case refused =>
    obtain ⟨q, hq, rfl⟩ := (qualifyChecks_decide s.stn x i n tip).fails hr
    simp only [heffect]
    unfold requestQualify
    rw [decide_some (by rw [qualifyChecks_take]; exact hq)]
    exact refuse_refused s.stn src tag 8 q
  case accepted =>
    have haccepted : requestQualify (takeRequest s.stn) src tag x i n tip = accept (offerQualification x i n tip (takeRequest s.stn)) src tag 8 0 :=
      decide_none (by rw [qualifyChecks_take]; exact (qualifyChecks_decide s.stn x i n tip).passes hall)
    have hroom : controlHeld s.stn.line + (if i = n then 2 else 1) ≤ 7 := hall (_, 4) (by simp [Says.qualifyList])
    have htemp : i = n → (headTemp s.stn).isSome = true := by
      have hcond := hall (i = n → ∃ b, boardKind (tabs s.stn) (me s.stn) .head = some b ∧ b.state = .valid ∧ b.excluded = false, 14)
        (by simp [Says.qualifyList])
      exact fun hi => (headTemp_isSome s.stn).mpr (hcond hi)
    obtain ⟨hanswered, hunits⟩ := accept_answered (offerQualification_works x i n tip (takeRequest s.stn) hroom) src tag 8 0
    have hcontrol : (accept (offerQualification x i n tip (takeRequest s.stn)) src tag 8 0).line.control =
        (offerQualification x i n tip (takeRequest s.stn)).line.control := by
      unfold accept
      rw [answer_line]
    simp only [heffect, haccepted, hcontrol]
    refine ⟨hanswered, hunits, fun hi => offerQualification_part tip hi, fun b hi hb => ?_⟩
    rw [offerQualification_last tip hi, ← headTemp_value (htemp hi) hb]
    rfl

/-- Settles O52: CHANGE by `Changes` and `changeChecks_refuse`, QUALIFY by `qualifyIsDecided`. -/
theorem changeAndQualify : Obligations.ChangeAndQualify := by
  unfold Obligations.ChangeAndQualify
  refine ⟨?accepted, ?refused, fun _ _ _ _ _ _ _ hask => qualifyIsDecided hask⟩
  case accepted =>
    rintro src tag x p enc s u rfl hask hstays hserves hactive hunparked harm hprobe hidle hstill hhomed hrack hcustody hport hoccupied hhome
      hfree hA hB
    exact changeIsAccepted hask
      ⟨hstays, hserves, hactive, hunparked, harm, hprobe, hidle, hstill, hhomed, hrack, hcustody, hport, hoccupied, hhome, hfree, hA, hB⟩
  case refused =>
    rintro src tag x enc s u r rfl hask hr
    have heffect : effect (.change src tag x enc) s.stn = requestChange (takeRequest (readEncoders s.stn enc)) src tag x :=
      if_pos (asks_isNext hask)
    obtain ⟨q, hq, rfl⟩ := changeChecks_refuse _ r hr
    refine ⟨_, exec_effect _ s, rfl, ?_⟩
    simp only [heffect]
    unfold requestChange
    rw [decide_some (by rw [changeChecks_take]; exact hq)]
    exact refuse_refused _ src tag 7 q

end Sys2Proof.CellChange
end

section
/-! The Change Sequencer sends the ARM channel to an arm position (R74, R80, R123): what it takes, and what it leaves. -/

namespace Sys2Proof.CellChange

open Sys2Proof Sys2Proof.Machine Sys2Proof.Laws

/-! ### What a TRAVERSE of the arm reads -/

/-- Image, probes, encoder counts and homed flags are the same in both. -/
structure ArmFooting (s w : Station) : Prop where
  loader : w.loader = s.loader
  probes : (tabs w).probes = (tabs s).probes
  enc : w.motion.enc = s.motion.enc
  homed : w.motion.homed = s.motion.homed

/-- The zones of a TRAVERSE of the arm to a position. -/
def armZones (s : Station) (v : Vec3) : ZoneMask := zoneSetFrom s (currentTip s) (clearance s) (.armTraverse v)

namespace ArmFooting

variable {s w : Station} (h : ArmFooting s w)
include h

theorem clearance : clearance w = clearance s := by
  unfold Machine.clearance mounted mountedOn probeRec me cellOf
  rw [h.loader, h.probes]

theorem armPos : armPos w = armPos s := by
  unfold Machine.armPos armCoord declared ownOf
  rw [h.loader, h.enc]

theorem zones (v : Vec3) : armZones w v = armZones s v := by
  show zonesMeeting (cellOf w) (growBox (spanBox (Machine.armPos w) [v]) (Machine.clearance w)) =
    zonesMeeting (cellOf s) (growBox (spanBox (Machine.armPos s) [v]) (Machine.clearance s))
  rw [h.armPos, h.clearance]
  unfold cellOf
  rw [h.loader]

theorem eq : w = { w with loader := s.loader, motion := { w.motion with enc := s.motion.enc, homed := s.motion.homed } } := by
  rw [← h.loader, ← h.enc, ← h.homed]

theorem mayGo {v : Vec3} (hgo : Says.armMayGo s v) : Says.armMayGo w v := by
  obtain ⟨hhomed, hlimits, hfree⟩ := hgo
  refine ⟨?homed, ?limits, ?free⟩
  case homed =>
    rw [h.eq]
    exact hhomed
  case limits =>
    rw [h.eq]
    exact hlimits
  case free =>
    show meets (armZones w v) _ = false
    rw [h.zones, h.eq]
    exact hfree

end ArmFooting

/-! ### The segment given -/

/-- The segment at the head of the ARM queue, not yet started. -/
def armQueued (s : Station) (v : Vec3) (runOn : Bool) : Station :=
  enqueueSegment s .arm (.armTraverse v) (.sequencer runOn) false (cellOf s).rackSpeed

/-- A TRAVERSE for an ARM channel that is idle, the HEAD channel empty and at rest. -/
theorem armTo_given {s : Station} {v : Vec3} (runOn : Bool) (harm : s.motion.arm.state = .idle) (harmq : s.motion.arm.queue = [])
    (hhead : movingState s.motion.head.state = false) (hheadq : s.motion.head.queue = []) (hgo : Says.armMayGo s v) :
    Given s (armTo s v runOn) .arm (.armTraverse v) runOn (cellOf s).rackSpeed (armZones s v) := by
  obtain ⟨hhomed, hlimits, hfree⟩ := hgo
  have hqueued : armTo s v runOn = chooseLead (armQueued s v runOn) := by
    refine if_pos ?_
    show (takesSegment s.motion.arm.state && decide (s.motion.arm.queue.length < Config.segmentPlaces)) = true
    rw [harm, harmq]
    rfl
  obtain ⟨g, hg⟩ : ∃ g, g = freshSegment s (.armTraverse v) (.sequencer runOn) false (cellOf s).rackSpeed := ⟨_, rfl⟩
  have hq : (chan (armQueued s v runOn) .arm).queue = [g] := by
    show s.motion.arm.queue ++ [_] = [g]
    rw [harmq, hg]
    rfl
  have hs : (chan (armQueued s v runOn) .arm).state = .waitTurn := if_pos harm
  have hk : g.kind = .armTraverse v := by rw [hg]; rfl
  have ho : g.origin = .sequencer runOn := by rw [hg]; rfl
  have hspeed : g.speed = (cellOf s).rackSpeed := by rw [hg]; rfl
  have hzones : zoneSetOf (armQueued s v runOn) g = armZones s v := by
    unfold zoneSetOf
    rw [ho, hk]
    rfl
  have hlead := take_idle (s := armQueued s v runOn) (c := .arm) (g := g) hq hs hheadq hhead (by unfold isTouchSeg; rw [hk])
    (by unfold isHomeSeg; rw [hk]) hhomed (by rw [hk]; exact hlimits) (by rw [hzones]; exact hfree)
  rw [hzones] at hlead
  rw [hqueued, hlead]
  generalize hg' : { g with axisTarget := commanded (armQueued s v runOn) (tipOffset (armQueued s v runOn) (headIndex (armQueued s v runOn))) g.kind,
                            zoneSet := some (armZones s v) } = g'
  have hk' : g'.kind = .armTraverse v := by rw [← hg', hk]
  have ho' : g'.origin = .sequencer runOn := by rw [← hg', ho]
  have hspeed' : g'.speed = (cellOf s).rackSpeed := by rw [← hg', hspeed]
  by_cases hholds : holdsAll s (armZones s v) = true
  · rw [if_pos (show holdsAll (armQueued s v runOn) (armZones s v) = true from hholds)]
    have hsame := startMotion_same hq g'
    obtain ⟨hline, -, -, hchange, -⟩ := startMotion_line (armQueued s v runOn) .arm g'
    exact ⟨⟨_, congrArg Chan.queue hsame, hk', ho', hspeed'⟩, (congrArg Chan.state hsame).trans (if_pos hholds).symm,
      startMotion_other _ .arm .head g' nofun, hchange, fun o hm => by rw [hline]; exact hm, fun o hm => by rw [hline]; exact hm⟩
  · rw [if_neg (show ¬ holdsAll (armQueued s v runOn) (armZones s v) = true from hholds)]
    have hsame := waitsZone_same hq g' (armZones s v)
    obtain ⟨hcontrol, hwaiting⟩ := waitsZone_control (armQueued s v runOn) .arm g' (armZones s v)
    exact ⟨⟨_, congrArg Chan.queue hsame, hk', ho', hspeed'⟩, (congrArg Chan.state hsame).trans (if_neg hholds).symm,
      waitsZone_other _ .arm .head g' _ nofun, (waitsZone_else _ _ _ _).2.2.1, hcontrol, hwaiting⟩

/-! ### The same in the words of the statements -/

section
variable {s t : Station} {v : Vec3} {runOn : Bool}

theorem given_armSent {w : Station} (h : ArmFooting s w) (hhead : w.motion.head = s.motion.head) (hholds : ∀ m, holdsAll w m = holdsAll s m)
    (hg : Given w t .arm (.armTraverse v) runOn (cellOf w).rackSpeed (armZones w v)) : Says.armSent s t v runOn := by
  obtain ⟨g, hq, hk, ho, hspeed⟩ := hg.queue
  refine ⟨⟨g, hq, hk, ho, ?_⟩, hg.other.trans hhead, ?_⟩
  · rw [hspeed]
    unfold cellOf
    rw [h.loader]
  · have hstate := hg.state
    rw [hholds, h.zones] at hstate
    exact hstate

theorem given_armGoes {w : Station} (hl : t.loader = w.loader)
    (hg : Given w t .arm (.armTraverse v) runOn (cellOf w).rackSpeed (armZones w v)) : Says.armGoes t v runOn := by
  obtain ⟨g, hq, hk, ho, hspeed⟩ := hg.queue
  refine ⟨⟨g, hq, hk, ho, ?_⟩, ?_⟩
  · rw [hspeed]
    unfold cellOf
    rw [hl]
  · have hstate : t.motion.arm.state = _ := hg.state
    rw [hstate]
    split
    · exact .inl rfl
    · exact .inr rfl

theorem given_offered {w : Station} {src : CtlSource} {b : Body} {k : SegKind} {speed : Nat} {m : ZoneMask}
    (hg : Given w t .arm k runOn speed m) (ho : Says.offered s w src b) : Says.offered s t src b :=
  ⟨fun hroom hnone => hg.control _ (ho.1 hroom hnone), fun hfull => hg.waiting _ (ho.2 hfull)⟩

end

end Sys2Proof.CellChange
end

section
/-! O59: the coupling sensor and the waits of a change (R124, R125, R128). -/

namespace Sys2Proof.CellChange

open Sys2Proof Sys2Proof.Machine Sys2Proof.Laws
open Sys2Proof.CellLine (effect exec_effect)
open Sys2Proof.CellJoin (offerControl_offered)
open Sys2Proof.CellZones (exec_still eventKeeps_works giveEvent_queued)

/-! ### Stations that differ in the change and in offers -/

/-- Channels, footing of the arm and zones held are the same in both. -/
structure Ready (s w : Station) : Prop where
  footing : ArmFooting s w
  arm : w.motion.arm = s.motion.arm
  head : w.motion.head = s.motion.head
  holds : ∀ m, holdsAll w m = holdsAll s m

theorem Ready.given {s w : Station} {v : Vec3} (h : Ready s w) (runOn : Bool) (harm : s.motion.arm.state = .idle) (harmq : s.motion.arm.queue = [])
    (hhead : movingState s.motion.head.state = false) (hheadq : s.motion.head.queue = []) (hgo : Says.armMayGo s v) :
    Given w (armTo w v runOn) .arm (.armTraverse v) runOn (cellOf w).rackSpeed (armZones w v) :=
  armTo_given runOn (by rw [h.arm]; exact harm) (by rw [h.arm]; exact harmq) (by rw [h.head]; exact hhead) (by rw [h.head]; exact hheadq)
    (h.footing.mayGo hgo)

theorem Ready.trans {s w u : Station} (h : Ready s w) (k : Ready w u) : Ready s u :=
  ⟨⟨k.footing.loader.trans h.footing.loader, k.footing.probes.trans h.footing.probes, k.footing.enc.trans h.footing.enc,
    k.footing.homed.trans h.footing.homed⟩, k.arm.trans h.arm, k.head.trans h.head, fun m => (k.holds m).trans (h.holds m)⟩

theorem ready_change (s : Station) (c : Changer) : Ready s { s with change := c } := ⟨⟨rfl, rfl, rfl, rfl⟩, rfl, rfl, fun _ => rfl⟩

theorem ready_offer (s : Station) (src : CtlSource) (d : Nat) {b : Body} (hb : releaseMaskOf b = 0#32) : Ready s (offerControl s src d b) := by
  have hcalm := offerControl_calm s src d b
  exact ⟨⟨hcalm.loader, by unfold tabs; rw [hcalm.replica], by rw [hcalm.motion], hcalm.homed⟩, hcalm.chan .arm, hcalm.chan .head,
    holdsAll_offer s src d b hb⟩

/-! ### The coupling lets go, and takes hold (R124, R125) -/

/-- The PROBE_DEPOSIT offered and CONFIRM_DEPOSIT entered. -/
def depositOffered (s : Station) (m p : Nat) : Station :=
  enterState (offerControl { s with change := { s.change with couplingWait := none } } .change 0 (.probeDeposit m p)) .confirmDeposit .retract

theorem depositDone_eq {s : Station} {m p : Nat} (h : s.change.deposit = some (m, p)) :
    depositDone s = armTo (depositOffered s m p) (enterPoint s p) false := by
  unfold depositDone
  rw [h]
  show armTo (depositOffered s m p) (enterPoint (offerControl _ _ _ _) p) false = _
  unfold enterPoint seatOf cellOf
  rw [(offerControl_calm _ _ _ _).loader]

theorem depositOffered_ready (s : Station) (m p : Nat) : Ready s (depositOffered s m p) :=
  ((ready_change s _).trans (ready_offer _ .change 0 rfl)).trans (ready_change _ _)

theorem depositOffered_change (s : Station) (m p : Nat) :
    (depositOffered s m p).change = { s.change with state := .confirmDeposit, leg := .retract, couplingWait := none } := by
  unfold depositOffered enterState
  rw [offerControl_change]

theorem depositOffered_offered (s : Station) (m p : Nat) : Says.offered s (depositOffered s m p) .change (.probeDeposit m p) :=
  offerControl_offered { s with change := { s.change with couplingWait := none } } .change (.probeDeposit m p)

/-- The code read and the retract begun. -/
def engaged (s : Station) : Station :=
  { s with change := { s.change with couplingWait := none, heldSeen := true, code := s.pins.headIdent, leg := .retract } }

theorem engageDone_eq (s : Station) : engageDone s = armTo (engaged s) (enterPoint s s.change.pt) true := rfl

/-! ### The coupling sensor (R122, R124, R125) -/

/-- The station with the coupling sensor and the identity line read. -/
def sensed (s : Station) (held : Bool) (code : Option Code) : Station :=
  { s with pins := { s.pins with sensor := held, headIdent := code } }

section
variable {s : Station} {held : Bool} {code : Option Code}

theorem sensorMoved_held (h : s.loader.held = true) :
    sensorMoved s held code = { sensed s held code with change := { s.change with output := held } } := if_pos h

section
variable (h : s.loader.held = false)
include h

theorem sensorMoved_still (hnot : s.change.failing ≠ none ∨ s.change.leg ≠ .coupling ∨
      (s.change.state ≠ .insert ∧ s.change.state ≠ .engage) ∨ (s.change.state = .insert ∧ held = true) ∨
      (s.change.state = .engage ∧ held = false)) : sensorMoved s held code = sensed s held code := by
  unfold sensorMoved
  rw [if_neg (by simp [h])]
  dsimp only
  split
  next => rfl
  next hruns =>
    rcases hnot with hfail | hleg | ⟨hinsert, hengage⟩ | ⟨hstate, rfl⟩ | ⟨hstate, rfl⟩
    · exact absurd (by simp [Option.isSome_iff_ne_none, hfail]) hruns
    · exact absurd (by simp [hleg]) hruns
    · split
      next hx => exact absurd hx hinsert
      next hx => exact absurd hx hengage
      next => rfl
    · rw [hstate]
      rfl
    · rw [hstate]
      rfl

variable (hf : s.change.failing = none) (hleg : s.change.leg = .coupling)
include hf hleg

theorem sensorMoved_released (hst : s.change.state = .insert) (hheld : held = false) :
    sensorMoved s held code = depositDone (sensed s held code) := by
  unfold sensorMoved
  simp [h, hf, hleg, hst, hheld, sensed]

theorem sensorMoved_engages (hst : s.change.state = .engage) (hheld : held = true) :
    sensorMoved s held code = engageDone (sensed s held code) := by
  unfold sensorMoved
  simp [h, hf, hleg, hst, hheld, sensed]

end

/-- What the sensor leaves as it is, whatever the change does. -/
theorem sensorMoved_keeps (s : Station) (held : Bool) (code : Option Code) :
    (sensorMoved s held code).pins = { s.pins with sensor := held, headIdent := code } ∧ (sensorMoved s held code).loader = s.loader ∧
      (sensorMoved s held code).replica = s.replica ∧ (sensorMoved s held code).motion.enc = s.motion.enc := by
  by_cases h : s.loader.held = true
  · rw [sensorMoved_held h]
    exact ⟨rfl, rfl, rfl, rfl⟩
  · have hworks : Works (sensed s held code) (sensorMoved s held code) := by
      unfold sensorMoved
      rw [if_neg h]
      dsimp only
      split
      · exact Works.refl _
      · split
        · split
          · exact Works.refl _
          · exact depositDone_works _
        · split
          · exact engageDone_works _
          · exact Works.refl _
        · exact Works.refl _
    exact ⟨hworks.pins, hworks.loader, hworks.replica, hworks.enc⟩

end

theorem sensed_ready (s : Station) (held : Bool) (code : Option Code) : Ready s (sensed s held code) :=
  ⟨⟨rfl, rfl, rfl, rfl⟩, rfl, rfl, fun _ => rfl⟩

theorem couplingSensed (held : Bool) (code : Option Code) (s : State) :
    ∃ t : State, exec (.couplingSensorChange held code) s = .next t ∧ t.pending = s.pending ∧
    t.stn.pins = { s.stn.pins with sensor := held, headIdent := code } ∧ t.stn.loader = s.stn.loader ∧ t.stn.replica = s.stn.replica ∧
    t.stn.motion.enc = s.stn.motion.enc ∧
    (s.stn.loader.held = true → t.stn = { s.stn with pins := t.stn.pins, change := { s.stn.change with output := held } }) ∧
    (s.stn.loader.held = false → s.stn.change.failing ≠ none ∨ s.stn.change.leg ≠ .coupling ∨
        (s.stn.change.state ≠ .insert ∧ s.stn.change.state ≠ .engage) ∨ (s.stn.change.state = .insert ∧ held = true) ∨
        (s.stn.change.state = .engage ∧ held = false) →
      t.stn = { s.stn with pins := t.stn.pins }) ∧
    (∀ m p, s.stn.loader.held = false → s.stn.change.failing = none → s.stn.change.leg = .coupling → s.stn.change.state = .insert →
      held = false → s.stn.change.deposit = some (m, p) → Says.armFree s.stn (enterPoint s.stn p) →
      t.stn.change = { s.stn.change with state := .confirmDeposit, leg := .retract, couplingWait := none } ∧
      Says.offered s.stn t.stn .change (.probeDeposit m p) ∧ Says.armSent s.stn t.stn (enterPoint s.stn p) false) ∧
    (s.stn.loader.held = false → s.stn.change.failing = none → s.stn.change.leg = .coupling → s.stn.change.state = .engage →
      held = true → Says.armFree s.stn (enterPoint s.stn s.stn.change.pt) →
      t.stn.change = { s.stn.change with leg := .retract, couplingWait := none, heldSeen := true, code := code } ∧
      Says.armSent s.stn t.stn (enterPoint s.stn s.stn.change.pt) true) := by
  refine ⟨{ s with stn := effect (.couplingSensorChange held code) s.stn }, exec_effect _ s, rfl, ?_⟩
  simp only [show effect (.couplingSensorChange held code) s.stn = sensorMoved s.stn held code from rfl]
  obtain ⟨hpins, hloader, hreplica, henc⟩ := sensorMoved_keeps s.stn held code
  refine ⟨hpins, hloader, hreplica, henc, fun h => ?held, fun h hnot => ?still, fun m p h hf hleg hst hheld hd hfree => ?deposit,
    fun h hf hleg hst hheld hfree => ?engage⟩
  case held =>
    rw [sensorMoved_held h]
    rfl
  case still =>
    rw [sensorMoved_still h hnot]
    rfl
  case deposit =>
    obtain ⟨⟨harm, harmq, hhead, hheadq⟩, hgo⟩ := hfree
    have hready := (sensed_ready s.stn held code).trans (depositOffered_ready (sensed s.stn held code) m p)
    have hgiven := hready.given false harm harmq (by rw [hhead]; rfl) hheadq hgo
    rw [sensorMoved_released h hf hleg hst hheld, depositDone_eq (s := sensed s.stn held code) hd]
    exact ⟨hgiven.change.trans (depositOffered_change _ m p), given_offered hgiven (depositOffered_offered (sensed s.stn held code) m p),
      given_armSent hready.footing hready.head hready.holds hgiven⟩
  case engage =>
    obtain ⟨⟨harm, harmq, hhead, hheadq⟩, hgo⟩ := hfree
    have hready : Ready s.stn (engaged (sensed s.stn held code)) := (sensed_ready s.stn held code).trans (ready_change _ _)
    have hgiven := hready.given true harm harmq (by rw [hhead]; rfl) hheadq hgo
    rw [sensorMoved_engages h hf hleg hst hheld, engageDone_eq]
    exact ⟨hgiven.change, given_armSent hready.footing hready.head hready.holds hgiven⟩

/-! ### A change that fails on an idle station (R128) -/

theorem failByRack_fails {s : Station} {cause : ChangeCause} (hrun : s.change.state ≠ .idle) (hf : s.change.failing = none)
    (hcause : cause ≠ .rackLost) (hidle : Says.allIdle s) : Says.changeFails s (failByRack s cause) cause := by
  obtain ⟨-, harmq, -, hheadq⟩ := hidle
  have hworks := failByRack_works s cause
  rw [failByRack_idle (bne_iff_ne.mpr hrun) hf hcause harmq hheadq] at hworks ⊢
  have hheld := abandonHeld_calm s
  generalize hw : idleChanger (meetFailure (abandonHeld s) cause) = w at hworks ⊢
  have hchan : ∀ c, chan w c = chan s c := fun c => by rw [← hw]; exact hheld.chan c
  have hrequest : w.request = s.request := by rw [← hw]; exact hheld.request
  have hchange : w.change = Changer.idleWith s.change.output (some cause) := by
    rw [← hw]
    show Changer.idleWith (abandonHeld s).change.output (some cause) = _
    rw [hheld.change]
  have htidy := tidyMoment_calm w none
  obtain ⟨-, hwaiting, hcontrol⟩ := tidyMoment_keeps w
  refine ⟨?change, ?arm, ?head, eventKeeps_works hworks, giveEvent_queued (htidy.request.trans hrequest) _, fun p hp1 hp12 hp => ?abandoned⟩
  case change => rw [giveEvent_change, htidy.change, hchange]
  case arm =>
    rw [giveEvent_motion]
    exact (htidy.chan .arm).trans (hchan .arm)
  case head =>
    rw [giveEvent_motion]
    exact (htidy.chan .head).trans (hchan .head)
  case abandoned =>
    rw [giveEvent_control, giveEvent_waiting, hwaiting]
    have hline : w.line = (abandonHeld s).line := by rw [← hw]; rfl
    rw [hline] at hcontrol ⊢
    exact (abandonHeld_offers s p hp1 hp12 hp).imp (fun hm => hcontrol _ hm rfl) id

/-! ### The waits (R124, R125, R128) -/

/-- The station as a wait of the change that runs out finds it; a coupling wait in ENGAGE lets the coupling go. -/
def waitOver (c : Instr) (s : Station) (due : Nat) : Station :=
  { s with
    now := max s.now due
    change := { s.change with output := if c = .couplingWaitExpiry ∧ s.change.state = .engage then false else s.change.output } }

theorem couplingOver_some {s : Station} {due : Nat} (h : s.change.couplingWait = some due) :
    couplingOver s = failByRack (waitOver .couplingWaitExpiry s due) .coupling := by
  unfold couplingOver waitOver atDue
  rw [h]
  dsimp only
  by_cases hst : s.change.state = .engage <;> simp [hst]

theorem unlockOver_some {s : Station} {due : Nat} (h : s.change.unlockWait = some due) :
    unlockOver s = failByRack (waitOver .unlockWaitExpiry s due) .rackTimeout := by
  unfold unlockOver
  rw [h]
  rfl

theorem confirmOver_some {s : Station} {due : Nat} (h : s.change.confirmWait = some due) :
    confirmOver s = failByRack (waitOver .confirmWaitExpiry s due) .depositUnconfirmed := by
  unfold confirmOver
  rw [h]
  rfl

theorem waitRunsOut {c : Instr} {due : Nat} {cause : ChangeCause} {s : State} (hrun : s.stn.change.state ≠ .idle)
    (hf : s.stn.change.failing = none) (hidle : Says.allIdle s.stn)
    (h : (c = .couplingWaitExpiry ∧ s.stn.change.couplingWait = some due ∧ cause = .coupling) ∨
      (c = .unlockWaitExpiry ∧ s.stn.change.unlockWait = some due ∧ cause = .rackTimeout) ∨
      (c = .confirmWaitExpiry ∧ s.stn.change.confirmWait = some due ∧ cause = .depositUnconfirmed)) :
    ∃ t : State, exec c s = .next t ∧ t.pending = s.pending ∧ Says.changeFails (waitOver c s.stn due) t.stn cause := by
  have hover : effect c s.stn = failByRack (waitOver c s.stn due) cause ∧ cause ≠ .rackLost := by
    rcases h with ⟨rfl, hdue, rfl⟩ | ⟨rfl, hdue, rfl⟩ | ⟨rfl, hdue, rfl⟩
    · exact ⟨couplingOver_some hdue, nofun⟩
    · exact ⟨unlockOver_some hdue, nofun⟩
    · exact ⟨confirmOver_some hdue, nofun⟩
  obtain ⟨heffect, hcause⟩ := hover
  refine ⟨{ s with stn := effect c s.stn }, exec_effect _ s, rfl, ?_⟩
  simp only [heffect]
  exact failByRack_fails (s := waitOver c s.stn due) hrun hf hcause hidle

theorem waitsStill (s : State) : (s.stn.change.couplingWait = none → exec .couplingWaitExpiry s = .next s) ∧
    (s.stn.change.unlockWait = none → exec .unlockWaitExpiry s = .next s) ∧
    (s.stn.change.confirmWait = none → exec .confirmWaitExpiry s = .next s) := by
  refine ⟨fun h => exec_still ?_, fun h => exec_still ?_, fun h => exec_still ?_⟩
  · show couplingOver s.stn = s.stn
    unfold couplingOver
    rw [h]
  · show unlockOver s.stn = s.stn
    unfold unlockOver
    rw [h]
  · show confirmOver s.stn = s.stn
    unfold confirmOver
    rw [h]

end Sys2Proof.CellChange
end

section
/-! O59: the segments of a change that end (R124, R125). -/

namespace Sys2Proof.CellChange

open Sys2Proof Sys2Proof.Machine Sys2Proof.Laws
open Sys2Proof.CellLine (effect exec_effect)
open Sys2Proof.CellJoin (offerControl_offered)
open Sys2Proof.CellZones (chooseLead_waiting)

/-! ### The channel at rest after the segment (R81) -/

/-- The station after the only segment of a channel has ended, its tidy moment past. -/
def rested (u : Station) (c : ChanId) : Station := tidyMoment (setChan u c { chan u c with queue := [], state := .idle }) none

theorem segmentEnds_plain {s : Station} {c : ChanId} {g : Segment} (ht : isTouchSeg g = false) (hh : isHomeSeg g = false) :
    segmentEnds s c g = true := by
  unfold isTouchSeg at ht
  unfold isHomeSeg at hh
  unfold segmentEnds
  cases hk : g.kind <;> simp_all

section
variable {s : Station} {c : ChanId} {g : Segment} {runOn : Bool} (hq : (chan s c).queue = [g]) (ho : g.origin = .sequencer runOn)
  (hoq : (chan s (otherChan c)).queue = [])

include hoq in
theorem rested_empty (enc : Counts) :
    (rested (readEncoders s enc) c).motion.arm.queue = [] ∧ (rested (readEncoders s enc) c).motion.head.queue = [] := by
  have htidy := tidyMoment_calm (setChan (readEncoders s enc) c { chan (readEncoders s enc) c with queue := [], state := .idle }) none
  refine queues_empty (c := c) ?_ ?_
  · rw [rested, htidy.chan, setChan_same]
  · rw [rested, htidy.chan, setChan_other _ _ _ _ (otherChan_ne c), CellZones.chan_readEncoders]
    exact hoq

include hq ho hoq in
theorem segmentDone_rested (enc : Counts) (hst : (chan s c).state = .running) (ht : isTouchSeg g = false) (hh : isHomeSeg g = false) :
    segmentDone s c enc = chooseLead (changeSegmentEnd (rested (readEncoders s enc) c)) := by
  have hown : fromSequencer g = true := by
    unfold fromSequencer
    rw [ho]
  have hcomplete : completeSegment (readEncoders s enc) c g = rested (readEncoders s enc) c :=
    complete_seq (by rw [CellZones.chan_readEncoders]; exact hq) ⟨runOn, ho⟩ hh
  obtain ⟨harm, hhead⟩ := rested_empty hoq enc
  unfold segmentDone
  rw [headSeg_cons hq]
  dsimp only
  rw [if_pos ⟨hst, segmentEnds_plain ht hh⟩, hown, if_pos rfl, hcomplete, chooseLead_empty harm hhead]

end

/-- What the end of a segment of channel `c` leaves as it is. -/
structure Rests (u v : Station) (c : ChanId) : Prop where
  queue : (chan v c).queue = []
  state : (chan v c).state = .idle
  other : chan v (otherChan c) = chan u (otherChan c)
  change : v.change = u.change
  replica : v.replica = u.replica
  footing : ArmFooting u v
  pins : v.pins = u.pins
  now : v.now = u.now
  held : controlHeld v.line = controlHeld u.line
  waiting : v.line.waiting = u.line.waiting

theorem rested_rests (u : Station) (c : ChanId) : Rests u (rested u c) c := by
  have htidy := tidyMoment_calm (setChan u c { chan u c with queue := [], state := .idle }) none
  have hworks := tidyMoment_works (setChan u c { chan u c with queue := [], state := .idle }) none
  obtain ⟨hheld, hwaiting, -⟩ := tidyMoment_keeps (setChan u c { chan u c with queue := [], state := .idle })
  have hset := CellZones.setChan_footing u c { chan u c with queue := [], state := .idle }
  have hreplica := htidy.replica.trans hset.replica
  refine ⟨?_, ?_, ?_, htidy.change.trans (setChan_change _ _ _), hreplica, ⟨htidy.loader.trans hset.loader, congrArg (·.tables.probes) hreplica,
    hworks.enc.trans hset.enc, htidy.homed.trans hset.homed⟩, hworks.pins.trans ?_, hworks.now.trans ?_, hheld.trans ?_, hwaiting.trans ?_⟩
  · rw [rested, htidy.chan, setChan_same]
  · rw [rested, htidy.chan, setChan_same]
  · rw [rested, htidy.chan, setChan_other _ _ _ _ (otherChan_ne c)]
  all_goals cases c <;> rfl

theorem Rests.offered {s v t : Station} {c : ChanId} {enc : Counts} {src : CtlSource} {b : Body} (h : Rests (readEncoders s enc) v c)
    (ho : Says.offered v t src b) : Says.offered s t src b := by
  unfold Says.offered at ho
  rw [h.held, h.waiting] at ho
  exact ho

/-! ### The CLAIMING INDEX, and the retract of the pickup -/

theorem rackActive_congr {s v : Station} (hl : v.loader = s.loader) (hr : v.replica = s.replica) : rackActive v = rackActive s := by
  unfold rackActive tabs cellOf
  rw [hl, hr]

section
variable {v : Station} (hf : v.change.failing = none)
include hf

theorem claimingEnd_deposit {m p : Nat} (hst : v.change.state = .claiming) (hrack : rackActive v = true) (hd : v.change.deposit = some (m, p)) :
    changeSegmentEnd v = offerControl (enterState v .reserveDeposit .none) .change 0 (.portReserve p .deposit m) := by
  have hrack' : rackActive (enterState v .reserveDeposit .none) = true := hrack
  unfold changeSegmentEnd enterReserve
  rw [hf, hst]
  dsimp only [Option.isSome]
  rw [if_neg (by decide), hd]
  dsimp only
  rw [if_pos hrack']

theorem claimingEnd_pickup (hst : v.change.state = .claiming) (hrack : rackActive v = true) (hd : v.change.deposit = none) :
    changeSegmentEnd v = offerControl (enterState v .reservePickup .none) .change 0 (.portReserve v.change.pt .pickup v.change.t) := by
  have hrack' : rackActive (enterState v .reservePickup .none) = true := hrack
  unfold changeSegmentEnd enterReserve enterReservePickup
  rw [hf, hst]
  dsimp only [Option.isSome]
  rw [if_neg (by decide), hd]
  dsimp only
  rw [if_pos hrack']

theorem retractEnd_take (hst : v.change.state = .engage) (hleg : v.change.leg = .retract) : changeSegmentEnd v =
    offerControl (enterState v .confirmTake .done) .change 0 (.probeTake v.change.t v.change.pt v.change.code) := by
  unfold changeSegmentEnd
  rw [hf, hst, hleg]
  rfl

end

/-- Offers and the changer's state set no segment in motion on empty channels. -/
theorem chooseLead_offered {v : Station} {st : ChangeState} {leg : Leg} {src : CtlSource} {b : Body} (harm : v.motion.arm.queue = [])
    (hhead : v.motion.head.queue = []) :
    chooseLead (offerControl (enterState v st leg) src 0 b) = offerControl (enterState v st leg) src 0 b := by
  have hmotion := offerControl_motion (enterState v st leg) src 0 b
  exact chooseLead_empty (by rw [hmotion]; exact harm) (by rw [hmotion]; exact hhead)

theorem offered_enter {v : Station} {st : ChangeState} {leg : Leg} {b : Body} :
    Says.offered v (offerControl (enterState v st leg) .change 0 b) .change b := offerControl_offered (enterState v st leg) .change b

theorem claimingEnds {enc : Counts} {s : State} {g : Segment} {runOn : Bool} (hq : s.stn.motion.head.queue = [g])
    (hr : s.stn.motion.head.state = .running) (ho : g.origin = .sequencer runOn) (ht : isTouchSeg g = false) (hh : isHomeSeg g = false)
    (harm : s.stn.motion.arm.queue = []) (hst : s.stn.change.state = .claiming) (hf : s.stn.change.failing = none)
    (hrack : rosterState (tabs s.stn) (cellOf s.stn).rackStation = .active) :
    ∃ t : State, exec (.segmentComplete .head enc) s = .next t ∧ t.pending = s.pending ∧
      t.stn.motion.head.state = .idle ∧ t.stn.motion.head.queue = [] ∧
      (∀ m p, s.stn.change.deposit = some (m, p) → t.stn.change = { s.stn.change with state := .reserveDeposit, leg := .none } ∧
        Says.offered s.stn t.stn .change (.portReserve p .deposit m)) ∧
      (s.stn.change.deposit = none → t.stn.change = { s.stn.change with state := .reservePickup, leg := .none } ∧
        Says.offered s.stn t.stn .change (.portReserve s.stn.change.pt .pickup s.stn.change.t)) := by
  have hdone : effect (.segmentComplete .head enc) s.stn = chooseLead (changeSegmentEnd (rested (readEncoders s.stn enc) .head)) :=
    segmentDone_rested (c := .head) hq ho harm enc hr ht hh
  have hrests := rested_rests (readEncoders s.stn enc) .head
  obtain ⟨harm', hhead'⟩ := rested_empty (c := .head) harm enc
  generalize rested (readEncoders s.stn enc) .head = v at *
  have hchange : v.change = s.stn.change := hrests.change
  have hrack' : rackActive v = true := by
    rw [rackActive_congr hrests.footing.loader hrests.replica]
    exact beq_iff_eq.mpr hrack
  have hchan : ∀ (st : ChangeState) (leg : Leg) (b : Body), (offerControl (enterState v st leg) .change 0 b).motion.head = v.motion.head :=
    fun st leg b => congrArg (·.head) (offerControl_motion (enterState v st leg) .change 0 b)
  refine ⟨{ s with stn := effect (.segmentComplete .head enc) s.stn }, exec_effect _ s, rfl, ?_⟩
  simp only [hdone]
  rcases Option.eq_none_or_eq_some s.stn.change.deposit with hd | ⟨⟨m, p⟩, hd⟩
  · rw [claimingEnd_pickup (by rw [hchange, hf]) (by rw [hchange, hst]) hrack' (by rw [hchange, hd]), chooseLead_offered harm' hhead',
      hchan, offerControl_change]
    refine ⟨hrests.state, hrests.queue, fun m p hd' => (nomatch hd.symm.trans hd'), fun _ => ⟨by unfold enterState; rw [hchange], ?_⟩⟩
    rw [← hchange]
    exact hrests.offered offered_enter
  · rw [claimingEnd_deposit (by rw [hchange, hf]) (by rw [hchange, hst]) hrack' (by rw [hchange, hd]), chooseLead_offered harm' hhead',
      hchan, offerControl_change]
    refine ⟨hrests.state, hrests.queue, fun m' p' hd' => ?_, fun hd' => (nomatch hd.symm.trans hd')⟩
    cases hd.symm.trans hd'
    exact ⟨by unfold enterState; rw [hchange], hrests.offered offered_enter⟩

theorem retractEnds {enc : Counts} {s : State} {g : Segment} {runOn : Bool} (hq : s.stn.motion.arm.queue = [g])
    (hr : s.stn.motion.arm.state = .running) (ho : g.origin = .sequencer runOn) (ht : isTouchSeg g = false) (hh : isHomeSeg g = false)
    (hhead : s.stn.motion.head.queue = []) (hst : s.stn.change.state = .engage) (hleg : s.stn.change.leg = .retract)
    (hf : s.stn.change.failing = none) :
    ∃ t : State, exec (.segmentComplete .arm enc) s = .next t ∧ t.pending = s.pending ∧
      t.stn.motion.arm.state = .idle ∧ t.stn.motion.arm.queue = [] ∧
      t.stn.change = { s.stn.change with state := .confirmTake, leg := .done } ∧
      Says.offered s.stn t.stn .change (.probeTake s.stn.change.t s.stn.change.pt s.stn.change.code) := by
  have hdone : effect (.segmentComplete .arm enc) s.stn = chooseLead (changeSegmentEnd (rested (readEncoders s.stn enc) .arm)) :=
    segmentDone_rested (c := .arm) hq ho hhead enc hr ht hh
  have hrests := rested_rests (readEncoders s.stn enc) .arm
  obtain ⟨harm', hhead'⟩ := rested_empty (c := .arm) hhead enc
  generalize rested (readEncoders s.stn enc) .arm = v at *
  have hchange : v.change = s.stn.change := hrests.change
  refine ⟨{ s with stn := effect (.segmentComplete .arm enc) s.stn }, exec_effect _ s, rfl, ?_⟩
  simp only [hdone]
  rw [retractEnd_take (by rw [hchange, hf]) (by rw [hchange, hst]) (by rw [hchange, hleg]), chooseLead_offered harm' hhead',
    offerControl_motion, offerControl_change]
  refine ⟨hrests.state, hrests.queue, by unfold enterState; rw [hchange], ?_⟩
  rw [← hchange]
  exact hrests.offered offered_enter

end Sys2Proof.CellChange
end

section
/-! O59: the arm on its way to a seat, and at the seat (R124, R125). -/

namespace Sys2Proof.CellChange

open Sys2Proof Sys2Proof.Machine Sys2Proof.Laws
open Sys2Proof.CellLine (effect exec_effect)
open Sys2Proof.CellZones (chooseLead_waiting)

/-- A segment just given keeps the lead: it moves, or waits for its zones. -/
theorem chooseLead_given {w t : Station} {k : SegKind} {runOn : Bool} {speed : Nat} {m : ZoneMask} (h : Given w t .arm k runOn speed m)
    (hhead : movingState w.motion.head.state = false) (hheadq : w.motion.head.queue = []) : chooseLead t = t := by
  obtain ⟨g, hq, -⟩ := h.queue
  have hstate : t.motion.arm.state = _ := h.state
  have hother : t.motion.head = w.motion.head := h.other
  split at hstate
  · exact chooseLead_moving (.inl (by rw [hstate]; rfl))
  · refine chooseLead_waiting (c := .arm) (leading_of hq (by rw [hstate]; rfl) (by rw [hother]; exact hhead) fun g' hg' => ?_) (by
      show t.motion.arm.state ≠ _
      rw [hstate]
      exact nofun)
    have hnil : (chan t (otherChan .arm)).queue = [] := (congrArg Chan.queue hother).trans hheadq
    rw [hnil] at hg'
    cases hg'

/-! ### Where the end of the segment leads -/

/-- The coupling driven at the seat, its wait started (R124, R125). -/
def atSeat (s : Station) : Station :=
  { s with change := { s.change with
    output := !(s.change.state == .insert), leg := .coupling, couplingWait := some (s.now + Config.couplingWait) } }

theorem seatReached_waits {s : Station} (h : s.pins.sensor = (s.change.state == .insert)) : seatReached s = atSeat s := by
  unfold seatReached
  by_cases hst : (s.change.state == .insert) = true
  · simp [hst, h, atSeat]
  · simp [hst, h, atSeat]

theorem seatReached_releases {s : Station} (hst : s.change.state = .insert) (h : s.pins.sensor = false) :
    seatReached s = depositDone (atSeat s) := by
  unfold seatReached
  simp [hst, h, atSeat]

theorem seatReached_engages {s : Station} (hst : s.change.state = .engage) (h : s.pins.sensor = true) :
    seatReached s = engageDone (atSeat s) := by
  unfold seatReached
  simp [hst, h, atSeat]

/-- The change is at a port: INSERT for its deposit, ENGAGE for its pickup. -/
def AtPort (c : Changer) (p : Nat) : Prop := (c.state = .insert ∧ ∃ m, c.deposit = some (m, p)) ∨ (c.state = .engage ∧ c.pt = p)

section
variable {v : Station} {p : Nat} (hf : v.change.failing = none) (hp : AtPort v.change p)
include hf hp

theorem approachEnd (hleg : v.change.leg = .toApproach) : changeSegmentEnd v = armTo (setLeg v .toSeat) (seatOf v p) false := by
  unfold changeSegmentEnd
  rcases hp with ⟨hst, m, hd⟩ | ⟨hst, rfl⟩
  · rw [hf, hst, hleg]
    dsimp only [Option.isSome]
    rw [if_neg (by decide), hd]
  · rw [hf, hst, hleg]
    rfl

theorem seatEnd (hleg : v.change.leg = .toSeat) : changeSegmentEnd v = seatReached v := by
  unfold changeSegmentEnd
  rcases hp with ⟨hst, -⟩ | ⟨hst, -⟩
  · rw [hf, hst, hleg]
    rfl
  · rw [hf, hst, hleg]
    rfl

end

theorem insert_or_engage {c : Changer} {p : Nat} (h : AtPort c p) : (!(c.state == .insert)) = (c.state == .engage) := by
  rcases h with ⟨hst, -⟩ | ⟨hst, -⟩
  · rw [hst]
    rfl
  · rw [hst]
    rfl

theorem enterPoint_congr {s v : Station} (h : v.loader = s.loader) (p : Nat) : enterPoint v p = enterPoint s p := by
  unfold enterPoint seatOf cellOf
  rw [h]

theorem seatOf_congr {s v : Station} (h : v.loader = s.loader) (p : Nat) : seatOf v p = seatOf s p := by
  unfold seatOf cellOf
  rw [h]

/-! ### The statement -/

section
variable {enc : Counts} {s : State} {g : Segment} {runOn : Bool} {p : Nat} (hq : s.stn.motion.arm.queue = [g])
  (hr : s.stn.motion.arm.state = .running) (ho : g.origin = .sequencer runOn) (ht : isTouchSeg g = false) (hh : isHomeSeg g = false)
  (hheadq : s.stn.motion.head.queue = []) (hhead : movingState s.stn.motion.head.state = false) (hf : s.stn.change.failing = none)
  (hp : AtPort s.stn.change p)
include hq hr ho ht hh hheadq hhead hf hp

theorem approachEnds (hleg : s.stn.change.leg = .toApproach) (hgo : Says.armMayGo (readEncoders s.stn enc) (seatOf s.stn p)) :
    ∃ t : State, exec (.segmentComplete .arm enc) s = .next t ∧ t.pending = s.pending ∧
      t.stn.change = { s.stn.change with leg := .toSeat } ∧ Says.armGoes t.stn (seatOf s.stn p) false := by
  have hdone : effect (.segmentComplete .arm enc) s.stn = chooseLead (changeSegmentEnd (rested (readEncoders s.stn enc) .arm)) :=
    segmentDone_rested (c := .arm) hq ho hheadq enc hr ht hh
  have hrests := rested_rests (readEncoders s.stn enc) .arm
  generalize rested (readEncoders s.stn enc) .arm = v at *
  have hchange : v.change = s.stn.change := hrests.change
  have hother : v.motion.head = s.stn.motion.head := hrests.other
  have hseat : seatOf v p = seatOf s.stn p := seatOf_congr hrests.footing.loader p
  have hgiven := (ready_change v { v.change with leg := .toSeat }).given (v := seatOf s.stn p) false hrests.state hrests.queue
    (by rw [hother]; exact hhead) (by rw [hother]; exact hheadq) (hrests.footing.mayGo hgo)
  refine ⟨{ s with stn := effect (.segmentComplete .arm enc) s.stn }, exec_effect _ s, rfl, ?_⟩
  simp only [hdone]
  rw [approachEnd (by rw [hchange, hf]) (by rw [hchange]; exact hp) (by rw [hchange, hleg]), hseat]
  have hlead := chooseLead_given hgiven (by show movingState v.motion.head.state = false; rw [hother]; exact hhead)
    (by show v.motion.head.queue = []; rw [hother]; exact hheadq)
  show (chooseLead (armTo { v with change := { v.change with leg := .toSeat } } (seatOf s.stn p) false)).change = _ ∧ _
  unfold setLeg
  rw [hlead]
  refine ⟨hgiven.change.trans ?_, given_armGoes (armTo_works _ _ _).loader hgiven⟩
  rw [hchange]

theorem seatEnds (hleg : s.stn.change.leg = .toSeat) :
    ∃ t : State, exec (.segmentComplete .arm enc) s = .next t ∧ t.pending = s.pending ∧
        (s.stn.pins.sensor = (s.stn.change.state == .insert) →
          t.stn.motion.arm.state = .idle ∧ t.stn.motion.arm.queue = [] ∧
          t.stn.change = { s.stn.change with
            output := s.stn.change.state == .engage, leg := .coupling, couplingWait := some (s.stn.now + 500) }) ∧
        (∀ m, s.stn.change.state = .insert → s.stn.change.deposit = some (m, p) → s.stn.pins.sensor = false →
          Says.armMayGo (readEncoders s.stn enc) (enterPoint s.stn p) →
          t.stn.change = { s.stn.change with state := .confirmDeposit, output := false, leg := .retract, couplingWait := none } ∧
          Says.offered s.stn t.stn .change (.probeDeposit m p) ∧ Says.armGoes t.stn (enterPoint s.stn p) false) ∧
        (s.stn.change.state = .engage → s.stn.pins.sensor = true → Says.armMayGo (readEncoders s.stn enc) (enterPoint s.stn p) →
          t.stn.change = { s.stn.change with
            output := true, leg := .retract, couplingWait := none, heldSeen := true, code := s.stn.pins.headIdent } ∧
          Says.armGoes t.stn (enterPoint s.stn p) true) := by
  have hdone : effect (.segmentComplete .arm enc) s.stn = chooseLead (changeSegmentEnd (rested (readEncoders s.stn enc) .arm)) :=
    segmentDone_rested (c := .arm) hq ho hheadq enc hr ht hh
  have hrests := rested_rests (readEncoders s.stn enc) .arm
  obtain ⟨harm', hhead'⟩ := rested_empty (c := .arm) hheadq enc
  generalize rested (readEncoders s.stn enc) .arm = v at *
  have hchange : v.change = s.stn.change := hrests.change
  have hpins : v.pins = s.stn.pins := hrests.pins
  have hnow : v.now = s.stn.now := hrests.now
  have hother : v.motion.head = s.stn.motion.head := hrests.other
  have henter : enterPoint v p = enterPoint s.stn p := enterPoint_congr hrests.footing.loader p
  have hgiven : ∀ {w : Station} (r : Bool), Ready v w → Says.armMayGo (readEncoders s.stn enc) (enterPoint s.stn p) →
      Given w (armTo w (enterPoint s.stn p) r) .arm (.armTraverse (enterPoint s.stn p)) r (cellOf w).rackSpeed (armZones w (enterPoint s.stn p)) :=
    fun r hready hgo => hready.given r hrests.state hrests.queue (by rw [hother]; exact hhead) (by rw [hother]; exact hheadq)
      (hrests.footing.mayGo hgo)
  have hlead : ∀ {w : Station} {r : Bool} {speed : Nat} {z : ZoneMask}, Ready v w →
      Given w (armTo w (enterPoint s.stn p) r) .arm (.armTraverse (enterPoint s.stn p)) r speed z →
      chooseLead (armTo w (enterPoint s.stn p) r) = armTo w (enterPoint s.stn p) r := fun hready hg =>
    chooseLead_given hg (by rw [hready.head, hother]; exact hhead) (by rw [hready.head, hother]; exact hheadq)
  refine ⟨{ s with stn := effect (.segmentComplete .arm enc) s.stn }, exec_effect _ s, rfl, ?_⟩
  simp only [hdone]
  rw [seatEnd (by rw [hchange, hf]) (by rw [hchange]; exact hp) (by rw [hchange, hleg])]
  refine ⟨fun hsensor => ?waits, fun m hst hd hsensor hgo => ?releases, fun hst hsensor hgo => ?engages⟩
  case waits =>
    rw [seatReached_waits (by rw [hpins, hchange]; exact hsensor), chooseLead_empty (s := atSeat v) harm' hhead']
    refine ⟨hrests.state, hrests.queue, ?_⟩
    unfold atSeat
    rw [hchange, hnow, insert_or_engage hp]
  case releases =>
    have hready : Ready v (depositOffered (atSeat v) m p) := (ready_change v _).trans (depositOffered_ready (atSeat v) m p)
    have hg := hgiven false hready hgo
    have hd' : (atSeat v).change.deposit = some (m, p) := by
      show v.change.deposit = _
      rw [hchange, hd]
    rw [seatReached_releases (by rw [hchange, hst]) (by rw [hpins, hsensor]), depositDone_eq hd',
      show enterPoint (atSeat v) p = enterPoint v p from rfl, henter,
      hlead hready hg]
    refine ⟨hg.change.trans ((depositOffered_change _ m p).trans ?_), ?_, given_armGoes (armTo_works _ _ _).loader hg⟩
    · unfold atSeat
      rw [hchange, hst]
      rfl
    · have hoffered : Says.offered v (depositOffered (atSeat v) m p) .change (.probeDeposit m p) := depositOffered_offered (atSeat v) m p
      exact hrests.offered (given_offered hg hoffered)
  case engages =>
    have hready : Ready v (engaged (atSeat v)) := (ready_change v _).trans (ready_change _ _)
    have hg := hgiven true hready hgo
    have hpt : (atSeat v).change.pt = p := by
      show v.change.pt = p
      rw [hchange]
      rcases hp with ⟨hx, -⟩ | ⟨-, hx⟩
      · cases hx.symm.trans hst
      · exact hx
    rw [seatReached_engages (by rw [hchange, hst]) (by rw [hpins, hsensor]), engageDone_eq, hpt,
      show enterPoint (atSeat v) p = enterPoint v p from rfl, henter,
      hlead hready hg]
    refine ⟨hg.change.trans ?_, given_armGoes (armTo_works _ _ _).loader hg⟩
    unfold engaged atSeat
    simp only [hchange, hst, hpins]
    rfl

end

end Sys2Proof.CellChange
end

section
/-! A frame of the port table and the units around the Change Sequencer (log 15): what those before it leave as it is, and those after. -/

namespace Sys2Proof.CellChange

open Sys2Proof Sys2Proof.Machine Sys2Proof.Laws
open Sys2Proof.CellPorts (Carries completeFrame_reacts portsOnly_orVoid portsOnlyOpt_guarded)
open Sys2Proof.CellLine (releaseOwn_foreign releaseOwn_done removeCompleted_report)

/-! ### The units before the Change Sequencer -/

/-- A frame that neither reserves a port nor releases a zone. -/
def harmless (o : Outgoing) : Prop := (∀ p, isReserveOf p o.body = false) ∧ releaseMaskOf o.body = 0#32

/-- What the units that react before the Change Sequencer leave as it is: they offer harmless frames. -/
structure Early (s v : Station) : Prop where
  now : v.now = s.now
  loader : v.loader = s.loader
  arm : v.motion.arm = s.motion.arm
  head : v.motion.head = s.motion.head
  enc : v.motion.enc = s.motion.enc
  homed : v.motion.homed = s.motion.homed
  change : v.change = s.change
  request : v.request = s.request
  flight : v.line.flight = s.line.flight
  control : ∃ l, v.line.control = s.line.control ++ l ∧ ∀ o ∈ l, harmless o

theorem offers_none {s v : Station} (h : v.line.control = s.line.control) :
    ∃ l, v.line.control = s.line.control ++ l ∧ ∀ o ∈ l, harmless o :=
  ⟨[], by rw [h, List.append_nil], fun _ ho => absurd ho List.not_mem_nil⟩

theorem Early.refl (s : Station) : Early s s := ⟨rfl, rfl, rfl, rfl, rfl, rfl, rfl, rfl, rfl, offers_none rfl⟩

theorem Early.trans {s w v : Station} (h : Early s w) (k : Early w v) : Early s v := by
  obtain ⟨l, hl, hharm⟩ := h.control
  obtain ⟨m, hm, kharm⟩ := k.control
  refine ⟨k.now.trans h.now, k.loader.trans h.loader, k.arm.trans h.arm, k.head.trans h.head, k.enc.trans h.enc, k.homed.trans h.homed,
    k.change.trans h.change, k.request.trans h.request, k.flight.trans h.flight, l ++ m, ?_, fun o ho => ?_⟩
  · rw [hm, hl, List.append_assoc]
  · exact (List.mem_append.mp ho).elim (hharm o) (kharm o)

theorem early_foldl {α : Type} {f : Station → α → Station} (hf : ∀ s a, Early s (f s a)) (l : List α) (s : Station) :
    Early s (l.foldl f s) := by
  induction l generalizing s with
  | nil => exact Early.refl s
  | cons a r ih => exact (hf s a).trans (ih _)

theorem early_offer (s : Station) (src : CtlSource) {d : Nat} {b : Body} (hb : harmless ⟨d, b⟩) : Early s (offerControl s src d b) := by
  have hcalm := offerControl_calm s src d b
  have hcontrol : ∃ l, (offerControl s src d b).line.control = s.line.control ++ l ∧ ∀ o ∈ l, harmless o := by
    unfold offerControl
    split
    · exact ⟨[⟨d, b⟩], rfl, fun o ho => List.mem_singleton.mp ho ▸ hb⟩
    · exact offers_none rfl
  have hline := offerControl_line s src d b
  exact ⟨by rw [hline], hcalm.loader, hcalm.chan .arm, hcalm.chan .head, by rw [hcalm.motion], hcalm.homed, hcalm.change, hcalm.request,
    by rw [hcalm.line], hcontrol⟩

/-- The same queue and flight: nothing is offered. -/
theorem early_still {s v : Station} (hnow : v.now = s.now) (hloader : v.loader = s.loader) (hmotion : v.motion = s.motion)
    (hchange : v.change = s.change) (hrequest : v.request = s.request) (hflight : v.line.flight = s.line.flight)
    (hcontrol : v.line.control = s.line.control) : Early s v :=
  ⟨hnow, hloader, by rw [hmotion], by rw [hmotion], by rw [hmotion], by rw [hmotion], hchange, hrequest, hflight,
    offers_none hcontrol⟩

theorem offerNotices_control (k : Nat) (s : Station) : (offerNotices k s).line.control = s.line.control := by
  induction k generalizing s with
  | zero => rfl
  | succ k ih =>
    unfold offerNotices
    split
    · rfl
    · dsimp only
      split
      · exact (ih _).trans (enqueueReport_control _ _)
      · rfl

theorem offerShadow_control (k : Nat) (s : Station) : (offerShadow k s).line.control = s.line.control := by
  induction k generalizing s with
  | zero => rfl
  | succ k ih =>
    unfold offerShadow
    split
    · rfl
    · split
      · rfl
      · split
        · exact (ih _).trans (enqueueReport_control _ _)
        · rfl

theorem servingApplied_control (s : Station) (f : Frame) (fx : Fx) : (servingApplied s f fx).line.control = s.line.control := by
  have hsnapshots : ∀ t : Station, (offerSnapshots t).line.control = t.line.control := fun t => by
    unfold offerSnapshots
    dsimp only
    split
    · exact (offerShadow_control _ _).trans (offerNotices_control _ _)
    · exact offerNotices_control _ _
  unfold servingApplied
  exact hsnapshots _

theorem servingApplied_early (s : Station) (f : Frame) (fx : Fx) : Early s (servingApplied s f fx) := by
  have heq := servingApplied_eq s f fx
  exact early_still (by rw [heq]) (by rw [heq]) (by rw [heq]) (by rw [heq]) (by rw [heq]) (servingApplied_reacts s f fx).line.flight
    (servingApplied_control s f fx)

theorem withdrawWaiting_early (s : Station) (p : Waiting → Bool) : Early s (withdrawWaiting s p) :=
  early_still rfl rfl rfl rfl rfl rfl rfl

theorem motion_early {s : Station} {m : MotionUnit} (ha : m.arm = s.motion.arm) (hh : m.head = s.motion.head) (he : m.enc = s.motion.enc)
    (hd : m.homed = s.motion.homed) : Early s { s with motion := m } :=
  ⟨rfl, rfl, ha, hh, he, hd, rfl, rfl, rfl, offers_none rfl⟩

theorem setOutstanding_early (s : Station) (o : Outstanding) : Early s (setOutstanding s o) :=
  motion_early (m := { s.motion with outstanding := o }) rfl rfl rfl rfl

theorem offerClaim_early (s : Station) (g : Segment) (m : ZoneMask) : Early s (offerClaim s g m) :=
  ((motion_early (m := { s.motion with claimFor := g.acc }) rfl rfl rfl rfl).trans (early_offer _ .claim ⟨fun _ => rfl, rfl⟩)).trans
    (setOutstanding_early _ _)

theorem offerOwed_early (s : Station) (c : ChanId) : Early s (offerOwed s c) := by
  unfold offerOwed
  split
  · split
    · exact Early.refl s
    · unfold claimIfClear
      split
      · exact offerClaim_early s _ _
      · exact Early.refl s
  · exact Early.refl s

theorem claimApplied_early {fx : Fx} (hfx : fx.deadlocked = []) (s : Station) (f : Frame) : Early s (claimApplied s f fx) := by
  have hsettled : Early s (claimSettled s fx) := by
    unfold claimSettled
    rw [hfx]
    exact motion_early rfl rfl rfl rfl
  unfold claimApplied
  dsimp only
  split
  · exact (hsettled.trans (offerOwed_early _ _)).trans (offerOwed_early _ _)
  · exact Early.refl s

theorem reportRack_early (s : Station) (p : Nat) : Early s (reportRack s p) :=
  (withdrawWaiting_early s _).trans (early_offer _ _ ⟨fun _ => rfl, rfl⟩)

theorem rackPortApplied_early (before : Replica) (f : Frame) (took : Bool) (s : Station) (p : Nat) :
    Early s (rackPortApplied before f took s p) := by
  have hlock : ∀ l, Early s (setLock s p l) := fun l => early_still rfl rfl rfl rfl rfl rfl rfl
  have branches : ∀ a b c : Bool, Early s (if a = true then reportRack (setLock s p .unlocked) p
      else if b = true then reportRack (setLock s p .locked) p else if c = true then reportRack s p else s) := by
    intro a b c
    split
    · exact (hlock _).trans (reportRack_early _ _)
    · split
      · exact (hlock _).trans (reportRack_early _ _)
      · split
        · exact reportRack_early _ _
        · exact Early.refl s
  exact branches _ _ _

theorem rackApplied_early (before : Replica) (s : Station) (f : Frame) (took : Bool) : Early s (rackApplied before s f took) := by
  unfold rackApplied
  split
  · exact early_foldl (rackPortApplied_early before f took) _ s
  · exact Early.refl s

/-- Harmless frames give no zone up. -/
theorem releaseMasks_harmless {l : List Outgoing} (h : ∀ o ∈ l, harmless o) : releaseMasks l = 0#32 := by
  induction l with
  | nil => rfl
  | cons a r ih =>
    rw [releaseMasks_cons, (h a List.mem_cons_self).2, ih fun o ho => h o (List.mem_cons_of_mem a ho)]
    rfl

theorem Early.releasing {s v : Station} (h : Early s v) : releasing v = releasing s := by
  obtain ⟨l, hl, hharm⟩ := h.control
  rw [releasing_eq, releasing_eq, h.flight, hl, releaseMasks_append, releaseMasks_harmless hharm, BitVec.or_zero]

theorem Early.reserveWaits {s v : Station} (h : Early s v) {p : Nat} (hnone : ∀ o ∈ s.line.control, isReserveOf p o.body = false) :
    reserveWaits v p = false := by
  obtain ⟨l, hl, hharm⟩ := h.control
  unfold Machine.reserveWaits
  rw [hl, List.any_eq_false]
  intro o ho
  rw [Bool.not_eq_true]
  exact (List.mem_append.mp ho).elim (hnone o) fun hm => (hharm o hm).1 p

/-! ### The units after the Change Sequencer -/

/-- What the units after the Change Sequencer, and the removal of an own frame, leave as it is: they only report events. -/
structure Late (x t : Station) : Prop where
  change : t.change = x.change
  motion : t.motion = x.motion
  tables : tabs t = tabs x
  loader : t.loader = x.loader
  events : ∀ n e, ((n, e) ∈ x.request.events ∨ ∃ d, (⟨d, .event (eventBody n e)⟩ : Outgoing) ∈ x.line.report) →
    (n, e) ∈ t.request.events ∨ ∃ d, (⟨d, .event (eventBody n e)⟩ : Outgoing) ∈ t.line.report

theorem Late.refl (s : Station) : Late s s := ⟨rfl, rfl, rfl, rfl, fun _ _ h => h⟩

theorem Late.trans {x y t : Station} (h : Late x y) (k : Late y t) : Late x t :=
  ⟨k.change.trans h.change, k.motion.trans h.motion, k.tables.trans h.tables, k.loader.trans h.loader,
    fun n e hx => k.events n e (h.events n e hx)⟩

theorem late_foldl {α : Type} {f : Station → α → Station} (hf : ∀ s a, Late s (f s a)) (l : List α) (s : Station) :
    Late s (l.foldl f s) := by
  induction l generalizing s with
  | nil => exact Late.refl s
  | cons a r ih => exact (hf s a).trans (ih _)

theorem keepEvent_keeps {q : RequestUnit} {n : Nat} {e : Event} (e' : Event) (h : (n, e) ∈ q.events) : (n, e) ∈ (keepEvent q e').events := by
  unfold keepEvent
  dsimp only
  split
  · exact List.mem_append_left _ h
  · exact h

theorem giveEvent_late (s : Station) (e : Event) : Late s (giveEvent s e) := by
  have hworks := giveEvent_works s e
  refine ⟨giveEvent_change s e, giveEvent_motion s e, by unfold tabs; rw [hworks.replica], hworks.loader, fun n e' h => ?_⟩
  exact offerEventsFrom_kept _ _ n e' (h.imp (keepEvent_keeps e) id)

theorem releaseOwn_late (s : Station) (f : Frame) (hans : ∀ a, f.body ≠ .answer a) (hpt : ∀ p, f.body ≠ .point p) :
    Late s (releaseOwn s f) := by
  have hreleased := rel_noans s f hans
  have hreport : (releaseOwn s f).line.report = s.line.report := by
    cases ho : ownFlight s f with
    | false => rw [releaseOwn_foreign ho]
    | true =>
      rw [releaseOwn_done ho hpt ?_]
      · exact removeCompleted_report _
      · unfold answersRestart
        split
        · rename_i a hb
          exact absurd hb (hans a)
        · rfl
  exact ⟨hreleased.change, hreleased.motion, by unfold tabs; rw [hreleased.replica], hreleased.loader,
    fun n e h => by rw [hreleased.request, hreport]; exact h⟩

/-! ### The frame around the Change Sequencer -/

/-- The frames of the port table that a running change waits for. -/
def portFrame : Body → Bool
  | .portReserve .. => true
  | .portState .. => true
  | .probeTake .. => true
  | _ => false

theorem orVoid_deadlocked (r : Replica) (o : Option Replica) : (orVoid r o).2.deadlocked = [] := by
  cases o <;> rfl

section
variable {b : Body} (hb : portFrame b = true)
include hb

theorem portFrame_plain :
    passesRoster b = true ∧ isJoin b = false ∧ (∀ k, silencesMe k b = false) ∧ (∀ a, b ≠ .answer a) ∧ ∀ p, b ≠ .point p := by
  cases b with
  | portReserve | portState | probeTake => exact ⟨rfl, rfl, fun _ => rfl, fun _ => Body.noConfusion, fun _ => Body.noConfusion⟩
  | _ => exact absurd hb Bool.false_ne_true

theorem portFrame_units (before : Replica) (s : Station) (h : Hdr) (took : Bool) :
    closingApplied s ⟨h, b⟩ took = s ∧ mountApplied before s ⟨h, b⟩ took = s := by
  cases b with
  | portReserve | portState | probeTake => exact ⟨rfl, rfl⟩
  | _ => exact absurd hb Bool.false_ne_true

theorem portFrame_applied (c : CellPart) (lc k dest : Nat) (heard : Bool) (r : Replica) :
    (applyKind c lc k heard dest b r).2.deadlocked = [] ∧ PortsOnly r (applyKind c lc k heard dest b r).1 := by
  cases b with
  | portReserve p purpose x => exact ⟨orVoid_deadlocked _ _, portsOnly_orVoid (portsOnly_reservePort _ _ _ _ _ _ r)⟩
  | portState p present lock code =>
    show (ite (configured c p = true) _ _ : Replica × Fx).2.deadlocked = [] ∧ PortsOnly r (ite (configured c p = true) _ _ : Replica × Fx).1
    split
    · exact ⟨rfl, portsOnly_reportPort _ _ _ _ _ _ _⟩
    · exact ⟨rfl, PortsOnly.refl r⟩
  | probeTake x p code => exact ⟨orVoid_deadlocked _ _, portsOnly_orVoid (portsOnlyOpt_guarded _ (portsOnly_takeProbe _ _ _ _ _ _ r))⟩
  | _ => exact absurd hb Bool.false_ne_true

end

/-- A station after a frame of the port table, its Change Sequencer's part taken out: `v` is the station that it finds, `r` the tables before. -/
structure Sequenced (s t : Station) (f : Frame) (n : Nat) (r : Replica) (v : Station) : Prop where
  carries : Carries s t r (applyKind (cellOf s) (n + 1) f.h.sender (namedBy s f n) f.h.dest f.body r).1
  early : Early s v
  zones : (tabs v).zones = (tabs s).zones
  late : Late (changeApplied v f (applyKind (cellOf s) (n + 1) f.h.sender (namedBy s f n) f.h.dest f.body r).2.took) t

theorem counted_early {s u : Station} {f : Frame} {n : Nat} (h : Counted s u f n) (r : Replica) : Early s (setTabs u r) :=
  early_still h.now h.loader h.motion h.change h.request h.flight h.control

theorem conditionReports_late (l : List (Nat × CondReason)) (s : Station) : Late s (l.foldl reportCondition s) :=
  late_foldl (fun s _ => giveEvent_late s _) l s

/-- The units before the Change Sequencer, in their order (log 15). -/
def beforeSequencer (before : Replica) (s : Station) (f : Frame) (fx : Fx) : Station :=
  rackApplied before (claimApplied (withdrawStale (servingApplied s f fx)) f fx) f fx.took

theorem beforeSequencer_early {fx : Fx} (hfx : fx.deadlocked = []) (before : Replica) (s : Station) (f : Frame) :
    Early s (beforeSequencer before s f fx) :=
  (((servingApplied_early _ _ _).trans (withdrawWaiting_early _ _)).trans (claimApplied_early hfx _ _)).trans (rackApplied_early _ _ _ _)

theorem beforeSequencer_tables (before : Replica) (s : Station) (f : Frame) (fx : Fx) : tabs (beforeSequencer before s f fx) = tabs s := by
  unfold tabs beforeSequencer
  rw [rackApplied_replica, (claimApplied_works _ _ _).replica, (withdrawStale_works _).replica, (servingApplied_reacts s f fx).tables]

/-- Behind the Change Sequencer the units report events (R139), after a frame of the port table. -/
theorem react_late {f : Frame} (hb : portFrame f.body = true) (before : Replica) (s : Station) (fx : Fx) :
    Late (changeApplied (beforeSequencer before s f fx) f fx.took) (react before s f fx) := by
  obtain ⟨h, b⟩ := f
  unfold react
  dsimp only
  rw [(portFrame_units hb before _ h fx.took).1, (portFrame_units hb before _ h fx.took).2]
  exact conditionReports_late _ _

theorem completeFrame_sequenced {s : Station} {f : Frame} {n : Nat} (ht : Says.takes s f n) (ha : Says.passes s f.h)
    (hb : portFrame f.body = true) : ∃ r v, Sequenced s (completeFrame s f) f n r v := by
  obtain ⟨hp, hj, hsil, hans, hpt⟩ := portFrame_plain hb
  obtain ⟨u, r, hu, hr, he⟩ := completeFrame_reacts ht hp hj ha (hsil _)
  obtain ⟨hdead, hports⟩ := portFrame_applied hb (cellOf s) (n + 1) f.h.sender f.h.dest (namedBy s f n) r
  generalize hout : applyKind (cellOf s) (n + 1) f.h.sender (namedBy s f n) f.h.dest f.body r = out at he hdead hports
  have hlate := (react_late hb (tabs s) (setTabs u (derive (cellOf s) out.1)) out.2).trans (releaseOwn_late _ f hans hpt)
  have hearly := (counted_early hu (derive (cellOf s) out.1)).trans (beforeSequencer_early hdead (tabs s) _ f)
  have htables : tabs _ = derive (cellOf s) out.1 := beforeSequencer_tables (tabs s) (setTabs u (derive (cellOf s) out.1)) f out.2
  generalize beforeSequencer (tabs s) (setTabs u (derive (cellOf s) out.1)) f out.2 = v at hlate hearly htables
  rw [← he] at hlate
  have hafter : tabs (completeFrame s f) = derive (cellOf s) out.1 := by
    rw [hlate.tables, ← htables]
    unfold tabs
    rw [(changeApplied_works _ _ _).replica]
  subst hout
  exact ⟨r, v, ⟨passed_ports hr, passed_probes hr, by rw [hafter, derive_ports], by rw [hafter, derive_probes]⟩, hearly,
    by rw [htables, derive_zones, hports, hr.rest], hlate⟩

end Sys2Proof.CellChange
end

section
/-! O59: an own PORT_RESERVE and an own PROBE_TAKE at their application, and what is left of a change that is over (R124 to R128). -/

namespace Sys2Proof.CellChange

open Sys2Proof Sys2Proof.Machine Sys2Proof.Laws
open Sys2Proof.CellPorts (Reservable reservePort_some reservePort_none)
open Sys2Proof.CellLine (effect exec_effect)
open Sys2Proof.CellJoin (effect_serving)
open Sys2Proof.CellMotion (sequencerMoves_empty)
open Sys2Proof.CellZones (giveEvent_queued)

/-! ### A change that is over -/

/-- No change runs, its last failure as given, and the event of its end is there. -/
structure Over (s t : Station) (last : Option ChangeCause) (e : Event) : Prop where
  change : t.change = Changer.idleWith s.change.output last
  event : Says.eventThere s t e

theorem Over.around {s v x t : Station} {last : Option ChangeCause} {e : Event} (h : Over v x last e) (hv : Early s v) (ht : Late x t) :
    Over s t last e := by
  refine ⟨?_, fun hlen => ht.events _ _ ?_⟩
  · rw [ht.change, h.change, hv.change]
  · have hthere := h.event (hv.request ▸ hlen)
    rwa [hv.request] at hthere

theorem tidied_over {s w : Station} (e : Event) (hout : w.change.output = s.change.output) (hrequest : w.request = s.request) :
    Over s (giveEvent (tidyMoment (idleChanger w) none) e) w.change.lastFailure e := by
  have htidy := tidyMoment_calm (idleChanger w) none
  refine ⟨?_, (giveEvent_queued (htidy.request.trans hrequest) e).2⟩
  rw [giveEvent_change, htidy.change, ← hout]
  rfl

theorem changeDone_over (s : Station) : Over s (changeDone s) s.change.lastFailure (.changeDone s.change.tag s.change.t) :=
  tidied_over _ rfl rfl

theorem meetFailure_calm {s w : Station} (h : Calm s w) (cause : ChangeCause) : Calm (meetFailure s cause) (meetFailure w cause) :=
  ⟨h.motion, by unfold meetFailure; rw [h.change], h.touch, h.request, h.loader, h.replica, h.line⟩

section
variable {s : Station} (hidle : Says.allIdle s)
include hidle

/-- A failure that has been met ends at once where no channel holds a segment. -/
theorem endFailure_over {w : Station} {cause : ChangeCause} (hw : Calm (meetFailure s cause) w) :
    Over s (endFailure w) (some cause) (.changeFailed s.change.tag cause) := by
  obtain ⟨-, harm, -, hhead⟩ := hidle
  have hrest : sequencerMoves w = false := sequencerMoves_empty fun c => headSeg_nil <| by
    rw [hw.chan c]
    cases c
    · exact harm
    · exact hhead
  have hover : Over s _ _ _ := tidied_over (.changeFailed w.change.tag cause)
    ((congrArg Changer.output hw.change).trans rfl) hw.request
  have hfail : w.change.failing = some cause := congrArg Changer.failing hw.change
  have htag : w.change.tag = s.change.tag := (congrArg Changer.tag hw.change).trans rfl
  have hlast : w.change.lastFailure = some cause := congrArg Changer.lastFailure hw.change
  unfold endFailure
  rw [hfail]
  dsimp only
  rw [if_neg (by rw [hrest]; exact Bool.false_ne_true)]
  rw [htag, hlast] at hover
  rw [htag]
  exact hover

theorem failByRack_over {cause : ChangeCause} (hrun : changeRuns s = true) (hf : s.change.failing = none) :
    Over s (failByRack s cause) (some cause) (.changeFailed s.change.tag cause) := by
  have hheld := meetFailure_calm (abandonHeld_calm s) cause
  have hstop : stopBoth (meetFailure (abandonHeld s) cause) = meetFailure (abandonHeld s) cause := by
    obtain ⟨-, harm, -, hhead⟩ := hidle
    exact stopBoth_idle ((congrArg Chan.queue (hheld.chan .arm)).trans harm) ((congrArg Chan.queue (hheld.chan .head)).trans hhead)
  unfold failByRack
  rw [if_pos (by rw [hrun, hf]; rfl), hstop]
  dsimp only
  split
  · exact endFailure_over hidle (hheld.trans (reportMount_calm _ _))
  · exact endFailure_over hidle hheld

end

/-! ### The Change Sequencer at the application of a frame -/

/-- The port the change waits on, watched where a change still runs. -/
def watched (s : Station) : Station := if changeRuns s then watchReservation s else s

theorem watched_over {s t : Station} {last : Option ChangeCause} {e : Event} (h : Over s t last e) : watched t = t := by
  unfold watched changeRuns
  rw [h.change]
  rfl

theorem watched_reserved {s : Station} {p : Nat} (hf : s.change.failing = none) (hst : s.change.state ≠ .confirmDeposit)
    (hp : changePort s = some p) (hres : reservedHere s p = true) : watched s = s := by
  unfold watched watchReservation
  rw [hf, hp]
  simp [hst, hres]

theorem reservedHere_of {s : Station} {p x : Nat} {purpose : Purpose} (h : (portEntry (tabs s) p).state = .reserved (me s) purpose x) :
    reservedHere s p = true := by
  unfold reservedHere
  rw [h]
  exact beq_self_eq_true _

section
variable {v : Station} (hrun : changeRuns v = true) (hf : v.change.failing = none) {h : Hdr}
include hrun hf

theorem changeApplied_reserve (hme : h.sender = me v) (p x : Nat) (purpose : Purpose) (took : Bool) :
    changeApplied v ⟨h, .portReserve p purpose x⟩ took = watched (reserveApplied v p took) := by
  unfold changeApplied
  simp only [hrun, hf, hme, beq_self_eq_true, if_true]
  rfl

theorem changeApplied_take (hme : h.sender = me v) (p x : Nat) (code : Option Code) (took : Bool) :
    changeApplied v ⟨h, .probeTake x p code⟩ took = watched (takeApplied v x p took) := by
  unfold changeApplied
  simp only [hrun, hf, hme, beq_self_eq_true, if_true]
  rfl

theorem changeApplied_unlocked (p : Nat) (present : Bool) (code : Option Code) :
    changeApplied v ⟨h, .portState p present .unlocked code⟩ true = watched (unlockApplied v p) := by
  unfold changeApplied
  simp only [hrun, hf]
  rfl

end

theorem me_early {s v : Station} (h : Early s v) : me v = me s := by
  unfold me
  rw [h.loader]

theorem Early.allIdle {s v : Station} (h : Early s v) (hidle : Says.allIdle s) : Says.allIdle v := by
  unfold Says.allIdle
  rw [h.arm, h.head]
  exact hidle

theorem changeRuns_of {s : Station} {st : ChangeState} (h : s.change.state = st) (hst : st ≠ .idle) : changeRuns s = true := by
  unfold changeRuns
  rw [h]
  exact bne_iff_ne.mpr hst

theorem Sequenced.after {s t v : Station} {f : Frame} {n : Nat} {r : Replica} (h : Sequenced s t f n r v) : tabs t = tabs v := by
  rw [h.late.tables]
  unfold tabs
  rw [(changeApplied_works _ _ _).replica]

/-! ### An own PORT_RESERVE (R124, R125) -/

/-- The change waits for its PORT_RESERVE of port `p`. -/
def Reserving (c : Changer) (p x : Nat) (purpose : Purpose) : Prop :=
  (c.state = .reserveDeposit ∧ c.deposit = some (x, p) ∧ purpose = .deposit) ∨
    (c.state = .reservePickup ∧ c.pt = p ∧ c.t = x ∧ purpose = .pickup)

/-- The change once its port is reserved: it waits for the lock to open. -/
def unlocking (s : Station) (purpose : Purpose) : Station :=
  { s with change := { s.change with
    state := if purpose = .deposit then .unlockDeposit else .unlockPickup, leg := .none, unlockWait := some (s.now + Config.unlockWait) } }

section
variable {v : Station} {p x : Nat} {purpose : Purpose} (hc : Reserving v.change p x purpose)
include hc

theorem reserving_runs : changeRuns v = true := by
  rcases hc with ⟨hst, -⟩ | ⟨hst, -⟩
  · exact changeRuns_of hst nofun
  · exact changeRuns_of hst nofun

theorem reserveApplied_eq (hw : reserveWaits v p = false) (took : Bool) :
    reserveApplied v p took = if took = true then unlocking v purpose else failByRack v .rackLost := by
  have hport : changePort v = some p := by
    unfold changePort
    rcases hc with ⟨hst, hd, -⟩ | ⟨hst, hp, -⟩
    · rw [hst, hd]
    · rw [hst, hp]
  have hgate : (decide (changePort v = some p) && !reserveWaits v p) = true := by rw [hport, hw]; simp
  unfold reserveApplied
  rcases hc with ⟨hst, -, rfl⟩ | ⟨hst, -, -, rfl⟩
  · rw [hst]
    exact if_pos hgate
  · rw [hst]
    exact if_pos hgate

theorem unlocking_port : changePort (unlocking v purpose) = some p := by
  rcases hc with ⟨-, hd, rfl⟩ | ⟨-, hp, -, rfl⟩
  · simp [changePort, unlocking, hd]
  · simp [changePort, unlocking, hp]

end

theorem unlocking_state (s : Station) (purpose : Purpose) : (unlocking s purpose).change.state ≠ .confirmDeposit := by
  cases purpose <;> exact nofun

theorem reserveAnswered {h : Hdr} {p x : Nat} {purpose : Purpose} {s : State} {n : Nat} (ht : Says.takes s.stn ⟨h, .portReserve p purpose x⟩ n)
    (ha : Says.passes s.stn h) (hz : TablesSized (tabs s.stn)) (hme : h.sender = me s.stn) (hf : s.stn.change.failing = none)
    (hc : Reserving s.stn.change p x purpose) (hnone : ∀ o ∈ s.stn.line.control, isReserveOf p o.body = false) :
    ∃ t : State, exec (.portReserve h p purpose x) s = .next t ∧ t.pending = s.pending ∧
      ((portEntry (tabs t.stn) p).state = .reserved (me s.stn) purpose x →
        (∀ k w y, (portEntry (tabs s.stn) p).state ≠ .reserved k w y) →
        t.stn.change = { s.stn.change with
          state := if purpose = .deposit then .unlockDeposit else .unlockPickup, leg := .none, unlockWait := some (s.stn.now + 1000) }) ∧
      ((portEntry (tabs t.stn) p).state ≠ .reserved (me s.stn) purpose x → Says.allIdle s.stn →
        t.stn.change = Changer.idleWith s.stn.change.output (some .rackLost)) := by
  have hserves := ht.1
  have hgood := body_good ht.2.2.1
  simp only [bodyGood, portNumber, Bool.and_eq_true, decide_eq_true_eq] at hgood
  obtain ⟨⟨hp1, hp12⟩, -⟩ := hgood
  obtain ⟨r, v, hseq⟩ := completeFrame_sequenced ht ha rfl
  have hcarries : CellPorts.Carries _ _ r (orVoid r (reservePort (cellOf s.stn) (n + 1) h.sender p purpose x r)).1 := hseq.carries
  have hlate : Late (changeApplied v _ (orVoid r (reservePort (cellOf s.stn) (n + 1) h.sender p purpose x r)).2.took) _ := hseq.late
  have hcv : Reserving v.change p x purpose := hseq.early.change ▸ hc
  have hfv : v.change.failing = none := hseq.early.change ▸ hf
  have hwaits := hseq.early.reserveWaits hnone
  rw [changeApplied_reserve (reserving_runs hcv) hfv (hme.trans (me_early hseq.early).symm)] at hlate
  refine ⟨{ s with stn := effect (.portReserve h p purpose x) s.stn }, exec_effect _ s, rfl, ?_⟩
  simp only [effect_serving (c := .portReserve h p purpose x) rfl hserves rfl]
  by_cases hok : Reservable (cellOf s.stn) h.sender p purpose x r
  case pos =>
    rw [reservePort_some hok] at hcarries hlate
    have hstate : (portEntry (tabs (completeFrame s.stn ⟨h, .portReserve p purpose x⟩)) p).state = .reserved (me s.stn) purpose x := by
      rw [hcarries.portAfter, ← hme]
      exact congrArg PortEntry.state ((portEntry_set r p _ hp1 (by rw [hcarries.portsBefore, hz.ports]; exact hp12) p).trans (if_pos rfl))
    refine ⟨fun _ _ => ?_, fun hnot => absurd hstate hnot⟩
    rw [hseq.after, ← me_early hseq.early] at hstate
    replace hlate : Late (watched (reserveApplied v p true)) _ := hlate
    rw [reserveApplied_eq hcv hwaits, if_pos rfl, watched_reserved (s := unlocking v purpose) hfv (unlocking_state v purpose) (unlocking_port hcv)
      (reservedHere_of (s := unlocking v purpose) hstate)] at hlate
    rw [hlate.change]
    unfold unlocking
    rw [hseq.early.change, hseq.early.now]
  case neg =>
    rw [reservePort_none hok] at hcarries hlate
    have hsame := hcarries.portAfter p
    rw [show portEntry (orVoid r none).1 p = portEntry r p from rfl, hcarries.portBefore] at hsame
    refine ⟨fun hres hfree => absurd (hsame ▸ hres) (hfree _ _ _), fun _ hidle => ?_⟩
    have hover := failByRack_over (cause := .rackLost) (hseq.early.allIdle hidle) (reserving_runs hcv) hfv
    replace hlate : Late (watched (reserveApplied v p false)) _ := hlate
    rw [reserveApplied_eq hcv hwaits, if_neg Bool.false_ne_true, watched_over hover] at hlate
    exact (hover.around hseq.early hlate).change

/-! ### An own PROBE_TAKE (R125, R126) -/

/-- A PROBE_TAKE of station `k` takes effect on a configured port that `k` has RESERVED for its pickup of the probe (R116). -/
theorem probeTake_took (c : CellPart) (lc k dest p x : Nat) (heard : Bool) (code : Option Code) (r : Replica) :
    (applyKind c lc k heard dest (.probeTake x p code) r).2.took = true ↔
      configured c p = true ∧ (portEntry r p).state = .reserved k .pickup x := by
  show (orVoid r (if configured c p then takeProbe c lc k x p code r else none)).2.took = true ↔ _
  unfold takeProbe
  by_cases hp : configured c p = true
  · by_cases hst : (portEntry r p).state = .reserved k .pickup x
    · simp [hp, hst, orVoid, Fx.plain]
    · simp [hp, hst, orVoid, Fx.void]
  · simp [hp, orVoid, Fx.void]

section
variable {v : Station} (hst : v.change.state = .confirmTake) {took : Bool}
include hst

theorem takeApplied_halted (hidle : Says.allIdle v) (howed : v.change.haltOwed = true) :
    Over v (takeApplied v v.change.t v.change.pt took) (some .halted) (.changeFailed v.change.tag .halted) := by
  unfold takeApplied
  rw [if_pos ⟨hst, rfl, rfl⟩, if_pos howed]
  refine endFailure_over hidle ?_
  split
  · exact Calm.refl _
  · exact meetFailure_calm (reportMount_calm v _) _

variable (howed : v.change.haltOwed = false)
include howed

theorem takeApplied_done (hcu : (probeRec (tabs v) v.change.t).custody = .station (me v)) :
    takeApplied v v.change.t v.change.pt took = changeDone v := by
  unfold takeApplied
  rw [if_pos ⟨hst, rfl, rfl⟩, if_neg (by rw [howed]; exact Bool.false_ne_true), if_pos hcu]

theorem takeApplied_fails (hcu : (probeRec (tabs v) v.change.t).custody ≠ .station (me v)) :
    takeApplied v v.change.t v.change.pt took = failByRack v (if took then .wrongProbe else .rackLost) := by
  unfold takeApplied
  rw [if_pos ⟨hst, rfl, rfl⟩, if_neg (by rw [howed]; exact Bool.false_ne_true), if_neg hcu]

end

theorem takeAnswered {h : Hdr} {p x : Nat} {code : Option Code} {s : State} {n : Nat} (ht : Says.takes s.stn ⟨h, .probeTake x p code⟩ n)
    (ha : Says.passes s.stn h) (hme : h.sender = me s.stn) (hf : s.stn.change.failing = none) (hst : s.stn.change.state = .confirmTake)
    (hx : s.stn.change.t = x) (hp : s.stn.change.pt = p) (hidle : Says.allIdle s.stn) :
    ∃ t : State, exec (.probeTake h x p code) s = .next t ∧ t.pending = s.pending ∧
      (s.stn.change.haltOwed = true → t.stn.change = Changer.idleWith s.stn.change.output (some .halted) ∧
        Says.eventThere s.stn t.stn (.changeFailed s.stn.change.tag .halted)) ∧
      (s.stn.change.haltOwed = false →
        ((probeRec (tabs t.stn) x).custody = .station (me s.stn) →
          t.stn.change = Changer.idleWith s.stn.change.output s.stn.change.lastFailure ∧
          Says.eventThere s.stn t.stn (.changeDone s.stn.change.tag x)) ∧
        (∀ cause, (probeRec (tabs t.stn) x).custody ≠ .station (me s.stn) →
          cause = (if configured (cellOf s.stn) p = true ∧ (portEntry (tabs s.stn) p).state = .reserved (me s.stn) .pickup x then
            ChangeCause.wrongProbe else .rackLost) →
          t.stn.change = Changer.idleWith s.stn.change.output (some cause) ∧
          Says.eventThere s.stn t.stn (.changeFailed s.stn.change.tag cause))) := by
  have hserves := ht.1
  obtain ⟨r, v, hseq⟩ := completeFrame_sequenced ht ha rfl
  have htook := probeTake_took (cellOf s.stn) (n + 1) h.sender h.dest p x (namedBy s.stn ⟨h, .probeTake x p code⟩ n) code r
  rw [hseq.carries.portBefore, hme] at htook
  have hlate := hseq.late
  have hearly := hseq.early
  have hafter := hseq.after
  have hmev := me_early hearly
  have hstv : v.change.state = .confirmTake := hearly.change ▸ hst
  have hfv : v.change.failing = none := hearly.change ▸ hf
  have hidlev := hearly.allIdle hidle
  have hrun := changeRuns_of hstv nofun
  rw [changeApplied_take hrun hfv (hme.trans hmev.symm)] at hlate
  dsimp only at hlate
  rw [hme] at hlate
  generalize (applyKind (cellOf s.stn) (n + 1) (me s.stn) _ h.dest (.probeTake x p code) r).2.took = took at htook hlate
  refine ⟨{ s with stn := effect (.probeTake h x p code) s.stn }, exec_effect _ s, rfl, ?_⟩
  simp only [effect_serving (c := .probeTake h x p code) rfl hserves rfl]
  generalize completeFrame s.stn ⟨h, .probeTake x p code⟩ = t at hlate hafter
  have hends : ∀ {last : Option ChangeCause} {e : Event}, Over v (takeApplied v v.change.t v.change.pt took) last e → Over s.stn t last e :=
    fun hover => by
      refine hover.around hearly ?_
      rwa [← hx, ← hp, ← hearly.change, watched_over hover] at hlate
  rw [← hmev, ← hx, ← hp, ← hearly.change] at htook
  rw [hafter, ← hmev, ← hx, ← hp, ← hearly.change]
  refine ⟨fun howed => ?halted, fun howed => ⟨fun hcu => ?done, fun cause hcu hcause => ?fails⟩⟩
  case halted =>
    obtain ⟨hchange, hevent⟩ := hends (takeApplied_halted hstv hidlev howed)
    exact ⟨hearly.change ▸ hchange, hevent⟩
  case done =>
    obtain ⟨hchange, hevent⟩ := hends (takeApplied_done hstv howed hcu ▸ changeDone_over v)
    exact ⟨hearly.change ▸ hchange, hevent⟩
  case fails =>
    obtain rfl := hcause.trans (if_congr htook.symm rfl rfl)
    obtain ⟨hchange, hevent⟩ := hends (takeApplied_fails hstv howed hcu ▸ failByRack_over hidlev hrun hfv)
    exact ⟨hearly.change ▸ hchange, hevent⟩

end Sys2Proof.CellChange
end

section
/-! O59: a PORT_STATE with the port unlocked (R124, R125), and the whole statement. -/

namespace Sys2Proof.CellChange

open Sys2Proof Sys2Proof.Machine Sys2Proof.Laws
open Sys2Proof.CellPorts (Carries ButPort reported butPort_reported reported_state reportPort_settles settled_stands stays_says)
open Sys2Proof.CellLine (effect exec_effect)
open Sys2Proof.CellJoin (effect_serving)

/-! ### The reservation stands (R114, R116) -/

theorem unlocked_stands {s t : Station} {r : Replica} {p n k x : Nat} {purpose : Purpose} {present : Bool} {code : Option Code}
    (hr : Carries s t r (reportPort (cellOf s) (n + 1) p present .unlocked code r)) (hz : TablesSized (tabs s)) (h1 : 1 ≤ p) (h12 : p ≤ 12)
    (hres : (portEntry (tabs s) p).state = .reserved k purpose x) :
    (portEntry (tabs t) p).state = .reserved k purpose x ∧ Says.probesStay s t := by
  have hlength : p ≤ r.ports.length := by rw [hr.portsBefore, hz.ports]; exact h12
  have hv : ButPort p (tabs s) (reported r p present .unlocked code) :=
    (ButPort.ofEq hr.portsBefore hr.probesBefore).trans (butPort_reported present .unlocked code)
  rw [reportPort_settles _ _ _ _ _ _ _ (hr.portBefore p ▸ hres), settled_stands _ (.inl rfl)] at hr
  have hw := hr.restamped h1 (by rw [hv.length, hz.ports]; exact h12)
  refine ⟨?_, (stays_says (hv.trans hw.after)).1⟩
  rw [hw.state, reported_state h1 hlength, hr.portBefore]
  exact hres

/-! ### The arm sent into the port -/

/-- The change waits for the lock of port `p` to open. -/
def Unlocking (c : Changer) (p : Nat) : Prop :=
  (c.state = .unlockDeposit ∧ ∃ m, c.deposit = some (m, p)) ∨ (c.state = .unlockPickup ∧ c.pt = p)

/-- The change once the lock is open: the arm goes to the port. -/
def approaching (s : Station) : Station :=
  { s with change := { s.change with
    state := if s.change.state = .unlockDeposit then .insert else .engage, leg := .toApproach, unlockWait := none } }

section
variable {v : Station} {p : Nat} (hc : Unlocking v.change p)
include hc

theorem unlocking_runs : changeRuns v = true := by
  rcases hc with ⟨hst, -⟩ | ⟨hst, -⟩
  · exact changeRuns_of hst nofun
  · exact changeRuns_of hst nofun

theorem unlockApplied_eq (hres : reservedHere v p = true) : unlockApplied v p = armTo (approaching v) (enterPoint v p) false := by
  have hport : changePort v = some p := by
    unfold changePort
    rcases hc with ⟨hst, m, hd⟩ | ⟨hst, hp⟩
    · rw [hst, hd]
    · rw [hst, hp]
  unfold unlockApplied approaching
  rw [if_pos (by rw [hport, hres]; simp)]
  rcases hc with ⟨hst, -⟩ | ⟨hst, -⟩
  · rw [hst]
    rfl
  · rw [hst]
    rfl

theorem approaching_port {w : Station} (h : w.change = (approaching v).change) : changePort w = some p := by
  unfold changePort
  rw [h]
  unfold approaching
  rcases hc with ⟨hst, m, hd⟩ | ⟨hst, hp⟩
  · rw [hst]
    dsimp only
    rw [hd]
    rfl
  · rw [hst]
    dsimp only
    rw [hp]
    rfl

end

theorem approaching_state (s : Station) : (approaching s).change.state ≠ .confirmDeposit := by
  unfold approaching
  dsimp only
  split
  · exact nofun
  · exact nofun

theorem Early.ready {s v : Station} (h : Early s v) (hprobes : (tabs v).probes = (tabs s).probes) (hzones : (tabs v).zones = (tabs s).zones) :
    Ready s v := by
  have hheld : heldHere v = heldHere s := by
    unfold heldHere heldMask zoneEntry
    rw [me_early h, hzones]
  exact ⟨⟨h.loader, hprobes, h.enc, h.homed⟩, h.arm, h.head, holdsAll_congr hheld h.releasing⟩

theorem armSent_late {s x t : Station} {v : Vec3} {runOn : Bool} (h : Says.armSent s x v runOn) (ht : Late x t) : Says.armSent s t v runOn := by
  unfold Says.armSent
  rw [ht.motion]
  exact h

theorem unlockAnswered {h : Hdr} {p : Nat} {present : Bool} {code : Option Code} {s : State} {n x : Nat} {purpose : Purpose}
    (ht : Says.takes s.stn ⟨h, .portState p present .unlocked code⟩ n) (ha : Says.passes s.stn h) (hz : TablesSized (tabs s.stn))
    (hp : configured (cellOf s.stn) p = true) (hres : (portEntry (tabs s.stn) p).state = .reserved (me s.stn) purpose x)
    (hf : s.stn.change.failing = none) (hc : Unlocking s.stn.change p) (hfree : Says.armFree s.stn (enterPoint s.stn p)) :
    ∃ t : State, exec (.portState h p present .unlocked code) s = .next t ∧ t.pending = s.pending ∧
      t.stn.change = { s.stn.change with
        state := if s.stn.change.state = .unlockDeposit then .insert else .engage, leg := .toApproach, unlockWait := none } ∧
      Says.armSent s.stn t.stn (enterPoint s.stn p) false := by
  have hserves := ht.1
  have hgood := body_good ht.2.2.1
  simp only [bodyGood, portNumber, Bool.and_eq_true, decide_eq_true_eq] at hgood
  obtain ⟨hp1, hp12⟩ := hgood
  obtain ⟨⟨harm, harmq, hhead, hheadq⟩, hgo⟩ := hfree
  obtain ⟨r, v, hseq⟩ := completeFrame_sequenced ht ha rfl
  have happly : applyKind (cellOf s.stn) (n + 1) h.sender (namedBy s.stn ⟨h, .portState p present .unlocked code⟩ n) h.dest
      (.portState p present .unlocked code) r = (reportPort (cellOf s.stn) (n + 1) p present .unlocked code r, Fx.plain) := if_pos hp
  have hcarries := hseq.carries
  have hlate := hseq.late
  dsimp only at hcarries hlate
  rw [happly] at hcarries hlate
  obtain ⟨hstate, hprobes⟩ := unlocked_stands hcarries hz hp1 hp12 hres
  have hearly := hseq.early
  have hafter := hseq.after
  rw [hafter, ← me_early hearly] at hstate
  have hready := hearly.ready (hafter ▸ hprobes) hseq.zones
  have hcv : Unlocking v.change p := hearly.change ▸ hc
  have hfv : v.change.failing = none := hearly.change ▸ hf
  have hgiven := (hready.trans (ready_change v (approaching v).change)).given false harm harmq (by rw [hhead]; rfl) hheadq hgo
  have hwatched : watched (armTo (approaching v) (enterPoint s.stn p) false) = armTo (approaching v) (enterPoint s.stn p) false := by
    have hworks := armTo_works (approaching v) (enterPoint s.stn p) false
    have hchange : (armTo (approaching v) (enterPoint s.stn p) false).change = (approaching v).change := hgiven.change
    refine watched_reserved (by rw [hchange]; exact hfv) (by rw [hchange]; exact approaching_state v) (approaching_port hcv hchange) ?_
    unfold reservedHere tabs me
    rw [hworks.replica, hworks.loader]
    exact reservedHere_of hstate
  replace hlate : Late (changeApplied v ⟨h, .portState p present .unlocked code⟩ true) _ := hlate
  rw [changeApplied_unlocked (unlocking_runs hcv) hfv, unlockApplied_eq hcv (reservedHere_of hstate), enterPoint_congr hearly.loader,
    hwatched] at hlate
  refine ⟨{ s with stn := effect (.portState h p present .unlocked code) s.stn }, exec_effect _ s, rfl, ?_⟩
  simp only [effect_serving (c := .portState h p present .unlocked code) rfl hserves rfl]
  have hsent := hready.trans (ready_change v (approaching v).change)
  refine ⟨hlate.change.trans (hgiven.change.trans ?_), armSent_late (given_armSent hsent.footing hsent.head hsent.holds hgiven) hlate⟩
  show (approaching v).change = _
  unfold approaching
  rw [hearly.change]

/-! ### The statement -/

/-- Settles O59: one lemma for each of its commands. -/
theorem changeGoesOn : Obligations.ChangeGoesOn := by
  unfold Obligations.ChangeGoesOn
  refine ⟨couplingSensed, fun c due cause s hrun hf hidle h => waitRunsOut hrun hf hidle h, waitsStill,
    fun enc s g runOn hq hr ho ht hh harm hst hf hrack => claimingEnds hq hr ho ht hh harm hst hf hrack,
    fun enc s g runOn hq hr ho ht hh hhead hst hleg hf => retractEnds hq hr ho ht hh hhead hst hleg hf, ?atPort,
    fun h p x purpose s n ht ha hz hme hf hc hnone => reserveAnswered ht ha hz hme hf hc hnone,
    fun h p present code s n x purpose ht ha hz hp hres hf hc hfree => unlockAnswered ht ha hz hp hres hf hc hfree,
    fun h p x code s n ht ha _ hme hf hst hx hp hidle => takeAnswered ht ha hme hf hst hx hp hidle⟩
  rintro enc s g runOn p _ rfl hq hr ho ht hh hheadq hhead hf hp
  exact ⟨approachEnds hq hr ho ht hh hheadq hhead hf hp, seatEnds hq hr ho ht hh hheadq hhead hf hp⟩

end Sys2Proof.CellChange
end

section
/-! Frames of chapter 7 at a serving station: what every table but the probes and the latches keeps, and probes and latches before and after
the frame as those of two replicas (R7, R22). -/

namespace Sys2Proof.CellDirectory

open Sys2Proof Sys2Proof.Machine Sys2Proof.Laws
open Sys2Proof.CellLine (effect exec_effect)
open Sys2Proof.CellJoin (counted_of_live completeFrame_passed effect_serving)
open Sys2Proof.CellPorts (Carries)

/-- An operation that changes no table but the probes and the latches. -/
def DirectoryOnly (r q : Replica) : Prop := q = { r with probes := q.probes, latches := q.latches }

theorem DirectoryOnly.trans {r q v : Replica} (h : DirectoryOnly r q) (k : DirectoryOnly q v) : DirectoryOnly r v := by
  unfold DirectoryOnly at h k ⊢
  rw [k, h]

/-- Ports, probes and latches of a station before and after a frame are those of two replicas. -/
structure Directs (s t : Station) (r q : Replica) : Prop extends Carries s t r q where
  latchesBefore : r.latches = (tabs s).latches
  latchesAfter : (tabs t).latches = q.latches

namespace Directs

variable {s t : Station} {r q : Replica} (h : Directs s t r q)
include h

theorem latchBefore (k : Nat) : latchOf (tabs s) k = latchOf r k := by
  unfold latchOf
  rw [h.latchesBefore]

theorem latchAfter (k : Nat) : latchOf (tabs t) k = latchOf q k := by
  unfold latchOf
  rw [h.latchesAfter]

theorem latchesStay (e : q.latches = r.latches) : Says.latchesStay s t := h.latchesAfter.trans (e.trans h.latchesBefore)

theorem otherLatchesStay {k : Nat} (e : ∀ j, j ≠ k → latchOf q j = latchOf r j) :
    ∀ j, j ≠ k → latchOf (tabs t) j = latchOf (tabs s) j := fun j hj => by
  rw [h.latchAfter, e j hj, h.latchBefore]

end Directs

/-- The roster after a frame whose kind leaves roster and cell record to the roster step. -/
theorem follows_of_kept {s t : Station} {c : CellPart} {h : Hdr} {n : Nat} {r q : Replica} (hp : Passed (cellOf s) (n + 1) h (tabs s) r)
    (ht : tabs t = derive c q) (hroster : q.roster = r.roster) (hcell : q.cell = r.cell) : Says.rosterFollows s t h n := by
  have hentry : ∀ j, rosterEntry (tabs t) j = rosterEntry r j := fun j => by
    unfold rosterEntry
    rw [ht, derive_roster, hroster]
  refine ⟨?_, fun j hj => (hentry j).trans (hp.others j hj), fun hm hst => (hentry _).trans (hp.flagged hm hst),
    fun hn => (hentry _).trans (hp.unflagged hn)⟩
  rw [ht, derive_cell, hcell, hp.rest]

/-- A frame of a sender that passes the roster step and whose kind touches the probes and the latches alone. -/
theorem completeFrame_directory {s : Station} {f : Frame} {n : Nat} (ht : Says.takes s f n) (hp : passesRoster f.body = true)
    (hj : isJoin f.body = false) (ha : Says.passes s f.h) (hsil : silencesMe (me s) f.body = false)
    (hk : ∀ r, DirectoryOnly r (applyKind (cellOf s) (n + 1) f.h.sender (namedBy s f n) f.h.dest f.body r).1) :
    Says.tablesElse s (completeFrame s f) f.h n ∧ Says.portsStay s (completeFrame s f) ∧ ∃ r,
      Directs s (completeFrame s f) r (applyKind (cellOf s) (n + 1) f.h.sender (namedBy s f n) f.h.dest f.body r).1 := by
  obtain ⟨r, hr, hlive⟩ := completeFrame_passed ht hp hj ha
  obtain ⟨hl, htabs⟩ := hlive (by rw [hsil, Bool.and_false])
  have hfollows := follows_of_kept hr htabs (by rw [hk r]) (by rw [hk r])
  have hdirects : Directs s (completeFrame s f) r (applyKind (cellOf s) (n + 1) f.h.sender (namedBy s f n) f.h.dest f.body r).1 :=
    ⟨⟨passed_ports hr, passed_probes hr, by rw [htabs, derive_ports], by rw [htabs, derive_probes]⟩, by rw [hr.rest],
      by rw [htabs, derive_latches]⟩
  refine ⟨⟨counted_of_live hl, hfollows, ⟨?zones, ?claims⟩, ?board⟩, hdirects.portsStay (by rw [hk r]), r, hdirects⟩
  case zones => rw [htabs, derive_zones, hk r, hr.rest]
  case claims => rw [htabs, derive_claims, hk r, hr.rest]
  case board =>
    unfold Says.boardStays
    rw [htabs, derive_board, hk r, hr.rest]

/-- The command of such a frame: its outcome, and the replicas that its probes and latches are those of. -/
theorem exec_directory {i : Instr} {f : Frame} {s : State} {n : Nat} (hi : Says.frameOf i = some f) (ht : Says.takes s.stn f n)
    (hp : passesRoster f.body = true) (hj : isJoin f.body = false) (ha : Says.passes s.stn f.h)
    (hsil : silencesMe (me s.stn) f.body = false)
    (hk : ∀ r, DirectoryOnly r (applyKind (cellOf s.stn) (n + 1) f.h.sender (namedBy s.stn f n) f.h.dest f.body r).1) :
    ∃ t : State, exec i s = .next t ∧ t.pending = s.pending ∧ Says.tablesElse s.stn t.stn f.h n ∧ Says.portsStay s.stn t.stn ∧ ∃ r,
      Directs s.stn t.stn r (applyKind (cellOf s.stn) (n + 1) f.h.sender (namedBy s.stn f n) f.h.dest f.body r).1 := by
  refine ⟨{ s with stn := effect i s.stn }, exec_effect i s, rfl, ?_⟩
  rw [effect_serving hi ht.1 hp]
  exact completeFrame_directory ht hp hj ha hsil hk

end Sys2Proof.CellDirectory
end

section
/-! What the rules of chapter 7 make of one replica: a part staged (R134), a commit (R135), a mark (R138) and a touch (R137). -/

namespace Sys2Proof.CellDirectory

open Sys2Proof Sys2Proof.Machine Sys2Proof.Laws
open Sys2Proof.CellBoard (stampProbe_rest)

/-! ### One latch (R133) -/

section
variable {lc k : Nat} {r : Replica}

theorem setLatch_own (h1 : 1 ≤ k) (h2 : k ≤ r.latches.length) (d : Option LatchData) : latchOf (setLatch r lc k d) k = ⟨d, lc⟩ :=
  (latch_set r lc k d h1 h2 k).trans (if_pos rfl)

theorem setLatch_other (d : Option LatchData) {j : Nat} (hj : j ≠ k) : latchOf (setLatch r lc k d) j = latchOf r j :=
  at1_set1_other _ _ _ _ _ hj

theorem emptyLatch_other {j : Nat} (hj : j ≠ k) : latchOf (emptyLatch lc k r) j = latchOf r j := by
  unfold emptyLatch
  split
  · exact setLatch_other _ hj
  · rfl

theorem emptyLatch_directoryOnly : DirectoryOnly r (emptyLatch lc k r) := by
  unfold emptyLatch
  split <;> rfl

end

/-! ### QUAL_PART (R134) -/

/-- The parts that a part for probe `x` of `n` parts joins: those of a latch filled for the same, or none. -/
def heldParts (old : Option LatchData) (x n : Nat) : List (Option Tip) :=
  match old with
  | none => List.replicate 6 none
  | some d => if d.probe = x ∧ d.n = n then d.parts else List.replicate 6 none

theorem heldParts_same {old : Option LatchData} {d : LatchData} (h : old = some d) : heldParts old d.probe d.n = d.parts := by
  subst h
  exact if_pos ⟨rfl, rfl⟩

theorem heldParts_fresh {old : Option LatchData} {x n : Nat} (h : ∀ d, old = some d → d.probe ≠ x ∨ d.n ≠ n) :
    heldParts old x n = List.replicate 6 none := by
  cases old with
  | none => rfl
  | some d => exact if_neg (not_and_or.mpr (h d rfl))

section
variable (c : CellPart) (lc k : Nat) (x i n : Nat) (t : Tip) (r : Replica)

theorem stagePart_some (hx : inUse c x = true) (hi : i ≤ n) : stagePart c lc k x i n t r =
    some (setLatch r lc k (some ⟨x, n, set1 (heldParts (latchOf r k).data x n) i (some t)⟩)) := by
  unfold stagePart heldParts
  rw [if_neg (by simp [hx, hi])]
  cases (latchOf r k).data with
  | none => rfl
  | some d =>
    by_cases hsame : d.probe = x ∧ d.n = n
    · obtain ⟨rfl, rfl⟩ := hsame
      simp
    · simp [hsame]

theorem stagePart_none (h : inUse c x = false ∨ n < i) : stagePart c lc k x i n t r = none := by
  unfold stagePart
  exact if_pos (by simpa using h)

theorem applyKind_qualPart (heard : Bool) (dest : Nat) : (applyKind c lc k heard dest (.qualPart x i n t) r).1 =
    if inUse c x = true ∧ i ≤ n then setLatch r lc k (some ⟨x, n, set1 (heldParts (latchOf r k).data x n) i (some t)⟩) else r := by
  show (orVoid r (stagePart c lc k x i n t r)).1 = _
  split
  next h => rw [stagePart_some _ _ _ _ _ _ _ _ h.1 h.2]; rfl
  next h =>
    rw [stagePart_none _ _ _ _ _ _ _ _ (by simpa [imp_iff_not_or] using h)]
    rfl

end

/-! ### QUAL_COMMIT (R135) -/

/-- A QUAL_COMMIT of station `k` names what its latch holds: the parts `ts`, complete and with distinct keys, of a probe in its custody. -/
structure Committable (r : Replica) (k x n : Nat) (d : LatchData) (ts : List Tip) : Prop where
  held : (latchOf r k).data = some d
  probe : d.probe = x
  count : d.n = n
  parts : d.parts.take n = ts.map some
  complete : ts.length = n
  distinct : (ts.map tipKeyOf).Nodup
  custody : (probeRec r x).custody = .station k

theorem Committable.congr {r q : Replica} {k x n : Nat} {d : LatchData} {ts : List Tip} (h : Committable r k x n d ts)
    (hlatch : latchOf q k = latchOf r k) (hprobe : probeRec q x = probeRec r x) : Committable q k x n d ts :=
  { h with held := hlatch ▸ h.held, custody := hprobe ▸ h.custody }

section
variable {r : Replica} {k x n : Nat}

theorem commitTips_of_committable {d : LatchData} {ts : List Tip} (h : Committable r k x n d ts) :
    commitTips r k x n = some (ts.map (fun t => { t with stale := false })) := by
  obtain ⟨hheld, rfl, rfl, hparts, hcomplete, hdistinct, hcustody⟩ := h
  simp [commitTips, hheld, hcustody, parts_all hparts hcomplete, hdistinct]

theorem committable_of_commitTips {us : List Tip} (h : commitTips r k x n = some us) : ∃ d ts, Committable r k x n d ts := by
  unfold commitTips at h
  split at h
  next => cases h
  next d hheld =>
    split at h
    next hnames =>
      obtain ⟨hprobe, hcount, hcustody⟩ := hnames
      split at h
      next => cases h
      next ts hall =>
        split at h
        next hdistinct =>
          obtain ⟨hparts, hcomplete⟩ := all_parts hall
          exact ⟨d, ts, hheld, hprobe, hcount, hcount ▸ hparts, hcomplete.trans hcount, hdistinct, hcustody⟩
        next => cases h
    next => cases h

/-- The replica with a QUAL_COMMIT recorded, its latch not yet emptied. -/
def withCommit (lc k x n : Nat) (temp : Int) (r : Replica) : Replica :=
  match commitTips r k x n with
  | none => r
  | some ts => commitProbe lc x ts temp r

theorem applyKind_qualCommit (c : CellPart) (lc dest : Nat) (heard : Bool) (temp : Int) :
    (applyKind c lc k heard dest (.qualCommit x n temp) r).1 = emptyLatch lc k (withCommit lc k x n temp r) := by
  unfold applyKind withCommit
  dsimp only
  cases commitTips r k x n <;> rfl

variable (lc : Nat) (temp : Int)

theorem withCommit_directoryOnly : DirectoryOnly r (withCommit lc k x n temp r) := by
  unfold withCommit
  split <;> rfl

theorem withCommit_latches : (withCommit lc k x n temp r).latches = r.latches := by
  unfold withCommit
  split <;> rfl

theorem withCommit_otherProbe {y : Nat} (hy : y ≠ x) : probeRec (withCommit lc k x n temp r) y = probeRec r y := by
  unfold withCommit
  split
  · rfl
  · exact at1_set1_other _ _ _ _ _ hy

theorem withCommit_void (h : ∀ d ts, ¬ Committable r k x n d ts) : withCommit lc k x n temp r = r := by
  unfold withCommit
  split
  next => rfl
  next us hus =>
    obtain ⟨d, ts, hcommit⟩ := committable_of_commitTips hus
    exact absurd hcommit (h d ts)

theorem withCommit_probe {d : LatchData} {ts : List Tip} (h : Committable r k x n d ts) (h1 : 1 ≤ x) (h2 : x ≤ r.probes.length) :
    probeRec (withCommit lc k x n temp r) x = { probeRec r x with
      tips := ts.map (fun e => { e with stale := false }), qualTemp := some temp, cond := .usable, touches := 0, staleRun := 0
      stamp := lc } := by
  unfold withCommit
  rw [commitTips_of_committable h]
  exact at1_set1_same _ _ _ _ h1 h2

end

/-! ### A probe's record written (R137, R138) -/

section
variable {lc x : Nat} {r : Replica}

theorem stampIf_directoryOnly (p : Prop) [Decidable p] (e : ProbeRec) : DirectoryOnly r (if p then stampProbe r lc x e else r) := by
  split
  · rw [stampProbe_rest]
    rfl
  · rfl

/-- A frame that at most writes the record of probe `x` leaves the latches and the other probes as they were. -/
theorem Directs.stampIf_rest {s t : Station} {p : Prop} [Decidable p] {e : ProbeRec} (h : Directs s t r (if p then stampProbe r lc x e else r))
    (h1 : 1 ≤ x) (h2 : x ≤ r.probes.length) : Says.latchesStay s t ∧ Says.otherProbesStay s t x := by
  refine ⟨h.latchesStay ?latches, h.otherProbesStay fun y hy => ?others⟩
  case latches =>
    split
    · rw [stampProbe_rest]
    · rfl
  case others =>
    split
    · obtain ⟨hother, -⟩ := stampProbe_rec r lc x e h1 h2
      exact hother y hy
    · rfl

/-- A record that differs from the one before beyond the stamp is stamped. -/
theorem stampProbe_stamped (h1 : 1 ≤ x) (h2 : x ≤ r.probes.length) {e : ProbeRec}
    (hne : { e with stamp := (probeRec r x).stamp } ≠ probeRec r x) : probeRec (stampProbe r lc x e) x = { e with stamp := lc } := by
  obtain ⟨-, hx, -⟩ := stampProbe_rec r lc x e h1 h2
  rw [hx, if_neg hne]

variable (c : CellPart) (k dest : Nat) (heard : Bool)

theorem applyKind_probeMark : (applyKind c lc k heard dest (.probeMark x) r).1 =
    if inUse c x = true ∧ (probeRec r x).custody = .station k then stampProbe r lc x { probeRec r x with cond := .suspect } else r := by
  show (orVoid r (markProbe c lc k x r)).1 = _
  unfold markProbe
  split <;> rfl

theorem applyKind_point (p : PointBody) : (applyKind c lc k heard dest (.point p) r).1 =
    if inUse c p.probe = true then stampProbe r lc p.probe (countTouch c (probeRec r p.probe)) else r := by
  show (orVoid r (touchProbe c lc p.probe r)).1 = _
  unfold touchProbe
  split <;> rfl

end

/-! ### One more touch (R137) -/

section
variable {c : CellPart} {e : ProbeRec}

theorem countTouch_top (h : 65535 ≤ e.touches) : countTouch c e = e := if_pos h

variable (h : e.touches < 65535)
include h

theorem countTouch_limit (hlimit : c.touchLimit ≠ 0) (hat : e.touches + 1 = c.touchLimit) :
    countTouch c e = turnStale { e with touches := e.touches + 1 } := by
  unfold countTouch
  rw [if_neg (Nat.not_le.mpr h)]
  exact if_pos ⟨hlimit, hat⟩

theorem countTouch_below (hoff : c.touchLimit = 0 ∨ e.touches + 1 ≠ c.touchLimit) : countTouch c e = { e with touches := e.touches + 1 } := by
  unfold countTouch
  rw [if_neg (Nat.not_le.mpr h)]
  exact if_neg fun hc => hoff.elim hc.1 fun hne => hne hc.2

theorem countTouch_touches : (countTouch c e).touches = e.touches + 1 := by
  by_cases hat : c.touchLimit ≠ 0 ∧ e.touches + 1 = c.touchLimit
  · rw [countTouch_limit h hat.1 hat.2]
    rfl
  · rw [countTouch_below h (by simpa [imp_iff_not_or] using hat)]

end

end Sys2Proof.CellDirectory
end

section
/-! O45 and O47: the frames of chapter 7 at the application, and a POINT's touch (R134, R135, R137, R138). -/

namespace Sys2Proof.CellDirectory

open Sys2Proof Sys2Proof.Machine Sys2Proof.Laws
open Sys2Proof.CellBoard (stampProbe_same stampProbe_written turnStale_tips)

/-! ### QUAL_PART -/

theorem partIsStaged {h : Hdr} {x i m : Nat} {tip : Tip} {s : State} {n : Nat} (ht : Says.takes s.stn ⟨h, .qualPart x i m tip⟩ n)
    (ha : Says.passes s.stn h) (hz : TablesSized (tabs s.stn)) :
    ∃ t : State, exec (.qualPart h x i m tip) s = .next t ∧ t.pending = s.pending ∧ Says.tablesElse s.stn t.stn h n ∧
      Says.probesStay s.stn t.stn ∧ Says.portsStay s.stn t.stn ∧
      (∀ j, j ≠ h.sender → latchOf (tabs t.stn) j = latchOf (tabs s.stn) j) ∧
      (inUse (cellOf s.stn) x = true → i ≤ m →
        (∀ d, (latchOf (tabs s.stn) h.sender).data = some d → d.probe = x → d.n = m →
          latchOf (tabs t.stn) h.sender = ⟨some ⟨x, m, set1 d.parts i (some tip)⟩, n + 1⟩) ∧
        ((∀ d, (latchOf (tabs s.stn) h.sender).data = some d → d.probe ≠ x ∨ d.n ≠ m) →
          latchOf (tabs t.stn) h.sender = ⟨some ⟨x, m, set1 (List.replicate 6 none) i (some tip)⟩, n + 1⟩)) ∧
      (inUse (cellOf s.stn) x = false ∨ m < i → Says.latchesStay s.stn t.stn) := by
  obtain ⟨hk1, hk14⟩ := sender_range ht.2.2.1
  obtain ⟨t, hexec, hpending, htables, hports, r, hr⟩ := exec_directory (i := .qualPart h x i m tip) rfl ht rfl rfl ha rfl fun r => by
    rw [applyKind_qualPart]
    split <;> rfl
  rw [applyKind_qualPart] at hr
  dsimp only at hr hk1 hk14
  refine ⟨t, hexec, hpending, htables, hr.probesStay ?probes, hports, hr.otherLatchesStay ?others, fun hx hi => ?staged, fun hvoid => ?void⟩
  case probes => split <;> rfl
  case others =>
    intro j hj
    split
    · exact setLatch_other _ hj
    · rfl
  case staged =>
    have hown : latchOf (tabs t.stn) h.sender =
        ⟨some ⟨x, m, set1 (heldParts (latchOf (tabs s.stn) h.sender).data x m) i (some tip)⟩, n + 1⟩ := by
      rw [hr.latchAfter, if_pos ⟨hx, hi⟩, hr.latchBefore]
      exact setLatch_own hk1 (by rw [hr.latchesBefore, hz.latches]; exact hk14) _
    refine ⟨fun d hd hprobe hcount => ?_, fun hother => ?_⟩
    · subst hprobe hcount
      rw [hown, heldParts_same hd]
    · rw [hown, heldParts_fresh hother]
  case void =>
    refine hr.latchesStay ?_
    rw [if_neg fun hc => hvoid.elim (fun hx => Bool.false_ne_true (hx.symm.trans hc.1)) (Nat.not_lt.mpr hc.2)]

/-! ### QUAL_COMMIT -/

theorem commitIsApplied {h : Hdr} {x m : Nat} {temp : Int} {s : State} {n : Nat} (ht : Says.takes s.stn ⟨h, .qualCommit x m temp⟩ n)
    (ha : Says.passes s.stn h) (hz : TablesSized (tabs s.stn)) :
    ∃ t : State, exec (.qualCommit h x m temp) s = .next t ∧ t.pending = s.pending ∧ Says.tablesElse s.stn t.stn h n ∧
      Says.portsStay s.stn t.stn ∧ (∀ j, j ≠ h.sender → latchOf (tabs t.stn) j = latchOf (tabs s.stn) j) ∧
      (latchOf (tabs t.stn) h.sender).data = none ∧ Says.otherProbesStay s.stn t.stn x ∧
      (∀ d ts, Committable (tabs s.stn) h.sender x m d ts →
        probeRec (tabs t.stn) x = { probeRec (tabs s.stn) x with
          tips := ts.map (fun e => { e with stale := false }), qualTemp := some temp, cond := .usable
          touches := 0, staleRun := 0, stamp := n + 1 }) ∧
      ((∀ d ts, ¬ Committable (tabs s.stn) h.sender x m d ts) → Says.probesStay s.stn t.stn) := by
  have hgood := body_good ht.2.2.1
  simp only [bodyGood, probeNumber, Bool.and_eq_true, decide_eq_true_eq] at hgood
  obtain ⟨⟨hx1, hx24⟩, -⟩ := hgood
  obtain ⟨t, hexec, hpending, htables, hports, r, hr⟩ := exec_directory (i := .qualCommit h x m temp) rfl ht rfl rfl ha rfl fun r => by
    rw [applyKind_qualCommit]
    exact (withCommit_directoryOnly _ _).trans emptyLatch_directoryOnly
  rw [applyKind_qualCommit] at hr
  dsimp only at hr
  obtain ⟨-, hprobes⟩ := emptyLatch_ports (withCommit (n + 1) h.sender x m temp r) (n + 1) h.sender
  have hprobe : ∀ y, probeRec (tabs t.stn) y = probeRec (withCommit (n + 1) h.sender x m temp r) y := fun y => by
    unfold probeRec
    rw [hr.probesAfter, hprobes]
  refine ⟨t, hexec, hpending, htables, hports, hr.otherLatchesStay fun j hj => ?others, ?emptied, fun y hy => ?otherProbe,
    fun d ts hok => ?committed, fun hnot => hr.probesStay ?void⟩
  case others =>
    rw [emptyLatch_other hj]
    unfold latchOf
    rw [withCommit_latches]
  case emptied =>
    obtain ⟨hnone, -⟩ := emptyLatch_latch (n + 1) h.sender (withCommit (n + 1) h.sender x m temp r)
    rw [hr.latchAfter, hnone]
  case otherProbe => rw [hprobe, withCommit_otherProbe _ _ hy, hr.probeBefore]
  case committed =>
    rw [hprobe, ← hr.probeBefore]
    exact withCommit_probe _ _ (hok.congr (hr.latchBefore _).symm (hr.probeBefore _)) hx1 (by rw [hr.probesBefore, hz.probes]; exact hx24)
  case void => rw [hprobes, withCommit_void _ _ fun d ts hok => hnot d ts (hok.congr (hr.latchBefore _) (hr.probeBefore _).symm)]

/-! ### PROBE_MARK -/

theorem probeIsMarked {h : Hdr} {x : Nat} {s : State} {n : Nat} (ht : Says.takes s.stn ⟨h, .probeMark x⟩ n) (ha : Says.passes s.stn h)
    (hz : TablesSized (tabs s.stn)) :
    ∃ t : State, exec (.probeMark h x) s = .next t ∧ t.pending = s.pending ∧ Says.tablesElse s.stn t.stn h n ∧
      Says.portsStay s.stn t.stn ∧ Says.latchesStay s.stn t.stn ∧ Says.otherProbesStay s.stn t.stn x ∧
      (inUse (cellOf s.stn) x = true → (probeRec (tabs s.stn) x).custody = .station h.sender →
        probeRec (tabs t.stn) x = { probeRec (tabs s.stn) x with cond := .suspect, stamp := (probeRec (tabs t.stn) x).stamp } ∧
        ((probeRec (tabs s.stn) x).cond = .usable → (probeRec (tabs t.stn) x).stamp = n + 1)) ∧
      (inUse (cellOf s.stn) x = false ∨ (probeRec (tabs s.stn) x).custody ≠ .station h.sender → Says.probesStay s.stn t.stn) := by
  have hgood := body_good ht.2.2.1
  simp only [bodyGood, probeNumber, Bool.and_eq_true, decide_eq_true_eq] at hgood
  obtain ⟨hx1, hx24⟩ := hgood
  obtain ⟨t, hexec, hpending, htables, hports, r, hr⟩ := exec_directory (i := .probeMark h x) rfl ht rfl rfl ha rfl fun r => by
    rw [applyKind_probeMark]
    exact stampIf_directoryOnly _ _
  rw [applyKind_probeMark] at hr
  dsimp only at hr
  have hlen : x ≤ r.probes.length := by rw [hr.probesBefore, hz.probes]; exact hx24
  obtain ⟨hlatches, hothers⟩ := hr.stampIf_rest hx1 hlen
  refine ⟨t, hexec, hpending, htables, hports, hlatches, hothers, fun hx hc => ?marked, fun hvoid => ?void⟩
  case marked =>
    rw [← hr.probeBefore] at hc ⊢
    rw [hr.probeAfter, if_pos ⟨hx, hc⟩]
    obtain ⟨st, hwritten⟩ := stampProbe_written hx1 hlen (n + 1) { probeRec r x with cond := .suspect }
    refine ⟨by rw [hwritten], fun husable => ?_⟩
    rw [stampProbe_stamped hx1 hlen fun hsame => ?_]
    have hcond : Condition.suspect = (probeRec r x).cond := congrArg ProbeRec.cond hsame
    rw [husable] at hcond
    cases hcond
  case void =>
    rw [← hr.probeBefore] at hvoid
    refine hr.probesStay ?_
    rw [if_neg fun hc => hvoid.elim (fun hx => Bool.false_ne_true (hx.symm.trans hc.1)) fun hne => hne hc.2]

/-- Settles O45, by `partIsStaged`, `commitIsApplied` and `probeIsMarked`. -/
theorem qualificationIsStaged : Obligations.QualificationIsStaged := by
  unfold Obligations.QualificationIsStaged
  refine ⟨fun h x i m tip s n ht ha hz => partIsStaged ht ha hz, fun h x m temp s n ht ha hz => ?commit,
    fun h x s n ht ha hz => probeIsMarked ht ha hz⟩
  obtain ⟨t, hexec, hpending, htables, hports, hothers, hempty, hprobes, hcommitted, hvoid⟩ := commitIsApplied ht ha hz
  refine ⟨t, hexec, hpending, htables, hports, hothers, hempty, hprobes,
    fun d ts hheld hprobe hcount hparts hcomplete hdistinct hcustody =>
      hcommitted d ts ⟨hheld, hprobe, hcount, hparts, hcomplete, hdistinct, hcustody⟩, fun hnot => hvoid fun d ts hok => ?_⟩
  exact hnot d ts hok.held hok.probe hok.count hok.parts hok.complete hok.distinct hok.custody

/-! ### POINT -/

/-- The count of a touch changes the record, so that it is stamped. -/
theorem touched_record {c : CellPart} {lc x : Nat} {r : Replica} (h1 : 1 ≤ x) (h2 : x ≤ r.probes.length)
    (hbelow : (probeRec r x).touches < 65535) :
    probeRec (stampProbe r lc x (countTouch c (probeRec r x))) x = { countTouch c (probeRec r x) with stamp := lc } := by
  refine stampProbe_stamped h1 h2 fun hsame => ?_
  have htouches : (countTouch c (probeRec r x)).touches = (probeRec r x).touches := (congrArg ProbeRec.touches hsame :)
  rw [countTouch_touches hbelow] at htouches
  omega

/-- Settles O47: the record by `touched_record` and the equations of `countTouch`. -/
theorem pointCountsTouch : Obligations.PointCountsTouch := by
  unfold Obligations.PointCountsTouch
  intro h p s n ht ha hz
  have hgood := body_good ht.2.2.1
  simp only [bodyGood, probeNumber, Bool.and_eq_true, decide_eq_true_eq] at hgood
  obtain ⟨⟨⟨⟨⟨⟨hx1, hx24⟩, -⟩, -⟩, -⟩, -⟩, -⟩ := hgood
  obtain ⟨t, hexec, hpending, htables, hports, r, hr⟩ := exec_directory (i := .point h p) rfl ht rfl rfl ha rfl fun r => by
    rw [applyKind_point]
    exact stampIf_directoryOnly _ _
  rw [applyKind_point] at hr
  have hlen : p.probe ≤ r.probes.length := by rw [hr.probesBefore, hz.probes]; exact hx24
  obtain ⟨hlatches, hothers⟩ := hr.stampIf_rest hx1 hlen
  refine ⟨t, hexec, hpending, htables, hports, hlatches, hothers, fun hx hbelow => ?touched,
    fun hvoid => hr.probesStay ?void⟩
  case touched =>
    rw [← hr.probeBefore] at hbelow ⊢
    rw [hr.probeAfter, if_pos hx, touched_record hx1 hlen hbelow]
    refine ⟨countTouch_touches hbelow, rfl, countTouch_custody _ _, fun hlimit hat => ?_, fun hoff => ?_⟩
    · rw [countTouch_limit hbelow hlimit hat]
      exact turnStale_tips _
    · rw [countTouch_below hbelow hoff]
  case void =>
    rw [← hr.probeBefore] at hvoid
    split
    next hx =>
      rw [countTouch_top (hvoid.resolve_left fun hno => Bool.false_ne_true (hno.symm.trans hx)), stampProbe_same]
    next => rfl

end Sys2Proof.CellDirectory
end

section
/-! The Request Unit's state across resets (R167). -/

namespace Sys2Proof.CellRequests

open Sys2Proof Sys2Proof.Machine

/-- A restart resets the Request Unit, whether the straps it samples let the station load or send it SHUT (R167, R169). -/
theorem restart_request (s : Station) (c : ResetCause) : (restart s c).request = RequestUnit.reset := by
  unfold restart sampleStraps
  simp only
  split <;> rfl

/-- An OUT cause resets the Request Unit, also where it is the third within 600 s and the station goes SHUT (R167, R174). -/
theorem enterOut_request (s : Station) (c : OutCause) : (enterOut s c).request = RequestUnit.reset := by
  unfold enterOut
  simp only
  split <;> rfl

/-- Settles O15: every way out of the line takes the reset value, whose fields are those of R167. -/
theorem requestUnitAcrossResets : Obligations.RequestUnitAcrossResets := by
  unfold Obligations.RequestUnitAcrossResets
  exact ⟨fun _ => rfl, restart_request, enterOut_request, fun _ _ => rfl, rfl, rfl, rfl, rfl, rfl, rfl⟩

end Sys2Proof.CellRequests
end

section
/-! Motion requests that a check refuses (R159 to R161): the conditions of each kind in their order, against its list of checks. -/

namespace Sys2Proof.CellRequests

open Sys2Proof Sys2Proof.Machine Sys2Proof.Laws
open Sys2Proof.CellLine (effect exec_effect)
open Sys2Proof.CellZones (asks_isNext)
open Sys2Proof.CellMotion (Decides refuse_refused)
open Sys2Proof.CellChange (Refuses)

/-! ### Lists of conditions and of checks -/

section
variable {l k : List (Prop × Nat)} {cs ds : List (Bool × Reason)}

theorem refuses_of_decides (h : Decides l cs) : Refuses l cs := fun _ hn => h.fails hn

/-- What follows a list of conditions matters only where they all hold. -/
theorem refuses_append (h : Decides l cs) (hrest : (∀ c ∈ l, c.1) → Refuses k ds) : Refuses (l ++ k) (cs ++ ds) := by
  induction h with
  | nil => exact hrest nofun
  | check hp _ ih => exact .cons hp fun hyes => ih fun hall => hrest (List.forall_mem_cons.mpr ⟨hyes, hall⟩)
  | met hp _ ih =>
    rintro n (⟨hnot, -⟩ | ⟨-, hlater⟩)
    · exact absurd hp hnot
    · exact ih (fun hall => hrest (List.forall_mem_cons.mpr ⟨hp, hall⟩)) n hlater

/-- A later condition is the first that fails where the ones before it hold. -/
theorem firstOf_append {n : Nat} (hall : ∀ c ∈ l, c.1) (h : Says.firstOf k n) : Says.firstOf (l ++ k) n := by
  induction l with
  | nil => exact h
  | cons c r ih =>
    obtain ⟨hc, hr⟩ := List.forall_mem_cons.mp hall
    exact .inr ⟨hc, ih hr⟩

theorem firstOf_append_left {n : Nat} (h : Says.firstOf l n) : Says.firstOf (l ++ k) n := by
  induction l with
  | nil => exact h.elim
  | cons c r ih => exact h.imp_right fun ⟨hc, hr⟩ => ⟨hc, ih hr⟩

/-- A request whose first failing condition has the reason number `n` is refused with it, and has no effect (R159, R160). -/
theorem decideRequest_refused {u : Station} {n : Nat} (h : Refuses l cs) (hn : Says.firstOf l n) (src : Nat) (tag : Code) (code acc : Nat)
    (act : Station → Station) : Says.refused u (decideRequest (takeRequest u) src tag code acc cs act) src tag code n := by
  obtain ⟨r, hfails, rfl⟩ := h n hn
  rw [decide_some hfails]
  exact refuse_refused u src tag code r

end

/-! ### The checks that the kinds share (R160) -/

section
variable (s : Station)

theorem gate_decides : Decides (Says.gateList s) (gateChecks s) := by
  refine .check (r := .notActive) ?active (.check (r := .parked) ?mode (.check (r := .busy) ?busy .nil))
  case active =>
    simp only [Bool.and_eq_true, ownActive, beq_iff_eq]
    rfl
  case mode => simp [parkedMode]
  case busy => simp [changeRuns]

/-- The states in which a channel takes a segment (R74). -/
theorem takesSegment_iff (st : ChanState) :
    (st = .idle ∨ st = .waitTurn ∨ st = .waitCredit ∨ st = .waitZone ∨ st = .running) ↔ takesSegment st = true := by
  cases st <;> simp [takesSegment]

theorem room_decides (c : ChanId) : Decides (Says.roomList s c) (queueChecks s c) :=
  .check (r := .busy) (takesSegment_iff _) (.check (r := .queueFull) decide_eq_true_iff.symm .nil)

theorem target_decides (k : SegKind) : Decides (Says.targetList s k) (targetChecks s k) :=
  .check (r := .limit) Iff.rfl (.check (r := .zoneForbidden) Iff.rfl .nil)

theorem hasAxes_iff (c : ChanId) : chanAxes s c ≠ [] ↔ hasAxes s c = true := by simp [hasAxes]

/-- The ARM channel has the first axes, so that a station with axes has one for it (R73). -/
theorem hasAxes_arm_iff : (ownOf s).axes ≠ [] ↔ hasAxes s .arm = true := by
  refine ⟨hasAxes_arm, fun h hnone => (hasAxes_iff s .arm).mpr h ?_⟩
  unfold chanAxes axesOf
  rw [hnone]
  rfl

end

/-! ### Each kind -/

/-- What a MOVE must meet, with the reasons in their order (R160). -/
def moveList (s : Station) (v : Vec3) (speed recovery : Nat) : List (Prop × Nat) :=
  Says.gateList s ++ (1 ≤ speed ∧ speed ≤ 500 ∧ recovery ≤ 1 ∧ (ownOf s).axes ≠ [], 5) :: (allHomed s = true, 7) ::
    (Says.roomList s .arm ++ Says.targetList s (.traverse v))

section
variable (s : Station)

theorem move_refuses (v : Vec3) (speed recovery : Nat) : Refuses (moveList s v speed recovery) (moveChecks (takeRequest s) v speed recovery) := by
  rw [moveChecks_take]
  unfold moveChecks
  simp only [List.append_assoc, List.cons_append, List.nil_append]
  refine refuses_append (gate_decides s) fun _ => .cons (r := .badArg) ?args fun _ => .cons (r := .notHomed) Iff.rfl fun _ =>
    refuses_append (room_decides s .arm) fun _ => refuses_of_decides (target_decides s _)
  simp only [moveArgs, between, Bool.and_eq_true, decide_eq_true_eq, ← hasAxes_arm_iff, and_assoc]

/-- A TOUCH without a mounted probe meets no condition on one: NO_PROBE is the reason, and no later check counts (R161). -/
theorem touch_refuses (a : TouchArgs) : Refuses (Says.touchList s a) (touchChecks (takeRequest s) a) := by
  rw [touchChecks_take]
  unfold Says.touchList touchChecks
  simp only [List.append_assoc, List.cons_append, List.nil_append]
  refine refuses_append (gate_decides s) fun _ => .cons (r := .badArg) ?args fun _ => .cons (r := .notHomed) Iff.rfl fun _ =>
    refuses_append (room_decides s .arm) fun _ => ?probe
  case args =>
    simp only [touchArgs, between, Bool.and_eq_true, bne_iff_ne, decide_eq_true_eq, ← hasAxes_arm_iff, and_assoc, ne_eq]
  case probe =>
    unfold probeChecks
    cases hm : mounted s with
    | none => exact .cons (r := .noProbe) (by simp) fun ⟨x, hx⟩ => nomatch hx
    | some x =>
      rintro n (⟨hnot, -⟩ | ⟨-, hrest⟩)
      · exact absurd ⟨x, rfl⟩ hnot
      · exact Refuses.cons (r := .probeUnusable) (by simp) (fun _ => .cons (r := .probeUnusable) Option.isSome_iff_exists.symm
          fun _ => refuses_of_decides (target_decides s _)) n hrest

/-- A HOME whose field names no channel is refused as one whose channel has no axes is (R160). -/
theorem home_refuses (n : Nat) : Refuses (Says.homeList s n) (homeChecks (takeRequest s) (homeChan n)) := by
  have named (c : ChanId) : Refuses (Says.gateList s ++ ((chanAxes s c ≠ [], 5) :: Says.roomList s c)) (homeChecks s (some c)) := by
    unfold homeChecks
    simp only [List.append_assoc, List.cons_append, List.nil_append]
    exact refuses_append (gate_decides s) fun _ => .cons (r := .badArg) (hasAxes_iff s c) fun _ => refuses_of_decides (room_decides s c)
  rw [homeChecks_take]
  unfold Says.homeList
  simp only [List.append_assoc, List.cons_append, List.nil_append]
  match n with
  | 0 => simpa [homeChan] using named .arm
  | 1 => simpa [homeChan] using named .head
  | n + 2 => exact refuses_append (gate_decides s) fun _ => .cons (r := .badArg) (by simp) fun ⟨hn, _⟩ => absurd hn (by omega)

theorem index_refuses (a : Nat) (b : Int) : Refuses (Says.indexList s a b) (indexChecks (takeRequest s) a b) := by
  rw [indexChecks_take]
  unfold Says.indexList indexChecks
  simp only [List.append_assoc, List.cons_append, List.nil_append]
  refine refuses_append (gate_decides s) fun _ => .cons (r := .badArg) ?args fun _ => .cons (r := .notHomed) Iff.rfl fun _ =>
    refuses_append (room_decides s .head) fun _ => refuses_of_decides (target_decides s _)
  simp only [indexArgs, Bool.and_eq_true, decide_eq_true_eq, ← hasAxes_iff, and_assoc]

end

/-! ### The first reason of a MOVE -/

section
variable {u : Station} {v : Vec3} {speed recovery : Nat}

theorem gateList_holds (h : Says.gateOpen u) : ∀ c ∈ Says.gateList u, c.1 := by
  obtain ⟨hserving, hactive, hparked, hchange, hrestart⟩ := h
  simp [Says.gateList, hserving, hactive, hparked, hchange, hrestart]

theorem roomList_holds {c : ChanId} (h : Says.roomOn u c) : ∀ x ∈ Says.roomList u c, x.1 := by
  obtain ⟨hstate, hroom⟩ := h
  exact List.forall_mem_cons.mpr ⟨hstate, List.forall_mem_cons.mpr ⟨hroom, nofun⟩⟩

theorem moveList_gate {n : Nat} (h : Says.firstOf (Says.gateList u) n) : Says.firstOf (moveList u v speed recovery) n :=
  firstOf_append_left h

theorem moveList_args (hgate : Says.gateOpen u) (h : ¬ (1 ≤ speed ∧ speed ≤ 500 ∧ recovery ≤ 1 ∧ (ownOf u).axes ≠ [])) :
    Says.firstOf (moveList u v speed recovery) 5 :=
  firstOf_append (gateList_holds hgate) (.inl ⟨h, rfl⟩)

section
variable (hgate : Says.gateOpen u) (hargs : 1 ≤ speed ∧ speed ≤ 500 ∧ recovery ≤ 1 ∧ (ownOf u).axes ≠ [])
include hgate hargs

theorem moveList_homed (h : allHomed u = false) : Says.firstOf (moveList u v speed recovery) 7 :=
  firstOf_append (gateList_holds hgate) (.inr ⟨hargs, .inl ⟨ne_true_of_eq_false h, rfl⟩⟩)

variable (hhomed : allHomed u = true)
include hhomed

theorem moveList_room {n : Nat} (h : Says.firstOf (Says.roomList u .arm) n) : Says.firstOf (moveList u v speed recovery) n :=
  firstOf_append (gateList_holds hgate) (.inr ⟨hargs, .inr ⟨hhomed, firstOf_append_left h⟩⟩)

theorem moveList_target {n : Nat} (hroom : Says.roomOn u .arm) (h : Says.firstOf (Says.targetList u (.traverse v)) n) :
    Says.firstOf (moveList u v speed recovery) n :=
  firstOf_append (gateList_holds hgate) (.inr ⟨hargs, .inr ⟨hhomed, firstOf_append (roomList_holds hroom) h⟩⟩)

end

end

/-! ### The statement -/

section
variable {s : State}

/-- A request whose effect is known has it, and the queue stays. -/
theorem exec_request {c : Instr} {t : Station} (h : effect c s.stn = t) : exec c s = .next { s with stn := t } := by
  rw [exec_effect, h]

/-- A command that has a request decided refuses it with the first reason of its list. -/
theorem exec_refused {c : Instr} {u : Station} {src code acc : Nat} {tag : Code} {l : List (Prop × Nat)} {cs : List (Bool × Reason)}
    {act : Station → Station} (h : Refuses l cs)
    (heffect : effect c s.stn = decideRequest (takeRequest u) src tag code acc cs act) :
    ∃ t : State, exec c s = .next t ∧ t.pending = s.pending ∧ ∀ n, Says.firstOf l n → Says.refused u t.stn src tag code n :=
  ⟨_, exec_request heffect, rfl, fun _ hn => decideRequest_refused h hn src tag code acc act⟩

variable {enc : Counts} {src : Nat} {tag : Code}

theorem move_refused {v : Vec3} {speed recovery : Nat} (hask : Says.asks (readEncoders s.stn enc) src tag (.move v speed recovery)) :
    ∃ t : State, exec (.move src tag v speed recovery enc) s = .next t ∧ t.pending = s.pending ∧
      ∀ n, Says.firstOf (moveList (readEncoders s.stn enc) v speed recovery) n → Says.refused (readEncoders s.stn enc) t.stn src tag 1 n :=
  exec_refused (move_refuses (readEncoders s.stn enc) v speed recovery) (if_pos (asks_isNext hask))

theorem touch_refused {a : TouchArgs} (hask : Says.asks (readEncoders s.stn enc) src tag (.touch a)) :
    ∃ t : State, exec (.touch src tag a enc) s = .next t ∧ t.pending = s.pending ∧
      ∀ n, Says.firstOf (Says.touchList (readEncoders s.stn enc) a) n → Says.refused (readEncoders s.stn enc) t.stn src tag 2 n :=
  exec_refused (touch_refuses (readEncoders s.stn enc) a) (if_pos (asks_isNext hask))

theorem home_refused {m : Nat} (hask : Says.asks (readEncoders s.stn enc) src tag (.home m)) :
    ∃ t : State, exec (.home src tag m enc) s = .next t ∧ t.pending = s.pending ∧
      ∀ n, Says.firstOf (Says.homeList (readEncoders s.stn enc) m) n → Says.refused (readEncoders s.stn enc) t.stn src tag 3 n :=
  exec_refused (home_refuses (readEncoders s.stn enc) m) (if_pos (asks_isNext hask))

theorem index_refused {a : Nat} {b : Int} (hask : Says.asks (readEncoders s.stn enc) src tag (.index a b)) :
    ∃ t : State, exec (.index src tag a b enc) s = .next t ∧ t.pending = s.pending ∧
      ∀ n, Says.firstOf (Says.indexList (readEncoders s.stn enc) a b) n → Says.refused (readEncoders s.stn enc) t.stn src tag 4 n :=
  exec_refused (index_refuses (readEncoders s.stn enc) a b) (if_pos (asks_isNext hask))

end

/-- Settles O50: each list of conditions against its checks, and the reasons of a MOVE as the first of `moveList`. -/
theorem motionRequestsAreRefused : Obligations.MotionRequestsAreRefused := by
  unfold Obligations.MotionRequestsAreRefused
  refine ⟨?move, ?touch, ?home, ?index⟩
  case move =>
    rintro src tag v speed recovery enc s u rfl hask
    obtain ⟨t, hexec, hpending, hrefused⟩ := move_refused hask
    refine ⟨t, hexec, hpending, fun hnot => hrefused 1 (moveList_gate (.inl ⟨hnot, rfl⟩)), fun hs ha hmode => hrefused 2 (moveList_gate ?parked),
      fun hs ha hmode hbusy => hrefused 3 (moveList_gate ?busy), fun hgate hbad => hrefused 5 (moveList_args hgate hbad),
      fun hgate h1 h2 h3 h4 => ⟨fun hh => hrefused 7 (moveList_homed hgate ⟨h1, h2, h3, h4⟩ hh), fun hh => ?checked⟩⟩
    case parked => exact .inr ⟨⟨hs, ha⟩, .inl ⟨not_not.mpr hmode, rfl⟩⟩
    case busy =>
      refine .inr ⟨⟨hs, ha⟩, .inr ⟨hmode, .inl ⟨fun ⟨hidle, hstays⟩ => ?_, rfl⟩⟩⟩
      rcases hbusy with hchange | hrestart
      · exact hchange hidle
      · exact Bool.false_ne_true (hstays.symm.trans hrestart)
    case checked =>
      have room {n : Nat} := moveList_room (v := v) (n := n) hgate ⟨h1, h2, h3, h4⟩ hh
      have target {n : Nat} := moveList_target (v := v) (n := n) hgate ⟨h1, h2, h3, h4⟩ hh
      exact ⟨fun hstate => hrefused 3 (room (.inl ⟨fun h => Bool.false_ne_true (hstate.symm.trans ((takesSegment_iff _).mp h)), rfl⟩)),
        fun hstate hfull => hrefused 4 (room (.inr ⟨(takesSegment_iff _).mpr hstate, .inl ⟨Nat.not_lt.mpr hfull, rfl⟩⟩)),
        fun hroom hlimit => hrefused 6 (target hroom (.inl ⟨ne_true_of_eq_false hlimit, rfl⟩)),
        fun hroom hlimit hzones => hrefused 10 (target hroom (.inr ⟨hlimit, .inl ⟨ne_true_of_eq_false hzones, rfl⟩⟩))⟩
  case touch =>
    rintro src tag a enc s u r rfl hask hr
    obtain ⟨t, hexec, hpending, hrefused⟩ := touch_refused hask
    exact ⟨t, hexec, hpending, hrefused r hr⟩
  case home =>
    rintro src tag n enc s u r rfl hask hr
    obtain ⟨t, hexec, hpending, hrefused⟩ := home_refused hask
    exact ⟨t, hexec, hpending, hrefused r hr⟩
  case index =>
    rintro src tag a b enc s u r rfl hask hr
    obtain ⟨t, hexec, hpending, hrefused⟩ := index_refused hask
    exact ⟨t, hexec, hpending, hrefused r hr⟩

end Sys2Proof.CellRequests
end

section
/-! STATUS, RESTART and request codes that name no kind (R158, R163, R164): the pages byte by byte, what a STATUS clears, and the guard. -/

namespace Sys2Proof.CellRequests

open Sys2Proof Sys2Proof.Machine Sys2Proof.Laws
open Sys2Proof.CellZones (asks_isNext)
open Sys2Proof.CellMotion (Decides refuse_refused answer_answered)

/-! ### Numbers as they are packed (11.4) -/

theorem putNat_eq_map (k n : Nat) : putNat k n = (List.range k).map fun i => BitVec.ofNat 8 (n / 256 ^ (k - 1 - i)) := by
  induction k with
  | zero => rfl
  | succ k ih =>
    rw [putNat, ih, List.range_succ_eq_map, List.map_cons, List.map_map]
    refine congrArg₂ _ rfl (List.map_congr_left fun i _ => ?_)
    show _ = BitVec.ofNat 8 (n / 256 ^ (k + 1 - 1 - (i + 1)))
    rw [show k + 1 - 1 - (i + 1) = k - 1 - i by omega]

theorem packed_nil : Says.packed [] = [] := rfl

theorem packed_cons (k n : Nat) (l : List (Nat × Nat)) : Says.packed ((k, n) :: l) = putNat k n ++ Says.packed l := by
  rw [putNat_eq_map]
  rfl

theorem packed_append (l m : List (Nat × Nat)) : Says.packed (l ++ m) = Says.packed l ++ Says.packed m := List.flatMap_append

theorem putFlag_eq (b : Bool) : putFlag b = putNat 1 (Says.flag b) := rfl

theorem putNat_zero (k : Nat) : putNat k 0 = List.replicate k 0#8 := by
  induction k with
  | zero => rfl
  | succ k ih => rw [putNat, ih, Nat.zero_div, List.replicate_succ]

/-! ### The pages (R163) -/

/-- The overflow flag and the discard count as every page ends with them. -/
def lossFields (s : Station) : List (Nat × Nat) := [(1, Says.flag s.request.overflow), (1, s.request.discards)]

/-- The claim field of page 1: the state of the station's claim and, where it stands in the claim list, the claim (11.4, R67). -/
def claimFields (s : Station) : List (Nat × Nat) :=
  match claimOf (tabs s) (me s) with
  | some c => [(1, 3), (4, c.wanted.toNat), (1, prioCode c.base), (1, Says.flag c.urgent), (1, c.passed)]
  | none =>
    [(1, match s.motion.outstanding with
      | .none => 0
      | .offered => 1
      | _ => 2), (7, 0)]

section
variable (s : Station)

theorem lossBytes_eq : lossBytes s = Says.packed (lossFields s) := by
  simp only [lossFields, packed_cons, packed_nil, List.append_nil]
  rfl

theorem pageStation_packed (n : Nat) : pageStation s n = Says.packed
    ([(1, modeCode s.loader.mode), (1, Says.flag (s.loader.mode == .parked)), (1, causeCode s.loader.cause),
      (4, s.loader.fingerprint.toNat), (1, Says.flag (tabs s).cell.formed), (6, n), (1, s.line.retry), (1, vetoCount s.line),
      (1, Says.flag s.line.drain), (1, reportHeld s.line), (1, s.line.reserved), (1, controlFrames s.line), (2, s.request.nextEvent)] ++
      lossFields s) := by
  simp only [packed_append, packed_cons, packed_nil, List.append_assoc, List.append_nil, ← lossBytes_eq]
  rfl

theorem claimField_packed : claimField s = Says.packed (claimFields s) := by
  unfold claimField claimFields
  cases claimOf (tabs s) (me s) with
  | some c => simp only [packed_cons, packed_nil, List.append_nil, putFlag_eq]
  | none => cases s.motion.outstanding <;> simp only [packed_cons, packed_nil, List.append_nil, putNat_zero]

/-- The page shows a claim in the list as it stands there. -/
theorem claimFields_some {c : Claim} (h : claimOf (tabs s) (me s) = some c) :
    claimFields s = [(1, 3), (4, c.wanted.toNat), (1, prioCode c.base), (1, Says.flag c.urgent), (1, c.passed)] := by
  unfold claimFields
  rw [h]

/-- Without a claim in the list the page shows how far the outstanding one has come (R67). -/
theorem claimFields_none (h : claimOf (tabs s) (me s) = none) :
    (s.motion.outstanding = .none → claimFields s = [(1, 0), (7, 0)]) ∧
      (s.motion.outstanding = .offered → claimFields s = [(1, 1), (7, 0)]) ∧
      (s.motion.outstanding = .taken ∨ s.motion.outstanding = .recorded → claimFields s = [(1, 2), (7, 0)]) := by
  unfold claimFields
  rw [h]
  refine ⟨fun ho => ?_, fun ho => ?_, ?_⟩
  · rw [ho]
  · rw [ho]
  · rintro (ho | ho) <;> rw [ho]

theorem pageMotion_packed : pageMotion s = Says.packed
    ([(1, chanStateCode s.motion.arm.state), (1, s.motion.arm.queue.length), (1, chanStateCode s.motion.head.state),
      (1, s.motion.head.queue.length), (1, axisFlags s.motion.homed), (1, axisFlags s.motion.fault), (1, Says.flag s.pins.trigger),
      (4, (heldHere s).toNat)] ++ claimFields s ++
      ([(1, (mounted s).getD 0), (1, changeStateCode s.change.state), (1, s.change.t),
        (1, (s.change.lastFailure.map changeCauseCode).getD 0)] ++ lossFields s)) := by
  simp only [packed_append, packed_cons, packed_nil, List.append_assoc, List.append_nil, ← lossBytes_eq, ← claimField_packed]
  unfold pageMotion
  cases s.change.lastFailure <;> rfl

/-- The fields of the eight thermal inputs, each its kind and its state. -/
theorem inputs_packed : ((List.range 8).map (· + 1)).flatMap (fun n => putNat 1 (inputKindCode (inputKind s n)) ++
      putNat 1 (thermStateCode (at1 s.thermal.inputs ⟨[], 0, 0, 0, .settling⟩ n).state)) =
    Says.packed ((List.range 8).flatMap fun i => [(1, inputKindCode (inputKind s (i + 1))),
      (1, thermStateCode (at1 s.thermal.inputs ⟨[], 0, 0, 0, .settling⟩ (i + 1)).state)]) := by
  unfold Says.packed
  rw [List.flatMap_map, List.flatMap_assoc]
  rfl

theorem pageCapture_packed : pageCapture s = Says.packed
    (([0, 1, 2, 3, 4].map fun n => (1, entryCount s n)) ++ [(2, s.touch.nextSeq)] ++
      ((List.range 8).flatMap fun i => [(1, inputKindCode (inputKind s (i + 1))),
        (1, thermStateCode (at1 s.thermal.inputs ⟨[], 0, 0, 0, .settling⟩ (i + 1)).state)]) ++ lossFields s) := by
  rw [packed_append, packed_append, ← inputs_packed, ← lossBytes_eq]
  simp only [packed_append, packed_cons, packed_nil, List.map_cons, List.map_nil, List.append_assoc, List.append_nil]
  rfl

/-- Page 0 shows the line count where there is one (log 10). -/
theorem shownCount_set {m : Nat} (h : s.line.lineCount = some m) : (shownCount s).1 = m := by
  unfold shownCount
  rw [h]

/-- A free value taken for page 0 is counted, and nothing else changes (log 10). -/
theorem shownCount_free : ∃ k, (shownCount s).2 = { s with freeUsed := k } := by
  unfold shownCount
  split
  · exact ⟨s.freeUsed, rfl⟩
  · exact ⟨_, rfl⟩

end

/-! ### A STATUS that is answered -/

/-- A STATUS is answered with the bytes of its page, the overflow flag and the discard count cleared, the units kept (R163). -/
structure Shown (s t : Station) (src : Nat) (tag : Code) (bytes : List Byte) : Prop where
  answered : Says.answered s t src ⟨tag, 11, true, 0, 0, bytes⟩
  overflow : t.request.overflow = false
  discards : t.request.discards = 0
  units : Says.unitsKeep s t
  motion : t.motion = s.motion
  touch : t.touch = s.touch
  change : t.change = s.change
  control : t.line.control = s.line.control

theorem Shown.and {s t : Station} {src : Nat} {tag : Code} {bytes : List Byte} {P : Prop} (h : Shown s t src tag bytes) (hp : P) :
    Says.answered s t src ⟨tag, 11, true, 0, 0, bytes⟩ ∧ t.request.overflow = false ∧ t.request.discards = 0 ∧ Says.unitsKeep s t ∧
      t.motion = s.motion ∧ t.touch = s.touch ∧ t.change = s.change ∧ t.line.control = s.line.control ∧ P :=
  ⟨h.answered, h.overflow, h.discards, h.units, h.motion, h.touch, h.change, h.control, hp⟩

section
variable {s : Station} (src : Nat) (tag : Code)

/-- An answer leaves the units as the request left them (R159). -/
theorem answer_unitsKeep {w : Station} (h : Says.unitsKeep s w) (a : AnswerBody) : Says.unitsKeep s (answer w src a) := by
  obtain ⟨hnow, hpins, hloader, hreplica, hthermal, hrack, henc, hfault, hfilter, hlatch, hseq, hcount, hheard, hslot, hflight, hwindow⟩ := h
  refine ⟨hnow, hpins, hloader, hreplica, hthermal, hrack, henc, hfault, hfilter, hlatch, hseq, ?_, ?_, ?_, ?_, ?_⟩
  all_goals rw [answer_line]
  all_goals assumption

theorem shown_of_answer (k : Nat) (bytes : List Byte) :
    Shown s (answer (clearLosses { takeRequest s with freeUsed := k }) src ⟨tag, 11, true, 0, 0, bytes⟩) src tag bytes where
  answered := answer_answered (u := s) (w := clearLosses { takeRequest s with freeUsed := k }) rfl rfl src _
  overflow := rfl
  discards := rfl
  units := answer_unitsKeep src ⟨rfl, rfl, rfl, rfl, rfl, rfl, rfl, rfl, rfl, rfl, rfl, rfl, rfl, rfl, rfl, rfl⟩ _
  motion := rfl
  touch := rfl
  change := rfl
  control := answer_control _ src _

theorem status_zero : ∃ n, (∀ m, s.line.lineCount = some m → n = m) ∧
    Shown s (requestStatus (takeRequest s) src tag 0) src tag (pageStation s n) := by
  refine ⟨(shownCount (takeRequest s)).1, fun m hm => shownCount_set _ hm, ?_⟩
  obtain ⟨k, hk⟩ := shownCount_free (takeRequest s)
  unfold requestStatus
  rw [hk]
  exact shown_of_answer src tag k _

theorem status_one : Shown s (requestStatus (takeRequest s) src tag 1) src tag (pageMotion s) := shown_of_answer src tag s.freeUsed _

theorem status_two : Shown s (requestStatus (takeRequest s) src tag 2) src tag (pageCapture s) := shown_of_answer src tag s.freeUsed _

theorem status_refused {page : Nat} (h : 3 ≤ page) : requestStatus (takeRequest s) src tag page = refuse (takeRequest s) src tag 11 .badArg := by
  match page, h with
  | _ + 3, _ => rfl

end

/-! ### RESTART (R164) -/

theorem restart_decides (s : Station) (g : Nat) :
    Decides [(s.request.restartPending = false, 3), (g = Config.restartGuard, 15)]
      [(!s.request.restartPending, .busy), (g == Config.restartGuard, .guardCode)] :=
  .check (r := .busy) (by simp) (.check (r := .guardCode) beq_iff_eq.symm .nil)

section
variable {s : Station} (src : Nat) (tag : Code) {g : Nat}

theorem requestRestart_refused {n : Nat} (h : Says.firstOf [(s.request.restartPending = false, 3), (g = Config.restartGuard, 15)] n) :
    Says.refused s (requestRestart (takeRequest s) src tag g) src tag 12 n :=
  decideRequest_refused (refuses_of_decides (restart_decides s g)) h src tag 12 0 _

/-- A RESTART that is accepted is owed until its ANSWER has completed. -/
theorem requestRestart_accepted (hr : s.request.restartPending = false) (hg : g = Config.restartGuard) :
    Says.answered s (requestRestart (takeRequest s) src tag g) src ⟨tag, 12, true, 0, 0, []⟩ ∧
      (requestRestart (takeRequest s) src tag g).request.restartPending = true ∧
      Says.unitsKeep s (requestRestart (takeRequest s) src tag g) ∧ (requestRestart (takeRequest s) src tag g).motion = s.motion := by
  have hpasses := (restart_decides s g).passes (List.forall_mem_cons.mpr ⟨hr, List.forall_mem_cons.mpr ⟨hg, nofun⟩⟩)
  have haccepted : requestRestart (takeRequest s) src tag g = _ := decide_none hpasses
  rw [haccepted]
  refine ⟨?answered, rfl,
    answer_unitsKeep src ⟨rfl, rfl, rfl, rfl, rfl, rfl, rfl, rfl, rfl, rfl, rfl, rfl, rfl, rfl, rfl, rfl⟩ _, rfl⟩
  apply answer_answered
  · exact rfl
  · exact rfl

end

/-! ### The statement -/

section
variable {src : Nat} {tag : Code} {s : State}

theorem exec_status {page : Nat} (hask : Says.asks s.stn src tag (.status page)) :
    exec (.status src tag page) s = .next { s with stn := requestStatus (takeRequest s.stn) src tag page } :=
  exec_request (if_pos (asks_isNext (enc := s.stn.motion.enc) hask))

theorem exec_restart {g : Nat} (hask : Says.asks s.stn src tag (.restart g)) :
    exec (.restart src tag g) s = .next { s with stn := requestRestart (takeRequest s.stn) src tag g } :=
  exec_request (if_pos (asks_isNext (enc := s.stn.motion.enc) hask))

theorem exec_unknown {code : Nat} {args : List Byte} (hask : Says.asks s.stn src tag (.unknown code args)) :
    exec (.unknownRequest src tag code args) s = .next { s with stn := requestUnknown (takeRequest s.stn) src tag code } :=
  exec_request (if_pos (asks_isNext (enc := s.stn.motion.enc) hask))

end

/-- Settles O54: `Shown` with each page in its packed form, `requestRestart_refused` and `requestRestart_accepted`, and the refusal of an
unknown code. -/
theorem statusRestartUnknown : Obligations.StatusRestartUnknown := by
  unfold Obligations.StatusRestartUnknown
  refine ⟨?status, ?restart, ?unknown⟩
  case status =>
    intro src tag page s hask
    refine ⟨_, exec_status hask, rfl, fun h => ?refused, fun h => ?shown⟩
    case refused =>
      simp only [status_refused src tag h]
      exact ⟨refuse_refused s.stn src tag 11 .badArg, rfl, rfl⟩
    case shown =>
      match page, h with
      | 0, _ =>
        obtain ⟨n, hn, hshown⟩ := status_zero (s := s.stn) src tag
        exact ⟨_, hshown.and ⟨fun _ => ⟨n, hn, pageStation_packed s.stn n⟩, nofun, nofun⟩⟩
      | 1, _ =>
        exact ⟨_, (status_one src tag).and ⟨nofun, fun _ => ⟨claimFields s.stn, pageMotion_packed s.stn,
          fun _ => claimFields_some s.stn, claimFields_none s.stn⟩, nofun⟩⟩
      | 2, _ => exact ⟨_, (status_two src tag).and ⟨nofun, nofun, fun _ => pageCapture_packed s.stn⟩⟩
  case restart =>
    intro src tag g s hask
    exact ⟨_, exec_restart hask, rfl, fun hr => requestRestart_refused src tag (.inl ⟨ne_false_of_eq_true hr, rfl⟩),
      fun hr hg => requestRestart_refused src tag (.inr ⟨hr, .inl ⟨hg, rfl⟩⟩), requestRestart_accepted src tag⟩
  case unknown =>
    intro src tag code args s hask
    refine ⟨_, exec_unknown hask, rfl, fun hr => ?busy, fun hr => ?unknown⟩
    case busy =>
      have hreason : requestUnknown (takeRequest s.stn) src tag code = refuse (takeRequest s.stn) src tag code .busy :=
        congrArg _ (if_pos hr)
      simp only [hreason]
      exact refuse_refused s.stn src tag code .busy
    case unknown =>
      have hreason : requestUnknown (takeRequest s.stn) src tag code = refuse (takeRequest s.stn) src tag code .unknownRequest :=
        congrArg _ (if_neg (ne_true_of_eq_false hr))
      simp only [hreason]
      exact refuse_refused s.stn src tag code .unknownRequest

end Sys2Proof.CellRequests
end

section
/-! Start-up and station modes: the straps, the Loader's judgement, the self restart, and the outputs that follow the mode (R168 to R175). -/

namespace Sys2Proof.CellStart

open Sys2Proof Sys2Proof.Machine Sys2Proof.Laws
open Sys2Proof.CellLine (effect exec_effect restart_pins restart_request restart_loading restart_shut)
open Sys2Proof.CellZones (exec_still)

/-! ### The straps at a restart (R168, R169, R175) -/

/-- What a restart leaves of the time, the channels, the points, the rack, the coupling output and the hold-off, at every strap number. -/
structure Restarted (s t : Station) : Prop where
  now : t.now = s.now
  holdOff : t.loader.holdOff = none
  arm : t.motion.arm = .disabled
  head : t.motion.head = .disabled
  touch : t.touch = TouchUnit.reset
  rack : ∀ p ∈ t.rack, p.lock = .locked
  coupling : t.change.output = s.pins.sensor

/-- Straps that send the station SHUT take nothing from what the restart has set. -/
theorem Restarted.sampled {s u : Station} (h : Restarted s u) : Restarted s (sampleStraps u) := by
  by_cases hstraps : u.pins.straps % 16 = 0 ∨ u.pins.straps % 16 = 15
  case pos =>
    rw [straps_pos u hstraps]
    refine ⟨h.now, rfl, rfl, rfl, ?touch, List.forall_mem_map.mpr h.rack, h.coupling⟩
    case touch =>
      show { u.touch with points := List.replicate 24 .free } = TouchUnit.reset
      rw [h.touch]
      rfl
  case neg =>
    rw [straps_neg u hstraps]
    exact ⟨h.now, h.holdOff, h.arm, h.head, h.touch, h.rack, h.coupling⟩

theorem restart_restarted (s : Station) (c : ResetCause) : Restarted s (restart s c) :=
  Restarted.sampled ⟨rfl, rfl, rfl, rfl, rfl, rack_locked _ (.inl rfl), rfl⟩

theorem restart_mode (s : Station) (c : ResetCause) :
    (restart s c).loader.mode = if s.pins.straps % 16 = 0 ∨ s.pins.straps % 16 = 15 then .shut else .loading := by
  split
  next h =>
    obtain ⟨hmode, -⟩ := restart_shut h c
    exact hmode
  next h => exact restart_loading h c

/-! ### The OUT hold-off (R173, R175) -/

theorem outHoldOffExpiry_restarts {s : Station} {due : Nat} (straps : Nat) (hmode : s.loader.mode = .out) (hheld : s.loader.held = false)
    (hdue : s.loader.holdOff = some due) :
    effect (.outHoldOffExpiry straps) s = restart (setStraps (atDue s due) straps) .self := by
  show holdOffOver s straps = _
  unfold holdOffOver
  rw [hdue]
  exact if_pos ⟨hmode, hheld⟩

/-- Settles O13: the hold-off ends in `restart` at the straps that the command brings. -/
theorem holdOffRestarts : Obligations.HoldOffRestarts := by
  unfold Obligations.HoldOffRestarts
  intro straps s due hmode hheld hdue
  refine ⟨{ s with stn := effect (.outHoldOffExpiry straps) s.stn }, exec_effect _ s, rfl, ?_⟩
  simp only [outHoldOffExpiry_restarts straps hmode hheld hdue]
  generalize hu : setStraps (atDue s.stn due) straps = u
  have hstraps : u.pins.straps % 16 = straps % 16 := by rw [← hu]; exact Nat.mod_mod straps 16
  obtain ⟨hcause, hline, hreplica, henc, hhomed, hrecord, hnumber⟩ := restart_facts u .self
  have hleft := restart_restarted u .self
  have hrestart := restart_mode u .self
  rw [hstraps] at hnumber hrestart
  subst hu
  exact ⟨hleft.now, restart_pins _ _, hcause, hnumber, hleft.holdOff, hrecord, henc, hhomed, hline, hreplica, hleft.arm, hleft.head,
    congrArg _ hleft.touch, congrArg _ hleft.touch, restart_request _ _, hleft.rack, hleft.coupling, hrestart⟩

/-! ### RESET released (R168, R169) -/

/-- The station out of reset before its straps are judged (R168). -/
def released (s : Station) (straps : Nat) : Station :=
  { setStraps s straps with
    loader := { s.loader with held := false, cause := .powerOn }
    motion := { s.motion with filter := freshFilters s } }

theorem resetRelease_held {s : Station} (straps : Nat) (h : s.loader.held = true) :
    effect (.resetRelease straps) s = sampleStraps (released s straps) := if_pos h

theorem resetRelease_notHeld {s : Station} (straps : Nat) (h : s.loader.held = false) : effect (.resetRelease straps) s = s :=
  if_neg (ne_true_of_eq_false h)

theorem released_straps {straps : Nat} (s : Station) (h : straps < 16) : (released s straps).pins.straps % 16 = straps :=
  (Nat.mod_mod straps 16).trans (Nat.mod_eq_of_lt h)

/-- Settles O10: a station that is held samples the straps in `released`; the others stay as they are. -/
theorem resetReleaseSamplesStraps : Obligations.ResetReleaseSamplesStraps := by
  unfold Obligations.ResetReleaseSamplesStraps
  intro straps s hlow
  refine ⟨{ s with stn := effect (.resetRelease straps) s.stn }, exec_effect _ s, rfl, fun hheld => ?stays, fun hheld => ?samples⟩
  case stays => rw [resetRelease_notHeld straps hheld]
  case samples =>
    simp only [resetRelease_held straps hheld]
    have hnumber := released_straps s.stn hlow
    by_cases hend : straps = 0 ∨ straps = 15
    case pos =>
      rw [straps_pos _ (by rwa [hnumber])]
      exact ⟨rfl, rfl, hnumber, fun _ _ => by omega, fun _ => enterShut_mode _ _⟩
    case neg =>
      rw [straps_neg _ (by rwa [hnumber])]
      exact ⟨rfl, rfl, hnumber, fun _ _ => ⟨rfl, rfl, rfl⟩, fun h => absurd h hend⟩

/-! ### An image that the Loader refuses (R170, R171, R179) -/

section
variable {bytes : List Byte} {k : Nat}

theorem judgeImage_image (h : imageGood (memory bytes) = false) : judgeImage bytes k = .shut .image none := by
  simp [judgeImage, h]

theorem judgeImage_role (himage : imageGood (memory bytes) = true) (hrole : roleGood (memory bytes) k = false) :
    judgeImage bytes k = .shut .role (some (check32 (cellBytes (memory bytes)))) := by
  simp [judgeImage, himage, hrole]

/-- Bytes that read as no image and an image with a value out of its range are refused alike (log 16). -/
theorem judgeImage_range (himage : imageGood (memory bytes) = true) (hrole : roleGood (memory bytes) k = true)
    (hrange : ∀ im ∈ readImage (memory bytes), rangeGood im k = false) :
    judgeImage bytes k = .shut .range (some (check32 (cellBytes (memory bytes)))) := by
  cases hread : readImage (memory bytes) with
  | none => simp [judgeImage, himage, hrole, hread]
  | some im => simp [judgeImage, himage, hrole, hread, hrange im hread]

theorem loadImage_shut {s : Station} {r : ShutReason} {fp : Option Print} (h : judgeImage bytes s.loader.number = .shut r fp) :
    (loadImage s bytes).loader.mode = .shut ∧ (loadImage s bytes).loader.shutReason = some r := by
  unfold loadImage
  rw [h]
  exact enterShut_mode _ _

theorem imageReadComplete_loads {s : Station} (hheld : s.loader.held = false) (hmode : s.loader.mode = .loading) :
    effect (.imageReadComplete bytes) s = loadImage s bytes := if_pos ⟨hheld, hmode⟩

end

/-- Settles O12: one judgement for each check that fails first, each of them a SHUT. -/
theorem refusedImageShuts : Obligations.RefusedImageShuts := by
  unfold Obligations.RefusedImageShuts
  intro bytes s hheld hmode
  refine ⟨{ s with stn := effect (.imageReadComplete bytes) s.stn }, exec_effect _ s, ?_⟩
  simp only [imageReadComplete_loads hheld hmode]
  exact ⟨fun himage => loadImage_shut (judgeImage_image himage),
    fun himage hrole => loadImage_shut (judgeImage_role himage hrole),
    fun himage hrole hrange => loadImage_shut (judgeImage_range himage hrole hrange)⟩

/-! ### The outputs that follow the mode (R172) -/

theorem working_iff (s : Station) : working s = true ↔ s.loader.held = false ∧ s.loader.mode = .active := by
  simp [working]

theorem listening_iff (s : Station) : listening s = true ↔
    s.loader.held = false ∧ (s.loader.mode = .joining ∨ s.loader.mode = .active ∨ s.loader.mode = .parked) := by
  unfold listening
  cases s.loader.mode <;> simp

theorem driveEnable_iff (s : Station) :
    driveEnable s = true ↔ s.loader.held = false ∧ s.loader.mode = .active ∧ (ownOf s).axes ≠ [] := by
  have haxes : ((ownOf s).axes.length != 0) = true ↔ (ownOf s).axes ≠ [] := by simp
  rw [driveEnable, Bool.and_eq_true, working_iff, haxes, and_assoc]

theorem driveEnable_of_axisEnable {s : Station} {ax : Axis} (h : axisEnable s ax = true) : driveEnable s = true := by
  rw [axisEnable, Bool.and_assoc, Bool.and_eq_true] at h
  exact h.left

/-- Settles O14: DRIVE_ENABLE is that of a working station with axes, STATION_OK that of a listening one. -/
theorem outputsFollowMode : Obligations.OutputsFollowMode := by
  unfold Obligations.OutputsFollowMode
  exact fun s => ⟨driveEnable_iff s, listening_iff s, fun _ => driveEnable_of_axisEnable⟩

end Sys2Proof.CellStart
end

section
/-! Frame formats: the bytes of a frame on the line, and their reading back (11.1, 11.4, R176). -/

namespace Sys2Proof.CellFrames

open Sys2Proof Sys2Proof.Machine Sys2Proof.Laws
open Sys2Proof.CellLine (checkedFormat receive_framed formatGood_header)

/-! ### The layout of a frame (11.1, R176) -/

theorem ofNat_div_eq_extract (k : Nat) (p : Print) : BitVec.ofNat 8 (p.toNat / 256 ^ k) = p.extractLsb' (8 * k) 8 := by
  rw [BitVec.extractLsb', Nat.shiftRight_eq_div_pow, Nat.pow_mul]

/-- A check is sent most significant byte first. -/
theorem putPrint_extract (p : Print) :
    putPrint p = [p.extractLsb' 24 8, p.extractLsb' 16 8, p.extractLsb' 8 8, p.extractLsb' 0 8] := by
  simp only [putPrint, putNat, ofNat_div_eq_extract]

/-- The layout of the header in the bytes of `receive_framed`: kind, sender and destination, flags, length. -/
theorem putFront_layout (f : Frame) : putFront f =
    [BitVec.ofNat 8 (Body.kind f.body), BitVec.ofNat 8 (16 * f.h.sender + f.h.dest), BitVec.ofNat 8 (hdrFlags f.h),
      BitVec.ofNat 8 (putBody f.body).length] ++ putBody f.body := by
  rw [putFront_eq, Nat.mul_comm f.h.sender 16]
  rfl

/-! ### Reading a frame back (11.1, 11.4) -/

theorem toNat_ofNat_byte {n : Nat} (h : n < 256) : (BitVec.ofNat 8 n).toNat = n := Nat.mod_eq_of_lt h

/-- A well-formed frame's body is read from its own bytes, to the last one. -/
theorem readAll_putBody {c : CellPart} {b : Body} (hg : bodyGood c b = true) (hf : bodyFits b = true) :
    readAll (getBody (Body.kind b) (putBody b).length) (putBody b) = some b := by
  have hread : getBody (Body.kind b) (putBody b).length (putBody b) = some (b, []) := getBody_reads hg hf
  rw [readAll, hread]

/-- The judgement of a well-formed frame's header bytes and body is that frame. -/
theorem checkedFormat_put {c : CellPart} {f : Frame} (hg : formatGood c f = true) (hf : bodyFits f.body = true) :
    checkedFormat c (BitVec.ofNat 8 (Body.kind f.body)) (BitVec.ofNat 8 (16 * f.h.sender + f.h.dest)) (BitVec.ofNat 8 (hdrFlags f.h))
      (putBody f.body) = .good f := by
  obtain ⟨-, hsender, hdest, -⟩ := formatGood_header hg
  have hbody : bodyGood c f.body = true := body_good hg
  have hlen : ¬ 60 < (putBody f.body).length := Nat.not_lt.mpr (putBody_length hbody)
  have hkind : (BitVec.ofNat 8 (Body.kind f.body)).toNat = Body.kind f.body := toNat_ofNat_byte (kind_lt f.body)
  have haddr : (BitVec.ofNat 8 (16 * f.h.sender + f.h.dest)).toNat = f.h.sender * 16 + f.h.dest := by
    rw [toNat_ofNat_byte (by omega), Nat.mul_comm]
  have hflags : (BitVec.ofNat 8 (hdrFlags f.h)).toNat = hdrFlags f.h := toNat_ofNat_byte (hdrFlags_lt f.h)
  have hhdr : hdrOf (f.h.sender * 16 + f.h.dest) (hdrFlags f.h) = f.h := hdrOf_put f.h (by omega) (by omega)
  rw [checkedFormat, if_neg hlen, hkind, readAll_putBody hbody hf, haddr, hflags, hhdr]
  exact if_pos hg

/-- Every well-formed frame whose numbers fit their fields reads back from its bytes. -/
theorem receive_putFrame {c : CellPart} {f : Frame} (hg : formatGood c f = true) (hf : bodyFits f.body = true) :
    receive c (putFrame f) = .good f := by
  have hmax : (putBody f.body).length ≤ 60 := putBody_length (body_good hg)
  have hlen : (putBody f.body).length = (BitVec.ofNat 8 (putBody f.body).length).toNat := (toNat_ofNat_byte (by omega)).symm
  have hframed := receive_framed c (BitVec.ofNat 8 (Body.kind f.body)) (BitVec.ofNat 8 (16 * f.h.sender + f.h.dest))
    (BitVec.ofNat 8 (hdrFlags f.h)) (BitVec.ofNat 8 (putBody f.body).length) [] hlen (putPrint_length (check32 (putFront f)))
  rw [List.append_nil, ← putFront_layout, if_neg (not_not_intro rfl), checkedFormat_put hg hf] at hframed
  exact hframed

/-! ### The check of the nine digits (R176) -/

theorem check32_digits : check32 [0x31#8, 0x32#8, 0x33#8, 0x34#8, 0x35#8, 0x36#8, 0x37#8, 0x38#8, 0x39#8] = 0xE3069283#32 := by
  simp [check32, checkByte, checkBit]

/-- Settles O27: the layout of the header and of the check, byte by byte, and the reading back of header, body and check. -/
theorem framesReadBack : Obligations.FramesReadBack := by
  unfold Obligations.FramesReadBack
  refine ⟨fun c f hg hf => receive_putFrame hg hf, ?layout, check32_digits⟩
  case layout =>
    rintro f front check hfront rfl
    have hput : putFront f = front := (putFront_layout f).trans hfront.symm
    rw [putFrame, hput, putPrint_extract]

end Sys2Proof.CellFrames
end

section
/-! The queue and the step: one equation of `step` for each shape of the queue, and the answer of every command (log 1, log 3). -/

namespace Sys2Proof.CellQueue

open Sys2Proof Sys2Proof.Machine
open Sys2Proof.CellLine (effect exec_effect)

/-! ### The equations of `step` (log 1) -/

theorem step_of_empty {s : State} (h : s.pending = []) : step s = .next (idle s) := by
  rw [step, h]

theorem step_of_front {s : State} {c : Instr} {rest : List Instr} (h : s.pending = c :: rest) :
    step s = exec c { s with pending := rest } := by
  rw [step, h]

/-! ### The statements -/

/-- Settles O1: the queue has a front, and the rest that the command acts with replaces the queue that held it. -/
theorem stepRunsFront : Obligations.StepRunsFront := by
  unfold Obligations.StepRunsFront
  intro c rest s
  exact step_of_front rfl

/-- Settles O2: the state after idling is the one whose time is 1 ms later. -/
theorem stepIdlesOnEmptyQueue : Obligations.StepIdlesOnEmptyQueue := by
  unfold Obligations.StepIdlesOnEmptyQueue
  intro s hempty
  rw [step_of_empty hempty, idle]

/-- Settles O3: a command changes the station alone (`exec_effect`, arm by arm of `exec`), so it answers a next state, with the
queue it was given. -/
theorem everyCommandAnswersNext : Obligations.EveryCommandAnswersNext := by
  unfold Obligations.EveryCommandAnswersNext
  intro c s
  have hnext : exec c s = .next { s with stn := effect c s.stn } := exec_effect c s
  exact ⟨{ s with stn := effect c s.stn }, hnext, rfl⟩

end Sys2Proof.CellQueue
end
